-- ==== Sys2Proof/Word.lean ====
section
/-! DEFINITION. The word types of the Bereamund and the type of a sparse table.
Bits are numbered from 0, the least significant; multi-byte values in memory are little-endian (R1). -/

namespace Sys2Proof

/-- One byte of memory (R1). -/
abbrev Byte := BitVec 8
/-- A strand's 32-bit register slice (R70). -/
abbrev Word := BitVec 32
/-- A scalar register, a system register, an address in 64-bit arithmetic (R44, R84). -/
abbrev Dword := BitVec 64
/-- The 128 bits of a capability (R87). -/
abbrev Quad := BitVec 128
/-- One bit for each of a gang's 32 strands (R45, %lanes). -/
abbrev Mask := BitVec 32
/-- A program counter: bits 56-6 the line, bits 2-0 the slot (R41). -/
abbrev Pc := BitVec 64
/-- A context's 16-bit address-space number (R84). -/
abbrev Asid := BitVec 16
/-- One encoded instruction (R43). -/
abbrev InstrWord := BitVec 96

/-- A table from numbers to values in one canonical form: keys strictly rising and no entry equal to
what an unlisted key reads as. -/
abbrev Sparse (α : Type) := List (Nat × α)

/-- The keys of a table rise strictly. -/
def Sparse.rising {α : Type} : Sparse α → Bool
  | [] => true
  | [_] => true
  | (a, _) :: (b, w) :: t => decide (a < b) && Sparse.rising ((b, w) :: t)

/-- The canonical form of a table whose unlisted keys read as `d`. -/
def Sparse.wf {α : Type} [DecidableEq α] (d : α) (m : Sparse α) : Bool :=
  Sparse.rising m && m.all (fun e => decide (e.2 ≠ d))

end Sys2Proof
end

