-- ==== Sys2Proof/Config.lean ====
section
/-! DEFINITION. What the part fixes (R13) and the values the spec leaves open.
A free value is an `opaque` constant with no body: nothing can evaluate it and no proof can lean on it. -/

namespace Sys2Proof.Config

/-- Strands of a gang (R7). -/
def strands : Nat := 32
/-- Dies of the package (R13). -/
def dies : Nat := 4
/-- Clusters of a die (R13). -/
def clustersPerDie : Nat := 12
/-- Cores of a cluster (R13). -/
def coresPerCluster : Nat := 4
/-- Issue slots of a core (R13). -/
def slotsPerCore : Nat := 4
/-- Gang places of an issue slot (R13). -/
def gangsPerSlot : Nat := 16
/-- Gangs of a slot's active set (R330). -/
def activePerSlot : Nat := 8
/-- Vector register file of a core in bytes (R13). -/
def vrfBytes : Nat := 524288
/-- Scratchpad of a core in bytes (R157). -/
def scratchBytes : Nat := 262144
/-- Marionettes of a cluster and strand slots of one (R13). -/
def marionettes : Nat := 8
def marionetteSlots : Nat := 4
/-- Named barriers of a core (R13). -/
def barriersPerCore : Nat := 96
/-- Side-log entries of a core (R103). -/
def sideLogEntries : Nat := 256
/-- Lines of a core's instruction buffer (R40). -/
def ibufLines : Nat := 64
/-- Entries of a crew's handle table (R177). -/
def handleEntries : Nat := 64
/-- Pending destination windows of a crew (R165). -/
def windowsPerCrew : Nat := 8
/-- Copy-engine queue entries and operations in work (R185). -/
def copyQueue : Nat := 64
def copyInWork : Nat := 4
/-- Scarab queue entries (R274). -/
def scarabQueue : Nat := 16
/-- Accumulator rows of a matrix engine (R234). -/
def accRows : Nat := 1024
/-- Resident contexts (R376). -/
def maxContexts : Nat := 64
/-- Launch ids (R385). -/
def launchIds : Nat := 255
/-- L1 organisation (R109). -/
def l1Sets : Nat := 128
def l1Ways : Nat := 16
/-- Cluster cache and L2 slice organisation (R109). -/
def clusterSets : Nat := 4096
def sliceSets : Nat := 2048
def cacheWays : Nat := 16
/-- Slices of a die, memory links of a die, translations of an MTLB (R13, R99). -/
def slicesPerDie : Nat := 16
def linksPerDie : Nat := 24
def mtlbEntries : Nat := 2048
/-- Clusters that may hold V copies of one line (R117). -/
def maxVCopies : Nat := 8
/-- Parked ways of any set (R121). -/
def maxParkedWays : Nat := 8
/-- Open ejection groups of a gang (R315). -/
def maxGroups : Nat := 4
/-- Queues of a cluster's queue unit (R341). -/
def queuesPerCluster : Nat := 16
/-- Physical addresses run below this; those below `memTop` are memory (R96). -/
def paTop : Nat := 0x30000000000
def memTop : Nat := 0x2FC00000000
/-- Bases of the address windows (R84). -/
def ownBase : Nat := 0x01FE000000000000
def ownTop : Nat := 0x01FF000000000000
def scratchBase : Nat := 0x01FFFFFF00000000
def scratchTop : Nat := 0x01FFFFFF00040000
/-- Cycles after which a retraining Plovlan port is declared down (R291). -/
def retrainLimit : Nat := 1350000
/-- Cycles a cluster holds a power token before a waiting cluster gets it (R243). -/
def tokenHold : Nat := 2048
/-- What a byte of memory reads as that nothing has written: the spec gives no power-on contents
(DESIGN CHOICE, log 1; unsafe). -/
def memDefault : Byte := 0

/-- The next unspecified value, named by a counter that State holds (log 10): a register outside the
carry set after resumption (R339), an undefined byte of a NIC completion entry (R389). -/
opaque freeValue : Nat → BitVec 64
/-- The signature check of a firmware stage against the fused vendor key (R390): key and algorithm
output are the part's own (free value, log 12). -/
opaque stageVerifies : List Byte → List Byte → Bool
/-- The device identity public key derived from the fused secret and MEAS0 (R391; free value, log 12). -/
opaque identityKey : BitVec 512 → List Byte
/-- The ML-DSA-87 signature by the identity key (R391; free value, log 12). -/
opaque signReport : BitVec 512 → List Byte → List Byte

end Sys2Proof.Config
end

