-- ==== Sys2Proof/Syntax.lean ====
section
/-! DEFINITION. The steps of the Bereamund: `Instr` has one constructor per row of spec/opcode_table.json, the
instructions with their operands and the device's own events with what they concern.
Operand selectors, types and sizes are names here; their codes are in Decode.lean. -/

namespace Sys2Proof

/-- The read-only specials of R45. -/
inductive Special where
  | strand | gang | crew | cohort | stage | core | cluster | die | lanes | clock
deriving DecidableEq, Repr

/-- An operand selector (R44). The reserved values have no name here: they raise ILLEGAL_OPERAND. -/
inductive Sel where
  | v (n : BitVec 7)
  | s (n : BitVec 6)
  | p (n : BitVec 3)
  | g (n : BitVec 2)
  | sp (k : Special)
  | imm
  | none
deriving DecidableEq, Repr

/-- The type codes of R50. -/
inductive Ty where
  | untyped | i8 | i16 | i32 | i64 | n8 | n16 | n32 | n64 | f32 | f16 | bf16 | e4m3 | e5m2 | e2m3 | e3m2 | e2m1
  | mx8 | mx6 | mx6b | mx4 | t2
deriving DecidableEq, Repr

/-- The size codes of R49. -/
inductive Size where
  | s1 | s2 | s4 | s8 | s16
deriving DecidableEq, Repr

/-- The fields every instruction has: STALL and the guard (R43). -/
structure Hdr where
  stall : BitVec 4
  gn : Bool
  gp : BitVec 3
deriving DecidableEq, Repr

/-- The typed FN layout with the arithmetic MOD layout (R49, R54). -/
structure Typed where
  hdr : Hdr
  ty : Ty
  var : BitVec 3
  d : Sel
  a : Sel
  b : Sel
  c : Sel
  rnd : BitVec 3
  sat : Bool
  nega : Bool
  negb : Bool
  absa : Bool
  absb : Bool
  imm : Word
deriving DecidableEq, Repr

/-- The typed layout with a second type in C (R51). -/
structure Conv where
  hdr : Hdr
  dt : Ty
  st : Ty
  var : BitVec 3
  d : Sel
  a : Sel
  b : Sel
  rnd : BitVec 3
  sat : Bool
  imm : Word
deriving DecidableEq, Repr

/-- The sized layout of the loads and stores (R130): `x73` is bit 73, SX of a load and CC of INVAL. -/
structure MemOp where
  hdr : Hdr
  size : Size
  capb : Bool
  x73 : Bool
  scope : BitVec 3
  order : BitVec 2
  policy : BitVec 3
  d : Sel
  a : Sel
  b : Sel
  c : Sel
  rset : BitVec 16
  off : BitVec 16
deriving DecidableEq, Repr

/-- The sized layout of the atomics (R173). -/
structure AtomOp where
  hdr : Hdr
  size : Size
  op : BitVec 4
  capb : Bool
  scope : BitVec 3
  order : BitVec 2
  policy : BitVec 3
  d : Sel
  a : Sel
  b : Sel
  c : Sel
  off : BitVec 16
deriving DecidableEq, Repr

/-- CAPCHK (R152): `perms` bit 0 read, 1 write, 2 park, 3 seal. -/
structure ChkOp where
  hdr : Hdr
  size : Size
  perms : BitVec 4
  d : Sel
  a : Sel
  b : Sel
  off : BitVec 16
deriving DecidableEq, Repr

/-- The function layout (R49): `fn` the sub-function, `md` the MOD byte as the entry defines it. -/
structure Fun where
  hdr : Hdr
  fn : BitVec 8
  d : Sel
  a : Sel
  b : Sel
  c : Sel
  md : BitVec 8
  imm : Word
deriving DecidableEq, Repr

/-- BRX (R314): `disp` is the rejoin line displacement of D and C, `slot` the rejoin slot. -/
structure BrxOp where
  hdr : Hdr
  disp : BitVec 16
  a : Sel
  b : Sel
  slot : BitVec 3
  imm : Word
deriving DecidableEq, Repr

/-- What an access to memory does (R100, and ACCESS of a fault record, R384). -/
inductive Access where
  | load | store | atomic | fetch | engineRead | engineWrite | nic
deriving DecidableEq, Repr

/-- Where a Plovlan peer's access lands, and the port by which it arrives (R388). -/
structure PortAddr where
  port : Nat
  pa : Nat
deriving DecidableEq, Repr

/-- The host ports (R380). -/
inductive Port where
  | portA | portB
deriving DecidableEq, Repr

/-- The driver rings (R384). -/
inductive Ring where
  | fault | event
deriving DecidableEq, Repr

/-- The crew a GANGCTL write names, by its global number, with the GANG field beside it (R381, R386). -/
structure CrewGang where
  number : Nat
  gang : Nat
deriving DecidableEq, Repr

/-- The BAR0 registers that a plain write only stores (R381), and the firmware-update mailbox. -/
inductive Bar0Reg where
  | peermap (i : Nat)
  | gangctlIgnored
  | firmwareUpdate
  | unassigned (offset : Nat)
deriving DecidableEq, Repr

/-- A firmware stage as the boot ROM meets it (R390). -/
structure FirmwareStage where
  image : List Byte
  signature : List Byte
deriving DecidableEq, Repr

/-- An inbound RoCE request (R389). -/
inductive RoceRequest where
  | write (va : Dword) (data : List Byte)
  | writeImm (va : Dword) (data : List Byte) (immediate : Word)
  | read (va : Dword) (n : Nat)
  | send (data : List Byte)
deriving DecidableEq, Repr

/-- One constructor per row of spec/opcode_table.json, in its order. -/
inductive Instr where
  /-- IADD: a + b, wrapping or clamped (R216). -/
  | iadd (x : Typed)
  /-- ISUB: a - b (R216). -/
  | isub (x : Typed)
  /-- IMUL: a * b (R216). -/
  | imul (x : Typed)
  /-- IMULH: high half of the exact product (R216). -/
  | imulh (x : Typed)
  /-- IMAD: a * b + c (R216). -/
  | imad (x : Typed)
  /-- IDIV: quotient (R218). -/
  | idiv (x : Typed)
  /-- IREM: remainder (R218). -/
  | irem (x : Typed)
  /-- IMIN: minimum (R216). -/
  | imin (x : Typed)
  /-- IMAX: maximum (R216). -/
  | imax (x : Typed)
  /-- AND: a AND b (R216). -/
  | and (x : Typed)
  /-- OR: a OR b (R216). -/
  | or (x : Typed)
  /-- XOR: a XOR b (R216). -/
  | xor (x : Typed)
  /-- ANDN: a AND NOT b (R216). -/
  | andn (x : Typed)
  /-- SHL: left shift (R217). -/
  | shl (x : Typed)
  /-- SHR: logical right shift (R217). -/
  | shr (x : Typed)
  /-- SAR: arithmetic right shift (R217). -/
  | sar (x : Typed)
  /-- ROT: rotate (R216, R217). -/
  | rot (x : Typed)
  /-- BFX: bit-field extract (R219). -/
  | bfx (x : Typed)
  /-- BFI: bit-field insert (R219). -/
  | bfi (x : Typed)
  /-- POPC: count of 1 bits (R216). -/
  | popc (x : Typed)
  /-- CLZ: leading zero bits (R216). -/
  | clz (x : Typed)
  /-- BREV: bit reversal (R216). -/
  | brev (x : Typed)
  /-- ICMP: integer comparison (R220). -/
  | icmp (x : Typed)
  /-- SEL: select (R220). -/
  | sel (x : Typed)
  /-- MOV: move (R220). -/
  | mov (x : Typed)
  /-- LEA: a + (b << k) (R221). -/
  | lea (x : Typed)
  /-- PRMT: byte permute or funnel (R221). -/
  | prmt (x : Typed)
  /-- PLOP: predicate truth table (R220). -/
  | plop (x : Typed)
  /-- IDOT4: four-byte dot product (R221). -/
  | idot4 (x : Typed)
  /-- IABS: absolute value (R216). -/
  | iabs (x : Typed)
  /-- FADD: a + b rounded once (R222). -/
  | fadd (x : Typed)
  /-- FSUB: a - b (R222). -/
  | fsub (x : Typed)
  /-- FMUL: a * b (R222). -/
  | fmul (x : Typed)
  /-- FFMA: a * b + c, one rounding (R222). -/
  | ffma (x : Typed)
  /-- FMIN: minimum (R224). -/
  | fmin (x : Typed)
  /-- FMAX: maximum (R224). -/
  | fmax (x : Typed)
  /-- FCMP: comparison (R223). -/
  | fcmp (x : Typed)
  /-- FCLASS: class mask (R223). -/
  | fclass (x : Typed)
  /-- FRCP: reciprocal (R225). -/
  | frcp (x : Typed)
  /-- FRSQ: reciprocal square root (R225). -/
  | frsq (x : Typed)
  /-- FSQRT: square root (R225). -/
  | fsqrt (x : Typed)
  /-- FEXP2: power of two (R225). -/
  | fexp2 (x : Typed)
  /-- FLOG2: base-2 logarithm (R225). -/
  | flog2 (x : Typed)
  /-- FDIV: division (R222). -/
  | fdiv (x : Typed)
  /-- FSCALE: a * 2^n (R226). -/
  | fscale (x : Typed)
  /-- FROUND: round to an integral value (R226). -/
  | fround (x : Typed)
  /-- HADD2: packed addition (R227). -/
  | hadd2 (x : Typed)
  /-- HMUL2: packed multiplication (R227). -/
  | hmul2 (x : Typed)
  /-- HFMA2: packed fused multiply-add (R227). -/
  | hfma2 (x : Typed)
  /-- CVT: conversion to a float type (R228). -/
  | cvt (x : Conv)
  /-- CVTI: conversion to an integer type (R228). -/
  | cvti (x : Conv)
  /-- MXPACK: pack an MX block (R229). -/
  | mxpack (x : Conv)
  /-- MXUNPACK: expand an MX block (R230). -/
  | mxunpack (x : Conv)
  /-- TERNQ: ternary quantisation (R231). -/
  | ternq (x : Conv)
  /-- LD: load (R136). -/
  | ld (x : MemOp)
  /-- ST: store (R137). -/
  | st (x : MemOp)
  /-- LDC: load a capability (R139). -/
  | ldc (x : MemOp)
  /-- STC: store a capability (R139). -/
  | stc (x : MemOp)
  /-- LDP: load from the context window (R138). -/
  | ldp (x : MemOp)
  /-- STP: store to the context window (R138). -/
  | stp (x : MemOp)
  /-- LDS: load from scratch (R168). -/
  | lds (x : MemOp)
  /-- STS: store to scratch (R168). -/
  | sts (x : MemOp)
  /-- PARK: reserve lines at a park level (R144). -/
  | park (x : Fun)
  /-- UNPARK: clear reservations (R144). -/
  | unpark (x : Fun)
  /-- REVISE: move parked lines (R144). -/
  | revise (x : Fun)
  /-- PREFETCH: fill lines towards the core (R146). -/
  | prefetch (x : MemOp)
  /-- FLUSH: make memory current (R146). -/
  | flush (x : MemOp)
  /-- INVAL: drop the ordinary L1 copy (R146). -/
  | inval (x : MemOp)
  /-- CAPSET: tag a pair, privileged (R149). -/
  | capset (x : Fun)
  /-- CAPNARROW_RANGE: sub-range (R150). -/
  | capnarrowRange (x : Fun)
  /-- CAPNARROW_PERM: fewer permissions (R150). -/
  | capnarrowPerm (x : Fun)
  /-- CAPNARROW_SUBTILE: sub-tile (R150). -/
  | capnarrowSubtile (x : Fun)
  /-- CAPNARROW_VERSION: newer version (R150). -/
  | capnarrowVersion (x : Fun)
  /-- CAPNARROW_RETYPE: give a format (R150). -/
  | capnarrowRetype (x : Fun)
  /-- CAPGET: read a field (R151). -/
  | capget (x : Fun)
  /-- CAPCHK: test an access (R152). -/
  | capchk (x : ChkOp)
  /-- CAPMOV: copy a pair and its tag (R153). -/
  | capmov (x : Fun)
  /-- SEAL: seal frames (R155). -/
  | seal (x : Fun)
  /-- SEAL_OPEN: unseal frames (R155). -/
  | sealOpen (x : Fun)
  /-- RESEAL: advance seal versions (R155). -/
  | reseal (x : Fun)
  /-- ATOM: atomic with return (R174). -/
  | atom (x : AtomOp)
  /-- RED: reduction (R174). -/
  | red (x : AtomOp)
  /-- CAS: compare and swap (R174). -/
  | cas (x : AtomOp)
  /-- ATOMS: scratch atomic (R175). -/
  | atoms (x : AtomOp)
  /-- CASS: scratch compare and swap (R175). -/
  | cass (x : AtomOp)
  /-- FENCE: acquire, release or both (R290). -/
  | fence (x : Fun)
  /-- FENCE_SC: sequentially consistent fence (R285). -/
  | fenceSc (x : Fun)
  /-- FENCE_COMPLETE: the fence of gang `g` is complete (R290). -/
  | fenceComplete (g : Nat)
  /-- BAR_SYNC: arrive, then wait (R352). -/
  | barSync (x : Fun)
  /-- BAR_ARRIVE: arrive (R352). -/
  | barArrive (x : Fun)
  /-- BAR_WAIT: wait (R352). -/
  | barWait (x : Fun)
  /-- BARSET: set the arrival count (R352). -/
  | barset (x : Fun)
  /-- WAITH: wait for a handle (R181). -/
  | waith (x : Fun)
  /-- TESTH: state of a handle (R180). -/
  | testh (x : Fun)
  /-- CANCELH: request cancellation (R183). -/
  | cancelh (x : Fun)
  /-- BRA: guarded branch (R312). -/
  | bra (x : Fun)
  /-- BRX: branch that may eject (R315). -/
  | brx (x : BrxOp)
  /-- JOIN: rejoin (R319). -/
  | join (x : Fun)
  /-- CALL: call (R312). -/
  | call (x : Fun)
  /-- RET: branch to a register (R312). -/
  | ret (x : Fun)
  /-- JMPR: jump to a register (R312). -/
  | jmpr (x : Fun)
  /-- LOOP: count and branch (R312). -/
  | loop (x : Fun)
  /-- EXIT: strands become DONE (R322). -/
  | exit (x : Fun)
  /-- YIELD: swap the gang out (R323). -/
  | yield (x : Fun)
  /-- NOP: only the PC (R324). -/
  | nop (x : Fun)
  /-- SHFL: read another member (R266). -/
  | shfl (x : Typed)
  /-- VOTE: vote (R267). -/
  | vote (x : Typed)
  /-- BALLOT: mask of a predicate (R267). -/
  | ballot (x : Typed)
  /-- REDUX: combine a subgroup (R268). -/
  | redux (x : Typed)
  /-- SCAN: running combination (R268). -/
  | scan (x : Typed)
  /-- PART: record a partition (R260). -/
  | part (x : Typed)
  /-- MATCH: members with an equal value (R267). -/
  | matchI (x : Typed)
  /-- ELECT: lowest participant (R267). -/
  | elect (x : Typed)
  /-- PRIO_TAKE: take the priority token (R270). -/
  | prioTake (x : Typed)
  /-- PRIO_PASS: pass the priority token (R270). -/
  | prioPass (x : Typed)
  /-- PRIO_DROP: drop the priority token (R270). -/
  | prioDrop (x : Typed)
  /-- SMXSTEP: online softmax step (R271). -/
  | smxstep (x : Typed)
  /-- MXLOADW: load a weight tile (R246). -/
  | mxloadw (x : Fun)
  /-- MXSWAP: exchange the planes (R248). -/
  | mxswap (x : Fun)
  /-- MXRUN: stream activation rows (R250). -/
  | mxrun (x : Fun)
  /-- MXFENCE: order scratch writes (R251). -/
  | mxfence (x : Fun)
  /-- MXDRAIN: drain rows to a capability (R254). -/
  | mxdrain (x : Typed)
  /-- MXDRAIN_R: drain a row to registers (R254). -/
  | mxdrainR (x : Typed)
  /-- MXZERO: zero rows (R255). -/
  | mxzero (x : Fun)
  /-- MXSTAT: engine state (R256). -/
  | mxstat (x : Fun)
  /-- MXSTAT_FLAGSCLR: flag word, then cleared (R256). -/
  | mxstatFlagsclr (x : Fun)
  /-- COPY: converting copy (R190). -/
  | copy (x : Fun)
  /-- GATHER: gather rows (R195). -/
  | gather (x : Fun)
  /-- SCATTER: scatter rows (R195). -/
  | scatter (x : Fun)
  /-- SLIST_INIT: build an empty list (R204). -/
  | slistInit (x : Fun)
  /-- SLIST_STAT: field of a list (R204). -/
  | slistStat (x : Fun)
  /-- SPLICE_INS: insert pieces (R205). -/
  | spliceIns (x : Fun)
  /-- SPLICE_REMOVE: remove a range (R205). -/
  | spliceRemove (x : Fun)
  /-- SPLICE_TRUNC: truncate (R205). -/
  | spliceTrunc (x : Fun)
  /-- SPLICE_PERFORM: the stitch unit applies splice `op` (R205). -/
  | splicePerform (op : Nat)
  /-- PIN: pin the head (R207). -/
  | pin (x : Fun)
  /-- PIN_VER: pin a version (R207). -/
  | pinVer (x : Fun)
  /-- UNPIN: drop a pin (R207). -/
  | unpin (x : Fun)
  /-- SLOOK: resolve an index (R208). -/
  | slook (x : Fun)
  /-- RECLAIM: remove dead entries (R209). -/
  | reclaim (x : Fun)
  /-- TOPK: top-k selection (R272). -/
  | topk (x : Fun)
  /-- QPUSH: push items (R345). -/
  | qpush (x : Fun)
  /-- QPOP: pop items (R345). -/
  | qpop (x : Fun)
  /-- QSTEAL: steal items (R345). -/
  | qsteal (x : Fun)
  /-- QSTAT: queue state (R349). -/
  | qstat (x : Fun)
  /-- QBIND_BIND: bind (R350). -/
  | qbindBind (x : Fun)
  /-- QBIND_UNBIND: unbind (R350). -/
  | qbindUnbind (x : Fun)
  /-- QBIND_CLOSE: close (R350). -/
  | qbindClose (x : Fun)
  /-- QBIND_OPEN: open (R350). -/
  | qbindOpen (x : Fun)
  /-- TRAP: software trap (R369). -/
  | trap (x : Fun)
  /-- BRK: breakpoint (R369). -/
  | brk (x : Fun)
  /-- MFSR: read a system register (R370). -/
  | mfsr (x : Fun)
  /-- MTSR: write a system register (R370). -/
  | mtsr (x : Fun)
  /-- MTSR_PARKCTL: write PARKCTL and latch the table (R116). -/
  | mtsrParkctl (x : Fun)
  /-- RFT: return from trap (R371). -/
  | rft (x : Fun)
  /-- SRSEED: load strand rounding states (R372). -/
  | srseed (x : Fun)
  /-- SRSEED_G: load the uniform rounding state (R372). -/
  | srseedG (x : Fun)
  /-- CTXSAVE: save a context (R378). -/
  | ctxsave (x : Fun)
  /-- CTXLOAD: load a context (R378). -/
  | ctxload (x : Fun)
  /-- TLBINV_RANGE: invalidate a range (R375). -/
  | tlbinvRange (x : Fun)
  /-- TLBINV_ASID: invalidate an ASID (R375). -/
  | tlbinvAsid (x : Fun)
  /-- TLBINV_ALL: invalidate everything (R375). -/
  | tlbinvAll (x : Fun)
  /-- TLBINV_SPLINTER: splinter a large page (R101). -/
  | tlbinvSplinter (x : Fun)
  /-- HALT_WAIT: escalate and suspend (R373). -/
  | haltWait (x : Fun)
  /-- HALT_KILL: kill the crew (R373). -/
  | haltKill (x : Fun)
  /-- LINE_FETCH: the line gang `g` issues from arrives; `noise1` and `noise2` are the bits a soft error flips in the first copy and in the second (R39). -/
  | lineFetch (g : Nat) (noise1 noise2 : BitVec 512)
  /-- FIXED_RESULT_DELIVERY: the fixed-latency results of gang `g` that are due land (R35). -/
  | fixedResultDelivery (g : Nat)
  /-- VARIABLE_RESULT_LANDS: the variable-latency results of gang `g` land (R58). -/
  | variableResultLands (g : Nat)
  /-- GANG_SWAP: slot `slot` swaps a waiting active gang for a ready pending one (R332). -/
  | gangSwap (slot : Nat)
  /-- HANDOVER_OUT_COMPLETE: ejected strand `g` starts on its marionette slot (R316). -/
  | handoverOutComplete (g : Nat)
  /-- HANDBACK_COMPLETE: ejected strand `g` is back in the PC table (R316). -/
  | handbackComplete (g : Nat)
  /-- REJOINWAIT_EXPIRY: the wait of ejection group `grp` of gang `g` runs out (R319). -/
  | rejoinwaitExpiry (g grp : Nat)
  /-- MTLB_WALK: a page-table walk completes (R99). -/
  | mtlbWalk (asid : Asid) (va : Dword) (acc : Access) (isPriv : Bool)
  /-- SIDELOG_REPLAY: the first replayable side-log entry of a core replays (R104). -/
  | sidelogReplay (core : Nat)
  /-- FIRMWARE_PATH_COMPLETE: firmware finishes engine operation `op` (R188). -/
  | firmwarePathComplete (op : Nat)
  /-- COPY_OP_START: the next copy-engine operation starts (R185). -/
  | copyOpStart (cluster : Nat)
  /-- COPY_OP_COMPLETE: copy-engine operation `op` completes (R178). -/
  | copyOpComplete (op : Nat)
  /-- TOPK_START: the scarab starts its next operation (R274). -/
  | topkStart (cluster : Nat)
  /-- TOPK_COMPLETE: the scarab completes `op` (R273). -/
  | topkComplete (op : Nat)
  /-- MXLOADW_DISPATCH: a weight load dispatches (R240). -/
  | mxloadwDispatch (op : Nat)
  /-- MXLOADW_COMPLETE: a weight load completes (R241). -/
  | mxloadwComplete (op : Nat)
  /-- MXSWAP_DISPATCH: the planes exchange (R241). -/
  | mxswapDispatch (op : Nat)
  /-- MXRUN_DISPATCH: a run dispatches and is checked (R250). -/
  | mxrunDispatch (op : Nat)
  /-- MXRUN_COMPLETE: a run completes (R250). -/
  | mxrunComplete (op : Nat)
  /-- MXDRAIN_DISPATCH: a drain dispatches (R254). -/
  | mxdrainDispatch (op : Nat)
  /-- MXDRAIN_COMPLETE: a drain completes (R254). -/
  | mxdrainComplete (op : Nat)
  /-- MXZERO_DISPATCH: rows are zeroed (R255). -/
  | mxzeroDispatch (op : Nat)
  /-- ENGINE_BARRIER_ARRIVAL: the engine arrives at the barrier `op` names (R242). -/
  | engineBarrierArrival (op : Nat)
  /-- TOKEN_ARRIVAL: power token `tok` reaches the next cluster of its ring (R243). -/
  | tokenArrival (tok : Nat)
  /-- TOKEN_RELEASE: the holder passes token `tok` on (R243). -/
  | tokenRelease (tok : Nat)
  /-- TOKEN_HOLD_EXPIRY: 2048 cycles of holding token `tok` are over (R243). -/
  | tokenHoldExpiry (tok : Nat)
  /-- BOOST_RECOMPUTE: effective classes are recomputed (R336). -/
  | boostRecompute
  /-- QPOP_WAKE: the blocked QPOP.B of gang `g` is served (R346). -/
  | qpopWake (g : Nat)
  /-- QPUSH_WAKE: the waiting QPUSH.B of gang `g` pushes (R348). -/
  | qpushWake (g : Nat)
  /-- QPUSH_WAIT_EXPIRY: the QPUSH.B wait of gang `g` runs out (R346). -/
  | qpushWaitExpiry (g : Nat)
  /-- COHORT_PLACEMENT: the next cohort of launch `lid` is placed (R329). -/
  | cohortPlacement (lid : Nat)
  /-- PREEMPTION: crews blocked in QPOP.B make room for a cohort of launch `lid` (R340). -/
  | preemption (lid : Nat)
  /-- CREW_RESUME: pre-empted crew `crew` is reloaded (R339). -/
  | crewResume (crew : Nat)
  /-- CREW_RETIRE: crew `crew` retires (R184). -/
  | crewRetire (crew : Nat)
  /-- HOST_MEM_WRITE: a host write over CXL.mem (R306). -/
  | hostMemWrite (pa : Nat) (data : List Byte)
  /-- HOST_MEM_READ: a host read of `n` bytes (R305). -/
  | hostMemRead (pa n : Nat)
  /-- PEER_MEM_WRITE: a Plovlan peer writes at the home (R306, R388). -/
  | peerMemWrite (pa : PortAddr) (data : List Byte)
  /-- PEER_MEM_READ: a Plovlan peer reads at the home (R307, R388). -/
  | peerMemRead (pa : PortAddr) (n : Nat)
  /-- PEER_PUSH: a peer pushes an item (R307). -/
  | peerPush (cluster q : Nat) (item : BitVec 512)
  /-- HSEM_CLAIM: a write of 1 to HSEM (R381). -/
  | hsemClaim (port : Port)
  /-- HSEM_RELEASE: a write of 0 to HSEM (R381). -/
  | hsemRelease (port : Port)
  /-- RING_HEAD_WRITE: the host advances a ring (R384). -/
  | ringHeadWrite (ring : Ring) (head : Word)
  /-- LAUNCH_DOORBELL: a LAUNCHDB write (R385). -/
  | launchDoorbell (value : Dword)
  /-- GANG_RESUME: GANGCTL action 1 (R386). -/
  | gangResume (asid : Asid) (crewNo gang : Nat)
  /-- CREW_KILL: GANGCTL action 2 (R386). -/
  | crewKill (asid : Asid) (crew : CrewGang)
  /-- FAULT_RESOLVE: FAULTRESP with REFUSE 0 (R384). -/
  | faultResolve (id : Nat)
  /-- FAULT_REFUSE: FAULTRESP with REFUSE 1 (R100). -/
  | faultRefuse (id : Nat)
  /-- POWERCFG_WRITE: a POWERCFG write (R393). -/
  | powercfgWrite (port : Port) (tokens : BitVec 16)
  /-- WARM_RESET: a RESETCTL write of 1 (R390). -/
  | warmReset (port : Port)
  /-- CTXDB_LOAD: a CTXDB write (R387). -/
  | ctxdbLoad (port : Port) (value : Dword)
  /-- CTXDB_LOAD_COMPLETE: a context load finishes (R387). -/
  | ctxdbLoadComplete
  /-- TAILDB: a host tail doorbell (R382). -/
  | taildb (cluster q : Nat) (value : Word)
  /-- HEADDB: a host head doorbell (R382). -/
  | headdb (cluster q : Nat) (value : Word)
  /-- BAR0_REGISTER_WRITE: a BAR0 register with no behaviour of its own (R381). -/
  | bar0RegisterWrite (port : Port) (reg : Bar0Reg) (value : Dword)
  /-- COLD_RESET: the boot ROM measures and verifies the stages (R390). -/
  | coldReset (stages : List FirmwareStage)
  /-- FUNCTION_LEVEL_RESET: one port is reset (R390). -/
  | functionLevelReset (port : Port)
  /-- HOST_LINK_DOWN: a host link goes down (R381). -/
  | hostLinkDown (port : Port)
  /-- PORT_RETRAIN_COMPLETE: Plovlan port `i` finishes retraining (R291). -/
  | portRetrainComplete (i : Nat)
  /-- PORT_RETRAIN_TIMEOUT: Plovlan port `i` is declared down (R291). -/
  | portRetrainTimeout (i : Nat)
  /-- POWER_THERMAL_LIMIT: firmware lowers the token counts (R393). -/
  | powerThermalLimit (tokens : BitVec 16)
  /-- POWER_THERMAL_CLEAR: firmware raises the token counts (R393). -/
  | powerThermalClear (tokens : BitVec 16)
  /-- CRITICAL_TEMPERATURE: firmware performs a warm reset (R393). -/
  | criticalTemperature
  /-- ATTESTATION_REPORT: the mailbox produces a report (R391). -/
  | attestationReport (port : Port) (nonce : BitVec 512)
  /-- NIC_DOORBELL: a send-ring tail store (R389). -/
  | nicDoorbell (qp : Nat) (tail : Word)
  /-- NIC_COMPLETION: the NIC pushes a completion entry (R389). -/
  | nicCompletion (qp : Nat)
  /-- ILLEGAL_OPCODE_ISSUE: a gang issues an all-zero word or a reserved OP (R63). -/
  | illegalOpcodeIssue (w : InstrWord)
  /-- FAULTQ_EVENTQ_WRITE: a write of FAULTQ or EVENTQ (R384). -/
  | faultqEventqWrite (ring : Ring) (value : Dword)
  /-- PORT_RETRAIN_BEGIN: Plovlan port `i` begins retraining (R291). -/
  | portRetrainBegin (i : Nat)
  /-- ROCE_INBOUND_REQUEST: the NIC performs an inbound request (R389). -/
  | roceInboundRequest (qp : Nat) (req : RoceRequest)
deriving DecidableEq, Repr

end Sys2Proof
end

