-- ==== Sys2Proof/Decode.lean ====
section
/-! DEFINITION. The 96-bit instruction word: its fields (R43), the decode checks in the order of R64 with what each
records (R63), the decoder, and after it the encoder. The checks on values a register or memory supplies are made by
the instruction's meaning. -/

namespace Sys2Proof

/-- The fields of an instruction word (R43). -/
structure Fields where
  op : BitVec 8
  stall : BitVec 4
  gn : Bool
  gp : BitVec 3
  fn : BitVec 8
  d : BitVec 8
  a : BitVec 8
  b : BitVec 8
  c : BitVec 8
  md : BitVec 8
  imm : BitVec 32
deriving DecidableEq, Repr

/-- The fields of a word (R43). -/
def Fields.ofWord (w : InstrWord) : Fields :=
  { op := w.extractLsb' 88 8, stall := w.extractLsb' 84 4, gn := w.getLsbD 83, gp := w.extractLsb' 80 3,
    fn := w.extractLsb' 72 8, d := w.extractLsb' 64 8, a := w.extractLsb' 56 8, b := w.extractLsb' 48 8,
    c := w.extractLsb' 40 8, md := w.extractLsb' 32 8, imm := w.extractLsb' 0 32 }

/-- The word of the fields (R43). -/
def Fields.toWord (f : Fields) : InstrWord :=
  f.op ++ f.stall ++ BitVec.ofBool f.gn ++ f.gp ++ f.fn ++ f.d ++ f.a ++ f.b ++ f.c ++ f.md ++ f.imm

/-- The specials in the order of their selectors (R45). -/
def Special.index : Special → Nat
  | .strand => 0 | .gang => 1 | .crew => 2 | .cohort => 3 | .stage => 4 | .core => 5 | .cluster => 6 | .die => 7
  | .lanes => 8 | .clock => 9

/-- The special of an index (R45). -/
def Special.ofIndex : Nat → Option Special
  | 0 => some .strand | 1 => some .gang | 2 => some .crew | 3 => some .cohort | 4 => some .stage | 5 => some .core
  | 6 => some .cluster | 7 => some .die | 8 => some .lanes | 9 => some .clock | _ => none

/-- The selector value of an operand (R44). -/
def Sel.code : Sel → BitVec 8
  | .v n => n.setWidth 8
  | .s n => 0x80 + n.setWidth 8
  | .p n => 0xC0 + n.setWidth 8
  | .g n => 0xC8 + n.setWidth 8
  | .sp k => BitVec.ofNat 8 (0xE0 + k.index)
  | .imm => 0xF0
  | .none => 0xFF

/-- What a selector value names; the reserved values name nothing (R44). -/
def Sel.ofCode (b : BitVec 8) : Option Sel :=
  if b < 0x80 then some (.v (b.setWidth 7))
  else if b < 0xC0 then some (.s (b.setWidth 6))
  else if b < 0xC8 then some (.p (b.setWidth 3))
  else if b < 0xCC then some (.g (b.setWidth 2))
  else if b < 0xE0 then Option.none
  else if b < 0xEA then (Special.ofIndex (b.toNat - 0xE0)).map .sp
  else if b = 0xF0 then some .imm
  else if b = 0xFF then some .none
  else Option.none

/-- The operand of a selector that has passed the checks. -/
def Sel.ofCodeD (b : BitVec 8) : Sel := (Sel.ofCode b).getD .none

/-- The type codes (R50). -/
def Ty.code : Ty → BitVec 5
  | .untyped => 0x00 | .i8 => 0x01 | .i16 => 0x02 | .i32 => 0x03 | .i64 => 0x04 | .n8 => 0x05 | .n16 => 0x06
  | .n32 => 0x07 | .n64 => 0x08 | .f32 => 0x09 | .f16 => 0x0A | .bf16 => 0x0B | .e4m3 => 0x0C | .e5m2 => 0x0D
  | .e2m3 => 0x0E | .e3m2 => 0x0F | .e2m1 => 0x10 | .mx8 => 0x11 | .mx6 => 0x12 | .mx6b => 0x13 | .mx4 => 0x14
  | .t2 => 0x15

/-- The type of a code; 0x16 to 0x1F are reserved (R50). -/
def Ty.ofCode (b : BitVec 5) : Option Ty :=
  match b.toNat with
  | 0x00 => some .untyped | 0x01 => some .i8 | 0x02 => some .i16 | 0x03 => some .i32 | 0x04 => some .i64
  | 0x05 => some .n8 | 0x06 => some .n16 | 0x07 => some .n32 | 0x08 => some .n64 | 0x09 => some .f32
  | 0x0A => some .f16 | 0x0B => some .bf16 | 0x0C => some .e4m3 | 0x0D => some .e5m2 | 0x0E => some .e2m3
  | 0x0F => some .e3m2 | 0x10 => some .e2m1 | 0x11 => some .mx8 | 0x12 => some .mx6 | 0x13 => some .mx6b
  | 0x14 => some .mx4 | 0x15 => some .t2 | _ => none

/-- The type of a code that has passed the checks. -/
def Ty.ofCodeD (b : BitVec 5) : Ty := (Ty.ofCode b).getD .untyped

/-- The size codes (R49). -/
def Size.code : Size → BitVec 3
  | .s1 => 0 | .s2 => 1 | .s4 => 2 | .s8 => 3 | .s16 => 4

/-- The size of a code; 5 to 7 are not defined (R49). -/
def Size.ofCode (b : BitVec 3) : Option Size :=
  match b.toNat with
  | 0 => some .s1 | 1 => some .s2 | 2 => some .s4 | 3 => some .s8 | 4 => some .s16 | _ => none

/-- The size of a code that has passed the checks. -/
def Size.ofCodeD (b : BitVec 3) : Size := (Size.ofCode b).getD .s1

/-- The bytes of an access. -/
def Size.bytes : Size → Nat
  | .s1 => 1 | .s2 => 2 | .s4 => 4 | .s8 => 8 | .s16 => 16

/-- The element width of a type in bits (R66, R68, R70); of an MX type that of its elements. -/
def Ty.bits : Ty → Nat
  | .untyped => 32 | .i8 => 8 | .i16 => 16 | .i32 => 32 | .i64 => 64 | .n8 => 8 | .n16 => 16 | .n32 => 32 | .n64 => 64
  | .f32 => 32 | .f16 => 16 | .bf16 => 16 | .e4m3 => 8 | .e5m2 => 8 | .e2m3 => 6 | .e3m2 => 6 | .e2m1 => 4
  | .mx8 => 8 | .mx6 => 6 | .mx6b => 6 | .mx4 => 4 | .t2 => 2

/-- The float types (R66). -/
def Ty.isFloat : Ty → Bool
  | .f32 | .f16 | .bf16 | .e4m3 | .e5m2 | .e2m3 | .e3m2 | .e2m1 => true
  | _ => false

/-- The integer types, untyped not among them (R216, R228). -/
def Ty.isInt : Ty → Bool
  | .i8 | .i16 | .i32 | .i64 | .n8 | .n16 | .n32 | .n64 => true
  | _ => false

/-- The signed integer types (R216). -/
def Ty.isSigned : Ty → Bool
  | .i8 | .i16 | .i32 | .i64 => true
  | _ => false

/-- The MX block types (R229). -/
def Ty.isMx : Ty → Bool
  | .mx8 | .mx6 | .mx6b | .mx4 => true
  | _ => false

/-! The operand structures from the fields and back. -/

/-- STALL and guard. -/
def Fields.hdr (f : Fields) : Hdr := { stall := f.stall, gn := f.gn, gp := f.gp }

/-- The typed layout (R49, R54). -/
def Fields.typed (f : Fields) : Typed :=
  { hdr := f.hdr, ty := Ty.ofCodeD (f.fn.extractLsb' 3 5), var := f.fn.extractLsb' 0 3, d := Sel.ofCodeD f.d,
    a := Sel.ofCodeD f.a, b := Sel.ofCodeD f.b, c := Sel.ofCodeD f.c, rnd := f.md.extractLsb' 5 3,
    sat := f.md.getLsbD 4, nega := f.md.getLsbD 3, negb := f.md.getLsbD 2, absa := f.md.getLsbD 1,
    absb := f.md.getLsbD 0, imm := f.imm }

/-- The typed layout with a second type (R51). -/
def Fields.conv (f : Fields) : Conv :=
  { hdr := f.hdr, dt := Ty.ofCodeD (f.fn.extractLsb' 3 5), st := Ty.ofCodeD (f.c.extractLsb' 0 5),
    var := f.fn.extractLsb' 0 3, d := Sel.ofCodeD f.d, a := Sel.ofCodeD f.a, b := Sel.ofCodeD f.b,
    rnd := f.md.extractLsb' 5 3, sat := f.md.getLsbD 4, imm := f.imm }

/-- The sized layout of loads and stores (R130). -/
def Fields.memOp (f : Fields) : MemOp :=
  { hdr := f.hdr, size := Size.ofCodeD (f.fn.extractLsb' 5 3), capb := f.fn.getLsbD 0, x73 := f.fn.getLsbD 1,
    scope := f.md.extractLsb' 5 3, order := f.md.extractLsb' 3 2, policy := f.md.extractLsb' 0 3,
    d := Sel.ofCodeD f.d, a := Sel.ofCodeD f.a, b := Sel.ofCodeD f.b, c := Sel.ofCodeD f.c,
    rset := f.imm.extractLsb' 16 16, off := f.imm.extractLsb' 0 16 }

/-- The sized layout of the atomics (R173). -/
def Fields.atomOp (f : Fields) : AtomOp :=
  { hdr := f.hdr, size := Size.ofCodeD (f.fn.extractLsb' 5 3), op := f.fn.extractLsb' 1 4, capb := f.fn.getLsbD 0,
    scope := f.md.extractLsb' 5 3, order := f.md.extractLsb' 3 2, policy := f.md.extractLsb' 0 3,
    d := Sel.ofCodeD f.d, a := Sel.ofCodeD f.a, b := Sel.ofCodeD f.b, c := Sel.ofCodeD f.c,
    off := f.imm.extractLsb' 0 16 }

/-- The sized layout of CAPCHK (R152). -/
def Fields.chkOp (f : Fields) : ChkOp :=
  { hdr := f.hdr, size := Size.ofCodeD (f.fn.extractLsb' 5 3), perms := f.fn.extractLsb' 0 4,
    d := Sel.ofCodeD f.d, a := Sel.ofCodeD f.a, b := Sel.ofCodeD f.b, off := f.imm.extractLsb' 0 16 }

/-- The function layout (R49). -/
def Fields.fun (f : Fields) : Fun :=
  { hdr := f.hdr, fn := f.fn, d := Sel.ofCodeD f.d, a := Sel.ofCodeD f.a, b := Sel.ofCodeD f.b,
    c := Sel.ofCodeD f.c, md := f.md, imm := f.imm }

/-- BRX, whose D and C are no selectors (R314). -/
def Fields.brxOp (f : Fields) : BrxOp :=
  { hdr := f.hdr, disp := f.d ++ f.c, a := Sel.ofCodeD f.a, b := Sel.ofCodeD f.b, slot := f.md.extractLsb' 5 3,
    imm := f.imm }

/-- The assigned major opcodes (R60). -/
inductive Op where
  | iadd | isub | imul | imulh | imad | idiv | irem | imin | imax | and | or | xor | andn | shl | shr | sar | rot
  | bfx | bfi | popc | clz | brev | icmp | sel | mov | lea | prmt | plop | idot4 | iabs | fadd | fsub | fmul | ffma
  | fmin | fmax | fcmp | fclass | frcp | frsq | fsqrt | fexp2 | flog2 | fdiv | fscale | fround | hadd2 | hmul2
  | hfma2 | cvt | cvti | mxpack | mxunpack | ternq | ld | st | ldc | stc | ldp | stp | lds | sts | park | unpark
  | revise | prefetch | flush | inval | capset | capnarrow | capget | capchk | capmov | seal | reseal | atom | red
  | cas | atoms | cass | fence | bar | barset | waith | testh | cancelh | bra | brx | join | call | ret | jmpr
  | loop | exit | yield | nop | shfl | vote | ballot | redux | scan | part | matchI | elect | prio | smxstep
  | mxloadw | mxswap | mxrun | mxfence | mxdrain | mxzero | mxstat | copy | gather | scatter | slist | splice | pin
  | unpin | slook | reclaim | topk | qpush | qpop | qsteal | qstat | qbind | trap | brk | mfsr | mtsr | rft | srseed
  | ctxsave | ctxload | tlbinv | halt
deriving DecidableEq, Repr

/-- OP of each opcode (R60). -/
def Op.code : Op → BitVec 8
  | .iadd => 0x01
  | .isub => 0x02
  | .imul => 0x03
  | .imulh => 0x04
  | .imad => 0x05
  | .idiv => 0x06
  | .irem => 0x07
  | .imin => 0x08
  | .imax => 0x09
  | .and => 0x0A
  | .or => 0x0B
  | .xor => 0x0C
  | .andn => 0x0D
  | .shl => 0x0E
  | .shr => 0x0F
  | .sar => 0x10
  | .rot => 0x11
  | .bfx => 0x12
  | .bfi => 0x13
  | .popc => 0x14
  | .clz => 0x15
  | .brev => 0x16
  | .icmp => 0x17
  | .sel => 0x18
  | .mov => 0x19
  | .lea => 0x1A
  | .prmt => 0x1B
  | .plop => 0x1C
  | .idot4 => 0x1D
  | .iabs => 0x1E
  | .fadd => 0x20
  | .fsub => 0x21
  | .fmul => 0x22
  | .ffma => 0x23
  | .fmin => 0x24
  | .fmax => 0x25
  | .fcmp => 0x26
  | .fclass => 0x27
  | .frcp => 0x28
  | .frsq => 0x29
  | .fsqrt => 0x2A
  | .fexp2 => 0x2B
  | .flog2 => 0x2C
  | .fdiv => 0x2D
  | .fscale => 0x2E
  | .fround => 0x2F
  | .hadd2 => 0x30
  | .hmul2 => 0x31
  | .hfma2 => 0x32
  | .cvt => 0x40
  | .cvti => 0x41
  | .mxpack => 0x42
  | .mxunpack => 0x43
  | .ternq => 0x44
  | .ld => 0x50
  | .st => 0x51
  | .ldc => 0x52
  | .stc => 0x53
  | .ldp => 0x54
  | .stp => 0x55
  | .lds => 0x56
  | .sts => 0x57
  | .park => 0x58
  | .unpark => 0x59
  | .revise => 0x5A
  | .prefetch => 0x5B
  | .flush => 0x5C
  | .inval => 0x5D
  | .capset => 0x60
  | .capnarrow => 0x61
  | .capget => 0x62
  | .capchk => 0x63
  | .capmov => 0x64
  | .seal => 0x65
  | .reseal => 0x66
  | .atom => 0x70
  | .red => 0x71
  | .cas => 0x72
  | .atoms => 0x73
  | .cass => 0x74
  | .fence => 0x75
  | .bar => 0x76
  | .barset => 0x77
  | .waith => 0x78
  | .testh => 0x79
  | .cancelh => 0x7A
  | .bra => 0x80
  | .brx => 0x81
  | .join => 0x82
  | .call => 0x83
  | .ret => 0x84
  | .jmpr => 0x85
  | .loop => 0x86
  | .exit => 0x87
  | .yield => 0x88
  | .nop => 0x89
  | .shfl => 0x90
  | .vote => 0x91
  | .ballot => 0x92
  | .redux => 0x93
  | .scan => 0x94
  | .part => 0x95
  | .matchI => 0x96
  | .elect => 0x97
  | .prio => 0x98
  | .smxstep => 0x99
  | .mxloadw => 0xA0
  | .mxswap => 0xA1
  | .mxrun => 0xA2
  | .mxfence => 0xA3
  | .mxdrain => 0xA4
  | .mxzero => 0xA5
  | .mxstat => 0xA6
  | .copy => 0xB0
  | .gather => 0xB1
  | .scatter => 0xB2
  | .slist => 0xB3
  | .splice => 0xB4
  | .pin => 0xB5
  | .unpin => 0xB6
  | .slook => 0xB7
  | .reclaim => 0xB8
  | .topk => 0xB9
  | .qpush => 0xC0
  | .qpop => 0xC1
  | .qsteal => 0xC2
  | .qstat => 0xC3
  | .qbind => 0xC4
  | .trap => 0xD0
  | .brk => 0xD1
  | .mfsr => 0xD2
  | .mtsr => 0xD3
  | .rft => 0xD4
  | .srseed => 0xD5
  | .ctxsave => 0xD6
  | .ctxload => 0xD7
  | .tlbinv => 0xD8
  | .halt => 0xD9

/-- The opcode an OP value names; `none` is ILLEGAL_OPCODE (R60, R63). -/
def Op.ofCode (b : BitVec 8) : Option Op :=
  match b.toNat with
  | 0x01 => some .iadd
  | 0x02 => some .isub
  | 0x03 => some .imul
  | 0x04 => some .imulh
  | 0x05 => some .imad
  | 0x06 => some .idiv
  | 0x07 => some .irem
  | 0x08 => some .imin
  | 0x09 => some .imax
  | 0x0A => some .and
  | 0x0B => some .or
  | 0x0C => some .xor
  | 0x0D => some .andn
  | 0x0E => some .shl
  | 0x0F => some .shr
  | 0x10 => some .sar
  | 0x11 => some .rot
  | 0x12 => some .bfx
  | 0x13 => some .bfi
  | 0x14 => some .popc
  | 0x15 => some .clz
  | 0x16 => some .brev
  | 0x17 => some .icmp
  | 0x18 => some .sel
  | 0x19 => some .mov
  | 0x1A => some .lea
  | 0x1B => some .prmt
  | 0x1C => some .plop
  | 0x1D => some .idot4
  | 0x1E => some .iabs
  | 0x20 => some .fadd
  | 0x21 => some .fsub
  | 0x22 => some .fmul
  | 0x23 => some .ffma
  | 0x24 => some .fmin
  | 0x25 => some .fmax
  | 0x26 => some .fcmp
  | 0x27 => some .fclass
  | 0x28 => some .frcp
  | 0x29 => some .frsq
  | 0x2A => some .fsqrt
  | 0x2B => some .fexp2
  | 0x2C => some .flog2
  | 0x2D => some .fdiv
  | 0x2E => some .fscale
  | 0x2F => some .fround
  | 0x30 => some .hadd2
  | 0x31 => some .hmul2
  | 0x32 => some .hfma2
  | 0x40 => some .cvt
  | 0x41 => some .cvti
  | 0x42 => some .mxpack
  | 0x43 => some .mxunpack
  | 0x44 => some .ternq
  | 0x50 => some .ld
  | 0x51 => some .st
  | 0x52 => some .ldc
  | 0x53 => some .stc
  | 0x54 => some .ldp
  | 0x55 => some .stp
  | 0x56 => some .lds
  | 0x57 => some .sts
  | 0x58 => some .park
  | 0x59 => some .unpark
  | 0x5A => some .revise
  | 0x5B => some .prefetch
  | 0x5C => some .flush
  | 0x5D => some .inval
  | 0x60 => some .capset
  | 0x61 => some .capnarrow
  | 0x62 => some .capget
  | 0x63 => some .capchk
  | 0x64 => some .capmov
  | 0x65 => some .seal
  | 0x66 => some .reseal
  | 0x70 => some .atom
  | 0x71 => some .red
  | 0x72 => some .cas
  | 0x73 => some .atoms
  | 0x74 => some .cass
  | 0x75 => some .fence
  | 0x76 => some .bar
  | 0x77 => some .barset
  | 0x78 => some .waith
  | 0x79 => some .testh
  | 0x7A => some .cancelh
  | 0x80 => some .bra
  | 0x81 => some .brx
  | 0x82 => some .join
  | 0x83 => some .call
  | 0x84 => some .ret
  | 0x85 => some .jmpr
  | 0x86 => some .loop
  | 0x87 => some .exit
  | 0x88 => some .yield
  | 0x89 => some .nop
  | 0x90 => some .shfl
  | 0x91 => some .vote
  | 0x92 => some .ballot
  | 0x93 => some .redux
  | 0x94 => some .scan
  | 0x95 => some .part
  | 0x96 => some .matchI
  | 0x97 => some .elect
  | 0x98 => some .prio
  | 0x99 => some .smxstep
  | 0xA0 => some .mxloadw
  | 0xA1 => some .mxswap
  | 0xA2 => some .mxrun
  | 0xA3 => some .mxfence
  | 0xA4 => some .mxdrain
  | 0xA5 => some .mxzero
  | 0xA6 => some .mxstat
  | 0xB0 => some .copy
  | 0xB1 => some .gather
  | 0xB2 => some .scatter
  | 0xB3 => some .slist
  | 0xB4 => some .splice
  | 0xB5 => some .pin
  | 0xB6 => some .unpin
  | 0xB7 => some .slook
  | 0xB8 => some .reclaim
  | 0xB9 => some .topk
  | 0xC0 => some .qpush
  | 0xC1 => some .qpop
  | 0xC2 => some .qsteal
  | 0xC3 => some .qstat
  | 0xC4 => some .qbind
  | 0xD0 => some .trap
  | 0xD1 => some .brk
  | 0xD2 => some .mfsr
  | 0xD3 => some .mtsr
  | 0xD4 => some .rft
  | 0xD5 => some .srseed
  | 0xD6 => some .ctxsave
  | 0xD7 => some .ctxload
  | 0xD8 => some .tlbinv
  | 0xD9 => some .halt
  | _ => none

/-! ILLEGAL_FIELD: each check lists the offending bit numbers it finds; the lowest is recorded (R63, R64). -/

/-- The lowest 1 bit of a value, counted from `base`: bits that must be zero offend by themselves (R64). -/
def lowOne (base : Nat) : Nat → Nat → List Nat
  | 0, _ => []
  | n + 1, x => if x % 2 = 1 then [base] else lowOne (base + 1) n (x / 2)

/-- Bits `hi` to `lo` of IMM must be zero. -/
def Fields.immZero (f : Fields) (hi lo : Nat) : List Nat :=
  lowOne lo 32 ((f.imm.extractLsb' lo (hi + 1 - lo)).toNat)

/-- MOD bits below `n` must be zero (R55); they stand at bit 32 of the word. -/
def Fields.mdZero (f : Fields) (n : Nat) : List Nat := lowOne 32 8 ((f.md.extractLsb' 0 n).toNat)

/-- A value refused as a whole offends at `bit` (R64). -/
def refusedAt (bit : Nat) (bad : Bool) : List Nat := if bad then [bit] else []

/-- The type in FN, if not reserved. -/
def Fields.ty (f : Fields) : Option Ty := Ty.ofCode (f.fn.extractLsb' 3 5)
/-- The second type in C, if not reserved (R51). -/
def Fields.ty2 (f : Fields) : Option Ty := Ty.ofCode (f.c.extractLsb' 0 5)
/-- The typed variant. -/
def Fields.var (f : Fields) : Nat := (f.fn.extractLsb' 0 3).toNat
/-- The size code. -/
def Fields.size (f : Fields) : Nat := (f.fn.extractLsb' 5 3).toNat
/-- MOD 39-37, 36-35 and 34-32 in the memory layout (R52). -/
def Fields.scope (f : Fields) : Nat := (f.md.extractLsb' 5 3).toNat
def Fields.order (f : Fields) : Nat := (f.md.extractLsb' 3 2).toNat
def Fields.policy (f : Fields) : Nat := (f.md.extractLsb' 0 3).toNat

/-- Selector ranges (R44). -/
def isV (b : BitVec 8) : Bool := b < 0x80
def isS (b : BitVec 8) : Bool := 0x80 ≤ b && b < 0xC0
def isP (b : BitVec 8) : Bool := 0xC0 ≤ b && b < 0xC8
def isG (b : BitVec 8) : Bool := 0xC8 ≤ b && b < 0xCC
def isSp (b : BitVec 8) : Bool := 0xE0 ≤ b && b < 0xEA

/-- The type lists of R216 and R222. -/
def tyInt : List Ty := [.i8, .i16, .i32, .i64, .n8, .n16, .n32, .n64]
def tyAll : List Ty := .untyped :: tyInt
def ty3264 : List Ty := [.i32, .n32, .i64, .n64]
def tySigned : List Ty := [.i8, .i16, .i32, .i64]
def tyF3 : List Ty := [.f32, .f16, .bf16]
def tyFloat : List Ty := [.f32, .f16, .bf16, .e4m3, .e5m2, .e2m3, .e3m2, .e2m1]
def tyMx : List Ty := [.mx8, .mx6, .mx6b, .mx4]
def tyDrain : List Ty := [.f32, .f16, .bf16, .e4m3, .e5m2, .i32, .i8, .n8]

/-- The types an opcode of the typed layout accepts (R216, R222, R228-R231, R266-R271, R252). -/
def Op.types : Op → List Ty
  | .iadd | .isub | .imul | .imad | .imin | .imax | .shl | .shr | .sar | .icmp | .cvti => tyInt
  | .imulh | .idiv | .irem | .rot | .bfx | .bfi | .popc | .clz | .brev | .lea => ty3264
  | .and | .or | .xor | .andn | .mov => tyAll
  | .sel => [.untyped, .i64, .n64]
  | .idot4 => [.i32]
  | .iabs => tySigned
  | .fadd | .fsub | .fmul | .ffma | .fmin | .fmax | .fcmp | .fscale | .fround | .mxunpack => tyF3
  | .fclass | .cvt => tyFloat
  | .frcp | .frsq | .fsqrt | .fexp2 | .flog2 | .fdiv | .smxstep => [.f32]
  | .hadd2 | .hmul2 | .hfma2 => [.f16, .bf16]
  | .mxpack => tyMx
  | .ternq => [.t2]
  | .shfl | .matchI => [.untyped, .n64]
  | .redux | .scan => [.i32, .n32, .i64, .n64, .f32]
  | .mxdrain => tyDrain
  | _ => [.untyped]

/-- How many variants, from 0 up, an opcode of the typed layout defines. -/
def Op.variants : Op → Nat
  | .rot | .prmt | .fround | .mxpack | .part | .smxstep => 2
  | .icmp | .redux | .scan => 6
  | .lea | .fcmp => 8
  | .idot4 => 4
  | .cvt | .prio => 3
  | .shfl | .vote => 5
  | _ => 1

/-- The FN layout of an opcode (R49). -/
inductive Layout where
  | typed | sized | func
deriving DecidableEq, Repr

/-- The layout of each opcode (R130, R142, R148, R173, R215, R265, R246-R256). -/
def Op.layout : Op → Layout
  | .ld | .st | .ldc | .stc | .ldp | .stp | .lds | .sts | .prefetch | .flush | .inval | .capchk | .atom | .red | .cas
  | .atoms | .cass => .sized
  | .park | .unpark | .revise | .capset | .capnarrow | .capget | .capmov | .seal | .reseal | .fence | .bar | .barset
  | .waith | .testh | .cancelh | .bra | .brx | .join | .call | .ret | .jmpr | .loop | .exit | .yield | .nop | .mxloadw
  | .mxswap | .mxrun | .mxfence | .mxzero | .mxstat | .copy | .gather | .scatter | .slist | .splice | .pin | .unpin
  | .slook | .reclaim | .topk | .qpush | .qpop | .qsteal | .qstat | .qbind | .trap | .brk | .mfsr | .mtsr | .rft
  | .srseed | .ctxsave | .ctxload | .tlbinv | .halt => .func
  | _ => .typed

/-- The second types of an instruction with two (R228-R231). -/
def Op.types2 (o : Op) (t : Ty) : Bool :=
  match o with
  | .cvt | .cvti => t.isFloat || t.isInt || t = .t2
  | .mxpack | .ternq => t ∈ tyF3
  | .mxunpack => t.isMx
  | _ => false

/-- The instructions with a second type in C (R51). -/
def Op.twoTypes : Op → Bool
  | .cvt | .cvti | .mxpack | .mxunpack | .ternq => true
  | _ => false

/-- Refused FN bits of the typed layout (R49, R50). MXDRAIN's variant is CLR in bit 72, the register form in 73,
zero in 74 (R252); a float REDUX or SCAN has three operations (R268). -/
def Op.typedBits (o : Op) (f : Fields) : List Nat :=
  refusedAt 75 (match f.ty with | some t => t ∉ o.types | none => true) ++
  (if o = .mxdrain then refusedAt 74 (f.fn.getLsbD 2) else refusedAt 72 (o.variants ≤ f.var)) ++
  refusedAt 72 ((o = .redux || o = .scan) && f.ty = some .f32 && 3 ≤ f.var)

/-- Refused bits of a second type (R51, R228): .PK takes no 64-bit or T2 source and no 32-bit destination, .UPK only a
float narrower than 32 bits or T2. -/
def Op.secondBits (o : Op) (f : Fields) : List Nat :=
  lowOne 45 3 (f.c.extractLsb' 5 3).toNat ++
  match f.ty2 with
  | none => [40]
  | some src =>
      refusedAt 40 (!o.types2 src) ++
      (if o = .cvt then
        refusedAt 40 (f.var = 1 && (src.bits = 64 || src = .t2)) ++
        refusedAt 72 (f.var = 1 && f.ty = some .f32) ++
        refusedAt 40 (f.var = 2 && !(src = .t2 || (src.isFloat && src.bits < 32)))
      else [])

/-- Refused FN bits of the sized layout (R130, R139, R152, R167, R173, R176). -/
def Op.sizedBits (o : Op) (f : Fields) : List Nat :=
  let sx := refusedAt 73 (f.fn.getLsbD 1 && 2 ≤ f.size && f.size < 5)
  let bad (b : Nat) := refusedAt (72 + b) (f.fn.getLsbD b)
  match o with
  | .ld | .lds => refusedAt 77 (5 ≤ f.size) ++ bad 2 ++ bad 3 ++ bad 4 ++ sx
  | .ldp => refusedAt 77 (5 ≤ f.size) ++ bad 0 ++ bad 2 ++ bad 3 ++ bad 4 ++ sx
  | .st | .sts | .prefetch | .flush => refusedAt 77 (5 ≤ f.size) ++ bad 1 ++ bad 2 ++ bad 3 ++ bad 4
  | .stp => refusedAt 77 (5 ≤ f.size) ++ bad 0 ++ bad 1 ++ bad 2 ++ bad 3 ++ bad 4
  | .ldc | .stc => refusedAt 77 (f.size ≠ 4) ++ bad 1 ++ bad 2 ++ bad 3 ++ bad 4
  | .inval => refusedAt 77 (5 ≤ f.size) ++ bad 2 ++ bad 3 ++ bad 4
  | .capchk => refusedAt 77 (5 ≤ f.size) ++ bad 4
  | .atom | .red | .atoms =>
      refusedAt 77 (f.size ≠ 2 && f.size ≠ 3) ++
      refusedAt 73 (14 ≤ (f.fn.extractLsb' 1 4).toNat || (9 ≤ (f.fn.extractLsb' 1 4).toNat && f.size = 3))
  | .cas | .cass => refusedAt 77 (f.size ≠ 2 && f.size ≠ 3) ++ bad 1 ++ bad 2 ++ bad 3 ++ bad 4
  | _ => []

/-- The sub-functions of the function layout; those whose FN bits are zero one by one are in `funcBits`. -/
def Op.subFunctions : Op → List Nat
  | .capnarrow | .mxstat => [0, 1, 2, 3, 4]
  | .capget => [0, 1, 2, 3, 4, 5, 6, 7, 8, 9, 10]
  | .seal | .fence | .waith | .testh | .cancelh | .pin | .srseed | .halt => [0, 1]
  | .bar | .topk => [0, 1, 2]
  | .slist => [0, 0x10, 0x11, 0x12, 0x13, 0x14, 0x15]
  | .splice => [0, 1, 2, 0x80, 0x81, 0x82]
  | .slook | .qbind | .tlbinv => [0, 1, 2, 3]
  | .qstat => [0, 1, 2, 3, 4]
  | _ => [0]

/-- Refused FN bits of the function layout (R49, R193, R344). -/
def Op.funcBits (o : Op) (f : Fields) : List Nat :=
  match o with
  | .gather | .scatter | .qpush | .qpop => lowOne 73 7 (f.fn.extractLsb' 1 7).toNat
  | .qsteal => lowOne 72 8 f.fn.toNat
  | _ => refusedAt 72 (f.fn.toNat ∉ o.subFunctions)

/-- Refused FN bits, with the second type where the layout has one. -/
def Op.fnBits (o : Op) (f : Fields) : List Nat :=
  match o.layout with
  | .typed => o.typedBits f ++ (if o.twoTypes then o.secondBits f else [])
  | .sized => o.sizedBits f
  | .func => o.funcBits f

/-- What an opcode accepts in the arithmetic MOD layout (R54, R215): RND and its highest value, SAT, negation and
absolute value of A and of B. -/
structure ModSpec where
  rnd : Nat := 0
  sat : Bool := false
  na : Bool := false
  nb : Bool := false
deriving DecidableEq, Repr

/-- The MOD columns of R216, R222, R228-R231, R252, R268, R271; N and A always come together. -/
def Op.modSpec : Op → ModSpec
  | .iadd | .isub | .imul | .imad => { sat := true, na := true, nb := true }
  | .imulh | .imin | .imax | .icmp | .fmin | .fmax | .fcmp => { na := true, nb := true }
  | .idiv | .idot4 | .iabs => { sat := true }
  | .fadd | .fsub | .fmul | .ffma | .fdiv | .hadd2 | .hmul2 | .hfma2 => { rnd := 4, sat := true, na := true, nb := true }
  | .frcp | .fexp2 | .fscale => { rnd := 4, sat := true, na := true }
  | .frsq | .fsqrt | .flog2 | .fround => { rnd := 4, na := true }
  | .cvt | .cvti | .mxunpack => { rnd := 4, sat := true }
  | .mxpack => { rnd := 4 }
  | .smxstep => { rnd := 3 }
  | .mxdrain | .copy => { rnd := 3, sat := true }
  | _ => {}

/-- Refused MOD bits of the arithmetic layout (R54). -/
def ModSpec.bits (m : ModSpec) (f : Fields) : List Nat :=
  refusedAt 37 (m.rnd < (f.md.extractLsb' 5 3).toNat) ++ refusedAt 36 (f.md.getLsbD 4 && !m.sat) ++
  refusedAt 35 (f.md.getLsbD 3 && !m.na) ++ refusedAt 34 (f.md.getLsbD 2 && !m.nb) ++
  refusedAt 33 (f.md.getLsbD 1 && !m.na) ++ refusedAt 32 (f.md.getLsbD 0 && !m.nb)

/-- Refused POLICY bits: 5-7 as a whole, and one by one those that must be zero where the instruction takes none (R52, R64). -/
def Fields.policyBits (f : Fields) (pol : Bool) : List Nat :=
  refusedAt 32 (5 ≤ f.policy) ++ if pol then [] else lowOne 32 3 f.policy

/-- Refused MOD bits of the memory layout (R52): `rd` and `wr` say what the instruction does, `amo` that it is an
atomic, `pol` that it takes a POLICY. -/
def Fields.memModBits (f : Fields) (rd wr amo pol : Bool) : List Nat :=
  refusedAt 37 (f.scope = 7) ++ f.policyBits pol ++
  refusedAt 35 (f.order = 0 && f.scope ≠ 0 && f.scope ≠ 7 && !amo) ++
  refusedAt 35 ((f.order % 2 = 1 && !rd) || (2 ≤ f.order && !wr) || (f.order = 3 && !(amo && rd)))

/-- Refused MOD bits. REDUX and SCAN round only F32 and saturate only .ADD (R268); FENCE's ORDER names its kind
(R289); PREFETCH, FLUSH and INVAL take no SCOPE and no ORDER (R146). -/
def Op.mdBits (o : Op) (f : Fields) : List Nat :=
  match o with
  | .ld | .ldp => f.memModBits true false false true
  | .st | .stp => f.memModBits false true false true
  | .ldc => f.memModBits true false false true
  | .stc => f.memModBits false true false true
  | .lds => f.memModBits true false false false
  | .sts => f.memModBits false true false false
  | .atom | .cas | .atoms | .cass => f.memModBits true true true true
  | .red => f.memModBits false true true true
  | .prefetch | .flush | .inval =>
      refusedAt 37 (f.scope = 7) ++ lowOne 37 3 f.scope ++ lowOne 35 2 f.order ++ f.policyBits (o = .prefetch)
  | .fence =>
      refusedAt 37 (f.scope = 7) ++ refusedAt 35 (f.order = 0 || (f.fn = 1 && f.order ≠ 3)) ++
      f.policyBits false
  | .brx | .mxloadw => f.mdZero 5
  | .redux | .scan =>
      ({ rnd := if f.ty = some .f32 then 3 else 0, sat := f.var = 0 } : ModSpec).bits f
  | _ =>
      match o.layout with
      | .typed => o.modSpec.bits f
      | _ => if o = .copy then o.modSpec.bits f else f.mdZero 8

/-- The queue spec of IMM 31-22 when B is 0xFF, its cluster subfield at bit 26 (R342, R344). -/
def Fields.specBits (f : Fields) : List Nat :=
  if f.b = 0xFF then
    refusedAt 26 (48 ≤ (f.imm.extractLsb' 26 6).toNat && (f.imm.extractLsb' 26 6).toNat ≤ 62)
  else f.immZero 31 22

/-- The instructions that execute once for their gang whatever their D: GN 0 and GP 7
(R139, R142, R148, R184, R203, R257, R260, R270, R272, R318, R323, R344, R349, R350, R352, R368). -/
def Op.once (o : Op) (f : Fields) : Bool :=
  match o with
  | .park | .unpark | .revise | .capset | .capnarrow | .capget | .capmov | .seal | .reseal | .bar | .barset | .waith
  | .testh | .cancelh | .join | .yield | .part | .prio | .mxloadw | .mxswap | .mxrun | .mxfence | .mxdrain | .mxzero
  | .mxstat | .copy | .slist | .splice | .pin | .unpin | .slook | .reclaim | .topk | .qpush | .qpop | .qsteal | .qstat
  | .qbind | .mfsr | .mtsr | .rft | .ctxsave | .ctxload | .tlbinv | .halt => true
  | .srseed => f.fn = 1
  | _ => false

/-- The stores, whose uniform form is told by their sources (R135). -/
def Op.isStore : Op → Bool
  | .st | .stc | .stp | .sts | .red => true
  | _ => false

/-- A uniform instruction: a scalar D, or a store without a vector source (R48, R135). -/
def Op.uniform (o : Op) (f : Fields) : Bool :=
  (o ≠ .brx && isS f.d) || (o.isStore && !isV f.a && !isV f.b && !isV f.c)

/-- A guard that R43 or R48 refuses records bit 80. -/
def Op.guardBits (o : Op) (f : Fields) : List Nat :=
  refusedAt 80 ((f.gn && f.gp = 7) || ((o.once f || o.uniform f) && (f.gn || f.gp ≠ 7)))

/-! ILLEGAL_OPERAND: the kinds of operand each field takes (R44, R46, R48, R133, R214, R232). -/

/-- Which selectors a field accepts: vector, scalar, capability (an even scalar), predicate, g register, special,
immediate, 0xFF. -/
structure Kinds where
  v : Bool := false
  s : Bool := false
  cap : Bool := false
  p : Bool := false
  g : Bool := false
  sp : Bool := false
  imm : Bool := false
  none : Bool := false
deriving DecidableEq, Repr

/-- A selector field: the kinds it accepts and how many registers its operand spans from an aligned first one. -/
structure Slot where
  field : BitVec 2
  sel : BitVec 8
  kinds : Kinds
  vspan : Nat := 1
  valign : Nat := 1
  sspan : Nat := 1
  salign : Nat := 1
deriving DecidableEq, Repr

/-- The slot accepts its selector: in a uniform instruction no vector source and no %strand (R45, R48), p7 never as a
destination, a vector number below the crew's count (R44). -/
def Slot.ok (vregs : Nat) (uni : Bool) (x : Slot) : Bool :=
  let b := x.sel
  let dest := x.field = 0
  if isV b then
    x.kinds.v && (dest || !uni) && b.toNat % x.valign = 0 && b.toNat + x.vspan ≤ vregs && b.toNat + x.vspan ≤ 128
  else if isS b then
    if x.kinds.cap then b.toNat % 2 = 0
    else x.kinds.s && b.toNat % x.salign = 0 && b.toNat + x.sspan ≤ 0xC0
  else if isP b then x.kinds.p && !(dest && b = 0xC7)
  else if isG b then x.kinds.g
  else if isSp b then x.kinds.sp && !(uni && b = 0xE0)
  else if b = 0xF0 then x.kinds.imm
  else if b = 0xFF then x.kinds.none
  else false

/-- A source of the arithmetic groups. -/
def kSrc : Kinds := { v := true, s := true, sp := true, imm := true }
/-- A vector or scalar destination. -/
def kVS : Kinds := { v := true, s := true }
/-- Vector, scalar or immediate. -/
def kVSI : Kinds := { v := true, s := true, imm := true }
def kV : Kinds := { v := true }
def kS : Kinds := { s := true }
def kSN : Kinds := { s := true, none := true }
def kSI : Kinds := { s := true, imm := true }
def kC : Kinds := { cap := true }
def kCN : Kinds := { cap := true, none := true }
def kP : Kinds := { p := true }
def kPS : Kinds := { p := true, s := true }
/-- An operand the entry does not use must hold 0xFF (R46). -/
def kNone : Kinds := { none := true }
/-- The group of a collective, ALL as 0xFF; a uniform form takes no g register (R265). -/
def kGroup (uni : Bool) : Kinds := { g := !uni, none := true }

/-- A 64-bit vector operand is an even pair (R214). -/
def Slot.wide (x : Slot) (w : Bool) : Slot := if w then { x with vspan := 2, valign := 2 } else x

/-- The data registers of a sized access (R133). -/
def Slot.data (x : Slot) (f : Fields) : Slot :=
  if f.size = 3 then { x with vspan := 2, valign := 2 }
  else if f.size = 4 then { x with vspan := 4, valign := 4, sspan := 2, salign := 2 }
  else x

/-- The compare value of CAS with the new value behind it (R173). -/
def Slot.casPair (x : Slot) (f : Fields) : Slot :=
  if f.size = 3 then { x with vspan := 4, valign := 4, sspan := 2 } else { x with vspan := 2, sspan := 2 }

def Fields.slotD (f : Fields) (k : Kinds) : Slot := { field := 0, sel := f.d, kinds := k }
def Fields.slotA (f : Fields) (k : Kinds) : Slot := { field := 1, sel := f.a, kinds := k }
def Fields.slotB (f : Fields) (k : Kinds) : Slot := { field := 2, sel := f.b, kinds := k }
def Fields.slotC (f : Fields) (k : Kinds) : Slot := { field := 3, sel := f.c, kinds := k }

/-- Operands D and A; D, A and B; D, A, B and C, all of the operation's width (R214). -/
def Fields.r1 (f : Fields) (kd ka : Kinds) (w : Bool) : List Slot :=
  [(f.slotD kd).wide w, (f.slotA ka).wide w, f.slotB kNone, f.slotC kNone]
def Fields.r2 (f : Fields) (kd : Kinds) (w : Bool) : List Slot :=
  [(f.slotD kd).wide w, (f.slotA kSrc).wide w, (f.slotB kSrc).wide w, f.slotC kNone]
def Fields.r3 (f : Fields) (kd : Kinds) (w : Bool) : List Slot :=
  [(f.slotD kd).wide w, (f.slotA kSrc).wide w, (f.slotB kSrc).wide w, (f.slotC kSrc).wide w]

/-- Four fields, one kind each. -/
def Fields.four (f : Fields) (d a b c : Kinds) : List Slot := [f.slotD d, f.slotA a, f.slotB b, f.slotC c]

/-- The base of a memory operand: a capability with CAPB, else a scalar or 0xFF (R130). -/
def Fields.base (f : Fields) : Slot := f.slotA (if f.fn.getLsbD 0 then kC else kSN)
/-- Its index (R130). -/
def Fields.index (f : Fields) : Slot := f.slotB { v := true, s := true, none := true }

/-- The registers a .PK conversion reads (R228). -/
def pkCount (t : Ty) : Nat := if t.bits = 6 then 4 else 32 / t.bits
/-- Payload registers of an MX block (R229). -/
def mxPayload : Ty → Nat
  | .mx8 => 8
  | .mx6 | .mx6b => 6
  | _ => 4
/-- Registers that hold 32 elements of F32, or of a 16-bit type two to a register (R229). -/
def mxSources (t : Ty) : Nat := if t = .f32 then 32 else 16

/-- The selector fields of an opcode, in the order D, A, B, C (R44). -/
def Op.slots (o : Op) (f : Fields) : List Slot :=
  let uni := o.uniform f
  let t := (f.ty).getD .untyped
  let st := (f.ty2).getD .untyped
  let w := t = .i64 || t = .n64
  match o with
  | .iadd | .isub | .imul | .imulh | .idiv | .irem | .imin | .imax | .and | .or | .xor | .andn | .shl | .shr | .sar | .rot
  | .bfx => f.r2 kVS w
  | .imad | .bfi => f.r3 kVS w
  | .popc | .clz | .brev | .iabs => f.r1 kVS kSrc w
  | .icmp => f.r2 kPS w
  | .sel =>
      [(f.slotD kVS).wide w, (f.slotA kSrc).wide w, (f.slotB kSrc).wide w, f.slotC { p := !uni, s := true }]
  | .mov => f.r1 { v := true, s := true, p := true } { v := true, s := true, p := !uni, sp := true, imm := true } w
  | .lea => [(f.slotD kVS).wide w, (f.slotA kSrc).wide w, f.slotB kSrc, f.slotC kNone]
  | .prmt | .idot4 => f.r3 kVS false
  | .plop =>
      let k : Kinds := { p := true, none := true }
      f.four kP k k k
  | .fadd | .fsub | .fmul | .fmin | .fmax | .fdiv | .fscale | .hadd2 | .hmul2 => f.r2 kVS false
  | .ffma | .hfma2 => f.r3 kVS false
  | .fcmp => f.r2 kPS false
  | .fclass | .frcp | .frsq | .fsqrt | .fexp2 | .flog2 | .fround => f.r1 kVS kSrc false
  | .cvt =>
      let ws := st = .i64 || st = .n64
      if f.var = 1 then
        [f.slotD kVS, { f.slotA kVS with vspan := pkCount t, sspan := pkCount t }, f.slotB kNone]
      else [f.slotD kVS, (f.slotA kSrc).wide ws, f.slotB (if f.var = 2 then kVSI else kNone)]
  | .cvti => [(f.slotD kVS).wide w, (f.slotA kSrc).wide (st = .i64 || st = .n64), f.slotB kNone]
  | .mxpack =>
      [{ f.slotD kV with vspan := mxPayload t + 1 }, { f.slotA kV with vspan := mxSources st },
       f.slotB (if f.var = 1 then kVSI else kNone)]
  | .mxunpack =>
      [{ f.slotD kV with vspan := mxSources t }, { f.slotA kV with vspan := mxPayload st + 1 }, f.slotB kNone]
  | .ternq => [f.slotD kV, { f.slotA kV with vspan := if st = .f32 then 16 else 8 }, f.slotB kVSI]
  | .ld | .lds => [(f.slotD kVS).data f, f.base, f.index, f.slotC kNone]
  | .ldp => [(f.slotD kVS).data f, f.slotA kSN, f.index, f.slotC kNone]
  | .st | .sts => [f.slotD kNone, f.base, f.index, (f.slotC kVS).data f]
  | .stp => [f.slotD kNone, f.slotA kSN, f.index, (f.slotC kVS).data f]
  | .ldc => [f.slotD kC, f.base, f.slotB kSN, f.slotC kNone]
  | .stc => [f.slotD kNone, f.base, f.slotB kSN, f.slotC kC]
  | .prefetch | .flush | .inval => [f.slotD kNone, f.base, f.index, f.slotC kNone]
  | .park | .unpark | .revise | .seal | .reseal => f.four kSN kC kNone kNone
  | .capset | .capmov => f.four kC kC kNone kNone
  | .capnarrow =>
      if f.fn = 0 || f.fn = 2 || (f.fn = 4 && f.imm.getLsbD 5) then f.four kC kC kS kS
      else if f.fn = 3 then f.four kC kC kS kNone
      else f.four kC kC kNone kNone
  | .capget => f.four kS kC kNone kNone
  | .capchk => [f.slotD kP, f.slotA kC, f.index, f.slotC kNone]
  | .atom | .atoms => [(f.slotD { v := true, s := true, none := true }).data f, f.base, f.index, (f.slotC kVS).data f]
  | .red => [f.slotD kNone, f.base, f.index, (f.slotC kVS).data f]
  | .cas | .cass =>
      [(f.slotD { v := true, s := true, none := true }).data f, f.base, f.index, (f.slotC kVS).casPair f]
  | .fence => f.four (if f.scope = 6 then kSN else kNone) kNone kNone kNone
  | .bar => f.four kNone kSN kNone kNone
  | .barset => f.four kNone kSN kSN kNone
  | .waith => f.four (if f.fn = 1 then kSN else kNone) (if f.fn = 1 then kSI else kS) kNone kNone
  | .testh => f.four kS (if f.fn = 1 then kSI else kS) kNone kNone
  | .cancelh => f.four kNone (if f.fn = 1 then kSI else kS) kNone kNone
  | .bra | .join | .exit | .yield | .nop | .mxswap | .mxfence | .brk | .rft => f.four kNone kNone kNone kNone
  | .brx => []
  | .call => [(f.slotD kVS).wide true, f.slotA kNone, f.slotB kNone, f.slotC kNone]
  | .ret | .jmpr => [f.slotD kNone, (f.slotA kVS).wide true, f.slotB kNone, f.slotC kNone]
  | .loop => f.four kVS kNone kNone kNone
  | .shfl => [(f.slotD kV).wide w, (f.slotA kV).wide w, f.slotB kVSI, f.slotC (kGroup uni)]
  | .vote => f.four kPS kP (if f.var = 4 then kSI else kNone) (kGroup uni)
  | .ballot => f.four kVS kP kNone (kGroup uni)
  | .redux | .scan => [(f.slotD kV).wide w, (f.slotA kV).wide w, f.slotB kNone, f.slotC (kGroup uni)]
  | .part => f.four { g := true } { imm := true } kNone kNone
  | .matchI => [f.slotD kV, (f.slotA kVS).wide w, f.slotB kNone, f.slotC (kGroup uni)]
  | .elect => f.four kPS kNone kNone (kGroup uni)
  | .prio => f.four kNone (if f.var = 1 then kSI else kNone) kNone kNone
  | .smxstep =>
      [{ f.slotD kV with vspan := 3 }, f.slotA kV, f.slotB kV, f.slotC (if f.var = 1 then kGroup uni else kNone)]
  | .mxloadw => f.four kS kC kCN kNone
  | .mxrun => f.four kS kSI kNone kNone
  | .mxdrain =>
      if f.fn.getLsbD 1 then
        let n := if t = .f32 || t = .i32 then 4 else if t = .f16 || t = .bf16 then 2 else 1
        [{ f.slotD kV with vspan := n, valign := n }, f.slotA kNone, f.slotB kS, f.slotC kCN]
      else f.four kS kC kS kCN
  | .mxzero => f.four kNone kS kNone kNone
  | .mxstat | .mfsr => f.four kS kNone kNone kNone
  | .copy => f.four kS kC kC kNone
  | .gather | .scatter => f.four kNone kC kV kC
  | .slist => if f.fn = 0 then f.four kC kC kC kS else f.four kS kC kNone kNone
  | .splice =>
      let k := f.fn.extractLsb' 0 7
      f.four kS kC kS (if k = 0 then kC else if k = 1 then kS else kNone)
  | .pin => f.four kC kC kNone kNone
  | .unpin => f.four kNone kC kNone kNone
  | .slook => f.four kS kC kS kNone
  | .reclaim => f.four kS kC kC kNone
  | .topk => f.four kS kC kC kS
  | .qpush | .qpop | .qsteal => f.four kP kSN kSN kSN
  | .qstat => f.four kS kNone kSN kNone
  | .qbind => f.four kNone (if f.fn = 0 || f.fn = 1 then kS else kNone) kSN kNone
  | .trap => f.four kNone kSN kNone kNone
  | .mtsr => f.four kNone kS kNone kNone
  | .srseed => f.four kNone (if f.fn = 1 then kSI else kVSI) kNone kNone
  | .ctxsave => f.four kS kS kC kNone
  | .ctxload => f.four kS kC kNone kNone
  | .tlbinv => f.four kS (if f.fn = 2 then kNone else kS) kNone kNone
  | .halt => f.four kNone (if f.fn = 0 then kSN else kNone) kNone kNone

/-- A source field that may hold 0xF0 holds it: IMM is an operand. A misused 0xF0 is none (R44, R64). -/
def Op.takesImm (o : Op) (f : Fields) : Bool := (o.slots f).any fun x => x.kinds.imm && x.sel = 0xF0

/-- Refused IMM bits: an IMM value out of its set, and every bit the instruction does not use
(R53, R180, R203, R220, R246-R256, R260, R267-R269, R312, R344, R352, R368; for the arithmetic groups log 14). -/
def Op.immBits (o : Op) (f : Fields) : List Nat :=
  match o with
  | .ld | .ldc | .ldp | .lds | .sts | .prefetch | .flush | .inval | .atom | .red | .cas | .atoms | .cass | .capchk =>
      f.immZero 31 16
  | .st | .stp | .stc | .bra | .brx | .call | .loop => []
  | .park => f.immZero 15 0 ++ refusedAt 29 (f.imm.extractLsb' 29 3 = 0)
  | .revise | .copy | .topk => f.immZero 15 0
  | .capnarrow =>
      if f.fn = 1 then f.immZero 31 4 else if f.fn = 4 then f.immZero 31 6 else f.immZero 31 0
  | .bar => if f.a = 0xFF then f.immZero 31 7 else f.immZero 31 0
  | .barset =>
      (if f.a = 0xFF then [] else f.immZero 6 0) ++ f.immZero 15 7 ++
      (if f.b = 0xFF then [] else f.immZero 25 16) ++ f.immZero 31 26
  | .waith | .testh | .cancelh => if f.fn = 1 && f.a = 0xF0 then f.immZero 31 8 else f.immZero 31 0
  | .plop => f.immZero 31 8
  | .vote => if f.var = 4 && f.b = 0xF0 then f.immZero 31 6 else f.immZero 31 0
  | .scan => f.immZero 31 1
  | .part => refusedAt 0 (f.imm ∉ [4#32, 8#32, 16#32, 32#32])
  | .mxloadw => f.immZero 31 12
  | .mxdrain => f.immZero 15 0 ++ (if f.fn.getLsbD 1 then f.immZero 31 16 else [])
  | .gather =>
      f.immZero 31 16 ++ refusedAt 0 (!isS (f.imm.extractLsb' 0 8)) ++
      refusedAt 8 (!(isS (f.imm.extractLsb' 8 8) || f.imm.extractLsb' 8 8 = 0xFF#8))
  | .scatter =>
      refusedAt 0 (!isS (f.imm.extractLsb' 0 8)) ++
      refusedAt 8 (!(isS (f.imm.extractLsb' 8 8) || f.imm.extractLsb' 8 8 = 0xFF#8))
  | .splice => if f.fn.getLsbD 7 then [] else f.immZero 31 0
  | .qpush | .qpop | .qsteal => f.immZero 21 18 ++ f.specBits
  | .qstat | .qbind => f.immZero 21 0 ++ f.specBits
  | .trap => f.immZero 31 5
  | .brk => f.immZero 31 24
  | .mfsr | .mtsr => f.immZero 31 12
  | _ => if o.takesImm f then [] else f.immZero 31 0

/-- Every offending bit of the word. -/
def Op.fieldBits (o : Op) (f : Fields) : List Nat := o.guardBits f ++ o.fnBits f ++ o.mdBits f ++ o.immBits f

/-- The first misused selector in the order D, A, B, C (R44); of several fields with 0xF0 the later ones are misused. -/
def firstBad (vregs : Nat) (uni : Bool) : List Slot → Bool → Option Slot
  | [], _ => none
  | x :: t, seen =>
      if !x.ok vregs uni || (seen && x.sel = 0xF0) then some x
      else firstBad vregs uni t (seen || x.sel = 0xF0)

/-- The live range of BRX: both 0xFF, or vector registers with A ≤ B, at most 32, below the crew's count (R314). -/
def Fields.liveBad (vregs : Nat) (f : Fields) : Option (BitVec 2 × BitVec 8) :=
  if f.a = 0xFF && f.b = 0xFF then none
  else if !isV f.a || vregs ≤ f.a.toNat then some (1, f.a)
  else if !isV f.b || vregs ≤ f.b.toNat || f.b < f.a || 31 < f.b.toNat - f.a.toNat then some (2, f.b)
  else none

/-- The first misused operand with its field number and selector (R44). -/
def Op.operandBad (vregs : Nat) (o : Op) (f : Fields) : Option (BitVec 2 × BitVec 8) :=
  if o = .brx then f.liveBad vregs
  else (firstBad vregs (o.uniform f) (o.slots f) false).map fun x => (x.field, x.sel)

/-- What decoding raises (R63), PRIVILEGED apart. -/
inductive DecodeError where
  | zeroWord
  | illegalOpcode
  | illegalField (bit : Nat)
  | illegalOperand (field : BitVec 2) (sel : BitVec 8)
deriving DecidableEq, Repr

/-- The least of a list of bit numbers. -/
def leastBit : List Nat → Option Nat
  | [] => none
  | b :: t => match leastBit t with
    | none => some b
    | some m => some (min b m)

/-- The first cause of the fields in the order of R64. -/
def Op.check (vregs : Nat) (o : Op) (f : Fields) : Option DecodeError :=
  match leastBit (o.fieldBits f) with
  | some b => some (.illegalField b)
  | none => (o.operandBad vregs f).map fun e => .illegalOperand e.1 e.2

/-- The instructions that only privileged mode executes (R61); MFSR and MTSR by the register they name (R365). -/
def Op.privileged (o : Op) (f : Fields) : Bool :=
  match o with
  | .capset | .qbind | .rft | .ctxsave | .ctxload | .tlbinv | .halt => true
  | .mfsr | .mtsr =>
      (f.imm.extractLsb' 0 12).toNat ∈
        [0x100, 0x101, 0x102, 0x103, 0x104, 0x105, 0x200, 0x201, 0x202, 0x203, 0x210, 0x211, 0x212]
  | _ => false

/-- The instruction whose fields have passed the checks. -/
def Op.build (o : Op) (f : Fields) : Option Instr :=
  match o with
  | .iadd => some (.iadd f.typed)
  | .isub => some (.isub f.typed)
  | .imul => some (.imul f.typed)
  | .imulh => some (.imulh f.typed)
  | .imad => some (.imad f.typed)
  | .idiv => some (.idiv f.typed)
  | .irem => some (.irem f.typed)
  | .imin => some (.imin f.typed)
  | .imax => some (.imax f.typed)
  | .and => some (.and f.typed)
  | .or => some (.or f.typed)
  | .xor => some (.xor f.typed)
  | .andn => some (.andn f.typed)
  | .shl => some (.shl f.typed)
  | .shr => some (.shr f.typed)
  | .sar => some (.sar f.typed)
  | .rot => some (.rot f.typed)
  | .bfx => some (.bfx f.typed)
  | .bfi => some (.bfi f.typed)
  | .popc => some (.popc f.typed)
  | .clz => some (.clz f.typed)
  | .brev => some (.brev f.typed)
  | .icmp => some (.icmp f.typed)
  | .sel => some (.sel f.typed)
  | .mov => some (.mov f.typed)
  | .lea => some (.lea f.typed)
  | .prmt => some (.prmt f.typed)
  | .plop => some (.plop f.typed)
  | .idot4 => some (.idot4 f.typed)
  | .iabs => some (.iabs f.typed)
  | .fadd => some (.fadd f.typed)
  | .fsub => some (.fsub f.typed)
  | .fmul => some (.fmul f.typed)
  | .ffma => some (.ffma f.typed)
  | .fmin => some (.fmin f.typed)
  | .fmax => some (.fmax f.typed)
  | .fcmp => some (.fcmp f.typed)
  | .fclass => some (.fclass f.typed)
  | .frcp => some (.frcp f.typed)
  | .frsq => some (.frsq f.typed)
  | .fsqrt => some (.fsqrt f.typed)
  | .fexp2 => some (.fexp2 f.typed)
  | .flog2 => some (.flog2 f.typed)
  | .fdiv => some (.fdiv f.typed)
  | .fscale => some (.fscale f.typed)
  | .fround => some (.fround f.typed)
  | .hadd2 => some (.hadd2 f.typed)
  | .hmul2 => some (.hmul2 f.typed)
  | .hfma2 => some (.hfma2 f.typed)
  | .cvt => some (.cvt f.conv)
  | .cvti => some (.cvti f.conv)
  | .mxpack => some (.mxpack f.conv)
  | .mxunpack => some (.mxunpack f.conv)
  | .ternq => some (.ternq f.conv)
  | .ld => some (.ld f.memOp)
  | .st => some (.st f.memOp)
  | .ldc => some (.ldc f.memOp)
  | .stc => some (.stc f.memOp)
  | .ldp => some (.ldp f.memOp)
  | .stp => some (.stp f.memOp)
  | .lds => some (.lds f.memOp)
  | .sts => some (.sts f.memOp)
  | .park => some (.park f.fun)
  | .unpark => some (.unpark f.fun)
  | .revise => some (.revise f.fun)
  | .prefetch => some (.prefetch f.memOp)
  | .flush => some (.flush f.memOp)
  | .inval => some (.inval f.memOp)
  | .capset => some (.capset f.fun)
  | .capnarrow =>
      if f.fn = 0 then some (.capnarrowRange f.fun)
      else if f.fn = 1 then some (.capnarrowPerm f.fun)
      else if f.fn = 2 then some (.capnarrowSubtile f.fun)
      else if f.fn = 3 then some (.capnarrowVersion f.fun)
      else if f.fn = 4 then some (.capnarrowRetype f.fun)
      else none
  | .capget => some (.capget f.fun)
  | .capchk => some (.capchk f.chkOp)
  | .capmov => some (.capmov f.fun)
  | .seal =>
      if f.fn = 0 then some (.seal f.fun)
      else if f.fn = 1 then some (.sealOpen f.fun)
      else none
  | .reseal => some (.reseal f.fun)
  | .atom => some (.atom f.atomOp)
  | .red => some (.red f.atomOp)
  | .cas => some (.cas f.atomOp)
  | .atoms => some (.atoms f.atomOp)
  | .cass => some (.cass f.atomOp)
  | .fence =>
      if f.fn = 0 then some (.fence f.fun)
      else if f.fn = 1 then some (.fenceSc f.fun)
      else none
  | .bar =>
      if f.fn = 0 then some (.barSync f.fun)
      else if f.fn = 1 then some (.barArrive f.fun)
      else if f.fn = 2 then some (.barWait f.fun)
      else none
  | .barset => some (.barset f.fun)
  | .waith => some (.waith f.fun)
  | .testh => some (.testh f.fun)
  | .cancelh => some (.cancelh f.fun)
  | .bra => some (.bra f.fun)
  | .brx => some (.brx f.brxOp)
  | .join => some (.join f.fun)
  | .call => some (.call f.fun)
  | .ret => some (.ret f.fun)
  | .jmpr => some (.jmpr f.fun)
  | .loop => some (.loop f.fun)
  | .exit => some (.exit f.fun)
  | .yield => some (.yield f.fun)
  | .nop => some (.nop f.fun)
  | .shfl => some (.shfl f.typed)
  | .vote => some (.vote f.typed)
  | .ballot => some (.ballot f.typed)
  | .redux => some (.redux f.typed)
  | .scan => some (.scan f.typed)
  | .part => some (.part f.typed)
  | .matchI => some (.matchI f.typed)
  | .elect => some (.elect f.typed)
  | .prio =>
      if f.fn.extractLsb' 0 3 = 0#3 then some (.prioTake f.typed)
      else if f.fn.extractLsb' 0 3 = 1#3 then some (.prioPass f.typed)
      else if f.fn.extractLsb' 0 3 = 2#3 then some (.prioDrop f.typed)
      else none
  | .smxstep => some (.smxstep f.typed)
  | .mxloadw => some (.mxloadw f.fun)
  | .mxswap => some (.mxswap f.fun)
  | .mxrun => some (.mxrun f.fun)
  | .mxfence => some (.mxfence f.fun)
  | .mxdrain =>
      if f.fn.getLsbD 1 = false then some (.mxdrain f.typed)
      else if f.fn.getLsbD 1 = true then some (.mxdrainR f.typed)
      else none
  | .mxzero => some (.mxzero f.fun)
  | .mxstat =>
      if f.fn ≠ 1 then some (.mxstat f.fun)
      else if f.fn = 1 then some (.mxstatFlagsclr f.fun)
      else none
  | .copy => some (.copy f.fun)
  | .gather => some (.gather f.fun)
  | .scatter => some (.scatter f.fun)
  | .slist =>
      if f.fn = 0 then some (.slistInit f.fun)
      else if f.fn ≠ 0 then some (.slistStat f.fun)
      else none
  | .splice =>
      if f.fn.extractLsb' 0 7 = 0#7 then some (.spliceIns f.fun)
      else if f.fn.extractLsb' 0 7 = 1#7 then some (.spliceRemove f.fun)
      else if f.fn.extractLsb' 0 7 = 2#7 then some (.spliceTrunc f.fun)
      else none
  | .pin =>
      if f.fn = 0 then some (.pin f.fun)
      else if f.fn = 1 then some (.pinVer f.fun)
      else none
  | .unpin => some (.unpin f.fun)
  | .slook => some (.slook f.fun)
  | .reclaim => some (.reclaim f.fun)
  | .topk => some (.topk f.fun)
  | .qpush => some (.qpush f.fun)
  | .qpop => some (.qpop f.fun)
  | .qsteal => some (.qsteal f.fun)
  | .qstat => some (.qstat f.fun)
  | .qbind =>
      if f.fn = 0 then some (.qbindBind f.fun)
      else if f.fn = 1 then some (.qbindUnbind f.fun)
      else if f.fn = 2 then some (.qbindClose f.fun)
      else if f.fn = 3 then some (.qbindOpen f.fun)
      else none
  | .trap => some (.trap f.fun)
  | .brk => some (.brk f.fun)
  | .mfsr => some (.mfsr f.fun)
  | .mtsr =>
      if f.imm.extractLsb' 0 12 ≠ 0x103#12 then some (.mtsr f.fun)
      else if f.imm.extractLsb' 0 12 = 0x103#12 then some (.mtsrParkctl f.fun)
      else none
  | .rft => some (.rft f.fun)
  | .srseed =>
      if f.fn = 0 then some (.srseed f.fun)
      else if f.fn = 1 then some (.srseedG f.fun)
      else none
  | .ctxsave => some (.ctxsave f.fun)
  | .ctxload => some (.ctxload f.fun)
  | .tlbinv =>
      if f.fn = 0 then some (.tlbinvRange f.fun)
      else if f.fn = 1 then some (.tlbinvAsid f.fun)
      else if f.fn = 2 then some (.tlbinvAll f.fun)
      else if f.fn = 3 then some (.tlbinvSplinter f.fun)
      else none
  | .halt =>
      if f.fn = 0 then some (.haltWait f.fun)
      else if f.fn = 1 then some (.haltKill f.fun)
      else none

/-! The fields of each operand structure: the encoder's half. -/

/-- The fields of the typed layout. -/
def Typed.fields (o : Op) (x : Typed) : Fields :=
  { op := o.code, stall := x.hdr.stall, gn := x.hdr.gn, gp := x.hdr.gp, fn := x.ty.code ++ x.var, d := x.d.code,
    a := x.a.code, b := x.b.code, c := x.c.code,
    md := x.rnd ++ BitVec.ofBool x.sat ++ BitVec.ofBool x.nega ++ BitVec.ofBool x.negb ++ BitVec.ofBool x.absa ++
      BitVec.ofBool x.absb,
    imm := x.imm }

/-- The fields of the typed layout with a second type. -/
def Conv.fields (o : Op) (x : Conv) : Fields :=
  { op := o.code, stall := x.hdr.stall, gn := x.hdr.gn, gp := x.hdr.gp, fn := x.dt.code ++ x.var, d := x.d.code,
    a := x.a.code, b := x.b.code, c := 0#3 ++ x.st.code, md := x.rnd ++ BitVec.ofBool x.sat ++ 0#4, imm := x.imm }

/-- The fields of a load or store. -/
def MemOp.fields (o : Op) (x : MemOp) : Fields :=
  { op := o.code, stall := x.hdr.stall, gn := x.hdr.gn, gp := x.hdr.gp,
    fn := x.size.code ++ 0#3 ++ BitVec.ofBool x.x73 ++ BitVec.ofBool x.capb, d := x.d.code, a := x.a.code,
    b := x.b.code, c := x.c.code, md := x.scope ++ x.order ++ x.policy, imm := x.rset ++ x.off }

/-- The fields of an atomic. -/
def AtomOp.fields (o : Op) (x : AtomOp) : Fields :=
  { op := o.code, stall := x.hdr.stall, gn := x.hdr.gn, gp := x.hdr.gp,
    fn := x.size.code ++ x.op ++ BitVec.ofBool x.capb, d := x.d.code, a := x.a.code, b := x.b.code, c := x.c.code,
    md := x.scope ++ x.order ++ x.policy, imm := 0#16 ++ x.off }

/-- The fields of CAPCHK. -/
def ChkOp.fields (o : Op) (x : ChkOp) : Fields :=
  { op := o.code, stall := x.hdr.stall, gn := x.hdr.gn, gp := x.hdr.gp, fn := x.size.code ++ 0#1 ++ x.perms,
    d := x.d.code, a := x.a.code, b := x.b.code, c := 0xFF, md := 0, imm := 0#16 ++ x.off }

/-- The fields of the function layout. -/
def Fun.fields (o : Op) (x : Fun) : Fields :=
  { op := o.code, stall := x.hdr.stall, gn := x.hdr.gn, gp := x.hdr.gp, fn := x.fn, d := x.d.code, a := x.a.code,
    b := x.b.code, c := x.c.code, md := x.md, imm := x.imm }

/-- The fields of BRX. -/
def BrxOp.fields (o : Op) (x : BrxOp) : Fields :=
  { op := o.code, stall := x.hdr.stall, gn := x.hdr.gn, gp := x.hdr.gp, fn := 0, d := x.disp.extractLsb' 8 8,
    a := x.a.code, b := x.b.code, c := x.disp.extractLsb' 0 8, md := x.slot ++ 0#5, imm := x.imm }

/-- The fields of an instruction; a device event has none. -/
def Instr.fields : Instr → Option Fields
  | .iadd x => some (x.fields .iadd)
  | .isub x => some (x.fields .isub)
  | .imul x => some (x.fields .imul)
  | .imulh x => some (x.fields .imulh)
  | .imad x => some (x.fields .imad)
  | .idiv x => some (x.fields .idiv)
  | .irem x => some (x.fields .irem)
  | .imin x => some (x.fields .imin)
  | .imax x => some (x.fields .imax)
  | .and x => some (x.fields .and)
  | .or x => some (x.fields .or)
  | .xor x => some (x.fields .xor)
  | .andn x => some (x.fields .andn)
  | .shl x => some (x.fields .shl)
  | .shr x => some (x.fields .shr)
  | .sar x => some (x.fields .sar)
  | .rot x => some (x.fields .rot)
  | .bfx x => some (x.fields .bfx)
  | .bfi x => some (x.fields .bfi)
  | .popc x => some (x.fields .popc)
  | .clz x => some (x.fields .clz)
  | .brev x => some (x.fields .brev)
  | .icmp x => some (x.fields .icmp)
  | .sel x => some (x.fields .sel)
  | .mov x => some (x.fields .mov)
  | .lea x => some (x.fields .lea)
  | .prmt x => some (x.fields .prmt)
  | .plop x => some (x.fields .plop)
  | .idot4 x => some (x.fields .idot4)
  | .iabs x => some (x.fields .iabs)
  | .fadd x => some (x.fields .fadd)
  | .fsub x => some (x.fields .fsub)
  | .fmul x => some (x.fields .fmul)
  | .ffma x => some (x.fields .ffma)
  | .fmin x => some (x.fields .fmin)
  | .fmax x => some (x.fields .fmax)
  | .fcmp x => some (x.fields .fcmp)
  | .fclass x => some (x.fields .fclass)
  | .frcp x => some (x.fields .frcp)
  | .frsq x => some (x.fields .frsq)
  | .fsqrt x => some (x.fields .fsqrt)
  | .fexp2 x => some (x.fields .fexp2)
  | .flog2 x => some (x.fields .flog2)
  | .fdiv x => some (x.fields .fdiv)
  | .fscale x => some (x.fields .fscale)
  | .fround x => some (x.fields .fround)
  | .hadd2 x => some (x.fields .hadd2)
  | .hmul2 x => some (x.fields .hmul2)
  | .hfma2 x => some (x.fields .hfma2)
  | .cvt x => some (x.fields .cvt)
  | .cvti x => some (x.fields .cvti)
  | .mxpack x => some (x.fields .mxpack)
  | .mxunpack x => some (x.fields .mxunpack)
  | .ternq x => some (x.fields .ternq)
  | .ld x => some (x.fields .ld)
  | .st x => some (x.fields .st)
  | .ldc x => some (x.fields .ldc)
  | .stc x => some (x.fields .stc)
  | .ldp x => some (x.fields .ldp)
  | .stp x => some (x.fields .stp)
  | .lds x => some (x.fields .lds)
  | .sts x => some (x.fields .sts)
  | .park x => some (x.fields .park)
  | .unpark x => some (x.fields .unpark)
  | .revise x => some (x.fields .revise)
  | .prefetch x => some (x.fields .prefetch)
  | .flush x => some (x.fields .flush)
  | .inval x => some (x.fields .inval)
  | .capset x => some (x.fields .capset)
  | .capnarrowRange x => some (x.fields .capnarrow)
  | .capnarrowPerm x => some (x.fields .capnarrow)
  | .capnarrowSubtile x => some (x.fields .capnarrow)
  | .capnarrowVersion x => some (x.fields .capnarrow)
  | .capnarrowRetype x => some (x.fields .capnarrow)
  | .capget x => some (x.fields .capget)
  | .capchk x => some (x.fields .capchk)
  | .capmov x => some (x.fields .capmov)
  | .seal x => some (x.fields .seal)
  | .sealOpen x => some (x.fields .seal)
  | .reseal x => some (x.fields .reseal)
  | .atom x => some (x.fields .atom)
  | .red x => some (x.fields .red)
  | .cas x => some (x.fields .cas)
  | .atoms x => some (x.fields .atoms)
  | .cass x => some (x.fields .cass)
  | .fence x => some (x.fields .fence)
  | .fenceSc x => some (x.fields .fence)
  | .fenceComplete _ => none
  | .barSync x => some (x.fields .bar)
  | .barArrive x => some (x.fields .bar)
  | .barWait x => some (x.fields .bar)
  | .barset x => some (x.fields .barset)
  | .waith x => some (x.fields .waith)
  | .testh x => some (x.fields .testh)
  | .cancelh x => some (x.fields .cancelh)
  | .bra x => some (x.fields .bra)
  | .brx x => some (x.fields .brx)
  | .join x => some (x.fields .join)
  | .call x => some (x.fields .call)
  | .ret x => some (x.fields .ret)
  | .jmpr x => some (x.fields .jmpr)
  | .loop x => some (x.fields .loop)
  | .exit x => some (x.fields .exit)
  | .yield x => some (x.fields .yield)
  | .nop x => some (x.fields .nop)
  | .shfl x => some (x.fields .shfl)
  | .vote x => some (x.fields .vote)
  | .ballot x => some (x.fields .ballot)
  | .redux x => some (x.fields .redux)
  | .scan x => some (x.fields .scan)
  | .part x => some (x.fields .part)
  | .matchI x => some (x.fields .matchI)
  | .elect x => some (x.fields .elect)
  | .prioTake x => some (x.fields .prio)
  | .prioPass x => some (x.fields .prio)
  | .prioDrop x => some (x.fields .prio)
  | .smxstep x => some (x.fields .smxstep)
  | .mxloadw x => some (x.fields .mxloadw)
  | .mxswap x => some (x.fields .mxswap)
  | .mxrun x => some (x.fields .mxrun)
  | .mxfence x => some (x.fields .mxfence)
  | .mxdrain x => some (x.fields .mxdrain)
  | .mxdrainR x => some (x.fields .mxdrain)
  | .mxzero x => some (x.fields .mxzero)
  | .mxstat x => some (x.fields .mxstat)
  | .mxstatFlagsclr x => some (x.fields .mxstat)
  | .copy x => some (x.fields .copy)
  | .gather x => some (x.fields .gather)
  | .scatter x => some (x.fields .scatter)
  | .slistInit x => some (x.fields .slist)
  | .slistStat x => some (x.fields .slist)
  | .spliceIns x => some (x.fields .splice)
  | .spliceRemove x => some (x.fields .splice)
  | .spliceTrunc x => some (x.fields .splice)
  | .splicePerform _ => none
  | .pin x => some (x.fields .pin)
  | .pinVer x => some (x.fields .pin)
  | .unpin x => some (x.fields .unpin)
  | .slook x => some (x.fields .slook)
  | .reclaim x => some (x.fields .reclaim)
  | .topk x => some (x.fields .topk)
  | .qpush x => some (x.fields .qpush)
  | .qpop x => some (x.fields .qpop)
  | .qsteal x => some (x.fields .qsteal)
  | .qstat x => some (x.fields .qstat)
  | .qbindBind x => some (x.fields .qbind)
  | .qbindUnbind x => some (x.fields .qbind)
  | .qbindClose x => some (x.fields .qbind)
  | .qbindOpen x => some (x.fields .qbind)
  | .trap x => some (x.fields .trap)
  | .brk x => some (x.fields .brk)
  | .mfsr x => some (x.fields .mfsr)
  | .mtsr x => some (x.fields .mtsr)
  | .mtsrParkctl x => some (x.fields .mtsr)
  | .rft x => some (x.fields .rft)
  | .srseed x => some (x.fields .srseed)
  | .srseedG x => some (x.fields .srseed)
  | .ctxsave x => some (x.fields .ctxsave)
  | .ctxload x => some (x.fields .ctxload)
  | .tlbinvRange x => some (x.fields .tlbinv)
  | .tlbinvAsid x => some (x.fields .tlbinv)
  | .tlbinvAll x => some (x.fields .tlbinv)
  | .tlbinvSplinter x => some (x.fields .tlbinv)
  | .haltWait x => some (x.fields .halt)
  | .haltKill x => some (x.fields .halt)
  | .lineFetch _ _ _ => none
  | .fixedResultDelivery _ => none
  | .variableResultLands _ => none
  | .gangSwap _ => none
  | .handoverOutComplete _ => none
  | .handbackComplete _ => none
  | .rejoinwaitExpiry _ _ => none
  | .mtlbWalk _ _ _ _ => none
  | .sidelogReplay _ => none
  | .firmwarePathComplete _ => none
  | .copyOpStart _ => none
  | .copyOpComplete _ => none
  | .topkStart _ => none
  | .topkComplete _ => none
  | .mxloadwDispatch _ => none
  | .mxloadwComplete _ => none
  | .mxswapDispatch _ => none
  | .mxrunDispatch _ => none
  | .mxrunComplete _ => none
  | .mxdrainDispatch _ => none
  | .mxdrainComplete _ => none
  | .mxzeroDispatch _ => none
  | .engineBarrierArrival _ => none
  | .tokenArrival _ => none
  | .tokenRelease _ => none
  | .tokenHoldExpiry _ => none
  | .boostRecompute => none
  | .qpopWake _ => none
  | .qpushWake _ => none
  | .qpushWaitExpiry _ => none
  | .cohortPlacement _ => none
  | .preemption _ => none
  | .crewResume _ => none
  | .crewRetire _ => none
  | .hostMemWrite _ _ => none
  | .hostMemRead _ _ => none
  | .peerMemWrite _ _ => none
  | .peerMemRead _ _ => none
  | .peerPush _ _ _ => none
  | .hsemClaim _ => none
  | .hsemRelease _ => none
  | .ringHeadWrite _ _ => none
  | .launchDoorbell _ => none
  | .gangResume _ _ _ => none
  | .crewKill _ _ => none
  | .faultResolve _ => none
  | .faultRefuse _ => none
  | .powercfgWrite _ _ => none
  | .warmReset _ => none
  | .ctxdbLoad _ _ => none
  | .ctxdbLoadComplete => none
  | .taildb _ _ _ => none
  | .headdb _ _ _ => none
  | .bar0RegisterWrite _ _ _ => none
  | .coldReset _ => none
  | .functionLevelReset _ => none
  | .hostLinkDown _ => none
  | .portRetrainComplete _ => none
  | .portRetrainTimeout _ => none
  | .powerThermalLimit _ => none
  | .powerThermalClear _ => none
  | .criticalTemperature => none
  | .attestationReport _ _ => none
  | .nicDoorbell _ _ => none
  | .nicCompletion _ => none
  | .illegalOpcodeIssue _ => none
  | .faultqEventqWrite _ _ => none
  | .portRetrainBegin _ => none
  | .roceInboundRequest _ _ => none

/-- The constructor agrees with the sub-function its operands carry; a device event is no instruction word. -/
def Instr.subOk : Instr → Bool
  | .iadd _ => true
  | .isub _ => true
  | .imul _ => true
  | .imulh _ => true
  | .imad _ => true
  | .idiv _ => true
  | .irem _ => true
  | .imin _ => true
  | .imax _ => true
  | .and _ => true
  | .or _ => true
  | .xor _ => true
  | .andn _ => true
  | .shl _ => true
  | .shr _ => true
  | .sar _ => true
  | .rot _ => true
  | .bfx _ => true
  | .bfi _ => true
  | .popc _ => true
  | .clz _ => true
  | .brev _ => true
  | .icmp _ => true
  | .sel _ => true
  | .mov _ => true
  | .lea _ => true
  | .prmt _ => true
  | .plop _ => true
  | .idot4 _ => true
  | .iabs _ => true
  | .fadd _ => true
  | .fsub _ => true
  | .fmul _ => true
  | .ffma _ => true
  | .fmin _ => true
  | .fmax _ => true
  | .fcmp _ => true
  | .fclass _ => true
  | .frcp _ => true
  | .frsq _ => true
  | .fsqrt _ => true
  | .fexp2 _ => true
  | .flog2 _ => true
  | .fdiv _ => true
  | .fscale _ => true
  | .fround _ => true
  | .hadd2 _ => true
  | .hmul2 _ => true
  | .hfma2 _ => true
  | .cvt _ => true
  | .cvti _ => true
  | .mxpack _ => true
  | .mxunpack _ => true
  | .ternq _ => true
  | .ld _ => true
  | .st _ => true
  | .ldc _ => true
  | .stc _ => true
  | .ldp _ => true
  | .stp _ => true
  | .lds _ => true
  | .sts _ => true
  | .park _ => true
  | .unpark _ => true
  | .revise _ => true
  | .prefetch _ => true
  | .flush _ => true
  | .inval _ => true
  | .capset _ => true
  | .capnarrowRange x => decide (x.fn = 0)
  | .capnarrowPerm x => decide (x.fn = 1)
  | .capnarrowSubtile x => decide (x.fn = 2)
  | .capnarrowVersion x => decide (x.fn = 3)
  | .capnarrowRetype x => decide (x.fn = 4)
  | .capget _ => true
  | .capchk _ => true
  | .capmov _ => true
  | .seal x => decide (x.fn = 0)
  | .sealOpen x => decide (x.fn = 1)
  | .reseal _ => true
  | .atom _ => true
  | .red _ => true
  | .cas _ => true
  | .atoms _ => true
  | .cass _ => true
  | .fence x => decide (x.fn = 0)
  | .fenceSc x => decide (x.fn = 1)
  | .fenceComplete _ => false
  | .barSync x => decide (x.fn = 0)
  | .barArrive x => decide (x.fn = 1)
  | .barWait x => decide (x.fn = 2)
  | .barset _ => true
  | .waith _ => true
  | .testh _ => true
  | .cancelh _ => true
  | .bra _ => true
  | .brx _ => true
  | .join _ => true
  | .call _ => true
  | .ret _ => true
  | .jmpr _ => true
  | .loop _ => true
  | .exit _ => true
  | .yield _ => true
  | .nop _ => true
  | .shfl _ => true
  | .vote _ => true
  | .ballot _ => true
  | .redux _ => true
  | .scan _ => true
  | .part _ => true
  | .matchI _ => true
  | .elect _ => true
  | .prioTake x => decide (x.var = 0)
  | .prioPass x => decide (x.var = 1)
  | .prioDrop x => decide (x.var = 2)
  | .smxstep _ => true
  | .mxloadw _ => true
  | .mxswap _ => true
  | .mxrun _ => true
  | .mxfence _ => true
  | .mxdrain x => decide (x.var.getLsbD 1 = false)
  | .mxdrainR x => decide (x.var.getLsbD 1 = true)
  | .mxzero _ => true
  | .mxstat x => decide (x.fn ≠ 1)
  | .mxstatFlagsclr x => decide (x.fn = 1)
  | .copy _ => true
  | .gather _ => true
  | .scatter _ => true
  | .slistInit x => decide (x.fn = 0)
  | .slistStat x => decide (x.fn ≠ 0)
  | .spliceIns x => decide (x.fn.extractLsb' 0 7 = 0#7)
  | .spliceRemove x => decide (x.fn.extractLsb' 0 7 = 1#7)
  | .spliceTrunc x => decide (x.fn.extractLsb' 0 7 = 2#7)
  | .splicePerform _ => false
  | .pin x => decide (x.fn = 0)
  | .pinVer x => decide (x.fn = 1)
  | .unpin _ => true
  | .slook _ => true
  | .reclaim _ => true
  | .topk _ => true
  | .qpush _ => true
  | .qpop _ => true
  | .qsteal _ => true
  | .qstat _ => true
  | .qbindBind x => decide (x.fn = 0)
  | .qbindUnbind x => decide (x.fn = 1)
  | .qbindClose x => decide (x.fn = 2)
  | .qbindOpen x => decide (x.fn = 3)
  | .trap _ => true
  | .brk _ => true
  | .mfsr _ => true
  | .mtsr x => decide (x.imm.extractLsb' 0 12 ≠ 0x103#12)
  | .mtsrParkctl x => decide (x.imm.extractLsb' 0 12 = 0x103#12)
  | .rft _ => true
  | .srseed x => decide (x.fn = 0)
  | .srseedG x => decide (x.fn = 1)
  | .ctxsave _ => true
  | .ctxload _ => true
  | .tlbinvRange x => decide (x.fn = 0)
  | .tlbinvAsid x => decide (x.fn = 1)
  | .tlbinvAll x => decide (x.fn = 2)
  | .tlbinvSplinter x => decide (x.fn = 3)
  | .haltWait x => decide (x.fn = 0)
  | .haltKill x => decide (x.fn = 1)
  | .lineFetch _ _ _ => false
  | .fixedResultDelivery _ => false
  | .variableResultLands _ => false
  | .gangSwap _ => false
  | .handoverOutComplete _ => false
  | .handbackComplete _ => false
  | .rejoinwaitExpiry _ _ => false
  | .mtlbWalk _ _ _ _ => false
  | .sidelogReplay _ => false
  | .firmwarePathComplete _ => false
  | .copyOpStart _ => false
  | .copyOpComplete _ => false
  | .topkStart _ => false
  | .topkComplete _ => false
  | .mxloadwDispatch _ => false
  | .mxloadwComplete _ => false
  | .mxswapDispatch _ => false
  | .mxrunDispatch _ => false
  | .mxrunComplete _ => false
  | .mxdrainDispatch _ => false
  | .mxdrainComplete _ => false
  | .mxzeroDispatch _ => false
  | .engineBarrierArrival _ => false
  | .tokenArrival _ => false
  | .tokenRelease _ => false
  | .tokenHoldExpiry _ => false
  | .boostRecompute => false
  | .qpopWake _ => false
  | .qpushWake _ => false
  | .qpushWaitExpiry _ => false
  | .cohortPlacement _ => false
  | .preemption _ => false
  | .crewResume _ => false
  | .crewRetire _ => false
  | .hostMemWrite _ _ => false
  | .hostMemRead _ _ => false
  | .peerMemWrite _ _ => false
  | .peerMemRead _ _ => false
  | .peerPush _ _ _ => false
  | .hsemClaim _ => false
  | .hsemRelease _ => false
  | .ringHeadWrite _ _ => false
  | .launchDoorbell _ => false
  | .gangResume _ _ _ => false
  | .crewKill _ _ => false
  | .faultResolve _ => false
  | .faultRefuse _ => false
  | .powercfgWrite _ _ => false
  | .warmReset _ => false
  | .ctxdbLoad _ _ => false
  | .ctxdbLoadComplete => false
  | .taildb _ _ _ => false
  | .headdb _ _ _ => false
  | .bar0RegisterWrite _ _ _ => false
  | .coldReset _ => false
  | .functionLevelReset _ => false
  | .hostLinkDown _ => false
  | .portRetrainComplete _ => false
  | .portRetrainTimeout _ => false
  | .powerThermalLimit _ => false
  | .powerThermalClear _ => false
  | .criticalTemperature => false
  | .attestationReport _ _ => false
  | .nicDoorbell _ _ => false
  | .nicCompletion _ => false
  | .illegalOpcodeIssue _ => false
  | .faultqEventqWrite _ _ => false
  | .portRetrainBegin _ => false
  | .roceInboundRequest _ _ => false

/-- The decoder for a crew with `vregs` vector registers: total, every refusal named (R63, R64). -/
def decode (vregs : Nat) (w : InstrWord) : Except DecodeError Instr :=
  if w = 0 then .error .zeroWord
  else
    let f := Fields.ofWord w
    match Op.ofCode f.op with
    | none => .error .illegalOpcode
    | some o =>
        match o.check vregs f with
        | some e => .error e
        | none =>
            match o.build f with
            | some i => .ok i
            | none => .error (.illegalField 72)

/-- The word of an instruction (R43); a device event has none. -/
def encode (i : Instr) : Option InstrWord := i.fields.map Fields.toWord

/-- The word at the least significant bits of a table word, its bytes laid out and read back little-endian (R39). -/
def decodeTableWord (nbits w : Nat) : Option Instr :=
  match decode 128 (BitVec.ofNat 96 (w % 2 ^ nbits)) with
  | .ok i => some i
  | .error _ => none

end Sys2Proof
end

