-- ==== Sys2Proof/Machine/Float.lean ====
section
/-! DEFINITION. The number formats to the bit: unpacking (R65-R68), rounding (R72-R77), and the exact arithmetic of the
floating-point instructions (R222-R226) and of the conversions (R78). An exact magnitude is m * 2^e, with `sticky` set
when the exact value lies strictly between m * 2^e and (m + 1) * 2^e. -/

namespace Sys2Proof

/-! ### Flags (R79) -/

def flagNX : BitVec 8 := 1
def flagUF : BitVec 8 := 2
def flagOF : BitVec 8 := 4
def flagDZ : BitVec 8 := 8
def flagNV : BitVec 8 := 16
def flagSATF : BitVec 8 := 32
def flagTERN : BitVec 8 := 64
def flagSCNAN : BitVec 8 := 128

/-- A flag when a condition holds. -/
def flagIf (b : Bool) (f : BitVec 8) : BitVec 8 := if b then f else 0

/-! ### Formats (R65) -/

/-- How a format spends its top exponent field (R66): infinity and NaN, one NaN pattern (E4M3), or neither. -/
inductive FKind where
  | ieee | e4m3 | finite
deriving DecidableEq, Repr

/-- A floating-point format: exponent bits, mantissa bits, bias, kind (R65). -/
structure FloatFmt where
  e : Nat
  m : Nat
  bias : Nat
  kind : FKind
deriving DecidableEq, Repr

/-- The format of a float type (R65, R69). -/
def Ty.floatFmt : Ty → FloatFmt
  | .f16 => ⟨5, 10, 15, .ieee⟩
  | .bf16 => ⟨8, 7, 127, .ieee⟩
  | .e4m3 | .mx8 => ⟨4, 3, 7, .e4m3⟩
  | .e5m2 => ⟨5, 2, 15, .ieee⟩
  | .e2m3 | .mx6 => ⟨2, 3, 1, .finite⟩
  | .e3m2 | .mx6b => ⟨3, 2, 3, .finite⟩
  | .e2m1 | .mx4 => ⟨2, 1, 1, .finite⟩
  | _ => ⟨8, 23, 127, .ieee⟩

/-- The place of the sign bit. -/
def FloatFmt.signBit (f : FloatFmt) : Nat := f.e + f.m
/-- The pattern of +infinity, or of the top exponent field. -/
def FloatFmt.infBits (f : FloatFmt) : Nat := (2 ^ f.e - 1) * 2 ^ f.m
/-- The largest finite pattern (R65). -/
def FloatFmt.maxBits (f : FloatFmt) : Nat :=
  match f.kind with
  | .ieee => f.infBits - 1
  | .e4m3 => f.infBits + 6
  | .finite => 2 ^ (f.e + f.m) - 1
/-- The canonical NaN; a format without NaN receives +0 (R65, R77). -/
def FloatFmt.nanBits (f : FloatFmt) : Nat :=
  match f.kind with
  | .ieee => f.infBits + 2 ^ (f.m - 1)
  | .e4m3 => f.infBits + 7
  | .finite => 0
/-- A magnitude pattern with a sign. -/
def FloatFmt.signed (f : FloatFmt) (neg : Bool) (bits : Nat) : Nat := if neg then 2 ^ f.signBit + bits else bits

/-- A value read from a pattern (R66, R67): NaN, infinity, or (-1)^neg * m * 2^e. -/
inductive FVal where
  | nan (signalling : Bool)
  | inf (neg : Bool)
  | num (neg : Bool) (m : Nat) (e : Int)
deriving DecidableEq, Repr

/-- The value of a pattern (R66, R67). -/
def FloatFmt.unpack (f : FloatFmt) (bits : Nat) : FVal :=
  let neg := bits / 2 ^ f.signBit % 2 = 1
  let ex := bits / 2 ^ f.m % 2 ^ f.e
  let mt := bits % 2 ^ f.m
  let top := ex = 2 ^ f.e - 1
  if f.kind = .ieee && top then
    if mt = 0 then .inf neg else .nan (mt / 2 ^ (f.m - 1) % 2 = 0)
  else if f.kind = .e4m3 && top && mt = 7 then .nan false
  else if ex = 0 then .num neg mt (1 - (f.bias : Int) - f.m)
  else .num neg (2 ^ f.m + mt) ((ex : Int) - f.bias - f.m)

def FVal.isNan : FVal → Bool
  | .nan _ => true
  | _ => false
def FVal.isSig : FVal → Bool
  | .nan b => b
  | _ => false
def FVal.isInf : FVal → Bool
  | .inf _ => true
  | _ => false
def FVal.isZero : FVal → Bool
  | .num _ m _ => m = 0
  | _ => false
def FVal.neg : FVal → Bool
  | .nan _ => false
  | .inf n => n
  | .num n _ _ => n
def FVal.negate : FVal → FVal
  | .nan b => .nan b
  | .inf n => .inf (!n)
  | .num n m e => .num (!n) m e
/-- The value as a signed integer at exponent `x` at most its own. -/
def FVal.at (v : FVal) (x : Int) : Int :=
  match v with
  | .num n m e => let k : Int := (m * 2 ^ (e - x).toNat : Nat); if n then -k else k
  | _ => 0
def FVal.exp : FVal → Int
  | .num _ _ e => e
  | _ => 0

/-! ### Rounding (R73, R74, R76) -/

/-- The number of bits of a natural number. -/
def bitLength (n : Nat) : Nat := if n = 0 then 0 else n.log2 + 1

/-- Advance of a rounding state (R74). -/
def advanceState (x : Word) : Word :=
  let x := x ^^^ (x <<< 13)
  let x := x ^^^ (x >>> 17)
  x ^^^ (x <<< 5)

/-- Rounding modes (R73). -/
abbrev RNE : Nat := 0
abbrev RZ : Nat := 1
abbrev RD : Nat := 2
abbrev RU : Nat := 3
abbrev SR : Nat := 4

/-- An exact magnitude. -/
structure Mag where
  m : Nat
  e : Int
  sticky : Bool := false
deriving DecidableEq, Repr

/-- What a rounding to units of 2^q gives: the units, whether it is inexact, the state after (R73, R74). -/
structure Units where
  t : Nat
  inexact : Bool
  st : Word
deriving DecidableEq, Repr

/-- Rounding of a magnitude at weight 2^q (R73, R74). -/
def roundUnits (mode : Nat) (neg : Bool) (x : Mag) (q : Int) (st : Word) : Units :=
  let sh := (q - x.e).toNat
  let t := if x.e ≥ q then x.m * 2 ^ (x.e - q).toNat else x.m / 2 ^ sh
  let rem := if x.e ≥ q then 0 else x.m % 2 ^ sh
  let inexact := rem ≠ 0 || x.sticky
  let half := 2 ^ (sh - 1)
  let up :=
    if mode = RNE then sh ≠ 0 && (rem > half || (rem = half && (x.sticky || t % 2 = 1)))
    else if mode = RD then neg && inexact
    else if mode = RU then !neg && inexact
    else if mode = SR then
      (if sh ≥ 32 then rem / 2 ^ (sh - 32) else rem * 2 ^ (32 - sh)) + st.toNat ≥ 2 ^ 32
    else false
  { t := if up then t + 1 else t, inexact := inexact, st := if mode = SR then advanceState st else st }

/-- A result pattern with its flags and the rounding state after it. -/
structure FRes where
  bits : Nat
  flags : BitVec 8 := 0
  st : Word
deriving DecidableEq, Repr

/-- RoundF of an exact magnitude with a sign (R6, R72-R76). -/
def FloatFmt.round (f : FloatFmt) (mode : Nat) (sat neg : Bool) (x : Mag) (st : Word) : FRes :=
  if x.m = 0 && !x.sticky then
    { bits := f.signed neg 0, st := if mode = SR then advanceState st else st }
  else
    let emin : Int := 1 - (f.bias : Int)
    let top : Int := x.e + bitLength x.m - 1
    let q : Int := max top emin - f.m
    let u := roundUnits mode neg x q st
    let bits := (q + f.m + f.bias - 1).toNat * 2 ^ f.m + u.t
    if bits > f.maxBits then
      let toInf := f.kind = .ieee && f.m ≠ 2 && !sat &&
        (mode = RNE || mode = SR || (mode = RU && !neg) || (mode = RD && neg))
      if toInf then { bits := f.signed neg f.infBits, flags := flagOF ||| flagNX, st := u.st }
      else { bits := f.signed neg f.maxBits, flags := flagOF ||| flagNX ||| flagSATF, st := u.st }
    else
      { bits := f.signed neg bits,
        flags := flagIf u.inexact flagNX ||| flagIf (u.inexact && top < emin) flagUF, st := u.st }

/-- NaN and infinity written to a format (R77). -/
def FloatFmt.special (f : FloatFmt) (sat : Bool) (v : FVal) (st : Word) : FRes :=
  match v with
  | .nan sig => { bits := f.nanBits, flags := flagIf (sig || f.kind = .finite) flagNV, st := st }
  | .inf neg =>
      if f.kind = .ieee then
        if sat then { bits := f.signed neg f.maxBits, flags := flagSATF, st := st }
        else { bits := f.signed neg f.infBits, st := st }
      else { bits := f.signed neg f.maxBits, flags := flagOF ||| flagSATF, st := st }
  | .num .. => { bits := 0, st := st }

/-- The canonical NaN with flags. -/
def FloatFmt.nan (f : FloatFmt) (flags : BitVec 8) (st : Word) : FRes := { bits := f.nanBits, flags := flags, st := st }
/-- An exact infinity. -/
def FloatFmt.inf (f : FloatFmt) (neg : Bool) (flags : BitVec 8) (st : Word) : FRes :=
  { bits := f.signed neg f.infBits, flags := flags, st := st }

/-! ### Exact sums and products -/

/-- The exact sum of finite values as a signed integer at an exponent. -/
def exactSum (vs : List FVal) : Int × Int :=
  let x := vs.foldl (fun a v => min a v.exp) 0
  (vs.foldl (fun a v => a + v.at x) 0, x)

/-- The sign of an exact zero sum (R72): the common sign of zeros that agree, else + but under RD. -/
def zeroSumNeg (mode : Nat) (vs : List FVal) : Bool :=
  if vs.all FVal.isZero && vs.all FVal.neg && !vs.isEmpty then true
  else if vs.all FVal.isZero && vs.all (fun v => !v.neg) then false
  else mode = RD

/-- A sum of finite values rounded once (R72, R222, R268). -/
def FloatFmt.sum (f : FloatFmt) (mode : Nat) (sat : Bool) (vs : List FVal) (st : Word) : FRes :=
  let (n, x) := exactSum vs
  if n = 0 then f.round mode sat (zeroSumNeg mode vs) { m := 0, e := 0 } st
  else f.round mode sat (n < 0) { m := n.natAbs, e := x } st

/-- The exact product of two finite values. -/
def FVal.times (a b : FVal) : FVal :=
  match a, b with
  | .num s m e, .num s' m' e' => .num (s != s') (m * m') (e + e')
  | _, _ => .num false 0 0

/-- Infinity times zero in either order. -/
def zeroTimesInf (a b : FVal) : Bool := (a.isZero && b.isInf) || (a.isInf && b.isZero)

/-- The product of two values that are no NaN and not infinity times zero. -/
def FVal.product (a b : FVal) : FVal :=
  if a.isInf || b.isInf then .inf (a.neg != b.neg) else a.times b

/-- The invalid flag of signalling operands (R67). -/
def sigFlag (vs : List FVal) : BitVec 8 := flagIf (vs.any FVal.isSig) flagNV

/-- a + b (R222). -/
def FloatFmt.add (f : FloatFmt) (mode : Nat) (sat : Bool) (a b : FVal) (st : Word) : FRes :=
  if a.isNan || b.isNan then f.nan (sigFlag [a, b]) st
  else if a.isInf && b.isInf && a.neg != b.neg then f.nan flagNV st
  else if a.isInf then f.inf a.neg 0 st
  else if b.isInf then f.inf b.neg 0 st
  else f.sum mode sat [a, b] st

/-- a * b (R222). -/
def FloatFmt.mul (f : FloatFmt) (mode : Nat) (sat : Bool) (a b : FVal) (st : Word) : FRes :=
  if a.isNan || b.isNan then f.nan (sigFlag [a, b]) st
  else if zeroTimesInf a b then f.nan flagNV st
  else if a.isInf || b.isInf then f.inf (a.neg != b.neg) 0 st
  else f.sum mode sat [a.times b] st

/-- a * b + c with one rounding; NV for zero times infinity even beside a quiet NaN in c (R222). -/
def FloatFmt.fma (f : FloatFmt) (mode : Nat) (sat : Bool) (a b c : FVal) (st : Word) : FRes :=
  if zeroTimesInf a b then f.nan flagNV st
  else if a.isNan || b.isNan || c.isNan then f.nan (sigFlag [a, b, c]) st
  else f.add mode sat (a.product b) c st

/-! ### Quotients and roots -/

/-- n / d * 2^e with at least 90 bits of quotient. -/
def quotient (n d : Nat) (e : Int) : Mag :=
  let k := 90 + bitLength d - min (90 + bitLength d) (bitLength n)
  { m := n * 2 ^ k / d, e := e - k, sticky := n * 2 ^ k % d ≠ 0 }

/-- a / b (R222). -/
def FloatFmt.div (f : FloatFmt) (mode : Nat) (sat : Bool) (a b : FVal) (st : Word) : FRes :=
  if a.isNan || b.isNan then f.nan (sigFlag [a, b]) st
  else
    match a, b with
    | .inf _, .inf _ => f.nan flagNV st
    | .inf s, _ => f.inf (s != b.neg) 0 st
    | _, .inf s => { bits := f.signed (a.neg != s) 0, st := st }
    | .num s m e, .num s' m' e' =>
        if m' = 0 then (if m = 0 then f.nan flagNV st else f.inf (s != s') flagDZ st)
        else if m = 0 then f.round mode sat (s != s') { m := 0, e := 0 } st
        else f.round mode sat (s != s') (quotient m m' (e - e')) st
    | _, _ => f.nan flagNV st

/-- 1 / a (R225). -/
def FloatFmt.rcp (f : FloatFmt) (mode : Nat) (sat : Bool) (a : FVal) (st : Word) : FRes :=
  match a with
  | .nan sig => f.nan (flagIf sig flagNV) st
  | .inf s => { bits := f.signed s 0, st := st }
  | .num s m e =>
      if m = 0 then f.inf s flagDZ st else f.round mode sat s (quotient 1 m (-e)) st

/-- The integer square root, bit by bit from bit `k - 1`. -/
def isqrtBits (n : Nat) : Nat → Nat → Nat
  | 0, r => r
  | k + 1, r =>
      let c := r + 2 ^ k
      isqrtBits n k (if c * c ≤ n then c else r)

/-- The integer square root. -/
def isqrt (n : Nat) : Nat := isqrtBits n (bitLength n / 2 + 1) 0

/-- The root of a positive m * 2^e with at least 80 bits. -/
def rootMag (m : Nat) (e : Int) : Mag :=
  let (m, e) := if e % 2 = 0 then (m, e) else (2 * m, e - 1)
  let n := m * 2 ^ 160
  let r := isqrt n
  { m := r, e := e / 2 - 80, sticky := r * r ≠ n }

/-- The square root of a (R225). -/
def FloatFmt.sqrt (f : FloatFmt) (mode : Nat) (a : FVal) (st : Word) : FRes :=
  match a with
  | .nan sig => f.nan (flagIf sig flagNV) st
  | .inf s => if s then f.nan flagNV st else f.inf false 0 st
  | .num s m e =>
      if m = 0 then { bits := f.signed s 0, st := st }
      else if s then f.nan flagNV st
      else f.round mode false false (rootMag m e) st

/-- The reciprocal root of a positive m * 2^e. -/
def rsqMag (m : Nat) (e : Int) : Mag :=
  let (m, e) := if e % 2 = 0 then (m, e) else (2 * m, e - 1)
  let k := 100 + bitLength m
  let r := isqrt (2 ^ (2 * k) / m)
  { m := r, e := -(e / 2) - k, sticky := r * r * m ≠ 2 ^ (2 * k) }

/-- 1 / the square root of a (R225). -/
def FloatFmt.rsq (f : FloatFmt) (mode : Nat) (a : FVal) (st : Word) : FRes :=
  match a with
  | .nan sig => f.nan (flagIf sig flagNV) st
  | .inf s => if s then f.nan flagNV st else { bits := 0, st := st }
  | .num s m e =>
      if m = 0 then f.inf s flagDZ st
      else if s then f.nan flagNV st
      else f.round mode false false (rsqMag m e) st

/-! ### Powers of two and logarithms: fixed point with 512 fraction bits, far below every rounding window (R73, R74) -/

/-- The natural logarithm of 2 times 2^512, rounded down. -/
def ln2Fixed : Nat :=
  0xb17217f7d1cf79abc9e3b39803f2f6af40f343267298b62d8a0d175b8baafa2be7b876206debac98559552fb4afa1b10ed2eae35c138214427573b291169b825

/-- Sum of x^k / k! from term `t` on, in units of 2^-512. -/
def expTerms (x : Nat) : Nat → Nat → Nat → Nat
  | 0, _, _ => 0
  | n + 1, k, t => t + expTerms x n (k + 1) (t * x / 2 ^ 512 / k)

/-- 2^(c / 2^512) for a fraction 0 ≤ c < 2^512, in units of 2^-512. -/
def exp2Fixed (c : Nat) : Nat := expTerms (c * ln2Fixed / 2 ^ 512) 100 1 (2 ^ 512)

/-- 2^v for v = n * 2^x as a magnitude (R225): exact for an integer v, never representable otherwise. -/
def exp2Mag (n : Int) (x : Int) : Mag :=
  let sh := (-x).toNat
  let whole : Int := if x ≥ 0 then n * 2 ^ x.toNat else n / 2 ^ sh
  let frac : Nat := if x ≥ 0 then 0 else (n % 2 ^ sh).toNat
  let whole := max (-4000) (min 4000 whole)
  if frac = 0 then { m := 1, e := whole }
  else
    let c := if sh ≤ 512 then frac * 2 ^ (512 - sh) else frac / 2 ^ (sh - 512)
    { m := max (exp2Fixed c / 2 ^ 412) (2 ^ 100), e := whole - 100, sticky := true }

/-- 2^a (R225). -/
def FloatFmt.exp2 (f : FloatFmt) (mode : Nat) (sat : Bool) (a : FVal) (st : Word) : FRes :=
  match a with
  | .nan sig => f.nan (flagIf sig flagNV) st
  | .inf s => if s then { bits := 0, st := st } else f.inf false 0 st
  | .num s m e => f.round mode sat false (exp2Mag (if s then -(m : Int) else m) e) st

/-- `n` bits of log2 of y / 2^512 for 1 ≤ y / 2^512 < 2, by repeated squaring. -/
def log2Bits : Nat → Nat → Nat → Nat
  | 0, _, acc => acc
  | n + 1, y, acc =>
      let z := y * y / 2 ^ 512
      if z ≥ 2 ^ 513 then log2Bits n (z / 2) (2 * acc + 1) else log2Bits n z (2 * acc)

/-- log2 of a positive m * 2^e: its sign and magnitude (R225); a power of two is exact. -/
def log2Mag (m : Nat) (e : Int) : Bool × Mag :=
  let l := bitLength m - 1
  let k : Int := e + l
  if m = 2 ^ l then (k < 0, { m := k.natAbs, e := 0 })
  else
    let y := m * 2 ^ (512 - min 512 l)
    let v : Int := k * 2 ^ 160 + log2Bits 160 y 0
    if v ≥ 0 then (false, { m := v.natAbs, e := -160, sticky := true })
    else (true, { m := (-v - 1).natAbs, e := -160, sticky := true })

/-- log2 of a (R225). -/
def FloatFmt.log2 (f : FloatFmt) (mode : Nat) (a : FVal) (st : Word) : FRes :=
  match a with
  | .nan sig => f.nan (flagIf sig flagNV) st
  | .inf s => if s then f.nan flagNV st else f.inf false 0 st
  | .num s m e =>
      if m = 0 then f.inf true flagDZ st
      else if s then f.nan flagNV st
      else let (n, x) := log2Mag m e; f.round mode false n x st

/-! ### Order, classes, scaling, integral values -/

/-- a < b for values that are no NaN, with zeros equal (R223). -/
def FVal.lt (a b : FVal) : Bool :=
  match a, b with
  | .inf s, .inf s' => s && !s'
  | .inf s, _ => s
  | _, .inf s => !s
  | .num .., .num .. => let x := min a.exp b.exp; a.at x < b.at x
  | _, _ => false

/-- a < b with -0 below +0 (R224). -/
def FVal.ltTotal (a b : FVal) : Bool := a.lt b || (a.isZero && b.isZero && a.neg && !b.neg)

/-- FMIN (`max` false) and FMAX: one of the operands, bit for bit, or the canonical NaN (R224). -/
def FloatFmt.minMax (f : FloatFmt) (max : Bool) (a b : Nat) : Nat × BitVec 8 :=
  let x := f.unpack a
  let y := f.unpack b
  let fl := sigFlag [x, y]
  if x.isNan && y.isNan then (f.nanBits, fl)
  else if x.isNan then (b, fl)
  else if y.isNan then (a, fl)
  else if max then (if x.ltTotal y then b else a, fl)
  else (if y.ltTotal x then b else a, fl)

/-- The comparison `cc` (R223). -/
def FloatFmt.cmp (f : FloatFmt) (cc : Nat) (a b : Nat) : Bool × BitVec 8 :=
  let x := f.unpack a
  let y := f.unpack b
  let fl := sigFlag [x, y]
  if x.isNan || y.isNan then (cc = 1 || cc = 6, fl)
  else
    let lt := x.lt y
    let gt := y.lt x
    (match cc with
      | 0 => !lt && !gt
      | 1 => lt || gt
      | 2 => lt
      | 3 => !gt
      | 4 => gt
      | 5 => !lt
      | 6 => false
      | _ => true, fl)

/-- The class mask (R223). -/
def FloatFmt.classMask (f : FloatFmt) (a : Nat) : Nat :=
  match f.unpack a with
  | .nan true => 2 ^ 8
  | .nan false => 2 ^ 9
  | .inf s => if s then 1 else 2 ^ 7
  | .num s m _ =>
      let k := if m = 0 then 3 else if m < 2 ^ f.m then 2 else 1
      if s then 2 ^ k else 2 ^ (7 - k)

/-- Absolute value first, then negation, on the sign bit alone (R54). -/
def FloatFmt.signOps (f : FloatFmt) (abs neg : Bool) (a : Nat) : Nat :=
  let a := if abs then a % 2 ^ f.signBit else a % 2 ^ (f.signBit + 1)
  if neg then (if a ≥ 2 ^ f.signBit then a - 2 ^ f.signBit else a + 2 ^ f.signBit) else a

/-- a * 2^n with n clamped to ±1024 (R226). DESIGN CHOICE (log 59): under SR the rounding state advances once for every finite
result this file forms through `round`, exact zeros of a sum or product and results in the normal range among them; it stays for
NaN and infinite results, x / ∞, and FSCALE, FROUND and FSQRT of a zero, which R74 does not call roundings. -/
def FloatFmt.scale (f : FloatFmt) (mode : Nat) (sat : Bool) (a : Nat) (n : Int) (st : Word) : FRes :=
  match f.unpack a with
  | .nan sig => f.nan (flagIf sig flagNV) st
  | .inf _ => { bits := a, st := st }
  | .num s m e =>
      if m = 0 then { bits := a, st := st }
      else f.round mode sat s { m := m, e := e + max (-1024) (min 1024 n) } st

/-- The integral value of a; `x` sets NX when the value changes (R226). -/
def FloatFmt.integral (f : FloatFmt) (mode : Nat) (x : Bool) (a : Nat) (st : Word) : FRes :=
  match f.unpack a with
  | .nan sig => f.nan (flagIf sig flagNV) st
  | .inf _ => { bits := a, st := st }
  | .num s m e =>
      if m = 0 then { bits := a, st := st }
      else
        let u := roundUnits mode s { m := m, e := e } 0 st
        { bits := (f.round RZ false s { m := u.t, e := 0 } 0).bits, flags := flagIf (x && u.inexact) flagNX, st := u.st }

/-! ### Conversions (R78) -/

/-- The least and the greatest value of an integer type (R70). -/
def Ty.minInt (t : Ty) : Int := if t.isSigned then -(2 ^ (t.bits - 1) : Nat) else 0
def Ty.maxInt (t : Ty) : Int := if t.isSigned then (2 ^ (t.bits - 1) : Nat) - 1 else (2 ^ t.bits : Nat) - 1

/-- The integer a pattern of an integer type means (R70); untyped patterns are unsigned. -/
def Ty.toInt (t : Ty) (x : Nat) : Int :=
  let x := x % 2 ^ t.bits
  if t.isSigned && x ≥ 2 ^ (t.bits - 1) then (x : Int) - (2 ^ t.bits : Nat) else x

/-- An exact integer modulo 2^w as a pattern. -/
def wrapInt (w : Nat) (n : Int) : Nat := (n % (2 ^ w : Nat)).toNat

/-- An exact integer into a type: wrapped, or clamped with SATF when the value changes (R78, R215). -/
def Ty.fromInt (t : Ty) (sat : Bool) (n : Int) : Nat × BitVec 8 :=
  if sat then
    let c := max t.minInt (min t.maxInt n)
    (wrapInt t.bits c, flagIf (c ≠ n) flagSATF)
  else (wrapInt t.bits n, 0)

/-- A source element as it is read: a float value, or an exact integer (R71, R78). -/
inductive Source where
  | f (v : FVal)
  | i (n : Int)
deriving DecidableEq, Repr

/-- The element of a source type, with TERN for the code 0b10 (R71). -/
def Ty.source (t : Ty) (x : Nat) : Source × BitVec 8 :=
  if t = .t2 then
    match x % 4 with
    | 1 => (.i 1, 0)
    | 3 => (.i (-1), 0)
    | 2 => (.i 0, flagTERN)
    | _ => (.i 0, 0)
  else if t.isFloat then (.f (t.floatFmt.unpack (x % 2 ^ t.bits)), 0)
  else (.i (t.toInt x), 0)

/-- A finite value times an exact power of two (R69). -/
def FVal.shift (v : FVal) (k : Int) : FVal :=
  match v with
  | .num s m e => .num s m (e + k)
  | v => v

/-- A float value into a float format (R78). -/
def FloatFmt.convert (f : FloatFmt) (mode : Nat) (sat : Bool) (v : FVal) (st : Word) : FRes :=
  match v with
  | .num s m e => f.round mode sat s { m := m, e := e } st
  | v => f.special sat v st

/-- A float value into an integer type (R78). -/
def Ty.fromFloat (t : Ty) (mode : Nat) (v : FVal) (st : Word) : FRes :=
  match v with
  | .nan _ => { bits := 0, flags := flagNV, st := st }
  | .inf s => { bits := wrapInt t.bits (if s then t.minInt else t.maxInt), flags := flagNV, st := st }
  | .num s m e =>
      let u := roundUnits mode s { m := m, e := e } 0 st
      let n : Int := if s then -(u.t : Int) else u.t
      if n < t.minInt then { bits := wrapInt t.bits t.minInt, flags := flagNV, st := u.st }
      else if t.maxInt < n then { bits := wrapInt t.bits t.maxInt, flags := flagNV, st := u.st }
      else { bits := wrapInt t.bits n, flags := flagIf u.inexact flagNX, st := u.st }

/-- A source element into a destination type (R78). -/
def Source.convert (x : Source) (dt : Ty) (mode : Nat) (sat : Bool) (st : Word) : FRes :=
  match x with
  | .f v => if dt.isFloat then dt.floatFmt.convert mode sat v st else dt.fromFloat mode v st
  | .i n =>
      if dt.isFloat then dt.floatFmt.round mode sat (n < 0) { m := n.natAbs, e := 0 } st
      else let (b, fl) := dt.fromInt sat n; { bits := b, flags := fl, st := st }

/-- A pattern of one type converted to another (R78). -/
def convertElement (dt src : Ty) (mode : Nat) (sat : Bool) (x : Nat) (st : Word) : FRes :=
  let (v, fl) := Ty.source src x
  let r := v.convert dt mode sat st
  { r with flags := r.flags ||| fl }

/-- The value of an E8M0 scale as an exponent; 0xFF is NaN (R68). -/
def scaleExp (b : Nat) : Option Int := if b = 0xFF then none else some ((b : Int) - 127)

/-- An element times its block scale, exact, with SCNAN when the scale is 0xFF (R69). -/
def scaledValue (v : FVal) (scale : Nat) : FVal × BitVec 8 :=
  match scaleExp scale with
  | none => (.nan false, flagSCNAN)
  | some k => (v.shift k, 0)

/-! ### Sums of many contributions -/

/-- The exact real sum of F32 contributions rounded once (R268). -/
def FloatFmt.total (f : FloatFmt) (mode : Nat) (sat : Bool) (vs : List FVal) : FRes :=
  let pos := vs.any (fun v => v.isInf && !v.neg)
  let neg := vs.any (fun v => v.isInf && v.neg)
  if vs.any FVal.isNan || (pos && neg) then f.nan (sigFlag vs ||| flagIf (pos && neg) flagNV) 0
  else if pos then f.inf false 0 0
  else if neg then f.inf true 0 0
  else f.sum mode sat vs 0

end Sys2Proof
end

