-- ==== Sys2Proof/WellFormed.lean ====
section
/-! DEFINITION. Which instructions are well formed: the checks of R64 on the fields of the instruction, and the
sub-function its operands carry agreeing with its name. -/

namespace Sys2Proof

/-- The instruction passes every decode check in a crew with `vregs` vector registers (R64). -/
def Instr.wellFormedIn (vregs : Nat) (i : Instr) : Bool :=
  i.subOk &&
  match i.fields with
  | none => false
  | some f =>
      match Op.ofCode f.op with
      | none => false
      | some o => decide (o.check vregs f = none)

/-- Well formed in a crew with all 128 vector registers (R327). -/
def Instr.wellFormed (i : Instr) : Bool := i.wellFormedIn 128

end Sys2Proof
end

