-- ==== Sys2Proof/Machine/State.lean ====
section
/-! DEFINITION. The state of the whole device as plain data, the reasons a step can stop, and the state after reset.
One gang and its crew stand in focus (`State.gang`, `State.crew`): the gang at the issue stage. The other resident
gangs and crews stand in `State.gangs` and `State.crews`. Numbers that name places: a global core is
die * 48 + cluster * 4 + core, a global cluster die * 12 + cluster (R45). -/

namespace Sys2Proof.Machine

/-! ### The gang -/

/-- The states of a strand in the PC table (R309). -/
inductive StrandState where
  | ready | parked | waitj | out | ej | back | done
deriving DecidableEq, Repr

/-- One entry of the PC table (R309). -/
structure Strand where
  pc : Pc := 0
  age : Nat := 0
  st : StrandState := .done
  /-- The branch that brought it here when the line could not be read yet: the target bit is still to be checked (R42). -/
  via : Option Pc := none
deriving DecidableEq, Repr

/-- The partition a g register holds: BLK or ILV subgroups of `n` strands (R259). -/
structure Part where
  ilv : Bool := false
  n : Nat := 32
deriving DecidableEq, Repr

/-- What a register held before a fixed-latency result that is still in flight (R57). A vector register by strand. -/
inductive OldValue where
  | v (n : Nat) (written : Mask) (old : Sparse Word)
  | s (n : Nat) (old : Dword)
  | tag (pair : Nat) (old : Bool)
  | p (n : Nat) (written old : Mask)
  | g (n : Nat) (old : Part)
deriving DecidableEq, Repr

/-- A fixed-latency result in flight until cycle `due` (R35, R57). -/
structure Shadow where
  due : Nat
  old : OldValue
deriving DecidableEq, Repr

/-- A register the scoreboard marks (R58). -/
inductive RegName where
  | v (n : Nat)
  | s (n : Nat)
  | p (n : Nat)
  | g (n : Nat)
deriving DecidableEq, Repr

/-- The resource an issue waits for (R165, R177, R185, R240, R274). -/
inductive Room where
  | handleTable | windows | copyQueue | scarabQueue | matrixShare
deriving DecidableEq, Repr

/-- A lane of a side-log entry: its address, its bytes, and for a capability store the tag (R103). `rest` holds the address
and length of the further parts of a reduction's word that a STITCH list splits. -/
structure LogLane where
  strand : Nat
  va : Dword
  data : List Byte
  tag : Option Bool
  rest : List (Nat × Nat) := []
deriving DecidableEq, Repr

/-- One side-log entry (R103). `op` is the reduction operation, none for a store. `strands` are those it was made for: all
of the run for a uniform store. -/
structure LogEntry where
  asid : Asid
  page : Nat
  crewId : Nat
  gangId : Nat
  strands : Mask
  crewNumber : Nat
  exitRec : Dword
  lanes : List LogLane
  size : Nat
  op : Option (BitVec 4)
  rset : BitVec 16
  scope : Nat
  order : Nat
  pc : Pc
  priv : Bool
  core : Nat
  /-- Made by an ejected strand, which has no L1 (R317). -/
  eject : Bool
deriving DecidableEq, Repr

/-- One use of an entry of a crew's handle table. The id software sees holds the entry and the use's number modulo 4 (R177). -/
structure Handle where
  entry : Nat
  serial : Nat
deriving DecidableEq, Repr

/-- The 8-bit id of a handle (R177). -/
def Handle.id (h : Handle) : BitVec 8 := BitVec.ofNat 8 (h.entry + 64 * (h.serial % 4))

/-- Why a gang holds at an instruction (R100, R104, R105, R177, R263, R290, R291, R346, R352). -/
inductive HoldWhy where
  /-- An open fault record (R100). -/
  | fault (id : Nat)
  /-- Nothing any more: the driver has answered, and the instruction issues again (R100). -/
  | retry
  /-- A load from a page with logged stores (R104). -/
  | logPage (asid : Asid) (page : Nat)
  /-- A store or reduction whose further pages' entries wait for room in the side log (R103). -/
  | logRoom (rest : List LogEntry)
  /-- An access to a page with stores the gang logged on a core it has left (R278). -/
  | logMoved (asid : Asid) (page : Nat)
  /-- Logged stores of these strands (R105). -/
  | logged (strands : Mask)
  /-- A fence whose conditions are not met, and whether it has waited on a retraining port (R290, R291). -/
  | fence (x : Fun) (waited : Bool)
  /-- The wait half of BAR (R352). -/
  | barrier (b : Nat)
  /-- The wait half of BAR is over: the phase it waited for has come (R351, R352). -/
  | passed (b : Nat)
  /-- QPOP.B on a queue, since a cycle (R346). -/
  | qpop (x : Fun) (queue since : Nat)
  /-- QPUSH.B on a queue, since a cycle (R346). -/
  | qpush (x : Fun) (queue since : Nat)
  /-- WAITH on a handle (R181). -/
  | handle (h : Handle)
  /-- The WAITH is over: its operation left this status word (R181). -/
  | finished (status : Dword)
  /-- A full engine queue or table (R177, R185). -/
  | room (r : Room)
  /-- A release at system scope waits for a retraining Plovlan port (R291, R348). -/
  | port
  /-- Ejected members of a collective's subgroups (R263). -/
  | ejected (strands : Mask)
  /-- A list instruction behind SPLICEs of the gang on the same header (R401). -/
  | splices (va : Nat)
  /-- CTXLOAD waits for room in the logs of these entries' cores (R378). -/
  | ctxload (x : Fun) (rest : List LogEntry)
  /-- CTXSAVE of a context that a CTXLOAD has not wholly loaded (R379). -/
  | ctxLoading (asid : Asid)
  /-- A completion record whose page faulted: the push's result is held with it (R383). -/
  | completion (id : Nat) (x : Fun) (count : Nat) (timeout : Bool)
deriving DecidableEq, Repr

/-- A held instruction: the run and the PC it was issued with. -/
structure Hold where
  why : HoldWhy
  pc : Pc
  run : Mask
deriving DecidableEq, Repr

/-- The handler's PC and the gang's own copies of the banked registers s56-s63, p4-p6 (R361, R362). -/
structure Bank where
  pc : Pc
  s : Sparse Dword
  tags : BitVec 32
  p : Sparse Mask
  ids : Sparse (Option Handle)
  /-- The handler's branch whose target bit is still to be checked (R42). -/
  via : Option Pc := none
deriving DecidableEq, Repr

/-- Suspension by HALT.WAIT, in handler mode or outside it (R373). -/
inductive Suspended where
  | no | inHandler | outside
deriving DecidableEq, Repr

/-- An open ejection group (R315, R319). -/
structure Group where
  rejoin : Pc
  members : Mask
  /-- The cycle at which the wait expires, once its timer has started. -/
  expires : Option Nat
  expired : Bool
deriving DecidableEq, Repr

/-- An ejected strand, alone on a marionette slot, is a gang of its own with this link to its parent (R316, R317). -/
structure Ejection where
  parent : Nat
  strand : Nat
  slot : Nat
  /-- First and last live vector register. -/
  live : Option (Nat × Nat)
  rejoin : Pc
  /-- The handle-table entries pending at the BRX, with their registers: the hand-over carries their results (R316). -/
  awaits : List (Nat × Nat)
  /-- The cycle at which the last fixed-latency result in flight at the BRX is delivered, and the registers that then waited
  for a variable-latency result: the hand-over begins after them (R316). -/
  lands : Nat := 0
  marks : List RegName := []
  /-- The cause it raised, TRAPINFO and TRAPPC, once it is being handed back for one (R321). -/
  cause : Option (BitVec 8 × Dword × Pc)
deriving DecidableEq, Repr

/-- A gang (R7, R309): its registers, PC table and place. -/
structure Gang where
  /-- Unique number of the gang; 0 is vacant. -/
  id : Nat := 0
  /-- Its crew's number in `State.crews`. -/
  crewId : Nat := 0
  /-- Index in its crew (R45). -/
  idx : Nat := 0
  /-- Issue slot of its core, 0-3, whether in the active set, arrival order and last issue (R330-R332). -/
  slot : Nat := 0
  active : Bool := false
  arrival : Nat := 0
  lastIssue : Nat := 0
  /-- Vector registers keyed by strand * 128 + number (R44). -/
  v : Sparse Word := []
  /-- Scalar registers and the tag of each pair (R44, R92). -/
  s : Sparse Dword := []
  stags : BitVec 32 := 0
  /-- Predicates p0-p6, one bit a strand (R44). -/
  p : Sparse Mask := []
  /-- Partitions (R259). -/
  g : Sparse Part := []
  /-- The PC table by strand (R309). -/
  strands : Sparse Strand := []
  /-- Rounding states by strand, and the scalar pipe's (R75). -/
  rnd : Sparse Word := []
  urnd : Word := 0
  fpstat : BitVec 8 := 0
  smask : Dword := 0
  spass : Dword := 0
  /-- MYPH of each named barrier (R351). -/
  myph : BitVec 96 := 0
  /-- The trap record (R361, R367). -/
  trapCause : BitVec 9 := 0
  trapPc : Dword := 0
  trapInfo : Dword := 0
  trapRun : Mask := 0
  sldsel : BitVec 8 := 0
  /-- The address and PC of each entry of the discard last reported (R106, R367). -/
  discard : List (Dword × Pc) := []
  /-- A discard not yet reported: the entries (R106). -/
  discarded : List (Dword × Pc) := []
  priv : Bool := false
  handler : Option Bank := none
  suspended : Suspended := .no
  shadows : List Shadow := []
  /-- Registers that wait for a variable-latency result, and those of them whose wait swaps no gang: results of the arithmetic
  groups and of the queue unit (R58, R332). -/
  marks : List RegName := []
  quick : List RegName := []
  nextIssue : Nat := 0
  /-- The cycle at which the gang last began to hold an instruction or to wait at a JOIN (R332). -/
  since : Nat := 0
  /-- Slot i of a pair has issued at this cycle: slot i + 1 follows for the same run (R59). -/
  pair : Bool := false
  /-- The next instruction issues alone after RFT (R59). -/
  alone : Bool := false
  hold : Option Hold := none
  groups : List Group := []
  /-- Rejoin PCs whose target bit a BRX could not see yet, with the BRX (R42, R314). -/
  unchecked : List (Pc × Pc) := []
  /-- The cycle at which the QPUSH.B it holds was first issued (R346). -/
  pushSince : Option Nat := none
  ej : Option Ejection := none
  /-- The handle id each scalar register last received (R180). -/
  handleIds : Sparse (Option Handle) := []
  /-- LOCATE was taken at these PCs for these strands: the reissued loads are served by walks (R120). -/
  located : List (Pc × Mask) := []
  /-- The gang has left its issue slot (R322). -/
  left : Bool := false
deriving DecidableEq, Repr

/-! ### The crew -/

/-- A named barrier (R351). -/
structure Barrier where
  count : Nat := 0
  arrived : Nat := 0
  phase : Bool := false
deriving DecidableEq, Repr

/-- One entry of the handle table (R177, R178): its generation, whether pending, the register that receives the
status word, and the status word once done. -/
structure HandleEntry where
  /-- Times the entry was reused: the generation of the id is this modulo 4 (R177). -/
  serial : Nat := 0
  used : Bool := false
  pending : Bool := false
  gang : Nat := 0
  reg : Nat := 0
  /-- Issued in handler mode: s56-s63 name the handler's copies (R362). -/
  inHandler : Bool := false
  status : Dword := 0
deriving DecidableEq, Repr

/-- How a crew ended (R353). -/
inductive CrewEnd where
  | running | exited | killed (cause : Word) | retq
deriving DecidableEq, Repr

/-- A crew (R7, R327). -/
structure Crew where
  id : Nat := 0
  lid : Nat := 0
  cohort : Nat := 0
  idx : Nat := 0
  /-- Global crew number (R327). -/
  number : Nat := 0
  asid : Asid := 0
  stage : Nat := 0
  cls : Nat := 0
  effCls : Nat := 0
  core : Nat := 0
  gangs : Nat := 0
  strands : Nat := 0
  vregs : Nat := 128
  scratchSize : Nat := 0
  /-- First byte of its rows in the core's scratchpad (R157). -/
  scratchBase : Nat := 0
  accBase : Nat := 0
  ar : Nat := 0
  qshare : Nat := 0
  nbar : Nat := 0
  retq : Bool := false
  priv : Bool := false
  carryV : BitVec 128 := 0
  carryS : BitVec 64 := 0
  exitRec : Dword := 0
  crewRec : Dword := 0
  /-- Crew registers (R325, R354, R367, R128). -/
  crewctl : Bool := false
  ejectMax : BitVec 4 := 4
  rejoinWait : BitVec 32 := 4096
  ageMax : BitVec 7 := 64
  qwaitMax : BitVec 32 := 65536
  locates : Dword := 0
  demotes : Dword := 0
  fused : Dword := 0
  barriers : Sparse Barrier := []
  handles : Sparse HandleEntry := []
  /-- Free entries of the handle table in the order they were freed (R178). -/
  freeHandles : List Nat := []
  /-- Scratch bytes by offset in the allocation, and the tagged granules (R92, R158). -/
  scratch : Sparse Byte := []
  scratchTags : List Nat := []
  /-- How many MXFENCEs the crew has executed (R251). -/
  fences : Nat := 0
  /-- By aligned word of scratch, the values it had before writes that a matrix operation may not have seen: the count of
  fences at the write, and the value (R245). -/
  unfenced : Sparse (List (Nat × Word)) := []
  mxFlags : BitVec 8 := 0
  tokWait : Dword := 0
  ended : CrewEnd := .running
deriving DecidableEq, Repr

/-! ### Launches -/

/-- The fields of an accepted launch record (R327). -/
structure LaunchRec where
  entry : Dword
  exitRec : Dword
  carryV : BitVec 128
  carryS : BitVec 64
  clmask : BitVec 48
  asid : Asid
  cohorts : Nat
  scratch : Nat
  strands : Nat
  accBase : Nat
  ar : Nat
  gangs : Nat
  crews : Nat
  vregs : Nat
  qshare : Nat
  nbar : Nat
  cls : Nat
  stage : Nat
  retq : Bool
  priv : Bool
  crewRec : Dword
deriving DecidableEq, Repr

/-- A launch with a launch id: its record, the cohorts placed so far, the crews that have not retired and the exit
records not yet written or dropped (R329, R353, R385). -/
structure Launch where
  lid : Nat
  tag : BitVec 16
  seq : Nat
  r : LaunchRec
  /-- The launch's class with the boosts lent to it (R334, R336). -/
  effCls : Nat
  placed : Nat
  live : Nat
  exitsDue : Nat
deriving DecidableEq, Repr

/-- A pre-empted crew waiting to be resumed: what its crew record holds (R338). -/
structure SavedCrew where
  crew : Crew
  gangs : List Gang
deriving DecidableEq, Repr

/-! ### Memory system -/

/-- The rights a leaf entry gives a page (R98). -/
structure Rights where
  r : Bool := false
  w : Bool := false
  x : Bool := false
  priv : Bool := false
deriving DecidableEq, Repr

/-- A translation in the MTLB of memory link `link` (R95, R97, R99): the page's first VA bits 56-16, its size in 64 KiB
units, its physical address and rights. -/
structure Tlb where
  link : Nat := 0
  asid : Asid
  vpn : Nat
  units : Nat := 1
  pa : Nat
  rights : Rights
deriving DecidableEq, Repr

/-- A reverse-map record (R102). -/
structure RevRec where
  v : Bool := false
  w : Bool := false
  aliased : Bool := false
  asid : Asid := 0
  vpn : Nat := 0
deriving DecidableEq, Repr

/-- An ordinary line of an L1 (R109, R110): bytes held, bytes dirty, granule tags, the rights it was filled with. -/
structure L1Line where
  asid : Asid
  line : Nat
  pa : Nat
  data : BitVec 1024
  valid : BitVec 128
  dirty : BitVec 128
  tags : BitVec 8
  rights : Rights
  /-- Retention class: 0 stream, 1 normal, 2 keep (R52, R109). -/
  keep : Nat
deriving DecidableEq, Repr

/-- Where a parked line stands (R112): the level code and the unit of that level. -/
inductive ParkUnit where
  | l1 (core : Nat)
  | cluster (cluster : Nat)
  | dieL2 (die : Nat)
  | replicas (dies : BitVec 4)
  | home
deriving DecidableEq, Repr

/-- Whom a reader set names, with the table entries resolved (R112, R114, R140). The host as a reader leaves a clean copy at
the level of the other members. -/
inductive Readers where
  | none
  | core (core : Nat)
  | clusterCache (cluster : Nat) (cores : BitVec 4) (pool : Bool)
  | clusters (mask : BitVec 48)
  | dies (mask : BitVec 4)
  | device
  | host (copy : Option ParkUnit)
deriving DecidableEq, Repr

/-- The parked part of a directory entry (R115) with the permission bits and the retention priority of the copy (R8, R52). -/
structure Parked where
  place : ParkUnit
  set : BitVec 16
  readers : Readers
  reserved : Bool
  age : Nat
  /-- The cores that wrote the line while it stayed parked (R120). -/
  writers : List Nat
  rights : Rights
  keep : Nat
deriving DecidableEq, Repr

/-- An ordinary copy of a line in a cluster cache or an L2 slice (R8, R99, R109): the permission bits it was filled with, its
retention class and its last use. -/
structure Copy where
  rights : Rights := {}
  keep : Nat := 1
  used : Nat := 0
deriving DecidableEq, Repr

/-- What the home directory records of a line (R111, R115, R117): its ordinary copies by cache (1000 + a global cluster, 2000
+ a die), the physical line they come from and the bytes memory does not hold yet; the owner with its write mask, the
privatised copies, the parked copy, and the set of a reservation whose copy is gone (R123). -/
structure DirEntry where
  copies : Sparse Copy := []
  pa : Nat := 0
  dirty : BitVec 128 := 0
  owner : Option (Nat × BitVec 128) := none
  privatised : Sparse (BitVec 128) := []
  parked : Option Parked := none
  reservation : Option (BitVec 16) := none
deriving DecidableEq, Repr

/-- An instruction-buffer line (R40). -/
structure FetchLine where
  asid : Asid
  line : Nat
  data : BitVec 512
deriving DecidableEq, Repr

/-- The format of elements (R88) with block scaling. -/
structure Fmt where
  code : Nat := 0
  bs : Bool := false
deriving DecidableEq, Repr

/-- A weight plane (R234, R235, R241): codes keyed by column * 256 + k, scale bytes keyed by column * 8 + block, column
scales (unlisted is 1.0). -/
structure Plane where
  full : Bool := false
  loading : Bool := false
  owner : Nat := 0
  fmt : Fmt := {}
  kw : Nat := 0
  codes : Sparse Word := []
  scales : Sparse Byte := []
  colScales : Sparse Word := []
  /-- The Hadamard setting of its load: HAD, HN and HEXP (R234, R246). -/
  had : Bool := false
  hn : Nat := 0
  hexp : Int := 0
deriving DecidableEq, Repr

/-- The mode tag of an accumulator row (R234). -/
inductive AccMode where
  | none | f | i
deriving DecidableEq, Repr

/-- A core's own state (R109, R40, R103, R234, R270). -/
structure Core where
  l1 : List L1Line := []
  ibuf : List FetchLine := []
  log : List LogEntry := []
  softerr : Dword := 0
  active : Plane := {}
  shadow : Plane := {}
  /-- Accumulator words keyed by row * 128 + column; row modes. -/
  acc : Sparse Word := []
  accMode : Sparse AccMode := []
  /-- The gang that holds the priority token of each issue slot (R270). -/
  prio : Sparse Nat := []
deriving DecidableEq, Repr

/-- A resident context (R365, R376). -/
structure Context where
  asid : Asid := 0
  ptroot : Dword := 0
  privhw : Dword := 0
  caproots : Dword := 0
  parkctl : Dword := 0
  parkquota : Dword := 0x0000020004000200
  trapvec : Dword := 0
  /-- The latched reader-set table (R114). -/
  table : Sparse Dword := []
deriving DecidableEq, Repr

/-- Which access a fault record covers, to be told the driver's answer (R100, R384). -/
inductive Waiter where
  /-- A held instruction, with the cause and TRAPINFO its own refusal raises. -/
  | gang (id : Nat) (cause : BitVec 8) (info : Dword)
  | log (core : Nat)
  | op (id : Nat) (cause : BitVec 8)
  | exitRecord (lid crew : Nat) (va : Dword) (data : List Byte) (asid : Asid)
  /-- Discarded entries still to be counted in the exit record of a crew that has retired (R106, R353). -/
  | discards (crew : Nat) (va : Dword) (n : Nat) (asid : Asid)
  | completion (gang : Nat) (va : Dword) (data : List Byte) (asid : Asid) (ports : BitVec 2) (spec : BitVec 16)
  /-- The NIC at the next work entry of a pair, or at an inbound request (R389). -/
  | nic (qp : Nat) (req : Option RoceRequest)
  /-- The context load requested first (R387). -/
  | ctxdb
  /-- A walk ahead of any access. -/
  | device
deriving DecidableEq, Repr

/-- An open fault record (R384). -/
structure OpenFault where
  id : Nat
  asid : Asid
  page : Nat
  va : Dword
  cause : BitVec 8
  info : Dword
  waiters : List Waiter
deriving DecidableEq, Repr

/-- A Plovlan port (R291). -/
inductive LinkState where
  | up | retraining (since : Nat) | down
deriving DecidableEq, Repr

/-- A write the package holds towards a peer port until it is acknowledged (R291). -/
structure HeldWrite where
  port : Nat
  asid : Asid
  pa : Nat
  data : List Byte
deriving DecidableEq, Repr

/-- A line of a sealed frame of a Plovlan peer that this device has filled, with the version it was tagged with (R388). -/
structure PeerLine where
  /-- Byte key of the line in peer memory / 128. -/
  key : Nat
  version : Nat
  data : BitVec 1024
deriving DecidableEq, Repr

/-- The memory system: memory, tags, translation, directory, cores, contexts, faults, links. -/
structure Sys where
  mem : List Host.Cell := []
  /-- Tagged 16-byte granules of memory by physical address / 16 (R92). -/
  tags : List Nat := []
  /-- Lines of the modules, by link and module offset, that an uncorrectable error has struck (R96, R107). -/
  bad : List Nat := []
  /-- Memory of Plovlan peers by peer * 2^57 + address (R388). -/
  peerMem : Sparse Byte := []
  /-- The peers' seal versions by frame of peer memory, those this device fetched last, and the lines filled (R308, R388). -/
  peerSeals : Sparse Nat := []
  peerSeen : Sparse Nat := []
  peerLines : List PeerLine := []
  /-- Frames of peer memory whose peer refuses this device, and what the ports' tables deny the peers: port * 2^32 + frame
  (R388, log 58). -/
  peerRefused : List Nat := []
  portDenied : List Nat := []
  /-- The translations of the 96 MTLBs, the oldest first (R13, R99). -/
  mtlb : List Tlb := []
  rev : Sparse RevRec := []
  seals : Sparse Nat := []
  dir : Sparse DirEntry := []
  cores : Sparse Core := []
  ctxs : Sparse Context := []
  faults : List OpenFault := []
  links : Sparse LinkState := []
  held : List HeldWrite := []
  /-- Writes discarded at a down port since the last report, by context * 32 + port (R291). -/
  dropped : Sparse Nat := []
  /-- Order of park events and of the uses of cached lines (R109, R122). -/
  parkSeq : Nat := 0
deriving DecidableEq, Repr

/-! ### Engines -/

/-- What an engine operation does, as its issue checked and copied it (R190, R195, R205, R246-R255, R272). -/
inductive OpKind where
  | copy (dst src : Quad) (rnd : Nat) (sat : Bool) (rset : BitVec 16)
  | gather (dst src : Quad) (rows : List (Nat × Nat)) (nosw : Bool)
  | scatter (dst src : Quad) (rows : List (Nat × Nat)) (nosw : Bool) (rset : BitVec 16)
  | topk (dst src : Quad) (k beta form : Nat) (rset : BitVec 16)
  | loadw (cw : Quad) (cs : Option Quad) (had : Bool) (hn : Nat) (hexp : Int)
  | swap
  | mxrun (stream : Quad) (rows row0 k accRow : Nat) (acc had swz : Bool) (hn : Nat) (hexp : Int)
  | drain (dst : Quad) (dt : Ty) (clr : Bool) (rnd : Nat) (sat : Bool) (rowBase count : Nat) (scale : Word)
      (cs : Option Quad) (rset : BitVec 16)
  | drainR (dst : Nat) (dt : Ty) (clr : Bool) (rnd : Nat) (sat : Bool) (row : Nat) (scale : Word) (cs : Option Quad)
  | zero (rowBase count : Nat)
  | splice (fn : Nat) (cl : Quad) (sb sc : Dword) (cp : Option Quad) (expect : Option Word)
deriving DecidableEq, Repr

/-- How far an engine operation has come: queued, in work, streaming a run, on the firmware path, or waiting for the
driver's answer to a fault (R185, R188, R240). -/
inductive Phase where
  | queued | started | written | firmware | faulted
deriving DecidableEq, Repr

/-- An engine operation from issue to completion (R177, R185, R240). -/
structure EngineOp where
  id : Nat
  kind : OpKind
  crewId : Nat
  gangId : Nat
  gangIdx : Nat
  asid : Asid
  priv : Bool
  core : Nat
  /-- Its class: its crew's own, or what a crew that waits for it in WAITH lends (R334-R336). -/
  cls : Nat := 0
  /-- The handle-table entry it reports to. -/
  handle : Option Nat
  phase : Phase := .queued
  cancel : Bool := false
  /-- The destination window in scratch, first and last byte (R165). -/
  window : Option (Nat × Nat) := none
  /-- The versions it holds at the stitch unit: header address and version (R201). -/
  holds : List (Dword × Nat) := []
  /-- Those of them whose list could not be read at issue: whether they are reachable is still to be seen (R192, R201). -/
  unproven : List (Dword × Nat) := []
  /-- The fences its crew had executed at its issue (R245). -/
  fence : Nat := 0
  /-- The accumulator rows a drain read at dispatch, while a fault keeps them from being written (R240, R254). -/
  rows : Option (List (AccMode × List Word)) := none
  /-- Those of the core's accumulator rows that a drain with CLR has cleared and no later entry has written: they come back if the
  drain does not succeed (R183). -/
  kept : List Nat := []
  barrier : Option Nat := none
  arrived : Bool := false
  /-- The cycle since which a run waits for a power token (R243). -/
  since : Nat := 0
  /-- The status it will report: CODE, FLAGS, RESULT (R178). -/
  code : BitVec 16 := 0
  flags : BitVec 8 := 0
  result : Word := 0
deriving DecidableEq, Repr

/-- A power token of a die's ring (R243): the cluster of the die where it is, whether it is held there and since
when, and whether it is travelling. -/
structure Token where
  die : Nat
  place : Nat
  held : Bool
  since : Nat
deriving DecidableEq, Repr

/-! ### Queues, host, network -/

/-- A bound hardware queue (R341). -/
structure Queue where
  bound : Bool := false
  ring : Dword := 0
  logcap : Nat := 0
  flags : BitVec 8 := 0
  asid : Asid := 0
  prodlid : Nat := 0
  conslid : Nat := 0
  head : Word := 0
  tail : Word := 0
  crec : Dword := 0
deriving DecidableEq, Repr

/-- A 64-byte driver record waiting for its ring (R384). -/
abbrev Record := BitVec 512

/-- The host side of the device (R380-R393). -/
structure HostSide where
  owner : BitVec 2 := 0
  gen : BitVec 16 := 0
  faultq : Dword := 0
  eventq : Dword := 0
  faultHead : Word := 0
  faultTail : Word := 0
  eventHead : Word := 0
  eventTail : Word := 0
  waitingFaults : List Record := []
  waitingEvents : List Record := []
  /-- Records of a gang's trap that wait until the side-log entries of that gang are performed (R105, R304). -/
  deferred : List (Nat × Record) := []
  powercfg : BitVec 16 := 0x9999
  peermap : Sparse Dword := []
  linkA : Bool := true
  linkB : Bool := true
  /-- MSI-X vectors raised and not yet cleared: port, vector (R380, R383). -/
  msix : List (Port × Nat) := []
  /-- Context loads requested and not yet applied: record addresses (R387). -/
  ctxdb : List Nat := []
  /-- Of the first one, once its registers are installed: the side-log entries still to be returned (R378, R387). -/
  ctxdbRest : Option (List LogEntry) := none
  /-- What LAUNCHDB, GANGCTL, FAULTRESP and CTXDB hold: the spec gives no reset value (R2, R381, log 3). -/
  launchdb : Dword := 0
  gangctl : Dword := 0
  faultresp : Dword := 0
  ctxdbReg : Dword := 0
  /-- What the owner of HSEM wrote last to the firmware-update mailbox (R381, log 12). -/
  fwMailbox : Dword := 0
  meas : Sparse (BitVec 512) := []
  bootHalted : Bool := false
  /-- What the last host or peer read returned, and the last attestation report (R305, R391). -/
  lastRead : List Byte := []
  report : List Byte := []
  /-- Launches accepted so far: their order (R329). -/
  nextSeq : Nat := 0
deriving DecidableEq, Repr

/-- A RoCE queue pair (R389; its registers beyond the ASID and the tail are PRESUMED, log 13). -/
structure QueuePair where
  asid : Asid := 0
  ring : Dword := 0
  log : Nat := 0
  /-- Send-ring tail last stored, and the next entry the NIC takes. -/
  tail : Word := 0
  next : Word := 0
  /-- The hardware queue its completions go to, cluster * 16 + q. -/
  cq : Nat := 0
  /-- The driver has refused a fault of the next work entry: it completes without effect (R188). -/
  refused : Bool := false
deriving DecidableEq, Repr

/-- Which agent moves next, when the model is told (log 4). -/
inductive Turn where
  | issue (gang : Nat)
  | event (e : Instr)
  /-- A host's read of `n` bytes of BAR0 (R381, R382). -/
  | barRead (offset n : Nat)
deriving DecidableEq, Repr

/-! ### The machine -/

/-- The state of the device. -/
structure State where
  /-- The issued run and the PC of the instruction being executed: the model's own. -/
  run : Mask
  ipc : Pc
  gang : Gang
  crew : Crew
  gangs : Sparse Gang
  crews : Sparse Crew
  saved : List SavedCrew
  launches : List Launch
  nextCrew : Nat
  ops : List EngineOp
  nextOp : Nat
  tokens : List Token
  sys : Sys
  queues : Sparse Queue
  host : HostSide
  nic : Sparse QueuePair
  /-- Arithmetic-clock cycles since the last reset (R45, %clock). -/
  clock : Nat
  /-- Issues so far: every 32nd lets an engine move first (log 4). -/
  issues : Nat
  /-- Names the next free value (log 10): the model's own. -/
  freeCtr : Nat
  /-- The gang that issues next as the other half of a fused issue, 0 of none (R333). -/
  fuse : Nat
  /-- The order of agents and of the outside world's acts, when given (log 4): the model's own. -/
  turns : List Turn
deriving DecidableEq, Repr

/-- Why the machine stops with a fault. -/
inductive Fault where
  /-- A host or peer access names an address that is not device memory (R96, R380): HOST_MEM_WRITE, HOST_MEM_READ,
  PEER_MEM_WRITE, PEER_MEM_READ raise it. Safe: nothing of the device changes. -/
  | noSuchAddress (pa : Nat)
deriving DecidableEq, Repr

/-- Why a step has no meaning. -/
inductive Refusal where
  /-- An arm of `exec` that has no meaning yet raises it. Safe. -/
  | notModelled (mnemonic : String)
deriving DecidableEq, Repr

/-- The power tokens at reset: 9 in each die, token t at cluster t (R243, R381). -/
def tokensAtReset : List Token :=
  (List.range 4).flatMap fun d => (List.range 9).map fun t => { die := d, place := t, held := false, since := 0 }

/-- The device after reset: no context, no crew, empty caches and engines (R241, R243, R367, R376, R381, R385). The
values the spec does not give are those of log 1, 2, 3, 4, 10, 12. -/
def State.reset : State :=
  { run := 0, ipc := 0, gang := {}, crew := {}, gangs := [], crews := [], saved := [], launches := [], nextCrew := 1,
    ops := [], nextOp := 0, tokens := tokensAtReset, sys := {}, queues := [], host := {}, nic := [], clock := 0,
    issues := 0, freeCtr := 0, fuse := 0, turns := [] }

end Sys2Proof.Machine
end

