-- ==== Sys2Proof/Machine/Table.lean ====
section
/-! DEFINITION. Reading and writing a sparse table, and the little-endian, bit-field and mask helpers of the whole
model (R1). A write keeps the canonical form: it removes every entry of its key first, so that the read laws hold of
every list. -/

namespace Sys2Proof

/-- The value at a key, `d` where none is listed. -/
def Sparse.get {α : Type} (d : α) : Sparse α → Nat → α
  | [], _ => d
  | (a, v) :: t, k => if a = k then v else Sparse.get d t k

/-- A table without a key. -/
def Sparse.drop {α : Type} : Sparse α → Nat → Sparse α
  | [], _ => []
  | (a, v) :: t, k => if a = k then Sparse.drop t k else (a, v) :: Sparse.drop t k

/-- An entry put before the first greater key. -/
def Sparse.insert {α : Type} : Sparse α → Nat → α → Sparse α
  | [], k, v => [(k, v)]
  | (a, w) :: t, k, v => if k < a then (k, v) :: (a, w) :: t else (a, w) :: Sparse.insert t k v

/-- Writes a key; the value unlisted keys read as leaves no entry. -/
def Sparse.put {α : Type} [DecidableEq α] (d : α) (m : Sparse α) (k : Nat) (v : α) : Sparse α :=
  if v = d then Sparse.drop m k else Sparse.insert (Sparse.drop m k) k v

/-- Applies a function at a key. -/
def Sparse.upd {α : Type} [DecidableEq α] (d : α) (m : Sparse α) (k : Nat) (f : α → α) : Sparse α :=
  Sparse.put d m k (f (Sparse.get d m k))

/-- A sorted list of numbers without repeats: membership written on or off. -/
def setMember (l : List Nat) (k : Nat) (on : Bool) : List Nat :=
  let m := (Sparse.put false (l.map fun a => (a, true)) k on)
  m.map Prod.fst

/-! ### Bits and bytes -/

/-- Bits `lo` up of a number, `n` of them. -/
def bitsAt (x lo n : Nat) : Nat := x / 2 ^ lo % 2 ^ n

/-- The number a list of bytes holds, lowest address first (R1). -/
def fromBytes : List Byte → Nat
  | [] => 0
  | b :: t => b.toNat + 256 * fromBytes t

/-- The `n` bytes of a number, lowest address first (R1). -/
def toBytes : Nat → Nat → List Byte
  | 0, _ => []
  | n + 1, x => BitVec.ofNat 8 x :: toBytes n (x / 256)

/-- A two's-complement reading of the low `w` bits. -/
def signed (w x : Nat) : Int :=
  let x := x % 2 ^ w
  if 2 * x ≥ 2 ^ w then (x : Int) - (2 ^ w : Nat) else x

/-- Sign extension of the low `w` bits to `w'` bits as a pattern. -/
def sextNat (w w' x : Nat) : Nat := wrapMod w' (signed w x)
where
  /-- An integer modulo 2^w. -/
  wrapMod (w : Nat) (n : Int) : Nat := (n % (2 ^ w : Nat)).toNat

/-- An integer modulo 2^64. -/
def dwordOfInt (n : Int) : Dword := BitVec.ofInt 64 n

/-- A mask with the bits of a list. -/
def maskOf : List Nat → Mask
  | [] => 0
  | i :: t => (1 <<< i) ||| maskOf t

/-- The numbers of a mask's 1 bits, ascending. -/
def Mask.list (m : Mask) : List Nat := (List.range 32).filter fun i => m.getLsbD i

/-- The number of 1 bits of a number below 2^n. -/
def popCount : Nat → Nat → Nat
  | 0, _ => 0
  | n + 1, x => x % 2 + popCount n (x / 2)

/-- How many strands a mask holds. -/
def Mask.count (m : Mask) : Nat := popCount 32 m.toNat

/-- The least number of a list. -/
def minList : List Nat → Option Nat
  | [] => none
  | a :: t => match minList t with
    | none => some a
    | some b => some (min a b)

/-- The greatest number of a list, 0 of none. -/
def maxList (l : List Nat) : Nat := l.foldl max 0

/-- Exclusive OR of the consecutive w-bit chunks of x (R95): `n` chunks. -/
def foldXor (w : Nat) : Nat → Nat → Nat
  | 0, _ => 0
  | n + 1, x => x % 2 ^ w ^^^ foldXor w n (x / 2 ^ w)

end Sys2Proof
end

