-- ==== Sys2Proof/Machine/Regs.lean ====
section
/-! DEFINITION. The registers of the gang in focus: reads with the early values of R57, writes with their latency (R35),
the scoreboard marks (R58), the specials (R45), the guard (R47), the PC table and the sequential flow (R41, R309). -/

namespace Sys2Proof.Machine

abbrev Out := Host.Outcome State Fault Refusal

/-! ### Reads -/

/-- A vector register as seen at cycle `t`: shadows from the newest back, a delivered one ends the search (R57). -/
def earlyV (n strand t : Nat) : List Shadow → Word → Word
  | [], cur => cur
  | x :: r, cur =>
      match x.old with
      | .v n' written old =>
          if n' = n && written.getLsbD strand then
            if x.due ≤ t then cur else earlyV n strand t r (old.get 0 strand)
          else earlyV n strand t r cur
      | _ => earlyV n strand t r cur

/-- A scalar register as seen at cycle `t` (R57). -/
def earlyS (n t : Nat) : List Shadow → Dword → Dword
  | [], cur => cur
  | x :: r, cur =>
      match x.old with
      | .s n' old => if n' = n then (if x.due ≤ t then cur else earlyS n t r old) else earlyS n t r cur
      | _ => earlyS n t r cur

/-- The tag of a pair as seen at cycle `t` (R57). -/
def earlyTag (k t : Nat) : List Shadow → Bool → Bool
  | [], cur => cur
  | x :: r, cur =>
      match x.old with
      | .tag k' old => if k' = k then (if x.due ≤ t then cur else earlyTag k t r old) else earlyTag k t r cur
      | _ => earlyTag k t r cur

/-- One strand's bit of a predicate as seen at cycle `t` (R57). -/
def earlyP (n strand t : Nat) : List Shadow → Bool → Bool
  | [], cur => cur
  | x :: r, cur =>
      match x.old with
      | .p n' written old =>
          if n' = n && written.getLsbD strand then
            if x.due ≤ t then cur else earlyP n strand t r (old.getLsbD strand)
          else earlyP n strand t r cur
      | _ => earlyP n strand t r cur

/-- A partition as seen at cycle `t` (R57). -/
def earlyG (n t : Nat) : List Shadow → Part → Part
  | [], cur => cur
  | x :: r, cur =>
      match x.old with
      | .g n' old => if n' = n then (if x.due ≤ t then cur else earlyG n t r old) else earlyG n t r cur
      | _ => earlyG n t r cur

/-- v `n` of a strand (R44). -/
def State.readV (s : State) (strand n : Nat) : Word :=
  earlyV n strand s.clock s.gang.shadows (s.gang.v.get 0 (strand * 128 + n))

/-- s `n` (R44). -/
def State.readS (s : State) (n : Nat) : Dword :=
  earlyS n s.clock s.gang.shadows (s.gang.s.get 0 n)

/-- The tag of the pair that starts at an even s register (R92). -/
def State.readTag (s : State) (n : Nat) : Bool :=
  earlyTag (n / 2) s.clock s.gang.shadows (s.gang.stags.getLsbD (n / 2))

/-- The 128 bits of a pair (R87). -/
def State.readPair (s : State) (n : Nat) : Quad := s.readS (n + 1) ++ s.readS n

/-- One strand's bit of p `n`; p7 reads as 1 (R44). -/
def State.readPBit (s : State) (n strand : Nat) : Bool :=
  n = 7 || earlyP n strand s.clock s.gang.shadows ((s.gang.p.get 0 n).getLsbD strand)

/-- A predicate of every strand. -/
def State.readP (s : State) (n : Nat) : Mask :=
  if s.gang.shadows.isEmpty then (if n = 7 then BitVec.allOnes 32 else s.gang.p.get 0 n)
  else maskOf ((List.range 32).filter fun i => s.readPBit n i)

/-- The partition in g `n` (R259). -/
def State.readG (s : State) (n : Nat) : Part :=
  earlyG n s.clock s.gang.shadows (s.gang.g.get {} n)

/-- The strands for which a vector instruction takes effect (R47). -/
def State.guard (s : State) (h : Hdr) : Mask :=
  let p := s.readP h.gp.toNat
  s.run &&& (if h.gn then ~~~p else p)

/-- Those strands, ascending. -/
def State.active (s : State) (h : Hdr) : List Nat := Mask.list (s.guard h)

/-- The strand's index in its crew (R45). -/
def State.strandIndex (s : State) (i : Nat) : Nat := 32 * s.gang.idx + i

/-- The value of a special (R45). -/
def State.special (s : State) (strand : Nat) : Special → Nat
  | .strand => s.strandIndex strand
  | .gang => s.gang.idx
  | .crew => s.crew.idx
  | .cohort => s.crew.cohort
  | .stage => s.crew.stage
  | .core => s.crew.core % 4
  | .cluster => s.crew.core / 4 % 12
  | .die => s.crew.core / 48
  | .lanes => s.run.toNat
  | .clock => s.clock % 2 ^ 64

/-- A source operand as a pattern of `w` bits; `sx` sign-extends an immediate to 64 bits (R26, R44, R214). An untyped operation
of 64 bits zero-extends it, which R26 leaves open (DESIGN CHOICE, log 59). -/
def State.src (s : State) (w : Nat) (sx : Bool) (sel : Sel) (imm : Word) (strand : Nat) : Nat :=
  match sel with
  | .v n =>
      if w = 64 then (s.readV strand n.toNat).toNat + 2 ^ 32 * (s.readV strand (n.toNat + 1)).toNat
      else (s.readV strand n.toNat).toNat % 2 ^ w
  | .s n => (s.readS n.toNat).toNat % 2 ^ w
  | .p n => if s.readPBit n.toNat strand then 1 else 0
  | .sp k => s.special strand k % 2 ^ w
  | .imm => if w = 64 && sx then sextNat 32 64 imm.toNat else imm.toNat % 2 ^ w
  | .g _ | .none => 0

/-- A scalar operand, 0 for 0xFF (R44). -/
def State.scalar (s : State) (sel : Sel) : Dword :=
  match sel with
  | .s n => s.readS n.toNat
  | _ => 0

/-! ### Writes -/

/-- A write's old value shadows the register until the result is delivered; an ejected strand has none in flight
(R57, R59). -/
def State.shadow (s : State) (lat : Nat) (old : OldValue) : State :=
  if s.gang.ej.isSome || (lat = 0 && s.gang.shadows.isEmpty) then s
  else { s with gang := { s.gang with shadows := { due := s.clock + lat, old := old } :: s.gang.shadows } }

/-- Shadows that no early read can meet again: the oldest ones, once delivered. -/
def pruneShadows (t : Nat) : List Shadow → List Shadow
  | [] => []
  | x :: r =>
      let r' := pruneShadows t r
      if r'.isEmpty && x.due ≤ t then [] else x :: r'

/-- Writes v `n` of some strands. -/
def State.writeV (s : State) (lat n : Nat) (vals : List (Nat × Word)) : State :=
  let old := vals.foldl (fun m e => Sparse.put 0 m e.1 (s.gang.v.get 0 (e.1 * 128 + n))) []
  let s := s.shadow lat (.v n (maskOf (vals.map Prod.fst)) old)
  { s with gang := { s.gang with v := vals.foldl (fun m e => Sparse.put 0 m (e.1 * 128 + n) e.2) s.gang.v } }

/-- The pair's tag (R92). -/
def State.writeTag (s : State) (lat k : Nat) (on : Bool) : State :=
  let s := s.shadow lat (.tag k (s.gang.stags.getLsbD k))
  let bit : BitVec 32 := 1 <<< k
  { s with gang := { s.gang with stags := if on then s.gang.stags ||| bit else s.gang.stags &&& ~~~bit } }

/-- The bits of s `n`. -/
def State.writeSBits (s : State) (lat n : Nat) (x : Dword) : State :=
  let s := s.shadow lat (.s n (s.gang.s.get 0 n))
  { s with gang := { s.gang with s := Sparse.put 0 s.gang.s n x,
                                 handleIds := Sparse.put none s.gang.handleIds n none } }

/-- Writes s `n`: the tag of its pair is cleared (R92). -/
def State.writeS (s : State) (lat n : Nat) (x : Dword) : State := (s.writeSBits lat n x).writeTag lat (n / 2) false

/-- Writes a pair with its tag (R92, R148). -/
def State.writePair (s : State) (lat n : Nat) (x : Quad) (tag : Bool) : State :=
  ((s.writeSBits lat n (x.extractLsb' 0 64)).writeSBits lat (n + 1) (x.extractLsb' 64 64)).writeTag lat (n / 2) tag

/-- Writes the bits of p `n` under a mask; p7 is never a destination (R44). -/
def State.writeP (s : State) (lat n : Nat) (written bits : Mask) : State :=
  let old := s.gang.p.get 0 n
  let s := s.shadow lat (.p n written old)
  { s with gang := { s.gang with p := Sparse.put 0 s.gang.p n ((old &&& ~~~written) ||| (bits &&& written)) } }

/-- Writes g `n`. -/
def State.writeG (s : State) (lat n : Nat) (x : Part) : State :=
  let s := s.shadow lat (.g n (s.gang.g.get {} n))
  { s with gang := { s.gang with g := Sparse.put {} s.gang.g n x } }

/-- Marks a register on the scoreboard until its variable-latency result lands (R58). -/
def State.mark (s : State) (r : RegName) : State :=
  if s.gang.ej.isSome || s.gang.marks.contains r then s
  else { s with gang := { s.gang with marks := r :: s.gang.marks } }

/-- Marks a register whose wait swaps no gang (R332). -/
def State.markQuick (s : State) (r : RegName) : State :=
  if s.gang.ej.isSome then s
  else { s with gang := { s.gang with marks := r :: s.gang.marks, quick := r :: s.gang.quick } }

/-- A result of width `w` extended to its register: sign extension for signed types, zeros otherwise (R70, R214). -/
def extend (w full : Nat) (sx : Bool) (x : Nat) : Nat :=
  if sx && w < full then sextNat w full x else x % 2 ^ w

/-- Delivers a result: `vals` by strand, or one value for a scalar destination. `lat` none is variable latency; a scalar
destination takes 2 cycles (R35, R58, R214). -/
def State.result (s : State) (d : Sel) (w : Nat) (sx : Bool) (lat : Option Nat) (vals : List (Nat × Nat)) : State :=
  match d with
  | .v n =>
      let l := lat.getD 0
      if w = 64 then
        let s := s.writeV l n.toNat (vals.map fun e => (e.1, BitVec.ofNat 32 e.2))
        let s := s.writeV l (n.toNat + 1) (vals.map fun e => (e.1, BitVec.ofNat 32 (e.2 / 2 ^ 32)))
        if lat = none then (s.markQuick (.v n.toNat)).markQuick (.v (n.toNat + 1)) else s
      else
        let s := s.writeV l n.toNat (vals.map fun e => (e.1, BitVec.ofNat 32 (extend w 32 sx e.2)))
        if lat = none then s.markQuick (.v n.toNat) else s
  | .s n =>
      match vals with
      | [] => s
      | e :: _ =>
          let s := s.writeS (if lat = none then 0 else 2) n.toNat (BitVec.ofNat 64 (extend w 64 sx e.2))
          if lat = none then s.markQuick (.s n.toNat) else s
  | .p n =>
      s.writeP (lat.getD 0) n.toNat (maskOf (vals.map Prod.fst))
        (maskOf ((vals.filter fun e => e.2 ≠ 0).map Prod.fst))
  | _ => s

/-! ### The PC table and sequential flow -/

/-- The line address of a PC (R41). -/
def pcLine (pc : Pc) : Nat := pc.toNat / 64 * 64

/-- The slot of a PC (R41). -/
def pcSlot (pc : Pc) : Nat := pc.toNat % 8

/-- The next sequential PC (R41). -/
def nextPc (pc : Pc) : Pc :=
  if pcSlot pc = 4 then BitVec.ofNat 64 (pcLine pc + 64) else pc + 1

/-- The last line has no next line (R41). -/
def nextPcOk (pc : Pc) : Bool := !(pcSlot pc = 4 && pcLine pc = 0x01FFFFFFFFFFFFC0)

/-- An entry of the PC table. -/
def Gang.strand (g : Gang) (i : Nat) : Strand := g.strands.get {} i

/-- Applies a function to the PC-table entries of a mask. -/
def Gang.mapStrands (g : Gang) (m : Mask) (f : Strand → Strand) : Gang :=
  { g with strands := (Mask.list m).foldl (fun t i => Sparse.upd {} t i f) g.strands }

/-- The strands in a state. -/
def Gang.inState (g : Gang) (p : StrandState → Bool) : Mask :=
  maskOf ((List.range 32).filter fun i => p (g.strand i).st)

/-- The live strands: not DONE (R309). -/
def Gang.live (g : Gang) : Mask := g.inState fun x => x ≠ .done

/-- Handler mode (R361). -/
def State.inHandler (s : State) : Bool := s.gang.handler.isSome

/-- Where the target bit of the branch to the PC of some strands is still to be checked (R42): the handler's branch in
handler mode. -/
def Gang.setVia (g : Gang) (m : Mask) (v : Option Pc) : Gang :=
  match g.handler with
  | some b => { g with handler := some { b with via := v } }
  | none => g.mapStrands m fun x => { x with via := v }

/-- The run goes to a PC: the handler PC in handler mode, else the PC of each strand of the mask (R41, R362). The
instruction waits no longer. -/
def State.goTo (s : State) (m : Mask) (pc : Pc) : State :=
  match s.gang.handler with
  | some b => { s with gang := { s.gang with handler := some { b with pc := pc, via := none }, hold := none } }
  | none => { s with gang := { s.gang.mapStrands m (fun x => { x with pc := pc, via := none }) with hold := none } }

/-- Sequential flow of the issued run (R41). -/
def State.advance (s : State) : State := s.goTo s.run (nextPc s.ipc)

/-- The gang waits at the instruction it issued (R100, R177, R263). -/
def State.wait (s : State) (why : HoldWhy) : State :=
  { s with gang := { s.gang with hold := some { why := why, pc := s.ipc, run := s.run }, pair := false, since := s.clock } }

/-- Strands leave the marks of LOCATE at some PCs (R120). -/
def dropLocated (at' : Pc → Bool) (m : Mask) (l : List (Pc × Mask)) : List (Pc × Mask) :=
  (l.map fun x => (x.1, if at' x.1 then x.2 &&& ~~~m else x.2)).filter fun x => x.2 ≠ 0

/-! ### Gangs and crews -/

/-- A resident gang by number; number 0 of none. -/
def State.findGang (s : State) (id : Nat) : Gang := if s.gang.id = id then s.gang else s.gangs.get {} id

/-- A resident crew by number. -/
def State.findCrew (s : State) (id : Nat) : Crew := if s.crew.id = id then s.crew else s.crews.get {} id

/-- Applies a function to a resident gang. -/
def State.updGang (s : State) (id : Nat) (f : Gang → Gang) : State :=
  if s.gang.id = id then { s with gang := f s.gang }
  else if (s.gangs.get {} id).id = 0 then s
  else { s with gangs := Sparse.upd {} s.gangs id f }

/-- Applies a function to a resident crew. -/
def State.updCrew (s : State) (id : Nat) (f : Crew → Crew) : State :=
  if s.crew.id = id then { s with crew := f s.crew }
  else if (s.crews.get {} id).id = 0 then s
  else { s with crews := Sparse.upd {} s.crews id f }

/-- Brings a crew into focus. -/
def State.focusCrew (s : State) (id : Nat) : State :=
  if s.crew.id = id then s
  else
    { s with crew := s.crews.get {} id,
             crews := Sparse.put {} (Sparse.drop s.crews id) s.crew.id (if s.crew.id = 0 then {} else s.crew) }

/-- Brings a gang and its crew into focus; nothing of the device changes. -/
def State.focus (s : State) (id : Nat) : State :=
  if s.gang.id = id then s.focusCrew s.gang.crewId
  else
    let g := s.gangs.get {} id
    if g.id = 0 then s
    else
      ({ s with gang := g,
                gangs := Sparse.put {} (Sparse.drop s.gangs id) s.gang.id (if s.gang.id = 0 then {} else s.gang) }
        : State).focusCrew g.crewId

/-- Every resident gang, by number. -/
def State.allGangs (s : State) : List Gang :=
  if s.gang.id = 0 then s.gangs.map Prod.snd else (Sparse.insert s.gangs s.gang.id s.gang).map Prod.snd

/-- Every resident crew, by number. -/
def State.allCrews (s : State) : List Crew :=
  if s.crew.id = 0 then s.crews.map Prod.snd else (Sparse.insert s.crews s.crew.id s.crew).map Prod.snd

/-- The gangs of a crew, ejected strands among them. -/
def State.gangsOf (s : State) (crew : Nat) : List Gang := s.allGangs.filter fun g => g.crewId = crew

/-- Removes a gang. -/
def State.removeGang (s : State) (id : Nat) : State :=
  if s.gang.id = id then { s with gang := {} } else { s with gangs := Sparse.drop s.gangs id }

/-- Removes a crew. -/
def State.removeCrew (s : State) (id : Nat) : State :=
  if s.crew.id = id then { s with crew := {} } else { s with crews := Sparse.drop s.crews id }

/-- Global core, cluster and die of the crew in focus (R45). -/
def State.core (s : State) : Nat := s.crew.core
def State.cluster (s : State) : Nat := s.crew.core / 4
def State.die (s : State) : Nat := s.crew.core / 48

/-- The next free value (log 10). -/
def State.free (s : State) : Dword × State :=
  (Config.freeValue s.freeCtr, { s with freeCtr := s.freeCtr + 1 })

end Sys2Proof.Machine
end

