-- ==== Sys2Proof/Machine/Memory.lean ====
section
/-! DEFINITION. Physical memory and its tags (R92, R96), peer apertures (R388), page tables, MTLBs and the alias rule
(R97-R102), and the driver's rings with their records (R374, R384, R385). -/

namespace Sys2Proof.Machine

/-! ### Physical memory -/

/-- A memory: cells in rising order of address, none listed that holds the default byte. -/
abbrev Memory := List Host.Cell

/-- The canonical form of a memory. -/
def Memory.wf (m : Memory) : Bool := Sparse.wf (α := Byte) Config.memDefault m

/-- The physical address names memory, not an aperture (R96). -/
def isMemory (pa : Nat) : Bool := pa < Config.memTop

/-- The aperture of a physical address: its number and the offset in it (R388). -/
def aperture (pa : Nat) : Option (Nat × Nat) :=
  if Config.memTop ≤ pa && pa < Config.paTop then
    some ((pa - Config.memTop) / 2 ^ 30, (pa - Config.memTop) % 2 ^ 30)
  else none

/-- The memory link of a granule (R96), and its die. -/
def linkOf (pa : Nat) : Nat := pa / 4096 % 96
def linkDie (link : Nat) : Nat := link / Config.linksPerDie

/-- The byte offset of an address in its link's module (R96). -/
def moduleOffset (pa : Nat) : Nat := pa / 4096 / 96 * 4096 + pa % 4096

/-- The line of a module that a physical address lies in: its link, and the module offset / 128. -/
def moduleLine (pa : Nat) : Nat := linkOf pa * 2 ^ 32 + moduleOffset pa / 128

/-- The home die of an address (R95). -/
def homeDie (va : Nat) : Nat := foldXor 2 21 (va / 65536)

/-- The translation home of an address: the memory link, of the home die, whose MTLB translates it (R9, R95). -/
def translationHome (va : Nat) : Nat :=
  homeDie va * Config.linksPerDie + foldXor 16 3 (va / 65536) % Config.linksPerDie

/-- One byte of memory: what a read that reaches the home gives, wherever the newest copy stands (log 5). -/
def Sys.byte (y : Sys) (pa : Nat) : Byte := Sparse.get (α := Byte) Config.memDefault y.mem pa

/-- `n` bytes of memory, lowest address first. -/
def Sys.bytes (y : Sys) (pa : Nat) : Nat → List Byte
  | 0 => []
  | n + 1 => y.byte pa :: y.bytes (pa + 1) n

/-- The little-endian number in `n` bytes of memory (R1). -/
def Sys.num (y : Sys) (pa n : Nat) : Nat := fromBytes (y.bytes pa n)

/-- The tag of the granule of a physical address (R92). -/
def Sys.tag (y : Sys) (pa : Nat) : Bool := y.tags.contains (pa / 16)

/-- Writes the tag of a granule. -/
def Sys.setTag (y : Sys) (pa : Nat) (on : Bool) : Sys := { y with tags := setMember y.tags (pa / 16) on }

/-- Writes one byte; the tag of its granule is cleared (R92). -/
def Sys.setByte (y : Sys) (pa : Nat) (b : Byte) : Sys :=
  { y with mem := Sparse.put (α := Byte) Config.memDefault y.mem pa b,
           tags := if y.tags.contains (pa / 16) then setMember y.tags (pa / 16) false else y.tags }

/-- Writes bytes at rising addresses. -/
def Sys.setBytes (y : Sys) (pa : Nat) : List Byte → Sys
  | [] => y
  | b :: t => (y.setByte pa b).setBytes (pa + 1) t

/-- Writes a little-endian number. -/
def Sys.setNum (y : Sys) (pa n x : Nat) : Sys := y.setBytes pa (toBytes n x)

/-! ### Contexts -/

/-- The resident context of an ASID (R376). -/
def Sys.ctx (y : Sys) (a : Asid) : Option Context := (y.ctxs.find? fun e => e.1 = a.toNat).map Prod.snd

/-- The registers of a context; those of an absent one read 0. -/
def Sys.ctxD (y : Sys) (a : Asid) : Context := (y.ctx a).getD {}

/-- Applies a function to a resident context. -/
def Sys.updCtx (y : Sys) (a : Asid) (f : Context → Context) : Sys :=
  { y with ctxs := y.ctxs.map fun e => if e.1 = a.toNat then (e.1, f e.2) else e }

/-! ### Cores of the memory system -/

def Sys.core (y : Sys) (c : Nat) : Core := y.cores.get {} c
def Sys.updCore (y : Sys) (c : Nat) (f : Core → Core) : Sys := { y with cores := Sparse.upd {} y.cores c f }

/-! ### Page tables (R97, R98) -/

/-- Why a translation fails: the causes of R100 in their order, and the other pair of an alias (R102). -/
inductive XFault where
  | unmapped | badPte | privPage | noExec | noRead | noWrite
  | alias2 (frame : Nat) (va2 : Dword) (asid2 : Asid)
  | peer
  /-- An uncorrectable error of the memory (R107): precise for an access that needs the bytes. -/
  | memError (precise : Bool)
deriving DecidableEq, Repr

/-- The cause code of a translation fault (R108). -/
def XFault.cause : XFault → BitVec 8
  | .unmapped | .peer => 0x20
  | .noRead => 0x21
  | .noWrite => 0x22
  | .noExec => 0x23
  | .alias2 .. => 0x26
  | .badPte => 0x27
  | .memError _ => 0x28
  | .privPage => 0x2A

/-- The fault acts as refused at once (R100, R107). -/
def XFault.refused : XFault → Bool
  | .badPte | .alias2 .. => true
  | .memError precise => precise
  | _ => false

/-- The error met by an access that no gang waits at: a logged reduction's, an engine's (R107, R188). -/
def XFault.ofStore : XFault → XFault
  | .memError _ => .memError false
  | f => f

/-- What a leaf gives: the 64 KiB frame of the address, the rights, and the page's size in 64 KiB units. -/
structure Leaf where
  pa : Nat
  rights : Rights
  units : Nat := 1
deriving DecidableEq, Repr

/-- The lowest VA bit and the index width of each level (R97). -/
def ptShift : Nat → Nat
  | 0 => 48 | 1 => 39 | 2 => 30 | 3 => 21 | _ => 16
def ptBits (level : Nat) : Nat := if level = 4 then 5 else 9

/-- The level of `5 - fuel`: the walk of a table from a node (R97, R98). -/
def Sys.walkFrom (y : Sys) (va : Nat) : Nat → Nat → Except XFault Leaf
  | 0, _ => .error .badPte
  | fuel + 1, node =>
      let level := 4 - fuel
      let pte := y.num (node + 8 * bitsAt va (ptShift level) (ptBits level)) 8
      let addr := bitsAt pte 8 34 * 256
      let leaf := pte / 2 % 2 = 1
      if pte % 2 = 0 then .error .unmapped
      else if bitsAt pte 42 7 ≠ 0 || bitsAt pte 6 2 ≠ 0 then .error .badPte
      else if (leaf && level < 2) || (!leaf && level = 4) then .error .badPte
      else if Config.paTop ≤ addr then .error .badPte
      else if leaf then
        let size := 2 ^ ptShift level
        if addr % size ≠ 0 || (pte / 8 % 2 = 1 && pte / 4 % 2 = 0) then .error .badPte
        else
          .ok { pa := addr + va % size / 65536 * 65536, units := size / 65536,
                rights := { r := pte / 4 % 2 = 1, w := pte / 8 % 2 = 1, x := pte / 16 % 2 = 1, priv := pte / 32 % 2 = 1 } }
      else if addr % (if level = 3 then 256 else 4096) ≠ 0 then .error .badPte
      else y.walkFrom va fuel addr

/-- The walk of a context's table (R97); a context that is not resident has none (log 54). -/
def Sys.walk (y : Sys) (asid : Asid) (va : Nat) : Except XFault Leaf :=
  match y.ctx asid with
  | none => .error .unmapped
  | some c => y.walkFrom va 5 (bitsAt c.ptroot.toNat 12 30 * 4096)

/-- A translation covers a 64 KiB unit. -/
def Tlb.covers (t : Tlb) (vpn : Nat) : Bool := t.vpn ≤ vpn && vpn < t.vpn + t.units

/-- The translation of an address that its translation home holds (R95, R99). -/
def Sys.mtlbFind (y : Sys) (asid : Asid) (va : Nat) : Option Tlb :=
  y.mtlb.find? fun t => t.link = translationHome va && t.asid = asid && t.covers (va / 65536)

/-- A translation enters its MTLB; the oldest of 2048 goes (R99, log 56). -/
def Sys.mtlbFill (y : Sys) (t : Tlb) : Sys :=
  let same := y.mtlb.filter fun x => x.link = t.link
  let kept := if same.length < Config.mtlbEntries then y.mtlb else y.mtlb.erase (same.headD t)
  { y with mtlb := kept ++ [t] }

/-- The translation of a page found at an address: from its first unit on. -/
def Leaf.tlb (l : Leaf) (asid : Asid) (va : Nat) : Tlb :=
  let k := va / 65536 % l.units
  { link := translationHome va, asid := asid, vpn := va / 65536 - k, units := l.units, pa := l.pa - k * 65536,
    rights := l.rights }

/-- What a cached translation gives at an address. -/
def Tlb.leaf (t : Tlb) (va : Nat) : Leaf :=
  { pa := t.pa + (va / 65536 - t.vpn) * 65536, rights := t.rights, units := t.units }

/-- What an access needs of a page (R98). -/
def accReads : Access → Bool
  | .load | .atomic | .engineRead | .nic => true
  | _ => false
def accWrites : Access → Bool
  | .store | .atomic | .engineWrite => true
  | _ => false

/-- The first right an access lacks, in the order of R100. -/
def Rights.lacks (r : Rights) (acc : Access) (priv : Bool) : Option XFault :=
  if r.priv && !priv then some .privPage
  else if acc = .fetch && !r.x then some .noExec
  else if accReads acc && !r.r then some .noRead
  else if accWrites acc && !r.w then some .noWrite
  else none

/-- The reverse-map rule of R102 for a fill of a pair with write permission `w` onto a frame: of a large page, the frame of
the unit that the access names (log 56). -/
def Sys.recordFill (y : Sys) (asid : Asid) (vpn frame : Nat) (w : Bool) : Except XFault Sys :=
  let r := y.rev.get {} frame
  let other : XFault := .alias2 frame (BitVec.ofNat 64 (r.vpn * 65536)) r.asid
  if !r.v then
    .ok { y with rev := Sparse.put {} y.rev frame { v := true, w := w, aliased := false, asid := asid, vpn := vpn } }
  else if r.asid = asid && r.vpn = vpn then
    if w && r.aliased then .error other
    else .ok { y with rev := Sparse.put {} y.rev frame { r with w := r.w || w } }
  else if r.w || w then .error other
  else .ok { y with rev := Sparse.put {} y.rev frame { r with aliased := true } }

/-- A walk and, where the rights allow the access, its fill (R99, R100, R102). -/
def Sys.walkFill (y : Sys) (asid : Asid) (va : Nat) (acc : Access) (priv : Bool) : Except XFault (Leaf × Sys) :=
  match y.walk asid va with
  | .error e => .error e
  | .ok l =>
      match l.rights.lacks acc priv with
      | some e => .error e
      | none =>
          match y.recordFill asid (va / 65536) (l.pa / 65536) l.rights.w with
          | .error e => .error e
          | .ok y => .ok (l, y.mtlbFill (l.tlb asid va))

/-- Translates an access: the cached translation, or a walk (R99, R100). -/
def Sys.translate (y : Sys) (asid : Asid) (va : Nat) (acc : Access) (priv : Bool) : Except XFault (Leaf × Sys) :=
  match y.mtlbFind asid va with
  | some t =>
      match t.rights.lacks acc priv with
      | some e => .error e
      | none => .ok (t.leaf va, y)
  | none => y.walkFill asid va acc priv

/-- The physical address of a virtual one under a leaf. -/
def Leaf.addr (l : Leaf) (va : Nat) : Nat := l.pa + va % 65536

/-! ### The driver's rings (R384) -/

/-- The ring's size, when it is enabled. -/
def ringSize (reg : Dword) : Option Nat :=
  let l := bitsAt reg.toNat 0 5
  if 6 ≤ l && l ≤ 16 then some (2 ^ l) else none

/-- Where the record of an index of a ring goes. -/
def ringSlot (reg : Dword) (size idx : Nat) : Nat := bitsAt reg.toNat 12 30 * 4096 + 64 * (idx % size)

/-- Writes waiting records in order while the ring has room: at most as many as wait. -/
def drainInto (reg : Dword) (size : Nat) (head : Word) (y : Sys) (tail : Word) : List Record → Sys × Word × List Record
  | [] => (y, tail, [])
  | r :: rest =>
      if (tail - head).toNat < size then
        drainInto reg size head (y.setNum (ringSlot reg size tail.toNat) 64 r.toNat) (tail + 1) rest
      else (y, tail, r :: rest)

/-- Writes what a ring takes of the waiting records (R384). -/
def State.drainRing (s : State) (ring : Ring) : State :=
  match ring with
  | .fault =>
      match ringSize s.host.faultq with
      | none => s
      | some n =>
          let (y, tail, rest) := drainInto s.host.faultq n s.host.faultHead s.sys s.host.faultTail s.host.waitingFaults
          { s with sys := y, host := { s.host with faultTail := tail, waitingFaults := rest } }
  | .event =>
      match ringSize s.host.eventq with
      | none => s
      | some n =>
          let (y, tail, rest) := drainInto s.host.eventq n s.host.eventHead s.sys s.host.eventTail s.host.waitingEvents
          { s with sys := y, host := { s.host with eventTail := tail, waitingEvents := rest } }

/-- Sends a record to a ring: it waits behind the others for room (R384). -/
def State.pushRecord (s : State) (ring : Ring) (r : Record) : State :=
  (match ring with
    | .fault => { s with host := { s.host with waitingFaults := s.host.waitingFaults ++ [r] } }
    | .event => { s with host := { s.host with waitingEvents := s.host.waitingEvents ++ [r] } } : State).drainRing ring

/-- A field of a record: the low `n` bytes of a number at byte `at`. -/
def field (at' n x : Nat) : Nat := x % 2 ^ (8 * n) * 2 ^ (8 * at')

/-- An event record (R374, R385). -/
structure Event where
  kind : Nat
  cause : Nat := 0
  cause2 : Nat := 0
  flags : Nat := 0
  asid : Asid := 0
  gang : Nat := 0
  crew : Nat := 0
  pc : Dword := 0
  info : Dword := 0
  run : Mask := 0
  value : Dword := 0
deriving DecidableEq, Repr

/-- The 64 bytes of an event record (R374). -/
def Event.record (e : Event) : Record :=
  BitVec.ofNat 512 (field 0 1 e.kind + field 1 1 e.cause + field 2 1 e.cause2 + field 3 1 e.flags +
    field 4 2 e.asid.toNat + field 6 2 e.gang + field 8 4 e.crew + field 16 8 e.pc.toNat + field 24 8 e.info.toNat +
    field 32 4 e.run.toNat + field 40 8 e.value.toNat)

/-- Writes an event record to the event ring. -/
def State.event (s : State) (e : Event) : State := s.pushRecord .event e.record

/-- ACCESS of a fault record (R384). -/
def accCode : Access → Nat
  | .load => 0 | .store => 1 | .atomic => 2 | .fetch => 3 | .engineRead | .engineWrite => 4 | .nic => 5

/-- A fault record (R384). -/
def faultRecord (va : Nat) (asid : Asid) (acc : Access) (f : XFault) (core id : Nat) : Record :=
  let other := match f with
    | .alias2 _ va2 asid2 => field 16 8 va2.toNat + field 24 2 asid2.toNat
    | _ => 0
  BitVec.ofNat 512 (field 0 8 va + field 8 2 asid.toNat + field 10 1 (accCode acc) + field 11 1 f.cause.toNat +
    field 12 2 core + field 14 2 id + other)

/-- TRAPINFO of a refused fault: the frame of an alias, the line of a memory error, else the VA (R107, R108). -/
def XFault.info (f : XFault) (va : Nat) : Dword :=
  match f with
  | .alias2 frame _ _ => BitVec.ofNat 64 frame
  | .memError _ => BitVec.ofNat 64 (va / 128 * 128)
  | _ => BitVec.ofNat 64 va

/-- The lowest number a list does not hold. -/
def freeId (used : List Nat) : Nat :=
  (minList ((List.range (used.length + 1)).filter fun i => !used.contains i)).getD 0

/-- Sends a translation fault to the driver: it joins the open record of its page, or opens one (R100, R384). -/
def State.openFault (s : State) (va : Nat) (asid : Asid) (acc : Access) (f : XFault) (core : Nat) (w : Waiter) :
    Nat × State :=
  match s.sys.faults.find? fun x => x.asid = asid && x.page = va / 65536 with
  | some x =>
      (x.id, { s with sys := { s.sys with faults := s.sys.faults.map fun y =>
        if y.id = x.id then { y with waiters := y.waiters ++ [w] } else y } })
  | none =>
      let id := freeId (s.sys.faults.map fun x => x.id)
      let opened : OpenFault :=
        { id := id, asid := asid, page := va / 65536, va := BitVec.ofNat 64 va, cause := f.cause, info := f.info va,
          waiters := [w] }
      (id, ({ s with sys := { s.sys with faults := s.sys.faults ++ [opened] } }
        : State).pushRecord .fault (faultRecord va asid acc f core id))

/-- A fault that acts as refused leaves its record with the driver and nothing open (R100). -/
def State.recordFault (s : State) (va : Nat) (asid : Asid) (acc : Access) (f : XFault) (core : Nat) : State :=
  s.pushRecord .fault (faultRecord va asid acc f core (freeId (s.sys.faults.map fun x => x.id)))

end Sys2Proof.Machine
end

