-- ==== Sys2Proof/Machine/Directory.lean ====
section
/-! DEFINITION. Reader sets (R112, R114, R140), the home directory and the caches beyond the ordinary L1s: their ways, their
coherence states and replacement (R109, R111, R117, R118), and parking with its quotas and demotion (R119-R123). Copies that
the directory keeps coherent hold the same bytes: `Sys.mem` holds them once, and the directory says which caches hold the
line, with which rights, and which bytes memory itself does not have yet (log 5). -/

namespace Sys2Proof.Machine

/-- The gang and strands whose side-log entries the write-backs of a FLUSH make, with what a discard reports (R105, R106,
R147); gang 0 of write-backs that no instruction names. -/
structure Issuer where
  gang : Nat := 0
  strands : Mask := 0
  number : Nat := 0
  exitRec : Dword := 0
  pc : Pc := 0
deriving DecidableEq, Repr

/-- The agent of an access: its core, whether it is an ejected strand or an engine, its crew, context and mode. -/
structure Who where
  core : Nat
  eject : Bool := false
  engine : Bool := false
  crew : Nat
  asid : Asid
  priv : Bool
  act : Issuer := {}
deriving DecidableEq, Repr

/-- The gang in focus as an agent. -/
def State.who (s : State) : Who :=
  { core := s.crew.core, eject := s.gang.ej.isSome, crew := s.crew.id, asid := s.crew.asid, priv := s.gang.priv }

def Who.cluster (w : Who) : Nat := w.core / 4
def Who.die (w : Who) : Nat := w.core / 48
/-- The agent has no L1 of its own (R187, R317). -/
def Who.noL1 (w : Who) : Bool := w.eject || w.engine

/-! ### Reader sets -/

/-- Cores, and the marionette pool, of a global cluster as readers (R112). -/
def coreReaders (cluster : Nat) (cores : BitVec 4) (pool : Bool) : Readers :=
  if cores = 0 && !pool then .none
  else
    match (List.range 4).filter (fun i => cores.getLsbD i) with
    | [i] => if pool then .clusterCache cluster cores pool else .core (cluster * 4 + i)
    | _ => .clusterCache cluster cores pool

/-- The 1 bits of a number below 2^n. -/
def bitList (n x : Nat) : List Nat := (List.range n).filter fun i => x / 2 ^ i % 2 = 1

/-- The dies of a cluster mask. -/
def diesOf (m : BitVec 48) : List Nat := (List.range 4).filter fun d => bitsAt m.toNat (12 * d) 12 ≠ 0

/-- A die mask. -/
def dieMask (l : List Nat) : BitVec 4 := l.foldl (fun m d => m ||| BitVec.ofNat 4 (2 ^ d)) 0

/-- The park level and unit of readers (R112, R114); none where no copy is parked. -/
def Readers.unit : Readers → Option ParkUnit
  | .none | .host _ => Option.none
  | .core c => some (.l1 c)
  | .clusterCache k _ _ => some (.cluster k)
  | .clusters m =>
      match bitList 48 m.toNat, diesOf m with
      | [g], _ => some (.cluster g)
      | _, [d] => some (.dieL2 d)
      | _, ds => some (.replicas (dieMask ds))
  | .dies m =>
      match bitList 4 m.toNat with
      | [d] => some (.dieL2 d)
      | _ => some (.replicas m)
  | .device => some .home

/-- The members other than the host of an entry of a context's reader-set table (R114, R140). -/
def tableMembers (e : Dword) : Readers :=
  let form := bitsAt e.toNat 60 3
  if form = 0 then .none
  else if form = 1 then
    let g := bitsAt e.toNat 0 6
    if 48 ≤ g then .none else coreReaders g (e.extractLsb' 8 4) (e.getLsbD 12)
  else if form = 2 then
    (if e.extractLsb' 0 48 = 0 then .none else .clusters (e.extractLsb' 0 48))
  else .device

/-- The readers of an entry: the host's reads go to memory, and the other members get a clean copy at their level (R114). -/
def tableReaders (e : Dword) : Readers :=
  if e.getLsbD 63 then .host (tableMembers e).unit else tableMembers e

/-- The readers a set names, for a writer (R23, R112, R140). -/
def Sys.readers (y : Sys) (w : Who) (set : BitVec 16) : Readers :=
  let x := set.toNat
  match x / 8192 with
  | 0 => .none
  | 1 => if w.eject then .clusterCache w.cluster (BitVec.ofNat 4 (2 ^ (w.core % 4))) true else .core w.core
  | 2 =>
      let n := bitsAt x 8 5
      if n = 0x1F then coreReaders w.cluster (set.extractLsb' 0 4) (set.getLsbD 4)
      else if 12 ≤ n then .none
      else coreReaders (w.die * 12 + n) (set.extractLsb' 0 4) (set.getLsbD 4)
  | 3 => if x % 4096 = 0 then .none else .clusters (BitVec.ofNat 48 (x % 4096 * 2 ^ (12 * w.die)))
  | 4 => if x % 16 = 0 then .none else .dies (BitVec.ofNat 4 x)
  | 5 => .device
  | 6 => .host none
  | _ =>
      let c := y.ctxD w.asid
      if c.parkctl.getLsbD 1 then tableReaders (c.table.get 0 (x % 64)) else .device

/-- The level code of a unit (R112). -/
def ParkUnit.code : ParkUnit → Nat
  | .l1 _ => 1 | .cluster _ => 2 | .dieL2 _ => 3 | .replicas _ => 4 | .home => 5

/-- A release with a reader set acts at least at this scope, 0 for no set (R124). -/
def Readers.scope (w : Who) : Readers → Nat
  | .none => 0
  | .core c => if c / 4 = w.cluster then 3 else if c / 48 = w.die then 4 else 5
  | .clusterCache k _ _ => if k = w.cluster then 3 else if k / 12 = w.die then 4 else 5
  | .clusters m =>
      if bitList 48 m.toNat = [w.cluster] then 3 else if diesOf m = [w.die] then 4 else 5
  | .dies m => if bitList 4 m.toNat = [w.die] then 4 else 5
  | .device => 5
  | .host _ => 6

/-- The set names the agent (R112): an engine that acts for a crew counts as the strands of its core (DESIGN CHOICE, log 57). -/
def Readers.names (w : Who) : Readers → Bool
  | .none | .host _ => false
  | .core c => c = w.core && !w.eject
  | .clusterCache k cores pool => k = w.cluster && (if w.eject then pool else cores.getLsbD (w.core % 4))
  | .clusters m => m.getLsbD w.cluster
  | .dies m => m.getLsbD w.die
  | .device => true

/-- Whether a unit lies on the agent's read path (R113). -/
def ParkUnit.onPath (w : Who) (home : Nat) : ParkUnit → Bool
  | .l1 c => c = w.core && !w.noL1
  | .cluster k => k = w.cluster
  | .dieL2 d => d = w.die || d = home
  | .replicas _ | .home => true

/-- How far out a read of the agent is served: 1 L1, 2 cluster cache, 3 own-die slice, 5 home (R113, R122). -/
def ParkUnit.served (w : Who) (home : Nat) : ParkUnit → Nat
  | .l1 _ => 1
  | .cluster _ => 2
  | .dieL2 d => if d = w.die then 3 else 5
  | .replicas m => if m.getLsbD w.die || w.die = home then 3 else 5
  | .home => if w.die = home then 3 else 5

/-! ### Caches and their sets (R109) -/

/-- The numbers of the caches: a core's L1 is its number, then the cluster caches and the L2 of the dies. -/
def ccOf (cluster : Nat) : Nat := 1000 + cluster
def sliceOf (die : Nat) : Nat := 2000 + die

/-- The caches in which a parked line takes a way, and whose quota it uses (R121): of the replicas those of the dies named,
the home's with them; the home's owner copy is an ordinary copy when the home die is not named (log 57). -/
def ParkUnit.stores (home : Nat) : ParkUnit → List Nat
  | .l1 c => [c]
  | .cluster k => [ccOf k]
  | .dieL2 d => [sliceOf d]
  | .replicas m => (bitList 4 m.toNat).map sliceOf
  | .home => [sliceOf home]

/-- The context's quota in lines at a place (R121). -/
def Context.quota (c : Context) (store : Nat) : Nat :=
  let q := c.parkquota.toNat
  if store < 1000 then min 512 (bitsAt q 0 16)
  else if store < 2000 then min 1024 (bitsAt q 16 16) * 32
  else min 512 (bitsAt q 32 16) * 512

/-- The set of a line in a cache: of an L2 its slice (R95) and the set in it (DESIGN CHOICE, log 52). -/
def storeSet (store line : Nat) : Nat :=
  if store < 1000 then line % Config.l1Sets
  else if store < 2000 then line % Config.clusterSets
  else foldXor 4 13 line * Config.sliceSets + line / Config.slicesPerDie % Config.sliceSets

/-! ### The directory -/

/-- The key of a line of a context in the directory, and what it names. -/
def dirKey (asid : Asid) (line : Nat) : Nat := asid.toNat * 2 ^ 50 + line
def keyAsid (key : Nat) : Asid := BitVec.ofNat 16 (key / 2 ^ 50)
def keyLine (key : Nat) : Nat := key % 2 ^ 50
def keyHome (key : Nat) : Nat := homeDie (keyLine key * 128)

/-- The home directory's entry of a line (R115). -/
def Sys.entry (y : Sys) (asid : Asid) (line : Nat) : DirEntry := y.dir.get {} (dirKey asid line)
def Sys.setEntry (y : Sys) (asid : Asid) (line : Nat) (e : DirEntry) : Sys :=
  { y with dir := Sparse.put {} y.dir (dirKey asid line) e }

/-- The parked copy of a line. -/
def Sys.parked (y : Sys) (asid : Asid) (line : Nat) : Option Parked := (y.entry asid line).parked

/-- The ordinary copy a cache holds. -/
def DirEntry.copy (e : DirEntry) (cache : Nat) : Option Copy := (e.copies.find? fun x => x.1 = cache).map Prod.snd
def DirEntry.holds (e : DirEntry) (cache : Nat) : Bool := (e.copy cache).isSome

/-- Some cache beyond the ordinary L1s holds the line. -/
def DirEntry.held (e : DirEntry) : Bool := !e.copies.isEmpty || e.parked.isSome

/-- The ordinary copies of some caches alone. -/
def DirEntry.only (e : DirEntry) (p : Nat → Bool) : DirEntry := { e with copies := e.copies.filter fun x => p x.1 }

/-- The bytes that a cluster cache holds and the home does not (R117). -/
def DirEntry.outer (e : DirEntry) : BitVec 128 :=
  e.privatised.foldl (fun m x => m ||| x.2) ((e.owner.map Prod.snd).getD 0)

/-- Some byte of a mask lies inside another cluster's V mask. -/
def othersMask (k : Nat) (m : BitVec 128) (v : Sparse (BitVec 128)) : Bool :=
  v.any fun e => e.1 ≠ k && e.2 &&& m ≠ 0

/-- The M and V copies gone (R118); S copies stay. -/
def DirEntry.merge (e : DirEntry) : DirEntry :=
  { e.only (fun c => !(e.owner.any fun o => c = ccOf o.1) && !(e.privatised.any fun v => c = ccOf v.1)) with
    privatised := [], owner := none }

/-- Cluster `k` obtains M: every other copy outside the home is invalidated (R111). -/
def DirEntry.obtain (e : DirEntry) (home k : Nat) (m : BitVec 128) : DirEntry :=
  { e.only (fun c => c = ccOf k || c = sliceOf home) with privatised := [], owner := some (k, m) }

/-- The directory after a cluster gains write ownership of bytes: a V holder's write outside its own mask merges (R111, R117,
R118). -/
def DirEntry.own (e : DirEntry) (home k : Nat) (m : BitVec 128) : DirEntry :=
  match e.privatised.find? fun x => x.1 = k with
  | some v => if m &&& ~~~v.2 = 0 then e else e.obtain home k m
  | none =>
      if !e.privatised.isEmpty then
        if othersMask k m e.privatised || Config.maxVCopies ≤ e.privatised.length then e.obtain home k m
        else
          { e.only (fun c => c = ccOf k || c = sliceOf home || e.privatised.any fun v => c = ccOf v.1) with
            privatised := Sparse.put 0 e.privatised k m }
      else
        match e.owner with
        | none => e.obtain home k m
        | some (k', m') =>
            if k' = k then { e with owner := some (k, m ||| m') }
            else if m &&& m' = 0 then
              { e.only (fun c => c = ccOf k || c = ccOf k' || c = sliceOf home) with
                owner := none, privatised := Sparse.put 0 (Sparse.put 0 [] k' m') k m }
            else e.obtain home k m

/-- The directory after a cluster reads bytes: V copies are merged when another's byte is read, an M copy elsewhere becomes
shared (R111, R118). -/
def DirEntry.share (e : DirEntry) (k : Nat) (m : BitVec 128) : DirEntry :=
  if othersMask k m e.privatised then e.merge
  else
    match e.owner with
    | some (k', _) => if k' = k then e else { e with owner := none }
    | none => e

/-- A parked line with its key. -/
def Sys.parkedAt (y : Sys) (store : Nat) : List (Nat × Parked) :=
  y.dir.filterMap fun e =>
    match e.2.parked with
    | some p => if (p.place.stores (keyHome e.1)).contains store then some (e.1, p) else none
    | none => none

/-- An entry of a line that no cache holds remembers nothing of its copies. -/
def DirEntry.tidy (e : DirEntry) : DirEntry := if e.held then e else { e with pa := 0, dirty := 0 }

/-! ### Bytes of a line -/

/-- The bytes of a line from offset `off`, `n` of them. -/
def byteMask (off n : Nat) : BitVec 128 := BitVec.ofNat 128 ((2 ^ n - 1) * 2 ^ off)

/-- Byte `i` of a line's data. -/
def lineByte (d : BitVec 1024) (i : Nat) : Byte := d.extractLsb' (8 * i) 8

/-- A line's data with bytes written from offset `off`. -/
def lineWrite (d : BitVec 1024) (off : Nat) (b : List Byte) : BitVec 1024 :=
  let m : BitVec 1024 := BitVec.ofNat 1024 ((2 ^ (8 * b.length) - 1) * 2 ^ (8 * off))
  (d &&& ~~~m) ||| BitVec.ofNat 1024 (fromBytes b * 2 ^ (8 * off))

/-- The granules a mask of bytes touches. -/
def granules (m : BitVec 128) : List Nat := (List.range 8).filter fun g => m.extractLsb' (16 * g) 16 ≠ 0

/-! ### Write-backs to memory (R107) -/

/-- A physical address lies in a line with an uncorrectable error (R107). -/
def Sys.isBad (y : Sys) (pa : Nat) : Bool := y.bad.contains (moduleLine pa)

/-- Masked bytes of a line as lanes: a tagged granule whole, other bytes singly. -/
def lineLanes (line : Nat) (data : BitVec 1024) (tags : BitVec 8) (m : BitVec 128) : List LogLane :=
  (granules m).flatMap fun g =>
    if tags.getLsbD g then
      [{ strand := 0, va := BitVec.ofNat 64 (line * 128 + 16 * g), tag := some true,
         data := (List.range 16).map fun i => lineByte data (16 * g + i) }]
    else
      ((List.range 16).filter fun i => m.getLsbD (16 * g + i)).map fun i =>
        { strand := 0, va := BitVec.ofNat 64 (line * 128 + 16 * g + i), tag := none, data := [lineByte data (16 * g + i)] }

/-- A write-back that meets such a line enters its core's side log and replays once the driver has mended or remapped the
frame (R107). It enters even a full log, so that no completed store is lost (log 51). The strands of a FLUSH wait for it (R147);
no gang waits for another's (log 51). -/
def Sys.logBad (y : Sys) (w : Who) (asid : Asid) (pa : Nat) (lanes : List LogLane) : Sys :=
  if y.isBad pa && !lanes.isEmpty then
    y.updCore w.core fun k => { k with log := k.log ++ [
      { asid := asid, page := ((lanes.map fun l => l.va.toNat).headD 0) / 65536, crewId := w.crew, gangId := w.act.gang,
        strands := w.act.strands, crewNumber := w.act.number, exitRec := w.act.exitRec, lanes := lanes, size := 1, op := none,
        rset := 0, scope := 0, order := 0, pc := w.act.pc,
        priv := true, core := w.core, eject := false }] }
  else y

/-- The bytes of a physical line, and the tags of its granules. -/
def Sys.lineData (y : Sys) (pa : Nat) : BitVec 1024 := BitVec.ofNat 1024 (y.num pa 128)
def Sys.lineTags (y : Sys) (pa : Nat) : BitVec 8 :=
  (List.range 8).foldl (fun (t : BitVec 8) g => if y.tag (pa + 16 * g) then t ||| (1 <<< g) else t) 0

/-- Bytes of a line that the caches hold are written to memory: those of a line with an error go to the side log. -/
def Sys.toMemory (y : Sys) (w : Who) (key : Nat) (m : BitVec 128) : Sys :=
  let e : DirEntry := y.dir.get {} key
  let out := e.dirty &&& m
  let y := y.logBad w (keyAsid key) e.pa (lineLanes (keyLine key) (y.lineData e.pa) (y.lineTags e.pa) out)
  { y with dir := Sparse.put {} y.dir key { e with dirty := e.dirty &&& ~~~out } }

/-! ### Fills and replacement (R109) -/

/-- The copy a set gives up: of the lowest retention class, the least recently used. -/
def coldest (l : List (Nat × Copy)) : Option Nat :=
  match minList (l.map fun e => e.2.keep) with
  | none => none
  | some k =>
      let low := l.filter fun e => e.2.keep = k
      match minList (low.map fun e => e.2.used) with
      | none => none
      | some u => (low.find? fun e => e.2.used = u).map Prod.fst

/-- The lines with an ordinary copy in a line's set of a cache. -/
def Sys.inSet (y : Sys) (cache line : Nat) : List (Nat × Copy) :=
  y.dir.filterMap fun e =>
    if storeSet cache (keyLine e.1) = storeSet cache line then (e.2.copy cache).map fun c => (e.1, c) else none

/-- The ways of a line's set that parked lines hold (R121). -/
def Sys.parkedWays (y : Sys) (cache line : Nat) : Nat :=
  ((y.parkedAt cache).filter fun e => storeSet cache (keyLine e.1) = storeSet cache line).length

/-- Makes a way free in a line's set: an ordinary copy leaves a full one; a parked line is replaced as R121 says alone. -/
def Sys.makeWay (y : Sys) (evict : Nat → Sys → Sys) (cache line : Nat) : Sys :=
  let l := y.inSet cache line
  if l.length + y.parkedWays cache line < Config.cacheWays then y
  else
    match coldest l with
    | none => y
    | some key => evict key y

/-- A line enters a cache, or is used there again. -/
def Sys.fillWith (y : Sys) (evict : Nat → Sys → Sys) (cache key pa : Nat) (c : Copy) : Sys :=
  let e : DirEntry := y.dir.get {} key
  let y := if e.holds cache then y else y.makeWay evict cache (keyLine key)
  let now := y.parkSeq + 1
  let e : DirEntry := y.dir.get {} key
  let new : Copy := match e.copy cache with
    | some old => { old with used := now }
    | none => { c with used := now }
  { y with dir := Sparse.put {} y.dir key { e with copies := Sparse.put {} e.copies cache new, pa := if e.held then e.pa else pa },
           parkSeq := now }

/-- An ordinary line leaves the L2 of its die: the home's dirty bytes go to memory. -/
def Sys.evictSlice (y : Sys) (w : Who) (die key : Nat) : Sys :=
  let e : DirEntry := y.dir.get {} key
  let y := if keyHome key = die then y.toMemory w key (~~~e.outer) else y
  let e : DirEntry := y.dir.get {} key
  { y with dir := Sparse.put {} y.dir key (e.only fun c => c ≠ sliceOf die).tidy }

/-- A line enters the L2 of a die. -/
def Sys.fillSlice (y : Sys) (w : Who) (die key pa : Nat) (c : Copy) : Sys :=
  y.fillWith (fun key y => y.evictSlice w die key) (sliceOf die) key pa c

/-- An ordinary line leaves a cluster cache: what an M or V copy has written goes to the home (R111, R118). -/
def Sys.evictCluster (y : Sys) (w : Who) (k key : Nat) : Sys :=
  let e : DirEntry := y.dir.get {} key
  let mine := e.owner.any fun (o : Nat × BitVec 128) => o.1 = k
  let gone : DirEntry := { e.only (fun c => c ≠ ccOf k) with
    owner := if mine then none else e.owner, privatised := Sparse.drop e.privatised k }
  let wrote := mine || e.privatised.any fun v => v.1 = k
  if wrote then
    let y := y.fillSlice w (keyHome key) key e.pa ((e.copy (ccOf k)).getD {})
    let e : DirEntry := y.dir.get {} key
    { y with dir := Sparse.put {} y.dir key { gone with copies := e.copies.filter fun x => x.1 ≠ ccOf k, dirty := e.dirty } }
  else { y with dir := Sparse.put {} y.dir key gone.tidy }

/-- A line enters a cluster cache. -/
def Sys.fillCluster (y : Sys) (w : Who) (k key pa : Nat) (c : Copy) : Sys :=
  y.fillWith (fun key y => y.evictCluster w k key) (ccOf k) key pa c

/-- M and V copies are gathered at the home, which holds the line then (R118). -/
def Sys.gather (y : Sys) (w : Who) (key : Nat) : Sys :=
  let e : DirEntry := y.dir.get {} key
  if e.owner.isNone && e.privatised.isEmpty then y
  else
    let y := y.fillSlice w (keyHome key) key e.pa ((e.copies.head?.map Prod.snd).getD {})
    let e : DirEntry := y.dir.get {} key
    { y with dir := Sparse.put {} y.dir key e.merge }

/-! ### Counters -/

/-- Adds to a crew's LOCATES or DEMOTES (R128). -/
def State.countLocate (s : State) (w : Who) (n : Nat) : State :=
  if n = 0 then s else s.updCrew w.crew fun c => { c with locates := c.locates + BitVec.ofNat 64 n }
def State.countDemote (s : State) (w : Who) (n : Nat) : State :=
  if n = 0 then s else s.updCrew w.crew fun c => { c with demotes := c.demotes + BitVec.ofNat 64 n }

/-! ### Reads and writes that reach past the L1 -/

/-- The retention class POLICY picks (R52). -/
def keepOf (policy : Nat) : Nat := if policy = 1 then 0 else if policy = 2 then 2 else 1

/-- The physical line of an address under a leaf. -/
def Leaf.line (l : Leaf) (va : Nat) : Nat := l.addr va / 128 * 128

/-- A read reaches past the L1: the line is served along the path of R113 and fills the home slice and, under any POLICY but
4, the cluster cache (R52, R109, R111). Of a parked line a locate walk or a demotion miss is counted (R119, R122): under POLICY 4
one for each lane, since nothing nearer keeps the line (DESIGN CHOICE, log 57). -/
def State.dirRead (s : State) (w : Who) (l : Leaf) (policy va : Nat) (m : BitVec 128) : State :=
  let key := dirKey w.asid (va / 128)
  let e := s.sys.entry w.asid (va / 128)
  let home := homeDie va
  let c : Copy := { rights := l.rights, keep := keepOf policy }
  let near (y : Sys) : Sys := if policy = 4 then y else y.fillCluster w w.cluster key (l.line va) c
  if e.holds (ccOf w.cluster) && !othersMask w.cluster m e.privatised then
    { s with sys := s.sys.fillCluster w w.cluster key (l.line va) c }
  else
    match e.parked with
    | none =>
        let y := s.sys.setEntry w.asid (va / 128) (e.share w.cluster m)
        { s with sys := near (y.fillSlice w home key (l.line va) c) }
    | some p =>
        let own := (p.readers.unit.map fun u => u.served w home).getD 5
        let far := p.place.served w home
        if p.place.onPath w home then
          let s := if far ≤ 2 then s else { s with sys := near s.sys }
          if p.readers.names w && own < far then s.countDemote w 1 else s
        else ({ s with sys := near s.sys } : State).countLocate w 1

/-- A read of the agent would need a locate walk (R113, R119). -/
def Sys.walks (y : Sys) (w : Who) (va : Nat) : Option Parked :=
  let e := y.entry w.asid (va / 128)
  match e.parked with
  | none => none
  | some p => if e.holds (ccOf w.cluster) || p.place.onPath w (homeDie va) then none else some p

/-- A write to a parked line: clean copies elsewhere are invalidated, the home's owner copy of replicas is current (R115,
R119), and the writer's core is remembered (R120), also when an engine or an ejected strand writes for a gang of the core (DESIGN
CHOICE, log 57). -/
def DirEntry.writeParked (e : DirEntry) (p : Parked) (home core : Nat) (m : BitVec 128) : DirEntry :=
  let owner (c : Nat) : Bool := p.place.code = 4 && c = sliceOf home
  { e.only owner with
    parked := some (if p.writers.contains core then p else { p with writers := p.writers ++ [core] }), dirty := e.dirty ||| m }

/-- A write of kind none that reaches past the L1: a cluster obtains M or V, or under POLICY 4 the home takes the bytes; a
parked line is written at its unit, forwarded and counted off the path (R52, R111, R117, R119, R123). -/
def State.dirWrite (s : State) (w : Who) (l : Leaf) (policy va : Nat) (m : BitVec 128) : State :=
  let key := dirKey w.asid (va / 128)
  let e := s.sys.entry w.asid (va / 128)
  let home := homeDie va
  let c : Copy := { rights := l.rights, keep := keepOf policy }
  match e.parked with
  | none =>
      let hit := e.owner.any fun (o : Nat × BitVec 128) => o.1 = w.cluster
      let y := if policy = 4 && !hit then
          let y := (s.sys.gather w key).fillSlice w home key (l.line va) c
          let e : DirEntry := y.dir.get {} key
          y.setEntry w.asid (va / 128) (e.only fun c => c = sliceOf home)
        else
          let y := s.sys.setEntry w.asid (va / 128) (e.own home w.cluster m)
          let y := if hit then y else y.fillSlice w home key (l.line va) c
          y.fillCluster w w.cluster key (l.line va) c
      let e : DirEntry := y.dir.get {} key
      { s with sys := y.setEntry w.asid (va / 128) { e with dirty := e.dirty ||| m } }
  | some p =>
      let s := { s with sys := s.sys.setEntry w.asid (va / 128) (e.writeParked p home w.core m) }
      if p.place.onPath w home then s else s.countLocate w 1

/-- A write that is performed at the home (R12, R170): every copy is gathered there, other clean copies are invalidated; a
parked line stays parked (R119). -/
def Sys.dirHome (y : Sys) (w : Who) (l : Leaf) (va : Nat) (m : BitVec 128) : Sys :=
  let key := dirKey w.asid (va / 128)
  let home := homeDie va
  match y.parked w.asid (va / 128) with
  | none =>
      let y := (y.gather w key).fillSlice w home key (l.line va) { rights := l.rights }
      let e : DirEntry := y.dir.get {} key
      y.setEntry w.asid (va / 128) { e.only (fun c => c = sliceOf home) with dirty := e.dirty ||| m }
  | some p =>
      let owner (c : Nat) : Bool := p.place.code = 4 && c = sliceOf home
      let e : DirEntry := (y.entry w.asid (va / 128)).only owner
      y.setEntry w.asid (va / 128) { e with dirty := e.dirty ||| m }

/-! ### Parking -/

/-- The oldest of parked lines: the age counts from a line's arrival at its unit (log 57). -/
def oldest (l : List (Nat × Parked)) : Option (Nat × Parked) :=
  match minList (l.map fun e => e.2.age) with
  | none => none
  | some a => l.find? fun e => e.2.age = a

/-- The line a place demotes for an incoming one, when it must (R121, R122): none needed, or the choice. -/
def Sys.demand (y : Sys) (asid : Asid) (line : Nat) (set : BitVec 16) (store : Nat) : Option (Option (Nat × Parked)) :=
  let all := (y.parkedAt store).filter fun e => e.1 ≠ dirKey asid line
  let mine := all.filter fun e => keyAsid e.1 = asid
  let inSet := all.filter fun e => storeSet store (keyLine e.1) = storeSet store line
  let free (l : List (Nat × Parked)) := l.filter fun e => !e.2.reserved
  let quota := (y.ctxD asid).quota store
  let beyond := quota ≤ mine.length
  let full := Config.maxParkedWays ≤ inSet.length
  let pool := if full then inSet.filter fun e => keyAsid e.1 = asid else mine
  if !beyond && !full then none
  else if quota < (mine.filter fun e => e.2.reserved).length then some none
  else
    match oldest ((free pool).filter fun e => e.2.set = set) with
    | some e => some (some e)
    | none => some (oldest (free pool))

/-- One level outward (R122); none is an ordinary line at home. -/
def ParkUnit.outward (home : Nat) : ParkUnit → Option ParkUnit
  | .l1 c => some (.cluster (c / 4))
  | .cluster k => some (.dieL2 (k / 12))
  | .dieL2 d => if d = home then none else some .home
  | .replicas _ | .home => none

/-- A line is an ordinary one at its home from now on (R122). -/
def Sys.settle (y : Sys) (w : Who) (key : Nat) : Sys :=
  let e : DirEntry := y.dir.get {} key
  match e.parked with
  | none => y
  | some p =>
      let y := { y with dir := Sparse.put {} y.dir key { e with parked := none } }
      y.fillSlice w (keyHome key) key e.pa { rights := p.rights, keep := p.keep }

/-- Records a parked line at a unit: its caches give it a way, and only clean copies in other clusters, and the home's owner
copy of replicas, stay beside it. `pa` is its physical line. -/
def Sys.install (y : Sys) (w : Who) (key pa : Nat) (p : Parked) : Sys :=
  let home := keyHome key
  let mine := p.place.stores home
  let e : DirEntry := y.dir.get {} key
  let owner := p.place.code = 4 && !mine.contains (sliceOf home)
  let e := { e.only fun c => c < 2000 && !mine.contains c with parked := none }
  let y := { y with dir := Sparse.put {} y.dir key e }
  let y := mine.foldl (fun (y : Sys) c =>
    if c < 1000 then y
    else if c < 2000 then y.makeWay (fun key y => y.evictCluster w (c - 1000) key) c (keyLine key)
    else y.makeWay (fun key y => y.evictSlice w (c - 2000) key) c (keyLine key)) y
  let e : DirEntry := y.dir.get {} key
  let y := { y with
    dir := Sparse.put {} y.dir key { e with parked := some { p with age := y.parkSeq }, pa := if e.pa = 0 then pa else e.pa },
    parkSeq := y.parkSeq + 1 }
  if owner then y.fillSlice w home key pa { rights := p.rights, keep := p.keep } else y

/-- Drops one die's replica of a parked line; the home owner copy serves (R122). -/
def Sys.dropReplica (y : Sys) (key : Nat) (p : Parked) (m : BitVec 4) (die : Nat) : Sys :=
  let e : DirEntry := Sparse.get {} y.dir key
  let p := { p with place := .replicas (m &&& ~~~(BitVec.ofNat 4 (2 ^ die))) }
  { y with dir := Sparse.put {} y.dir key { e with parked := some p } }

/-- Parks a line at a unit, demoting others until the quotas are kept; where nothing may go, it parks one level outward, and
`bind` says whether a reservation goes with it (R121-R123, R144). `fuel` bounds the cascade from level to level. A line that
fits at no level is an ordinary one at home, without a reservation (DESIGN CHOICE, log 57). -/
def Sys.place (y : Sys) (w : Who) : Nat → Nat → Nat → Bool → Parked → Sys
  | 0, key, pa, _, p => (y.install w key pa p).settle w key
  | fuel + 1, key, pa, bind, p =>
      let home := keyHome key
      let demote (y : Sys) (store k : Nat) (q : Parked) : Sys :=
        match q.place with
        | .replicas m => y.dropReplica k q m (store - 2000)
        | u =>
            match u.outward (keyHome k) with
            | none => y.settle w k
            | some o => y.place w fuel k (y.dir.get {} k).pa true { q with place := o }
      let free (y : Sys) (store : Nat) : Sys × Bool :=
        let r := (List.range (y.dir.length + 2)).foldl (fun (a : Sys × Option Bool) _ =>
          match a.2 with
          | some _ => a
          | none =>
              match a.1.demand (keyAsid key) (keyLine key) p.set store with
              | none => (a.1, some true)
              | some none => (a.1, some false)
              | some (some (k, q)) => (demote a.1 store k q, none)) (y, none)
        (r.1, r.2.getD false)
      match p.place with
      | .replicas m =>
          let named := bitList 4 m.toNat
          let (y, kept) := named.foldl (fun (a : Sys × List Nat) d =>
            let (y, ok) := free a.1 (sliceOf d)
            (y, if ok then a.2 ++ [d] else a.2)) (y, [])
          y.install w key pa { p with place := .replicas (dieMask kept), reserved := p.reserved && (bind || kept = named) }
      | u =>
          let (y, ok) := free y ((u.stores home).headD 0)
          if ok then y.install w key pa p
          else
            match u.outward home with
            | none => (y.install w key pa { p with place := .home }).settle w key
            | some o => y.place w fuel key pa bind { p with place := o, reserved := p.reserved && bind }

/-- Levels a cascade can pass. -/
def placeFuel : Nat := 8

/-! ### Peers (R291, R388) -/

/-- PEERMAP of an aperture. -/
def HostSide.peer (h : HostSide) (i : Nat) : Option (Nat × Nat) :=
  let r := h.peermap.get 0 i
  if r.getLsbD 15 then some (bitsAt r.toNat 0 10, bitsAt r.toNat 30 27 * 2 ^ 30) else none

/-- The Plovlan port that leads to a peer (log 11). -/
def peerPort (peer : Nat) : Nat := peer % 16

/-- A port's link. -/
def Sys.link (y : Sys) (port : Nat) : LinkState := y.links.get .up port

/-- Some Plovlan port is retraining (R291). -/
def Sys.retraining (y : Sys) : Bool :=
  (List.range 16).any fun p =>
    match y.link p with
    | .retraining _ => true
    | _ => false

/-- The key of a byte of peer memory. -/
def peerKey (peer addr : Nat) : Nat := peer * 2 ^ 57 + addr

/-- The peer and address behind a physical address, if an aperture that is valid. -/
def HostSide.peerOf (h : HostSide) (pa : Nat) : Option (Nat × Nat) :=
  match aperture pa with
  | some (i, off) => if i < 15 then (h.peer i).map fun p => (p.1, p.2 + off) else none
  | none => none

/-- Bytes of peer memory, with the writes still held for its port in front. -/
def State.peerBytes (s : State) (peer addr n : Nat) : List Byte :=
  let held := s.sys.held.filter fun h => h.port = peerPort peer
  (List.range n).map fun i =>
    held.foldl (fun b h =>
      if h.pa ≤ peerKey peer (addr + i) && peerKey peer (addr + i) < h.pa + h.data.length then
        h.data.getD (peerKey peer (addr + i) - h.pa) b
      else b) (s.sys.peerMem.get 0 (peerKey peer (addr + i)))

/-- The frame of a byte of peer memory. -/
def peerFrame (key : Nat) : Nat := key / 65536

/-- The filled copy of a peer line whose tag matches the version fetched last for its frame (R154, R308, R388). -/
def Sys.peerLine (y : Sys) (key : Nat) : Option PeerLine :=
  y.peerLines.find? fun x => x.key = key / 128 && x.version = y.peerSeen.get 0 (peerFrame key)

/-- Reads bytes of one line of a peer: a sealed line is filled with its version tag, which is fetched with it, and read from
the copy until another version is fetched for its frame; an unsealed one is never filled (R388). -/
def State.peerRead (s : State) (peer addr n : Nat) : List Byte × State :=
  let key := peerKey peer addr
  let v := s.sys.peerSeals.get 0 (peerFrame key)
  match s.sys.peerLine key with
  | some x => ((List.range n).map fun i => x.data.extractLsb' (8 * (key % 128 + i)) 8, s)
  | none =>
      let bytes := s.peerBytes peer addr n
      if v = 0 then (bytes, s)
      else
        let line : PeerLine :=
          { key := key / 128, version := v,
            data := BitVec.ofNat 1024 (fromBytes (s.peerBytes peer (addr - key % 128) 128)) }
        (bytes, { s with sys := { s.sys with
          peerLines := s.sys.peerLines.filter (fun x => x.key ≠ key / 128) ++ [line],
          peerSeen := Sparse.put 0 s.sys.peerSeen (peerFrame key) v } })

/-- A system-scope acquire fetches the current versions of the frames with filled lines (R308, R388). -/
def Sys.fetchVersions (y : Sys) : Sys :=
  { y with peerSeen := y.peerLines.foldl (fun m x => Sparse.put 0 m (x.key / 512) (y.peerSeals.get 0 (x.key / 512))) y.peerSeen }

/-- Writes bytes of peer memory at a key. -/
def Sys.setPeer (y : Sys) (key : Nat) : List Byte → Sys
  | [] => y
  | b :: t => Sys.setPeer { y with peerMem := Sparse.put 0 y.peerMem key b } (key + 1) t

/-- Discarded writes are counted by context and port: Plovlan ports 0-15, host ports 16 and 17 (R291). -/
def droppedKey (asid : Asid) (port : Nat) : Nat := asid.toNat * 32 + port

/-- A write towards a port that is down is discarded. -/
def Sys.dropWrite (y : Sys) (asid : Asid) (port n : Nat) : Sys :=
  { y with dropped := Sparse.upd 0 y.dropped (droppedKey asid port) (· + n) }

/-- The event of writes that a port discards (R291, R385). -/
def discardedWrites (port n : Nat) : Event := { kind := 7, info := BitVec.ofNat 64 n, value := BitVec.ofNat 64 (2 ^ port) }

/-- A write towards a peer: performed, held while the port retrains, discarded at a down port (R291). -/
def State.peerWrite (s : State) (asid : Asid) (peer addr : Nat) (data : List Byte) : State :=
  let port := peerPort peer
  let key := peerKey peer addr
  let s : State := { s with sys := { s.sys with peerLines := s.sys.peerLines.filter fun x => x.key ≠ key / 128 } }
  match s.sys.link port with
  | .up => { s with sys := s.sys.setPeer key data }
  | .retraining _ =>
      { s with sys := { s.sys with held := s.sys.held ++ [{ port := port, asid := asid, pa := key, data := data }] } }
  | .down => ({ s with sys := s.sys.dropWrite asid port 1 } : State).event (discardedWrites port 1)

end Sys2Proof.Machine
end

