-- ==== Sys2Proof/Machine/Cache.lean ====
section
/-! DEFINITION. The L1 with its byte masks (R109, R110, R299), where an access finds its page (R10, R99, R100, R107), parking
a store's line (R112, R123), and the reads and writes of one line. -/

namespace Sys2Proof.Machine

/-! ### The L1 -/

/-- An ordinary L1 line of a core. -/
def Sys.l1Find (y : Sys) (c : Nat) (asid : Asid) (line : Nat) : Option L1Line :=
  (y.core c).l1.find? fun l => l.asid = asid && l.line = line

/-- Drops an ordinary line. -/
def Sys.l1Drop (y : Sys) (c : Nat) (asid : Asid) (line : Nat) : Sys :=
  y.updCore c fun k => { k with l1 := k.l1.filter fun l => !(l.asid = asid && l.line = line) }

/-- Puts a line in front: the most recently used. -/
def Sys.l1Put (y : Sys) (c : Nat) (l : L1Line) : Sys :=
  (y.l1Drop c l.asid l.line).updCore c fun k => { k with l1 := l :: k.l1 }

/-- Writes a line's masked bytes, and the tags of the granules they touch, to memory. -/
def Sys.writeMasked (y : Sys) (pa : Nat) (d : BitVec 1024) (m : BitVec 128) (tags : BitVec 8) : Sys :=
  let y := (bitList 128 m.toNat).foldl (fun y i => y.setByte (pa + i) (lineByte d i)) y
  (granules m).foldl (fun y g => if tags.getLsbD g then y.setTag (pa + 16 * g) true else y) y

/-- The dirty bytes of a line as lanes. -/
def L1Line.lanes (l : L1Line) : List LogLane := lineLanes l.line l.data l.tags l.dirty

/-- The leaf under which a line was filled. -/
def L1Line.leaf (l : L1Line) : Leaf := { pa := l.pa / 65536 * 65536, rights := l.rights }

/-- Writes a line's dirty bytes to the cluster cache under their mask (R110); a cluster that does not hold the line fetches
it, and where its memory has an error the bytes enter the side log (R107). Forwarded to a parked line, they count for the
crew whose action writes them back (DESIGN CHOICE, log 57). -/
def State.writeBack (s : State) (w : Who) (l : L1Line) : State :=
  if l.dirty = 0 then s
  else if s.sys.isBad l.pa && !(s.sys.entry l.asid l.line).held then
    { s with sys := s.sys.logBad w l.asid l.pa l.lanes }
  else
    let s := s.dirWrite { w with asid := l.asid } l.leaf 0 (l.line * 128) l.dirty
    { s with sys := s.sys.writeMasked l.pa l.data l.dirty l.tags }

/-- The line a full set gives up: the lowest retention class, the least recently used of it (R109). -/
def victim (set : Nat) (l : List L1Line) : Option L1Line :=
  let inSet := l.filter fun x => x.line % Config.l1Sets = set
  match minList (inSet.map fun x => x.keep) with
  | none => none
  | some k => (inSet.filter fun x => x.keep = k).getLast?

/-- A set of a core's L1 keeps to so many ways: an ordinary line is written back and leaves it (R109). -/
def State.l1Trim (s : State) (w : Who) (c line ways : Nat) : State :=
  let set := line % Config.l1Sets
  let lines := (s.sys.core c).l1
  if (lines.filter fun x => x.line % Config.l1Sets = set).length + s.sys.parkedWays c line ≤ ways then s
  else
    match victim set lines with
    | none => s
    | some v =>
        let s := s.writeBack { w with core := c, eject := false, engine := false } v
        { s with sys := s.sys.l1Drop c v.asid v.line }

/-- Makes room for a line in its set. -/
def State.l1Room (s : State) (w : Who) (line : Nat) : State := s.l1Trim w w.core line (Config.l1Ways - 1)

/-- A line written back and dropped from a core's L1. -/
def State.l1Expel (s : State) (w : Who) (c : Nat) (asid : Asid) (line : Nat) : State :=
  match s.sys.l1Find c asid line with
  | none => s
  | some l =>
      let s := s.writeBack { w with core := c, eject := false, engine := false } l
      { s with sys := s.sys.l1Drop c asid line }

/-- Release at cluster scope or wider: every dirty byte of the L1 is written back (R110). -/
def State.l1Release (s : State) (w : Who) : State :=
  let lines := (s.sys.core w.core).l1
  let s := lines.foldl (fun s l => s.writeBack w l) s
  { s with sys := s.sys.updCore w.core fun k => { k with l1 := k.l1.map fun l => { l with dirty := 0 } } }

/-- Acquire at cluster scope or wider: clean lines are dropped, dirty ones keep their dirty bytes (R110, R299). -/
def State.l1Acquire (s : State) (w : Who) : State :=
  { s with sys := s.sys.updCore w.core fun k =>
      { k with l1 := (k.l1.filter fun l => l.dirty ≠ 0).map fun l => { l with valid := l.dirty } } }

/-- Release at die scope or wider: the cluster's V copies are written home (R118). -/
def Sys.dropV (y : Sys) (w : Who) (k : Nat) : Sys :=
  (y.dir.filter fun e => e.2.privatised.any fun x => x.1 = k).foldl (fun (y : Sys) e => y.evictCluster w k e.1) y

/-! ### Placing lines -/

/-- Moves a line to the park level of its readers: M and V copies are gathered first, the copy that a named core's L1 holds
besides is expelled, and an L1 set keeps its ways (R109, R112, R118, R122, R123). -/
def State.parkLine (s : State) (w : Who) (asid : Asid) (line pa : Nat) (bind : Bool) (p : Parked) : State :=
  let key := dirKey asid line
  match p.readers.unit with
  | none => { s with sys := s.sys.settle w key }
  | some u =>
      let s := match u with
        | .l1 c => s.l1Expel w c asid line
        | _ => s
      let s : State := { s with sys := (s.sys.gather w key).place w placeFuel key pa bind { p with place := u } }
      match u with
      | .l1 c => s.l1Trim w c line Config.l1Ways
      | _ => s

/-- A clean copy of a line at a unit (R114): an ordinary copy of its caches. -/
def State.cleanCopy (s : State) (w : Who) (l : Leaf) (policy line : Nat) (u : ParkUnit) : State :=
  let key := dirKey w.asid line
  let pa := l.addr (line * 128)
  let c : Copy := { rights := l.rights, keep := keepOf policy }
  match u with
  | .l1 n =>
      let s := (s.l1Expel w n w.asid line).l1Trim w n line (Config.l1Ways - 1)
      let x : L1Line :=
        { asid := w.asid, line := line, pa := pa, data := s.sys.lineData pa, valid := BitVec.allOnes 128, dirty := 0,
          tags := s.sys.lineTags pa, rights := l.rights, keep := keepOf policy }
      { s with sys := s.sys.l1Put n x }
  | .cluster k => { s with sys := s.sys.fillCluster w k key pa c }
  | _ =>
      let slices := (u.stores (keyHome key)).map fun x => x - 2000
      { s with sys := slices.foldl (fun (y : Sys) d => y.fillSlice w d key pa c) s.sys }

/-- A store's reader set places its line (R123): the same set leaves it where it is; the set of a kept reservation parks it
reserved again. The host's is written through to memory, and its other members get a clean copy (R112, R114). POLICY gives
the retention priority, 3 and 4 as 0 (R52). Writers under a former set are forgotten, and sets are compared as written (log 57). -/
def State.parkStore (s : State) (w : Who) (l : Leaf) (policy va : Nat) (set : BitVec 16) (r : Readers) : State :=
  let line := va / 128
  let key := dirKey w.asid line
  let e := s.sys.entry w.asid line
  let fresh : Parked :=
    { place := .home, set := set, readers := r, reserved := false, age := 0, writers := [w.core], rights := l.rights,
      keep := keepOf policy }
  match r with
  | .host copy =>
      let y := (s.sys.gather w key).settle w key
      let y := y.setEntry w.asid line { y.entry w.asid line with reservation := none }
      let s : State := { s with sys := y.toMemory w key (BitVec.allOnes 128) }
      match copy with
      | some u => s.cleanCopy w l policy line u
      | none => s
  | _ =>
      match e.parked with
      | some p =>
          if p.set = set && p.readers = r then
            let p := if p.writers.contains w.core then p else { p with writers := p.writers ++ [w.core] }
            { s with sys := s.sys.setEntry w.asid line { e with parked := some { p with keep := keepOf policy } } }
          else s.parkLine w w.asid line (l.line va) true fresh
      | none =>
          let again := e.reservation = some set
          let s := { s with sys := s.sys.setEntry w.asid line { e with reservation := none } }
          s.parkLine w w.asid line (l.line va) true { fresh with reserved := again }

/-- A directory entry after every copy has gone home and is dropped; a reservation is kept (R123). -/
def DirEntry.expelled (e : DirEntry) : DirEntry :=
  { reservation := match e.parked with
      | some p => if p.reserved then some p.set else e.reservation
      | none => e.reservation }

/-- The agent of the home slice's own write-backs. -/
def homeWho (key : Nat) : Who :=
  { core := keyHome key * 48, engine := true, crew := 0, asid := keyAsid key, priv := true }

/-- A host or peer write of `n` bytes of one line lands at the home: copies are gathered and invalidated, a reservation is
kept (R118, R123, R306). -/
def Sys.outsideWrite (y : Sys) (pa n : Nat) : Sys :=
  (y.dir.filter fun e => e.2.held && e.2.pa = pa / 128 * 128).foldl (fun (y : Sys) e =>
    let y := y.toMemory (homeWho e.1) e.1 (~~~byteMask (pa % 128) n)
    let e' : DirEntry := y.dir.get {} e.1
    { y with dir := Sparse.put {} y.dir e.1 e'.expelled }) y

/-! ### Accesses within one line -/

/-- The permission bits an access finds beyond its L1 (R10, R99, R113): those of its cluster cache, of its own die's slice, of
the parked copy, of the home slice, or of the copy that the home collects. -/
def DirEntry.found (e : DirEntry) (w : Who) (home : Nat) : Option Rights :=
  let rights (c : Nat) : Option Rights := (e.copy c).map fun x => x.rights
  (rights (ccOf w.cluster)).or ((rights (sliceOf w.die)).or ((e.parked.map fun p => p.rights).or
    ((rights (sliceOf home)).or (e.copies.head?.map fun x => x.2.rights))))

/-- The line an access reaches without a translation: its own L1's, or one that a cache holds (R10). -/
def Sys.reached (y : Sys) (w : Who) (va : Nat) : Option Leaf :=
  match if w.noL1 then none else y.l1Find w.core w.asid (va / 128) with
  | some l => some l.leaf
  | none =>
      let e := y.entry w.asid (va / 128)
      (e.found w (homeDie va)).map fun r => { pa := e.pa / 65536 * 65536, rights := r }

/-- The upgrade of a line to W (R99). -/
def Sys.upgrade (y : Sys) (asid : Asid) (line : Nat) : Sys :=
  let e := y.entry asid line
  y.setEntry asid line { e with
    copies := e.copies.map fun x => (x.1, { x.2 with rights := { x.2.rights with w := true } }),
    parked := e.parked.map fun p => { p with rights := { p.rights with w := true } } }

/-- The translation home's answer (R99, R100, R388). -/
def State.viaHome (s : State) (w : Who) (acc : Access) (va : Nat) : Except XFault (Leaf × State) :=
  match s.sys.translate w.asid va acc w.priv with
  | .error e => .error e
  | .ok (l, y) =>
      let s := { s with sys := y }
      match aperture (l.addr va) with
      | none => .ok (l, s)
      | some (i, _) =>
          if i = 15 then .ok (l, s)
          else
            match s.host.peer i with
            | none => .error .peer
            | some (p, a) =>
                if s.sys.peerRefused.contains (peerFrame (peerKey p (a + l.addr va % 2 ^ 30))) ||
                  (s.sys.link (peerPort p) = .down && (accReads acc || acc = .fetch)) then .error .peer
                else .ok (l, s)

/-- Where an access finds its page: a line that a cache holds with the rights it needs, or the translation home (R10, R99,
R100). A line without W keeps its frame and takes the rights of the upgrade. -/
def State.page (s : State) (w : Who) (acc : Access) (va : Nat) : Except XFault (Leaf × State) :=
  match s.sys.reached w va with
  | none => s.viaHome w acc va
  | some l =>
      if (l.rights.lacks acc w.priv).isNone then .ok (l, s)
      else
        match s.viaHome w acc va with
        | .error e => .error e
        | .ok (l', s) =>
            .ok ({ l with rights := l'.rights }, if accWrites acc then { s with sys := s.sys.upgrade w.asid (va / 128) } else s)

/-- An access needs the bytes of memory of a line: no cache holds it, and its own L1 lacks some of `n` bytes. -/
def Sys.needsMemory (y : Sys) (w : Who) (va n : Nat) : Bool :=
  !(y.entry w.asid (va / 128)).held &&
    (w.noL1 || !(y.l1Find w.core w.asid (va / 128)).any fun x => byteMask (va % 128) n &&& ~~~x.valid = 0)

/-- The access needs the bytes of a line with an uncorrectable error (R107). -/
def State.meetsError (s : State) (w : Who) (acc : Access) (l : Leaf) (va n : Nat) : Bool :=
  (accReads acc || acc = .fetch) && s.sys.isBad (l.addr va) && s.sys.needsMemory w va n

/-- The page of an access whose memory gives its bytes (R99, R100, R107): an engine's goes to the firmware path (R188). -/
def State.leaf (s : State) (w : Who) (acc : Access) (va : Nat) (n : Nat := 128 - va % 128) : Except XFault (Leaf × State) :=
  match s.page w acc va with
  | .error e => .error e
  | .ok (l, t) => if s.meetsError w acc l va n then .error (.memError (acc ≠ .engineRead)) else .ok (l, t)

/-- A line's clean bytes leave the L1: a read has passed them by (R277). -/
def Sys.l1Stale (y : Sys) (c : Nat) (x : L1Line) : Sys :=
  if x.dirty = 0 then y.l1Drop c x.asid x.line else y.l1Put c { x with valid := x.dirty }

/-- Reads `n` bytes inside one line (R52, R110, R113, R119). -/
def State.readPart (s : State) (w : Who) (l : Leaf) (policy va n : Nat) : List Byte × State :=
  let pa := l.addr va
  let off := va % 128
  let m := byteMask off n
  match aperture pa with
  | some _ =>
      match s.host.peerOf pa with
      | some (p, a) => s.peerRead p a n
      | none => (List.replicate n 0, s)
  | none =>
      if w.noL1 then (s.sys.bytes pa n, s.dirRead w l policy va m)
      else
        let base := pa - off
        match s.sys.l1Find w.core w.asid (va / 128) with
        | some x =>
            if m &&& ~~~x.valid = 0 then
              ((List.range n).map fun i => lineByte x.data (off + i), { s with sys := s.sys.l1Put w.core x })
            else
              let s := s.dirRead w l policy va m
              let dm := (bitList 128 x.dirty.toNat).foldl (fun (d : BitVec 1024) i => lineWrite d i [lineByte x.data i])
                (s.sys.lineData base)
              let bytes := (List.range n).map fun i => lineByte dm (off + i)
              if 3 ≤ policy then (bytes, { s with sys := s.sys.l1Stale w.core x })
              else
                let dg := granules x.dirty
                let tags := (List.range 8).foldl (fun (t : BitVec 8) g =>
                  if (if dg.contains g then x.tags.getLsbD g else s.sys.tag (base + 16 * g)) then t ||| (1 <<< g) else t) 0
                let x := { x with data := dm, valid := BitVec.allOnes 128, tags := tags, keep := keepOf policy }
                (bytes, { s with sys := s.sys.l1Put w.core x })
        | none =>
            let bytes := s.sys.bytes pa n
            if (s.sys.parked w.asid (va / 128)).any (fun p => p.place = .l1 w.core) then (bytes, s)
            else
              let s := s.dirRead w l policy va m
              if 3 ≤ policy then (bytes, s)
              else
                let s := s.l1Room w (va / 128)
                let x : L1Line :=
                  { asid := w.asid, line := va / 128, pa := base, data := s.sys.lineData base,
                    valid := BitVec.allOnes 128, dirty := 0, tags := s.sys.lineTags base, rights := l.rights,
                    keep := keepOf policy }
                (bytes, { s with sys := s.sys.l1Put w.core x })

/-- The tag of a granule as an agent sees it (R92): bytes its L1 has written without a tag clear it. -/
def State.readGranule (s : State) (w : Who) (l : Leaf) (va : Nat) : Bool :=
  let g := va % 128 / 16
  match if w.noL1 then none else s.sys.l1Find w.core w.asid (va / 128) with
  | some x =>
      if x.valid.extractLsb' (g * 16) 16 = 0xFFFF then x.tags.getLsbD g
      else x.dirty.extractLsb' (g * 16) 16 = 0 && s.sys.tag (l.addr va)
  | none => s.sys.tag (l.addr va)

/-- Puts bytes where every reader beyond the L1s finds them; `tag` sets the granule's tag, and any other write clears it
(R92). -/
def Sys.putBytes (y : Sys) (pa : Nat) (data : List Byte) (tag : Bool) : Sys :=
  let y := y.setBytes pa data
  if tag then y.setTag pa true else y

/-- Writes bytes of kind none past the L1. -/
def State.writeThrough (s : State) (w : Who) (l : Leaf) (policy va : Nat) (data : List Byte) (tag : Bool) : State :=
  let s := s.dirWrite w l policy va (byteMask (va % 128) data.length)
  { s with sys := s.sys.putBytes (l.addr va) data tag }

/-- Writes the bytes of a store with a reader set, ordered at the home: privatised copies are merged and clean ones
invalidated (R118, R126). A parked line is written at its unit, and nothing is counted (R119). -/
def State.setWrite (s : State) (w : Who) (l : Leaf) (va : Nat) (data : List Byte) (tag : Bool) : State :=
  { s with sys := (s.sys.dirHome w l va (byteMask (va % 128) data.length)).putBytes (l.addr va) data tag }

/-- A 4-byte store at offset 0 of a doorbell page of aperture 15 sets the send-ring tail of its pair (R389); no other
access there has an effect. -/
def State.nicStore (s : State) (off : Nat) (data : List Byte) : State :=
  if off % 65536 = 0 && data.length = 4 && off / 65536 < 4096 then
    { s with nic := Sparse.upd {} s.nic (off / 65536) fun q => { q with tail := BitVec.ofNat 32 (fromBytes data) } }
  else s

/-- Writes bytes inside one line under readers (R52, R110, R112, R123, R137, R388). -/
def State.writePart (s : State) (w : Who) (l : Leaf) (policy : Nat) (set : BitVec 16) (r : Readers) (va : Nat)
    (data : List Byte) (tag : Bool) : State :=
  let pa := l.addr va
  let off := va % 128
  let line := va / 128
  match s.host.peerOf pa with
  | some (p, a) => s.peerWrite w.asid p a data
  | none =>
      if !isMemory pa then s.nicStore (pa % 2 ^ 30) data
      else if r ≠ .none then
        let s := if w.noL1 then s else s.l1Expel w w.core w.asid line
        (s.setWrite w l va data tag).parkStore w l policy va set r
      else if w.noL1 || (s.sys.parked w.asid line).any (fun p => p.place = .l1 w.core) then
        s.writeThrough w l policy va data tag
      else if 3 ≤ policy || (s.sys.parked w.asid line).any (fun p => !p.place.onPath w (homeDie va)) then
        (s.l1Expel w w.core w.asid line).writeThrough w l policy va data tag
      else
        let m := byteMask off data.length
        let s := if (s.sys.l1Find w.core w.asid line).isNone then s.l1Room w line else s
        let x := (s.sys.l1Find w.core w.asid line).getD
          { asid := w.asid, line := line, pa := pa - off, data := 0, valid := 0, dirty := 0, tags := 0,
            rights := l.rights, keep := keepOf policy }
        let gm : BitVec 8 := (granules m).foldl (fun (t : BitVec 8) g => t ||| (1 <<< g)) 0
        let x :=
          { x with data := lineWrite x.data off data, valid := x.valid ||| m, dirty := x.dirty ||| m,
                   tags := if tag then x.tags ||| gm else x.tags &&& ~~~gm, rights := l.rights }
        { s with sys := s.sys.l1Put w.core x }

end Sys2Proof.Machine
end

