-- ==== Sys2Proof/Machine/Ops.lean ====
section
/-! DEFINITION. The operations many steps share: taking a trap and returning from it (R358-R363, R371), suspending and
killing (R373), waits, releases and acquires (R110, R118, R281), the side log (R103-R106), the handle table
(R177-R180) and the ends of strands (R322). -/

namespace Sys2Proof.Machine

/-! ### Ends of strands and slots -/

/-- Removes strands from every open ejection group (R309, R321). -/
def Gang.leaveGroups (g : Gang) (m : Mask) : Gang :=
  { g with groups := g.groups.map fun r => { r with members := r.members &&& ~~~m } }

/-- Strands become DONE (R309, R322). -/
def Gang.finish (g : Gang) (m : Mask) : Gang :=
  (g.mapStrands m fun x => { x with st := .done }).leaveGroups m

/-- The gangs of an issue slot, ejected strands apart. -/
def State.slotGangs (s : State) (core slot : Nat) : List Gang :=
  s.allGangs.filter fun g => g.ej.isNone && g.slot = slot && (s.findCrew g.crewId).core = core

/-- The earliest arrival of a list of gangs. -/
def firstArrival (l : List Gang) : Option Gang :=
  match minList (l.map fun g => g.arrival) with
  | none => none
  | some a => l.find? fun g => g.arrival = a

/-- Fills the free places of a slot's active set from its pending set (R328, R330). -/
def State.promote (s : State) (core slot : Nat) : Nat → State
  | 0 => s
  | n + 1 =>
      let gs := (s.slotGangs core slot).filter fun g => !g.left
      if (gs.filter fun g => g.active).length < Config.activePerSlot then
        match firstArrival (gs.filter fun g => !g.active) with
        | none => s
        | some g => (s.updGang g.id fun g => { g with active := true }).promote core slot n
      else s

/-- A gang whose strands are all DONE leaves its issue slot (R322). -/
def State.leaveSlot (s : State) (id : Nat) : State :=
  let g := s.findGang id
  if g.live = 0 && !g.left && g.ej.isNone then
    (s.updGang id fun g => { g with left := true, active := false }).promote (s.findCrew g.crewId).core g.slot
      Config.activePerSlot
  else s

/-- The priority tokens a gang holds become unheld (R270). -/
def State.dropToken (s : State) (core gang : Nat) : State :=
  { s with sys := s.sys.updCore core fun k => { k with prio := k.prio.filter fun e => e.2 ≠ gang } }

/-- A gang without live strands leaves its slot and drops its token (R270, R322, R328). -/
def State.retireGang (s : State) (id : Nat) : State :=
  if (s.findGang id).live = 0 then (s.dropToken (s.findCrew (s.findGang id).crewId).core id).leaveSlot id else s

/-- The strand an ejected gang runs. -/
def Ejection.mask (e : Ejection) : Mask := 1 <<< e.strand

/-- A strand on a marionette that stands at its rejoin PC is on its way back (R309). -/
def Gang.rejoins (g : Gang) : Gang :=
  match g.ej with
  | some e =>
      if (g.strand e.strand).st = .ej && (g.strand e.strand).pc = e.rejoin then
        g.mapStrands e.mask fun x => { x with st := .back }
      else g
  | none => g

/-- The parent shows an ejected strand's state. -/
def State.showEjected (s : State) (id : Nat) : State :=
  let g := s.findGang id
  match g.ej with
  | some e => s.updGang e.parent fun p => p.mapStrands e.mask fun x => { x with st := (g.strand e.strand).st }
  | none => s

/-- An ejected strand that has reached its rejoin PC is on its way back; its gang shows its state (R309). -/
def State.showBack (s : State) (id : Nat) : State := (s.updGang id Gang.rejoins).showEjected id

/-- A held instruction of the gang in focus goes on to the next PC where it is complete; an ejected strand may have reached its
rejoin PC there (R309). -/
def State.finishHeld (r : State × Bool) : State :=
  if r.2 then
    let t := r.1.advance
    if t.gang.ej.isSome then t.showBack t.gang.id else t
  else r.1

/-! ### Choosing among gangs -/

/-- The gangs of a list for which a number is greatest. -/
def greatest (f : Gang → Nat) (l : List Gang) : List Gang := l.filter fun g => f g = maxList (l.map f)

/-- The gangs of a list for which a number is least. -/
def least (f : Gang → Nat) (l : List Gang) : List Gang := l.filter fun g => minList (l.map f) = some (f g)

/-! ### Release and acquire -/

/-- A strand of the crew is on its way to a marionette, on one, or on its way back (R110). -/
def State.crewEjected (s : State) (crew : Nat) : Bool :=
  (s.gangsOf crew).any fun g => g.ej.isNone && g.inState (fun x => x = .out || x = .ej || x = .back) ≠ 0

/-- A release or acquire at this scope acts on the caches as at cluster scope (R110). -/
def State.cacheScope (s : State) (w : Who) (scope : Nat) : Bool :=
  3 ≤ scope || (1 ≤ scope && (w.eject || s.crewEjected w.crew))

/-- The cache actions of a release (R110, R118): an ejected strand's acts on the L1 of its gang's core too. -/
def State.release (s : State) (w : Who) (scope : Nat) : State :=
  let s := if s.cacheScope w scope && !w.engine then s.l1Release { w with eject := false } else s
  if 4 ≤ scope then { s with sys := s.sys.dropV w w.cluster } else s

/-- The cache actions of an acquire (R110), and the peers' versions at system scope (R388). -/
def State.acquire (s : State) (w : Who) (scope : Nat) : State :=
  let s : State := if scope = 6 then { s with sys := s.sys.fetchVersions } else s
  if s.cacheScope w scope && !w.engine then s.l1Acquire w else s

/-! ### The side log -/

/-- The strands of a gang with side-log entries, on whatever core it made them (R105, R290). -/
def State.loggedStrands (s : State) (gang : Nat) : Mask :=
  (s.sys.cores.flatMap fun c => c.2.log).foldl (fun m e => if e.gangId = gang then m ||| e.strands else m) 0

/-- The gang that side-log entries of the gang in focus name: the parent of an ejected strand (R317). -/
def State.logGang (s : State) : Nat :=
  match s.gang.ej with
  | some e => e.parent
  | none => s.gang.id

/-- A release of these strands waits for their side-log entries (R105). -/
def State.logBlocked (s : State) (m : Mask) : Bool := s.loggedStrands s.logGang &&& m ≠ 0

/-- The pages of a lane's bytes: more than one for a word that a STITCH list splits. -/
def LogLane.pages (x : LogLane) : List Nat := x.va.toNat / 65536 :: x.rest.map fun p => p.1 / 65536

/-- A page has entries in a core's log (R104). -/
def State.pageLogged (s : State) (core : Nat) (asid : Asid) (page : Nat) : Bool :=
  (s.sys.core core).log.any fun e => e.asid = asid && (e.page = page || e.lanes.any fun x => x.pages.contains page)

/-- A page has entries that the gang in focus made on another core, before it was pre-empted there (R106, R278). -/
def State.pageMoved (s : State) (asid : Asid) (page : Nat) : Bool :=
  s.sys.cores.any fun c => c.1 ≠ s.core && c.2.log.any fun e =>
    e.gangId = s.logGang && e.asid = asid && (e.page = page || e.lanes.any fun x => x.pages.contains page)

/-- The log has no free entry (R103). -/
def State.logFull (s : State) (core : Nat) : Bool := Config.sideLogEntries ≤ (s.sys.core core).log.length

/-- Appends an entry to a core's log. -/
def State.logAppend (s : State) (core : Nat) (e : LogEntry) : State :=
  { s with sys := s.sys.updCore core fun k => { k with log := k.log ++ [e] } }

/-- Entries enter the logs of their cores as far as there is room, in order; the rest is given back. -/
def State.returnEntries (s : State) : List LogEntry → List LogEntry × State
  | [] => ([], s)
  | e :: rest =>
      if s.logFull e.core then
        let (l, t) := s.returnEntries rest
        (e :: l, t)
      else (s.logAppend e.core e).returnEntries rest

/-- A store's entries enter the log, the first ones as far as there is room; the gang holds with the rest (R103; that those
which fit enter first is a DESIGN CHOICE, log 53). -/
def State.enterLog (s : State) (l : List LogEntry) : State × Bool :=
  let (rest, t) := s.returnEntries l
  if rest.isEmpty then (t, true) else (t.wait (.logRoom rest), false)

/-- A record that covers the writes of the gang in focus before its trap: a release of them at system scope, which its logged
stores hold back (R105, R304). -/
def State.report (s : State) (e : Event) : State :=
  let s := s.release s.who 6
  if s.loggedStrands s.logGang = 0 then s.event e
  else { s with host := { s.host with deferred := s.host.deferred ++ [(s.logGang, e.record)] } }

/-- Records whose gang has no logged stores left are written. -/
def State.flushRecords (s : State) : State :=
  let ready := s.host.deferred.filter fun e => s.loggedStrands e.1 = 0
  if ready.isEmpty then s
  else
    ready.foldl (fun (s : State) e => s.pushRecord .event e.2)
      { s with host := { s.host with deferred := s.host.deferred.filter fun e => s.loggedStrands e.1 ≠ 0 } }

/-! ### Killing and suspending -/

/-- A gang whose strands are all DONE, with nothing left to wait for (R309, R321, R373). -/
def Gang.kill (g : Gang) : Gang :=
  { g.mapStrands (BitVec.allOnes 32) (fun x => { x with st := .done }) with
    hold := none, suspended := .no, groups := [], pair := false, discarded := [] }

/-- Every strand of a crew is DONE: ejected strands are dropped, the gangs leave their slots at once (R321, R328). -/
def State.endGangs (s : State) (crew : Nat) : State :=
  (s.gangsOf crew).foldl (fun (s : State) g =>
    if g.ej.isSome then s.removeGang g.id else (s.updGang g.id Gang.kill).retireGang g.id) s

/-- Kills a crew (R373): every strand DONE, every pending operation cancelled (R184, R321). -/
def State.killCrew (s : State) (crew : Nat) (cause : Word) : State :=
  let s := s.endGangs crew
  let s : State := { s with ops := s.ops.map fun o => if o.crewId = crew then { o with cancel := true } else o }
  s.updCrew crew fun c => if c.ended = .running then { c with ended := .killed cause } else c

/-- The event record of a gang's escalation or of a trap in its handler (R363, R373, R374). -/
def State.gangEvent (s : State) (kind cause2 : Nat) (outside : Bool) (value : Dword) : Event :=
  let g := s.gang
  { kind := kind, cause := if outside then 0 else g.trapCause.toNat % 256, cause2 := cause2,
    flags := g.trapCause.toNat / 256 + (if outside then 2 else 0), asid := s.crew.asid, gang := g.idx,
    crew := s.crew.number, pc := if outside then nextPc s.ipc else g.trapPc, info := if outside then 0 else g.trapInfo,
    run := if outside then s.run else g.trapRun, value := value }

/-- HALT.WAIT in handler mode, or for want of a handler: an event of KIND 1, and the gang is suspended (R361, R373). -/
def State.suspend (s : State) (value : Dword) : State :=
  let s := s.report (s.gangEvent 1 0 false value)
  { s with gang := { s.gang with suspended := .inHandler, priv := true, hold := none } }

/-! ### Taking a trap -/

/-- The registers the handler has its own copies of (R362). -/
def bankedS : List Nat := [56, 57, 58, 59, 60, 61, 62, 63]
def bankedP : List Nat := [4, 5, 6]
/-- The tags of s56-s63. -/
def bankedTags : BitVec 32 := 0xF0000000

/-- The results in flight to registers that are not banked. -/
def unbankedShadows (l : List Shadow) : List Shadow :=
  l.filter fun x =>
    match x.old with
    | .s n _ => n < 56
    | .tag k _ => k < 28
    | .p n _ _ => n < 4
    | _ => true

/-- The scoreboard marks of registers that are not banked. -/
def unbankedMarks (l : List RegName) : List RegName :=
  l.filter fun r =>
    match r with
    | .s n => n < 56
    | .p n => n < 4
    | _ => true

/-- A table with the entries of some keys replaced by those of another. -/
def takeKeys {α : Type} [DecidableEq α] (d : α) (keys : List Nat) (m from' : Sparse α) : Sparse α :=
  keys.foldl (fun m k => Sparse.put d m k (Sparse.get d from' k)) m

/-- The gang enters its handler at a PC: its own copies of the banked registers are set aside and the handler's are zero
(R361, R362). Every earlier result has taken effect (R358). -/
def Gang.enterHandler (g : Gang) (pc : Pc) : Gang :=
  { g with
    handler := some { pc := pc, s := takeKeys 0 bankedS [] g.s, tags := g.stags &&& bankedTags,
                      p := takeKeys 0 bankedP [] g.p, ids := takeKeys none bankedS [] g.handleIds },
    s := takeKeys 0 bankedS g.s [], stags := g.stags &&& ~~~bankedTags, p := takeKeys 0 bankedP g.p [],
    handleIds := takeKeys none bankedS g.handleIds [], shadows := [], marks := [], quick := [], priv := true,
    hold := none, pushSince := none, pair := false, alone := false }

/-- Takes a trap with a cause, TRAPINFO, TRAPPC and TRAPRUN (R358, R361). An ejected strand is handed back with its cause
(R321). A cause in handler mode is reported and kills the crew (R363). Without a handler the gang is suspended. -/
def State.trapAt (s : State) (cause : BitVec 8) (info : Dword) (pc : Pc) (run : Mask) (ej : Bool) : State :=
  match s.gang.ej with
  | some e =>
      { s with gang := { s.gang.mapStrands s.run (fun x => { x with st := .back, pc := s.ipc }) with
          ej := some { e with cause := some (cause, info, pc) }, hold := none } }
  | none =>
      if s.inHandler then
        let s := s.report (s.gangEvent 2 cause.toNat false 0)
        s.killCrew s.gang.crewId (BitVec.ofNat 32 (s.gang.trapCause.toNat % 256 + cause.toNat * 256 + 65536))
      else
        let vec := (s.sys.ctxD s.crew.asid).trapvec
        let g := { s.gang with trapCause := BitVec.ofBool ej ++ cause, trapPc := pc &&& 0x01FFFFFFFFFFFFFF, trapInfo := info,
                               trapRun := run }
        let s := { s with gang := g.enterHandler (BitVec.ofNat 64 (bitsAt vec.toNat 6 51 * 64)) }
        if vec.getLsbD 0 then s else s.suspend 0

/-- A trap of the issued run at the instruction (R358). -/
def State.trap (s : State) (cause : BitVec 8) (info : Dword) : State := s.trapAt cause info s.ipc s.run false

/-- The gang leaves its handler: its own banked registers return, the mode of its launch, and the strands of TRAPRUN go to
TRAPPC (R371). The next instruction issues alone (R59). -/
def Gang.leaveHandler (g : Gang) (priv : Bool) : Gang :=
  match g.handler with
  | none => { g with suspended := .no }
  | some b =>
      let m := g.trapRun &&& g.live
      { g.mapStrands m (fun x => { x with pc := g.trapPc, via := if x.pc = g.trapPc then x.via else none }) with
        handler := none, s := takeKeys 0 bankedS g.s b.s, stags := (g.stags &&& ~~~bankedTags) ||| b.tags,
        p := takeKeys 0 bankedP g.p b.p, handleIds := takeKeys none bankedS g.handleIds b.ids,
        shadows := unbankedShadows g.shadows, marks := unbankedMarks g.marks, quick := unbankedMarks g.quick, priv := priv, suspended := .no,
        hold := none, pair := false, alone := true, located := dropLocated (fun pc => pc ≠ g.trapPc) m g.located }

/-- Return from a trap (R371): handles that named the handler's copies name no register any more. -/
def State.returnTrap (s : State) : State :=
  let s := s.updCrew s.gang.crewId fun c =>
    { c with handles := c.handles.map fun e =>
        if e.2.gang = s.gang.id && e.2.inHandler && 56 ≤ e.2.reg then (e.1, { e.2 with reg := 64 }) else e }
  { s with gang := s.gang.leaveHandler s.crew.priv }

/-! ### The checks before an instruction's own effect -/

/-- Cause codes (R357). -/
def cPrivileged : BitVec 8 := 0x06
def cBadTarget : BitVec 8 := 0x04
def cHandlerOp : BitVec 8 := 0x0A
def cEjectedCollective : BitVec 8 := 0x61
def cEjectedOp : BitVec 8 := 0x62

/-- What an instruction may not do: run outside privileged mode, in handler mode, or ejected. -/
structure Limits where
  op : Op
  priv : Bool := false
  handler : Bool := false
  ejected : Option (BitVec 8) := none
deriving DecidableEq, Repr

/-- The cause of an instruction that may not run here: PRIVILEGED, HANDLER_OP, an ejected strand's cause
(R61, R317, R362). -/
def State.barred (s : State) (l : Limits) : Option (BitVec 8 × Dword) :=
  if l.priv && !s.gang.priv then some (cPrivileged, (l.op.code).setWidth 64)
  else if l.handler && s.inHandler then some (cHandlerOp, 0)
  else
    match s.gang.ej, l.ejected with
    | some e, some c => some (c, BitVec.ofNat 64 (l.op.code.toNat + 256 * e.strand))
    | _, _ => none

/-- The instruction flows on to the next PC: at the last slot of the address space it takes BAD_TARGET (R41). -/
def State.flows (s : State) : Bool := nextPcOk s.ipc

/-- TRAPINFO of the missing next line (R41, R63). -/
def endOfSpace : Dword := 0x0200000000000000

/-- Runs an instruction's effect after the checks common to all, then goes on to the next PC. -/
def State.sequential (s : State) (l : Limits) (f : State → State) : Out :=
  match s.barred l with
  | some (c, i) => .next (s.trap c i)
  | none => if s.flows then .next (f s).advance else .next (s.trap cBadTarget endOfSpace)

/-- The same for an effect that may also trap or wait: the effect says whether the instruction is complete. -/
def State.attempt (s : State) (l : Limits) (f : State → State × Bool) : Out :=
  match s.barred l with
  | some (c, i) => .next (s.trap c i)
  | none =>
      if s.flows then
        let (t, complete) := f s
        .next (if complete then t.advance else t)
      else .next (s.trap cBadTarget endOfSpace)

/-- The same for an effect that sets the PCs itself. -/
def State.control (s : State) (l : Limits) (f : State → State) : Out :=
  match s.barred l with
  | some (c, i) => .next (s.trap c i)
  | none => .next (f s)

/-! ### Handles -/

/-- Pending entries of a crew. -/
def Crew.pendingHandles (c : Crew) : List (Nat × HandleEntry) := c.handles.filter fun e => e.2.pending

/-- A register waits for a handle (R177, R179). -/
def State.handlePending (s : State) (reg : Nat) : Bool :=
  s.crew.handles.any fun e =>
    e.2.pending && e.2.gang = s.gang.id && e.2.reg = reg && (reg < 56 || e.2.inHandler = s.inHandler)

/-- Allocates a handle-table entry for a register of the gang in focus: entries are reused in the order they were freed
(R177, R178). None when all 64 are pending. -/
def State.newHandle (s : State) (reg : Nat) : Option (Nat × State) :=
  match s.crew.freeHandles with
  | [] => none
  | e :: rest =>
      let old : HandleEntry := s.crew.handles.get {} e
      let new : HandleEntry :=
        { serial := if old.used then old.serial + 1 else 0, used := true, pending := true, gang := s.gang.id, reg := reg,
          inHandler := s.inHandler, status := 0 }
      some (e,
        { s with crew := { s.crew with handles := Sparse.put {} s.crew.handles e new, freeHandles := rest },
                 gang := { s.gang with handleIds := Sparse.put none s.gang.handleIds reg (some ⟨e, new.serial⟩) } })

/-- The engine writes a scalar register of a gang: the pair's tag is cleared (R92, R178). In handler mode s56-s63 of the
gang itself are set aside (R362). -/
def Gang.writeHandle (g : Gang) (reg : Nat) (inHandler : Bool) (x : Dword) : Gang :=
  let keep := ~~~((1 : BitVec 32) <<< (reg / 2))
  match g.handler with
  | some b =>
      if 56 ≤ reg && !inHandler then
        { g with handler := some { b with s := Sparse.put 0 b.s reg x, tags := b.tags &&& keep } }
      else { g with s := Sparse.put 0 g.s reg x, stags := g.stags &&& keep }
  | none => { g with s := Sparse.put 0 g.s reg x, stags := g.stags &&& keep }

/-- Shadows of a scalar register and its tag removed: the written value is the latest. -/
def Gang.landS (g : Gang) (reg : Nat) : Gang :=
  { g with shadows := g.shadows.filter fun x =>
      match x.old with
      | .s n _ => n ≠ reg
      | .tag k _ => k ≠ reg / 2
      | _ => true }

/-- The status word of an operation (R178). -/
def statusWord (code : BitVec 16) (flags : BitVec 8) (result : Word) : Dword := result ++ 0#8 ++ flags ++ code

/-- A hand-over carries the result of a handle that was pending at its BRX (R316). -/
def Gang.carry (g : Gang) (entry reg : Nat) (x : Dword) : Gang :=
  match g.ej with
  | some e =>
      if e.awaits.contains (entry, reg) then
        { g.writeHandle reg false x with ej := some { e with awaits := e.awaits.filter fun a => a ≠ (entry, reg) } }
      else g
  | none => g

/-- A WAITH on the handle is over (R181). -/
def Gang.endWait (g : Gang) (h : Handle) (status : Dword) : Gang :=
  { g with hold := g.hold.map fun x => if x.why = .handle h then { x with why := .finished status } else x }

/-- Completes a handle: the status word goes to the register, the entry is free for reuse, the waits for it end
(R178, R181). -/
def State.completeHandle (s : State) (crew entry : Nat) (status : Dword) : State :=
  let e := (s.findCrew crew).handles.get {} entry
  if !e.pending then s
  else
    let s := s.updCrew crew fun c =>
      { c with handles := Sparse.put {} c.handles entry { e with pending := false, status := status },
               freeHandles := c.freeHandles ++ [entry] }
    let s : State := (s.gangsOf crew).foldl (fun (s : State) g => s.updGang g.id fun g => g.endWait ⟨entry, e.serial⟩ status) s
    let s : State := (s.gangsOf crew).foldl (fun (s : State) g =>
      if g.ej.any fun j => j.parent = e.gang then s.updGang g.id fun g => g.carry entry e.reg status else s) s
    if e.reg < 64 then s.updGang e.gang fun g => (g.writeHandle e.reg e.inHandler status).landS e.reg else s

/-- The bytes of a crew's pending destination windows (R165). -/
def State.windows (s : State) (crew : Nat) : List (Nat × Nat) :=
  s.ops.filterMap fun o => if o.crewId = crew then o.window else none

/-! ### Results and arrivals -/

/-- The variable-latency results of a gang land: no mark is left, nor does a hand-over wait for one (R58, R316). -/
def State.landVariable (s : State) (id : Nat) : State :=
  let land (g : Gang) : Gang := { g with ej := g.ej.map fun e => { e with marks := [] } }
  let s : State := (s.allGangs.filter fun g => g.ej.any fun e => e.parent = id).foldl
    (fun (s : State) g => s.updGang g.id land) s
  s.updGang id fun g => { g with marks := [], quick := [] }

/-- One arrival (R351). -/
def Crew.arrive (c : Crew) (b : Nat) : Crew :=
  let k := c.barriers.get {} b
  let k := if k.arrived + 1 = k.count then { k with arrived := 0, phase := !k.phase } else { k with arrived := k.arrived + 1 }
  { c with barriers := Sparse.put {} c.barriers b k }

/-- A wait half of BAR on barrier `b` is over. -/
def Gang.pass (g : Gang) (b : Nat) : Gang :=
  { g with hold := g.hold.map fun h => if h.why = .barrier b then { h with why := .passed b } else h }

/-- One arrival at a crew's barrier: the one that reaches COUNT flips PHASE and ends every wait there (R351, R352). -/
def State.arrive (s : State) (crew b : Nat) : State :=
  let k := (s.findCrew crew).barriers.get {} b
  let s := s.updCrew crew fun c => c.arrive b
  if k.arrived + 1 = k.count then (s.gangsOf crew).foldl (fun (s : State) g => s.updGang g.id fun g => g.pass b) s else s

end Sys2Proof.Machine
end

