-- ==== Sys2Proof/Machine/Flags.lean ====
section
/-! DEFINITION. FPSTAT (R79, R80), the rounding states (R74, R75), and the integer results with the flag they set
(R215-R221). The flags of floating-point results are computed with them in Float.lean. -/

namespace Sys2Proof.Machine

/-- ORs flags into the gang's FPSTAT; handler instructions leave it alone (R80, R362). -/
def State.raise (s : State) (f : BitVec 8) : State :=
  if s.inHandler then s else { s with gang := { s.gang with fpstat := s.gang.fpstat ||| f } }

/-- The rounding state a result uses: the strand's, or the scalar pipe's (R75). -/
def State.roundState (s : State) (uni : Bool) (strand : Nat) : Word :=
  if uni then s.gang.urnd else s.gang.rnd.get 0 strand

/-- The rounding states after a strand's results. -/
def State.setRoundState (s : State) (uni : Bool) (strand : Nat) (x : Word) : State :=
  { s with gang := if uni then { s.gang with urnd := x } else { s.gang with rnd := Sparse.put 0 s.gang.rnd strand x } }

/-- One lane's result: the pattern, the flags, the rounding state after it. -/
abbrev Lane := Nat × BitVec 8 × Word

/-- A lane without rounding. -/
def plainLane (r : Nat × BitVec 8) (st : Word) : Lane := (r.1, r.2, st)

end Sys2Proof.Machine

namespace Sys2Proof

/-- A rounded lane. -/
def FRes.lane (r : FRes) : Machine.Lane := (r.bits, r.flags, r.st)

end Sys2Proof

namespace Sys2Proof.Machine

/-! ### Integer results -/

/-- The exact integer a source pattern means in a type (R70); untyped is unsigned. -/
def tyInt' (t : Ty) (w : Nat) (x : Nat) : Int := if t.isSigned then signed w x else (x % 2 ^ w : Nat)

/-- Absolute value, then negation, modulo 2^w; the absolute value of an unsigned value is itself (R54). -/
def intMods (t : Ty) (w : Nat) (ab ng : Bool) (x : Nat) : Nat :=
  let x := if ab && t.isSigned && 2 * x ≥ 2 ^ w then 2 ^ w - x else x
  if ng then (2 ^ w - x) % 2 ^ w else x

/-- An exact integer wrapped to w bits, or clamped into the type with SATF (R215, R216). -/
def clampInt (t : Ty) (w : Nat) (sat : Bool) (n : Int) : Nat × BitVec 8 :=
  let lo : Int := if t.isSigned then -(2 ^ (w - 1) : Nat) else 0
  let hi : Int := if t.isSigned then (2 ^ (w - 1) : Nat) - 1 else (2 ^ w : Nat) - 1
  if sat then
    let c := max lo (min hi n)
    (wrapInt w c, flagIf (c ≠ n) flagSATF)
  else (wrapInt w n, 0)

/-- Left shift; an amount at or above w gives 0 (R217). -/
def shlBits (w a k : Nat) : Nat := if k < w then a * 2 ^ k % 2 ^ w else 0
/-- Logical right shift (R217). -/
def shrBits (a k : Nat) : Nat := if k < 64 then a / 2 ^ k else 0
/-- Arithmetic right shift: copies of bit w - 1, for unsigned types too (R217). -/
def sarBits (w a k : Nat) : Nat := wrapInt w (signed w a / (2 ^ min k w : Nat))
/-- Rotation left by k mod w (R216). -/
def rotBits (w a k : Nat) : Nat :=
  let k := k % w
  (a * 2 ^ k + a / 2 ^ (w - k)) % 2 ^ w

/-- IDIV (R218). -/
def divInt (t : Ty) (w : Nat) (sat : Bool) (a b : Nat) : Nat × BitVec 8 :=
  let x := tyInt' t w a
  let y := tyInt' t w b
  if y = 0 then
    (if !t.isSigned then 2 ^ w - 1 else if x < 0 then 2 ^ (w - 1) else 2 ^ (w - 1) - 1, 0)
  else clampInt t w sat (Int.tdiv x y)

/-- IREM (R218). -/
def remInt (t : Ty) (w : Nat) (a b : Nat) : Nat :=
  let x := tyInt' t w a
  let y := tyInt' t w b
  if y = 0 then a else wrapInt w (Int.tmod x y)

/-- BFX (R219). -/
def bitExtract (t : Ty) (w a b : Nat) : Nat :=
  let pos := min w (b % 256)
  let len := min w (b / 256 % 256)
  if len = 0 then 0
  else
    let wide := if t.isSigned then sextNat w (2 * w) a else a
    let f := wide / 2 ^ pos % 2 ^ len
    if t.isSigned then sextNat len w f else f

/-- BFI (R219). -/
def bitInsert (w a b c : Nat) : Nat :=
  let pos := min w (b % 256)
  let len := min w (b / 256 % 256)
  let n := min (pos + len) w - pos
  c - bitsAt c pos n * 2 ^ pos + bitsAt a 0 n * 2 ^ pos

/-- Bit reversal of w bits (R216). -/
def reverseBits : Nat → Nat → Nat
  | 0, _ => 0
  | n + 1, x => x % 2 * 2 ^ n + reverseBits n (x / 2)

/-- The integer comparison `cc` (R220). -/
def cmpInt (cc : Nat) (x y : Int) : Bool :=
  match cc with
  | 0 => x = y
  | 1 => x ≠ y
  | 2 => x < y
  | 3 => x ≤ y
  | 4 => x > y
  | _ => x ≥ y

/-- Byte `i` of a number. -/
def byteOf (x i : Nat) : Nat := x / 2 ^ (8 * i) % 256

/-- PRMT.SEL and PRMT.FUNNEL (R221). -/
def permBytes (funnel : Bool) (a b c : Nat) : Nat :=
  let ab := a + 2 ^ 32 * b
  let pick (j : Nat) : Nat :=
    if funnel then byteOf ab ((c % 8 + j) % 8)
    else
      let n := c / 2 ^ (4 * j) % 16
      if n ≥ 8 then 0 else byteOf ab n
  pick 0 + 2 ^ 8 * pick 1 + 2 ^ 16 * pick 2 + 2 ^ 24 * pick 3

/-- IDOT4: the exact sum (R221). -/
def dot4 (var a b c : Nat) : Int :=
  let sa := var < 2
  let sb := var % 2 = 0
  let v (s : Bool) (x : Nat) : Int := if s then signed 8 x else (x : Nat)
  let p (j : Nat) : Int := v sa (byteOf a j) * v sb (byteOf b j)
  signed 32 c + p 0 + p 1 + p 2 + p 3

end Sys2Proof.Machine
end

