-- ==== Sys2Proof/Machine/Operands.lean ====
section
/-! DEFINITION. Operands: the lanes of arithmetic instructions (R48, R214, R215) and capabilities with their checks
(R87-R94). Effective addresses are in Address.lean. -/

namespace Sys2Proof

/-- A scalar destination makes the instruction uniform (R48). -/
def Sel.isScalar : Sel → Bool
  | .s _ => true
  | _ => false

end Sys2Proof

namespace Sys2Proof.Machine

/-! ### Lanes -/

/-- The lanes an instruction runs for: one for a uniform one, else the active strands (R47, R48). -/
def State.lanes (s : State) (uni : Bool) (h : Hdr) : List Nat := if uni then [0] else s.active h

/-- Evaluates the lanes in ascending order: the values by lane, the flags of all, the rounding states after (R75, R80). -/
def State.evalLanes (s : State) (uni : Bool) (f : Nat → Word → Lane) : List Nat → List (Nat × Nat) × BitVec 8 × State
  | [] => ([], 0, s)
  | i :: rest =>
      let (v, fl, st) := f i (s.roundState uni i)
      let s := s.setRoundState uni i st
      let (vs, fls, s) := s.evalLanes uni f rest
      ((i, v) :: vs, fl ||| fls, s)

/-- An arithmetic instruction: every lane reads its sources in the state before (R214), then the results of `w` bits go to
D with their latency and the flags to FPSTAT. `sx` sign-extends a narrow result. -/
def State.arith (s : State) (d : Sel) (h : Hdr) (w : Nat) (sx : Bool) (lat : Option Nat) (f : Nat → Word → Lane) : State :=
  let uni := d.isScalar
  let (vals, flags, t) := s.evalLanes uni f (s.lanes uni h)
  (t.result d w sx lat vals).raise flags

end Sys2Proof.Machine

namespace Sys2Proof

/-- The width of a typed operation (R214). -/
def Typed.width (x : Typed) : Nat := if x.ty = .untyped then (if x.d.isScalar then 64 else 32) else x.ty.bits

/-- An immediate of a signed 64-bit type is sign-extended (R26). -/
def Typed.sx (x : Typed) : Bool := x.ty = .i64

end Sys2Proof

namespace Sys2Proof.Machine

/-- The sources of a lane at the operation's width. -/
def State.srcA (s : State) (x : Typed) (i : Nat) : Nat := s.src x.width x.sx x.a x.imm i
def State.srcB (s : State) (x : Typed) (i : Nat) : Nat := s.src x.width x.sx x.b x.imm i
def State.srcC (s : State) (x : Typed) (i : Nat) : Nat := s.src x.width x.sx x.c x.imm i

/-- An integer instruction of the typed layout: sources after absolute value and negation (R54, R216). -/
def State.intOp (s : State) (x : Typed) (lat : Option Nat) (f : Nat → Nat → Nat → Nat × BitVec 8) : State :=
  let w := x.width
  s.arith x.d x.hdr w x.ty.isSigned lat fun i st =>
    plainLane (f (intMods x.ty w x.absa x.nega (s.srcA x i)) (intMods x.ty w x.absb x.negb (s.srcB x i)) (s.srcC x i)) st

/-- A floating-point instruction: A and B after the sign operations (R54, R222). -/
def State.floatOp (s : State) (x : Typed) (lat : Option Nat) (f : FloatFmt → Nat → Nat → Nat → Word → Lane) : State :=
  let fmt := x.ty.floatFmt
  s.arith x.d x.hdr x.ty.bits false lat fun i st =>
    f fmt (fmt.signOps x.absa x.nega (s.srcA x i)) (fmt.signOps x.absb x.negb (s.srcB x i)) (s.srcC x i) st

/-- A packed 16-bit instruction: element 0, then element 1 (R227). -/
def State.packedOp (s : State) (x : Typed) (lat : Option Nat) (f : FloatFmt → Nat → Nat → Nat → Word → Lane) : State :=
  let fmt := x.ty.floatFmt
  s.arith x.d x.hdr 32 false lat fun i st =>
    let a := s.src 32 false x.a x.imm i
    let b := s.src 32 false x.b x.imm i
    let c := s.src 32 false x.c x.imm i
    let half (k : Nat) (st : Word) : Lane :=
      f fmt (fmt.signOps x.absa x.nega (bitsAt a (16 * k) 16)) (fmt.signOps x.absb x.negb (bitsAt b (16 * k) 16))
        (bitsAt c (16 * k) 16) st
    let (r0, f0, st) := half 0 st
    let (r1, f1, st) := half 1 st
    (r0 + 2 ^ 16 * r1, f0 ||| f1, st)

/-! ### Capabilities (R87-R93) -/

/-- The kinds (R87). -/
inductive CapKind where
  | linear | tile | stitch
deriving DecidableEq, Repr

/-- The fields of a capability; those its kind does not define read 0 (R87). -/
structure Cap where
  raw : Quad
  kind : Option CapKind
  perms : BitVec 4
  fmt : Nat
  bs : Bool
  base : Nat
  len : Nat
  ring : Bool
  pitch : Nat
  cols : Nat
  rows : Nat
  ver : Nat
deriving DecidableEq, Repr

/-- Decodes a capability; the header address of a STITCH is its base (R87). -/
def Cap.ofQuad (q : Quad) : Cap :=
  let n := q.toNat
  let kind : Option CapKind := match bitsAt n 124 4 with
    | 1 => some .linear
    | 2 => some .tile
    | 3 => some .stitch
    | _ => none
  let low := bitsAt n 0 57
  { raw := q, kind := kind, perms := q.extractLsb' 120 4, fmt := bitsAt n 116 4, bs := q.getLsbD 115,
    base := match kind with
      | some .stitch => low / 64 * 64
      | some _ => low
      | none => 0,
    len := if kind = some .linear then bitsAt n 57 52 else 0,
    ring := kind = some .tile && q.getLsbD 113,
    pitch := if kind = some .tile then bitsAt n 97 16 else 0,
    cols := if kind = some .tile then bitsAt n 77 20 else 0,
    rows := if kind = some .tile then bitsAt n 57 20 else 0,
    ver := if kind = some .stitch then bitsAt n 57 32 else 0 }

/-- The 128 bits of a capability's fields (R87). -/
def Cap.toQuad (c : Cap) : Quad :=
  let common := c.perms.toNat * 2 ^ 120 + c.fmt * 2 ^ 116 + (if c.bs then 2 ^ 115 else 0)
  BitVec.ofNat 128 (match c.kind with
    | some .linear => 1 * 2 ^ 124 + common + c.len % 2 ^ 52 * 2 ^ 57 + c.base % 2 ^ 57
    | some .tile =>
        2 * 2 ^ 124 + common + (if c.ring then 2 ^ 113 else 0) + c.pitch % 2 ^ 16 * 2 ^ 97 + c.cols % 2 ^ 20 * 2 ^ 77 +
          c.rows % 2 ^ 20 * 2 ^ 57 + c.base % 2 ^ 57
    | some .stitch => 3 * 2 ^ 124 + common + c.ver % 2 ^ 32 * 2 ^ 57 + c.base % 2 ^ 57
    | none => c.raw.toNat)

/-- Permissions (R87): bits 120 to 123. -/
def pRead : BitVec 4 := 1
def pWrite : BitVec 4 := 2
def pPark : BitVec 4 := 4
def pSeal : BitVec 4 := 8

/-- Element bits of a format code (R88). -/
def fmtBits : Nat → Nat
  | 1 | 11 => 32
  | 2 | 3 => 16
  | 6 | 7 => 6
  | 8 => 4
  | 12 => 2
  | _ => 8

def Cap.bits (c : Cap) : Nat := fmtBits c.fmt

/-- ⌈a / b⌉. -/
def ceilDiv (a b : Nat) : Nat := (a + b - 1) / b

/-- Row bytes RB and scale bytes SB of a TILE2D (R89). -/
def Cap.rb (c : Cap) : Nat := ceilDiv (c.cols * c.bits) 8
def Cap.sb (c : Cap) : Nat := if c.bs then c.cols / 32 else 0
/-- Elements of a LINEAR and its scale bytes (R89). -/
def Cap.elements (c : Cap) : Nat := c.len * 8 / c.bits
def Cap.linearScales (c : Cap) : Nat := if c.bs then ceilDiv c.elements 32 else 0

/-- The bytes from BASE to the end of the footprint (R89). DESIGN CHOICE: where CAPGET reads an unchecked source, an element of the
reserved formats 13 to 15 counts 8 bits, and ROWS 0 no row before the last (R151, log 59). -/
def Cap.footprint (c : Cap) : Nat :=
  match c.kind with
  | some .linear => c.len + c.linearScales
  | some .tile => (c.rows - 1) * c.pitch * 64 + c.rb + c.sb
  | some .stitch => 64
  | none => 0

/-- The windows (R84). -/
inductive Window where
  | global | priv | scratch | reserved
deriving DecidableEq, Repr

/-- The window of an address and where it ends (R84); the reserved addresses below and above scratch are two ranges. -/
def windowOf (a : Nat) : Window × Nat :=
  if a < Config.ownBase then (.global, Config.ownBase)
  else if a < Config.ownTop then (.priv, Config.ownTop)
  else if Config.scratchBase ≤ a && a < Config.scratchTop then (.scratch, Config.scratchTop)
  else (.reserved, if a < Config.scratchBase then Config.scratchBase else 2 ^ 64)

/-- The window of an access, or its first offending byte (R85). -/
def windowCheck (a n : Nat) : Except Nat Window :=
  let (w, e) := windowOf a
  if w = .reserved then .error a
  else if a + n > e then .error e
  else .ok w

/-- The checks of R90 on a capability's fields. -/
def Cap.fieldsOk (c : Cap) : Bool :=
  let reserved := match c.kind with
    | some .linear => c.raw.extractLsb' 109 6 ≠ 0
    | some .tile => c.raw.getLsbD 114
    | some .stitch => c.raw.extractLsb' 89 26 ≠ 0 || c.raw.extractLsb' 0 6 ≠ 0
    | none => false
  let shape := match c.kind with
    | some .linear => !(c.bs && c.elements % 32 ≠ 0)
    | some .tile =>
        !(c.bs && c.cols % 32 ≠ 0) && !(c.bits = 6 && c.cols % 4 ≠ 0) && c.rb + c.sb ≤ c.pitch * 64 && c.rows ≠ 0 &&
          c.cols ≠ 0
    | _ => true
  let stop := c.base + c.footprint
  !reserved && c.fmt < 13 && (!c.bs || c.fmt ∈ [4, 6, 7, 8]) && shape && stop ≤ 2 ^ 57 &&
    (c.footprint = 0 || windowOf c.base = windowOf (stop - 1))

/-- Causes of the capability checks (R108). -/
def cCapUntagged : BitVec 8 := 0x40
def cCapKind : BitVec 8 := 0x41
def cCapBounds : BitVec 8 := 0x42
def cCapPerm : BitVec 8 := 0x43
def cCapWiden : BitVec 8 := 0x44
def cCapField : BitVec 8 := 0x45
def cMisaligned : BitVec 8 := 0x2C
def cWindow : BitVec 8 := 0x24
def cHighwater : BitVec 8 := 0x25
def cIllegalField : BitVec 8 := 0x02
def cIllegalOperand : BitVec 8 := 0x03

/-- A cause with its TRAPINFO. -/
abbrev Cause := BitVec 8 × Dword

/-- TRAPINFO of a capability cause: strand and operand field (R91). -/
def capInfo (field strand : Nat) : Dword := BitVec.ofNat 64 (field * 256 + strand)

/-- TRAPINFO of CAP_BOUNDS (R91). -/
def boundsInfo (x : Int) (field strand : Nat) : Dword :=
  BitVec.ofNat 64 (wrapInt 48 x * 2 ^ 16 + field * 256 + strand)

/-- The tag and the kind of a capability operand (R91, R148). -/
def Cap.checkKind (c : Cap) (tag : Bool) (kinds : List CapKind) (field strand : Nat) : Option Cause :=
  if !tag then some (cCapUntagged, capInfo field strand)
  else if !(c.kind.any fun k => kinds.contains k) then some (cCapKind, capInfo field strand)
  else none

/-- Use of a capability: tag, kind, fields, permissions in that order (R90, R91, R148). -/
def Cap.check (c : Cap) (tag : Bool) (kinds : List CapKind) (need : BitVec 4) (field strand : Nat) : Option Cause :=
  let bad (k : BitVec 8) : Option Cause := some (k, capInfo field strand)
  match c.checkKind tag kinds field strand with
  | some x => some x
  | none =>
      if !c.fieldsOk then bad cCapField else if need &&& ~~~c.perms ≠ 0 then bad cCapPerm else none

/-- A capability operand: the pair that a selector names. -/
def State.capOf (s : State) (x : Sel) : Cap × Bool :=
  match x with
  | .s n => (Cap.ofQuad (s.readPair n.toNat), s.readTag n.toNat)
  | _ => (Cap.ofQuad 0, false)

/-- V lies within W, both read as tagged (R93). -/
def Cap.within (v w : Cap) : Bool :=
  v.perms &&& ~~~w.perms = 0 &&
  match v.kind, w.kind with
  | some .stitch, some .stitch => v.base = w.base && w.ver ≤ v.ver
  | some k, some k' =>
      k ≠ .stitch && k' ≠ .stitch && (k = k' || k' = .linear) && (w.fmt = 0 || (v.fmt = w.fmt && v.bs = w.bs)) &&
        w.base ≤ v.base && v.base + v.footprint ≤ w.base + w.footprint
  | _, _ => false

/-- Where an operation with an operand in scratch needs the crew's allocation (R158). -/
def Cap.inScratch (c : Cap) : Bool := c.kind ≠ some .stitch && (windowOf c.base).1 = .scratch

end Sys2Proof.Machine
end

