-- ==== Sys2Proof/Machine/Stitch.lean ====
section
/-! DEFINITION. The stitch unit at the home slice of a list's header (R197-R202): reading and writing the header and the
piece array with the rights of the issuing gang, reachable versions and Resolve. -/

namespace Sys2Proof.Machine

/-- Why an access is not performed: a cause of the gang, or a translation fault of one address. -/
inductive Stop where
  | trap (c : Cause)
  | fault (va : Nat) (acc : Access) (f : XFault)
deriving DecidableEq, Repr

/-- Splits `n` bytes at the boundaries of a granule: `fuel` bounds the number of parts. -/
def chunks (gran : Nat) : Nat → Nat → Nat → List (Nat × Nat)
  | 0, _, _ => []
  | fuel + 1, va, n =>
      if n = 0 then []
      else
        let k := min n (gran - va % gran)
        (va, k) :: chunks gran fuel (va + k) (n - k)

/-- The parts of an access inside each granule (R134). -/
def splitParts (gran va n : Nat) : List (Nat × Nat) := chunks gran (n / gran + 2) va n

/-! ### Accesses at the home slice -/

/-- Bytes of one page as the home slice reads them. -/
def State.homeRead (s : State) (l : Leaf) (va n : Nat) : List Byte :=
  let pa := l.addr va
  match s.host.peerOf pa with
  | some (p, a) => s.peerBytes p a n
  | none => if isMemory pa then s.sys.bytes pa n else List.replicate n 0

/-- Bytes of one line written at the home slice: every copy is gathered there, a parked line stays parked (R118, R119). The
doorbells of aperture 15 take plain stores alone (R389). -/
def State.homeWrite (s : State) (w : Who) (l : Leaf) (va : Nat) (data : List Byte) : State :=
  let pa := l.addr va
  match s.host.peerOf pa with
  | some (p, a) => s.peerWrite w.asid p a data
  | none =>
      if isMemory pa then
        { s with sys := (s.sys.dirHome w l va (byteMask (va % 128) data.length)).putBytes pa data false }
      else s

/-- The leaf of an access of the unit, which reaches the global and the private window alone (R85, log 55). -/
def State.homeLeaf (s : State) (w : Who) (acc : Access) (va : Nat) : Except Stop (Leaf × State) :=
  if Config.ownTop ≤ va then .error (.trap (cWindow, BitVec.ofNat 64 va))
  else
    match s.leaf { w with engine := true } acc va with
    | .error f => .error (.fault va acc f)
    | .ok r => .ok r

/-- Reads bytes at the home, line by line (R199). -/
def State.unitRead (s : State) (w : Who) (va n : Nat) : Except Stop (List Byte × State) :=
  (splitParts 128 va n).foldlM (fun (a : List Byte × State) p =>
    match a.2.homeLeaf w .load p.1 with
    | .error e => .error e
    | .ok (l, s) => .ok (a.1 ++ s.homeRead l p.1 p.2, s)) ([], s)

/-- Translates every line of a write before anything changes (R199). -/
def State.unitCheck (s : State) (w : Who) (va n : Nat) : Except Stop State :=
  (splitParts 128 va n).foldlM (fun (s : State) p =>
    match s.homeLeaf w .store p.1 with
    | .error e => .error e
    | .ok (_, s) => .ok s) s

/-- Writes bytes at the home, line by line, each already translated. -/
def State.unitWrite (s : State) (w : Who) (va : Nat) (data : List Byte) : State :=
  ((splitParts 128 va data.length).foldl (fun (a : State × List Byte) p =>
    (match a.1.homeLeaf w .store p.1 with
      | .error _ => a.1
      | .ok (l, s) => s.homeWrite w l p.1 (a.2.take p.2), a.2.drop p.2)) (s, data)).1

/-! ### Lists (R197, R198) -/

/-- A list header (R197): `pins` holds the count and the version of each of the 8 slots. -/
structure ListHdr where
  version : Nat
  count : Nat
  length : Nat
  arr : Nat
  k : Nat
  used : Nat
  pins : List (Nat × Nat)
deriving DecidableEq, Repr

/-- A piece-array entry (R198). -/
structure Piece where
  base : Nat
  len : Nat
  pid : Nat
  birth : Nat
  death : Nat
  keep : Nat
deriving DecidableEq, Repr

/-- The DEATH of a piece that is alive. -/
def neverDies : Nat := 0xFFFFFFFF

/-- Causes of R212. -/
def cStitchIndex : BitVec 8 := 0x88
def cStitchVersion : BitVec 8 := 0x89
def cPinFull : BitVec 8 := 0x8A
def cStitchHeader : BitVec 8 := 0x8B
def cSpliceArgs : BitVec 8 := 0x8C

/-- The header's fields. -/
def ListHdr.ofBytes (b : List Byte) : ListHdr :=
  let n := fromBytes b
  { version := bitsAt n 0 32, count := bitsAt n 32 32, length := bitsAt n 64 64, arr := bitsAt n 134 51 * 64,
    k := bitsAt n 128 6, used := bitsAt n 192 32,
    pins := (List.range 8).map fun j => (bitsAt n (224 + 4 * j) 4, bitsAt n (256 + 32 * j) 32) }

/-- The 64 bytes of a header. -/
def ListHdr.toBytes (h : ListHdr) : List Byte :=
  let pin (j : Nat) := h.pins.getD j (0, 0)
  let counts := (List.range 8).foldl (fun a j => a + (pin j).1 % 16 * 2 ^ (4 * j)) 0
  Sys2Proof.toBytes 4 h.version ++ Sys2Proof.toBytes 4 h.count ++ Sys2Proof.toBytes 8 h.length ++
    Sys2Proof.toBytes 8 (h.arr + h.k) ++ Sys2Proof.toBytes 4 h.used ++ Sys2Proof.toBytes 4 counts ++
    (List.range 8).flatMap fun j => Sys2Proof.toBytes 4 (pin j).2

/-- An entry's fields. -/
def Piece.ofBytes (b : List Byte) : Piece :=
  let n := fromBytes b
  { base := bitsAt n 0 64, len := bitsAt n 64 32, pid := bitsAt n 96 32, birth := bitsAt n 128 32,
    death := bitsAt n 160 32, keep := bitsAt n 192 32 }

/-- The 32 bytes of an entry. -/
def Piece.toBytes (p : Piece) : List Byte :=
  Sys2Proof.toBytes 8 p.base ++ Sys2Proof.toBytes 4 p.len ++ Sys2Proof.toBytes 4 p.pid ++ Sys2Proof.toBytes 4 p.birth ++
    Sys2Proof.toBytes 4 p.death ++ Sys2Proof.toBytes 4 p.keep ++ Sys2Proof.toBytes 4 0

/-- The piece is alive at a version (R198). -/
def Piece.aliveAt (p : Piece) (v : Nat) : Bool := p.birth ≤ v && v < p.death

/-- The header cannot be used (R199). -/
def headerStop (va : Nat) : Stop := .trap (cStitchHeader, BitVec.ofNat 64 va)

/-- Reads and checks a header (R199). -/
def State.readHeader (s : State) (w : Who) (va : Nat) : Except Stop (ListHdr × State) :=
  match s.unitRead w va 64 with
  | .error e => .error e
  | .ok (b, s) =>
      let h := ListHdr.ofBytes b
      if 20 < h.k || 2 ^ h.k < h.used || h.version = 0 || h.version = 0xFFFFFFFF || bitsAt (fromBytes b) 185 7 ≠ 0 then
        .error (headerStop va)
      else .ok (h, s)

/-- Reads one entry; a nonzero reserved byte is the header's fault (R199). -/
def readPiece (w : Who) (va arr : Nat) (a : List Piece × State) (i : Nat) : Except Stop (List Piece × State) :=
  match a.2.unitRead w (arr + 32 * i) 32 with
  | .error e => .error e
  | .ok (b, s) =>
      if bitsAt (fromBytes b) 224 32 ≠ 0 then .error (headerStop va) else .ok (a.1 ++ [Piece.ofBytes b], s)

/-- Reads the entries in use, in array order. -/
def State.readPieces (s : State) (w : Who) (va : Nat) (h : ListHdr) : Except Stop (List Piece × State) :=
  (List.range h.used).foldlM (readPiece w va h.arr) ([], s)

/-- The header and the entries of a list. -/
def State.readList (s : State) (w : Who) (va : Nat) : Except Stop ((ListHdr × List Piece) × State) :=
  match s.readHeader w va with
  | .error e => .error e
  | .ok (h, s) =>
      match s.readPieces w va h with
      | .error e => .error e
      | .ok (l, s) => .ok ((h, l), s)

/-- The versions pending operations hold of a list; one that was not yet seen to be reachable is no hold (R192, R201). -/
def State.heldVersions (s : State) (asid : Asid) (va : Nat) : List Nat :=
  s.ops.flatMap fun o =>
    if o.asid = asid then (o.holds.filter fun h => h.1.toNat = va && !o.unproven.contains h).map fun h => h.2 else []

/-- A version is reachable (R200, R201). -/
def State.reachable (s : State) (asid : Asid) (va : Nat) (h : ListHdr) (v : Nat) : Bool :=
  v = h.version || h.pins.any (fun p => 0 < p.1 && p.2 = v) || (s.heldVersions asid va).contains v

/-- The versions of a list that operations could not check at issue, checked against a header that has been read: the reachable
ones are held from their issue on, whatever the head becomes (R201). -/
def State.settleHolds (s : State) (asid : Asid) (va : Nat) (h : ListHdr) : State :=
  { s with ops := s.ops.map fun o =>
      if o.asid = asid then
        { o with unproven := o.unproven.filter fun x => !(x.1.toNat = va && s.reachable asid va h x.2) }
      else o }

/-- STITCH_VERSION: the version and the head (R212). -/
def versionStop (h : ListHdr) (v : Nat) : Stop :=
  .trap (cStitchVersion, BitVec.ofNat 64 (v % 2 ^ 32 + h.version * 2 ^ 32))

/-- Where an index lies: the address of its byte, the bytes left in the piece, the piece's id and its first index. -/
structure Found where
  addr : Nat
  left : Nat
  pid : Nat
  start : Nat
deriving DecidableEq, Repr

/-- The piece of a version that holds an index, from a position on (R200). -/
def findPiece (v x : Nat) : Nat → List Piece → Option Found
  | _, [] => none
  | pos, p :: rest =>
      if p.aliveAt v then
        if x < pos + p.len then
          some { addr := p.base + (x - pos), left := pos + p.len - x, pid := p.pid, start := pos }
        else findPiece v x (pos + p.len) rest
      else findPiece v x pos rest

/-- The bytes of a version. -/
def versionLength (v : Nat) (l : List Piece) : Nat :=
  l.foldl (fun a p => if p.aliveAt v then a + p.len else a) 0

/-- The parts of `n` bytes from an index, piece by piece (R132); an index out of range is given back. -/
def pieceParts (v : Nat) (l : List Piece) : Nat → Nat → Nat → Except Nat (List (Nat × Nat))
  | 0, _, _ => .ok []
  | fuel + 1, x, n =>
      if n = 0 then .ok []
      else
        match findPiece v x 0 l with
        | none => .error x
        | some f =>
            match pieceParts v l fuel (x + min n f.left) (n - min n f.left) with
            | .error e => .error e
            | .ok r => .ok ((f.addr, min n f.left) :: r)

/-- Resolve for an access of `n` bytes (R132, R200). -/
def State.resolve (s : State) (w : Who) (c : Cap) (x n : Nat) : Except Stop (List (Nat × Nat) × State) :=
  match s.readList w c.base with
  | .error e => .error e
  | .ok ((h, l), s) =>
      if !s.reachable w.asid c.base h c.ver then .error (versionStop h c.ver)
      else
        match pieceParts c.ver l n x n with
        | .error i => .error (.trap (cStitchIndex, BitVec.ofNat 64 i))
        | .ok parts => .ok (parts, s)

end Sys2Proof.Machine
end

