-- ==== Sys2Proof/Machine/Address.lean ====
section
/-! DEFINITION. Effective addresses of the access instructions (R130-R134, R138, R168): the checks of one strand in the
order window, capability, bounds, private high-water mark, alignment, and the strands in ascending order (R359). -/

namespace Sys2Proof.Machine

/-- Where an instruction's plain base points: anywhere, at the context's private window, at the crew's scratch. -/
inductive AddrSpace where
  | any | priv | scratch
deriving DecidableEq, Repr

/-- How an access instruction names its address. -/
structure Addr where
  size : Nat
  capb : Bool
  a : Sel
  b : Sel
  off : BitVec 16
  /-- Permissions a capability base needs. -/
  need : BitVec 4
  space : AddrSpace := .any
  /-- The alignment that is checked; 0 and 1 check none (R134). -/
  align : Nat := 0
  /-- FLUSH and INVAL need a tag and a kind alone (R146). -/
  fields : Bool := true
deriving DecidableEq, Repr

/-- What one strand's access touches: parts of memory, or an offset in scratch. -/
inductive Target where
  | memory (parts : List (Nat × Nat))
  | scratch (off : Int)
deriving DecidableEq, Repr

/-- reg(B) (R131). -/
def State.index (s : State) (b : Sel) (i : Nat) : Int :=
  match b with
  | .v n => signed 32 (s.readV i n.toNat).toNat
  | .s n => signed 64 (s.readS n.toNat).toNat
  | _ => 0

/-- Row and column of a TILE2D access (R131). -/
def State.tileIndex (s : State) (b : Sel) (i : Nat) : Nat × Nat :=
  match b with
  | .v n => ((s.readV i n.toNat).toNat, (s.readV i (n.toNat + 1)).toNat)
  | .s n => ((s.readS n.toNat).toNat % 2 ^ 32, (s.readS (n.toNat + 1)).toNat % 2 ^ 32)
  | _ => (0, 0)

/-- The signed displacement of an access of `size` bytes (R53). -/
def dispOf (off : BitVec 16) (size : Nat) : Int := off.toInt * size

/-- MISALIGNED: address and strand (R156). -/
def misaligned (addr : Int) (i : Nat) : Cause := (cMisaligned, BitVec.ofNat 64 (wrapInt 57 addr + i % 32 * 2 ^ 59))

/-- An address through a LINEAR capability (R91). -/
def linearAddr (c : Cap) (off : Int) (size field i : Nat) : Except Cause Nat :=
  if off < 0 || off + size > c.len then .error (cCapBounds, boundsInfo off field i) else .ok (c.base + off.toNat)

/-- An address through a TILE2D capability (R131). -/
def tileAddr (c : Cap) (row col : Nat) (disp : Int) (size field i : Nat) : Except Cause Nat :=
  let colbyte : Int := (col * c.bits / 8 : Nat) + disp
  let r := if c.ring then row % c.rows else row
  let at' : Int := (c.base + r * c.pitch * 64 : Nat) + colbyte
  if col * c.bits % 8 ≠ 0 then .error (misaligned at' i)
  else if !c.ring && c.rows ≤ row then .error (cCapBounds, boundsInfo row field i)
  else if c.cols ≤ col then .error (cCapBounds, boundsInfo col field i)
  else if colbyte < 0 || colbyte + size > c.rb then .error (cCapBounds, boundsInfo colbyte field i)
  else .ok at'.toNat

/-- The address through a LINEAR or TILE2D capability before its checks (R131): a window that it misses is reported ahead of them
(R359). -/
def State.capAddress (s : State) (c : Cap) (b : Sel) (off : BitVec 16) (size i : Nat) : Option Nat :=
  match c.kind with
  | some .linear => some (wrapInt 64 ((c.base : Int) + s.index b i * size + dispOf off size))
  | some .tile =>
      let (row, col) := s.tileIndex b i
      let r := if c.ring then row % c.rows else row
      some (wrapInt 64 ((c.base + r * c.pitch * 64 + col * c.bits / 8 : Nat) + dispOf off size))
  | _ => none

/-- WINDOW of an access through a capability (R85). -/
def State.capWindow (s : State) (m : Addr) (c : Cap) (i : Nat) : Option Cause :=
  match (s.capAddress c m.b m.off m.size i).map fun a => windowCheck a m.size with
  | some (.error b) => some (cWindow, BitVec.ofNat 64 b)
  | _ => none

/-- The column register of a TILE2D base must exist (R131). -/
def State.columnMissing (s : State) (c : Cap) (b : Sel) : Bool :=
  c.kind = some .tile &&
  match b with
  | .v n => s.crew.vregs ≤ n.toNat + 1
  | .s n => n.toNat = 63
  | _ => false

/-- The private high-water offset of the context (R86). -/
def State.privMark (s : State) : Nat := bitsAt (s.sys.ctxD s.crew.asid).privhw.toNat 16 32 * 65536

/-- Window, high-water and alignment of one part of an access (R85, R86, R134). Of an access that a STITCH list splits, each
part's address is tested against the access's own size (DESIGN CHOICE, log 57). -/
def State.partStop (s : State) (align i va n : Nat) : Option Cause :=
  match windowCheck va n with
  | .error b => some (cWindow, BitVec.ofNat 64 b)
  | .ok w =>
      if w = .priv && s.privMark < va - Config.ownBase + n then
        some (cHighwater, BitVec.ofNat 64 (max (va - Config.ownBase) s.privMark))
      else if 1 < align && va % align ≠ 0 then some (misaligned va i)
      else none

/-- The first cause of the parts of an access; PRIVATE_HIGHWATER with the lowest offending offset of them all (R86). -/
def State.partsStop (s : State) (align i : Nat) (parts : List (Nat × Nat)) : Option Cause :=
  let l := parts.filterMap fun p => s.partStop align i p.1 p.2
  match l.head? with
  | some c =>
      if c.1 = cHighwater then
        some (cHighwater, BitVec.ofNat 64
          ((minList ((l.filter fun x => x.1 = cHighwater).map fun x => x.2.toNat)).getD c.2.toNat))
      else some c
  | none => none

/-- The target of an access whose address is one range; LDS, STS and the scratch atomics name the scratch window alone
(R168). -/
def State.oneTarget (s : State) (m : Addr) (i va : Nat) : Except Stop (Target × State) :=
  if m.space = .scratch && (windowOf va).1 ≠ .scratch then .error (.trap (cWindow, BitVec.ofNat 64 va))
  else
    match s.partStop m.align i va m.size with
    | some c => .error (.trap c)
    | none =>
        if (windowOf va).1 = .scratch then .ok (.scratch (va - Config.scratchBase : Nat), s)
        else .ok (.memory [(va, m.size)], s)

/-- The target through a capability base: WINDOW, then the capability's own checks (R91, R131, R148, R359); a missing column
register is a decode cause, raised whether a strand is active or not (State.columnBad). -/
def State.capTarget (s : State) (w : Who) (m : Addr) (i : Nat) : Except Stop (Target × State) :=
  let (c, tag) := s.capOf m.a
  if s.columnMissing c m.b then
    .error (.trap (cIllegalOperand, BitVec.ofNat 64 (2 + m.b.code.toNat * 256)))
  else
    match s.capWindow m c i <|>
      (if m.fields then c.check tag [.linear, .tile, .stitch] m.need 1 i else c.checkKind tag [.linear, .tile, .stitch] 1 i) with
    | some x => .error (.trap x)
    | none =>
        match c.kind with
        | some .tile =>
            match tileAddr c (s.tileIndex m.b i).1 (s.tileIndex m.b i).2 (dispOf m.off m.size) m.size 1 i with
            | .error x => .error (.trap x)
            | .ok va => s.oneTarget m i va
        | some .stitch =>
            match s.resolve w c (wrapInt 64 (s.index m.b i * m.size + dispOf m.off m.size)) m.size with
            | .error e => .error e
            | .ok (parts, s) =>
                if m.space = .scratch then .error (.trap (cWindow, BitVec.ofNat 64 (parts.headD (0, 0)).1))
                else
                  match s.partsStop m.align i parts with
                  | some x => .error (.trap x)
                  | none =>
                      if parts.any (fun p => (windowOf p.1).1 = .scratch) then .error (headerStop c.base)
                      else .ok (.memory parts, s)
        | _ =>
            match linearAddr c (signed 64 (wrapInt 64 (s.index m.b i * m.size + dispOf m.off m.size))) m.size 1 i with
            | .error x => .error (.trap x)
            | .ok va => s.oneTarget m i va

/-- The target of one strand's access (R131, R138, R168). -/
def State.target (s : State) (w : Who) (m : Addr) (i : Nat) : Except Stop (Target × State) :=
  if m.capb then s.capTarget w m i
  else
    let x := wrapInt 64 ((s.scalar m.a).toNat + s.index m.b i * m.size + dispOf m.off m.size)
    match m.space with
    | .any => s.oneTarget m i x
    | .priv =>
        if 2 ^ 48 ≤ x then .error (.trap (cWindow, BitVec.ofNat 64 (Config.ownBase + x)))
        else if 2 ^ 48 < x + m.size then .error (.trap (cWindow, BitVec.ofNat 64 (Config.ownBase + 2 ^ 48)))
        else s.oneTarget m i (Config.ownBase + x)
    | .scratch =>
        if 1 < m.align && x % m.align ≠ 0 then .error (.trap (misaligned (Config.scratchBase + x : Nat) i))
        else .ok (.scratch (signed 64 x), s)

/-- The targets of all lanes, before any strand takes effect: the lowest strand's cause stops them (R359). -/
def State.targetsOf (s : State) (w : Who) (m : Addr) : List Nat → Except Stop (List (Nat × Target) × State)
  | [] => .ok ([], s)
  | i :: rest =>
      match s.target w m i with
      | .error e => .error e
      | .ok (t, s) =>
          match s.targetsOf w m rest with
          | .error e => .error e
          | .ok (ts, s) => .ok ((i, t) :: ts, s)

/-- The private offset at which a strand's access passes the high-water mark (R86). -/
def State.passesMark (s : State) (w : Who) (m : Addr) (i : Nat) : Option Nat :=
  match s.target w m i with
  | .error (.trap c) => if c.1 = cHighwater then some c.2.toNat else none
  | _ => none

/-- The targets of all lanes; PRIVATE_HIGHWATER records the lowest offending offset of the active strands (R86). -/
def State.targets (s : State) (w : Who) (m : Addr) (lanes : List Nat) : Except Stop (List (Nat × Target) × State) :=
  match s.targetsOf w m lanes with
  | .error (.trap c) =>
      if c.1 = cHighwater then
        .error (.trap (cHighwater, BitVec.ofNat 64 ((minList (lanes.filterMap fun i => s.passesMark w m i)).getD c.2.toNat)))
      else .error (.trap c)
  | r => r

/-- The instruction stops: it traps, or its access goes to the driver and the gang holds; a fault that acts as refused
traps at once (R100). -/
def State.stop (s : State) : Stop → State
  | .trap c => s.trap c.1 c.2
  | .fault va acc f =>
      if f.refused then (s.recordFault va s.crew.asid acc f s.core).trap f.cause (f.info va)
      else
        let (id, s) := s.openFault va s.crew.asid acc f s.core (.gang s.gang.id f.cause (f.info va))
        s.wait (.fault id)

end Sys2Proof.Machine
end

