-- ==== Sys2Proof/Machine/Access.lean ====
section
/-! DEFINITION. Loads and stores once for the whole family (R100, R103-R106, R120, R134-R139, R159-R168): scratch with its
switched-off lanes and pass counts, the parts of memory accesses, the side log, and the order of checks and effects. -/

namespace Sys2Proof.Machine

/-! ### Scratch (R157-R164) -/

/-- Why a lane is switched off (R162). -/
inductive OffReason where
  | oor | win
deriving DecidableEq, Repr

/-- A lane of `n` bytes at an offset is switched off (R162). -/
def State.laneOff (s : State) (off : Int) (n : Nat) : Option OffReason :=
  if off < 0 || off + n > s.crew.scratchSize then some .oor
  else if (s.windows s.crew.id).any (fun p => p.1 < off.toNat + n && off.toNat ≤ p.2) then some .win
  else none

/-- SMASK records a switched-off lane (R164): an ejected strand's lane is its gang's (R317). -/
def State.noteOff (s : State) (i : Nat) (r : OffReason) : State :=
  let bits : Dword := BitVec.ofNat 64 (2 ^ (i % 32) + (if r = .oor then 2 ^ 32 else 2 ^ 33))
  s.updGang s.logGang fun g => { g with smask := g.smask ||| bits }

/-- Bytes of a crew's scratch. -/
def Crew.scratchRead (c : Crew) (off n : Nat) : List Byte := (List.range n).map fun k => c.scratch.get 0 (off + k)

/-- The words a write touches keep the values they had, for the matrix operations that may yet read them (R245). -/
def Crew.noteWrite (c : Crew) (off n : Nat) : Sparse (List (Nat × Word)) :=
  if n = 0 || c.qshare = 0 then c.unfenced
  else
    (List.range ((off + n + 3) / 4 - off / 4)).foldl (fun m k =>
      let i := off / 4 + k
      let old : Nat × Word := (c.fences, BitVec.ofNat 32 (fromBytes (c.scratchRead (4 * i) 4)))
      if (m.get [] i).contains old then m else Sparse.put [] m i (m.get [] i ++ [old])) c.unfenced

/-- Bytes written to scratch; the tags of the granules they touch are cleared, or set (R92). -/
def Crew.scratchWrite (c : Crew) (off : Nat) (data : List Byte) (tag : Bool) : Crew :=
  let tags := (List.range (data.length / 16 + 2)).foldl (fun t k =>
    if data.isEmpty || off + data.length ≤ (off / 16 + k) * 16 then t else setMember t (off / 16 + k) tag) c.scratchTags
  { c with scratch := ((List.range data.length).zip data).foldl (fun m e => Sparse.put 0 m (off + e.1) e.2) c.scratch,
           scratchTags := tags, unfenced := c.noteWrite off data.length }

/-- The numbers of a list without repeats. -/
def distinct (l : List Nat) : List Nat := l.foldl (fun a x => if a.contains x then a else a ++ [x]) []

/-- Passes of a strand-port access (R159, R160): the lanes' strands, offsets and byte counts. -/
def passes (size : Nat) (lanes : List (Nat × Nat × Nat)) : Nat :=
  let per := if size = 16 then 8 else if size = 8 then 16 else 32
  (List.range (32 / per)).foldl (fun total j =>
    let words := distinct ((lanes.filter fun x => x.1 / per = j).flatMap fun x =>
      (List.range ((x.2.1 + x.2.2 - 1) / 4 + 1 - x.2.1 / 4)).map fun k => x.2.1 / 4 + k)
    total + maxList ((List.range 32).map fun bank => (words.filter fun w => w % 32 = bank).length)) 0

/-- SPASS counts an access's passes (R161). -/
def State.countPasses (s : State) (size : Nat) (lanes : List (Nat × Nat × Nat)) : State :=
  let p := passes size lanes
  if p = 0 then s else s.updGang s.logGang fun g => { g with spass := g.spass + BitVec.ofNat 64 p }

/-! ### Lanes ready to be performed -/

/-- A lane whose pages are translated: its parts inside lines with their leaves, or its scratch offset. -/
inductive Ready where
  | memory (parts : List (Nat × Nat × Leaf))
  | scratch (off : Int)
deriving DecidableEq, Repr

/-- The line parts of a target. -/
def Target.lineParts : Target → List (Nat × Nat)
  | .memory parts => parts.flatMap fun p => splitParts 128 p.1 p.2
  | .scratch _ => []

/-- Translates parts; the first that fails stops the access (R100). -/
def State.leaves (s : State) (w : Who) (acc : Access) :
    List (Nat × Nat) → Except Stop (List (Nat × Nat × Leaf) × State)
  | [] => .ok ([], s)
  | p :: rest =>
      match s.leaf w acc p.1 p.2 with
      | .error f => .error (.fault p.1 acc f)
      | .ok (l, s) =>
          match s.leaves w acc rest with
          | .error e => .error e
          | .ok (ls, s) => .ok ((p.1, p.2, l) :: ls, s)

/-- Translates every lane of a load (R100). -/
def State.readyLanes (s : State) (w : Who) (acc : Access) :
    List (Nat × Target) → Except Stop (List (Nat × Ready) × State)
  | [] => .ok ([], s)
  | (i, t) :: rest =>
      let this : Except Stop (Ready × State) := match t with
        | .scratch off => .ok (.scratch off, s)
        | .memory _ =>
            match s.leaves w acc t.lineParts with
            | .error e => .error e
            | .ok (ls, s) => .ok (.memory ls, s)
      match this with
      | .error e => .error e
      | .ok (r, s) =>
          match s.readyLanes w acc rest with
          | .error e => .error e
          | .ok (rs, s) => .ok ((i, r) :: rs, s)

/-- The pages of an access. -/
def targetPages (ts : List (Nat × Target)) : List Nat := (ts.flatMap fun t => t.2.lineParts).map fun p => p.1 / 65536

/-- The first page of an access with stores that the gang logged on a core it has left: the access waits for them, so that its
strands' accesses to one byte keep their order (R278; DEDUCED, log 53). -/
def State.movedPage (s : State) (ts : List (Nat × Target)) : Option Nat :=
  (targetPages ts).find? fun pg => s.pageMoved s.crew.asid pg

/-- What a load waits for: stores that its gang logged elsewhere, or those its core logged on a page (R104, R278). -/
def State.loggedPage (s : State) (ts : List (Nat × Target)) : Option HoldWhy :=
  ((s.movedPage ts).map fun pg => HoldWhy.logMoved s.crew.asid pg) <|>
    ((targetPages ts).find? fun pg => s.pageLogged s.core s.crew.asid pg).map fun pg => .logPage s.crew.asid pg

/-- The lane's load has taken LOCATE here before: it is served by a walk (R120). A lane outside the run is a uniform
load's. -/
def State.relocates (s : State) (i : Nat) : Bool :=
  s.gang.located.any fun x => x.1 = s.ipc && (x.2.getLsbD i || !s.run.getLsbD i)

/-- The strands of the run are done with a load that took LOCATE. -/
def State.located (s : State) : List (Pc × Mask) :=
  if s.inHandler then s.gang.located else dropLocated (fun pc => pc = s.ipc) s.run s.gang.located

/-- The core's own L1 holds the bytes of a part as an ordinary line: no walk serves it (R113). -/
def Sys.l1Has (y : Sys) (w : Who) (va n : Nat) : Bool :=
  !w.noL1 && (y.l1Find w.core w.asid (va / 128)).any fun x => byteMask (va % 128) n &&& ~~~x.valid = 0

/-- A load that strict mode stops (R120): the address and the level code. -/
def State.locate (s : State) (w : Who) (ts : List (Nat × Target)) : Option (Nat × Nat) :=
  if !(s.sys.ctxD w.asid).parkctl.getLsbD 0 || s.inHandler then none
  else
    (((ts.filter fun t => !s.relocates t.1).flatMap fun t => t.2.lineParts).filterMap fun p =>
      match s.sys.walks w p.1 with
      | some k => if s.sys.l1Has w p.1 p.2 || k.writers.contains w.core then none else some (p.1, k.place.code)
      | none => none).head?

/-- LOCATE (R120, R129). -/
def cLocate : BitVec 8 := 0x2B

/-- Every lane lies in scratch: a wider scope acts as crew scope (R276). -/
def scopeOf (scope : Nat) (ts : List (Nat × Target)) : Nat :=
  if ts.any fun t => match t.2 with
    | .memory _ => true
    | .scratch _ => false
  then scope else min scope 2

/-- Reads the parts of a lane. -/
def State.readParts (s : State) (w : Who) (policy : Nat) : List (Nat × Nat × Leaf) → List Byte × State
  | [] => ([], s)
  | (va, n, l) :: rest =>
      let (b, s) := s.readPart w l policy va n
      let (bs, s) := s.readParts w policy rest
      (b ++ bs, s)

/-- What a lane of a load reads: its bytes and, for a whole granule, its tag (R139). -/
structure Loaded where
  strand : Nat
  data : List Byte
  tag : Bool
  /-- Offset of a lane that took part in scratch passes. -/
  pass : Option Nat
deriving DecidableEq, Repr

/-- The bytes of a part are one whole granule of the private window, which has a tag (R92). -/
def wholeGranule (va n : Nat) : Bool := (windowOf va).1 = .priv && n = 16 && va % 16 = 0

/-- The tag LDC returns: the granule's in the private window, clear from the global one and for bytes of two granules (R92,
R139). -/
def State.loadTag (s : State) (w : Who) : List (Nat × Nat × Leaf) → Bool
  | (va, n, l) :: _ => wholeGranule va n && s.readGranule w l va
  | [] => false

/-- Performs the lanes of a load in ascending order. -/
def State.loadLanes (s : State) (w : Who) (policy size : Nat) : List (Nat × Ready) → List Loaded × State
  | [] => ([], s)
  | (i, r) :: rest =>
      let (x, s) : Loaded × State := match r with
        | .memory parts =>
            let tag := s.loadTag w parts
            let (b, s) := s.readParts w policy parts
            ({ strand := i, data := b, tag := tag, pass := none }, s)
        | .scratch off =>
            match s.laneOff off size with
            | some why => ({ strand := i, data := List.replicate size 0, tag := false, pass := none }, s.noteOff i why)
            | none =>
                ({ strand := i, data := s.crew.scratchRead off.toNat size,
                   tag := s.crew.scratchTags.contains (off.toNat / 16), pass := some off.toNat }, s)
      let (xs, s) := s.loadLanes w policy size rest
      (x :: xs, s)

/-- The passes of the lanes that took part. -/
def passLanes (size : Nat) (l : List Loaded) : List (Nat × Nat × Nat) :=
  l.filterMap fun x => x.pass.map fun o => (x.strand, o, size)

/-- Delivers loaded numbers of `size` bytes to registers as variable-latency results (R58, R133). -/
def State.deliver (s : State) (d : Sel) (size : Nat) (sx : Bool) (vals : List (Nat × Nat)) : State :=
  match d with
  | .v n =>
      (List.range (max 1 (size / 4))).foldl (fun (s : State) k =>
        (s.writeV 0 (n.toNat + k) (vals.map fun e =>
          (e.1, BitVec.ofNat 32 (if size < 4 then extend (8 * size) 32 sx e.2 else e.2 / 2 ^ (32 * k))))).mark
            (.v (n.toNat + k))) s
  | .s n =>
      match vals with
      | [] => s
      | e :: _ =>
          (List.range (max 1 (size / 8))).foldl (fun (s : State) k =>
            (s.writeS 0 (n.toNat + k) (BitVec.ofNat 64
              (if size < 8 then extend (8 * size) 64 sx e.2 else e.2 / 2 ^ (64 * k)))).mark (.s (n.toNat + k))) s
  | _ => s

/-- The order of a load: addresses, the side log, translation, strict mode, the acquire, then the lanes
(R104, R120, R136). -/
def State.loadAll (s : State) (acc : Access) (m : Addr) (order scope policy : Nat) (lanes : List Nat)
    (finish : List Loaded → State → State) : State × Bool :=
  let w := s.who
  if lanes.isEmpty then (s, true)
  else
    match s.targets w m lanes with
    | .error e => (s.stop e, false)
    | .ok (ts, s1) =>
        match s.loggedPage ts with
        | some why => (s1.wait why, false)
        | none =>
            match s1.readyLanes w acc ts with
            | .error e => (s1.stop e, false)
            | .ok (rs, s2) =>
                match s2.locate w ts with
                | some (va, code) =>
                    (({ s2 with gang := { s2.gang with located := (s2.ipc, s2.run) :: s2.gang.located } } : State).trap cLocate
                      (BitVec.ofNat 64 (va % 2 ^ 57 + code * 2 ^ 60)), false)
                | none =>
                    let s3 := if order % 2 = 1 then s2.acquire w (scopeOf scope ts) else s2
                    let (xs, s4) := s3.loadLanes w policy m.size rs
                    let s5 := s4.countPasses m.size (passLanes m.size xs)
                    (finish xs { s5 with gang := { s5.gang with located := s5.located } }, true)

/-! ### Stores -/

/-- A part of a store: performed; retired into the side log of a page with the fault it met, and for a reduction's word the
further parts; or in scratch. -/
inductive StoreItem where
  | memory (strand va : Nat) (data : List Byte) (leaf : Leaf)
  | logged (strand page va : Nat) (data : List Byte) (rest : List (Nat × Nat)) (f : Option XFault)
  | scratch (strand : Nat) (off : Int) (data : List Byte)
deriving DecidableEq, Repr

/-- Sorts the parts of one lane: a page with entries logs every later store behind them (R104), a part that faults
retires into the log (R100). `fills` says that the store places the whole line beyond the L1: it needs the line's other
bytes (R107, R112). -/
def State.storeParts (s : State) (w : Who) (acc : Access) (fills : Bool) (i : Nat) :
    List (Nat × Nat) → List Byte → List StoreItem × State
  | [], _ => ([], s)
  | (va, n) :: rest, data =>
      let b := data.take n
      let (x, s) : StoreItem × State :=
        if s.pageLogged s.core w.asid (va / 65536) then (.logged i (va / 65536) va b [] none, s)
        else
          match s.leaf w acc va with
          | .error f => (.logged i (va / 65536) va b [] (some f.ofStore), s)
          | .ok (l, t) =>
              if fills && t.sys.isBad (l.addr va) && t.sys.needsMemory w va n then
                (.logged i (va / 65536) va b [] (some (.memError false)), s)
              else (.memory i va b l, t)
      let (xs, s) := s.storeParts w acc fills i rest (data.drop n)
      (x :: xs, s)

/-- The parts of every lane in ascending order. -/
def State.storeItems (s : State) (w : Who) (acc : Access) (fills : Bool) (data : Nat → List Byte) :
    List (Nat × Target) → List StoreItem × State
  | [] => ([], s)
  | (i, t) :: rest =>
      let (x, s) : List StoreItem × State := match t with
        | .scratch off => ([.scratch i off (data i)], s)
        | .memory _ => s.storeParts w acc fills i t.lineParts (data i)
      let (xs, s) := s.storeItems w acc fills data rest
      (x ++ xs, s)

/-- The pages a store logs, in order. -/
def loggedPages (l : List StoreItem) : List Nat :=
  distinct (l.filterMap fun x => match x with
    | .logged _ page .. => some page
    | _ => none)

/-- The first fault a page met, and where. -/
def pageFault (l : List StoreItem) (page : Nat) : Option (Nat × XFault) :=
  (l.filterMap fun x => match x with
    | .logged _ pg va _ rest (some f) =>
        if pg = page then some (if va / 65536 = pg then va else ((rest.find? fun p => p.1 / 65536 = pg).getD (va, 0)).1, f)
        else none
    | _ => none).head?

/-- An access to a peer that cannot be made holds its gang as a load does (R388). -/
def peerStop (acc : Access) (l : List StoreItem) : Option Stop :=
  (l.filterMap fun x => match x with
    | .logged _ _ va _ _ (some .peer) => some (Stop.fault va acc .peer)
    | _ => none).head?

/-- The lanes an entry of a page holds. -/
def pageLanes (l : List StoreItem) (page : Nat) (tag : Option Bool) : List LogLane :=
  l.filterMap fun x => match x with
    | .logged i pg va b rest _ =>
        if pg = page then
          some { strand := i, va := BitVec.ofNat 64 va, data := b, rest := rest, tag := if b.length = 16 then tag else none }
        else none
    | _ => none

/-- What an entry keeps of the instruction (R103). -/
structure LogShape where
  size : Nat
  op : Option (BitVec 4) := none
  rset : BitVec 16 := 0
  scope : Nat := 0
  order : Nat := 0
  tag : Option Bool := none
  /-- The strands a uniform instruction acts for. -/
  acts : Option Mask := none
deriving DecidableEq, Repr

/-- The entry of a page (R103). -/
def State.logEntry (s : State) (k : LogShape) (l : List StoreItem) (page : Nat) : LogEntry :=
  let lanes := pageLanes l page k.tag
  { asid := s.crew.asid, page := page, crewId := s.crew.id, gangId := s.logGang,
    strands := k.acts.getD (maskOf (lanes.map fun l => l.strand)), crewNumber := s.crew.number, exitRec := s.crew.exitRec,
    lanes := lanes, size := k.size, op := k.op, rset := k.rset, scope := k.scope, order := k.order, pc := s.ipc,
    priv := s.gang.priv, core := s.core, eject := s.gang.ej.isSome }

/-- Retires one page of a store or reduction: its fault record names a store (R384), and its entry is to enter the side log. A
fault that acts as refused discards it at once (R100, R106). -/
def State.logPage (s : State) (k : LogShape) (l : List StoreItem) (page : Nat) : List LogEntry × State :=
  match pageFault l page with
  | some (va, f) =>
      if f.refused then
        ([], (s.recordFault va s.crew.asid .store f s.core).updGang s.logGang fun g =>
          { g with discarded := g.discarded ++ [(BitVec.ofNat 64 va, s.ipc)] })
      else ([s.logEntry k l page], (s.openFault va s.crew.asid .store f s.core (.log s.core)).2)
  | none => ([s.logEntry k l page], s)

/-- Retires the pages of a store or reduction in order. -/
def State.logPages (s : State) (k : LogShape) (l : List StoreItem) : List Nat → List LogEntry × State
  | [] => ([], s)
  | p :: rest =>
      let (e, s) := s.logPage k l p
      let (es, s) := s.logPages k l rest
      (e ++ es, s)

/-- What a store or reduction could not perform enters the side log; where the log is full the gang holds (R100, R103). -/
def State.logStore (s : State) (k : LogShape) (l : List StoreItem) : State × Bool :=
  let (es, s) := s.logPages k l (loggedPages l)
  s.enterLog es

/-- Performs the parts of a store in ascending order (R137): a part that is forwarded to its line's park unit is one write
there (R119, log 57). -/
def State.performStores (s : State) (w : Who) (policy : Nat) (set : BitVec 16) (r : Readers) (tag : Option Bool) :
    List StoreItem → State
  | [] => s
  | x :: rest =>
      let s : State := match x with
        | .memory _ va b l => s.writePart w l policy set r va b (tag = some true && wholeGranule va b.length)
        | .logged .. => s
        | .scratch i off b =>
            match s.laneOff off b.length with
            | some why => s.noteOff i why
            | none => { s with crew := s.crew.scratchWrite off.toNat b (tag = some true) }
      s.performStores w policy set r tag rest

/-- The scratch lanes of a store that take part in passes. -/
def State.storePasses (s : State) (l : List StoreItem) : List (Nat × Nat × Nat) :=
  l.filterMap fun x => match x with
    | .scratch i off b => if (s.laneOff off b.length).isNone then some (i, off.toNat, b.length) else none
    | _ => none

/-- The order of a store: addresses, the lanes, the release with the store's own bytes, the log entries
(R103-R105, R110, R124, R137). DESIGN CHOICE: where more pages fault than the log has room for, the entries that fit enter first
and the gang holds with the rest (R12, log 53). `strands` are those it acts for, `uni` that it is uniform. -/
def State.storeAll (s : State) (m : Addr) (order scope policy : Nat) (set : BitVec 16) (lanes : List Nat) (strands : Mask)
    (uni : Bool) (tag : Option Bool) (data : Nat → List Byte) : State × Bool :=
  let w := s.who
  if lanes.isEmpty then (s, true)
  else
    match s.targets w m lanes with
    | .error e => (s.stop e, false)
    | .ok (ts, s1) =>
        let r := s1.sys.readers w set
        let (items, s2) := s1.storeItems w .store (r ≠ .none || 3 ≤ policy || w.noL1) data ts
        let wide := scopeOf (max scope (r.scope w)) ts
        if let some pg := s1.movedPage ts then (s1.wait (.logMoved s.crew.asid pg), false)
        else if let some e := peerStop .store items then (s1.stop e, false)
        else if 2 ≤ order && s1.logBlocked strands then (s1.wait (.logged strands), false)
        else
          let s3 := s2.performStores w policy set r tag items
          let s4 := if 2 ≤ order then s3.release w wide else s3
          let s5 := s4.countPasses m.size (s4.storePasses items)
          let k : LogShape :=
            { size := m.size, rset := set, scope := scope, order := order, tag := tag,
              acts := if uni then some strands else none }
          s5.logStore k items

end Sys2Proof.Machine
end

