-- ==== Sys2Proof/Machine/LoadStore.lean ====
section
/-! DEFINITION. LD, ST, LDC, STC, LDP, STP (R130-R139), LDS and STS (R167, R168), PREFETCH, FLUSH, INVAL (R146). -/

namespace Sys2Proof.Machine

/-- A selector that names a vector register. -/
def isVector : Sel → Bool
  | .v _ => true
  | _ => false

/-- The address of an access of the sized layout. -/
def memAddr (x : MemOp) (size : Nat) (need : BitVec 4) (space : AddrSpace) (align : Nat) : Addr :=
  { size := size, capb := x.capb, a := x.a, b := x.b, off := x.off, need := need, space := space, align := align }

/-- Acquire and release accesses are checked for alignment (R134). -/
def orderAlign (order : BitVec 2) (size : Nat) : Nat := if order = 0 then 0 else size

/-- A load of the family (R136). -/
def State.loadOp (s : State) (x : MemOp) (space : AddrSpace) : State × Bool :=
  let n := x.size.bytes
  s.loadAll .load (memAddr x n pRead space (orderAlign x.order n)) x.order.toNat x.scope.toNat x.policy.toNat
    (s.lanes x.d.isScalar x.hdr) fun l s =>
      s.deliver x.d n x.x73 (l.map fun e => (e.strand, fromBytes e.data))

/-- A store's data for a strand (R133). -/
def State.storeData (s : State) (c : Sel) (n i : Nat) : List Byte :=
  match c with
  | .v r => (toBytes n ((List.range (max 1 (n / 4))).foldl (fun a k =>
      a + (s.readV i (r.toNat + k)).toNat * 2 ^ (32 * k)) 0))
  | .s r => toBytes n ((s.readS r.toNat).toNat + (if n = 16 then (s.readS (r.toNat + 1)).toNat * 2 ^ 64 else 0))
  | _ => toBytes n 0

/-- A reader set other than none (R23). -/
def setGiven (set : BitVec 16) : Bool := 8192 ≤ set.toNat

/-- The permissions a store's capability base needs (R91, R137). -/
def storeNeeds (set : BitVec 16) : BitVec 4 := if setGiven set then pWrite ||| pPark else pWrite

/-- The strands an instruction acts for: every strand of the run when it is uniform (R48, R289). -/
def State.actsFor (s : State) (uni : Bool) (h : Hdr) : Mask := if uni then s.run else s.guard h

/-- A store of the family (R137); it is uniform when no source is a vector register (R135). -/
def State.storeOp (s : State) (x : MemOp) (space : AddrSpace) : State × Bool :=
  let n := x.size.bytes
  let uni := !isVector x.b && !isVector x.c
  s.storeAll (memAddr x n (storeNeeds x.rset) space (orderAlign x.order n)) x.order.toNat x.scope.toNat x.policy.toNat x.rset
    (s.lanes uni x.hdr) (s.actsFor uni x.hdr) uni none fun i => s.storeData x.c n i

/-- LD (R136). -/
def execLd (x : MemOp) (s : State) : Out := s.attempt { op := .ld } fun s => s.loadOp x .any

/-- ST (R137). -/
def execSt (x : MemOp) (s : State) : Out := s.attempt { op := .st } fun s => s.storeOp x .any

/-- LDP (R138). -/
def execLdp (x : MemOp) (s : State) : Out := s.attempt { op := .ldp } fun s => s.loadOp x .priv

/-- STP (R138). -/
def execStp (x : MemOp) (s : State) : Out := s.attempt { op := .stp } fun s => s.storeOp x .priv

/-- LDS (R168). -/
def execLds (x : MemOp) (s : State) : Out := s.attempt { op := .lds } fun s => s.loadOp x .scratch

/-- STS (R168). -/
def execSts (x : MemOp) (s : State) : Out := s.attempt { op := .sts } fun s => s.storeOp x .scratch

/-- LDC: 16 bytes and the granule's tag (R139). -/
def execLdc (x : MemOp) (s : State) : Out :=
  s.attempt { op := .ldc } fun s =>
    s.loadAll .load (memAddr x 16 pRead .any 16) x.order.toNat x.scope.toNat x.policy.toNat [0] fun l s =>
      match x.d, l with
      | .s n, e :: _ =>
          ((s.writePair 0 n.toNat (BitVec.ofNat 128 (fromBytes e.data)) e.tag).mark (.s n.toNat)).mark (.s (n.toNat + 1))
      | _, _ => s

/-- The tag of the pair that STC stores. -/
def State.tagOf (s : State) : Sel → Bool
  | .s n => s.readTag n.toNat
  | _ => false

/-- STC: 16 bytes and the pair's tag (R139). -/
def execStc (x : MemOp) (s : State) : Out :=
  s.attempt { op := .stc } fun s =>
    s.storeAll (memAddr x 16 (storeNeeds x.rset) .any 16) x.order.toNat x.scope.toNat x.policy.toNat x.rset [0] s.run
      true (some (s.tagOf x.c)) fun i => s.storeData x.c 16 i

/-! ### PREFETCH, FLUSH, INVAL (R146) -/

/-- The lines an instruction touches through a target, once each. -/
def targetLines (ts : List (Nat × Target)) : List Nat :=
  distinct ((ts.flatMap fun t => t.2.lineParts).map fun p => p.1 / 128)

/-- Fills one line towards the core, as far as POLICY says (R146): nothing where the translation fails or the line is parked
off the path. -/
def State.prefetchLine (s : State) (w : Who) (policy line : Nat) : State :=
  match s.leaf w .load (line * 128) with
  | .error _ => s
  | .ok (l, s) =>
      if (s.sys.walks w (line * 128)).isSome then s
      else (s.readPart w l policy (line * 128) 128).2

/-- The targets of the lanes whose addresses are sound: a strand that would raise CAP_BOUNDS, WINDOW or a fault drops its
prefetch (R146). A cause of the capability itself stops the gang. -/
def State.prefetchTargets (s : State) (w : Who) (m : Addr) : List Nat → Except Stop (List (Nat × Target) × State)
  | [] => .ok ([], s)
  | i :: rest =>
      match s.target w m i with
      | .error (.trap c) =>
          if c.1 = cCapBounds || c.1 = cWindow || c.1 = cHighwater || c.1 = cStitchIndex then s.prefetchTargets w m rest
          else .error (.trap c)
      | .error (.fault ..) => s.prefetchTargets w m rest
      | .ok (t, s) =>
          match s.prefetchTargets w m rest with
          | .error e => .error e
          | .ok (ts, s) => .ok ((i, t) :: ts, s)

/-- PREFETCH (R146). -/
def execPrefetch (x : MemOp) (s : State) : Out :=
  s.attempt { op := .prefetch } fun s =>
    let w := s.who
    match s.prefetchTargets w (memAddr x x.size.bytes pRead .any 0) (s.active x.hdr) with
    | .error e => (s.stop e, false)
    | .ok (ts, s) => ((targetLines ts).foldl (fun (s : State) n => s.prefetchLine w x.policy.toNat n) s, true)

/-- Makes memory current for one line (R146): the issuer's dirty bytes go out, the home gathers every copy, a parked line
is unparked and its reservation cleared; S copies stay. -/
def State.flushLine (s : State) (w : Who) (line : Nat) : State :=
  let s := match s.sys.l1Find w.core w.asid line with
    | some l =>
        if w.noL1 then s
        else
          let s := s.writeBack w l
          { s with sys := s.sys.updCore w.core fun k =>
              { k with l1 := k.l1.map fun (x : L1Line) => if x.asid = w.asid && x.line = line then { x with dirty := 0 } else x } }
    | none => s
  let key := dirKey w.asid line
  let y := (s.sys.gather w key).settle w key
  let y := y.setEntry w.asid line { y.entry w.asid line with reservation := none }
  { s with sys := y.toMemory w key (BitVec.allOnes 128) }

/-- Drops the issuer's ordinary L1 copy, and with CC the cluster's: what it has written goes to the home; a parked line
stays (R146). -/
def State.invalLine (s : State) (w : Who) (cc : Bool) (line : Nat) : State :=
  let s := if w.noL1 then s else s.l1Expel w w.core w.asid line
  if cc && (s.sys.entry w.asid line).holds (ccOf w.cluster) then
    { s with sys := s.sys.evictCluster w w.cluster (dirKey w.asid line) }
  else s

/-- What a FLUSH or INVAL of these strands waits for: an earlier logged store of theirs to one of the lines, in the log of
their core or of one that the gang has left (R147). -/
def State.loggedLine (s : State) (m : Mask) (lines : List Nat) : Option HoldWhy :=
  let mine (e : LogEntry) : Bool :=
    e.asid = s.crew.asid && e.gangId = s.logGang && e.strands &&& m ≠ 0 &&
      e.lanes.any fun x => lines.contains (x.va.toNat / 128) || x.rest.any fun p => lines.contains (p.1 / 128)
  (s.sys.cores.filterMap fun c => (c.2.log.find? mine).map fun e =>
    if c.1 = s.core then HoldWhy.logPage s.crew.asid e.page else .logMoved s.crew.asid e.page).head?

/-- The gang in focus as the agent of a FLUSH: its strands wait later for the write-backs that a memory error keeps in the log
(R105, R107, R147). -/
def State.flusher (s : State) (m : Mask) : Who :=
  { s.who with act := { gang := s.logGang, strands := m, number := s.crew.number, exitRec := s.crew.exitRec, pc := s.ipc } }

/-- FLUSH and INVAL of each active strand: a capability base needs a tag, a valid kind and its bounds; translation is that of
a store of the line's bytes, which an earlier write already made, so that only the address is checked here (R146). They are
ordered after the strands' logged stores to the same lines (R147). -/
def State.lineOp (s : State) (x : MemOp) (f : Who → Nat → State → State) : State × Bool :=
  let w := s.flusher (s.guard x.hdr)
  match s.targets w { memAddr x x.size.bytes 0 .any 0 with fields := false } (s.active x.hdr) with
  | .error e => (s.stop e, false)
  | .ok (ts, t) =>
    match s.loggedLine (s.guard x.hdr) (targetLines ts) with
    | some why => (t.wait why, false)
    | none => ((targetLines ts).foldl (fun (s : State) n => f w n s) t, true)

/-- FLUSH (R146). -/
def execFlush (x : MemOp) (s : State) : Out :=
  s.attempt { op := .flush } fun s => s.lineOp x fun w n s => s.flushLine w n

/-- INVAL (R146). -/
def execInval (x : MemOp) (s : State) : Out :=
  s.attempt { op := .inval } fun s => s.lineOp x fun w n s => s.invalLine w x.x73 n

end Sys2Proof.Machine
end

