-- ==== Sys2Proof/Machine/Atomics.lean ====
section
/-! DEFINITION. Atomics at the home slice and in scratch (R170-R175). -/

namespace Sys2Proof.Machine

/-- Each half of a word under a 16-bit float addition (R173). -/
def halvesAdd (f : FloatFmt) (o x : Nat) : Nat :=
  let half (k : Nat) : Nat :=
    (f.add RNE false (f.unpack (bitsAt o (16 * k) 16)) (f.unpack (bitsAt x (16 * k) 16)) 0).bits
  half 0 + 2 ^ 16 * half 1

/-- The new word of an atomic from the old one and the operand (R172, R173). -/
def atomicStep (op w o x : Nat) : Nat :=
  let f32 := Ty.floatFmt .f32
  match op with
  | 0 => (o + x) % 2 ^ w
  | 1 => if signed w x < signed w o then x else o
  | 2 => if signed w o < signed w x then x else o
  | 3 => min o x
  | 4 => max o x
  | 5 => o &&& x
  | 6 => o ||| x
  | 7 => o ^^^ x
  | 8 => x
  | 9 => (f32.add RNE false (f32.unpack o) (f32.unpack x) 0).bits
  | 10 => halvesAdd (Ty.floatFmt .f16) o x
  | 11 => halvesAdd (Ty.floatFmt .bf16) o x
  | 12 => (f32.minMax false o x).1
  | _ => (f32.minMax true o x).1

/-- What one atomic does to a word: an operation, or a compare and swap. -/
inductive AtomKind where
  | rmw (op : Nat)
  | cas
deriving DecidableEq, Repr

/-- The new word for a lane's operand and, for a compare and swap, its new value (R174). -/
def AtomKind.apply (k : AtomKind) (w old x new : Nat) : Nat :=
  match k with
  | .rmw op => atomicStep op w old x
  | .cas => if old = x then new else old

/-- A parked line must be recalled to its home for an atomic (R119, R170): one that stands as replicas, at its home or in the
home die's L2 is there already and counts no recall (DESIGN CHOICE, log 57). -/
def ParkUnit.recalled (home : Nat) : ParkUnit → Bool
  | .home | .replicas _ => false
  | .dieL2 d => d ≠ home
  | .l1 _ | .cluster _ => true

/-- An atomic's request reaches the home: the core's own line goes out first, a recall is counted, and of a parked line the
core is a writer (R119, R120, R170). -/
def State.atomArrive (s : State) (w : Who) (va : Nat) : State :=
  let s := if w.noL1 then s else s.l1Expel w w.core w.asid (va / 128)
  match s.sys.parked w.asid (va / 128) with
  | some p =>
      let e := s.sys.entry w.asid (va / 128)
      let p' := if p.writers.contains w.core then p else { p with writers := p.writers ++ [w.core] }
      let s : State := { s with sys := s.sys.setEntry w.asid (va / 128) { e with parked := some p' } }
      if p.place.recalled (homeDie va) then s.countLocate w 1 else s
  | none => s

/-- Reads the parts of a word at the home; a word that a STITCH list splits is read and written part by part, each at its own
home (DESIGN CHOICE, log 57). -/
def State.homeReadParts (s : State) (l : List (Nat × Nat × Leaf)) : List Byte := l.flatMap fun p => s.homeRead p.2.2 p.1 p.2.1

/-- Writes the parts of a word at the home. -/
def State.homeWriteParts (s : State) (w : Who) : List (Nat × Nat × Leaf) → List Byte → State
  | [], _ => s
  | (va, n, l) :: rest, b => (s.homeWrite w l va (b.take n)).homeWriteParts w rest (b.drop n)

/-- One lane's read-modify-write of memory (R171, R174): the old word, and the state after. A request of several lanes
arrives once, at the home of each line that its word touches. -/
def State.atomMemory (s : State) (w : Who) (k : AtomKind) (size x new : Nat) (first : Bool) (parts : List (Nat × Nat × Leaf)) :
    Nat × State :=
  let s := if first then (distinct (parts.map fun p => p.1 / 128)).foldl (fun (s : State) n => s.atomArrive w (n * 128)) s else s
  let old := fromBytes (s.homeReadParts parts)
  (old, s.homeWriteParts w parts (toBytes size (k.apply (8 * size) old x new)))

/-- Performs the lanes in ascending order (R171): what each returns, and the lanes of scratch passes. -/
def State.atomLanes (s : State) (w : Who) (k : AtomKind) (size : Nat) (x new : Nat → Nat) (seen : List Nat) :
    List (Nat × Ready) → List (Nat × Nat) × List (Nat × Nat × Nat) × State
  | [] => ([], [], s)
  | (i, r) :: rest =>
      match r with
      | .memory parts =>
          let va := (parts.headD (0, 0, { pa := 0, rights := {} })).1
          let (old, s) := s.atomMemory w k size (x i) (new i) (!seen.contains va) parts
          let (vs, ps, s) := s.atomLanes w k size x new (va :: seen) rest
          ((i, old) :: vs, ps, s)
      | .scratch off =>
          match s.laneOff off size with
          | some why =>
              let (vs, ps, s) := (s.noteOff i why).atomLanes w k size x new seen rest
              ((i, 0) :: vs, ps, s)
          | none =>
              let old := fromBytes (s.crew.scratchRead off.toNat size)
              let data := toBytes size (k.apply (8 * size) old (x i) (new i))
              let s := { s with crew := s.crew.scratchWrite off.toNat data false }
              let (vs, ps, s) := s.atomLanes w k size x new seen rest
              ((i, old) :: vs, (i, off.toNat, size) :: ps, s)

/-- The lanes of a reduction: those performed now, and those that retire into the side log whole, with the page and fault of
their first part that cannot be reached (R100, R104). -/
def State.redItems (s : State) (w : Who) (data : Nat → List Byte) :
    List (Nat × Target) → List StoreItem × List (Nat × Ready) × State
  | [] => ([], [], s)
  | (i, t) :: rest =>
      match t with
      | .scratch off =>
          let (xs, rs, s) := s.redItems w data rest
          (xs, (i, .scratch off) :: rs, s)
      | .memory _ =>
          let parts := t.lineParts
          let log (page : Nat) (f : Option XFault) : List StoreItem × List (Nat × Ready) × State :=
            let (xs, rs, s) := s.redItems w data rest
            (.logged i page (parts.headD (0, 0)).1 (data i) parts.tail f :: xs, rs, s)
          match parts.find? fun p => s.pageLogged s.core w.asid (p.1 / 65536) with
          | some p => log (p.1 / 65536) none
          | none =>
              match s.leaves w .atomic parts with
              | .error (.fault va _ f) => log (va / 65536) (some f.ofStore)
              | .error (.trap _) => log ((parts.headD (0, 0)).1 / 65536) none
              | .ok (ls, s) =>
                  let (xs, rs, s) := s.redItems w data rest
                  (xs, (i, .memory ls) :: rs, s)

/-- The effect once addresses and waits are settled: the release, the lanes, the returns, the acquire (R174). -/
def State.atomFinish (s : State) (x : AtomOp) (k : AtomKind) (scope : Nat) (xv new : Nat → Nat) (rs : List (Nat × Ready)) :
    State :=
  let w := s.who
  let s := if 2 ≤ x.order.toNat then s.release w scope else s
  let (vals, ps, s) := s.atomLanes w k x.size.bytes xv new [] rs
  let s := s.countPasses x.size.bytes ps
  let s := if x.order.toNat % 2 = 1 then s.acquire w scope else s
  s.deliver x.d x.size.bytes false vals

/-- ATOM, RED, CAS, ATOMS, CASS (R173-R175). An access with a return value holds its gang on a fault; one without retires
into the side log. -/
def State.atomAll (s : State) (x : AtomOp) (space : AddrSpace) (k : AtomKind) (red : Bool) : State × Bool :=
  let n := x.size.bytes
  let uni := x.d.isScalar || (red && !isVector x.b && !isVector x.c)
  let lanes := s.lanes uni x.hdr
  let strands := s.actsFor uni x.hdr
  let step : Nat := match x.c with
    | .v _ => n / 4
    | _ => 1
  let operand (j i : Nat) : Nat := match x.c with
    | .v r => s.src (8 * n) false (.v (r + BitVec.ofNat 7 (j * step))) 0 i
    | .s r => (s.readS (r.toNat + j)).toNat % 2 ^ (8 * n)
    | _ => 0
  let m : Addr := { size := n, capb := x.capb, a := x.a, b := x.b, off := x.off, need := pRead ||| pWrite, space := space,
                    align := n }
  if lanes.isEmpty then (s, true)
  else
    match s.targets s.who m lanes with
    | .error e => (s.stop e, false)
    | .ok (ts, s1) =>
        let scope := scopeOf x.scope.toNat ts
        let blocked := 2 ≤ x.order.toNat && s1.logBlocked strands
        if k = .cas || x.d ≠ .none then
          match s1.loggedPage ts with
          | some why => (s1.wait why, false)
          | none =>
              match s1.readyLanes s.who .atomic ts with
              | .error e => (s1.stop e, false)
              | .ok (rs, s2) =>
                  if blocked then (s1.wait (.logged strands), false)
                  else (s2.atomFinish x k scope (operand 0) (operand 1) rs, true)
        else
          if let some pg := s1.movedPage ts then (s1.wait (.logMoved s.crew.asid pg), false) else
          let (items, ready, s2) := s1.redItems s.who (fun i => toBytes n (operand 0 i)) ts
          if let some e := peerStop .atomic items then (s1.stop e, false)
          else if blocked then (s1.wait (.logged strands), false)
          else
            let s3 := s2.atomFinish x k scope (operand 0) (operand 1) ready
            let shape : LogShape :=
              { size := n, op := some x.op, scope := x.scope.toNat, order := x.order.toNat,
                acts := if uni then some strands else none }
            s3.logStore shape items

/-- ATOM (R174). -/
def execAtom (x : AtomOp) (s : State) : Out := s.attempt { op := .atom } fun s => s.atomAll x .any (.rmw x.op.toNat) false

/-- RED (R174). -/
def execRed (x : AtomOp) (s : State) : Out := s.attempt { op := .red } fun s => s.atomAll x .any (.rmw x.op.toNat) true

/-- CAS (R174). -/
def execCas (x : AtomOp) (s : State) : Out := s.attempt { op := .cas } fun s => s.atomAll x .any .cas false

/-- ATOMS (R175). -/
def execAtoms (x : AtomOp) (s : State) : Out :=
  s.attempt { op := .atoms } fun s => s.atomAll x .scratch (.rmw x.op.toNat) false

/-- CASS (R175). -/
def execCass (x : AtomOp) (s : State) : Out := s.attempt { op := .cass } fun s => s.atomAll x .scratch .cas false

end Sys2Proof.Machine
end

