-- ==== Sys2Proof/Machine/Placement.lean ====
section
/-! DEFINITION. PARK, UNPARK, REVISE (R142-R145) and the seals (R154, R155). -/

namespace Sys2Proof.Machine

/-- The lines of `n` bytes from an address. -/
def linesFrom (a n : Nat) : List Nat :=
  if n = 0 then [] else (List.range ((a + n - 1) / 128 + 1 - a / 128)).map fun k => a / 128 + k

/-- The lines of a capability's range: for TILE2D the bytes of each row (R142); scratch has none. -/
def Cap.lines (c : Cap) : List Nat :=
  if c.inScratch then []
  else if c.kind = some .tile then
    distinct ((List.range c.rows).flatMap fun r => linesFrom (c.base + r * c.pitch * 64) (c.rb + c.sb))
  else linesFrom c.base c.footprint

/-- The counts of a status word (R143). -/
structure ParkCount where
  lines : Nat := 0
  outward : Nat := 0
  skipped : Nat := 0
deriving DecidableEq, Repr

/-- The status word, its fields saturated (R143). -/
def ParkCount.word (c : ParkCount) : Nat :=
  min c.lines (2 ^ 32 - 1) + min c.outward 0xFFFF * 2 ^ 32 + min c.skipped 0xFFFF * 2 ^ 48

/-- PARK on one line (R144): one that was demoted from the level of the set, or has lost a replica, moves back to it (R145). For a
line of a peer the set acts as none: it counts nothing (R388). -/
def State.parkOne (s : State) (w : Who) (set : BitVec 16) (r : Readers) (line : Nat) (c : ParkCount) : ParkCount × State :=
  let placed (s : State) : ParkCount × State :=
    match s.sys.parked w.asid line with
    | some p => if p.reserved then ({ c with lines := c.lines + 1 }, s) else ({ c with outward := c.outward + 1 }, s)
    | none => ({ c with outward := c.outward + 1 }, s)
  match s.sys.parked w.asid line with
  | some p =>
      if p.set = set && p.readers = r && r.unit = some p.place then
        let e := s.sys.entry w.asid line
        ({ c with lines := c.lines + 1 },
          { s with sys := s.sys.setEntry w.asid line { e with parked := some { p with reserved := true } } })
      else placed (s.parkLine w w.asid line (s.sys.entry w.asid line).pa false { p with set := set, readers := r, reserved := true })
  | none =>
      match s.leaf { w with engine := true } .load (line * 128) with
      | .error _ => ({ c with skipped := c.skipped + 1 }, s)
      | .ok (l, s) =>
          let e := { s.sys.entry w.asid line with reservation := none }
          if !isMemory (l.addr (line * 128)) then (c, s)
          else placed (({ s with sys := s.sys.setEntry w.asid line e } : State).parkLine w w.asid line (l.line (line * 128)) false
            { place := .home, set := set, readers := r, reserved := true, age := 0, writers := [], rights := l.rights, keep := 1 })

/-- UNPARK on one line (R144). -/
def State.unparkOne (s : State) (w : Who) (line : Nat) (c : ParkCount) : ParkCount × State :=
  let e := s.sys.entry w.asid line
  match e.parked with
  | some p =>
      if p.reserved then
        ({ c with lines := c.lines + 1 },
          { s with sys := s.sys.setEntry w.asid line { e with parked := some { p with reserved := false } } })
      else (c, s)
  | none => (c, s)

/-- REVISE on one line (R144): to the host the line is written through to memory and its parked copies dropped, to none it
becomes an ordinary one at home and the reservation is cleared. A reservation outlives the copies that go to the host, under
the old set, and the line counts as moved (DESIGN CHOICE, log 57). -/
def State.reviseOne (s : State) (w : Who) (set : BitVec 16) (r : Readers) (line : Nat) (c : ParkCount) : ParkCount × State :=
  let key := dirKey w.asid line
  match s.sys.parked w.asid line with
  | none => (c, s)
  | some p =>
      let moved := { c with lines := c.lines + 1 }
      if p.set = set && p.readers = r then (c, s)
      else
        match r with
        | .host copy =>
            let y := s.sys.toMemory w key (BitVec.allOnes 128)
            let e := y.entry w.asid line
            let y := y.setEntry w.asid line { e with parked := none, reservation := if p.reserved then some p.set else none }
            let s : State := { s with sys := y }
            (moved, match copy with
              | some u => s.cleanCopy w { pa := e.pa / 65536 * 65536, rights := p.rights } 0 line u
              | none => { s with sys := s.sys.setEntry w.asid line (s.sys.entry w.asid line).tidy })
        | .none =>
            let y := s.sys.settle w key
            (moved, { s with sys := y.setEntry w.asid line { y.entry w.asid line with reservation := none } })
        | _ => (moved, s.parkLine w w.asid line (s.sys.entry w.asid line).pa true { p with set := set, readers := r })

/-- The shared form of the three: the capability, the lines one after another, the status word (R142, R143). -/
def State.rangeOp (s : State) (x : Fun) (f : Nat → ParkCount → State → ParkCount × State) : State × Bool :=
  let (c, tag) := s.capOf x.a
  match c.check tag [.linear, .tile] pPark 1 0 with
  | some e => (s.trap e.1 e.2, false)
  | none =>
      let (k, s) := c.lines.foldl (fun (a : ParkCount × State) n => f n a.1 a.2) ({}, s)
      (s.deliver x.d 8 false [(0, k.word)], true)

/-- The reader set of IMM 31-16. -/
def Fun.rset (x : Fun) : BitVec 16 := x.imm.extractLsb' 16 16

/-- PARK (R144): the host, or a set that acts as none, counts nothing; so does a table entry that names the host beside others, and
it leaves no clean copy (DESIGN CHOICE, log 57). -/
def execPark (x : Fun) (s : State) : Out :=
  s.attempt { op := .park } fun s =>
    let w := s.who
    let r := s.sys.readers w (Fun.rset x)
    s.rangeOp x fun n c s => if r.unit.isNone then (c, s) else s.parkOne w (Fun.rset x) r n c

/-- UNPARK (R144). -/
def execUnpark (x : Fun) (s : State) : Out :=
  s.attempt { op := .unpark } fun s => s.rangeOp x fun n c t => t.unparkOne s.who n c

/-- REVISE (R144). -/
def execRevise (x : Fun) (s : State) : Out :=
  s.attempt { op := .revise } fun s =>
    let w := s.who
    let r := s.sys.readers w (Fun.rset x)
    s.rangeOp x fun n c s => s.reviseOne w (Fun.rset x) r n c

/-! ### Seals (R154, R155) -/

/-- The version of a frame after a seal operation (R155). -/
inductive SealOp where
  | seal | unseal | advance
deriving DecidableEq, Repr

def SealOp.next (o : SealOp) (v : Nat) : Nat :=
  match o with
  | .seal => if v = 0 then 1 else v
  | .unseal => 0
  | .advance => if v = 0xFFFFFF then 1 else v + 1

/-- The pages of a footprint on 64 KiB boundaries; scratch has no frames. -/
def Cap.pages (c : Cap) : List Nat :=
  if c.inScratch then [] else (List.range (c.footprint / 65536)).map fun k => c.base + 65536 * k

/-- The frames of pages; a page that faults stops the instruction (R155). -/
def State.frames (s : State) (w : Who) : List Nat → Except Stop (List Nat × State)
  | [] => .ok ([], s)
  | va :: rest =>
      match s.page { w with engine := true } .load va with
      | .error f => .error (.fault va .load f)
      | .ok (l, s) =>
          match s.frames w rest with
          | .error e => .error e
          | .ok (fs, s) => .ok (l.addr va / 65536 :: fs, s)

/-- SEAL, SEAL.OPEN and RESEAL (R155): the release at system scope, then the versions; the result is the first frame's new
version, a free value for a footprint without a frame (log 10). -/
def State.sealAll (s : State) (x : Fun) (o : SealOp) : State × Bool :=
  let (c, tag) := s.capOf x.a
  let stop := c.base + c.footprint
  match c.check tag [.linear, .tile] pSeal 1 0 with
  | some e => (s.trap e.1 e.2, false)
  | none =>
      if c.base % 65536 ≠ 0 || stop % 65536 ≠ 0 then
        let e := misaligned ((if c.base % 65536 ≠ 0 then c.base else stop : Nat) : Int) 0
        (s.trap e.1 e.2, false)
      else if s.logBlocked s.run then (s.wait (.logged s.run), false)
      else
        match s.frames s.who c.pages with
        | .error e => (s.stop e, false)
        | .ok (fs, s1) =>
            let s2 := s1.release s.who 6
            let s3 : State := { s2 with sys := { s2.sys with
              seals := (distinct fs).foldl (fun m f => Sparse.upd 0 m f o.next) s2.sys.seals } }
            match fs with
            | f :: _ => (s3.deliver x.d 8 false [(0, s3.sys.seals.get 0 f)], true)
            | [] =>
                let (v, s4) := s3.free
                (s4.deliver x.d 8 false [(0, v.toNat)], true)

/-- SEAL (R155). -/
def execSeal (x : Fun) (s : State) : Out := s.attempt { op := .seal } fun s => s.sealAll x .seal

/-- SEAL.OPEN (R155). -/
def execSealOpen (x : Fun) (s : State) : Out := s.attempt { op := .seal } fun s => s.sealAll x .unseal

/-- RESEAL (R155). -/
def execReseal (x : Fun) (s : State) : Out := s.attempt { op := .reseal } fun s => s.sealAll x .advance

end Sys2Proof.Machine
end

