-- ==== Sys2Proof/Machine/CapOps.lean ====
section
/-! DEFINITION. The capability group (R148-R153). -/

namespace Sys2Proof.Machine

/-- CAPSET (R149). -/
def execCapset (x : Fun) (s : State) : Out :=
  s.attempt { op := .capset, priv := true } fun s =>
    let (c, _) := s.capOf x.a
    match c.checkKind true [.linear, .tile, .stitch] 1 0 with
    | some e => (s.trap e.1 e.2, false)
    | none =>
        if !c.fieldsOk then (s.trap cCapField (capInfo 1 0), false)
        else
          match x.d with
          | .s n => (s.writePair 2 n.toNat c.raw true, true)
          | _ => (s, true)

/-- The checks on the source of a CAPNARROW, the sub-function's kind and operands, then those on its result: the cause, or the
result written and tagged (R148, R150). A base that BASE cannot hold lies within nothing. Of a result that fails both checks
CAP_WIDEN is raised (DESIGN CHOICE, log 59). -/
def State.narrow (s : State) (x : Fun) (kinds : List CapKind) (f : Cap → Except Cause Cap) : State × Bool :=
  let (c, tag) := s.capOf x.a
  match c.check tag [.linear, .tile, .stitch] 0 1 0 with
  | some e => (s.trap e.1 e.2, false)
  | none =>
      match c.checkKind true kinds 1 0 with
      | some e => (s.trap e.1 e.2, false)
      | none =>
          match f c with
          | .error e => (s.trap e.1 e.2, false)
          | .ok v =>
              if !v.within c || 2 ^ 57 ≤ v.base then (s.trap cCapWiden (capInfo 1 0), false)
              else if !(Cap.ofQuad v.toQuad).fieldsOk then (s.trap cCapField (capInfo 1 0), false)
              else
                match x.d with
                | .s n => (s.writePair 2 n.toNat v.toQuad true, true)
                | _ => (s, true)

/-- CAPNARROW.RANGE (R150). -/
def execCapnarrowRange (x : Fun) (s : State) : Out :=
  s.attempt { op := .capnarrow } fun s =>
    s.narrow x [.linear] fun c =>
      if c.bs then .error (cCapField, capInfo 1 0)
      else .ok { c with base := c.base + (s.scalar x.b).toNat, len := (s.scalar x.c).toNat }

/-- CAPNARROW.PERM (R150). -/
def execCapnarrowPerm (x : Fun) (s : State) : Out :=
  s.attempt { op := .capnarrow } fun s =>
    s.narrow x [.linear, .tile, .stitch] fun c => .ok { c with perms := c.perms &&& x.imm.extractLsb' 0 4 }

/-- The sub-tile of a TILE2D (R150). -/
def Cap.subtile (c : Cap) (b d : Nat) : Except Cause Cap :=
  let row0 := bitsAt b 0 20
  let col0 := bitsAt b 20 20
  let rows := bitsAt d 0 20
  let cols := bitsAt d 20 20
  if 2 ^ 40 ≤ b then .error (cCapField, capInfo 2 0)
  else if 2 ^ 40 ≤ d then .error (cCapField, capInfo 3 0)
  else if col0 * c.bits % 8 ≠ 0 || (c.bs && (col0 ≠ 0 || cols ≠ c.cols)) then .error (cCapField, capInfo 1 0)
  else if c.rows < row0 + rows || c.cols < col0 + cols then .error (cCapWiden, capInfo 1 0)
  else
    .ok { c with base := c.base + row0 * c.pitch * 64 + col0 * c.bits / 8, rows := rows, cols := cols,
                 ring := c.ring && row0 = 0 && rows = c.rows }

/-- CAPNARROW.SUBTILE (R150). -/
def execCapnarrowSubtile (x : Fun) (s : State) : Out :=
  s.attempt { op := .capnarrow } fun s =>
    s.narrow x [.tile] fun c => c.subtile (s.scalar x.b).toNat (s.scalar x.c).toNat

/-- CAPNARROW.VERSION (R150). -/
def execCapnarrowVersion (x : Fun) (s : State) : Out :=
  s.attempt { op := .capnarrow } fun s =>
    s.narrow x [.stitch] fun c =>
      if 2 ^ 32 ≤ (s.scalar x.b).toNat then .error (cCapField, capInfo 2 0) else .ok { c with ver := (s.scalar x.b).toNat }

/-- CAPNARROW.RETYPE (R150). -/
def execCapnarrowRetype (x : Fun) (s : State) : Out :=
  s.attempt { op := .capnarrow } fun s =>
    s.narrow x [.linear] fun c =>
      let b := (s.scalar x.b).toNat
      let p := (s.scalar x.c).toNat
      let fmt := bitsAt x.imm.toNat 0 4
      let bs := x.imm.getLsbD 4
      let tile := x.imm.getLsbD 5
      if tile && 2 ^ 40 ≤ b then .error (cCapField, capInfo 2 0)
      else if tile && 2 ^ 16 ≤ p then .error (cCapField, capInfo 3 0)
      else if c.fmt ≠ 0 || c.bs then .error (cCapWiden, capInfo 1 0)
      else if tile then
        .ok { c with kind := some .tile, fmt := fmt, bs := bs, len := 0, ring := false, pitch := p, cols := bitsAt b 20 20,
                     rows := bitsAt b 0 20 }
      else .ok { c with fmt := fmt, bs := bs }

/-- The field CAPGET reads (R151). -/
def Cap.field (c : Cap) (tag : Bool) (fn : Nat) : Nat :=
  match fn with
  | 0 => if tag then 1 else 0
  | 1 => bitsAt c.raw.toNat 124 4
  | 2 => c.perms.toNat
  | 3 => c.fmt + (if c.bs then 16 else 0)
  | _ =>
      if c.kind.isNone then 0
      else
        match fn with
        | 4 => c.base
        | 5 => c.len + c.rows
        | 6 => c.cols
        | 7 => c.pitch
        | 8 => if c.ring then 1 else 0
        | 9 => c.ver
        | _ => c.footprint

/-- CAPGET (R151). -/
def execCapget (x : Fun) (s : State) : Out :=
  s.sequential { op := .capget } fun s =>
    let (c, tag) := s.capOf x.a
    s.result x.d 64 false (some 2) [(0, c.field tag x.fn.toNat)]

/-- The access that CAPCHK tests passes its bounds and alignment (R152). -/
def State.chkBounds (s : State) (x : ChkOp) (c : Cap) (i : Nat) : Bool :=
  let n := x.size.bytes
  match c.kind with
  | some .linear =>
      (linearAddr c (signed 64 (wrapInt 64 (s.index x.b i * n + dispOf x.off n))) n 1 i).toOption.isSome
  | some .tile => (tileAddr c (s.tileIndex x.b i).1 (s.tileIndex x.b i).2 (dispOf x.off n) n 1 i).toOption.isSome
  | some .stitch => true
  | none => false

/-- CAPCHK (R152). -/
def execCapchk (x : ChkOp) (s : State) : Out :=
  s.attempt { op := .capchk } fun s =>
    let (c, tag) := s.capOf x.a
    if s.columnMissing c x.b then
      (s.trap cIllegalOperand (BitVec.ofNat 64 (2 + x.b.code.toNat * 256)), false)
    else
      let sound := (c.check tag [.linear, .tile, .stitch] x.perms 1 0).isNone
      (s.result x.d 32 false (some 4) ((s.active x.hdr).map fun i => (i, if sound && s.chkBounds x c i then 1 else 0)), true)

/-- CAPMOV: the bits and the tag; of a pair onto itself nothing changes, the handles its registers hold among it (R153). -/
def execCapmov (x : Fun) (s : State) : Out :=
  s.sequential { op := .capmov } fun s =>
    match x.a, x.d with
    | .s a, .s d =>
        let t := s.writePair 2 d.toNat (s.readPair a.toNat) (s.readTag a.toNat)
        if a = d then { t with gang := { t.gang with handleIds := s.gang.handleIds } } else t
    | _, _ => s

end Sys2Proof.Machine
end

