-- ==== Sys2Proof/Machine/Fetch.lean ====
section
/-! DEFINITION. Instruction lines (R34, R39-R43): the slots and the line word, their parity, the line a core would issue
from, and the checks on branch targets (R42). -/

namespace Sys2Proof.Machine

/-- A 64-byte line of instructions. -/
abbrev CodeLine := BitVec 512

/-- The word in a slot of a line (R34). -/
def slotWord (l : CodeLine) (i : Nat) : InstrWord := l.extractLsb' (96 * i) 96

/-- The line word (R34). -/
def lineWord (l : CodeLine) : Word := l.extractLsb' 480 32

/-- The parity of a number of bits. -/
def parity (n x : Nat) : Bool := popCount n x % 2 = 1

/-- The 15 instruction parity bits and bit 31 agree with the bits they cover (R34, R39). -/
def parityOk (l : CodeLine) : Bool :=
  let w := lineWord l
  ((List.range 15).all fun k => w.getLsbD (16 + k) = parity 32 ((slotWord l (k / 3)).extractLsb' (32 * (k % 3)) 32).toNat) &&
    w.getLsbD 31 = parity 31 (w.extractLsb' 0 31).toNat

/-- Bits 15-9 of the line word that are not zero, numbered as TRAPINFO does (R39, R63). -/
def lineBits (l : CodeLine) : List Nat := (List.range 7).filterMap fun i => if (lineWord l).getLsbD (9 + i) then some (9 + i) else none

/-- A line with the parity its slots need: target bits and template given (R34). -/
def sealLine (slots : Nat → InstrWord) (targets templ : Nat) : CodeLine :=
  let par := (List.range 15).foldl (fun a k =>
    a + (if parity 32 ((slots (k / 3)).extractLsb' (32 * (k % 3)) 32).toNat then 2 ^ (16 + k) else 0)) 0
  let w := targets % 32 + templ % 16 * 32 + par
  let w := w + (if parity 31 w then 2 ^ 31 else 0)
  BitVec.ofNat 512 ((List.range 5).foldl (fun a i => a + (slots i).toNat * 2 ^ (96 * i)) 0 + w * 2 ^ 480)

/-- A line of the instruction buffer (R40). -/
def Core.bufLine (c : Core) (asid : Asid) (va : Nat) : Option CodeLine :=
  (c.ibuf.find? fun l => l.asid = asid && l.line = va / 64).map fun l => l.data

/-- The line the gang in focus issues from, when its core holds it. -/
def State.heldLine (s : State) (pc : Pc) : Option CodeLine := (s.sys.core s.core).bufLine s.crew.asid (pcLine pc)

/-- The line as a fetch would bring it, if it can be fetched and its parity agrees; nothing changes (R39, R107). -/
def State.peekLine (s : State) (va : Nat) : Option CodeLine :=
  match (s.sys.core s.core).bufLine s.crew.asid va with
  | some l => some l
  | none =>
      if Config.ownBase ≤ va then none
      else
        match s.leaf { s.who with engine := true } .fetch va with
        | .ok (l, _) => some (BitVec.ofNat 512 (fromBytes (s.homeRead l va 64))) |>.filter parityOk
        | .error _ => none

/-- The fields of the instruction at a PC, when its line can be read and its opcode is assigned. -/
def State.peekOp (s : State) (pc : Pc) : Option (Op × Fields) :=
  match s.peekLine (pcLine pc) with
  | none => none
  | some l =>
      let f := Fields.ofWord (slotWord l (pcSlot pc))
      (Op.ofCode f.op).map fun o => (o, f)

/-- The checks on a branch target in the order of R42; the bit of a line that cannot be read yet is checked when it is fetched. -/
def State.targetOk (s : State) (t : Dword) : Bool :=
  t.extractLsb' 57 7 = 0 && t.extractLsb' 3 3 = 0 && pcSlot t < 5 &&
    match s.peekLine (pcLine t) with
    | some l => (lineWord l).getLsbD (pcSlot t)
    | none => true

/-- A direct target, from the PC of the branch (R42). -/
def directTarget (pc : Pc) (imm : Word) : Dword :=
  dwordOfInt ((pcLine pc : Nat) + signed 29 (imm.toNat / 8) * 64 + (imm.toNat % 8 : Nat))

end Sys2Proof.Machine
end

