-- ==== Sys2Proof/Machine/Select.lean ====
section
/-! DEFINITION. Which run a gang issues (R309, R310), who takes part in a collective (R259, R261-R263), the scoreboard and
the early reads an instruction makes (R56-R58), and when a gang is ready (R331). -/

namespace Sys2Proof.Machine

/-! ### Partitions (R259) -/

/-- The subgroup of a strand and its rank in it. -/
def Part.sub (p : Part) (i : Nat) : Nat := if p.ilv then i % (32 / p.n) else i / p.n
def Part.rank (p : Part) (i : Nat) : Nat := if p.ilv then i / (32 / p.n) else i % p.n

/-- The member of a subgroup with a rank. -/
def Part.member (p : Part) (k r : Nat) : Nat := if p.ilv then r * (32 / p.n) + k else k * p.n + r

/-- The members of the subgroups that hold a strand of a mask (R262). -/
def Part.touched (p : Part) (run : Mask) : Mask :=
  let subs := (Mask.list run).map p.sub
  maskOf ((List.range 32).filter fun i => subs.contains (p.sub i))

/-- The group operand: a g register, or ALL (R259, R265). -/
def State.group (s : State) (c : Sel) : Part :=
  match c with
  | .g n => s.readG n.toNat
  | _ => {}

/-- An ejected member: out, on a marionette or on its way back. -/
def StrandState.away : StrandState → Bool
  | .out | .ej | .back => true
  | _ => false

/-- In the PC table and not waiting at a JOIN (R310). -/
def StrandState.inTable : StrandState → Bool
  | .ready | .parked => true
  | _ => false

/-! ### Settling the PC table -/

/-- A collective at which strands park: the collectives group except plain SMXSTEP, PART and PRIO, which name no subgroup
(R309). -/
def parksAt (o : Op) (f : Fields) : Bool :=
  match o with
  | .shfl | .vote | .ballot | .redux | .scan | .matchI | .elect => true
  | .smxstep => f.var = 1
  | _ => false

/-- A strand at a collective whose subgroup has a live member in the PC table at a smaller PC (R309). -/
def State.laggard (s : State) (i : Nat) : Bool :=
  let x := s.gang.strand i
  match s.peekOp x.pc with
  | none => false
  | some (o, f) =>
      parksAt o f &&
        let p := s.group (Sel.ofCodeD f.c)
        (List.range 32).any fun j =>
          p.sub j = p.sub i && (s.gang.strand j).st.inTable && (s.gang.strand j).pc.toNat < x.pc.toNat

/-- The members of the open groups that rejoin at a PC, neither DONE nor there (R319). -/
def Gang.missing (g : Gang) (pc : Pc) : Mask :=
  let m := (g.groups.filter fun r => r.rejoin = pc).foldl (fun m r => m ||| r.members) 0
  m &&& g.live &&& ~~~(maskOf ((List.range 32).filter fun i => (g.strand i).pc = pc && !(g.strand i).st.away))

/-- Some group that rejoins at a PC has waited its time (R319). -/
def Gang.waitOver (g : Gang) (pc : Pc) : Bool := g.groups.any fun r => r.rejoin = pc && r.expired

/-- A strand's entry after parking, unparking and the end of a wait at JOIN: with REJOINWAIT 0 none waits (R309, R319). -/
def State.settled (s : State) (i : Nat) : Strand :=
  let x := s.gang.strand i
  match x.st with
  | .ready => if s.laggard i then { x with st := .parked } else x
  | .parked => if s.laggard i then x else { x with st := .ready, age := 0 }
  | .waitj =>
      if s.gang.missing x.pc = 0 || s.gang.waitOver x.pc || s.crew.rejoinWait = 0 then { x with st := .ready, age := 0 } else x
  | _ => x

/-- Settles the PC table of the gang in focus; in a handler it is frozen (R309, R360). -/
def State.settle (s : State) : State :=
  if s.inHandler || s.gang.ej.isSome then s
  else
    { s with gang := { s.gang with
        strands := (List.range 32).foldl (fun t i => Sparse.put {} t i (s.settled i)) s.gang.strands } }

/-! ### Choosing a run (R310) -/

/-- The age from which ageing takes over: AGEMAX - 31, values below 32 acting as 32 (R310, R325). -/
def Crew.ageLimit (c : Crew) : Nat := max 32 c.ageMax.toNat - 31

/-- The run of a gang: the smallest PC, or that of the oldest strands. -/
def State.chosen (s : State) : Option (Pc × Mask) :=
  let g := s.gang
  match g.handler with
  | some b => if g.trapRun &&& g.live = 0 then none else some (b.pc, g.trapRun &&& g.live)
  | none =>
      let ready := (List.range 32).filter fun i =>
        (g.strand i).st = .ready || (g.ej.isSome && (g.strand i).st = .ej)
      let oldest := maxList (ready.map fun i => (g.strand i).age)
      let pool := if s.crew.ageLimit ≤ oldest then ready.filter fun i => (g.strand i).age = oldest else ready
      match minList (pool.map fun i => (g.strand i).pc.toNat) with
      | none => none
      | some p => some (BitVec.ofNat 64 p, maskOf (ready.filter fun i => (g.strand i).pc.toNat = p))

/-- Ages after an issue of a run (R310). -/
def Gang.aged (g : Gang) (run : Mask) : Gang :=
  (g.mapStrands (g.inState fun x => x = .ready) fun x => { x with age := min (x.age + 1) 255 }).mapStrands run
    fun x => { x with age := 0 }

/-! ### What an instruction reads and writes (R57, R58) -/

/-- The registers of a slot's operand. -/
def Slot.regs (x : Slot) : List RegName :=
  if isV x.sel then (List.range x.vspan).map fun k => .v (x.sel.toNat + k)
  else if isS x.sel then
    (List.range (if x.kinds.cap then 2 else x.sspan)).map fun k => .s (x.sel.toNat - 128 + k)
  else if isP x.sel then [.p (x.sel.toNat - 0xC0)]
  else if isG x.sel then [.g (x.sel.toNat - 0xC8)]
  else []

/-- The handle a WAITH, TESTH or CANCELH names by its register does not wait on the scoreboard (R180, R181, R183). -/
def handleArg (o : Op) (f : Fields) : Bool :=
  match o with
  | .waith | .testh | .cancelh => f.fn = 0
  | _ => false

/-- Register selectors in IMM: the handle and the origin of GATHER and SCATTER (R193). -/
def immRegs (o : Op) (f : Fields) : List (Bool × BitVec 8) :=
  match o with
  | .gather | .scatter => [(false, f.imm.extractLsb' 0 8), (true, f.imm.extractLsb' 8 8)]
  | _ => []

/-- The column register of a tile base: A of CAPCHK is a capability always (R131, R152). -/
def State.columnReg (s : State) (o : Op) (f : Fields) : List RegName :=
  match o.layout with
  | .sized =>
      if (o = .capchk || f.fn.getLsbD 0) && isS f.a && bitsAt (s.readS (f.a.toNat - 128 + 1)).toNat 60 4 = 2 then
        (if isV f.b then [.v (f.b.toNat + 1)] else if isS f.b && f.b ≠ 0xBF then [.s (f.b.toNat - 128 + 1)] else [])
      else []
  | _ => []

/-- C receives the status word of a queue operation (R344). -/
def statusInC (o : Op) : Bool :=
  match o with
  | .qpush | .qpop | .qsteal => true
  | _ => false

/-- The operands an instruction reads, in the order in which an early read is looked for: selector and registers (R57). -/
def State.reads (s : State) (o : Op) (f : Fields) : List (BitVec 8 × List RegName) :=
  let slots := (o.slots f).filter fun x =>
    (x.field ≠ 0 || o = .loop) && !(x.field = 1 && handleArg o f) && !(x.field = 3 && statusInC o)
  let guard := if f.gp = 7 then [] else [(0xC0 + f.gp.setWidth 8, [RegName.p f.gp.toNat])]
  let imm := (immRegs o f).filterMap fun x => if x.1 && isS x.2 then some (x.2, [RegName.s (x.2.toNat - 128)]) else none
  guard ++ (slots.map fun x => (x.sel, Slot.regs x)) ++ [(f.b, s.columnReg o f)] ++ imm

/-- The registers an instruction writes (R58). -/
def opWrites (o : Op) (f : Fields) : List RegName :=
  ((o.slots f).filter fun x => x.field = 0 || (x.field = 3 && statusInC o)).flatMap Slot.regs ++
    (immRegs o f).filterMap fun x => if !x.1 && isS x.2 then some (RegName.s (x.2.toNat - 128)) else none

/-- How many registers MXDRAIN.R fills for an element type (R252). -/
def drainRegs (dt : Ty) : Nat := dt.bits / 8

/-- A vector register waits for an MXDRAIN.R of the gang (R254). -/
def State.drainPending (s : State) (n : Nat) : Bool :=
  s.ops.any fun o =>
    o.gangId = s.gang.id &&
      match o.kind with
      | .drainR d dt .. => d ≤ n && n < d + drainRegs dt
      | _ => false

/-- A register waits for a variable-latency result (R58, R177, R254). -/
def State.pending (s : State) (r : RegName) : Bool :=
  s.gang.ej.isNone &&
    (s.gang.marks.contains r ||
      match r with
      | .s n => s.handlePending n
      | .v n => s.drainPending n
      | _ => false)

/-- It waits for a result of memory, scratch, an atomic, MFSR or a handle (R332). -/
def State.pendingSlow (s : State) (r : RegName) : Bool :=
  s.gang.ej.isNone &&
    ((s.gang.marks.contains r && !s.gang.quick.contains r) ||
      match r with
      | .s n => s.handlePending n
      | _ => false)

/-- The instruction waits on the scoreboard (R58). -/
def State.scoreboard (s : State) (o : Op) (f : Fields) : Bool :=
  ((s.reads o f).any fun x => x.2.any s.pending) || (opWrites o f).any s.pending

/-- A fixed-latency result to a register is still in flight for some strand of the run (R57): of a vector register or predicate
one for the gang's other strands does not count (DESIGN CHOICE, log 59). -/
def State.inFlight (s : State) (r : RegName) : Bool :=
  s.gang.shadows.any fun x =>
    s.clock < x.due &&
      match x.old, r with
      | .v n w _, .v m => n = m && w &&& s.run ≠ 0
      | .s n _, .s m => n = m
      | .p n w _, .p m => n = m && w &&& s.run ≠ 0
      | .g n _, .g m => n = m
      | _, _ => false

/-- The selector that would be read too early (R57): of several, the guard's, then D of LOOP, A, B, C, then those in IMM (DESIGN
CHOICE, log 59). -/
def State.earlyRead (s : State) (o : Op) (f : Fields) : Option (BitVec 8) :=
  ((s.reads o f).find? fun x => x.2.any s.inFlight).map fun x => x.1

/-! ### Pairs (R36, R59, R62) -/

/-- The classes of the pairing rules (R62). -/
inductive PairClass where
  | vector | uniform | memory | matrix | control
deriving DecidableEq, Repr

/-- The class of an instruction, by its group (R60, R62). -/
def pairClass (o : Op) (f : Fields) : PairClass :=
  match o.code.toNat / 16 with
  | 5 | 7 | 11 | 12 => .memory
  | 6 => .uniform
  | 8 | 13 => .control
  | 10 => .matrix
  | _ => if isS f.d then .uniform else .vector

/-- The conditions of R36 on two instructions. -/
def State.mayPair (s : State) (o : Op) (f : Fields) (o' : Op) (f' : Fields) : Bool :=
  pairClass o f ≠ pairClass o' f' && pairClass o f ≠ .control && pairClass o' f' ≠ .control && f.stall = 0 &&
    (opWrites o f).all fun r => !(opWrites o' f').contains r && (s.reads o' f').all fun x => !x.2.contains r

/-- The instruction at a PC and the next one issue as a pair: the template says so and every condition of R36 holds; not
after RFT, not on a marionette (R39, R59). That slot i + 1 carries no label is read off the line word's target bit (DEDUCED, log
59). -/
def State.pairs (s : State) (pc : Pc) : Bool :=
  if s.gang.alone || s.gang.ej.isSome || 3 < pcSlot pc then false
  else
    match s.heldLine pc with
    | none => false
    | some l =>
        (lineWord l).getLsbD (5 + pcSlot pc) && !(lineWord l).getLsbD (pcSlot pc + 1) &&
          match s.peekOp pc, s.peekOp (nextPc pc) with
          | some (o, f), some (o', f') => s.mayPair o f o' f'
          | _, _ => false

/-- The issue at a PC waits on the scoreboard, as a pair for both of its instructions (R58). -/
def State.waitsAt (s : State) (pc : Pc) : Bool :=
  let one (pc : Pc) : Bool :=
    match s.peekOp pc with
    | some (o, f) => s.scoreboard o f
    | none => false
  one pc || (s.pairs pc && one (nextPc pc))

/-- Some register the issue at a PC waits for has a wait for which the slot swaps gangs (R332). -/
def State.waitsSlow (s : State) (pc : Pc) : Bool :=
  let one (pc : Pc) : Bool :=
    match s.peekOp pc with
    | some (o, f) => ((s.reads o f).any fun x => x.2.any s.pendingSlow) || (opWrites o f).any s.pendingSlow
    | none => false
  one pc || (s.pairs pc && one (nextPc pc))

/-! ### Readiness (R331) -/

/-- A member of a subgroup is on its way to a marionette, there, or on its way back (R263). -/
def State.awayOf (s : State) (m : Mask) : Mask := m &&& s.gang.inState StrandState.away

/-- A handle of the gang's crew is no longer pending (R181). -/
def Crew.handleDone (c : Crew) (h : Handle) : Bool :=
  let e := c.handles.get {} h.entry
  !(e.pending && e.serial = h.serial)

/-- The barrier's phase as the gang last set it differs from the barrier's (R352). -/
def State.barrierOpen (s : State) (b : Nat) : Bool := (s.crew.barriers.get {} b).phase ≠ s.gang.myph.getLsbD b

/-- A resource has room for one more (R165, R177, R185, R240, R274). -/
def State.hasRoom (s : State) (r : Room) : Bool :=
  let inCluster (p : OpKind → Bool) := (s.ops.filter fun o => o.core / 4 = s.cluster && p o.kind).length
  match r with
  | .handleTable => !s.crew.freeHandles.isEmpty
  | .windows => (s.windows s.crew.id).length < Config.windowsPerCrew
  | .copyQueue =>
      inCluster (fun k => match k with
        | .copy .. | .gather .. | .scatter .. => true
        | _ => false) < Config.copyQueue
  | .scarabQueue =>
      inCluster (fun k => match k with
        | .topk .. => true
        | _ => false) < Config.scarabQueue
  | .matrixShare =>
      (s.ops.filter fun o => o.crewId = s.crew.id && (match o.kind with
        | .loadw .. | .swap | .mxrun .. | .drain .. | .drainR .. | .zero .. => true
        | _ => false)).length < s.crew.qshare

/-- A load of the context, a gang's or the host's, still has entries to return (R379, R387). -/
def State.ctxLoading (s : State) (asid : Asid) : Bool :=
  (s.host.ctxdbRest.any fun l => l.any fun e => e.asid = asid) ||
    s.allGangs.any fun g => g.hold.any fun h =>
      match h.why with
      | .ctxload _ rest => rest.any fun e => e.asid = asid
      | _ => false

/-- The gang in focus has a SPLICE pending on a header (R401). -/
def State.splicing (s : State) (va : Nat) : Bool :=
  s.ops.any fun o => match o.kind with
    | .splice _ q .. => o.gangId = s.gang.id && (Cap.ofQuad q).base = va
    | _ => false

/-- The held instruction of the gang in focus may issue again. -/
def State.released (s : State) : HoldWhy → Bool
  | .retry => true
  | .logPage asid page => !s.pageLogged s.core asid page
  | .logMoved asid page => !s.pageMoved asid page
  | .logged m => !s.logBlocked m
  | .barrier b => s.barrierOpen b
  | .passed _ => true
  | .handle h => s.crew.handleDone h
  | .finished _ => true
  | .room r => s.hasRoom r
  | .port => !s.sys.retraining
  | .ejected m => s.awayOf m = 0
  | .ctxLoading asid => !s.ctxLoading asid
  | .splices va => !s.splicing va
  | .fault _ | .fence .. | .qpop .. | .qpush .. | .ctxload .. | .logRoom _ | .completion .. => false

/-- A held gang whose wait for ejected strands is over chooses its run anew (R263). -/
def State.unhold (s : State) : State :=
  match s.gang.hold with
  | some h =>
      (match h.why with
        | .ejected m => if s.awayOf m = 0 then { s with gang := { s.gang with hold := none } } else s
        | _ => s)
  | none => s

/-- An MXDRAIN.R from before the trap still owes the gang registers: its handler does not issue yet (R358). -/
def State.handlerOwed (s : State) : Bool :=
  s.inHandler && s.ops.any fun o =>
    o.gangId = s.gang.id &&
      match o.kind with
      | .drainR .. => true
      | _ => false

/-- The PC and the run the gang in focus would issue now, and whether it is a held instruction: the STALL gap is over, the
run waits on no result (R310, R331). -/
def State.nextIssue (s : State) : Option (Pc × Mask × Bool) :=
  let s := s.unhold.settle
  if s.gang.suspended ≠ .no || s.gang.id = 0 || s.handlerOwed then none
  else
    match s.gang.hold with
    | some h => if s.released h.why && s.gang.nextIssue ≤ s.clock then some (h.pc, h.run, true) else none
    | none =>
        if s.clock < s.gang.nextIssue then none
        else
          match s.chosen with
          | none => none
          | some (pc, run) => if s.waitsAt pc then none else some (pc, run, false)

/-- A resident gang is ready (R331). -/
def State.readyGang (s : State) (id : Nat) : Bool := (s.focus id).nextIssue.isSome

end Sys2Proof.Machine
end

