-- ==== Sys2Proof/Machine/Order.lean ====
section
/-! DEFINITION. Fences (R289-R293), named barriers (R351, R352) and the handle instructions (R180-R184). -/

namespace Sys2Proof.Machine

/-- The low bits of a selector's register, or of IMM. -/
def State.argOrImm (s : State) (a : Sel) (imm : Nat) : Nat :=
  match a with
  | .s n => (s.readS n.toNat).toNat
  | _ => imm

/-! ### FENCE -/

/-- PEER_DOWN (R293). -/
def cPeerDown : BitVec 8 := 0x2D

/-- SCOPE and ORDER of a fence (R289). -/
def fenceScope (x : Fun) : Nat := (x.md.extractLsb' 5 3).toNat
def fenceOrder (x : Fun) : Nat := (x.md.extractLsb' 3 2).toNat

/-- The ports whose discarded writes of a context no fence has reported (R291). -/
def Sys.downPorts (y : Sys) (asid : Asid) : List Nat := (List.range 18).filter fun p => y.dropped.get 0 (droppedKey asid p) ≠ 0

/-- Those ports are reported. -/
def Sys.reportPorts (y : Sys) (asid : Asid) : Sys :=
  { y with dropped := (List.range 18).foldl (fun d p => Sparse.put 0 d (droppedKey asid p) 0) y.dropped }

/-- The fence's effect once its conditions are met, for the status word it found (R290, R291). -/
def State.fenceDone (s : State) (x : Fun) (waited : Bool) : State × Bool :=
  let scope := fenceScope x
  let system := scope = 6 && 2 ≤ fenceOrder x
  let ports := if system then s.sys.downPorts s.crew.asid else []
  let s := if system then { s with sys := s.sys.reportPorts s.crew.asid } else s
  let bits := (maskOf ports).toNat
  if !x.d.isScalar && bits ≠ 0 then (s.trap cPeerDown (BitVec.ofNat 64 bits), false)
  else
    let s := if 2 ≤ fenceOrder x then s.release s.who scope else s
    let s := if fenceOrder x % 2 = 1 then s.acquire s.who scope else s
    (s.deliver x.d 8 false [(0, bits + if system && waited then 2 ^ 18 else 0)], true)

/-- A fence completes, or the gang waits for its conditions: the strands' side-log entries are freed, and at system scope
no Plovlan port retrains (R105, R290, R291). -/
def State.fenceTry (s : State) (x : Fun) (waited : Bool) : State × Bool :=
  let m := s.actsFor x.d.isScalar x.hdr
  let port := fenceScope x = 6 && 2 ≤ fenceOrder x && s.sys.retraining
  if m = 0 then (s, true)
  else if port || s.logBlocked m then (s.wait (.fence x (waited || port)), false)
  else s.fenceDone x waited

/-- FENCE.ACQ, .REL and .AR (R289-R292). -/
def execFence (x : Fun) (s : State) : Out := s.attempt { op := .fence } fun s => s.fenceTry x false

/-- FENCE.SC: a FENCE.AR that takes its place in the one order of the steps (R285). -/
def execFenceSc (x : Fun) (s : State) : Out := s.attempt { op := .fence } fun s => s.fenceTry x false

/-- The gang in focus issues a held instruction again: the run and PC it was issued with. -/
def State.atHold (s : State) (h : Hold) : State := { s with run := h.run, ipc := h.pc }

/-- FENCE_COMPLETE: the fence a gang waits at completes when its conditions are met (R290). -/
def execFenceComplete (g : Nat) (s : State) : Out :=
  let t := s.focus g
  match t.gang.hold with
  | some h =>
      (match h.why with
        | .fence x waited =>
            .next (State.finishHeld ((t.atHold h).fenceTry x waited))
        | _ => .next s)
  | none => .next s

/-! ### Named barriers -/

/-- Causes (R355). -/
def cBarrierRange : BitVec 8 := 0x63
def cBarrierState : BitVec 8 := 0x64
/-- COLLECTIVE_DIVERGED (R275). -/
def cDiverged : BitVec 8 := 0x60

/-- The members a collective touches must all be in the run: the gang waits for ejected ones, and a live member elsewhere
is a cause (R262, R263). None when all are present. -/
def State.present (s : State) (m : Mask) : Option State :=
  let away := s.awayOf m
  let absent := m &&& s.gang.live &&& ~~~s.run
  if away ≠ 0 then some (s.wait (.ejected away))
  else if absent ≠ 0 then some (s.trap cDiverged (s.run ++ absent))
  else none

/-- The barrier a BAR or BARSET names (R352). -/
def State.barrierNo (s : State) (x : Fun) : Nat := s.argOrImm x.a (bitsAt x.imm.toNat 0 7)

/-- The gang's MYPH of a barrier. -/
def Gang.setMyph (g : Gang) (b : Nat) (on : Bool) : Gang :=
  let bit : BitVec 96 := 1 <<< b
  { g with myph := if on then g.myph ||| bit else g.myph &&& ~~~bit }

/-- ARRIVE: MYPH := PHASE, a release at crew scope, then the arrival (R352); what follows it is `f`. The release waits for the
strands' side-log entries (R105; DEDUCED, log 15). -/
def State.arriveAt (s : State) (b : Nat) (f : State → State × Bool) : State × Bool :=
  if s.logBlocked s.run then (s.wait (.logged s.run), false)
  else
    let s := s.release s.who 2
    f (({ s with gang := s.gang.setMyph b (s.crew.barriers.get {} b).phase } : State).arrive s.crew.id b)

/-- The gang already arrived at this instruction and waits for the phase, or has seen it come. -/
def State.arrivedHere (s : State) (b : Nat) : Bool :=
  s.gang.hold.any fun h => (h.why = .barrier b || h.why = .passed b) && h.pc = s.ipc

/-- The phase the gang waited for at this instruction has come. -/
def State.passedHere (s : State) (b : Nat) : Bool := s.gang.hold.any fun h => h.why = .passed b && h.pc = s.ipc

/-- WAIT: an acquire at crew scope once PHASE differs from MYPH (R352). -/
def State.awaitPhase (s : State) (b : Nat) : State × Bool :=
  if s.barrierOpen b || s.passedHere b then (s.acquire s.who 2, true) else (s.wait (.barrier b), false)

/-- The checks common to BAR and BARSET (R352), then the effect on the barrier. -/
def State.barrierOp (s : State) (x : Fun) (f : Nat → State → State × Bool) : State × Bool :=
  let b := s.barrierNo x
  if s.crew.nbar ≤ b then (s.trap cBarrierRange (BitVec.ofNat 64 b), false)
  else
    match s.present (BitVec.allOnes 32) with
    | some t => (t, false)
    | none => f b s

/-- Where BAR and BARSET may run (R317, R362). -/
def barLimits (o : Op) : Limits := { op := o, handler := true, ejected := some cEjectedOp }

/-- BAR.SYNC (R352). -/
def execBarSync (x : Fun) (s : State) : Out :=
  s.attempt (barLimits .bar) fun s => s.barrierOp x fun b s =>
    if s.arrivedHere b then s.awaitPhase b
    else s.arriveAt b fun s => s.awaitPhase b

/-- BAR.ARRIVE (R352). -/
def execBarArrive (x : Fun) (s : State) : Out :=
  s.attempt (barLimits .bar) fun s => s.barrierOp x fun b s => s.arriveAt b fun s => (s, true)

/-- BAR.WAIT (R352). -/
def execBarWait (x : Fun) (s : State) : Out :=
  s.attempt (barLimits .bar) fun s => s.barrierOp x fun b s => s.awaitPhase b

/-- A gang of the crew waits on a barrier: one that has seen its phase come does not. -/
def State.barrierAwaited (s : State) (b : Nat) : Bool :=
  (s.gangsOf s.crew.id).any fun g => g.hold.any fun h => h.why = .barrier b

/-- BARSET (R352). -/
def execBarset (x : Fun) (s : State) : Out :=
  s.attempt (barLimits .barset) fun s => s.barrierOp x fun b s =>
    let k := s.crew.barriers.get {} b
    let n := s.argOrImm x.b (bitsAt x.imm.toNat 16 10)
    if k.arrived ≠ 0 || s.barrierAwaited b || n = 0 || 1023 < n then
      (s.trap cBarrierState (BitVec.ofNat 64 (b + k.arrived * 2 ^ 16)), false)
    else
      let s := (s.gangsOf s.crew.id).foldl (fun (s : State) g => s.updGang g.id fun g => g.setMyph b k.phase) s
      ({ s with crew := { s.crew with barriers := Sparse.put {} s.crew.barriers b { k with count := n } } }, true)

/-! ### Handles -/

/-- The handle an id names: the use its entry still carries, none for an id that is not valid (R180). -/
def Crew.handleOf (c : Crew) (id : BitVec 8) : Option Handle :=
  let h : Handle := ⟨id.toNat % 64, (c.handles.get {} (id.toNat % 64)).serial⟩
  if (c.handles.get {} h.entry).used && h.id = id then some h else none

/-- The handle a handle instruction names: the one its register last received, or the one of its id (R180). -/
def State.handleArgOf (s : State) (x : Fun) : Option Handle :=
  match x.fn, x.a with
  | 0, .s n => s.gang.handleIds.get none n.toNat
  | _, a => s.crew.handleOf (BitVec.ofNat 8 (s.argOrImm a x.imm.toNat))

/-- Where the handle instructions may run (R317). -/
def handleLimits (o : Op) : Limits := { op := o, ejected := some cEjectedOp }

/-- The status word WAITH.ID returns: of an id that is not valid the spec gives none (free value, log 10). -/
def State.handleStatus (s : State) : Option Handle → Dword × State
  | none => s.free
  | some h => ((s.crew.handles.get {} h.entry).status, s)

/-- The status word of the operation for which this WAITH held its gang. -/
def State.finishedHere (s : State) : Option Dword :=
  match s.gang.hold with
  | some h => if h.pc = s.ipc then (match h.why with
      | .finished st => some st
      | _ => none) else none
  | none => none

/-- WAITH (R181, R182). -/
def execWaith (x : Fun) (s : State) : Out :=
  s.attempt (handleLimits .waith) fun s =>
    let h := s.handleArgOf x
    let ended := s.finishedHere
    if ended.isNone && h.any fun h => !s.crew.handleDone h then (s.wait ((h.map HoldWhy.handle).getD .retry), false)
    else
      let s := s.acquire s.who 2
      if x.d.isScalar then
        let (st, s) : Dword × State := match ended with
          | some st => (st, s)
          | none => s.handleStatus h
        (s.result x.d 64 false (some 2) [(0, st.toNat)], true)
      else (s, true)

/-- The word TESTH returns (R180). -/
def State.handleState (s : State) (x : Fun) : Nat :=
  match s.handleArgOf x with
  | none => 2 ^ 63
  | some h =>
      let status : Dword := match x.fn, x.a with
        | 0, .s n => s.gang.s.get 0 n.toNat
        | _, _ => (s.crew.handles.get {} h.entry).status
      2 ^ 62 + h.id.toNat * 2 ^ 48 + (if s.crew.handleDone h then 2 ^ 63 + status.toNat % 2 ^ 32 else 0)

/-- TESTH (R180). -/
def execTesth (x : Fun) (s : State) : Out :=
  s.sequential (handleLimits .testh) fun s => s.result x.d 64 false (some 2) [(0, s.handleState x)]

/-- CANCELH requests cancellation of a pending operation of the crew (R183). -/
def execCancelh (x : Fun) (s : State) : Out :=
  s.sequential (handleLimits .cancelh) fun s =>
    match s.handleArgOf x with
    | none => s
    | some h =>
        if s.crew.handleDone h then s
        else
          { s with ops := s.ops.map fun o =>
              if o.crewId = s.crew.id && o.handle = some h.entry then { o with cancel := true } else o }

end Sys2Proof.Machine
end

