-- ==== Sys2Proof/Machine/Control.lean ====
section
/-! DEFINITION. The control group (R309-R325): branches, ejection to the marionettes, JOIN, EXIT, YIELD, NOP. -/

namespace Sys2Proof.Machine

/-! ### Branches (R312, R313) -/

/-- The lowest strand of the issued run. -/
def State.lead (s : State) : Nat := (Mask.list s.run).headD 0

/-- The strands that take a target: in handler mode the whole run or none, as the lowest strand does (R362). -/
def State.takers (s : State) (taking : Mask) : Mask :=
  if s.inHandler then (if taking.getLsbD s.lead then s.run else 0) else taking

/-- The target of a strand: in handler mode the lowest strand's (R362). -/
def State.targetOf (s : State) (target : Nat → Dword) (i : Nat) : Dword := target (if s.inHandler then s.lead else i)

/-- The first target that fails R42. -/
def State.badTarget (s : State) (taking : Mask) (target : Nat → Dword) : Option Dword :=
  ((Mask.list (s.takers taking)).find? fun i => !s.targetOk (s.targetOf target i)).map (s.targetOf target)

/-- A strand goes to a target; where the line cannot be read yet its target bit is checked at the fetch (R42). -/
def State.jump (s : State) (i : Nat) (t : Dword) : State :=
  let u := s.goTo (1 <<< i) t
  if (s.peekLine (pcLine t)).isSome then u else { u with gang := u.gang.setVia (1 <<< i) (some s.ipc) }

/-- The strands that take the branch go to their targets, the others of the run on. -/
def State.split (s : State) (taking : Mask) (target : Nat → Dword) : State :=
  let m := s.takers taking
  let on := s.run &&& ~~~m
  let s' := if on = 0 then s else s.goTo on (nextPc s.ipc)
  (Mask.list m).foldl (fun (t : State) i => t.jump i (s.targetOf target i)) s'

/-- A branch: the targets are checked before anything changes, then `f` writes registers (R312). -/
def State.branch (s : State) (taking : Mask) (target : Nat → Dword) (f : State → State) : State :=
  match s.badTarget taking target with
  | some t => s.trap cBadTarget t
  | none =>
      if s.takers taking ≠ s.run && !s.flows then s.trap cBadTarget endOfSpace
      else (f s).split taking target

/-- BRA (R312). -/
def execBra (x : Fun) (s : State) : Out :=
  s.control { op := .bra } fun s => s.branch (s.guard x.hdr) (fun _ => directTarget s.ipc x.imm) id

/-- CALL: D receives the next PC as 64 bits (R312). -/
def execCall (x : Fun) (s : State) : Out :=
  s.control { op := .call } fun s =>
    let m := s.actsFor x.d.isScalar x.hdr
    s.branch m (fun _ => directTarget s.ipc x.imm) fun s =>
      s.result x.d 64 false (some 4) ((Mask.list m).map fun i => (i, (nextPc s.ipc).toNat))

/-- A target from a register: 64 bits of a pair of a strand, or a scalar (R312). -/
def State.regTarget (s : State) (a : Sel) (i : Nat) : Dword := BitVec.ofNat 64 (s.src 64 false a 0 i)

/-- RET (R312). -/
def execRet (x : Fun) (s : State) : Out :=
  s.control { op := .ret } fun s => s.branch (s.guard x.hdr) (s.regTarget x.a) id

/-- JMPR (R312). -/
def execJmpr (x : Fun) (s : State) : Out :=
  s.control { op := .jmpr } fun s => s.branch (s.guard x.hdr) (s.regTarget x.a) id

/-- LOOP: the count goes down by one, and a count that is not 0 branches (R312). -/
def execLoop (x : Fun) (s : State) : Out :=
  s.control { op := .loop } fun s =>
    let w := if x.d.isScalar then 64 else 32
    let m := s.actsFor x.d.isScalar x.hdr
    let count (i : Nat) : Nat := (s.src w false x.d 0 i + 2 ^ w - 1) % 2 ^ w
    let taking := maskOf ((Mask.list m).filter fun i => count i ≠ 0)
    s.branch taking (fun _ => directTarget s.ipc x.imm) fun s =>
      s.result x.d w false (some 4) ((Mask.list m).map fun i => (i, count i))

/-! ### Ejection (R314-R316) -/

/-- The rejoin PC (R314). -/
def rejoinPc (pc : Pc) (x : BrxOp) : Dword :=
  dwordOfInt ((pcLine pc : Nat) + signed 16 x.disp.toNat * 64 + (x.slot.toNat : Nat))

/-- The free marionette slots of the crew's cluster, lowest first (R315). -/
def State.freeSlots (s : State) : List Nat :=
  let used := s.allGangs.filterMap fun g =>
    match g.ej with
    | some e => if (s.findCrew g.crewId).core / 4 = s.cluster then some e.slot else none
    | none => none
  (List.range (Config.marionettes * Config.marionetteSlots)).filter fun i => !used.contains i

/-- EJECTMAX; 9-15 act as 8 (R325). -/
def Crew.ejectLimit (c : Crew) : Nat := min 8 c.ejectMax.toNat

/-- The live registers of BRX (R314). -/
def liveRange (x : BrxOp) : Option (Nat × Nat) :=
  match x.a, x.b with
  | .v a, .v b => some (a.toNat, b.toNat)
  | _, _ => none

/-- The marked registers whose result a hand-over waits for: live ones, predicates and scalars (R316). -/
def owedMarks (live : Option (Nat × Nat)) (l : List RegName) : List RegName :=
  l.filter fun r =>
    match r with
    | .v n => live.any fun p => p.1 ≤ n && n ≤ p.2
    | .g _ => false
    | _ => true

/-- The gang of an ejected strand: its live registers, predicates and rounding state, and a snapshot of the scalar
registers (R316). `via` is the branch whose target bit is still to be checked. DESIGN CHOICE: the scalar pipe's rounding state goes
with it as a copy that its hand-back drops, so that it leaves the gang's own as it is (R75, log 59). -/
def State.ejected (s : State) (x : BrxOp) (i slot : Nat) (pc : Pc) (via : Option Pc) : Gang :=
  let g := s.gang
  let live := liveRange x
  let v := match live with
    | some (a, b) =>
        (List.range (b + 1 - a)).foldl (fun m k =>
          Sparse.put 0 m (i * 128 + a + k) (g.v.get 0 (i * 128 + a + k))) []
    | none => []
  let awaits := (s.crew.handles.filter fun e => e.2.pending && e.2.gang = g.id && e.2.reg < 64).map fun e => (e.1, e.2.reg)
  { id := g.id + 1 + i, crewId := g.crewId, idx := g.idx, slot := g.slot, active := true, v := v, s := g.s,
    stags := g.stags, p := g.p, strands := Sparse.put {} [] i { pc := pc, age := 0, st := .out, via := via },
    rnd := Sparse.put 0 [] i (g.rnd.get 0 i), urnd := g.urnd, priv := g.priv,
    ej := some { parent := g.id, strand := i, slot := slot, live := live, rejoin := rejoinPc s.ipc x, awaits := awaits,
                 lands := maxList (g.shadows.map fun x => x.due), marks := owedMarks live g.marks, cause := none } }

/-- The minority leaves for the marionettes and a group opens (R315). `via` and `otherVia` name the BRX on the side that takes
a target whose line cannot be read yet (R42). -/
def State.eject (s : State) (x : BrxOp) (minority : Mask) (pc other : Pc) (via otherVia : Option Pc) : State :=
  let away := ((Mask.list minority).zip s.freeSlots).map fun e => s.ejected x e.1 e.2 pc via
  let s : State := { s with gangs := away.foldl (fun t g => Sparse.put {} t g.id g) s.gangs }
  let group : Group := { rejoin := rejoinPc s.ipc x, members := s.run, expires := none, expired := false }
  let g := s.gang.mapStrands minority fun y => { y with st := .out, pc := pc }
  let on := s.run &&& ~~~minority
  let s := ({ s with gang := { g with groups := g.groups ++ [group] } } : State).goTo on other
  { s with gang := s.gang.setVia on otherVia }

/-- The minority that BRX ejects, if any (R315). -/
def State.minority (s : State) (taking : Mask) : Option Mask :=
  let t := Mask.count taking
  let n := Mask.count s.run
  let k := min t (n - t)
  if t ≠ n - t && 0 < k && k ≤ s.crew.ejectLimit && k ≤ s.freeSlots.length && s.gang.groups.length < Config.maxGroups &&
      s.gang.ej.isNone && !s.inHandler
  then some (if t < n - t then taking else s.run &&& ~~~taking)
  else none

/-- The branch itself, where the line of a target cannot be read yet (R42). -/
def State.unread (s : State) (t : Dword) : Option Pc := if (s.peekLine (pcLine t)).isSome then none else some s.ipc

/-- A rejoin PC whose line cannot be read yet is checked when it is fetched (R42, R314). -/
def State.noteRejoin (s : State) (t : Dword) : State :=
  if (s.unread t).isNone || s.gang.unchecked.contains (t, s.ipc) then s
  else { s with gang := { s.gang with unchecked := s.gang.unchecked ++ [(t, s.ipc)] } }

/-- BRX (R314, R315). -/
def execBrx (x : BrxOp) (s : State) : Out :=
  s.control { op := .brx } fun s =>
    let taking := s.guard x.hdr
    let target := directTarget s.ipc x.imm
    match s.badTarget taking fun _ => target with
    | some t => s.trap cBadTarget t
    | none =>
        if !s.targetOk (rejoinPc s.ipc x) then s.trap cBadTarget (rejoinPc s.ipc x)
        else
          match s.minority taking with
          | some m =>
              if !s.flows then s.trap cBadTarget endOfSpace
              else
                let s := s.noteRejoin (rejoinPc s.ipc x)
                if m = taking then s.eject x m target (nextPc s.ipc) (s.unread target) none
                else s.eject x m (nextPc s.ipc) target none (s.unread target)
          | none => s.branch taking (fun _ => target) fun s => s.noteRejoin (rejoinPc s.ipc x)

/-! ### JOIN (R318-R320) -/

/-- A JOIN has no effect in a handler and for an ejected strand (R317, R362). -/
def State.joinIdle (s : State) : Bool := s.inHandler || s.gang.ej.isSome

/-- The run chosen at a JOIN waits there: members are missing, and no group's wait is over (R319). -/
def State.joinWaits (s : State) (pc : Pc) : Bool :=
  !s.joinIdle && s.gang.missing pc ≠ 0 && !s.gang.waitOver pc && s.crew.rejoinWait ≠ 0

/-- The run goes to WAITJ and the timers of its groups start (R319). -/
def State.joinWait (s : State) : State :=
  let g := s.gang.mapStrands s.run fun x => { x with st := .waitj }
  { s with gang := { g with
      since := s.clock,
      groups := g.groups.map fun r =>
        if r.rejoin = s.ipc && r.expires.isNone then { r with expires := some (s.clock + s.crew.rejoinWait.toNat) } else r } }

/-- JOIN: closes its groups and acts as FENCE.AR.GANG, which waits for the strands' side-log entries (R290, R319, R320). -/
def execJoin (_x : Fun) (s : State) : Out :=
  s.attempt { op := .join } fun s =>
    if s.joinIdle then (s, true)
    else if s.joinWaits s.ipc then (s.joinWait, false)
    else if s.logBlocked s.run then (s.wait (.logged s.run), false)
    else
      let s := (s.release s.who 1).acquire s.who 1
      ({ s with gang := { s.gang with groups := s.gang.groups.filter fun r => r.rejoin ≠ s.ipc } }, true)

/-! ### EXIT, YIELD, NOP -/

/-- EXIT of an ejected strand: it is DONE without a hand-back (R321). -/
def State.exitEjected (s : State) (e : Ejection) : State :=
  let m : Mask := 1 <<< e.strand
  let s := s.removeGang s.gang.id
  (s.updGang e.parent fun g => g.finish m).retireGang e.parent

/-- EXIT (R322). -/
def execExit (x : Fun) (s : State) : Out :=
  s.control { op := .exit, handler := true } fun s =>
    let gone := s.guard x.hdr
    let on := s.run &&& ~~~gone
    if on ≠ 0 && !s.flows then s.trap cBadTarget endOfSpace
    else
      match s.gang.ej with
      | some e => if gone = 0 then s.advance else s.exitEjected e
      | none =>
          let s := s.goTo on (nextPc s.ipc)
          let s : State := { s with gang := s.gang.finish gone }
          s.retireGang s.gang.id

/-- The pending gangs of a slot in order of arrival. -/
def State.pendingSet (s : State) (core slot : Nat) : List Gang :=
  let gs := (s.slotGangs core slot).filter fun g => !g.left && !g.active
  let order := (gs.map fun g => g.arrival).foldl (fun (l : List Nat) a => (Sparse.insert (l.map fun k => (k, ())) a ()).map Prod.fst) []
  order.filterMap fun a => gs.find? fun g => g.arrival = a

/-- The first ready gang of the pending set (R332). -/
def State.firstReady (s : State) (core slot : Nat) : Option Gang := (s.pendingSet core slot).find? fun g => s.readyGang g.id

/-- An active gang goes to the tail of the pending set and a pending one takes its place; that one may issue 2 cycles
later (R332). -/
def State.swap (s : State) (core slot out into' : Nat) : State :=
  let tail := maxList ((s.slotGangs core slot).map fun g => g.arrival) + 1
  (s.updGang out fun g => { g with active := false, arrival := tail }).updGang into' fun g =>
    { g with active := true, nextIssue := max g.nextIssue (s.clock + 2) }

/-- YIELD (R323). -/
def execYield (_x : Fun) (s : State) : Out :=
  s.sequential { op := .yield } fun s =>
    if s.joinIdle then s
    else
      match s.firstReady s.core s.gang.slot with
      | some g => if s.gang.active then s.swap s.core s.gang.slot s.gang.id g.id else s
      | none => s

/-- NOP (R324). -/
def execNop (_x : Fun) (s : State) : Out := s.sequential { op := .nop } id

end Sys2Proof.Machine
end

