-- ==== Sys2Proof/Machine/Collectives.lean ====
section
/-! DEFINITION. The collectives group (R259-R271): who takes part, the exchanges, reductions and scans, PART, PRIO and
SMXSTEP. -/

namespace Sys2Proof.Machine

/-- Where a collective may run (R264, R362). -/
def groupLimits (o : Op) : Limits := { op := o, handler := true, ejected := some cEjectedCollective }

/-- A collective: every live member of a touched subgroup must be present; `f` has the partition and the participants
(R261-R263). -/
def State.collective (s : State) (x : Typed) (f : Part → Mask → State → State) : State × Bool :=
  let p := s.group x.c
  match s.present (p.touched s.run) with
  | some t => (t, false)
  | none => (f p (s.actsFor x.d.isScalar x.hdr) s, true)

/-- The participants of a strand's subgroup, ascending. -/
def Part.peers (p : Part) (act : Mask) (i : Nat) : List Nat := (Mask.list act).filter fun j => p.sub j = p.sub i

/-- One value for every participant, or for a scalar destination the lowest participant's (R267). -/
def State.eachMember (s : State) (d : Sel) (w : Nat) (act : Mask) (f : Nat → Nat) : State :=
  s.result d w false (some 10) ((Mask.list act).map fun i => (i, f i))

/-! ### Exchange (R266, R267) -/

/-- The rank SHFL reads from, none when there is no source (R266). -/
def shflRank (mode n r u : Nat) : Option Nat :=
  match mode with
  | 0 => some (u % n)
  | 1 => if u ≤ r then some (r - u) else none
  | 2 => if r + u < n then some (r + u) else none
  | 3 => some (r ^^^ (u % n))
  | _ => some ((r + u) % n)

/-- SHFL (R266). -/
def execShfl (x : Typed) (s : State) : Out :=
  s.attempt (groupLimits .shfl) fun s => s.collective x fun p act s =>
    let w := if x.ty = .n64 then 64 else 32
    s.eachMember x.d w act fun i =>
      match shflRank x.var.toNat p.n (p.rank i) (s.src 32 false x.b x.imm i) with
      | none => s.src w false x.a x.imm i
      | some q =>
          let j := p.member (p.sub i) q
          if (s.gang.strand j).st = .done then 0 else s.src w false x.a x.imm j

/-- What VOTE answers for `c` of `m` participants (R267). -/
def voteResult (var c m q : Nat) : Bool :=
  match var with
  | 0 => c = m
  | 1 => 1 ≤ c
  | 2 => c = 0 || c = m
  | 3 => m < 2 * c
  | _ => q ≤ c

/-- How many of some strands have a predicate set. -/
def State.votes (s : State) (pa : Sel) (l : List Nat) : Nat := (l.filter fun j => s.src 1 false pa 0 j = 1).length

/-- VOTE (R267). -/
def execVote (x : Typed) (s : State) : Out :=
  s.attempt (groupLimits .vote) fun s => s.collective x fun p act s =>
    let q := s.argOrImm x.b x.imm.toNat % 64
    s.eachMember x.d 1 act fun i =>
      let l := p.peers act i
      if voteResult x.var.toNat (s.votes x.a l) l.length q then 1 else 0

/-- BALLOT (R267). -/
def execBallot (x : Typed) (s : State) : Out :=
  s.attempt (groupLimits .ballot) fun s => s.collective x fun p act s =>
    s.eachMember x.d 32 act fun i => (maskOf ((p.peers act i).filter fun j => s.src 1 false x.a 0 j = 1)).toNat

/-- MATCH (R267). -/
def execMatchI (x : Typed) (s : State) : Out :=
  s.attempt (groupLimits .matchI) fun s => s.collective x fun p act s =>
    let w := if x.ty = .n64 then 64 else 32
    s.eachMember x.d 32 act fun i =>
      (maskOf ((p.peers act i).filter fun j => s.src w false x.a 0 j = s.src w false x.a 0 i)).toNat

/-- ELECT (R267). -/
def execElect (x : Typed) (s : State) : Out :=
  s.attempt (groupLimits .elect) fun s => s.collective x fun p act s =>
    if x.d.isScalar then s.result x.d 64 false (some 10) [(0, (Mask.list act).headD 32)]
    else s.eachMember x.d 1 act fun i => if (p.peers act i).head? = some i then 1 else 0

/-! ### REDUX and SCAN (R268) -/

/-- What a member that takes no part contributes (R261, R268). -/
def neutral (x : Typed) : Nat :=
  let w := x.ty.bits
  if x.ty = .f32 then (if x.var = 0 then 0x80000000 else if x.var = 1 then 0x7F800000 else 0xFF800000)
  else
    match x.var.toNat with
    | 1 => wrapInt w x.ty.maxInt
    | 2 => wrapInt w x.ty.minInt
    | 3 => 2 ^ w - 1
    | _ => 0

/-- The combination of integer contributions; of none, the identity. -/
def combineInt (t : Ty) (w var : Nat) (sat : Bool) (xs : List Nat) : Nat × BitVec 8 :=
  match var with
  | 0 => clampInt t w sat (xs.foldl (fun a x => a + tyInt' t w x) 0)
  | 1 => (wrapInt w (xs.foldl (fun a x => min a (tyInt' t w x)) t.maxInt), 0)
  | 2 => (wrapInt w (xs.foldl (fun a x => max a (tyInt' t w x)) t.minInt), 0)
  | 3 => (xs.foldl (fun a x => a &&& x) (2 ^ w - 1), 0)
  | 4 => (xs.foldl (fun a x => a ||| x) 0, 0)
  | _ => (xs.foldl (fun a x => a ^^^ x) 0, 0)

/-- The combination of F32 contributions: one exact sum rounded once, FMIN or FMAX, a lone NaN among them
made canonical (R67); of none, `none`. -/
def combineFloat (none var mode : Nat) (sat : Bool) (xs : List Nat) : Nat × BitVec 8 :=
  let f := Ty.floatFmt .f32
  match xs with
  | [] => (none, 0)
  | y :: rest =>
      if var = 0 then
        let r := f.total mode sat (xs.map f.unpack)
        (r.bits, r.flags)
      else
        rest.foldl (fun (a : Nat × BitVec 8) x =>
          let r := f.minMax (var ≠ 1) a.1 x
          (r.1, a.2 ||| r.2)) (f.minMax (var ≠ 1) y y)

/-- The combination of a list by the operation's type. -/
def combine (x : Typed) (xs : List Nat) : Nat × BitVec 8 :=
  if x.ty = .f32 then combineFloat (neutral x) x.var.toNat x.rnd.toNat x.sat xs
  else combineInt x.ty x.ty.bits x.var.toNat x.sat xs

/-- The contributions of the members of a strand's subgroup whose ranks `upTo` accepts, by rank: a participant's value, else
the identity (R261). -/
def State.contributions (s : State) (x : Typed) (p : Part) (act : Mask) (i : Nat) (upTo : Nat → Bool) : List Nat :=
  ((List.range 32).filter fun j => p.sub j = p.sub i && upTo (p.rank j)).map fun j =>
    if j ∈ Mask.list act then s.src x.ty.bits false x.a 0 j else neutral x

/-- REDUX and SCAN: each participant receives the combination of the contributions of the ranks `upTo` accepts for its own,
and its flags are raised. -/
def State.reduce (s : State) (x : Typed) (p : Part) (act : Mask) (upTo : Nat → Nat → Bool) : State :=
  let vals := (Mask.list act).map fun i => (i, combine x (s.contributions x p act i (upTo (p.rank i))))
  (s.result x.d x.ty.bits false (some 10) (vals.map fun e => (e.1, e.2.1))).raise (vals.foldl (fun f e => f ||| e.2.2) 0)

/-- REDUX (R268). -/
def execRedux (x : Typed) (s : State) : Out :=
  s.attempt (groupLimits .redux) fun s => s.collective x fun p act s => s.reduce x p act fun _ _ => true

/-- SCAN (R268). -/
def execScan (x : Typed) (s : State) : Out :=
  s.attempt (groupLimits .scan) fun s => s.collective x fun p act s =>
    s.reduce x p act fun r q => if x.imm.getLsbD 0 then q < r else q ≤ r

/-! ### PART and PRIO (R260, R270) -/

/-- PART: the whole gang's partition, whatever the run (R260). -/
def execPart (x : Typed) (s : State) : Out :=
  s.sequential (groupLimits .part) fun s =>
    match x.d with
    | .g n => s.writeG 10 n.toNat { ilv := x.var = 1, n := x.imm.toNat }
    | _ => s

/-- The holder of the priority token of the gang's slot; 0 when it is unheld. -/
def State.tokenHolder (s : State) : Nat := (s.sys.core s.core).prio.get 0 s.gang.slot

/-- The token of the gang's slot goes to a gang, or to none with 0. -/
def State.giveToken (s : State) (id : Nat) : State :=
  { s with sys := s.sys.updCore s.core fun k => { k with prio := Sparse.put 0 k.prio s.gang.slot id } }

/-- PRIO.TAKE (R270). -/
def execPrioTake (_x : Typed) (s : State) : Out :=
  s.sequential (groupLimits .prio) fun s =>
    let h := s.tokenHolder
    if h = 0 || (s.findGang h).crewId = s.crew.id then s.giveToken s.gang.id else s

/-- PRIO.PASS (R270). -/
def execPrioPass (x : Typed) (s : State) : Out :=
  s.sequential (groupLimits .prio) fun s =>
    if s.tokenHolder ≠ s.gang.id then s
    else
      match (s.gangsOf s.crew.id).find? fun g => g.ej.isNone && g.idx = s.argOrImm x.a x.imm.toNat % 32 with
      | some g => s.giveToken (if g.live ≠ 0 && g.slot = s.gang.slot then g.id else 0)
      | none => s.giveToken 0

/-- PRIO.DROP (R270). -/
def execPrioDrop (_x : Typed) (s : State) : Out :=
  s.sequential (groupLimits .prio) fun s => if s.tokenHolder = s.gang.id then s.giveToken 0 else s

/-! ### SMXSTEP (R271) -/

/-- The exact difference of two finite values, n * 2^x. -/
def FVal.minus (a b : FVal) : Int × Int :=
  let x := min a.exp b.exp
  (a.at x - b.at x, x)

/-- One strand's step: m, s and h as patterns, low first, with the flags (R271). `x` is the score, or the largest of the
subgroup, with a signalling NaN read or not. -/
def smxStep (mode : Nat) (a x : FVal) (sig : Bool) (abits xbits : Nat) : Nat × Nat × Nat × BitVec 8 :=
  let f := Ty.floatFmt .f32
  let nan (fl : BitVec 8) := (f.nanBits, f.nanBits, f.nanBits, fl)
  let posInf (v : FVal) : Bool := v.isInf && !v.neg
  let negInf (v : FVal) : Bool := v.isInf && v.neg
  if a.isNan || x.isNan then nan (flagIf (sig || a.isSig) flagNV)
  else if posInf a || posInf x then nan flagNV
  else if negInf a && negInf x then (abits, 0, 0, 0)
  else
    let up := a.ltTotal x
    let m := if up then xbits else abits
    if negInf a then (m, 0, m, 0)
    else
      let d := FVal.minus a (if up then x else a)
      let r := f.round mode false false (exp2Mag d.1 d.2) 0
      (m, r.bits, m, r.flags)

/-- The largest of a list of patterns, -0 below +0. -/
def largest (l : List Nat) : Nat :=
  let f := Ty.floatFmt .f32
  match l with
  | [] => f.signed true f.infBits
  | y :: rest => rest.foldl (fun a x => if (f.unpack a).ltTotal (f.unpack x) then x else a) y

/-- The score a participant uses: its own, or its subgroup's largest, NaN if any is (R271). -/
def State.smxScore (s : State) (x : Typed) (peers : List Nat) : Nat × Bool :=
  let f := Ty.floatFmt .f32
  let bs := peers.map fun j => s.src 32 false x.b 0 j
  let sig := bs.any fun b => (f.unpack b).isSig
  if bs.any fun b => (f.unpack b).isNan then (f.nanBits, sig) else (largest bs, sig)

/-- The results of every participant go to D, D + 1 and D + 2 as variable-latency results (R271). -/
def State.smxAll (s : State) (x : Typed) (act : Mask) (peers : Nat → List Nat) : State :=
  let f := Ty.floatFmt .f32
  let vals := (Mask.list act).map fun i =>
    let a := s.src 32 false x.a 0 i
    let (b, sig) := s.smxScore x (peers i)
    (i, smxStep x.rnd.toNat (f.unpack a) (f.unpack b) sig a b)
  match x.d with
  | .v n =>
      let put (k : Nat) (g : Nat × Nat × Nat × BitVec 8 → Nat) (s : State) : State :=
        (s.writeV 0 (n.toNat + k) (vals.map fun e => (e.1, BitVec.ofNat 32 (g e.2)))).markQuick (.v (n.toNat + k))
      (put 2 (fun r => r.2.2.1) (put 1 (fun r => r.2.1) (put 0 (fun r => r.1) s))).raise
        (vals.foldl (fun fl e => fl ||| e.2.2.2.2) 0)
  | _ => s

/-- SMXSTEP: plain, each strand on its own; .RED, a collective (R271). -/
def execSmxstep (x : Typed) (s : State) : Out :=
  if x.var = 1 then
    s.attempt (groupLimits .smxstep) fun s => s.collective x fun p act s => s.smxAll x act (p.peers act)
  else s.sequential { op := .smxstep } fun s => s.smxAll x (s.guard x.hdr) fun i => [i]

end Sys2Proof.Machine
end

