-- ==== Sys2Proof/Machine/Digest.lean ====
section
/-! DEFINITION. SHA3-512, which context records (R377) and boot measurements (R390) name. -/

namespace Sys2Proof.Machine

/-- The 25 lanes of the permutation, lane x + 5 y. -/
abbrev Keccak := List (BitVec 64)

/-- A lane by its coordinates, both modulo 5. -/
def lane (a : Keccak) (x y : Nat) : BitVec 64 := a.getD (x % 5 + 5 * (y % 5)) 0

/-- A new state from a function of the coordinates. -/
def lanesOf (f : Nat → Nat → BitVec 64) : Keccak := (List.range 25).map fun i => f (i % 5) (i / 5)

/-- The column parities mixed into every lane. -/
def theta (a : Keccak) : Keccak :=
  let c := (List.range 5).map fun x => lane a x 0 ^^^ lane a x 1 ^^^ lane a x 2 ^^^ lane a x 3 ^^^ lane a x 4
  lanesOf fun x y => lane a x y ^^^ c.getD ((x + 4) % 5) 0 ^^^ (c.getD ((x + 1) % 5) 0).rotateLeft 1

/-- The walk over the lanes from (1, 0) that fixes the rotations: place t takes the t-th triangular number; lane and amount. -/
def rhoWalk : Nat → Nat → Nat → Nat → List (Nat × Nat)
  | 0, _, _, _ => []
  | n + 1, t, x, y => (x + 5 * y, t * (t + 1) / 2 % 64) :: rhoWalk n (t + 1) y ((2 * x + 3 * y) % 5)

/-- The rotation of a lane; lane (0, 0) has none. -/
def rhoOf (x y : Nat) : Nat :=
  match (rhoWalk 24 1 1 0).find? fun e => e.1 = x + 5 * y with
  | some e => e.2
  | none => 0

/-- Lanes rotated and moved: lane (x, y) comes from (x + 3 y, x). -/
def rhoPi (a : Keccak) : Keccak :=
  lanesOf fun x y => (lane a (x + 3 * y) x).rotateLeft (rhoOf ((x + 3 * y) % 5) x)

/-- Each lane combined with the two that follow it in its row. -/
def chi (a : Keccak) : Keccak := lanesOf fun x y => lane a x y ^^^ (~~~lane a (x + 1) y &&& lane a (x + 2) y)

/-- The bits of a shift register over x^8 + x^6 + x^5 + x^4 + 1, from a content on. -/
def shiftBits : Nat → Nat → List Bool
  | 0, _ => []
  | n + 1, r => (r % 2 = 1) :: shiftBits n (if r < 128 then 2 * r else (2 * r) ^^^ 0x171)

/-- The constant of a round: seven of the register's bits, the j-th at bit 2^j - 1. -/
def roundConstant (bits : List Bool) : BitVec 64 :=
  BitVec.ofNat 64 (((List.range 7).zip bits).foldl (fun a e => if e.2 then a + 2 ^ (2 ^ e.1 - 1) else a) 0)

/-- The constants of the 24 rounds. -/
def roundConstants : List (BitVec 64) :=
  let bits := shiftBits 168 1
  (List.range 24).map fun i => roundConstant ((bits.drop (7 * i)).take 7)

/-- One round. -/
def keccakRound (a : Keccak) (rc : BitVec 64) : Keccak :=
  match chi (rhoPi (theta a)) with
  | [] => []
  | l :: rest => (l ^^^ rc) :: rest

/-- The permutation of 24 rounds. -/
def keccakF (a : Keccak) : Keccak := roundConstants.foldl keccakRound a

/-- Rate of SHA3-512 in bytes. -/
def shaRate : Nat := 72

/-- A block of the rate absorbed. -/
def absorb (a : Keccak) (b : List Byte) : Keccak :=
  keccakF (lanesOf fun x y =>
    let i := x + 5 * y
    lane a x y ^^^ (if i < 9 then BitVec.ofNat 64 (fromBytes ((b.drop (8 * i)).take 8)) else 0))

/-- The padding of a last block with `n` bytes left to fill: domain bits 01 and the pad. -/
def shaPad (n : Nat) : List Byte := if n = 1 then [0x86] else [0x06] ++ List.replicate (n - 2) 0 ++ [0x80]

/-- Absorbs a padded message block by block; `fuel` bounds the blocks. -/
def absorbAll : Nat → Keccak → List Byte → Keccak
  | 0, a, _ => a
  | fuel + 1, a, b => if b.isEmpty then a else absorbAll fuel (absorb a (b.take shaRate)) (b.drop shaRate)

/-- SHA3-512: 64 bytes as a number, byte 0 lowest. -/
def sha3 (m : List Byte) : BitVec 512 :=
  let p := m ++ shaPad (shaRate - m.length % shaRate)
  let a := absorbAll (p.length / shaRate) (List.replicate 25 0) p
  BitVec.ofNat 512 ((List.range 8).foldl (fun t i => t + (a.getD i 0).toNat * 2 ^ (64 * i)) 0)

end Sys2Proof.Machine
end

