-- ==== Sys2Proof/Machine/Engine.lean ====
section
/-! DEFINITION. What the engines share (R158, R165, R177, R178, R185-R190): the checks of an operand, the issue of an
operation into a queue, reading and writing bytes and elements, and the end of an operation. -/

namespace Sys2Proof.Machine

/-! ### Operations -/

/-- An operation by its number. -/
def State.findOp (s : State) (id : Nat) : Option EngineOp := s.ops.find? fun o => o.id = id

/-- Applies a function to an operation. -/
def State.updOp (s : State) (id : Nat) (f : EngineOp → EngineOp) : State :=
  { s with ops := s.ops.map fun o => if o.id = id then f o else o }

/-- The agent of an operation: its crew's core and mode, without an L1 (R187, R199). -/
def EngineOp.who (o : EngineOp) : Who :=
  { core := o.core, engine := true, crew := o.crewId, asid := o.asid, priv := o.priv }

/-- CODE of an operation that ended on a cause (R178). -/
def causeCode (c : BitVec 8) : BitVec 16 := 0x0100 + c.setWidth 16

/-- An operation of the matrix engine. -/
def OpKind.isMatrix : OpKind → Bool
  | .loadw .. | .swap | .mxrun .. | .drain .. | .drainR .. | .zero .. => true
  | _ => false

/-- A weight load. -/
def OpKind.isLoadw : OpKind → Bool
  | .loadw .. => true
  | _ => false

/-- A run of the cluster has dispatched and not yet streamed its rows. -/
def EngineOp.streams (o : EngineOp) : Bool :=
  o.phase = .started && match o.kind with
    | .mxrun .. => true
    | _ => false

/-- The cluster of a token. -/
def Token.cluster (t : Token) : Nat := t.die * 12 + t.place

/-- A cluster holds a token (R243). -/
def State.tokenHere (s : State) (cluster : Nat) : Bool := s.tokens.any fun t => t.held && t.cluster = cluster

/-- The cycles a run that waits for a token has waited so far (R243). -/
def State.waited (s : State) (o : EngineOp) : Nat :=
  if o.streams && !s.tokenHere (o.core / 4) then s.clock - o.since else 0

/-- Rows that a drain had read and cleared come back where no later entry has written them: a drain that does not succeed leaves
the accumulator untouched (R183). -/
def Core.restoreRows (k : Core) (first : Nat) (rows : List (AccMode × List Word)) (kept : List Nat) : Core :=
  ((List.range rows.length).zip rows).foldl (fun (k : Core) e =>
    let r := first + e.1
    if !kept.contains r then k
    else
      { k with accMode := Sparse.put .none k.accMode r e.2.1,
               acc := ((List.range e.2.2.length).zip e.2.2).foldl (fun m x => Sparse.put 0 m (r * 128 + x.1) x.2) k.acc }) k

/-- An entry has written accumulator rows of a core: no drain before it gives them back. -/
def State.rowsWritten (s : State) (core first count : Nat) : State :=
  { s with ops := s.ops.map fun o =>
      if o.core = core then { o with kept := o.kept.filter fun r => !(first ≤ r && r < first + count) } else o }

/-- The first accumulator row of a drain that clears its rows. -/
def OpKind.clears : OpKind → Option Nat
  | .drain _ _ true _ _ base _ _ _ _ => some base
  | .drainR _ _ true _ _ row _ _ => some row
  | _ => none

/-- The shadow plane when a weight load of its owner ends (R241). -/
def Plane.loaded (p : Plane) (crew : Nat) (good : Bool) : Plane :=
  if p.loading && p.owner = crew then (if good then { p with loading := false, full := true } else {}) else p

/-- The end of an operation at the matrix engine: it still arrives at its barrier, a weight load leaves its plane FULL or
EMPTY, the flags go to MXSTAT, a wait for a token to TOKWAIT (R237, R241-R243). -/
def State.endMatrix (s : State) (o : EngineOp) (good : Bool) (flags : BitVec 8) : State :=
  if !o.kind.isMatrix then s
  else
    let s : State := match o.barrier with
      | some b => if o.arrived then s else s.arrive o.crewId b
      | none => s
    let s : State :=
      if o.kind.isLoadw && o.phase ≠ .queued then
        { s with sys := s.sys.updCore o.core fun k => { k with shadow := k.shadow.loaded o.crewId good } }
      else s
    let s : State := match o.rows, o.kind.clears with
      | some rows, some base =>
          if good then s
          else { s with sys := s.sys.updCore o.core fun k => k.restoreRows ((s.findCrew o.crewId).accBase + base) rows o.kept }
      | _, _ => s
    let n := s.waited o
    s.updCrew o.crewId fun c => { c with mxFlags := c.mxFlags ||| flags, tokWait := c.tokWait + BitVec.ofNat 64 n }

/-- The engine writes the handle and the operation is over (R178). -/
def State.finishOp (s : State) (o : EngineOp) (code : BitVec 16) (flags : BitVec 8) (result : Nat) : State :=
  let s := s.endMatrix o (code = 0) flags
  let s : State := { s with ops := s.ops.filter fun x => x.id ≠ o.id }
  match o.handle with
  | some h => s.completeHandle o.crewId h (statusWord code flags (BitVec.ofNat 32 result))
  | none => s

/-- CODE CANCELLED (R178). -/
def codeCancelled : BitVec 16 := 1

/-- A fault met by an operation that has begun: the remainder waits for the driver on the firmware path; a fault that acts
as refused ends it at once (R100, R188). -/
def State.opFault (s : State) (o : EngineOp) (va : Nat) (acc : Access) (f : XFault) : State :=
  if f.refused then (s.recordFault va o.asid acc f o.core).finishOp o (causeCode f.cause) 0 0
  else
    let (_, s) := s.openFault va o.asid acc f o.core (.op o.id f.cause)
    s.updOp o.id fun x => { x with phase := .faulted }

/-- What an operation leaves in its handle. -/
structure OpResult where
  code : BitVec 16 := 0
  flags : BitVec 8 := 0
  result : Nat := 0
deriving DecidableEq, Repr

/-- Ends an operation with what it did: a cause becomes its CODE, a translation fault goes to the driver (R188). -/
def State.endOp (s : State) (o : EngineOp) (r : Except Stop (OpResult × State)) : State :=
  match r with
  | .ok (x, t) => t.finishOp o x.code x.flags x.result
  | .error (.trap c) => s.finishOp o (causeCode c.1) 0 0
  | .error (.fault va acc f) => s.opFault o va acc f

/-! ### Checks at issue -/

/-- What an instruction asks of a capability operand. -/
structure Need where
  kinds : List CapKind
  perms : BitVec 4
  field : Nat
deriving DecidableEq, Repr

/-- The checks of an engine's operand at issue: R90 and R91, then the allocation (R158). -/
def State.engineCheck (s : State) (c : Cap) (tag : Bool) (n : Need) : Option Cause :=
  match c.check tag n.kinds n.perms n.field 0 with
  | some x => some x
  | none =>
      if c.inScratch && Config.scratchBase + s.crew.scratchSize < c.base + c.footprint then
        some (cCapBounds, boundsInfo s.crew.scratchSize n.field 0)
      else none

/-- A LINEAR or TILE2D operand starts in a reserved range (R85). -/
def Cap.reservedCause (c : Cap) : Option Cause :=
  if (c.kind = some .linear || c.kind = some .tile) && (windowOf c.base).1 = .reserved then
    some (cWindow, BitVec.ofNat 64 c.base)
  else none

/-- The checks of an engine's operands: the windows before the capability order (R85, R158, R359). -/
def State.operandChecks (s : State) (l : List ((Cap × Bool) × Need)) : List (Option Cause) :=
  (l.map fun o => o.1.1.reservedCause) ++ l.map fun o => s.engineCheck o.1.1 o.1.2 o.2

/-- The first cause of a list of checks. -/
def firstCause : List (Option Cause) → Option Cause
  | [] => none
  | some c :: _ => some c
  | none :: rest => firstCause rest

/-- A condition with its cause. -/
def causeIf (bad : Bool) (c : Cause) : Option Cause := if bad then some c else none

/-- FMT and BS as causes record them (R212, R258). -/
def Cap.fmtBs (c : Cap) : Nat := c.fmt + (if c.bs then 16 else 0)

/-- The header check of a STITCH operand at issue: its version must be reachable (R192, R199, R201). What a header that
cannot be translated yet holds is checked when the engine reads it. -/
def State.versionCheck (s : State) (c : Cap) : Option Cause :=
  if c.kind ≠ some .stitch then none
  else
    match s.readHeader s.who c.base with
    | .error (.trap x) => some x
    | .error (.fault ..) => none
    | .ok (h, _) =>
        if s.reachable s.crew.asid c.base h c.ver then none
        else some (cStitchVersion, BitVec.ofNat 64 (c.ver % 2 ^ 32 + h.version * 2 ^ 32))

/-- The version of a STITCH operand whose header cannot be read at issue, unless an operation holds it (R199, R201). -/
def State.unproven (s : State) (c : Cap) : List (Dword × Nat) :=
  if c.kind ≠ some .stitch || (s.heldVersions s.crew.asid c.base).contains c.ver then []
  else
    match s.readHeader s.who c.base with
    | .error (.fault ..) => [(BitVec.ofNat 64 c.base, c.ver)]
    | _ => []

/-- The version an operation holds for a STITCH operand (R201). -/
def Cap.holds (c : Cap) : List (Dword × Nat) :=
  if c.kind = some .stitch then [(BitVec.ofNat 64 c.base, c.ver)] else []

/-- The window an operation opens over a scratch range: its first and last byte in the allocation (R165). -/
def scratchWindow (first n : Nat) : Option (Nat × Nat) :=
  if n = 0 then none else some (first - Config.scratchBase, first - Config.scratchBase + n - 1)

/-- The window of a whole destination. -/
def Cap.window (c : Cap) : Option (Nat × Nat) := if c.inScratch then scratchWindow c.base c.footprint else none

/-! ### Issue into a queue -/

/-- What an operation needs to be queued. -/
structure Request where
  kind : OpKind
  reg : Option Nat
  room : Option Room
  window : Option (Nat × Nat) := none
  holds : List (Dword × Nat) := []
  unproven : List (Dword × Nat) := []
  barrier : Option Nat := none
deriving DecidableEq, Repr

/-- Queues an operation with its handle: the gang holds while the handle table, the windows or the queue are full
(R165, R177, R185). -/
def State.queueOp (s : State) (q : Request) : State × Bool :=
  if q.reg.isSome && !s.hasRoom .handleTable then (s.wait (.room .handleTable), false)
  else if q.window.isSome && !s.hasRoom .windows then (s.wait (.room .windows), false)
  else
    match q.room.filter fun r => !s.hasRoom r with
    | some r => (s.wait (.room r), false)
    | none =>
        let (h, s) : Option Nat × State := match q.reg.bind fun r => s.newHandle r with
          | some (e, s) => (some e, s)
          | none => (none, s)
        let o : EngineOp :=
          { id := s.nextOp, kind := q.kind, crewId := s.crew.id, gangId := s.gang.id, gangIdx := s.gang.idx,
            asid := s.crew.asid, priv := s.gang.priv, core := s.core, cls := s.crew.cls, handle := h, window := q.window, holds := q.holds,
            unproven := q.unproven, fence := s.crew.fences, barrier := q.barrier }
        ({ s with ops := s.ops ++ [o], nextOp := s.nextOp + 1 }, true)

/-- The handle register of D. -/
def handleReg (d : Sel) : Option Nat :=
  match d with
  | .s n => some n.toNat
  | _ => none

/-- An operation with the implicit release: the gang's side-log entries must be freed first (R105, R186). -/
def State.releasing (s : State) (f : State → State × Bool) : State × Bool :=
  if s.logBlocked (BitVec.allOnes 32) then (s.wait (.logged (BitVec.allOnes 32)), false) else f s

/-! ### Bytes -/

/-- An engine's read of one part inside a line. -/
def engReadPart (w : Who) (a : List Byte × State) (p : Nat × Nat) : Except Stop (List Byte × State) :=
  match a.2.leaf w .engineRead p.1 with
  | .error f => .error (.fault p.1 .engineRead f)
  | .ok (l, s) =>
      let (b, s) := s.readPart w l 0 p.1 p.2
      .ok (a.1 ++ b, s)

/-- Bytes as an engine reads them: scratch of its crew, or memory at cluster-cache level (R158, R187). -/
def State.engRead (s : State) (w : Who) (va n : Nat) : Except Stop (List Byte × State) :=
  if (windowOf va).1 = .scratch then .ok ((s.findCrew w.crew).scratchRead (va - Config.scratchBase) n, s)
  else (splitParts 128 va n).foldlM (engReadPart w) ([], s)

/-- An engine's write of one part inside a line; the data left for the parts behind it is carried. -/
def engWritePart (w : Who) (set : BitVec 16) (a : List Byte × State) (p : Nat × Nat) : Except Stop (List Byte × State) :=
  match a.2.leaf w .engineWrite p.1 with
  | .error f => .error (.fault p.1 .engineWrite f)
  | .ok (l, s) =>
      if s.sys.isBad (l.addr p.1) && s.sys.needsMemory w p.1 p.2 then .error (.fault p.1 .engineWrite (.memError false))
      else .ok (a.1.drop p.2, s.writePart w l 0 set (s.sys.readers w set) p.1 (a.1.take p.2) false)

/-- Drops the clean bytes of an ordinary line from a core's L1 (R187). -/
def Sys.l1DropClean (y : Sys) (c : Nat) (asid : Asid) (line : Nat) : Sys :=
  match y.l1Find c asid line with
  | none => y
  | some x =>
      if x.dirty = 0 then y.l1Drop c asid line
      else y.updCore c fun k => { k with l1 := k.l1.map fun (l : L1Line) =>
        if l.asid = asid && l.line = line then { l with valid := l.dirty } else l }

/-- Bytes an engine writes: scratch, or memory under a reader set; the issuing core's clean copies are dropped
(R187, R190). -/
def State.engWrite (s : State) (w : Who) (set : BitVec 16) (va : Nat) (data : List Byte) : Except Stop State :=
  if (windowOf va).1 = .scratch then
    .ok (s.updCrew w.crew fun c => c.scratchWrite (va - Config.scratchBase) data false)
  else
    match (splitParts 128 va data.length).foldlM (engWritePart w set) (data, s) with
    | .error e => .error e
    | .ok (_, s) =>
        let lines := distinct ((splitParts 128 va data.length).map fun p => p.1 / 128)
        .ok { s with sys := lines.foldl (fun y n => y.l1DropClean w.core w.asid n) s.sys }

/-- A byte as it stands, for the bits of it that an operation leaves alone. -/
def State.engPeek (s : State) (w : Who) (va : Nat) : Byte :=
  if (windowOf va).1 = .scratch then ((s.findCrew w.crew).scratchRead (va - Config.scratchBase) 1).headD 0
  else
    match s.leaf w .engineWrite va with
    | .error _ => 0
    | .ok (l, s) => (s.homeRead l va 1).headD 0

/-- Causes of the stitch unit met for an engine keep their codes; its accesses are the engine's (R199). -/
def engineStop : Stop → Stop
  | .trap c => .trap c
  | .fault va _ f => .fault va .engineRead f.ofStore

/-! ### Elements -/

/-- The type of an element format (R88). -/
def fmtTy : Nat → Ty
  | 1 => .f32 | 2 => .f16 | 3 => .bf16 | 4 => .e4m3 | 5 => .e5m2 | 6 => .e2m3 | 7 => .e3m2 | 8 => .e2m1 | 9 => .i8
  | 10 => .n8 | 11 => .i32 | 12 => .t2 | _ => .n8

/-- The codes of `n` elements packed in bytes, the first in the lowest bits (R89). -/
def unpackCodes (bits n : Nat) (b : List Byte) : List Nat :=
  let x := fromBytes b
  (List.range n).map fun k => bitsAt x (k * bits) bits

/-- Codes packed into a number. -/
def packCodes (bits : Nat) : List Nat → Nat
  | [] => 0
  | c :: t => c % 2 ^ bits + 2 ^ bits * packCodes bits t

/-- A run of elements of a capability: the address and number of its elements, and of its scales. -/
structure Span where
  va : Nat
  count : Nat
  scaleVa : Nat
  scales : Nat
deriving DecidableEq, Repr

/-- The runs of a LINEAR or TILE2D capability in row-major order (R89). -/
def Cap.spans (c : Cap) : List Span :=
  match c.kind with
  | some .tile =>
      (List.range c.rows).map fun r =>
        let va := c.base + r * c.pitch * 64
        { va := va, count := c.cols, scaleVa := va + c.rb, scales := c.sb }
  | _ => [{ va := c.base, count := c.elements, scaleVa := c.base + c.len, scales := c.linearScales }]

/-- Reads one run behind those before it. -/
def readSpan (w : Who) (bits : Nat) (a : (List Nat × List Nat) × State) (p : Span) :
    Except Stop ((List Nat × List Nat) × State) :=
  match a.2.engRead w p.va (ceilDiv (p.count * bits) 8) with
  | .error e => .error e
  | .ok (b, s) =>
      match s.engRead w p.scaleVa p.scales with
      | .error e => .error e
      | .ok (sb, s) => .ok ((a.1.1 ++ unpackCodes bits p.count b, a.1.2 ++ sb.map BitVec.toNat), s)

/-- Reads the parts of a stitched range, piece by piece (R132). -/
def State.readPieceParts (s : State) (w : Who) (parts : List (Nat × Nat)) : Except Stop (List Byte × State) :=
  parts.foldlM (fun (a : List Byte × State) p =>
    match a.2.engRead w p.1 p.2 with
    | .error e => .error e
    | .ok (b, s) => .ok (a.1 ++ b, s)) ([], s)

/-- Resolve for an engine (R199, R200). A piece that software placed outside the global and private windows is none that SPLICE
would take: the list is refused, so that no engine reaches scratch through it (R158, R199). -/
def State.stitchParts (s : State) (w : Who) (c : Cap) (x n : Nat) : Except Stop (List (Nat × Nat) × State) :=
  match s.resolve w c x n with
  | .error e => .error (engineStop e)
  | .ok (parts, s) =>
      if parts.any fun p => (windowOf p.1).1 = .scratch || (windowOf p.1).1 = .reserved || (windowOf p.1).2 < p.1 + p.2 then
        .error (headerStop c.base)
      else .ok (parts, s)

/-- The bytes of a range of a stitched version. -/
def State.stitchRead (s : State) (w : Who) (c : Cap) (x n : Nat) : Except Stop (List Byte × State) :=
  match s.stitchParts w c x n with
  | .error e => .error e
  | .ok (parts, s) => s.readPieceParts w parts

/-- Writes the parts of a stitched range. -/
def State.writePieceParts (s : State) (w : Who) (set : BitVec 16) (parts : List (Nat × Nat)) (data : List Byte) :
    Except Stop State :=
  match parts.foldlM (fun (a : List Byte × State) p =>
    match a.2.engWrite w set p.1 (a.1.take p.2) with
    | .error e => Except.error e
    | .ok s => Except.ok (a.1.drop p.2, s)) (data, s) with
  | .error e => .error e
  | .ok (_, s) => .ok s

/-- Writes bytes of a range of a stitched version (R191). -/
def State.stitchWrite (s : State) (w : Who) (set : BitVec 16) (c : Cap) (x : Nat) (data : List Byte) : Except Stop State :=
  match s.stitchParts w c x data.length with
  | .error e => .error e
  | .ok (parts, s) => s.writePieceParts w set parts data

/-- The length of a stitched version, which must be reachable (R190, R200). -/
def State.stitchLength (s : State) (w : Who) (c : Cap) : Except Stop (Nat × State) :=
  match s.readList w c.base with
  | .error e => .error (engineStop e)
  | .ok ((h, l), s) =>
      if s.reachable w.asid c.base h c.ver then .ok (versionLength c.ver l, s)
      else .error (engineStop (versionStop h c.ver))

/-- The element count of a stitched version of a length, and the bytes of its payload and scales; none for a remainder
(R190). -/
def Cap.stitchShape (c : Cap) (l : Nat) : Option (Nat × Nat × Nat) :=
  if c.bs then
    if 32 * l % (4 * c.bits + 1) ≠ 0 then none
    else
      let n := 32 * l / (4 * c.bits + 1)
      some (n, n * c.bits / 8, ceilDiv n 32)
  else if l * 8 % c.bits ≠ 0 then none
  else some (l * 8 / c.bits, l, 0)

/-- COPY_SHAPE (R212). -/
def cCopyShape : BitVec 8 := 0x80
def cCopyFormat : BitVec 8 := 0x81

/-- Every element of a capability with the scales (R190). -/
def State.readElements (s : State) (w : Who) (c : Cap) : Except Stop ((List Nat × List Nat) × State) :=
  if c.kind = some .stitch then
    match s.stitchLength w c with
    | .error e => .error e
    | .ok (l, s) =>
        match c.stitchShape l with
        | none => .error (.trap (cCopyShape, 0))
        | some (n, pay, sc) =>
            match s.stitchRead w c 0 (pay + sc) with
            | .error e => .error e
            | .ok (b, s) => .ok ((unpackCodes c.bits n (b.take pay), (b.drop pay).map BitVec.toNat), s)
  else c.spans.foldlM (readSpan w c.bits) (([], []), s)

/-- How many elements a capability holds. -/
def State.countElements (s : State) (w : Who) (c : Cap) : Except Stop (Nat × State) :=
  match c.kind with
  | some .stitch =>
      match s.stitchLength w c with
      | .error e => .error e
      | .ok (l, s) =>
          match c.stitchShape l with
          | none => .error (.trap (cCopyShape, 0))
          | some (n, _, _) => .ok (n, s)
  | some .tile => .ok (c.rows * c.cols, s)
  | _ => .ok (c.elements, s)

/-- The bytes of packed codes at an address; the bits of a last byte they do not fill stay as they are. -/
def State.packedBytes (s : State) (w : Who) (va bits : Nat) (codes : List Nat) : List Byte :=
  let nb := codes.length * bits
  let x := packCodes bits codes
  let x := if nb % 8 = 0 then x else x + (s.engPeek w (va + nb / 8)).toNat / 2 ^ (nb % 8) * 2 ^ nb
  toBytes (ceilDiv nb 8) x

/-- Writes one run from the codes and scales left. -/
def writeSpan (w : Who) (set : BitVec 16) (bits : Nat) (a : (List Nat × List Nat) × State) (p : Span) :
    Except Stop ((List Nat × List Nat) × State) :=
  let s := a.2
  match s.engWrite w set p.va (s.packedBytes w p.va bits (a.1.1.take p.count)) with
  | .error e => .error e
  | .ok s =>
      match s.engWrite w set p.scaleVa ((a.1.2.take p.scales).map (BitVec.ofNat 8)) with
      | .error e => .error e
      | .ok s => .ok ((a.1.1.drop p.count, a.1.2.drop p.scales), s)

/-- Writes every element of a capability with its scales (R190, R191). -/
def State.writeElements (s : State) (w : Who) (set : BitVec 16) (c : Cap) (codes scales : List Nat) : Except Stop State :=
  if c.kind = some .stitch then
    s.stitchWrite w set c 0 (toBytes (ceilDiv (codes.length * c.bits) 8) (packCodes c.bits codes) ++ scales.map (BitVec.ofNat 8))
  else
    match c.spans.foldlM (writeSpan w set c.bits) ((codes, scales), s) with
    | .error e => .error e
    | .ok (_, s) => .ok s

/-- The value of an element with its block scale (R69, R71). -/
def elementValue (fmt : Nat) (scale : Option Nat) (code : Nat) : Source × BitVec 8 :=
  let (v, fl) := Ty.source (fmtTy fmt) code
  match v, scale with
  | .f x, some k =>
      let (y, f) := scaledValue x k
      (.f y, fl ||| f)
  | v, _ => (v, fl)

end Sys2Proof.Machine
end

