-- ==== Sys2Proof/Machine/CopyEngine.lean ====
section
/-! DEFINITION. The copy engine (R185-R196): COPY with its conversions, GATHER and SCATTER with their swizzle, and the start
and completion of its operations. -/

namespace Sys2Proof.Machine

/-! ### COPY (R190-R192) -/

/-- COPY raises COPY_FORMAT for these formats (R191). -/
def copyFormatBad (dst src : Cap) : Bool :=
  !(src.fmt = dst.fmt && src.bs = dst.bs) && (src.fmt = 0 || dst.fmt = 0 || dst.fmt = 12 || dst.bs)

/-- Elements of an operand that is no STITCH; a remainder of a LINEAR has none (R190). -/
def Cap.wholeElements (c : Cap) : Option Nat :=
  if c.kind = some .tile then some (c.rows * c.cols)
  else if c.len * 8 % c.bits ≠ 0 then none
  else some c.elements

/-- A LINEAR operand's bytes are no whole number of elements (R190). -/
def Cap.remainder (c : Cap) : Bool := c.kind ≠ some .stitch && c.wholeElements.isNone

/-- The elements TRAPINFO records of an operand (R212). -/
def Cap.countInfo (c : Cap) : Nat := if c.kind = some .tile then c.rows * c.cols else c.elements

/-- COPY_SHAPE with two figures: the destination's and the other operand's (R212). -/
def shapeCause (code : BitVec 8) (dst src : Nat) : Cause := (code, BitVec.ofNat 64 (dst % 2 ^ 32 + src % 2 ^ 32 * 2 ^ 32))

/-- COPY_FORMAT (R212). -/
def formatCause (dst src : Cap) : Cause := (cCopyFormat, BitVec.ofNat 64 (src.fmtBs + dst.fmtBs * 256))

/-- The counts of two operands differ, neither being STITCH (R190). -/
def copyShapeBad (dst src : Cap) : Bool :=
  dst.kind ≠ some .stitch && src.kind ≠ some .stitch &&
    (dst.wholeElements.isNone || src.wholeElements.isNone || dst.wholeElements ≠ src.wholeElements)

/-- A destination's permissions: PPARK too for a reader set that takes effect (R190). -/
def destPerms (c : Cap) (set : BitVec 16) : BitVec 4 := if setGiven set && !c.inScratch then pWrite ||| pPark else pWrite

/-- COPY (R190). -/
def execCopy (x : Fun) (s : State) : Out :=
  s.attempt { op := .copy, ejected := some cEjectedOp } fun s =>
    let (dst, dt) := s.capOf x.a
    let (src, st) := s.capOf x.b
    let set := Fun.rset x
    let kinds : List CapKind := [.linear, .tile, .stitch]
    match firstCause (s.operandChecks [((dst, dt), ⟨kinds, destPerms dst set, 1⟩), ((src, st), ⟨kinds, pRead, 2⟩)] ++
      [s.versionCheck dst, s.versionCheck src,
       causeIf (copyShapeBad dst src) (shapeCause cCopyShape dst.countInfo src.countInfo),
       causeIf (copyFormatBad dst src) (formatCause dst src)]) with
    | some c => (s.trap c.1 c.2, false)
    | none =>
        s.releasing fun s =>
          s.queueOp
            { kind := .copy dst.raw src.raw (x.md.extractLsb' 5 3).toNat (x.md.getLsbD 4) (if dst.inScratch then 0 else set),
              reg := handleReg x.d, room := some .copyQueue, window := dst.window, holds := dst.holds ++ src.holds,
              unproven := s.unproven dst ++ s.unproven src }

/-- MXFP6 expansion rounds as with SAT (R81). -/
def expands (dst src : Cap) : Bool := src.bs && (src.fmt = 6 || src.fmt = 7) && (dst.fmt = 3 || dst.fmt = 4)

/-- Codes converted one after another from element `k` on, with the flags of all (R78, R191). -/
def convertCodes (dst src : Cap) (rnd : Nat) (sat : Bool) (scales : List Nat) : Nat → List Nat → List Nat × BitVec 8
  | _, [] => ([], 0)
  | k, c :: rest =>
      let (v, fl) := elementValue src.fmt (if src.bs then some (scales.getD (k / 32) 0) else none) c
      let r := v.convert (fmtTy dst.fmt) rnd sat 0
      let (out, flags) := convertCodes dst src rnd sat scales (k + 1) rest
      (r.bits :: out, fl ||| r.flags ||| flags)

/-- What COPY does to memory (R190, R191). -/
def State.copyData (s : State) (w : Who) (dst src : Cap) (rnd : Nat) (sat : Bool) (set : BitVec 16) :
    Except Stop (OpResult × State) :=
  match s.readElements w src with
  | .error e => .error e
  | .ok ((codes, scales), s) =>
      match s.countElements w dst with
      | .error e => .error e
      | .ok (n, s) =>
          if n ≠ codes.length || dst.remainder || src.remainder then .error (.trap (cCopyShape, 0))
          else
            let same := src.fmt = dst.fmt && src.bs = dst.bs
            let (out, flags) : List Nat × BitVec 8 :=
              if same then (codes, 0) else convertCodes dst src rnd (sat || expands dst src) scales 0 codes
            match s.writeElements w set dst out (if same then scales else []) with
            | .error e => .error e
            | .ok s => .ok ({ flags := flags }, s)

/-! ### GATHER and SCATTER (R193-R196) -/

/-- The scratch row of rank `n` from an origin (R194). -/
def scratchRow (sc : Cap) (origin n : Nat) : Nat := if sc.ring then (origin + n) % sc.rows else origin + n

/-- The sides of a GATHER or SCATTER: the scratch side, the memory side and their operand fields (R194). -/
structure Sides where
  sc : Cap
  scTag : Bool
  scField : Nat
  mc : Cap
  mcTag : Bool
  mcField : Nat
deriving DecidableEq, Repr

/-- The checks of GATHER and SCATTER at issue (R194); `dst` and `src` order what COPY_SHAPE and COPY_FORMAT record. -/
def State.rowsCheck (s : State) (k : Sides) (scPerm mcPerm : BitVec 4) (dst src : Cap) (nosw : Bool) (origin : Nat)
    (lanes : List Nat) : Option Cause :=
  let sc : (Cap × Bool) × Need := ((k.sc, k.scTag), ⟨[.tile, .stitch], scPerm, k.scField⟩)
  let mc : (Cap × Bool) × Need := ((k.mc, k.mcTag), ⟨[.tile, .stitch], mcPerm, k.mcField⟩)
  let row (n : Nat) : Int := (origin + n : Nat)
  firstCause (s.operandChecks (if k.scField < k.mcField then [sc, mc] else [mc, sc]) ++
    [causeIf (!k.sc.inScratch) (cWindow, BitVec.ofNat 64 k.sc.base),
     causeIf k.mc.inScratch (cWindow, BitVec.ofNat 64 k.mc.base),
     s.versionCheck k.mc,
     causeIf (k.sc.fmt ≠ k.mc.fmt || k.sc.bs ≠ k.mc.bs) (formatCause dst src),
     causeIf (k.mc.kind = some .tile && k.sc.rb + k.sc.sb ≠ k.mc.rb + k.mc.sb)
       (shapeCause cCopyShape (dst.rb + dst.sb) (src.rb + src.sb)),
     causeIf (!nosw && k.sc.rb % 128 ≠ 0) (shapeCause cCopyShape k.sc.rb 128),
     causeIf (!k.sc.ring && lanes ≠ [] && k.sc.rows < origin + lanes.length)
       (cCapBounds, boundsInfo (row (k.sc.rows - origin)) k.scField (lanes.getD (k.sc.rows - origin) 0))])

/-- The register IMM 7-0 or 15-8 names (R193). -/
def immReg (x : Fun) (lo : Nat) : Option Nat :=
  let v := bitsAt x.imm.toNat lo 8
  if 0x80 ≤ v && v ≤ 0xBF then some (v - 0x80) else none

/-- The row origin (R193). -/
def State.rowOrigin (s : State) (x : Fun) : Nat :=
  match immReg x 8 with
  | some n => (s.readS n).toNat
  | none => 0

/-- The index of each active strand with its scratch row (R193, R194). -/
def State.rowList (s : State) (x : Fun) (sc : Cap) : List (Nat × Nat) :=
  let lanes := s.active x.hdr
  let origin := s.rowOrigin x
  ((List.range lanes.length).zip lanes).map fun e => (scratchRow sc origin e.1, s.src 32 false x.b 0 e.2)

/-- The window GATHER opens: from its lowest to its highest row (R165). -/
def rowsWindow (sc : Cap) (rows : List (Nat × Nat)) : Option (Nat × Nat) :=
  match minList (rows.map Prod.fst) with
  | none => none
  | some lo => scratchWindow (sc.base + lo * sc.pitch * 64) ((maxList (rows.map Prod.fst) - lo) * sc.pitch * 64 + sc.rb + sc.sb)

/-- GATHER (R193-R195). -/
def execGather (x : Fun) (s : State) : Out :=
  s.attempt { op := .gather, ejected := some cEjectedOp } fun s =>
    let (dst, dt) := s.capOf x.a
    let (src, st) := s.capOf x.c
    let nosw := x.fn.getLsbD 0
    match s.rowsCheck ⟨dst, dt, 1, src, st, 3⟩ pWrite pRead dst src nosw (s.rowOrigin x) (s.active x.hdr) with
    | some c => (s.trap c.1 c.2, false)
    | none =>
        s.releasing fun s =>
          let rows := s.rowList x dst
          s.queueOp { kind := .gather dst.raw src.raw rows nosw, reg := immReg x 0, room := some .copyQueue,
                      window := rowsWindow dst rows, holds := src.holds, unproven := s.unproven src }

/-- SCATTER (R193-R195). -/
def execScatter (x : Fun) (s : State) : Out :=
  s.attempt { op := .scatter, ejected := some cEjectedOp } fun s =>
    let (dst, dt) := s.capOf x.a
    let (src, st) := s.capOf x.c
    let nosw := x.fn.getLsbD 0
    let set := Fun.rset x
    match s.rowsCheck ⟨src, st, 3, dst, dt, 1⟩ pRead (destPerms dst set) dst src nosw (s.rowOrigin x) (s.active x.hdr) with
    | some c => (s.trap c.1 c.2, false)
    | none =>
        s.releasing fun s =>
          s.queueOp { kind := .scatter dst.raw src.raw (s.rowList x src) nosw set, reg := immReg x 0,
                      room := some .copyQueue, holds := dst.holds, unproven := s.unproven dst }

/-- The chunks of a row's payload exchanged by the swizzle of a scratch row (R195). -/
def swizzle (nosw : Bool) (row rb : Nat) (b : List Byte) : List Byte :=
  if nosw then b
  else ((List.range (rb / 16)).flatMap fun c => (b.drop (16 * (c ^^^ (row % 8)))).take 16) ++ b.drop rb

/-- The length of a STITCH memory side; 0 of a TILE2D. -/
def State.sideLength (s : State) (w : Who) (mc : Cap) : Except Stop (Nat × State) :=
  if mc.kind = some .stitch then s.stitchLength w mc else .ok (0, s)

/-- A memory-side row is valid (R194). -/
def rowValid (mc : Cap) (size length idx : Nat) : Bool :=
  if mc.kind = some .stitch then (idx + 1) * size ≤ length else mc.ring || idx < mc.rows

/-- The address of a row of a TILE2D. -/
def Cap.rowAddr (c : Cap) (r : Nat) : Nat := c.base + (if c.ring then r % c.rows else r) * c.pitch * 64

/-- A row of the memory side. -/
def State.readRow (s : State) (w : Who) (mc : Cap) (size idx : Nat) : Except Stop (List Byte × State) :=
  if mc.kind = some .stitch then s.stitchRead w mc (idx * size) size else s.engRead w (mc.rowAddr idx) size

def State.writeRow (s : State) (w : Who) (set : BitVec 16) (mc : Cap) (size idx : Nat) (b : List Byte) : Except Stop State :=
  if mc.kind = some .stitch then s.stitchWrite w set mc (idx * size) b else s.engWrite w set (mc.rowAddr idx) b

/-- How many rows were invalid so far, and the state. -/
abbrev RowsDone := Nat × State

/-- One row of a GATHER (R195). -/
def gatherRow (w : Who) (sc mc : Cap) (nosw : Bool) (length : Nat) (a : RowsDone) (r : Nat × Nat) : Except Stop RowsDone :=
  let size := sc.rb + sc.sb
  let into' (s : State) (b : List Byte) : Except Stop State := s.engWrite w 0 (sc.base + r.1 * sc.pitch * 64) (swizzle nosw r.1 sc.rb b)
  if rowValid mc size length r.2 then
    match a.2.readRow w mc size r.2 with
    | .error e => .error e
    | .ok (b, s) =>
        match into' s b with
        | .error e => .error e
        | .ok s => .ok (a.1, s)
  else
    match into' a.2 (List.replicate size 0) with
    | .error e => .error e
    | .ok s => .ok (a.1 + 1, s)

/-- One row of a SCATTER (R195). -/
def scatterRow (w : Who) (sc mc : Cap) (nosw : Bool) (set : BitVec 16) (length : Nat) (a : RowsDone) (r : Nat × Nat) :
    Except Stop RowsDone :=
  let size := sc.rb + sc.sb
  if rowValid mc size length r.2 then
    match a.2.engRead w (sc.base + r.1 * sc.pitch * 64) size with
    | .error e => .error e
    | .ok (b, s) =>
        match s.writeRow w set mc size r.2 (swizzle nosw r.1 sc.rb b) with
        | .error e => .error e
        | .ok s => .ok (a.1, s)
  else .ok (a.1 + 1, a.2)

/-- BADIDX (R178). -/
def flagBadIdx : BitVec 8 := 8

/-- The status of rows of which `bad` were invalid (R195). -/
def rowsResult (bad : Nat) : OpResult := { flags := if bad = 0 then 0 else flagBadIdx, result := bad }

/-- What GATHER does (R195). -/
def State.gatherData (s : State) (w : Who) (sc mc : Cap) (rows : List (Nat × Nat)) (nosw : Bool) :
    Except Stop (OpResult × State) :=
  match s.sideLength w mc with
  | .error e => .error e
  | .ok (len, s) =>
      match rows.foldlM (gatherRow w sc mc nosw len) (0, s) with
      | .error e => .error e
      | .ok (bad, s) => .ok (rowsResult bad, s)

/-- What SCATTER does (R195). -/
def State.scatterData (s : State) (w : Who) (mc sc : Cap) (rows : List (Nat × Nat)) (nosw : Bool) (set : BitVec 16) :
    Except Stop (OpResult × State) :=
  match s.sideLength w mc with
  | .error e => .error e
  | .ok (len, s) =>
      match rows.foldlM (scatterRow w sc mc nosw set len) (0, s) with
      | .error e => .error e
      | .ok (bad, s) => .ok (rowsResult bad, s)

/-! ### Start and completion (R185, R186, R178, R183) -/

/-- A splice. -/
def OpKind.isSplice : OpKind → Bool
  | .splice .. => true
  | _ => false

/-- A copy-engine operation. -/
def OpKind.isCopy : OpKind → Bool
  | .copy .. | .gather .. | .scatter .. => true
  | _ => false

/-- What a copy-engine operation does to memory. -/
def State.copyWork (s : State) (o : EngineOp) : Except Stop (OpResult × State) :=
  match o.kind with
  | .copy d r rnd sat set => s.copyData o.who (Cap.ofQuad d) (Cap.ofQuad r) rnd sat set
  | .gather d r rows nosw => s.gatherData o.who (Cap.ofQuad d) (Cap.ofQuad r) rows nosw
  | .scatter d r rows nosw set => s.scatterData o.who (Cap.ofQuad d) (Cap.ofQuad r) rows nosw set
  | _ => .ok ({}, s)

/-- The implicit release of an operation reaches the cluster cache: its core's L1 is written back (R186). -/
def State.opRelease (s : State) (o : EngineOp) (scope : Nat) : State := s.release { o.who with engine := false } scope

/-- The next operation of a cluster's copy engine, when one of its four places is free (R185). -/
def State.nextCopy (s : State) (cluster : Nat) : Option EngineOp :=
  let mine := s.ops.filter fun o => o.kind.isCopy && o.core / 4 = cluster
  if (mine.filter fun o => o.phase = .started).length < Config.copyInWork then mine.find? fun o => o.phase = .queued
  else none

/-- COPY_OP_START: the next operation takes a place in work, and its release is performed (R185, R186). -/
def execCopyOpStart (cluster : Nat) (s : State) : Out :=
  .next (match s.nextCopy cluster with
    | some o => (s.opRelease o 3).updOp o.id fun o => { o with phase := .started }
    | none => s)

/-- The versions an operation could not check at issue must have been reachable then (R192, R201); DEDUCED: they are checked when the
header is first read, by the engine or by an operation that changes the list (log 53). -/
def State.prove (s : State) (o : EngineOp) : Except Stop State :=
  ((s.findOp o.id).getD o).unproven.foldlM (fun (s : State) h =>
    match s.readHeader o.who h.1.toNat with
    | .error e => Except.error (engineStop e)
    | .ok (x, s) =>
        if s.reachable o.asid h.1.toNat x h.2 then Except.ok (s.settleHolds o.asid h.1.toNat x)
        else Except.error (engineStop (versionStop x h.2))) s

/-- An operation ends cancelled or with what it did; a SPLICE at its header's home cannot be cancelled (R178, R183). -/
def State.complete (s : State) (o : EngineOp) (work : State → EngineOp → Except Stop (OpResult × State)) : State :=
  if o.cancel && !o.kind.isSplice then s.finishOp o codeCancelled 0 0
  else
    match s.prove o with
    | .error e => s.endOp o (.error e)
    | .ok s => s.endOp o (work s o)

/-- An operation in work, or a cancelled one still queued, may complete. -/
def EngineOp.inWork (o : EngineOp) : Bool := o.phase = .started || (o.cancel && o.phase = .queued)

/-- COPY_OP_COMPLETE (R178, R183, R190, R195). -/
def execCopyOpComplete (op : Nat) (s : State) : Out :=
  .next (match s.findOp op with
    | some o => if o.kind.isCopy && o.inWork then s.complete o State.copyWork else s
    | none => s)

end Sys2Proof.Machine
end

