-- ==== Sys2Proof/Machine/Matrix.lean ====
section
/-! DEFINITION. The matrix engine (R234-R258): the instructions with their checks, the dispatch conditions and plane states,
the arithmetic of runs and drains, engine arrivals, and the power tokens (R243). -/

namespace Sys2Proof.Machine

/-! ### Formats (R235, R236) -/

/-- Depth of a weight tile along K (R235). -/
def depthK (fmt : Nat) : Nat := if fmt = 8 || fmt = 12 then 256 else 128

/-- The class of formats that pair with one another as floats (R236). -/
def floatClass (f : Fmt) : Option Nat :=
  if f.code = 4 || f.code = 5 || ((f.code = 6 || f.code = 7) && f.bs) then some 0
  else if f.code = 8 && f.bs then some 1
  else if f.code = 3 && !f.bs then some 2
  else if f.code = 2 && !f.bs then some 3
  else none

/-- The accumulator mode of a pair, none for a pair that the engine refuses (R236). -/
def pairMode (plane stream : Fmt) : Option AccMode :=
  if (plane.code = 9 || plane.code = 12) && !plane.bs && (stream.code = 9 || stream.code = 10) && !stream.bs then some .i
  else
    match floatClass plane, floatClass stream with
    | some a, some b => if a = b then some .f else none
    | _, _ => none

/-- Some row of R236 lists the format for the plane, or for the stream. -/
def planeFormat (f : Fmt) : Bool := (floatClass f).isSome || ((f.code = 9 || f.code = 12) && !f.bs)
def streamFormat (f : Fmt) : Bool := (floatClass f).isSome || ((f.code = 9 || f.code = 10) && !f.bs)

/-- The format of a capability's elements. -/
def Cap.format (c : Cap) : Fmt := { code := c.fmt, bs := c.bs }

/-- Points of a transform (R238). -/
def hadPoints (hn : Nat) : Nat := 16 * 2 ^ hn

/-- A transform R238 allows over an extent. -/
def hadAllowed (f : Fmt) (hn extent : Nat) : Bool :=
  extent % hadPoints hn = 0 && (if f.bs then hn < 2 else f.code = 2 || f.code = 3 || f.code = 4 || f.code = 5)

/-! ### Causes (R258) -/

def cMxParam : BitVec 8 := 0x82
def cMxFormat : BitVec 8 := 0x83
def cMxAccrow : BitVec 8 := 0x84
def cMxAcctype : BitVec 8 := 0x85
def cMxNoweights : BitVec 8 := 0x86
def cMxNoshare : BitVec 8 := 0x87

/-- MX_PARAM of an operand field. -/
def paramCause (field : Nat) : Cause := (cMxParam, BitVec.ofNat 64 field)

/-- MX_PARAM of a byte of a parameter block. -/
def blockCause (off byte : Nat) : Cause := (cMxParam, BitVec.ofNat 64 (off % 2 ^ 18 + byte * 2 ^ 24))

/-- MX_FORMAT: the weight format and the other one. -/
def mxFormatCause (weight other : Nat) : Cause := (cMxFormat, BitVec.ofNat 64 (weight + other * 256))

/-- MX_ACCROW: the first offending row and AR. -/
def accrowCause (first ar : Nat) : Cause := (cMxAccrow, BitVec.ofNat 64 (max first ar + ar * 2 ^ 32))

/-- A matrix instruction that needs a queue share (R257), with the checks common to the group. -/
def State.matrixOp (s : State) (o : Op) (f : State → State × Bool) : Out :=
  s.attempt (groupLimits o) fun s =>
    if s.crew.qshare = 0 then (s.trap cMxNoshare (o.code.setWidth 64), false) else f s

/-- Issue after a list of checks. -/
def State.orTrap (s : State) (checks : List (Option Cause)) (f : State → State × Bool) : State × Bool :=
  match firstCause checks with
  | some c => (s.trap c.1 c.2, false)
  | none => f s

/-- A column-scale operand with what is asked of it (R252); none of 0xFF. -/
def State.scaleOperand (s : State) (x : Sel) (field : Nat) : List ((Cap × Bool) × Need) :=
  match x with
  | .s _ => [(s.capOf x, ⟨[.linear], pRead, field⟩)]
  | _ => []

/-- The checks of a column-scale operand's own (R252), beside a weight format. -/
def State.scalesCheck (s : State) (x : Sel) (weight field : Nat) : List (Option Cause) :=
  match x with
  | .s _ =>
      let c := (s.capOf x).1
      [causeIf (c.fmt ≠ 1 || c.bs) (mxFormatCause weight c.fmtBs), causeIf (c.len ≠ 512) (paramCause field)]
  | _ => []

/-- FMT and BS of a column-scale operand; 0 of 0xFF. -/
def State.scalesFmt (s : State) (x : Sel) : Nat :=
  match x with
  | .s _ => (s.capOf x).1.fmtBs
  | _ => 0

/-- The bits of a column-scale operand. -/
def State.scalesOf (s : State) (x : Sel) : Option Quad :=
  match x with
  | .s n => some (s.readPair n.toNat)
  | _ => none

/-- The barrier that IMM 7-0 of MXLOADW or byte 26 of a block names (R246, R249). -/
def barrierOf (x : Nat) : Option Nat := if x / 128 % 2 = 1 then some (x % 128) else none

/-- The barrier number is out of range (R246, R250, R351). -/
def barrierBad (nbar x : Nat) : Bool := 96 ≤ x % 128 || (barrierOf x).any fun b => nbar ≤ b

/-- An entry reads memory: weights or column scales outside scratch (R245, R288). -/
def OpKind.readsMemory : OpKind → Bool
  | .loadw cw cs _ _ _ => !(Cap.ofQuad cw).inScratch || cs.any fun q => !(Cap.ofQuad q).inScratch
  | .drain _ _ _ _ _ _ _ _ cs _ => cs.any fun q => !(Cap.ofQuad q).inScratch
  | .drainR _ _ _ _ _ _ _ cs => cs.any fun q => !(Cap.ofQuad q).inScratch
  | _ => false

/-- Queues an entry; one that reads memory follows the release of the gang's stores (R186, R245, R288). -/
def State.queueEntry (s : State) (q : Request) : State × Bool :=
  if q.kind.readsMemory then s.releasing fun s => s.queueOp q else s.queueOp q

/-! ### Issue -/

/-- MXLOADW (R246): where MX_PARAM names no operand, TRAPINFO is a free value (log 10). -/
def execMxloadw (x : Fun) (s : State) : Out :=
  s.matrixOp .mxloadw fun s =>
    let (cw, tag) := s.capOf x.a
    let had := x.md.getLsbD 7
    let hn := bitsAt x.md.toNat 5 2
    let hexp := signed 4 (bitsAt x.imm.toNat 8 4)
    let badFormat := !planeFormat cw.format || depthK cw.fmt < cw.cols || 128 < cw.rows ||
      ((s.scalesOf x.b).isSome && (cw.fmt = 9 || cw.fmt = 12))
    let badParam := hn = 3 || (!had && (hn ≠ 0 || hexp ≠ 0)) || (had && !hadAllowed cw.format hn cw.cols) ||
      barrierBad s.crew.nbar x.imm.toNat
    s.orTrap (s.operandChecks (((cw, tag), ⟨[.tile], pRead, 1⟩) :: s.scaleOperand x.b 2) ++ s.scalesCheck x.b cw.fmtBs 2 ++
        [causeIf badFormat (mxFormatCause cw.fmtBs (s.scalesFmt x.b))]) fun s =>
      if badParam then
        let (v, s) := s.free
        (s.trap cMxParam v, false)
      else
        s.queueEntry
          { kind := .loadw cw.raw (s.scalesOf x.b) had hn hexp, reg := handleReg x.d, room := some .matrixShare,
            barrier := barrierOf x.imm.toNat }

/-- MXSWAP (R248). -/
def execMxswap (_x : Fun) (s : State) : Out :=
  s.matrixOp .mxswap fun s => s.queueOp { kind := .swap, reg := none, room := some .matrixShare }

/-- The fields of a parameter block (R249). -/
structure Block where
  stream : Quad
  rows : Nat
  row0 : Nat
  k : Nat
  accRow : Nat
  mode : Nat
  hexp : Int
  barrier : Nat
  rest : List Nat
deriving DecidableEq, Repr

def Block.ofBytes (b : List Byte) : Block :=
  let n := fromBytes b
  { stream := BitVec.ofNat 128 n, rows := bitsAt n 128 16, row0 := bitsAt n 144 16, k := bitsAt n 160 16,
    accRow := bitsAt n 176 16, mode := bitsAt n 192 8, hexp := signed 8 (bitsAt n 200 8), barrier := bitsAt n 208 8,
    rest := (b.drop 27).map BitVec.toNat }

def Block.acc (b : Block) : Bool := b.mode % 2 = 1
def Block.had (b : Block) : Bool := b.mode / 2 % 2 = 1
def Block.swz (b : Block) : Bool := b.mode / 4 % 2 = 1
def Block.hn (b : Block) : Nat := b.mode / 8 % 4

/-- The largest Kd of a plane that pairs with a stream format (R249). -/
def streamDepth (fmt : Nat) : Nat := if fmt = 8 || fmt = 9 || fmt = 10 then 256 else 128

/-- The first byte of a block with an offending field (R250). -/
def Block.badByte (b : Block) (st : Cap) (nbar : Nat) : Option Nat :=
  let bad : List (Nat × Bool) :=
    [(16, b.rows = 0 || 1024 < b.rows), (18, !st.ring && st.rows < b.row0 + b.rows),
     (20, b.k = 0 || st.cols < b.k || streamDepth st.fmt < b.k),
     (24, b.mode / 32 ≠ 0 || b.hn = 3 || (!b.had && b.hn ≠ 0) || (b.had && !hadAllowed st.format b.hn b.k)),
     (25, b.hexp < -8 || 7 < b.hexp || (!b.had && b.hexp ≠ 0)), (26, barrierBad nbar b.barrier)]
  let rest := ((List.range b.rest.length).zip b.rest).map fun e => (27 + e.1, decide (e.2 ≠ 0))
  ((bad ++ rest).find? fun e => e.2).map Prod.fst

/-- MXRUN (R250): the block is read and checked at issue. A reserved range of R85 comes ahead of the capability order (R359); the
entry's own check, that STREAM lies in scratch, stands where R250 lists it. -/
def execMxrun (x : Fun) (s : State) : Out :=
  s.matrixOp .mxrun fun s =>
    let off := s.argOrImm x.a x.imm.toNat
    let b := Block.ofBytes (s.crew.scratchRead off 64)
    let st := Cap.ofQuad b.stream
    let badOffset := off % 64 ≠ 0 || s.crew.scratchSize < off + 64 ||
      (s.windows s.crew.id).any fun p => p.1 < off + 64 && off ≤ p.2
    s.orTrap
      [causeIf badOffset (blockCause off 0), st.reservedCause,
       st.checkKind (s.crew.scratchTags.contains (off / 16)) [.tile] 1 0,
       causeIf (!st.inScratch) (cWindow, BitVec.ofNat 64 st.base),
       causeIf (pRead &&& ~~~st.perms ≠ 0) (cCapPerm, capInfo 1 0),
       s.engineCheck st true ⟨[.tile], pRead, 1⟩,
       (b.badByte st s.crew.nbar).map fun i => blockCause off i,
       causeIf (s.crew.ar < b.accRow + b.rows) (accrowCause b.accRow s.crew.ar),
       causeIf (!streamFormat st.format) (mxFormatCause 0 st.fmtBs)] fun s =>
      s.queueOp
        { kind := .mxrun b.stream b.rows b.row0 b.k b.accRow b.acc b.had b.swz b.hn b.hexp, reg := handleReg x.d,
          room := some .matrixShare, barrier := barrierOf b.barrier }

/-- The fences executed when the oldest entry that a crew has in the queue was issued; the present count of none. -/
def State.oldestFence (s : State) (crew fences : Nat) : Nat :=
  s.ops.foldl (fun a o => if o.crewId = crew && o.kind.isMatrix then min a o.fence else a) fences

/-- MXFENCE (R251): scratch writes have taken effect when their instruction issues, so nothing is left to wait for; entries
issued from now on read what stands in scratch. DEDUCED: every earlier write of the crew's scratch counts as ordered before it
(log 60). -/
def execMxfence (_x : Fun) (s : State) : Out :=
  s.sequential (groupLimits .mxfence) fun s =>
    let n := s.crew.fences + 1
    let oldest := s.oldestFence s.crew.id n
    let left := (s.crew.unfenced.map fun e => (e.1, e.2.filter fun x => oldest ≤ x.1)).filter fun e => e.2 ≠ []
    { s with crew := { s.crew with fences := n, unfenced := left } }

/-- The fields of a row specification (R253). -/
structure RowSpec where
  scale : Word
  reserved : Nat
  count : Nat
  base : Nat
deriving DecidableEq, Repr

def RowSpec.ofDword (x : Dword) : RowSpec :=
  let n := x.toNat
  { scale := BitVec.ofNat 32 (bitsAt n 32 32), reserved := bitsAt n 21 11, count := bitsAt n 10 11, base := bitsAt n 0 10 }

/-- The checks of a row specification in an operand field (R253). -/
def State.rowsSpecCheck (s : State) (r : RowSpec) (bad : Bool) (field : Nat) : List (Option Cause) :=
  [causeIf (bad || r.reserved ≠ 0 || r.count = 0 || 1024 < r.count) (paramCause field),
   causeIf (s.crew.ar < r.base + r.count) (accrowCause r.base s.crew.ar)]

/-- 1.0 as F32. -/
def oneF32 : Word := 0x3F800000

/-- An integer destination type requires the scale 1.0 and no column scales (R254). -/
def drainScaleBad (dt : Ty) (r : RowSpec) (cs : Option Quad) : Bool := !dt.isFloat && (r.scale ≠ oneF32 || cs.isSome)

/-- The format code of a drain type (R88, R252). -/
def drainFmt : Ty → Nat
  | .f32 => 1 | .f16 => 2 | .bf16 => 3 | .e4m3 => 4 | .e5m2 => 5 | .i8 => 9 | .n8 => 10 | _ => 11

/-- CLR of MXDRAIN (R252). -/
def Typed.clr (x : Typed) : Bool := x.var.getLsbD 0

/-- MXDRAIN to a capability (R252-R254). -/
def execMxdrain (x : Typed) (s : State) : Out :=
  s.matrixOp .mxdrain fun s =>
    let (cd, tag) := s.capOf x.a
    let set : BitVec 16 := x.imm.extractLsb' 16 16
    let r := RowSpec.ofDword (s.scalar x.b)
    let cs := s.scalesOf x.c
    let badFormat := cd.fmt ≠ drainFmt x.ty || cd.bs || cd.wholeElements ≠ some (r.count * 128)
    s.orTrap (s.operandChecks (((cd, tag), ⟨[.linear, .tile], destPerms cd set, 1⟩) :: s.scaleOperand x.c 3) ++
        s.scalesCheck x.c 0 3 ++ [causeIf badFormat (mxFormatCause 0 cd.fmtBs)] ++
        s.rowsSpecCheck r (drainScaleBad x.ty r cs) 2) fun s =>
      s.queueEntry
        { kind := .drain cd.raw x.ty (Typed.clr x) x.rnd.toNat x.sat r.base r.count r.scale cs
            (if cd.inScratch then 0 else set),
          reg := handleReg x.d, room := some .matrixShare, window := cd.window }

/-- MXDRAIN.R (R252-R254). -/
def execMxdrainR (x : Typed) (s : State) : Out :=
  s.matrixOp .mxdrain fun s =>
    let r := RowSpec.ofDword (s.scalar x.b)
    let cs := s.scalesOf x.c
    s.orTrap (s.operandChecks (s.scaleOperand x.c 3) ++ s.scalesCheck x.c 0 3 ++
        s.rowsSpecCheck r (r.count ≠ 1 || drainScaleBad x.ty r cs) 2) fun s =>
      match x.d with
      | .v d =>
          s.queueEntry
            { kind := .drainR d.toNat x.ty (Typed.clr x) x.rnd.toNat x.sat r.base r.scale cs, reg := none,
              room := some .matrixShare }
      | _ => (s, true)

/-- MXZERO (R255). -/
def execMxzero (x : Fun) (s : State) : Out :=
  s.matrixOp .mxzero fun s =>
    let r := RowSpec.ofDword (s.scalar x.a)
    s.orTrap (s.rowsSpecCheck r (r.scale ≠ 0) 1) fun s =>
      s.queueOp { kind := .zero r.base r.count, reg := none, room := some .matrixShare }

/-! ### Power tokens (R243) -/

/-- A run of the cluster streams its rows, or would with a token. -/
def State.streaming (s : State) (cluster : Nat) : Bool := s.ops.any fun o => o.streams && o.core / 4 = cluster

/-- A cluster waits for a token. -/
def State.wantsToken (s : State) (cluster : Nat) : Bool := s.streaming cluster && !s.tokenHere cluster

/-- Some cluster of a die waits. -/
def State.dieWaits (s : State) (die : Nat) : Bool := (List.range 12).any fun k => s.wantsToken (die * 12 + k)

/-- Cycles the runs of a crew have waited so far and are not yet counted. -/
def State.waitingNow (s : State) (crew : Nat) : Nat :=
  s.ops.foldl (fun a o => if o.crewId = crew then a + s.waited o else a) 0

/-- The waits of a cluster's runs end: TOKWAIT counts them (R243). -/
def State.countWaits (s : State) (cluster : Nat) : State :=
  s.ops.foldl (fun (s : State) o =>
    if o.streams && o.core / 4 = cluster then
      s.updCrew o.crewId fun c => { c with tokWait := c.tokWait + BitVec.ofNat 64 (s.clock - o.since) }
    else s) s

/-- Applies a function to one token of the list. -/
def State.updToken (s : State) (tok : Nat) (f : Token → Token) : State :=
  { s with tokens := ((List.range s.tokens.length).zip s.tokens).map fun e => if e.1 = tok then f e.2 else e.2 }

/-- The tokens POWERCFG gives a die: 0 acts as 1, values above 12 as 12 (R393). -/
def HostSide.tokenCount (h : HostSide) (die : Nat) : Nat := max 1 (min 12 (bitsAt h.powercfg.toNat (4 * die) 4))

/-- A list of tokens without the first `n` free ones of a die. -/
def dropFree (die : Nat) : Nat → List Token → List Token
  | _, [] => []
  | 0, l => l
  | n + 1, t :: rest => if t.die = die && !t.held then dropFree die n rest else t :: dropFree die (n + 1) rest

/-- A token pass of a die's ring brings its tokens to the count POWERCFG gives: new ones enter where the pass is, free
ones go (R393). -/
def State.retoken (s : State) (die place : Nat) : State :=
  let n := (s.tokens.filter fun t => t.die = die).length
  let m := s.host.tokenCount die
  if n < m then
    { s with tokens := s.tokens ++ List.replicate (m - n) { die := die, place := place, held := false, since := 0 } }
  else { s with tokens := dropFree die (n - m) s.tokens }

/-- TOKEN_ARRIVAL: a free token is taken where it is waited for, else it goes on to the next cluster of its ring while
some cluster of the die waits (R243). -/
def execTokenArrival (tok : Nat) (s : State) : Out :=
  .next (match s.tokens[tok]? with
    | none => s
    | some t =>
        if t.held || !s.dieWaits t.die then s
        else if s.wantsToken t.cluster then
          (s.countWaits t.cluster).updToken tok fun t => { t with held := true, since := s.clock }
        else (s.updToken tok fun t => { t with place := (t.place + 1) % 12 }).retoken t.die ((t.place + 1) % 12))

/-- A token let go moves to the next place of its ring when some cluster of the die waits, else it rests where it is
(R243). -/
def State.passToken (s : State) (tok : Nat) (t : Token) : State :=
  let place := if s.dieWaits t.die then (t.place + 1) % 12 else t.place
  (s.updToken tok fun t => { t with held := false, place := place }).retoken t.die place

/-- TOKEN_RELEASE: a holder none of whose engines streams lets its token go (R243). -/
def execTokenRelease (tok : Nat) (s : State) : Out :=
  .next (match s.tokens[tok]? with
    | none => s
    | some t =>
        if t.held && !s.streaming t.cluster then s.passToken tok t else s)

/-- The runs of a cluster are paused: they wait from now on. -/
def State.pauseRuns (s : State) (cluster : Nat) : State :=
  { s with ops := s.ops.map fun o => if o.streams && o.core / 4 = cluster then { o with since := s.clock } else o }

/-- TOKEN_HOLD_EXPIRY: after 2048 cycles the token goes on when another cluster of the die waits, else it stays for
2048 more (R243). -/
def execTokenHoldExpiry (tok : Nat) (s : State) : Out :=
  .next (match s.tokens[tok]? with
    | none => s
    | some t =>
        if !t.held || s.clock < t.since + Config.tokenHold then s
        else if s.dieWaits t.die then
          ((s.pauseRuns t.cluster).updToken tok fun t => { t with held := false, place := (t.place + 1) % 12 }).retoken t.die
            ((t.place + 1) % 12)
        else s.updToken tok fun t => { t with since := s.clock })

/-! ### MXSTAT (R256) -/

/-- FMT and BS of a plane's tile. -/
def Plane.fmtBs (p : Plane) : Nat := p.fmt.code + (if p.fmt.bs then 16 else 0)

/-- The plane word (R256). -/
def State.planeWord (s : State) : Nat :=
  let a := (s.sys.core s.core).active
  let h := (s.sys.core s.core).shadow
  (if h.full then 2 else if h.loading then 1 else 0) + (if h.owner = s.crew.id then 4 else 0) + (if a.full then 8 else 0) +
    (if a.owner = s.crew.id then 16 else 0) + a.fmtBs * 2 ^ 8 + h.fmtBs * 2 ^ 16

/-- The queue word (R256). -/
def State.queueWord (s : State) : Nat :=
  let here := s.ops.filter fun o => o.kind.isMatrix && o.core = s.core
  here.length * 2 ^ 8 + s.crew.qshare * 2 ^ 4 + (here.filter fun o => o.crewId = s.crew.id).length

/-- What MXSTAT returns (R256). -/
def State.matrixStat (s : State) (fn : Nat) : Nat :=
  match fn with
  | 0 | 1 => s.crew.mxFlags.toNat
  | 2 => s.planeWord
  | 3 => s.queueWord
  | _ => (s.crew.tokWait.toNat + s.waitingNow s.crew.id) % 2 ^ 64

/-- MXSTAT (R256). -/
def execMxstat (x : Fun) (s : State) : Out :=
  s.sequential (groupLimits .mxstat) fun s => s.result x.d 64 false (some 2) [(0, s.matrixStat x.fn.toNat)]

/-- MXSTAT.FLAGSCLR (R256). -/
def execMxstatFlagsclr (x : Fun) (s : State) : Out :=
  s.sequential (groupLimits .mxstat) fun s =>
    let t := s.result x.d 64 false (some 2) [(0, s.crew.mxFlags.toNat)]
    { t with crew := { t.crew with mxFlags := 0 } }

/-! ### Arithmetic -/

/-- A value with the flags met in forming it. -/
abbrev Flagged := FVal × BitVec 8

/-- An exact product; NaN for a NaN factor or infinity times zero (R237, R254). -/
def exactMul (a b : FVal) : Flagged :=
  if a.isNan || b.isNan || zeroTimesInf a b then
    (.nan false, sigFlag [a, b] ||| flagIf (zeroTimesInf a b) flagNV)
  else (a.product b, 0)

/-- The transform of one aligned group (R238). -/
def hadGroup (f : FloatFmt) (e : Int) (xs : List FVal) : List FRes :=
  (List.range xs.length).map fun i =>
    f.total RNE false (((List.range xs.length).zip xs).map fun m =>
      FVal.shift (if popCount 8 (i &&& m.1) % 2 = 1 then m.2.negate else m.2) e)

/-- The transform of consecutive groups of `n` values: `fuel` bounds their number. -/
def hadGroups (f : FloatFmt) (n : Nat) (e : Int) : Nat → List FVal → List FRes
  | 0, _ => []
  | fuel + 1, xs => if xs.isEmpty then [] else hadGroup f e (xs.take n) ++ hadGroups f n e fuel (xs.drop n)

/-- Codes of a row after its transform, with the flags (R238). -/
def hadCodes (fmt hn : Nat) (e : Int) (codes : List Nat) : List Nat × BitVec 8 :=
  let f := Ty.floatFmt (fmtTy fmt)
  let rs := hadGroups f (hadPoints hn) e codes.length (codes.map f.unpack)
  (rs.map fun r => r.bits, rs.foldl (fun a r => a ||| r.flags) 0)

/-- The exact sum of one K-group before its column scale (R82). A block scale that is NaN, `none`, makes every element of its
block NaN whatever its code (R69). -/
def groupSum (ea ew : Option Int) (codes : List (FVal × FVal)) : Flagged :=
  let ps := codes.map fun p => (if ea.isNone then .nan false else p.1, if ew.isNone then .nan false else p.2)
  let bad := ps.any fun p => zeroTimesInf p.1 p.2
  let infs := ps.filter fun p => (p.1.isInf || p.2.isInf) && !p.1.isNan && !p.2.isNan && !zeroTimesInf p.1 p.2
  let up := infs.any fun p => p.1.neg = p.2.neg
  let down := infs.any fun p => p.1.neg ≠ p.2.neg
  let fl := flagIf (ps.any (fun p => p.1.isSig || p.2.isSig) || bad || (up && down)) flagNV
  match ea, ew with
  | some a, some w =>
      if ps.any (fun p => p.1.isNan || p.2.isNan) || bad || (up && down) then (.nan false, fl)
      else if up || down then (.inf down, fl)
      else
        let vs := ps.map fun p => p.1.times p.2
        let (n, x) := exactSum vs
        (.num (if n = 0 then vs.all FVal.neg else n < 0) n.natAbs (x + a + w), fl)
  | _, _ => (.nan false, fl ||| flagSCNAN)

/-- G of a group: its sum times the column scale; an exact zero is −0 only where every product of the group is (R82, R237).
DEDUCED: a negative column scale makes no zero negative (log 59). -/
def scaledSum (g cs : FVal) : Flagged :=
  match exactMul g cs with
  | (.num _ 0 x, fl) => (.num (g.isZero && g.neg && !cs.neg) 0 x, fl)
  | r => r

/-- The accumulator word after one group (R82, R237): `first` overwrites. -/
def accumulate (first : Bool) (acc : Word) (g cs : FVal) : Word × BitVec 8 :=
  let f32 := Ty.floatFmt .f32
  let (v, fl) := scaledSum g cs
  let r := if first then f32.convert RNE false v 0 else f32.add RNE false (f32.unpack acc.toNat) v 0
  (BitVec.ofNat 32 r.bits, fl ||| r.flags)

/-- A weight column as a run reads it: codes of the first K depths, scales by block, column scale. -/
structure Column where
  codes : List Nat
  scales : List (Option Int)
  cs : Word
deriving DecidableEq, Repr

/-- The exponents of the scale bytes of `n` groups; 0 for a format without block scales. -/
def groupScales (bs : Bool) (n : Nat) (byte : Nat → Nat) : List (Option Int) :=
  (List.range n).map fun g => if bs then scaleExp (byte g) else some 0

/-- Column `j` of a plane for K depths. -/
def Plane.column (p : Plane) (k j : Nat) : Column :=
  { codes := (List.range k).map fun i => (p.codes.get 0 (j * 256 + i)).toNat,
    scales := groupScales p.fmt.bs (ceilDiv k 32) fun g => (p.scales.get 0 (j * 8 + g)).toNat,
    cs := p.colScales.get oneF32 j }

/-- An activation row as a run reads it. -/
structure Activation where
  codes : List Nat
  scales : List (Option Int)
  flags : BitVec 8
deriving DecidableEq, Repr

/-- One F-mode output element over its groups (R237). -/
def runFloat (sf wf : Nat) (fresh : Bool) (a : Activation) (w : Column) (acc : Word) : Word × BitVec 8 :=
  let fa := Ty.floatFmt (fmtTy sf)
  let fw := Ty.floatFmt (fmtTy wf)
  let ps := (a.codes.map fa.unpack).zip (w.codes.map fw.unpack)
  (List.range (ceilDiv a.codes.length 32)).foldl (fun (x : Word × BitVec 8) g =>
    let (v, fl) := groupSum (a.scales.getD g none) (w.scales.getD g none) ((ps.drop (32 * g)).take 32)
    let (y, fl') := accumulate (fresh && g = 0) x.1 v ((Ty.floatFmt .f32).unpack w.cs.toNat)
    (y, x.2 ||| fl ||| fl')) (acc, 0)

/-- An integer code as a run reads it, with TERN for 0b10 (R71, R237). -/
def intCode (fmt code : Nat) : Int × BitVec 8 :=
  match Ty.source (fmtTy fmt) code with
  | (.i n, fl) => (n, fl)
  | (.f _, fl) => (0, fl)

/-- One I-mode output element (R83). -/
def runInt (sf wf : Nat) (a : Activation) (w : Column) (acc : Word) : Word × BitVec 8 :=
  let ps := a.codes.zip w.codes
  (BitVec.ofInt 32 (ps.foldl (fun (n : Int) p => n + (intCode sf p.1).1 * (intCode wf p.2).1) acc.toInt),
   ps.foldl (fun f p => f ||| (intCode wf p.2).2) 0)

/-! ### Scratch as an entry reads it (R245) -/

/-- The bytes of scratch an entry reads. -/
def OpKind.scratchReads : OpKind → List (Nat × Nat)
  | .loadw cw cs _ _ _ => (cw :: cs.toList).filterMap fun q => (Cap.ofQuad q).window
  | .mxrun st _ _ _ _ _ _ _ _ _ => ([st] : List Quad).filterMap fun q => (Cap.ofQuad q).window
  | .drain _ _ _ _ _ _ _ _ cs _ => cs.toList.filterMap fun q => (Cap.ofQuad q).window
  | .drainR _ _ _ _ _ _ _ cs => cs.toList.filterMap fun q => (Cap.ofQuad q).window
  | _ => []

/-- The old values that an entry may still see in an aligned word it reads: those it had before writes without an MXFENCE
between the write and the entry's issue (R245). -/
def EngineOp.olds (o : EngineOp) (e : Nat × List (Nat × Word)) : List Word :=
  if o.kind.scratchReads.any fun r => r.1 / 4 ≤ e.1 && e.1 ≤ r.2 / 4 then (e.2.filter fun x => o.fence ≤ x.1).map Prod.snd
  else []

/-- A crew's scratch as an entry reads it: each such word is, by a free value, old or new (R245, R403, log 10). -/
def State.seenBy (s : State) (o : EngineOp) : Sparse Byte × State :=
  (s.findCrew o.crewId).unfenced.foldl (fun (a : Sparse Byte × State) e =>
    if (o.olds e).isEmpty then a
    else
      let (v, t) := a.2.free
      match (o.olds e)[v.toNat % ((o.olds e).length + 1)]? with
      | some x => ((List.range 4).foldl (fun m k => Sparse.put 0 m (4 * e.1 + k) (x.extractLsb' (8 * k) 8)) a.1, t)
      | none => (a.1, t)) ((s.findCrew o.crewId).scratch, s)

/-- Reads with an entry's view of scratch; what stands there stays. -/
def State.seeing {α : Type} (s : State) (o : EngineOp) (f : State → Except Stop (α × State)) : Except Stop (α × State) :=
  if (s.findCrew o.crewId).unfenced.all fun e => (o.olds e).isEmpty then f s
  else
    let real := (s.findCrew o.crewId).scratch
    let (view, t) := s.seenBy o
    match f (t.updCrew o.crewId fun c => { c with scratch := view }) with
    | .error e => .error e
    | .ok (x, t) => .ok (x, t.updCrew o.crewId fun c => { c with scratch := real })

/-! ### Weight loads (R246) -/

/-- The number of an F32 column-scale operand; none is all ones. -/
def State.columnScales (s : State) (w : Who) (cs : Option Quad) : Except Stop (Sparse Word × State) :=
  match cs with
  | none => .ok ([], s)
  | some q =>
      match s.engRead w (Cap.ofQuad q).base 512 with
      | .error e => .error e
      | .ok (b, s) =>
          .ok ((List.range 128).foldl (fun m j =>
            Sparse.put oneF32 m j (BitVec.ofNat 32 (fromBytes ((b.drop (4 * j)).take 4)))) [], s)

/-- A weight plane under construction with the flags met. -/
abbrev PlaneBuild := (Plane × BitVec 8) × State

/-- Row `j` of a weight source becomes column `j` of the plane (R235, R238). -/
def loadColumn (w : Who) (cw : Cap) (had : Bool) (hn : Nat) (hexp : Int) (a : PlaneBuild) (j : Nat) : Except Stop PlaneBuild :=
  match a.2.engRead w (cw.base + j * cw.pitch * 64) (cw.rb + cw.sb) with
  | .error e => .error e
  | .ok (b, s) =>
      let raw := unpackCodes cw.bits cw.cols (b.take cw.rb)
      let (codes, fl) : List Nat × BitVec 8 := if had then hadCodes cw.fmt hn hexp raw else (raw, 0)
      let tern : BitVec 8 := flagIf (cw.fmt = 12 && raw.any fun c => c = 2) flagTERN
      let p := a.1.1
      let p := { p with
        codes := ((List.range codes.length).zip codes).foldl (fun m e =>
          Sparse.put 0 m (j * 256 + e.1) (BitVec.ofNat 32 e.2)) p.codes,
        scales := ((List.range cw.sb).zip (b.drop cw.rb)).foldl (fun m e => Sparse.put 0 m (j * 8 + e.1) e.2) p.scales }
      .ok ((p, a.1.2 ||| fl ||| tern), s)

/-- What a weight load does to the shadow plane (R246). -/
def State.loadwWork (s : State) (o : EngineOp) (cw : Cap) (cs : Option Quad) (had : Bool) (hn : Nat) (hexp : Int) :
    Except Stop (OpResult × State) :=
  match (List.range cw.rows).foldlM (loadColumn o.who cw had hn hexp) ((((s.sys.core o.core).shadow, 0), s)) with
  | .error e => .error e
  | .ok ((p, fl), s) =>
      match s.columnScales o.who cs with
      | .error e => .error e
      | .ok (m, s) =>
          .ok ({ flags := fl },
            { s with sys := s.sys.updCore o.core fun k => { k with shadow := { p with colScales := m } } })

/-! ### Runs (R250) -/

/-- The activation row `r` of a run (R249). -/
def Crew.activation (c : Crew) (st : Cap) (row0 k : Nat) (had swz : Bool) (hn : Nat) (hexp : Int) (r : Nat) : Activation :=
  let t := if st.ring then (row0 + r) % st.rows else row0 + r
  let at' := st.base - Config.scratchBase + t * st.pitch * 64
  let payload := ((List.range (ceilDiv st.rb 16)).flatMap fun x =>
    c.scratchRead (at' + 16 * (if swz then x ^^^ (t % 8) else x)) 16).take st.rb
  let raw := unpackCodes st.bits k payload
  let (codes, fl) : List Nat × BitVec 8 := if had then hadCodes st.fmt hn hexp raw else (raw, 0)
  { codes := codes, flags := fl,
    scales := groupScales st.bs (ceilDiv k 32) fun g => ((c.scratchRead (at' + st.rb + g) 1).headD 0).toNat }

/-- The mode an accumulating run may not meet (R239). -/
def otherMode (m row : AccMode) : Bool := row ≠ .none && row ≠ m

/-- The core after one row of a run, and the flags (R237). -/
def Core.runRow (k : Core) (m : AccMode) (sf : Nat) (acc : Bool) (cols : List Column) (row : Nat) (a : Activation) :
    Core × BitVec 8 :=
  ((List.range cols.length).zip cols).foldl (fun (x : Core × BitVec 8) e =>
    let at' := row * 128 + e.1
    let old : Word := if acc then x.1.acc.get 0 at' else 0
    let (v, fl) := if m = .i then runInt sf k.active.fmt.code a e.2 old else runFloat sf k.active.fmt.code (!acc) a e.2 old
    ({ x.1 with acc := Sparse.put 0 x.1.acc at' v }, x.2 ||| fl))
    ({ k with accMode := Sparse.put .none k.accMode row m }, a.flags)

/-- What a run does to the accumulator (R239, R250). -/
def State.runWork (s : State) (o : EngineOp) (st : Cap) (rows row0 k accRow : Nat) (acc had swz : Bool) (hn : Nat)
    (hexp : Int) : OpResult × State :=
  let c := s.findCrew o.crewId
  let core := s.sys.core o.core
  let m := (pairMode core.active.fmt st.format).getD .f
  let first := c.accBase + accRow
  if acc && (List.range rows).any (fun r => otherMode m (core.accMode.get .none (first + r))) then
    ({ code := causeCode cMxAcctype }, s)
  else
    let cols := (List.range 128).map (core.active.column k)
    let (core, fl) := (List.range rows).foldl (fun (x : Core × BitVec 8) r =>
      let (k', f) := x.1.runRow m st.fmt acc cols (first + r) (c.activation st row0 k had swz hn hexp r)
      (k', x.2 ||| f)) (core, 0)
    ({ flags := fl, result := rows },
     ({ s with sys := s.sys.updCore o.core fun _ => core } : State).rowsWritten o.core first rows)

/-- The checks of a run at dispatch: the CODE of the first that fails (R250). -/
def State.runChecks (s : State) (o : EngineOp) (st : Cap) (k : Nat) : Option (BitVec 8) :=
  let p := (s.sys.core o.core).active
  if !p.full || p.owner ≠ o.crewId then some cMxNoweights
  else if (pairMode p.fmt st.format).isNone then some cMxFormat
  else if depthK p.fmt.code < k then some cMxParam
  else none

/-! ### Drains (R254) -/

/-- One drained element: the bits and the flags (R254); a row without a mode gives 0 (R257). -/
def drainElement (dt : Ty) (rnd : Nat) (sat : Bool) (m : AccMode) (x : Word) (f : Flagged) : Nat × BitVec 8 :=
  match m with
  | .none => (0, 0)
  | .i =>
      if !dt.isFloat then dt.fromInt sat x.toInt
      else
        let (v, fl) := exactMul (.num (x.toInt < 0) x.toInt.natAbs 0) f.1
        let r := dt.floatFmt.convert rnd sat v 0
        (r.bits, f.2 ||| fl ||| r.flags)
  | .f =>
      let v := (Ty.floatFmt .f32).unpack x.toNat
      if !dt.isFloat then
        let r := dt.fromFloat rnd v 0
        (r.bits, r.flags)
      else
        let (v, fl) := exactMul v f.1
        let r := dt.floatFmt.convert rnd sat v 0
        (r.bits, f.2 ||| fl ||| r.flags)

/-- Accumulator rows as a drain reads them: mode and elements (R254). -/
def Core.rowsFrom (k : Core) (first count : Nat) : List (AccMode × List Word) :=
  (List.range count).map fun r =>
    (k.accMode.get .none (first + r), (List.range 128).map fun j => k.acc.get 0 ((first + r) * 128 + j))

/-- The drained elements of rows in row-major order, with the flags (R254). -/
def drainRows (rows : List (AccMode × List Word)) (dt : Ty) (rnd : Nat) (sat : Bool) (scale : Word) (cs : Sparse Word) :
    List Nat × BitVec 8 :=
  let f32 := Ty.floatFmt .f32
  let es := rows.flatMap fun r => ((List.range r.2.length).zip r.2).map fun x =>
    drainElement dt rnd sat r.1 x.2 (exactMul (f32.unpack scale.toNat) (f32.unpack (cs.get oneF32 x.1).toNat))
  (es.map Prod.fst, es.foldl (fun a e => a ||| e.2) 0)

/-- Rows zeroed and their modes none (R239, R255). -/
def Core.zeroRows (k : Core) (first count : Nat) : Core :=
  { k with acc := k.acc.filter fun e => !(first * 128 ≤ e.1 && e.1 < (first + count) * 128),
           accMode := k.accMode.filter fun e => !(first ≤ e.1 && e.1 < first + count) }

/-- An entry zeroes accumulator rows. -/
def State.clearRows (s : State) (core first count : Nat) : State :=
  ({ s with sys := s.sys.updCore core fun k => k.zeroRows first count } : State).rowsWritten core first count

/-- A drain with `write` taking its elements (R254). -/
def State.drainWork (s : State) (o : EngineOp) (dt : Ty) (clr : Bool) (rnd : Nat) (sat : Bool) (base count : Nat)
    (scale : Word) (cs : Option Quad) (write : State → List Nat → Except Stop State) : Except Stop (OpResult × State) :=
  match s.seeing o fun s => s.columnScales o.who cs with
  | .error e => .error e
  | .ok (m, s) =>
      let first := (s.findCrew o.crewId).accBase + base
      let (codes, fl) := drainRows (o.rows.getD ((s.sys.core o.core).rowsFrom first count)) dt rnd sat scale m
      match write s codes with
      | .error e => .error e
      | .ok s =>
          .ok ({ flags := fl, result := count },
            if clr && o.rows.isNone then s.clearRows o.core first count else s)

/-- A drain whose destination or scales met a fault has read its rows, and CLR has cleared them (R188, R240, R254). -/
def State.capture (s : State) (o : EngineOp) : State :=
  let take (clr : Bool) (base count : Nat) : State :=
    let first := (s.findCrew o.crewId).accBase + base
    let rows := (s.sys.core o.core).rowsFrom first count
    let t := if clr then s.clearRows o.core first count else s
    t.updOp o.id fun x => { x with rows := some rows, kept := if clr then (List.range count).map fun r => first + r else [] }
  match o.kind with
  | .drain _ _ clr _ _ base count _ _ _ => take clr base count
  | .drainR _ _ clr _ _ row _ _ => take clr row 1
  | _ => s

/-- A drain's scratch destination holds what later entries read (R245). -/
def State.settleDrain (s : State) (o : EngineOp) : State :=
  match o.window with
  | some w => s.updCrew o.crewId fun c => { c with unfenced := c.unfenced.filter fun e => !(w.1 / 4 ≤ e.1 && e.1 ≤ w.2 / 4) }
  | none => s

/-- The registers MXDRAIN.R fills: strand i receives columns 4i to 4i + 3 (R254). -/
def Gang.drainInto (g : Gang) (d : Nat) (dt : Ty) (codes : List Nat) : Gang :=
  let per := 32 / dt.bits
  let word (i k : Nat) : Word := BitVec.ofNat 32 (packCodes dt.bits ((codes.drop (4 * i + k * per)).take per))
  let regs := (List.range (drainRegs dt)).map fun k => d + k
  { g with
    v := (List.range 32).foldl (fun m i =>
      (List.range (drainRegs dt)).foldl (fun m k => Sparse.put 0 m (i * 128 + d + k) (word i k)) m) g.v,
    shadows := g.shadows.filter fun x =>
      match x.old with
      | .v n _ _ => !regs.contains n
      | _ => true }

/-! ### What each entry does -/

/-- The effect of a weight load, run or drain. -/
def State.matrixWork (s : State) (o : EngineOp) : Except Stop (OpResult × State) :=
  match o.kind with
  | .loadw cw cs had hn hexp => s.seeing o fun s => s.loadwWork o (Cap.ofQuad cw) cs had hn hexp
  | .mxrun st rows row0 k accRow acc had swz hn hexp =>
      s.seeing o fun s => .ok (s.runWork o (Cap.ofQuad st) rows row0 k accRow acc had swz hn hexp)
  | .drain d dt clr rnd sat base count scale cs set =>
      s.drainWork o dt clr rnd sat base count scale cs fun s codes =>
        match s.writeElements o.who set (Cap.ofQuad d) codes [] with
        | .error e => .error e
        | .ok s => .ok (s.settleDrain o)
  | .drainR d dt clr rnd sat row scale cs =>
      s.drainWork o dt clr rnd sat row 1 scale cs fun s codes => .ok (s.updGang o.gangId fun g => g.drainInto d dt codes)
  | _ => .ok ({}, s)

/-- The effect is in place; the status waits for the completion. -/
def State.setWritten (s : State) (o : EngineOp) (r : OpResult) : State :=
  s.updOp o.id fun x => { x with phase := .written, code := r.code, flags := r.flags, result := BitVec.ofNat 32 r.result }

/-- Performs the effect of an entry ahead of its completion; an error or a nonzero CODE ends it (R188, R242). -/
def State.perform (s : State) (o : EngineOp) : State :=
  match s.matrixWork o with
  | .ok (r, t) => if r.code = 0 then t.setWritten o r else t.finishOp o r.code r.flags r.result
  | .error e =>
      let t := s.endOp o (.error e)
      if (t.findOp o.id).isSome then t.capture o else t

/-- Ends an entry: cancelled, with the effect in place, or with the effect now (R178, R183). -/
def State.completeMatrix (s : State) (o : EngineOp) : State :=
  if o.phase = .written then s.finishOp o o.code o.flags o.result.toNat else s.complete o State.matrixWork

/-! ### Dispatch (R240, R241) -/

/-- The entries of an operation's crew that were issued before it. -/
def State.earlierOf (s : State) (o : EngineOp) : List EngineOp :=
  (s.ops.takeWhile fun x => x.id ≠ o.id).filter fun x => x.kind.isMatrix && x.crewId = o.crewId

/-- An entry has dispatched: a drain then has read its rows. -/
def EngineOp.dispatched (o : EngineOp) : Bool := o.phase ≠ .queued

/-- No earlier drain of its crew has still to write scratch bytes that an entry reads (R245). -/
def State.mayRead (s : State) (o : EngineOp) : Bool :=
  (s.earlierOf o).all fun x =>
    x.phase = .written || !x.window.any fun w => o.kind.scratchReads.any fun r => r.1 ≤ w.2 && w.1 ≤ r.2

/-- The accumulator rows an entry writes, relative to its crew's base. -/
def OpKind.rowsOf : OpKind → Option (Nat × Nat)
  | .mxrun _ rows _ _ accRow .. => some (accRow, rows)
  | .drain _ _ true _ _ base count .. => some (base, count)
  | .drainR _ _ true _ _ row .. => some (row, 1)
  | .zero base count => some (base, count)
  | _ => none

/-- Two ranges of rows share a row. -/
def rowsMeet (a b : Option (Nat × Nat)) : Bool :=
  a.any fun x => b.any fun y => x.1 < y.1 + y.2 && y.1 < x.1 + x.2

/-- Every earlier entry of the crew that writes one of a run's rows has completed, or its effect is in place: the mode check sees the
modes they leave (R239, R250). -/
def State.rowsSettled (s : State) (o : EngineOp) : Bool :=
  (s.earlierOf o).all fun x => x.phase = .written || !rowsMeet x.kind.rowsOf o.kind.rowsOf

/-- An operation's own condition (R240). -/
def State.dispatchReady (s : State) (o : EngineOp) : Bool :=
  let core := s.sys.core o.core
  let streams := s.ops.any fun x => x.streams && x.core = o.core
  match o.kind with
  | .loadw .. => !core.shadow.full && !core.shadow.loading
  | .swap => !streams && (s.earlierOf o).all fun x => !x.kind.isLoadw
  | .mxrun .. => !streams
  | .drain .. | .drainR .. | .zero .. =>
      s.mayRead o && (s.earlierOf o).all fun x => match x.kind with
        | .mxrun .. | .zero .. => false
        | _ => true
  | _ => false

/-- An entry may dispatch, or leave the queue because it is cancelled (R240, R257). -/
def State.mayDispatch (s : State) (o : EngineOp) : Bool :=
  o.phase = .queued &&
    (o.cancel || ((s.earlierOf o).all EngineOp.dispatched && s.dispatchReady o))

/-- A dispatch event on an operation of a kind: a cancelled entry ends without effect, one that reads memory does so after
the release of its gang's stores (R245, R257, R288). -/
def State.dispatch (s : State) (op : Nat) (kind : OpKind → Bool) (f : State → EngineOp → State) : Out :=
  .next (match s.findOp op with
    | some o =>
        if kind o.kind && s.mayDispatch o then (if o.cancel then s.finishOp o codeCancelled 0 0
          else f (if o.kind.readsMemory then s.opRelease o 3 else s) o) else s
    | none => s)

/-- MXLOADW_DISPATCH: the shadow plane is LOADING (R241, R246). -/
def execMxloadwDispatch (op : Nat) (s : State) : Out :=
  s.dispatch op OpKind.isLoadw fun s o =>
    match o.kind with
    | .loadw q _ had hn hexp =>
        let cw := Cap.ofQuad q
        let p : Plane :=
          { loading := true, owner := o.crewId, fmt := cw.format, kw := cw.cols, had := had, hn := hn, hexp := hexp }
        let s : State := { s with sys := s.sys.updCore o.core fun k => { k with shadow := p } }
        s.updOp o.id fun x => { x with phase := .started }
    | _ => s

/-- A weight load may complete. -/
def State.loadDone (s : State) (o : EngineOp) : Bool := o.phase = .written || (o.phase = .started && (o.cancel || s.mayRead o))

/-- MXLOADW_COMPLETE: the shadow plane is FULL (R241). -/
def execMxloadwComplete (op : Nat) (s : State) : Out :=
  .next (match s.findOp op with
    | some o => if o.kind.isLoadw && s.loadDone o then s.completeMatrix o else s
    | none => s)

/-- MXSWAP_DISPATCH: a FULL shadow plane of the crew becomes active (R241, R248). -/
def execMxswapDispatch (op : Nat) (s : State) : Out :=
  s.dispatch op (fun k => k = .swap) fun s o =>
    let core := s.sys.core o.core
    let s : State :=
      if core.shadow.full && core.shadow.owner = o.crewId then
        { s with sys := s.sys.updCore o.core fun k => { k with active := core.shadow, shadow := {} } }
      else s
    s.finishOp o 0 0 0

/-- A run. -/
def OpKind.isRun : OpKind → Bool
  | .mxrun .. => true
  | _ => false

/-- MXRUN_DISPATCH: the three checks, then the run waits for its token (R240, R243, R250). -/
def execMxrunDispatch (op : Nat) (s : State) : Out :=
  s.dispatch op OpKind.isRun fun s o =>
    match o.kind with
    | .mxrun st _ _ k _ _ _ _ _ _ =>
        match s.runChecks o (Cap.ofQuad st) k with
        | some c => s.finishOp o (causeCode c) 0 0
        | none => s.updOp o.id fun x => { x with phase := .started, since := s.clock }
    | _ => s

/-- A run whose cluster holds a token, or one that is cancelled or has streamed, may complete. -/
def State.runDone (s : State) (o : EngineOp) : Bool :=
  o.phase = .written || (o.phase = .started && (o.cancel || (s.tokenHere (o.core / 4) && s.mayRead o && s.rowsSettled o)))

/-- MXRUN_COMPLETE (R243, R250). -/
def execMxrunComplete (op : Nat) (s : State) : Out :=
  .next (match s.findOp op with
    | some o => if o.kind.isRun && s.runDone o then s.completeMatrix o else s
    | none => s)

/-- A drain. -/
def OpKind.isDrain : OpKind → Bool
  | .drain .. | .drainR .. => true
  | _ => false

/-- MXDRAIN_DISPATCH: the rows are read, converted and written (R254). -/
def execMxdrainDispatch (op : Nat) (s : State) : Out := s.dispatch op OpKind.isDrain State.perform

/-- MXDRAIN_COMPLETE (R254). -/
def execMxdrainComplete (op : Nat) (s : State) : Out :=
  .next (match s.findOp op with
    | some o => if o.kind.isDrain && o.phase = .written then s.completeMatrix o else s
    | none => s)

/-- MXZERO_DISPATCH: rows become 0 with tag none (R255). -/
def execMxzeroDispatch (op : Nat) (s : State) : Out :=
  s.dispatch op (fun k => match k with
    | .zero .. => true
    | _ => false) fun s o =>
    match o.kind with
    | .zero base count =>
        (s.clearRows o.core ((s.findCrew o.crewId).accBase + base) count).finishOp o 0 0 0
    | _ => s

/-- ENGINE_BARRIER_ARRIVAL: the last source byte is read, and the engine arrives at the barrier (R242). -/
def execEngineBarrierArrival (op : Nat) (s : State) : Out :=
  .next (match s.findOp op with
    | none => s
    | some o =>
        match o.barrier with
        | none => s
        | some b =>
            if o.arrived || o.cancel || o.phase ≠ .started || (o.kind.isRun && !(s.tokenHere (o.core / 4) && s.rowsSettled o)) ||
                !s.mayRead o then s
            else
              let t := s.perform o
              match t.findOp op with
              | some o' =>
                  if o'.phase = .written then
                    (t.arrive o.crewId b).updOp op fun x => { x with arrived := true }
                  else t
              | none => t)

end Sys2Proof.Machine
end

