-- ==== Sys2Proof/Machine/TopK.lean ====
section
/-! DEFINITION. The scarab (R272-R274): TOPK, its ranking and its operations. -/

namespace Sys2Proof.Machine

/-- TOPK_ARGS (R275). -/
def cTopkArgs : BitVec 8 := 0x8D

/-- TOPK_ARGS of an operand field. -/
def topkCause (field : Nat) : Cause := (cTopkArgs, BitVec.ofNat 64 field)

/-- Bytes of one entry of a form: .VALS writes 8 (R273). -/
def topkEntry (form : Nat) : Nat := if form = 1 then 8 else 4

/-- The checks of the operands' own rules in the order of their list, by operand field (R272, R359). -/
def topkChecks (dst src : Cap) (sp form : Nat) : List (Option Cause) :=
  let k := bitsAt sp 0 13
  [causeIf (src.elements = 0 || 2 ^ 20 < src.elements || src.len * 8 % src.bits ≠ 0) (topkCause 2),
   causeIf (k = 0 || 4096 < k || bitsAt sp 13 3 ≠ 0 || bitsAt sp 21 43 ≠ 0 || 20 < bitsAt sp 16 5 ||
     (form ≠ 2 && bitsAt sp 16 5 ≠ 0)) (topkCause 3),
   causeIf (!(dst.fmt = 0 || dst.fmt = 11) || dst.bs) (topkCause 1),
   causeIf (!(src.fmt = 1 || src.fmt = 2 || src.fmt = 4) || src.bs) (topkCause 2),
   causeIf (dst.len < topkEntry form * k) (topkCause 1)]

/-- TOPK (R272). -/
def execTopk (x : Fun) (s : State) : Out :=
  s.attempt { op := .topk, ejected := some cEjectedOp } fun s =>
    let (dst, dt) := s.capOf x.a
    let (src, st) := s.capOf x.b
    let sp := (s.scalar x.c).toNat
    let set := Fun.rset x
    let form := x.fn.toNat
    s.orTrap (s.operandChecks [((dst, dt), ⟨[.linear], destPerms dst set, 1⟩), ((src, st), ⟨[.linear], pRead, 2⟩)] ++
        topkChecks dst src sp form) fun s =>
      s.releasing fun s =>
        s.queueOp
          { kind := .topk dst.raw src.raw (bitsAt sp 0 13) (bitsAt sp 16 5) form (if dst.inScratch then 0 else set),
            reg := handleReg x.d, room := some .scarabQueue,
            window := if dst.inScratch then scratchWindow dst.base (topkEntry form * bitsAt sp 0 13) else none }

/-- An element with its index. -/
abbrev Ranked := Nat × FVal

/-- `a` ranks strictly above `b` (R273). -/
def ranksAbove (a b : FVal) : Bool := if a.isNan then false else b.isNan || b.lt a

/-- Puts an element of a higher index behind those it does not rank above. -/
def rankInsert (x : Ranked) : List Ranked → List Ranked
  | [] => [x]
  | y :: rest => if ranksAbove x.2 y.2 then x :: y :: rest else y :: rankInsert x rest

/-- Every element in rank order (R273). -/
def ranking (vs : List FVal) : List Ranked :=
  ((List.range vs.length).zip vs).foldl (fun l x => rankInsert x l) []

/-- Numbers in ascending order without repeats. -/
def ascending (l : List Nat) : List Nat :=
  l.foldl (fun m n => (Sparse.put false (m.map fun a => (a, true)) n true).map Prod.fst) []

/-- An element as F32 (R273). -/
def topkValue (v : FVal) : Nat := if v.isNan then 0x7FC00000 else ((Ty.floatFmt .f32).convert RNE false v 0).bits

/-- The entries TOPK writes and its RESULT (R273). -/
def topkEntries (form k beta : Nat) (top : List Ranked) : List Byte × Nat :=
  let none' : Nat := 0xFFFFFFFF
  match form with
  | 1 =>
      ((List.range k).flatMap fun t =>
        match top[t]? with
        | some e => toBytes 4 e.1 ++ toBytes 4 (topkValue e.2)
        | none => toBytes 4 none' ++ toBytes 4 0x7FC00000, top.length)
  | 2 =>
      let blocks := ascending (top.map fun e => e.1 / 2 ^ beta)
      ((List.range k).flatMap fun t => toBytes 4 (blocks.getD t none'), blocks.length)
  | _ => ((List.range k).flatMap fun t => toBytes 4 ((top.map Prod.fst).getD t none'), top.length)

/-- What TOPK does (R273). -/
def State.topkWork (s : State) (o : EngineOp) : Except Stop (OpResult × State) :=
  match o.kind with
  | .topk d r k beta form set =>
      let src := Cap.ofQuad r
      match s.readElements o.who src with
      | .error e => .error e
      | .ok ((codes, _), s) =>
          let (b, n) := topkEntries form k beta ((ranking (codes.map (Ty.floatFmt (fmtTy src.fmt)).unpack)).take k)
          match s.engWrite o.who set (Cap.ofQuad d).base b with
          | .error e => .error e
          | .ok s => .ok ({ result := n }, s)
  | _ => .ok ({}, s)

/-- An operation of the scarab. -/
def OpKind.isTopk : OpKind → Bool
  | .topk .. => true
  | _ => false

/-- TOPK_START: the next operation of an idle scarab starts, and its release is performed (R274). -/
def execTopkStart (cluster : Nat) (s : State) : Out :=
  let mine := s.ops.filter fun o => o.kind.isTopk && o.core / 4 = cluster
  .next (if mine.any fun o => o.phase = .started then s
    else
      match mine.find? fun o => o.phase = .queued with
      | some o => (s.opRelease o 3).updOp o.id fun o => { o with phase := .started }
      | none => s)

/-- TOPK_COMPLETE (R273, R274). -/
def execTopkComplete (op : Nat) (s : State) : Out :=
  .next (match s.findOp op with
    | some o => if o.kind.isTopk && o.inWork then s.complete o State.topkWork else s
    | none => s)

end Sys2Proof.Machine
end

