-- ==== Sys2Proof/Machine/Lists.lean ====
section
/-! DEFINITION. The list instructions of stitched tensors (R202-R209). -/

namespace Sys2Proof.Machine

/-! ### Shared -/

/-- Where the list instructions may run (R317). -/
def listLimits (o : Op) : Limits := { op := o, ejected := some cEjectedOp }

/-- A capability result: a tagged pair of variable latency (R203). -/
def State.deliverCap (s : State) (d : Sel) (q : Quad) : State :=
  match d with
  | .s n => ((s.writePair 0 n.toNat q true).mark (.s n.toNat)).mark (.s (n.toNat + 1))
  | _ => s

/-- Acts on the checked STITCH capability of a list instruction (R203). -/
def State.withList (s : State) (x : Fun) (need : BitVec 4) (f : Cap → State → State × Bool) : State × Bool :=
  let (c, tag) := s.capOf x.a
  match c.check tag [.stitch] need 1 0 with
  | some e => (s.trap e.1 e.2, false)
  | none => f c s

/-- The unit performs the list instructions of a gang on a header in their order: one behind a SPLICE waits (R401). -/
def State.inOrder (s : State) (va : Nat) (f : State → State × Bool) : State × Bool :=
  if s.splicing va then (s.wait (.splices va), false) else f s

/-- A step of the unit that the gang waits for: a fault holds the gang, a cause traps it (R199). -/
def State.unitOp (s : State) (r : Except Stop State) : State × Bool :=
  match r with
  | .ok t => (t, true)
  | .error e => (s.stop e, false)

/-- The gang's agent at the stitch unit. -/
def State.unitWho (s : State) : Who := { s.who with engine := true }

/-- Writes a header, its line translated first (R199). -/
def State.saveHeader (s : State) (w : Who) (va : Nat) (h : ListHdr) : Except Stop State :=
  match s.unitCheck w va 64 with
  | .error e => .error e
  | .ok s => .ok (s.unitWrite w va h.toBytes)

/-- Writes the header and the whole array, every line translated first (R199). -/
def State.saveList (s : State) (w : Who) (va : Nat) (h : ListHdr) (l : List Piece) : Except Stop State :=
  match s.unitCheck w h.arr (32 * l.length) with
  | .error e => .error e
  | .ok s =>
      match s.unitCheck w va 64 with
      | .error e => .error e
      | .ok s => .ok ((s.unitWrite w h.arr (l.flatMap Piece.toBytes)).unitWrite w va h.toBytes)

/-! ### SLIST (R204) -/

/-- SPLICE_ARGS of an operand field (R212). -/
def argsCause (field : Nat) : Cause := (cSpliceArgs, BitVec.ofNat 64 field)

/-- The checks of one area of SLIST.INIT: alignment, then room (R204). -/
def areaChecks (c : Cap) (need field : Nat) : List (Option Cause) :=
  [causeIf (c.base % 64 ≠ 0) (cCapField, capInfo field 0), causeIf (c.len < need) (cCapBounds, boundsInfo c.len field 0)]

/-- SLIST.INIT (R204). -/
def execSlistInit (x : Fun) (s : State) : Out :=
  s.attempt (listLimits .slist) fun s =>
    let (ch, ht) := s.capOf x.a
    let (ca, at') := s.capOf x.b
    let k := (s.scalar x.c).toNat
    let need := pRead ||| pWrite
    s.orTrap (s.operandChecks [((ch, ht), ⟨[.linear], need, 1⟩), ((ca, at'), ⟨[.linear], need, 2⟩)] ++ areaChecks ch 64 1 ++
        [causeIf (20 < k) (argsCause 3)] ++ areaChecks ca (32 * 2 ^ min k 20) 2) fun s =>
      s.inOrder ch.base fun s => s.releasing fun s =>
        let h : ListHdr :=
          { version := 1, count := 0, length := 0, arr := ca.base, k := k, used := 0, pins := List.replicate 8 (0, 0) }
        match (s.release s.who 5).saveHeader s.unitWho ch.base h with
        | .error e => (s.stop e, false)
        | .ok t =>
            let c : Cap := { (Cap.ofQuad 0) with kind := some .stitch, perms := ch.perms, base := ch.base, ver := 1 }
            (t.deliverCap x.d c.toQuad, true)

/-- The smallest pinned version, the head when there is none (R204). -/
def ListHdr.pinMin (h : ListHdr) : Nat := (minList ((h.pins.filter fun p => 0 < p.1).map Prod.snd)).getD h.version

/-- The length of a capability's version (R200). -/
def State.viewLength (s : State) (w : Who) (c : Cap) : Except Stop (Nat × State) :=
  match s.readList w c.base with
  | .error e => .error e
  | .ok ((h, l), s) => if s.reachable w.asid c.base h c.ver then .ok (versionLength c.ver l, s) else .error (versionStop h c.ver)

/-- The value SLIST.STAT returns (R204). -/
def State.listStat (s : State) (w : Who) (c : Cap) (fn : Nat) : Except Stop (Nat × State) :=
  if fn = 0x15 then s.viewLength w c
  else
    match s.readHeader w c.base with
    | .error e => .error e
    | .ok (h, s) =>
        .ok (match fn with
          | 0x10 => h.version
          | 0x11 => h.length
          | 0x12 => h.count
          | 0x13 => h.used
          | _ => h.pinMin, s)

/-- SLIST.STAT, an acquire at device scope (R202, R204). -/
def execSlistStat (x : Fun) (s : State) : Out :=
  s.attempt (listLimits .slist) fun s =>
    s.withList x pRead fun c s => s.inOrder c.base fun s =>
      match s.listStat s.unitWho c x.fn.toNat with
      | .error e => (s.stop e, false)
      | .ok (v, t) => ((t.acquire t.who 5).deliver x.d 8 false [(0, v)], true)

/-! ### SPLICE (R205) -/

/-- The expected version of .EXPECT. -/
def spliceExpect (x : Fun) : Option Word := if x.fn.getLsbD 7 then some x.imm else none

/-- Queues a SPLICE: the gang's stores are released at device scope when it is performed (R202, R205). -/
def State.queueSplice (s : State) (x : Fun) (fn : Nat) (c : Cap) (sc : Dword) (cp : Option Quad) : State × Bool :=
  s.releasing fun s =>
    s.queueOp { kind := .splice fn c.raw (s.scalar x.b) sc cp (spliceExpect x), reg := handleReg x.d, room := none }

/-- SPLICE.INS (R205). -/
def execSpliceIns (x : Fun) (s : State) : Out :=
  s.attempt (listLimits .splice) fun s =>
    s.withList x pWrite fun c s =>
      let (cp, tag) := s.capOf x.c
      let m := cp.len / 16
      s.orTrap (s.operandChecks [((cp, tag), ⟨[.linear], pRead, 3⟩)] ++
          [causeIf (cp.len % 16 ≠ 0 || m = 0 || 4096 < m) (argsCause 3)]) fun s => s.queueSplice x 0 c 0 (some cp.raw)

/-- SPLICE.REMOVE (R205). -/
def execSpliceRemove (x : Fun) (s : State) : Out :=
  s.attempt (listLimits .splice) fun s =>
    s.withList x pWrite fun c s =>
      s.orTrap [causeIf ((s.scalar x.c).toNat < (s.scalar x.b).toNat) (argsCause 2)] fun s =>
        s.queueSplice x 1 c (s.scalar x.c) none

/-- SPLICE.TRUNC (R205). -/
def execSpliceTrunc (x : Fun) (s : State) : Out :=
  s.attempt (listLimits .splice) fun s => s.withList x pWrite fun c s => s.queueSplice x 2 c 0 none

/-- The pieces with the first index of those alive at a version, in array order (R198). -/
def placed (v : Nat) : Nat → List Piece → List (Option Nat × Piece)
  | _, [] => []
  | pos, p :: rest => if p.aliveAt v then (some pos, p) :: placed v (pos + p.len) rest else (none, p) :: placed v pos rest

/-- The boundaries of a version (R205). -/
def boundaries (length : Nat) (l : List (Option Nat × Piece)) : List Nat := 0 :: length :: l.filterMap Prod.fst

/-- The array after .INS: before the first alive entry that starts at the index, or at the end. -/
def insertAt (sb : Nat) (new : List Piece) : List (Option Nat × Piece) → List Piece
  | [] => new
  | (p, x) :: rest => if p = some sb then new ++ x :: rest.map Prod.snd else x :: insertAt sb new rest

/-- The array after .REMOVE (R205). -/
def removeRange (v sb sc : Nat) (l : List (Option Nat × Piece)) : List Piece :=
  l.map fun e =>
    match e.1 with
    | some p => if sb ≤ p && p + e.2.len ≤ sc then { e.2 with death := v } else e.2
    | none => e.2

/-- The array after .TRUNC: an entry that straddles the new length is split (R205). -/
def truncateAt (v sb : Nat) (l : List (Option Nat × Piece)) : List Piece :=
  l.flatMap fun e =>
    match e.1 with
    | some p =>
        if sb ≤ p then [{ e.2 with death := v }]
        else if sb < p + e.2.len then
          [{ e.2 with death := v, keep := sb - p }, { e.2 with len := sb - p, birth := v, death := neverDies, keep := 0 }]
        else [e.2]
    | none => [e.2]

/-- Some entry of a version straddles an index. -/
def straddles (sb : Nat) (l : List (Option Nat × Piece)) : Bool :=
  l.any fun e => e.1.any fun p => p < sb && sb < p + e.2.len

/-- Descriptors as new entries (R198, R205). -/
def newPieces (v : Nat) (b : List Byte) : List Piece :=
  (List.range (b.length / 16)).map fun i =>
    let n := fromBytes ((b.drop (16 * i)).take 16)
    { base := bitsAt n 0 64, len := bitsAt n 64 32, pid := bitsAt n 96 32, birth := v, death := neverDies, keep := 0 }

/-- Reads bytes as the unit does, or the crew's scratch. -/
def State.descriptors (s : State) (w : Who) (c : Cap) : Except Stop (List Byte × State) :=
  if c.inScratch then .ok ((s.findCrew w.crew).scratchRead (c.base - Config.scratchBase) c.len, s)
  else s.unitRead w c.base c.len

/-- CODEs of SPLICE (R178). -/
def codeConflict : BitVec 16 := 2
def codeListFull : BitVec 16 := 3
def codeExhausted : BitVec 16 := 4
def codeNotBoundary : BitVec 16 := 5

/-- The new array of a splice, or the CODE it ends on (R205). -/
def State.splicedArray (s : State) (w : Who) (fn : Nat) (h : ListHdr) (l : List Piece) (sb sc : Nat) (cp : Option Quad) :
    Except Stop (Except OpResult (List Piece) × State) :=
  let at' := placed h.version 0 l
  let v := h.version + 1
  let m := match cp with
    | some q => (Cap.ofQuad q).len / 16
    | none => 0
  let new := if fn = 0 then m else if fn = 2 && straddles sb at' then 1 else 0
  if (fn = 2 && h.length ≤ sb) || (fn = 1 && sb = sc) then .ok (.error { result := h.version }, s)
  else if fn ≠ 2 && (!(boundaries h.length at').contains sb || (fn = 1 && !(boundaries h.length at').contains sc)) then
    .ok (.error { code := codeNotBoundary }, s)
  else if h.version = 0xFFFFFFFE then .ok (.error { code := codeExhausted }, s)
  else if 2 ^ h.k < h.used + new then .ok (.error { code := codeListFull }, s)
  else
    match fn, cp with
    | 0, some q =>
        match s.descriptors w (Cap.ofQuad q) with
        | .error e => .error e
        | .ok (b, s) =>
            let ps := newPieces v b
            if ps.any fun p => p.len = 0 || !((windowOf p.base).1 = .global || (windowOf p.base).1 = .priv) then
              .ok (.error { code := causeCode cSpliceArgs }, s)
            else .ok (.ok (insertAt sb ps at'), s)
    | 1, _ => .ok (.ok (removeRange v sb sc at'), s)
    | _, _ => .ok (.ok (truncateAt v sb at'), s)

/-- What a splice does, indivisibly (R205). -/
def State.spliceList (s : State) (o : EngineOp) : Except Stop (OpResult × State) :=
  match o.kind with
  | .splice fn q sb sc cp expect =>
      let va := (Cap.ofQuad q).base
      match s.readHeader o.who va with
      | .error e => .error e
      | .ok (h, s) =>
          if expect.any fun x => x.toNat ≠ h.version then .ok ({ code := codeConflict, result := h.version }, s)
          else
            match s.readPieces o.who va h with
            | .error e => .error e
            | .ok (l, s) =>
                match s.splicedArray o.who fn h l sb.toNat sc.toNat cp with
                | .error e => .error e
                | .ok (.error r, s) => .ok (r, s)
                | .ok (.ok l', s) =>
                    let v := h.version + 1
                    let h' := { h with version := v, count := (l'.filter fun p => p.aliveAt v).length,
                                       length := versionLength v l', used := l'.length }
                    match (s.settleHolds o.asid va h).saveList o.who va h' l' with
                    | .error e => .error e
                    | .ok s => .ok ({ result := v }, s)
  | _ => .ok ({}, s)

/-- A splice; a memory error that it meets takes the firmware path, as its translation faults do (R188, R199). -/
def State.spliceWork (s : State) (o : EngineOp) : Except Stop (OpResult × State) :=
  match s.spliceList o with
  | .error (.fault va acc f) => .error (.fault va acc f.ofStore)
  | r => r

/-- An earlier SPLICE of its gang on the same header is pending (R401). -/
def State.spliceAhead (s : State) (o : EngineOp) : Bool :=
  let header (k : OpKind) : Option Nat := match k with
    | .splice _ q .. => some (Cap.ofQuad q).base
    | _ => none
  (s.ops.takeWhile fun x => x.id ≠ o.id).any fun x => x.gangId = o.gangId && header x.kind = header o.kind && x.kind.isSplice

/-- SPLICE_PERFORM: the release at device scope, then the splice at the header's home (R183, R202, R205). -/
def execSplicePerform (op : Nat) (s : State) : Out :=
  .next (match s.findOp op with
    | some o =>
        if o.kind.isSplice && o.phase = .queued && !s.spliceAhead o then
          (if o.cancel then s.finishOp o codeCancelled 0 0
           else
            let s := s.opRelease o 5
            s.endOp o (s.spliceWork o))
        else s
    | none => s)

/-! ### PIN, UNPIN (R207) -/

/-- The slot a pin of a version goes to (R207). -/
def ListHdr.pinSlot (h : ListHdr) (v : Nat) : Option Nat :=
  match (List.range 8).find? fun j => 0 < (h.pins.getD j (0, 0)).1 && (h.pins.getD j (0, 0)).1 < 15 && (h.pins.getD j (0, 0)).2 = v with
  | some j => some j
  | none => (List.range 8).find? fun j => (h.pins.getD j (0, 0)).1 = 0

/-- A header with a slot replaced. -/
def ListHdr.setPin (h : ListHdr) (j : Nat) (p : Nat × Nat) : ListHdr := { h with pins := h.pins.set j p }

/-- Pins a version (R207). -/
def State.pinVersion (s : State) (w : Who) (c : Cap) (h : ListHdr) (v : Nat) : Except Stop State :=
  match h.pinSlot v with
  | none => .error (.trap (cPinFull, BitVec.ofNat 64 v))
  | some j => s.saveHeader w c.base (h.setPin j ((h.pins.getD j (0, 0)).1 + 1, v))

/-- PIN and PIN.VER: an acquire at device scope; cd is cl at the pinned version (R202, R207). -/
def State.pinOp (s : State) (x : Fun) (own : Bool) : State × Bool :=
  s.withList x pRead fun c s => s.inOrder c.base fun s =>
    let w := s.unitWho
    match s.readHeader w c.base with
    | .error e => (s.stop e, false)
    | .ok (h, t) =>
        if own && !t.reachable w.asid c.base h c.ver then (s.stop (versionStop h c.ver), false)
        else
          let v := if own then c.ver else h.version
          match t.pinVersion w c h v with
          | .error e => (s.stop e, false)
          | .ok t => ((t.acquire t.who 5).deliverCap x.d { c with ver := v }.toQuad, true)

/-- PIN (R207). -/
def execPin (x : Fun) (s : State) : Out := s.attempt (listLimits .pin) fun s => s.pinOp x false

/-- PIN.VER (R207). -/
def execPinVer (x : Fun) (s : State) : Out := s.attempt (listLimits .pin) fun s => s.pinOp x true

/-- UNPIN: earlier accesses of the gang have completed, its side log's too (R202, R207). -/
def execUnpin (x : Fun) (s : State) : Out :=
  s.attempt (listLimits .unpin) fun s =>
    s.withList x pRead fun c s =>
      s.inOrder c.base fun s => s.releasing fun s =>
        let w := s.unitWho
        match s.readHeader w c.base with
        | .error e => (s.stop e, false)
        | .ok (h, t) =>
            match (List.range 8).find? fun j => 0 < (h.pins.getD j (0, 0)).1 && (h.pins.getD j (0, 0)).2 = c.ver with
            | none => (s.stop (versionStop h c.ver), false)
            | some j => s.unitOp ((t.settleHolds w.asid c.base h).saveHeader w c.base (h.setPin j ((h.pins.getD j (0, 0)).1 - 1, c.ver)))

/-! ### SLOOK (R208) -/

/-- The value SLOOK returns (R208). -/
def lookValue (fn v x : Nat) (l : List Piece) : Nat :=
  if fn = 3 then versionLength v l
  else
    match findPiece v x 0 l with
    | none => 2 ^ 64 - 1
    | some f =>
        match fn with
        | 0 => f.addr
        | 1 => f.pid + min (x - f.start) (2 ^ 32 - 1) * 2 ^ 32
        | _ => f.start

/-- SLOOK, an acquire at device scope (R202, R208). -/
def execSlook (x : Fun) (s : State) : Out :=
  s.attempt (listLimits .slook) fun s =>
    s.withList x pRead fun c s => s.inOrder c.base fun s =>
      let w := s.unitWho
      match s.readList w c.base with
      | .error e => (s.stop e, false)
      | .ok ((h, l), t) =>
          if !t.reachable w.asid c.base h c.ver then (s.stop (versionStop h c.ver), false)
          else
            let v := lookValue x.fn.toNat c.ver (s.scalar x.b).toNat l
            ((t.acquire t.who 5).deliver x.d 8 false [(0, v)], true)

/-! ### RECLAIM (R209) -/

/-- What RECLAIM takes of an array: the entries that go, those that stay, and whether it stopped for want of room. -/
structure Reclaimed where
  gone : List Piece
  kept : List Piece
  more : Bool
deriving DecidableEq, Repr

/-- Takes the reclaimable entries in array order (R209). -/
def reclaim (m : Nat) : Nat → List Piece → Reclaimed
  | _, [] => { gone := [], kept := [], more := false }
  | room, p :: rest =>
      if m < p.death then
        let r := reclaim m room rest
        { r with kept := p :: r.kept }
      else if p.keep = p.len then
        let r := reclaim m room rest
        { r with gone := p :: r.gone }
      else if room = 0 then { gone := [], kept := p :: rest, more := true }
      else
        let r := reclaim m (room - 1) rest
        { r with gone := p :: r.gone }

/-- The descriptors of removed entries (R198, R209). -/
def goneBytes (l : List Piece) : List Byte :=
  (l.filter fun p => p.keep ≠ p.len).flatMap fun p => toBytes 8 (p.base + p.keep) ++ toBytes 4 (p.len - p.keep) ++ toBytes 4 p.pid

/-- Writes descriptors with the gang's rights: what the issuing core's L1 holds of their lines goes out first (R199, R209). -/
def State.writeDescriptors (s : State) (w : Who) (c : Cap) (b : List Byte) : State :=
  if c.inScratch then s.updCrew w.crew fun k => k.scratchWrite (c.base - Config.scratchBase) b false
  else
    let lines := distinct ((splitParts 128 c.base b.length).map fun p => p.1 / 128)
    let s := lines.foldl (fun (s : State) n => s.l1Expel w w.core w.asid n) s
    s.unitWrite w c.base b

/-- Removes dead entries of a list (R209). -/
def State.reclaimList (s : State) (w : Who) (c co : Cap) : Except Stop (Nat × State) :=
  match s.readList w c.base with
  | .error e => .error e
  | .ok ((h, l), s) =>
      let m := (minList (h.pinMin :: h.version :: s.heldVersions w.asid c.base)).getD h.version
      let r := reclaim m (co.len / 16) l
      let n := r.gone.length + (if r.more then 2 ^ 63 else 0)
      if r.gone.isEmpty then .ok (n, s)
      else
        match (if co.inScratch then .ok s else s.unitCheck w co.base (goneBytes r.gone).length) with
        | .error e => .error e
        | .ok s =>
            match s.saveList w c.base { h with used := r.kept.length } r.kept with
            | .error e => .error e
            | .ok s => .ok (n, s.writeDescriptors w co (goneBytes r.gone))

/-- RECLAIM (R209). -/
def execReclaim (x : Fun) (s : State) : Out :=
  s.attempt (listLimits .reclaim) fun s =>
    s.withList x pWrite fun c s =>
      let (co, tag) := s.capOf x.b
      s.orTrap (s.operandChecks [((co, tag), ⟨[.linear], pWrite, 2⟩)]) fun s => s.inOrder c.base fun s =>
        match s.reclaimList s.unitWho c co with
        | .error e => (s.stop e, false)
        | .ok (n, t) => (t.deliver x.d 8 false [(0, n)], true)

end Sys2Proof.Machine
end

