-- ==== Sys2Proof/Machine/Queues.lean ====
section
/-! DEFINITION. The hardware queues (R341-R350): pushes, pops and steals with their blocking, binding, the host's and
peers' doorbells (R307, R382), completion records (R383) and the class boosts (R334-R336). -/

namespace Sys2Proof.Machine

/-! ### Queues -/

/-- QUEUE_STATE and QDEST_RANGE (R355). -/
def cQueueState : BitVec 8 := 0x65
def cQdestRange : BitVec 8 := 0x46

/-- Items held, capacity and room (R341). -/
def Queue.count (q : Queue) : Nat := (q.tail - q.head).toNat
def Queue.capacity (q : Queue) : Nat := 2 ^ q.logcap
def Queue.space (q : Queue) : Nat := q.capacity - q.count

/-- The address of item `n` of the ring (R341). -/
def Queue.slot (q : Queue) (n : Word) : Nat := q.ring.toNat + 64 * (n.toNat % q.capacity)

/-- FLAGS (R341). -/
def Queue.hostPorts (q : Queue) : BitVec 2 := q.flags.extractLsb' 0 2
def Queue.steals (q : Queue) : Bool := q.flags.getLsbD 2
def Queue.closed (q : Queue) : Bool := q.flags.getLsbD 3
def Queue.peer (q : Queue) : Bool := q.flags.getLsbD 4

/-- The scope at which a push releases (R347). -/
def Queue.pushScope (q : Queue) : Nat := if q.hostPorts ≠ 0 || q.peer then 6 else 5

/-- A queue by global cluster * 16 + number. -/
def State.queue (s : State) (key : Nat) : Queue := s.queues.get {} key
def State.updQueue (s : State) (key : Nat) (f : Queue → Queue) : State :=
  { s with queues := Sparse.upd {} s.queues key f }

/-- The 10-bit spec of B or IMM (R342). -/
def State.queueSpec (s : State) (x : Fun) : Nat :=
  match x.b with
  | .s n => (s.readS n.toNat).toNat % 1024
  | _ => bitsAt x.imm.toNat 22 10

/-- The queue a spec names: cluster 0x3F is the issuing one (R342). -/
def State.queueKey (s : State) (spec : Nat) : Nat := if spec / 16 = 0x3F then s.cluster * 16 + spec % 16 else spec

/-- The bit ILLEGAL_FIELD records for a spec that names cluster 48-62 (R342). -/
def State.specBit (s : State) (x : Fun) : Option Dword :=
  let c := s.queueSpec x / 16
  if 48 ≤ c && c ≠ 0x3F then some (if x.b.isScalar then 48 else 26) else none

/-- Acts on the queue a spec names, in the state the instruction needs it (R342, R350). -/
def State.withQueue (s : State) (x : Fun) (ok : Queue → Bool) (f : Nat → Queue → State → State × Bool) : State × Bool :=
  match s.specBit x with
  | some bit => (s.trap cIllegalField bit, false)
  | none =>
      let key := s.queueKey (s.queueSpec x)
      if ok (s.queue key) then f key (s.queue key) s
      else (s.trap cQueueState (BitVec.ofNat 64 (s.queueSpec x)), false)

/-- The queue is bound to the gang's context (R342). -/
def State.usable (s : State) (q : Queue) : Bool := q.bound && q.asid = s.crew.asid

/-! ### Items -/

/-- The scratch offset of rank 0 (R344). -/
def State.itemBase (s : State) (x : Fun) : Nat := wrapInt 64 ((s.scalar x.a).toNat + bitsAt x.imm.toNat 0 18 : Nat)

/-- The lowest offending offset of `n` items in scratch (R344). -/
def State.itemStop (s : State) (base n : Nat) : Option Nat :=
  if base % 64 ≠ 0 then some base
  else
    let e := base + 64 * n
    let oor := if s.crew.scratchSize < e then [max base s.crew.scratchSize] else []
    minList (oor ++ ((s.windows s.crew.id).filter fun p => p.1 < e && base ≤ p.2).map fun p => max base p.1)

/-- The form the three transfers share: the queue, then the scratch range (R342, R344). -/
def State.transfer (s : State) (x : Fun) (f : Nat → Queue → State → State × Bool) : State × Bool :=
  s.withQueue x s.usable fun key q s =>
    match s.itemStop (s.itemBase x) (Mask.count s.run) with
    | some o => (s.trap cQdestRange (BitVec.ofNat 64 o), false)
    | none => f key q s

/-- Where the queue instructions may run: blocking ones not in a handler (R317, R362). -/
def queueLimits (o : Op) (x : Fun) : Limits := { op := o, handler := x.fn.getLsbD 0, ejected := some cEjectedOp }

/-- What a transfer did, for its status word (R344). -/
structure Moved where
  count : Nat := 0
  mint : Mask := 0
  closed : Bool := false
  timeout : Bool := false
  nosteal : Bool := false
deriving DecidableEq, Repr

/-- The status word (R344). -/
def Moved.word (r : Moved) : Nat :=
  r.count + (if r.nosteal then 2 ^ 29 else 0) + (if r.timeout then 2 ^ 30 else 0) + (if r.closed then 2 ^ 31 else 0) +
    r.mint.toNat * 2 ^ 32

/-- A variable-latency result of the queue unit in a scalar register: its wait swaps no gang (R332, R344). -/
def State.deliverQuick (s : State) (d : Sel) (x : Nat) : State :=
  match d with
  | .s n => (s.writeS 0 n.toNat (BitVec.ofNat 64 x)).markQuick (.s n.toNat)
  | _ => s

/-- Delivers pd, a predicate write of 4 cycles, and the status word (R35, R344, R345); a QPUSH.B waits no longer. -/
def State.moved (s : State) (x : Fun) (r : Moved) : State :=
  let got := maskOf ((Mask.list s.run).take r.count)
  let s := match x.d with
    | .p n => s.writeP 4 n.toNat s.run got
    | _ => s
  ({ s with gang := { s.gang with pushSince := none } } : State).deliverQuick x.c r.word

/-! ### Completion records and interrupts (R383) -/

/-- Raises the MSI-X vector of a queue at a host port; towards a link that is down it is discarded (R291, R383, log 11). -/
def State.raiseVector (s : State) (asid : Asid) (key : Nat) (p : Port) : State :=
  let up := match p with
    | .portA => s.host.linkA
    | .portB => s.host.linkB
  let port := if p = .portA then 16 else 17
  if !up then ({ s with sys := s.sys.dropWrite asid port 1 } : State).event (discardedWrites port 1)
  else if s.host.msix.contains (p, key) then s
  else { s with host := { s.host with msix := s.host.msix ++ [(p, key)] } }

/-- Raises the vectors of the ports a mask names. -/
def State.raisePorts (s : State) (asid : Asid) (key : Nat) (ports : BitVec 2) : State :=
  let s := if ports.getLsbD 0 then s.raiseVector asid key .portA else s
  if ports.getLsbD 1 then s.raiseVector asid key .portB else s

/-- A record the device writes in a context's address space, with placement of kind 6 (R353, R383). -/
def State.recordWrite (s : State) (w : Who) (va : Nat) (data : List Byte) : Except Stop State :=
  match (splitParts 128 va data.length).foldlM (engWritePart w 0xC000) (data, s) with
  | .error e => .error e
  | .ok (_, s) => .ok s

/-- SPEC of a completion record (R383). -/
def completionSpec (q : Queue) (key : Nat) : BitVec 16 :=
  BitVec.ofNat 16 (key + if q.tail.getLsbD q.logcap then 2 ^ 15 else 0)

/-- The 32 bytes of a completion record (R383). -/
def State.completionBytes (s : State) (q : Queue) (key m : Nat) : List Byte :=
  toBytes 4 q.tail.toNat ++ toBytes 4 m ++ toBytes 2 (completionSpec q key).toNat ++ toBytes 2 s.gang.idx ++
    toBytes 4 s.crew.number ++ List.replicate 16 0

/-- The event of a completion record that was dropped (R385). -/
def completionDropped (va : Dword) (spec : BitVec 16) : Event :=
  { kind := 9, info := va, value := BitVec.ofNat 64 (1 + spec.toNat * 2 ^ 16) }

/-- The completion record of a push and what follows it: the vector, then the push's result (R383). `q` is the queue before
the push. -/
def State.completion (s : State) (x : Fun) (q : Queue) (key m : Nat) (timeout : Bool) : State × Bool :=
  let va := q.crec.toNat + 32 * (q.tail.toNat % q.capacity)
  let data := s.completionBytes q key m
  let spec := completionSpec q key
  let asid := s.crew.asid
  match s.recordWrite s.unitWho va data with
  | .ok t => ((t.raisePorts asid key q.hostPorts).moved x { count := m, timeout := timeout }, true)
  | .error (.trap c) => (s.trap c.1 c.2, false)
  | .error (.fault fva acc f) =>
      if f.refused then
        let s := (s.recordFault fva asid acc f s.core).event (completionDropped (BitVec.ofNat 64 va) spec)
        ((s.raisePorts asid key q.hostPorts).moved x { count := m, timeout := timeout }, true)
      else
        let (id, s) := s.openFault fva asid acc f s.core
          (.completion s.gang.id (BitVec.ofNat 64 va) data asid q.hostPorts spec)
        (s.wait (.completion id x m timeout), false)

/-! ### QPUSH -/

/-- The pages of the ring slots a push writes are translated first. -/
def State.ringCheck (s : State) (w : Who) (q : Queue) (m : Nat) : Except Stop State :=
  (List.range m).foldlM (fun (s : State) n => s.unitCheck w (q.slot (q.tail + BitVec.ofNat 32 n)) 64) s

/-- The items of ranks 0 to m - 1 go to the ring (R345, R347). -/
def State.ringWrite (s : State) (w : Who) (q : Queue) (base m : Nat) : State :=
  (List.range m).foldl (fun (s : State) n =>
    s.unitWrite w (q.slot (q.tail + BitVec.ofNat 32 n)) (s.crew.scratchRead (base + 64 * n) 64)) s

/-- Pushes what fits, with its release (R345-R347); `timed` when the wait of QPUSH.B has run out. -/
def State.pushItems (s : State) (x : Fun) (key : Nat) (q : Queue) (timed : Bool) : State × Bool :=
  let a := Mask.count s.run
  let m := min a q.space
  match s.ringCheck s.unitWho q m with
  | .error e => (s.stop e, false)
  | .ok s =>
      let s := (s.release s.who q.pushScope).ringWrite s.unitWho q (s.itemBase x) m
      let s := s.updQueue key fun q => { q with tail := q.tail + BitVec.ofNat 32 m }
      let timeout := timed && m < a
      if m = 0 || q.hostPorts = 0 then (s.moved x { count := m, timeout := timeout }, true)
      else s.completion x q key m timeout

/-! ### QPOP and QSTEAL -/

/-- An entry of the capability-root table, when it is a root (R94). -/
def State.root (s : State) (w : Who) (i : Nat) : Option Cap × State :=
  let va := Config.ownBase + bitsAt (s.sys.ctxD w.asid).caproots.toNat 10 38 * 1024 + 16 * i
  match s.leaf { w with engine := true, priv := true } .load va with
  | .error _ => (none, s)
  | .ok (l, t) =>
      let c := Cap.ofQuad (BitVec.ofNat 128 (fromBytes (t.homeRead l va 16)))
      (if l.rights.priv && c.kind.isSome && c.fieldsOk then some c else none, t)

/-- The roots of the context (R94). -/
def State.roots (s : State) (w : Who) : List Cap × State :=
  (List.range (min 64 (bitsAt (s.sys.ctxD w.asid).caproots.toNat 0 7))).foldl (fun (a : List Cap × State) i =>
    let (c, t) := a.2.root w i
    (a.1 ++ c.toList, t)) ([], s)

/-- The slots an item declares, and those of them that lie within a root (R94, R343). -/
def declaredSlots (b : List Byte) : List Nat := (List.range 3).filter fun j => (b.getD 63 0).getLsbD j
def mintedSlots (roots : List Cap) (b : List Byte) : List Nat :=
  (declaredSlots b).filter fun j =>
    let c := Cap.ofQuad (BitVec.ofNat 128 (fromBytes ((b.drop (16 * j)).take 16)))
    roots.any fun r => c.within r

/-- One item delivered to scratch with the tags of its minted slots (R345). -/
def Crew.takeItem (c : Crew) (off : Nat) (b : List Byte) (minted : List Nat) : Crew :=
  let c := c.scratchWrite off b false
  { c with scratchTags := minted.foldl (fun t j => setMember t (off / 16 + j) true) c.scratchTags }

/-- Items read at their home behind those before them. -/
def readItem (w : Who) (a : List (List Byte) × State) (va : Nat) : Except Stop (List (List Byte) × State) :=
  match a.2.unitRead w va 64 with
  | .error e => .error e
  | .ok (b, s) => .ok (a.1 ++ [b], s)

/-- Takes the items that stand: QPOP from HEAD, QSTEAL from TAIL (R345, R347). -/
def State.takeItems (s : State) (x : Fun) (key : Nat) (q : Queue) (steal : Bool) : State × Bool :=
  let run := Mask.list s.run
  let nosteal := steal && !q.steals
  let m := if nosteal then 0 else min run.length q.count
  let index (n : Nat) : Word := if steal then q.tail - 1 - BitVec.ofNat 32 n else q.head + BitVec.ofNat 32 n
  match ((List.range m).map fun n => q.slot (index n)).foldlM (readItem s.unitWho) ([], s) with
  | .error e => (s.stop e, false)
  | .ok (items, s) =>
      let (roots, s) := if m = 0 then ([], s) else s.roots s.unitWho
      let base := s.itemBase x
      let crew := ((List.range m).zip items).foldl (fun (c : Crew) e =>
        c.takeItem (base + 64 * e.1) e.2 (mintedSlots roots e.2)) s.crew
      let mint := maskOf (((run.zip items).filter fun e => mintedSlots roots e.2 ≠ declaredSlots e.2).map Prod.fst)
      let n := BitVec.ofNat 32 m
      let s := ({ s with crew := crew } : State).updQueue key fun q =>
        if steal then { q with tail := q.tail - n } else { q with head := q.head + n }
      let s := if m = 0 then s else s.acquire s.who 6
      (s.moved x { count := m, mint := mint, closed := q.closed && q.count < run.length, nosteal := nosteal }, true)

/-- A crew retired by RETQ: as if every gang had executed EXIT (R345). -/
def State.retireByQueue (s : State) : State :=
  let crew := s.gang.crewId
  (s.endGangs crew).updCrew crew fun c => { c with ended := .retq }

/-- QPOP: QPOP.B on an empty queue blocks, or ends at once when the queue is CLOSED (R345, R346). -/
def State.popOp (s : State) (x : Fun) (key : Nat) (q : Queue) : State × Bool :=
  if x.fn.getLsbD 0 && q.count = 0 then
    if !q.closed then (s.wait (.qpop x key s.clock), false)
    else if s.crew.retq then (s.retireByQueue, false)
    else s.takeItems x key q false
  else s.takeItems x key q false

/-! ### Waking (R346, R348) -/

/-- The queue a gang is blocked on, and since when. -/
def Gang.blockedPop (g : Gang) : Option (Nat × Nat) :=
  match g.hold with
  | some h =>
      (match h.why with
        | .qpop _ key since => some (key, since)
        | _ => none)
  | none => none
def Gang.blockedPush (g : Gang) : Option (Nat × Nat) :=
  match g.hold with
  | some h =>
      (match h.why with
        | .qpush _ key since => some (key, since)
        | _ => none)
  | none => none

/-- The blocked gang a queue serves next: the highest effective class, then the order of blocking, for pushes that of issue
(R346, R348): of one cycle, the gang whose instruction issued first. -/
def State.firstBlocked (s : State) (blocked : Gang → Option (Nat × Nat)) (key : Nat) : Option Nat :=
  let l := s.allGangs.filter fun g => (blocked g).any fun b => b.1 = key
  let l := greatest (fun g => (s.findCrew g.crewId).effCls) l
  ((least (fun g => g.lastIssue) (least (fun g => ((blocked g).getD (0, 0)).2) l)).map fun g => g.id).head?

/-- The release of a push waits for a retraining port (R291, R348). -/
def State.portBlocked (s : State) (q : Queue) : Bool := q.pushScope = 6 && s.sys.retraining

/-- A blocked QPOP.B is served: items have arrived, or the queue is CLOSED (R346, R348). None when it still blocks. -/
def State.wakePop (s : State) (g : Nat) : Option State :=
  let t := s.focus g
  match t.gang.hold with
  | some h =>
      (match h.why with
        | .qpop x key _ =>
            let q := t.queue key
            if t.firstBlocked Gang.blockedPop key = some g && (q.count ≠ 0 || q.closed) then
              some (State.finishHeld ((t.atHold h).popOp x key q))
            else none
        | _ => none)
  | none => none

/-- A waiting QPUSH.B is served: all its items fit, and it is the first of those that wait (R346, R348). -/
def State.wakePush (s : State) (g : Nat) : Option State :=
  let t := s.focus g
  match t.gang.hold with
  | some h =>
      (match h.why with
        | .qpush x key _ =>
            let q := t.queue key
            if t.firstBlocked Gang.blockedPush key = some g && Mask.count h.run ≤ q.space && !t.portBlocked q then
              some (State.finishHeld ((t.atHold h).pushItems x key q false))
            else none
        | _ => none)
  | none => none

/-- The queue unit serves those that wait at a queue before it applies another instruction to it: pops, then pushes, until
none can be served (R345, R346, R348). `n` bounds the gangs. -/
def State.serveQueue (s : State) (key : Nat) : Nat → State
  | 0 => s
  | n + 1 =>
      match ((s.firstBlocked Gang.blockedPop key).bind s.wakePop) <|> ((s.firstBlocked Gang.blockedPush key).bind s.wakePush) with
      | some t => t.serveQueue key n
      | none => s

/-- Those that wait at a queue and can be served are served. -/
def State.served (s : State) (key : Nat) : State := s.serveQueue key s.allGangs.length

/-- An instruction acts on a queue behind those that wait there. A crew that RETQ has retired meanwhile acts no more. -/
def State.behind (s : State) (key : Nat) (f : Queue → State → State × Bool) : State × Bool :=
  let t := (s.served key).focus s.gang.id
  if t.gang.id ≠ s.gang.id || t.gang.live = 0 then (t, false)
  else f (t.queue key) { t with run := s.run, ipc := s.ipc }

/-- A waiting QPUSH.B of the gang's class or above: it is served first (R348). -/
def State.pushAhead (s : State) (key : Nat) : Bool :=
  s.allGangs.any fun g => g.id ≠ s.gang.id && g.blockedPush.any fun b => b.1 = key && s.crew.effCls ≤ (s.findCrew g.crewId).effCls

/-- A push, a release at device or system scope: it waits for the run's side-log entries and for a retraining port, QPUSH.B for
room besides, until QWAITMAX cycles from its issue (R105, R291, R345-R348). -/
def State.pushOp (s : State) (x : Fun) (key : Nat) (q : Queue) : State × Bool :=
  let blocks := x.fn.getLsbD 0 && s.crew.qwaitMax ≠ 0
  let since := s.gang.pushSince.getD s.clock
  let late := since + s.crew.qwaitMax.toNat ≤ s.clock
  let s : State := if blocks then { s with gang := { s.gang with pushSince := some since } } else s
  if s.logBlocked s.run then (s.wait (.logged s.run), false)
  else if blocks && !late && (q.space < Mask.count s.run || s.pushAhead key || s.portBlocked q) then
    (s.wait (.qpush x key since), false)
  else if s.portBlocked q then (s.wait .port, false)
  else s.pushItems x key q (blocks && late)

/-- QPUSH (R344-R348). -/
def execQpush (x : Fun) (s : State) : Out :=
  s.attempt (queueLimits .qpush x) fun s => s.transfer x fun key _ s => s.behind key fun q s => s.pushOp x key q

/-- QPOP (R344-R348). -/
def execQpop (x : Fun) (s : State) : Out :=
  s.attempt (queueLimits .qpop x) fun s => s.transfer x fun key _ s => s.behind key fun q s => s.popOp x key q

/-- QSTEAL (R344-R348). -/
def execQsteal (x : Fun) (s : State) : Out :=
  s.attempt (queueLimits .qsteal x) fun s => s.transfer x fun key _ s => s.behind key fun q s => s.takeItems x key q true

/-- QPOP_WAKE (R346, R348). -/
def execQpopWake (g : Nat) (s : State) : Out := .next ((s.wakePop g).getD s)

/-- QPUSH_WAKE (R346, R348). -/
def execQpushWake (g : Nat) (s : State) : Out := .next ((s.wakePush g).getD s)

/-- QPUSH_WAIT_EXPIRY: what fits is pushed (R346). -/
def execQpushWaitExpiry (g : Nat) (s : State) : Out :=
  let t := s.focus g
  .next (match t.gang.hold with
    | some h =>
        (match h.why with
          | .qpush x key since =>
              if since + t.crew.qwaitMax.toNat ≤ t.clock && !t.portBlocked (t.queue key) then
                State.finishHeld ((t.atHold h).pushItems x key (t.queue key) true)
              else s
          | _ => s)
    | none => s)

/-! ### QSTAT and QBIND -/

/-- The value QSTAT returns (R349); SPACE of a queue bound with more items than it has room for is taken modulo 2^32, as the counts
are (DEDUCED, log 59). -/
def Queue.stat (q : Queue) (fn : Nat) : Nat :=
  match fn with
  | 0 => q.count
  | 1 => (BitVec.ofNat 32 q.capacity - (q.tail - q.head)).toNat
  | 2 => q.head.toNat
  | 3 => q.tail.toNat
  | _ => q.flags.toNat + q.logcap * 256

/-- QSTAT (R349). -/
def execQstat (x : Fun) (s : State) : Out :=
  s.attempt { op := .qstat, ejected := some cEjectedOp } fun s =>
    s.withQueue x s.usable fun key _ s => s.behind key fun q s => (s.deliverQuick x.d (q.stat x.fn.toNat), true)

/-- Where QBIND may run (R61, R317). -/
def bindLimits : Limits := { op := .qbind, priv := true, ejected := some cEjectedOp }

/-- The descriptor's address (R350). -/
def descAddr (x : Fun) : Addr := { size := 32, capb := false, a := x.a, b := .none, off := 0, need := 0, align := 32 }

/-- A queue from its descriptor (R341). -/
def Queue.ofBytes (b : List Byte) : Queue :=
  let n := fromBytes b
  { bound := true, ring := BitVec.ofNat 64 n, logcap := bitsAt n 64 8, flags := BitVec.ofNat 8 (bitsAt n 72 5),
    asid := BitVec.ofNat 16 (bitsAt n 80 16), prodlid := bitsAt n 96 8, conslid := bitsAt n 104 8,
    head := BitVec.ofNat 32 (bitsAt n 128 32), tail := BitVec.ofNat 32 (bitsAt n 160 32),
    crec := BitVec.ofNat 64 (bitsAt n 192 64) }

/-- Binds a queue from a descriptor that was read (R350). -/
def State.bindQueue (s : State) (key : Nat) (b : List Byte) : State :=
  let q := Queue.ofBytes b
  if 16 < q.logcap || q.ring.toNat % (64 * q.capacity) ≠ 0 then s.trap cIllegalField 56
  else ({ s with queues := Sparse.put {} s.queues key q } : State).advance

/-- QBIND.BIND (R350). -/
def execQbindBind (x : Fun) (s : State) : Out :=
  s.attempt bindLimits fun s =>
    s.withQueue x (fun q => !q.bound) fun key _ s =>
      ((s.loadAll .load (descAddr x) 0 0 0 [0] fun l s => s.bindQueue key (l.flatMap fun y => y.data)).1, false)

/-- A gang blocked on a queue that is unbound returns (R348). -/
def State.unblock (s : State) (key g : Nat) : State :=
  let t := s.focus g
  match t.gang.hold with
  | some h =>
      (match h.why with
        | .qpop x k _ => if k = key then ((t.atHold h).moved x { closed := true }).advance else s
        | .qpush x k _ => if k = key then ((t.atHold h).moved x { timeout := true }).advance else s
        | _ => s)
  | none => s

/-- Unbinds a queue: the gangs blocked on it return, then the issuing gang goes on. -/
def State.unbindQueue (s : State) (key : Nat) : State :=
  let t := (s.allGangs.foldl (fun (t : State) g => t.unblock key g.id) s).focus s.gang.id
  { t with run := s.run, ipc := s.ipc, queues := Sparse.put {} t.queues key {} }

/-- HEAD, TAIL and FLAGS written to a descriptor in scratch or in memory (R350). -/
def State.writeDesc (s : State) (t : Target) (q : Queue) : Except Stop State :=
  let ht := toBytes 4 q.head.toNat ++ toBytes 4 q.tail.toNat
  match t with
  | .scratch off =>
      match s.laneOff off 32 with
      | some why => .ok (s.noteOff 0 why)
      | none =>
          .ok { s with crew := (s.crew.scratchWrite (off.toNat + 9) [q.flags] false).scratchWrite (off.toNat + 16) ht false }
  | .memory parts =>
      let va := (parts.headD (0, 0)).1
      let w := s.unitWho
      match s.unitCheck w va 32 with
      | .error e => .error e
      | .ok s =>
          let s := s.l1Expel s.who s.core s.crew.asid (va / 128)
          .ok ((s.unitWrite w (va + 9) [q.flags]).unitWrite w (va + 16) ht)

/-- QBIND.UNBIND (R348, R350). -/
def execQbindUnbind (x : Fun) (s : State) : Out :=
  s.attempt bindLimits fun s =>
    s.withQueue x s.usable fun key _ s => s.behind key fun q s =>
      match s.target s.who (descAddr x) 0 with
      | .error e => (s.stop e, false)
      | .ok (t, s) =>
          match s.writeDesc t q with
          | .error e => (s.stop e, false)
          | .ok s => (s.unbindQueue key, true)

/-- QBIND.CLOSE: the pops that are blocked on the empty queue return (R348, R350). -/
def execQbindClose (x : Fun) (s : State) : Out :=
  s.attempt bindLimits fun s =>
    s.withQueue x s.usable fun key _ s => s.behind key fun _ s =>
      (s.updQueue key fun q => { q with flags := q.flags ||| 8 }).behind key fun _ s => (s, true)

/-- QBIND.OPEN (R350). -/
def execQbindOpen (x : Fun) (s : State) : Out :=
  s.attempt bindLimits fun s =>
    s.withQueue x s.usable fun key _ s => s.behind key fun _ s =>
      (s.updQueue key fun q => { q with flags := q.flags &&& 0xF7 }, true)

/-! ### Doorbells and peers (R307, R382) -/

/-- Such a queue exists (R341). -/
def queueExists (cluster q : Nat) : Bool := cluster < Config.dies * Config.clustersPerDie && q < Config.queuesPerCluster

/-- A doorbell that is discarded (R382, R385). -/
def State.discardBell (s : State) (key off : Nat) (value : Word) : State :=
  s.event { kind := 6, info := BitVec.ofNat 64 (0x10000 + 16 * key + off), value := value.setWidth 64 }

/-- TAILDB, behind those that wait at the queue (R304, R345, R382). -/
def execTaildb (cluster q : Nat) (value : Word) (s : State) : Out :=
  .next (if !queueExists cluster q then s
    else
      let key := cluster * 16 + q
      let s := s.served key
      let k := s.queue key
      if k.bound && value ≠ k.tail && (value - k.head).toNat ≤ k.capacity then s.updQueue key fun k => { k with tail := value }
      else s.discardBell key 0 value)

/-- HEADDB, behind those that wait at the queue (R345, R382). -/
def execHeaddb (cluster q : Nat) (value : Word) (s : State) : Out :=
  .next (if !queueExists cluster q then s
    else
      let key := cluster * 16 + q
      let s := s.served key
      let k := s.queue key
      if k.bound && value ≠ k.head && (value - k.head).toNat ≤ k.count then s.updQueue key fun k => { k with head := value }
      else s.discardBell key 4 value)

/-- The agent of a queue unit for a queue fed from outside. -/
def queueWho (cluster : Nat) (q : Queue) : Who :=
  { core := cluster * 4, engine := true, crew := 0, asid := q.asid, priv := true }

/-- An item from outside goes, behind those that wait at the queue, to the tail of a PEER queue that has room and whose ring page
translates (R307, R345, R389). -/
def State.outsidePush (s : State) (cluster q : Nat) (item : BitVec 512) : Option State :=
  let key := cluster * 16 + q
  let s := s.served key
  let k := s.queue key
  let w := queueWho cluster k
  if queueExists cluster q && k.bound && k.peer && k.space ≠ 0 then
    match s.unitCheck w (k.slot k.tail) 64 with
    | .error _ => none
    | .ok s => some ((s.unitWrite w (k.slot k.tail) (toBytes 64 item.toNat)).updQueue key fun k => { k with tail := k.tail + 1 })
  else none

/-- PEER_PUSH (R307). -/
def execPeerPush (cluster q : Nat) (item : BitVec 512) (s : State) : Out :=
  .next ((s.outsidePush cluster q item).getD s)

/-! ### Boosts (R334-R336) -/

/-- The launches a gang's crew lends its class to (R335). -/
def State.lendsTo (s : State) (g : Gang) : List Nat :=
  (match g.blockedPop with
    | some (key, _) => if (s.queue key).bound then [(s.queue key).prodlid] else []
    | none => []) ++
  (match g.blockedPush with
    | some (key, _) => if (s.queue key).bound then [(s.queue key).conslid] else []
    | none => [])

/-- Every crew with its gangs, pre-empted ones included. -/
def State.everyCrew (s : State) : List (Crew × List Gang) :=
  (s.allCrews.map fun c => (c, s.gangsOf c.id)) ++ s.saved.map fun p => (p.crew, p.gangs)

/-- The highest class lent to a launch. -/
def State.lent (s : State) (lid : Nat) : Nat :=
  maxList (s.everyCrew.map fun e => if e.2.any fun g => (s.lendsTo g).contains lid then e.1.effCls else 0)

/-- Applies a function to every crew, and another to every launch. -/
def State.mapClasses (s : State) (f : Crew → Crew) (h : Launch → Launch) : State :=
  { s with crew := (if s.crew.id = 0 then s.crew else f s.crew), crews := s.crews.map (fun e => (e.1, f e.2)),
           saved := s.saved.map (fun p => { p with crew := f p.crew }), launches := s.launches.map h }

/-- One round of lending: a boosted crew lends in turn (R336). -/
def State.boostRound (s : State) : State :=
  s.mapClasses (fun c => { c with effCls := min 3 (max c.cls (s.lent c.lid)) })
    fun l => { l with effCls := min 3 (max l.r.cls (s.lent l.lid)) }

/-- A crew waits in WAITH on the handle of an operation of its own (R335). -/
def State.awaited (s : State) (o : EngineOp) : Bool :=
  (s.gangsOf o.crewId).any fun g => g.hold.any fun h =>
    match h.why with
    | .handle h => o.handle = some h.entry
    | _ => false

/-- The class of an operation: its crew's own, or the effective one that its crew lends it while it waits (R334, R335). -/
def State.opClass (s : State) (o : EngineOp) : Nat :=
  let c := s.findCrew o.crewId
  if s.awaited o then max c.cls c.effCls else c.cls

/-- BOOST_RECOMPUTE: from each crew's own class as many rounds as there are crews, then the engine operations (R336). -/
def execBoostRecompute (s : State) : Out :=
  let t := s.mapClasses (fun c => { c with effCls := c.cls }) fun l => { l with effCls := l.r.cls }
  let t := s.everyCrew.foldl (fun (t : State) _ => t.boostRound) t
  .next { t with ops := t.ops.map fun o => { o with cls := t.opClass o } }

end Sys2Proof.Machine
end

