-- ==== Sys2Proof/Machine/Traps.lean ====
section
/-! DEFINITION. TRAP and BRK, the return from a trap, the rounding seeds and HALT (R358-R373). -/

namespace Sys2Proof.Machine

/-- ZERO_WORD and ILLEGAL_OPCODE (R63). -/
def cZeroWord : BitVec 8 := 0x00
def cIllegalOpcode : BitVec 8 := 0x01

/-- ILLEGAL_OPCODE_ISSUE: the all-zero word, whose TRAPINFO the spec does not state (free value, log 10), or a word with a
reserved OP (R63). A word with an assigned OP is no such event. -/
def execIllegalOpcodeIssue (w : InstrWord) (s : State) : Out :=
  .next (
    if w = 0 then
      let (v, s) := s.free
      s.trap cZeroWord v
    else if (Op.ofCode (Fields.ofWord w).op).isSome then s
    else s.trap cIllegalOpcode ((w.extractLsb' 64 32).setWidth 64))

/-- BREAKPOINT and the first SOFTWARE_n (R357). -/
def cBreakpoint : BitVec 8 := 0x08
def cSoftware : BitVec 8 := 0xA0

/-- A trap of the strands that pass the guard: the others of the run go on, and no strand means no effect
(R358, R369, R379). -/
def State.trapGuarded (s : State) (h : Hdr) (cause : BitVec 8) (info : Dword) (pc : Pc) : State :=
  let m := s.guard h
  let on := s.run &&& ~~~m
  if m = 0 then s.advance
  else (if on = 0 then s else s.goTo on (nextPc s.ipc)).trapAt cause info pc m false

/-- TRAP: TRAPPC is the next PC (R369). -/
def execTrap (x : Fun) (s : State) : Out :=
  s.control { op := .trap, handler := true } fun s =>
    if !s.flows then s.trap cBadTarget endOfSpace
    else s.trapGuarded x.hdr (cSoftware + BitVec.ofNat 8 (bitsAt x.imm.toNat 0 5)) (s.scalar x.a) (nextPc s.ipc)

/-- BRK: TRAPPC is its own PC (R369). -/
def execBrk (x : Fun) (s : State) : Out :=
  s.control { op := .brk, handler := true } fun s =>
    if s.guard x.hdr ≠ s.run && !s.flows then s.trap cBadTarget endOfSpace
    else s.trapGuarded x.hdr cBreakpoint (BitVec.ofNat 64 (bitsAt x.imm.toNat 0 24)) s.ipc

/-- RFT (R371). A gang that is not in a handler has nothing banked: the strands of its trap record go to TRAPPC, the
others of the run to the next PC (DEDUCED, log 8). -/
def execRft (_x : Fun) (s : State) : Out :=
  s.control { op := .rft, priv := true, ejected := some cEjectedOp } fun s =>
    if s.inHandler then s.returnTrap
    else
      let m := s.gang.trapRun &&& s.gang.live
      let on := s.run &&& ~~~m
      if on ≠ 0 && !s.flows then s.trap cBadTarget endOfSpace
      else ((if on = 0 then s else s.goTo on (nextPc s.ipc)).goTo m s.gang.trapPc)

/-- A seed of 0 loads 1 (R372). -/
def seedOf (x : Nat) : Word := if x % 2 ^ 32 = 0 then 1 else BitVec.ofNat 32 x

/-- SRSEED (R372). -/
def execSrseed (x : Fun) (s : State) : Out :=
  s.sequential { op := .srseed } fun s =>
    (s.active x.hdr).foldl (fun (t : State) i => t.setRoundState false i (seedOf (s.src 32 false x.a x.imm i))) s

/-- SRSEED.G (R372). -/
def execSrseedG (x : Fun) (s : State) : Out :=
  s.sequential { op := .srseed } fun s => s.setRoundState true 0 (seedOf (s.src 32 false x.a x.imm 0))

/-- Where HALT may run (R61, R317). -/
def haltLimits : Limits := { op := .halt, priv := true, ejected := some cEjectedOp }

/-- HALT.WAIT outside a handler: the run moves on, the trap record stays, the event says so (R373). -/
def State.haltOutside (s : State) (value : Dword) : State :=
  let t := s.advance.report (s.gangEvent 1 0 true value)
  { t with gang := { t.gang with suspended := .outside } }

/-- HALT.WAIT (R373). -/
def execHaltWait (x : Fun) (s : State) : Out :=
  s.control haltLimits fun s =>
    let v := s.scalar x.a
    if s.inHandler then s.suspend v
    else if s.flows then s.haltOutside v
    else s.trap cBadTarget endOfSpace

/-- HALT.KILL (R373). -/
def execHaltKill (_x : Fun) (s : State) : Out :=
  s.control haltLimits fun s => s.killCrew s.gang.crewId (BitVec.ofNat 32 (s.gang.trapCause.toNat % 256))

/-! ### What the host decides (R373, R386) -/

/-- A suspended gang is resumed: as RFT does in a handler, else from its PC table (R373, R386). -/
def State.resumeGang (s : State) (id : Nat) : State :=
  let t := s.focus id
  match t.gang.suspended with
  | .no => s
  | .inHandler => t.returnTrap
  | .outside => { t with gang := { t.gang with suspended := .no } }

/-- The crew of a context with a global number (R327, R386). -/
def State.crewNumbered (s : State) (asid : Asid) (number : Nat) : Option Crew :=
  s.allCrews.find? fun c => c.asid = asid && c.number = number

/-- GANGCTL holds what was written to it (R381). -/
def State.noteGangctl (s : State) (action : Nat) (asid : Asid) (crewNo gang : Nat) : State :=
  { s with host := { s.host with
      gangctl := BitVec.ofNat 64 (asid.toNat + crewNo % 2 ^ 32 * 2 ^ 16 + gang % 32 * 2 ^ 48 + action * 2 ^ 54) } }

/-- GANG_RESUME (R386). -/
def execGangResume (asid : Asid) (crewNo gang : Nat) (s : State) : Out :=
  .next (
    let s := s.noteGangctl 1 asid crewNo gang
    match s.crewNumbered asid crewNo with
    | none => s
    | some c =>
        match (s.gangsOf c.id).find? fun g => g.ej.isNone && g.idx = gang with
        | none => s
        | some g => s.resumeGang g.id)

/-- The cause a host kill reports: that of a gang that trapped and has not returned (R353, R386). -/
def State.trappedCause (s : State) (crew : Nat) : Word :=
  match (s.gangsOf crew).find? fun g => g.handler.isSome with
  | some g => BitVec.ofNat 32 (g.trapCause.toNat % 256)
  | none => 0

/-- CREW_KILL: whatever state the crew is in, pre-empted ones too; GANG is kept and acts on nothing (R381, R386). -/
def execCrewKill (asid : Asid) (crew : CrewGang) (s : State) : Out :=
  .next (
    let s := s.noteGangctl 2 asid crew.number crew.gang
    match s.crewNumbered asid crew.number with
    | some c => s.killCrew c.id (s.trappedCause c.id)
    | none =>
        let kill (p : SavedCrew) : SavedCrew :=
          if p.crew.asid = asid && p.crew.number = crew.number && p.crew.ended = .running then
            { crew := { p.crew with ended := .killed 0 }, gangs := p.gangs.map Gang.kill }
          else p
        { s with saved := s.saved.map kill })

end Sys2Proof.Machine
end

