-- ==== Sys2Proof/Machine/SysRegs.lean ====
section
/-! DEFINITION. The system registers and MFSR, MTSR (R79, R86, R116, R121, R128, R161, R164, R325, R354, R365-R367,
R370). -/

namespace Sys2Proof.Machine

/-- A system register (R365). -/
inductive SysReg where
  | crewctl | ejectmax | rejoinwait | agemax | qwaitmax | fpstat | smask | spass | locates | demotes | fused
  | softerr | asid | ptroot | privhw | caproots | parkctl | parkquota | trapvec
  | trapcause | trappc | trapinfo | traprun | sldsel | sldva | sldpc
deriving DecidableEq, Repr

/-- The register of a number; none where it is unassigned (R365). -/
def SysReg.ofNumber (n : Nat) : Option SysReg :=
  match n with
  | 0x000 => some .crewctl | 0x001 => some .ejectmax | 0x002 => some .rejoinwait | 0x003 => some .agemax
  | 0x004 => some .qwaitmax | 0x010 => some .fpstat | 0x011 => some .smask | 0x012 => some .spass
  | 0x013 => some .locates | 0x014 => some .demotes | 0x015 => some .fused | 0x020 => some .softerr
  | 0x021 => some .asid | 0x100 => some .ptroot | 0x101 => some .privhw | 0x102 => some .caproots
  | 0x103 => some .parkctl | 0x104 => some .parkquota | 0x105 => some .trapvec | 0x200 => some .trapcause
  | 0x201 => some .trappc | 0x202 => some .trapinfo | 0x203 => some .traprun | 0x210 => some .sldsel
  | 0x211 => some .sldva | 0x212 => some .sldpc | _ => none

/-- Marked privileged (R365). -/
def SysReg.isPriv : SysReg → Bool
  | .ptroot | .privhw | .caproots | .parkctl | .parkquota | .trapvec | .trapcause | .trappc | .trapinfo | .traprun
  | .sldsel | .sldva | .sldpc => true
  | _ => false

/-- Read-only (R365). -/
def SysReg.readOnly : SysReg → Bool
  | .softerr | .asid | .trapcause | .trapinfo | .traprun | .sldva | .sldpc => true
  | _ => false

/-- Belongs to the context (R365). -/
def SysReg.ofContext : SysReg → Bool
  | .asid | .ptroot | .privhw | .caproots | .parkctl | .parkquota | .trapvec => true
  | _ => false

/-- The bits of a register that a write sets; reserved ones have none (R4). -/
def SysReg.mask : SysReg → Dword
  | .crewctl => 1
  | .ejectmax => 0xF
  | .rejoinwait | .qwaitmax => 0xFFFFFFFF
  | .agemax => 0x7F
  | .fpstat | .sldsel => 0xFF
  | .smask => 0x3FFFFFFFF
  | .ptroot => 0x3FFFFFFF000
  | .privhw => 0xFFFFFFFF0000
  | .caproots => 0xFFFFFFFFFC7F
  | .parkctl => 0xFFFFFFFFFE03
  | .parkquota => 0xFFFFFFFFFFFF
  | .trapvec => 0x01FFFFFFFFFFFFC1
  | .trappc => 0x01FFFFFFFFFFFFFF
  | _ => 0xFFFFFFFFFFFFFFFF

/-- The gang whose registers these are: an ejected strand has its own flags, and its gang's other registers
(R317, R370). -/
def State.home (s : State) : Gang := s.findGang s.logGang

/-- The entry of the last reported discard that SLDSEL selects (R367). -/
def Gang.sld (g : Gang) : Dword × Pc := g.discard.getD g.sldsel.toNat (0, 0)

/-- The value of a register (R365). -/
def State.readSys (s : State) (r : SysReg) : Dword :=
  let c := s.crew
  let x := s.sys.ctxD c.asid
  let h := s.home
  match r with
  | .crewctl => if c.crewctl then 1 else 0
  | .ejectmax => c.ejectMax.setWidth 64
  | .rejoinwait => c.rejoinWait.setWidth 64
  | .agemax => c.ageMax.setWidth 64
  | .qwaitmax => c.qwaitMax.setWidth 64
  | .fpstat => s.gang.fpstat.setWidth 64
  | .smask => h.smask
  | .spass => h.spass
  | .locates => c.locates
  | .demotes => c.demotes
  | .fused => c.fused
  | .softerr => (s.sys.core s.core).softerr
  | .asid => c.asid.setWidth 64
  | .ptroot => x.ptroot
  | .privhw => x.privhw
  | .caproots => x.caproots
  | .parkctl => x.parkctl
  | .parkquota => x.parkquota
  | .trapvec => x.trapvec
  | .trapcause => h.trapCause.setWidth 64
  | .trappc => h.trapPc
  | .trapinfo => h.trapInfo
  | .traprun => h.trapRun.setWidth 64
  | .sldsel => h.sldsel.setWidth 64
  | .sldva => h.sld.1 &&& 0x01FFFFFFFFFFFFFF
  | .sldpc => h.sld.2 &&& 0x01FFFFFFFFFFFFFF

/-- Writes a crew register (R366). -/
def Crew.writeSys (c : Crew) (r : SysReg) (x : Dword) : Crew :=
  match r with
  | .crewctl => { c with crewctl := x.getLsbD 0 }
  | .ejectmax => { c with ejectMax := x.setWidth 4 }
  | .rejoinwait => { c with rejoinWait := x.setWidth 32 }
  | .agemax => { c with ageMax := x.setWidth 7 }
  | .qwaitmax => { c with qwaitMax := x.setWidth 32 }
  | .locates => { c with locates := x }
  | .demotes => { c with demotes := x }
  | .fused => { c with fused := x }
  | _ => c

/-- Writes a gang register other than FPSTAT. -/
def Gang.writeSys (g : Gang) (r : SysReg) (x : Dword) : Gang :=
  match r with
  | .smask => { g with smask := x }
  | .spass => { g with spass := x }
  | .trappc => { g with trapPc := x }
  | .sldsel => { g with sldsel := x.setWidth 8 }
  | _ => g

/-- Writes a context register; PARKCTL besides latches its table (R116). -/
def Context.writeSys (c : Context) (r : SysReg) (x : Dword) : Context :=
  match r with
  | .ptroot => { c with ptroot := x }
  | .privhw => { c with privhw := x }
  | .caproots => { c with caproots := x }
  | .parkctl => { c with parkctl := x }
  | .parkquota => { c with parkquota := x }
  | .trapvec => { c with trapvec := x }
  | _ => c

/-- Writes a register; reserved bits stay 0 (R4, R366). -/
def State.writeSys (s : State) (r : SysReg) (x : Dword) : State :=
  let x := x &&& r.mask
  let s : State := if r = .fpstat then { s with gang := { s.gang with fpstat := x.setWidth 8 } } else s
  let s := s.updGang s.logGang fun g => g.writeSys r x
  { s with crew := s.crew.writeSys r x, sys := s.sys.updCtx s.crew.asid fun c => c.writeSys r x }

/-- SR_ACCESS (R357). -/
def cSrAccess : BitVec 8 := 0x09

/-- The number an instruction names (R368). -/
def sysNumber (x : Fun) : Nat := bitsAt x.imm.toNat 0 12

/-- The named register is privileged (R61). -/
def sysPriv (x : Fun) : Bool := (SysReg.ofNumber (sysNumber x)).any SysReg.isPriv

/-- MFSR (R370). -/
def execMfsr (x : Fun) (s : State) : Out :=
  s.attempt { op := .mfsr, priv := sysPriv x } fun s =>
    match SysReg.ofNumber (sysNumber x) with
    | none => (s.trap cSrAccess (BitVec.ofNat 64 (sysNumber x)), false)
    | some r => (s.deliver x.d 8 false [(0, (s.readSys r).toNat)], true)

/-- The write of MTSR: a read-only register, then an ejected strand and a context register (R370). -/
def State.mtsrOp (s : State) (x : Fun) (f : SysReg → State → State × Bool) : State × Bool :=
  match SysReg.ofNumber (sysNumber x) with
  | none => (s.trap cSrAccess (BitVec.ofNat 64 (sysNumber x)), false)
  | some r =>
      if r.readOnly then (s.trap cSrAccess (BitVec.ofNat 64 (sysNumber x)), false)
      else
        match s.gang.ej with
        | some e =>
            if r.ofContext then (s.trap cEjectedOp (BitVec.ofNat 64 (Op.mtsr.code.toNat + 256 * e.strand)), false) else f r s
        | none => f r s

/-- MTSR of any register but PARKCTL (R370). -/
def execMtsr (x : Fun) (s : State) : Out :=
  s.attempt { op := .mtsr, priv := sysPriv x } fun s => s.mtsrOp x fun r s => (s.writeSys r (s.scalar x.a), true)

/-- The entries of a reader-set table (R114). -/
def tableEntries (b : List Byte) : Sparse Dword :=
  (List.range 64).foldl (fun m k => Sparse.put 0 m k (BitVec.ofNat 64 (fromBytes ((b.drop (8 * k)).take 8)))) []

/-- The address of the table PARKCTL names (R116). -/
def tableVa (x : Dword) : Nat := Config.ownBase + bitsAt x.toNat 9 39 * 512

/-- Reads a context's table as the issuing core does (R114, R116). -/
def State.readTable (s : State) (w : Who) (x : Dword) : Except Stop (List Byte × State) :=
  match s.leaves w .load (splitParts 128 (tableVa x) 512) with
  | .error e => .error e
  | .ok (ls, s) => .ok (s.readParts w 0 ls)

/-- Latches a table (R114). -/
def State.latch (s : State) (asid : Asid) (t : Sparse Dword) : State :=
  { s with sys := s.sys.updCtx asid fun c => { c with table := t } }

/-- MTSR of PARKCTL: the table is read and latched, and the gang holds as for a load (R114, R116). -/
def execMtsrParkctl (x : Fun) (s : State) : Out :=
  s.attempt { op := .mtsr, priv := true } fun s =>
    s.mtsrOp x fun _ s =>
      let v := s.scalar x.a &&& SysReg.mask .parkctl
      if s.pageLogged s.core s.crew.asid (tableVa v / 65536) then
        (s.wait (.logPage s.crew.asid (tableVa v / 65536)), false)
      else
        match s.readTable s.who v with
        | .error e => (s.stop e, false)
        | .ok (b, t) => ((t.writeSys .parkctl v).latch s.crew.asid (tableEntries b), true)

end Sys2Proof.Machine
end

