-- ==== Sys2Proof/Machine/Tlb.lean ====
section
/-! DEFINITION. TLBINV (R375): the invalidation of a range in every cache, and the splinter of a large page (R101). -/

namespace Sys2Proof.Machine

/-! ### Invalidation (R99, R102, R123, R375) -/

/-- A set of translations: a predicate of the context and the 64 KiB unit. -/
abbrev Units := Asid → Nat → Bool

/-- One core's L1: dirty bytes of the range are written home, its lines dropped. -/
def State.expelUnits (s : State) (w : Who) (p : Units) (core : Nat) : State :=
  ((s.sys.core core).l1.filter fun l => p l.asid (l.line / 512)).foldl (fun (s : State) l =>
    s.l1Expel w core l.asid l.line) s

/-- The frames whose reverse-map record lies in the range; those with ALIASED set (R102). -/
def Sys.recordsIn (y : Sys) (p : Units) : List (Nat × RevRec) := y.rev.filter fun e => e.2.v && p e.2.asid e.2.vpn

/-- A translation maps a unit of a range, or one of the frames. -/
def Tlb.meets (t : Tlb) (p : Units) (frames : List Nat) : Bool :=
  (List.range t.units).any (fun k => p t.asid (t.vpn + k)) || frames.any fun f => t.pa / 65536 ≤ f && f < t.pa / 65536 + t.units

/-- The translations, reverse map, directory and instruction buffers without a range: dirty bytes reach memory first (R40,
R99, R102). -/
def Sys.dropUnits (y : Sys) (w : Who) (p : Units) : Sys :=
  let gone := y.recordsIn p
  let aliased := (gone.filter fun e => e.2.aliased).map Prod.fst
  let lines := (y.dir.filter fun e => p (keyAsid e.1) (keyLine e.1 / 512)).map Prod.fst
  let cores := y.cores.map Prod.fst
  let y := lines.foldl (fun (y : Sys) k => y.toMemory w k (BitVec.allOnes 128)) y
  let y := { y with mtlb := y.mtlb.filter fun t => !t.meets p aliased,
                    rev := gone.foldl (fun m e => Sparse.drop m e.1) y.rev,
                    dir := lines.foldl (fun d k => Sparse.put {} d k (d.get {} k).expelled) y.dir }
  cores.foldl (fun (y : Sys) c => y.updCore c fun k =>
    { k with ibuf := k.ibuf.filter fun l => !p l.asid (l.line / 1024) }) y

/-- The actions of TLBINV on a range (R375). -/
def State.invalidate (s : State) (w : Who) (p : Units) : State :=
  let s := (s.sys.cores.map Prod.fst).foldl (fun (s : State) c => s.expelUnits w p c) s
  { s with sys := s.sys.dropUnits w p }

/-! ### Descriptors (R101) -/

/-- A TLBINV descriptor. -/
structure TlbDesc where
  vpn : Nat
  asid : Asid
  count : Nat
  template : Nat
  area : Nat
  malformed : Bool
deriving DecidableEq, Repr

/-- Reads a descriptor of 16 or 32 bytes; `va` is where it lies. -/
def TlbDesc.ofBytes (va : Nat) (b : List Byte) : TlbDesc :=
  let n := fromBytes b
  let t := bitsAt n 128 64
  let area := bitsAt n 192 64
  { vpn := bitsAt n 16 48, asid := BitVec.ofNat 16 (bitsAt n 64 16), count := bitsAt n 96 32, template := t, area := area,
    malformed := va % b.length ≠ 0 || bitsAt n 0 16 ≠ 0 || bitsAt n 80 16 ≠ 0 || bitsAt n 96 32 = 0 ||
      bitsAt t 6 2 ≠ 0 || bitsAt t 42 7 ≠ 0 || area % 256 ≠ 0 }

/-- The units a descriptor names. -/
def TlbDesc.units (d : TlbDesc) : Units := fun a v => a = d.asid && d.vpn ≤ v && v < d.vpn + d.count

/-! ### Splintering (R101) -/

/-- A large leaf: the address of its entry, its level (2 or 3) and the entry. -/
structure BigLeaf where
  entry : Nat
  level : Nat
  pte : Nat
deriving DecidableEq, Repr

/-- The large leaf over an address: the walk of R97 down to level 3. -/
def Sys.bigLeaf (y : Sys) (va : Nat) : Nat → Nat → Nat → Option BigLeaf
  | 0, _, _ => none
  | fuel + 1, level, node =>
      let at' := node + 8 * bitsAt va (ptShift level) (ptBits level)
      let pte := y.num at' 8
      if pte % 2 = 0 then none
      else if pte / 2 % 2 = 1 then (if level = 2 || level = 3 then some { entry := at', level := level, pte := pte } else none)
      else y.bigLeaf va fuel (level + 1) (bitsAt pte 8 34 * 256)

/-- Units of 64 KiB a leaf of a level maps. -/
def leafUnits (level : Nat) : Nat := 2 ^ (ptShift level - 16)

/-- A leaf entry: software and attribute bits of `bits`, a frame. -/
def leafEntry (sw attr frame : Nat) : Nat := sw / 2 ^ 49 * 2 ^ 49 + bitsAt frame 8 34 * 256 + bitsAt attr 2 4 * 4 + 3

/-- The entry of unit `u` of the large page: the template inside the range, the old mapping outside. -/
def TlbDesc.unit (d : TlbDesc) (l : BigLeaf) (first u : Nat) : Nat :=
  let v := first + u
  let old := bitsAt l.pte 8 34 * 256 + u * 65536
  let new := bitsAt d.template 8 34 * 256
  if d.vpn ≤ v && v < d.vpn + d.count then
    leafEntry l.pte d.template (if new = 0 then old else new + (v - d.vpn) * 65536)
  else leafEntry l.pte l.pte old

/-- How many units of a region of 32 the range names. -/
def TlbDesc.named (d : TlbDesc) (first region : Nat) : Nat :=
  ((List.range 32).filter fun i =>
    let v := first + region * 32 + i
    d.vpn ≤ v && v < d.vpn + d.count).length

/-- A pointer entry. -/
def pointerEntry (node : Nat) : Nat := bitsAt node 8 34 * 256 + 1

/-- A level-4 node with the entries of a region. -/
def Sys.writeNode (y : Sys) (d : TlbDesc) (l : BigLeaf) (first region node : Nat) : Sys :=
  (List.range 32).foldl (fun (y : Sys) i => y.setNum (node + 8 * i) 8 (d.unit l first (region * 32 + i))) y

/-- The entry of a region of 2 MiB: a leaf when the range names all of it or none, else a node taken from the area. -/
def Sys.regionEntry (y : Sys) (d : TlbDesc) (l : BigLeaf) (first region area : Nat) : Nat × Nat × Sys :=
  let n := d.named first region
  if n = 0 || n = 32 then (d.unit l first (region * 32), area, y)
  else (pointerEntry area, area + 256, y.writeNode d l first region area)

/-- The regions of the large page that need a node. -/
def TlbDesc.partialRegions (d : TlbDesc) (level first : Nat) : Nat :=
  ((List.range (leafUnits level / 32)).filter fun r => d.named first r ≠ 0 && d.named first r ≠ 32).length

/-- Bytes of node area the splinter needs. -/
def TlbDesc.areaNeed (d : TlbDesc) (level first : Nat) : Nat :=
  (if level = 2 then 4096 else 0) + 256 * d.partialRegions level first

/-- Builds the new lower levels and replaces the large entry by one write. -/
def Sys.splinter (y : Sys) (d : TlbDesc) (l : BigLeaf) (first : Nat) : Sys :=
  if l.level = 3 then
    let (e, _, y) := y.regionEntry d l first 0 d.area
    y.setNum l.entry 8 e
  else
    let (y, _) := (List.range 512).foldl (fun (a : Sys × Nat) r =>
      let (e, area, y) := a.1.regionEntry d l first r a.2
      (y.setNum (d.area + 8 * r) 8 e, area)) (y, d.area + 4096)
    y.setNum l.entry 8 (pointerEntry d.area)

/-- A splinter: its status, and the state where it is 0 (R101, R375). A VA above bit 56 lies in no leaf. -/
def State.splinterOp (s : State) (w : Who) (d : TlbDesc) : Nat × State :=
  if d.malformed then (1, s)
  else if (s.sys.ctx d.asid).isNone || 2 ^ 41 ≤ d.vpn then (4, s)
  else
    match s.sys.bigLeaf (d.vpn * 65536) 4 0 (bitsAt (s.sys.ctxD d.asid).ptroot.toNat 12 30 * 4096) with
    | none => (4, s)
    | some l =>
        let n := leafUnits l.level
        let first := d.vpn / n * n
        if first + n < d.vpn + d.count then (2, s)
        else if (l.level = 2 && d.area % 4096 ≠ 0) || Config.memTop < d.area + d.areaNeed l.level first then (3, s)
        else
          let y := s.sys.splinter d l first
          let y := { y with mtlb := y.mtlb.filter fun t => !(t.asid = d.asid && first < t.vpn + t.units && t.vpn < first + n) }
          (0, ({ s with sys := y } : State).invalidate w d.units)

/-! ### TLBINV (R375) -/

/-- Where TLBINV may run (R61, R317). -/
def tlbLimits : Limits := { op := .tlbinv, priv := true, ejected := some cEjectedOp }

/-- The status of a TLBINV. -/
def State.tlbStatus (s : State) (x : Fun) (n : Nat) : State := s.deliver x.d 8 false [(0, n)]

/-- A TLBINV form: the gang's stores are released at device scope first, its side log's too. -/
def State.tlbForm (s : State) (f : State → State × Bool) : State × Bool :=
  s.releasing fun s => f (s.release s.who 5)

/-- A form with a descriptor of `n` bytes, read as a load of the gang; a misaligned one is malformed. -/
def State.withDesc (s : State) (x : Fun) (n : Nat) (f : TlbDesc → State → State) : State × Bool :=
  let va := (s.scalar x.a).toNat
  if va % n ≠ 0 then (s.tlbStatus x 1, true)
  else
    s.loadAll .load { size := n, capb := false, a := x.a, b := .none, off := 0, need := 0 } 0 0 0 [0] fun l s =>
      f (TlbDesc.ofBytes va (l.flatMap fun y => y.data)) s

/-- TLBINV.RANGE (R375). -/
def execTlbinvRange (x : Fun) (s : State) : Out :=
  s.attempt tlbLimits fun s => s.tlbForm fun s => s.withDesc x 16 fun d s =>
    if d.malformed then s.tlbStatus x 1 else (s.invalidate s.who d.units).tlbStatus x 0

/-- TLBINV.ASID (R375). -/
def execTlbinvAsid (x : Fun) (s : State) : Out :=
  s.attempt tlbLimits fun s => s.tlbForm fun s =>
    let asid : Asid := (s.scalar x.a).setWidth 16
    ((s.invalidate s.who fun a _ => a = asid).tlbStatus x 0, true)

/-- TLBINV.ALL (R375). -/
def execTlbinvAll (x : Fun) (s : State) : Out :=
  s.attempt tlbLimits fun s => s.tlbForm fun s => ((s.invalidate s.who fun _ _ => true).tlbStatus x 0, true)

/-- TLBINV.SPLINTER (R101). -/
def execTlbinvSplinter (x : Fun) (s : State) : Out :=
  s.attempt tlbLimits fun s => s.tlbForm fun s => s.withDesc x 32 fun d s =>
    let (n, t) := s.splinterOp s.who d
    t.tlbStatus x n

end Sys2Proof.Machine
end

