-- ==== Sys2Proof/Machine/Contexts.lean ====
section
/-! DEFINITION. Context records, CTXSAVE and CTXLOAD (R376-R378), and the host's context loads (R387). The form of a
side-log entry in a record, past its core, is the model's own. -/

namespace Sys2Proof.Machine

/-! ### Side-log entries in a record (R377) -/

/-- One lane in an entry: strand, address, length, tag, bytes, and the further parts of a split word. -/
def LogLane.toBytes (l : LogLane) : List Byte :=
  Sys2Proof.toBytes 1 l.strand ++ Sys2Proof.toBytes 8 l.va.toNat ++ Sys2Proof.toBytes 1 l.data.length ++
    Sys2Proof.toBytes 1 (match l.tag with
      | none => 0
      | some t => if t then 2 else 1) ++ l.data ++ Sys2Proof.toBytes 1 l.rest.length ++
    l.rest.flatMap fun p => Sys2Proof.toBytes 8 p.1 ++ Sys2Proof.toBytes 1 p.2

/-- The 1024 bytes of an entry, its core in bytes 1-0. -/
def LogEntry.toBytes (e : LogEntry) : List Byte :=
  let head := Sys2Proof.toBytes 2 e.core ++ Sys2Proof.toBytes 8 e.page ++ Sys2Proof.toBytes 8 e.crewId ++
    Sys2Proof.toBytes 8 e.gangId ++ Sys2Proof.toBytes 4 e.crewNumber ++ Sys2Proof.toBytes 8 e.exitRec.toNat ++
    Sys2Proof.toBytes 1 e.size ++ Sys2Proof.toBytes 1 ((e.op.map BitVec.toNat).getD 0xFF) ++
    Sys2Proof.toBytes 2 e.rset.toNat ++ Sys2Proof.toBytes 1 e.scope ++ Sys2Proof.toBytes 1 e.order ++
    Sys2Proof.toBytes 8 e.pc.toNat ++ Sys2Proof.toBytes 1 ((if e.priv then 1 else 0) + if e.eject then 2 else 0) ++
    Sys2Proof.toBytes 4 e.strands.toNat ++ Sys2Proof.toBytes 1 e.lanes.length
  let all := head ++ e.lanes.flatMap LogLane.toBytes
  all ++ List.replicate (1024 - all.length) 0

/-- Bytes of an entry before its lanes. -/
def entryHead : Nat := 58

/-- The further parts of a split word, `n` of them. -/
def readLogRest : Nat → List Byte → List (Nat × Nat)
  | 0, _ => []
  | n + 1, b => (fromBytes (b.take 8), (b.getD 8 0).toNat) :: readLogRest n (b.drop 9)

/-- The lanes of an entry, `n` of them. -/
def readLogLanes : Nat → List Byte → List LogLane
  | 0, _ => []
  | n + 1, b =>
      let len := (b.getD 9 0).toNat
      let tag := (b.getD 10 0).toNat
      let parts := (b.getD (11 + len) 0).toNat
      { strand := (b.getD 0 0).toNat, va := BitVec.ofNat 64 (fromBytes ((b.drop 1).take 8)),
        data := (b.drop 11).take len, tag := if tag = 0 then none else some (tag = 2),
        rest := readLogRest parts (b.drop (12 + len)) } ::
        readLogLanes n (b.drop (12 + len + 9 * parts))

/-- An entry from its bytes, for a context. -/
def LogEntry.ofBytes (asid : Asid) (b : List Byte) : LogEntry :=
  let f (i n : Nat) : Nat := fromBytes ((b.drop i).take n)
  { asid := asid, page := f 2 8, crewId := f 10 8, gangId := f 18 8, crewNumber := f 26 4, exitRec := BitVec.ofNat 64 (f 30 8),
    strands := BitVec.ofNat 32 (f 53 4), lanes := readLogLanes (f 57 1) (b.drop entryHead), size := f 38 1,
    op := if f 39 1 = 0xFF then none else some (BitVec.ofNat 4 (f 39 1)), rset := BitVec.ofNat 16 (f 40 2),
    scope := f 42 1, order := f 43 1, pc := BitVec.ofNat 64 (f 44 8), priv := f 52 1 % 2 = 1, core := f 0 2,
    eject := f 52 1 / 2 % 2 = 1 }

/-- The lanes of an entry that fit its bytes in a record, at least one, and those left over. -/
def fitLanes (room : Nat) : List LogLane → List LogLane × List LogLane
  | [] => ([], [])
  | x :: rest =>
      let n := x.toBytes.length
      let next := rest.headD x
      if rest.isEmpty || room < n + next.toBytes.length then ([x], rest)
      else
        let (a, b) := fitLanes (room - n) rest
        (x :: a, b)

/-- Entries that fit 1024 bytes, their lanes in order. `fuel` bounds how many one gives. -/
def splitEntry : Nat → LogEntry → List LogEntry
  | 0, e => [e]
  | fuel + 1, e =>
      let (a, b) := fitLanes (1024 - entryHead) e.lanes
      if b.isEmpty then [e] else { e with lanes := a } :: splitEntry fuel { e with lanes := b }

/-- The side-log entries of a context, core by core in log order. -/
def Sys.entriesOf (y : Sys) (asid : Asid) : List LogEntry :=
  ((y.cores.flatMap fun c => c.2.log).filter fun e => e.asid = asid).flatMap fun e => splitEntry e.lanes.length e

/-! ### Context records (R377) -/

/-- MAGIC. -/
def ctxMagic : Nat := 0x52545843

/-- SIZE of a record (R377). -/
def recordSize (entries : Nat) : Nat := 256 + 1024 * entries

/-- Bytes 127-0 of a record. -/
def Context.head (c : Context) (entries : Nat) : List Byte :=
  toBytes 4 ctxMagic ++ toBytes 2 c.asid.toNat ++ toBytes 2 0 ++ toBytes 4 entries ++ toBytes 4 (recordSize entries) ++
    toBytes 8 c.ptroot.toNat ++ toBytes 8 c.privhw.toNat ++ toBytes 8 c.caproots.toNat ++ toBytes 8 c.parkctl.toNat ++
    toBytes 8 c.parkquota.toNat ++ toBytes 8 c.trapvec.toNat ++ List.replicate 64 0

/-- A record: header, digest, entries. -/
def Context.record (c : Context) (l : List LogEntry) : List Byte :=
  let head := c.head l.length
  let tail := l.flatMap LogEntry.toBytes
  head ++ toBytes 64 (sha3 (head ++ tail)).toNat ++ List.replicate 64 0 ++ tail

/-- The registers of a record; reserved bits stay 0 (R4). -/
def Context.ofRecord (b : List Byte) : Context :=
  let f (i : Nat) : Dword := BitVec.ofNat 64 (fromBytes ((b.drop i).take 8))
  { asid := BitVec.ofNat 16 (fromBytes ((b.drop 4).take 2)), ptroot := f 16 &&& SysReg.mask .ptroot,
    privhw := f 24 &&& SysReg.mask .privhw, caproots := f 32 &&& SysReg.mask .caproots,
    parkctl := f 40 &&& SysReg.mask .parkctl, parkquota := f 48 &&& SysReg.mask .parkquota,
    trapvec := f 56 &&& SysReg.mask .trapvec, table := [] }

/-- ENTRIES and SIZE of a record's header. -/
def recordEntries (b : List Byte) : Nat := fromBytes ((b.drop 8).take 4)
def recordSizeField (b : List Byte) : Nat := fromBytes ((b.drop 12).take 4)

/-- A record of `room` bytes may be installed: MAGIC, SIZE, zero fields; `b` are its first 256 bytes (R377, R378). -/
def headOk (b : List Byte) (room : Nat) : Bool :=
  b.length = 256 && fromBytes (b.take 4) = ctxMagic && fromBytes ((b.drop 6).take 2) = 0 &&
    recordSizeField b = recordSize (recordEntries b) && recordSizeField b ≤ room &&
    fromBytes ((b.drop 64).take 64) = 0 && fromBytes ((b.drop 192).take 64) = 0

/-- The digest of a whole record agrees (R377). -/
def digestOk (b : List Byte) : Bool := (sha3 (b.take 128 ++ b.drop 256)).toNat = fromBytes ((b.drop 128).take 64)

/-- The entries of a whole record. -/
def recordLog (asid : Asid) (b : List Byte) : List LogEntry :=
  (List.range (recordEntries b)).map fun i => LogEntry.ofBytes asid ((b.drop (256 + 1024 * i)).take 1024)

/-! ### Statuses (R378) -/

def ctxBusy : Nat := 1
def ctxAbsent : Nat := 2
def ctxShort : Nat := 3
def ctxBadRecord : Nat := 4
def ctxDuplicate : Nat := 5
def ctxFull : Nat := 6

/-! ### CTXSAVE -/

/-- A crew of the context is resident or waits for placement (R378). -/
def State.ctxInUse (s : State) (asid : Asid) : Bool :=
  (s.allCrews.any fun c => c.asid = asid) || (s.saved.any fun p => p.crew.asid = asid) ||
    s.launches.any fun l => l.r.asid = asid && l.placed < l.r.cohorts

/-- Bytes a system instruction writes with the gang's rights: the issuing core's copies of the lines go home first. -/
def State.systemWrite (s : State) (c : Cap) (b : List Byte) : Except Stop State :=
  if c.inScratch then .ok { s with crew := s.crew.scratchWrite (c.base - Config.scratchBase) b false }
  else
    match s.unitCheck s.unitWho c.base b.length with
    | .error e => .error e
    | .ok s =>
        let lines := distinct ((splitParts 128 c.base b.length).map fun p => p.1 / 128)
        let s := lines.foldl (fun (s : State) n => s.l1Expel s.who s.core s.crew.asid n) s
        .ok (s.unitWrite s.unitWho c.base b)

/-- The logs without a context's entries. -/
def Sys.dropEntries (y : Sys) (asid : Asid) : Sys :=
  (y.cores.map Prod.fst).foldl (fun (y : Sys) c => y.updCore c fun k =>
    { k with log := k.log.filter fun e => e.asid ≠ asid }) y

/-- TLBINV.ASID of a context, with the release it begins with (R375, R378). -/
def State.expelContext (s : State) (asid : Asid) : State := (s.release s.who 5).invalidate s.who fun a _ => a = asid

/-- CTXSAVE reaches its step 3 and must wait for the gang's own side-log entries (R105, R375, R378). -/
def State.ctxReleases (s : State) (asid : Asid) (cr : Cap) : Bool :=
  !s.ctxInUse asid && (s.sys.ctx asid).isSome && recordSize (s.sys.entriesOf asid).length ≤ cr.len &&
    s.logBlocked (BitVec.allOnes 32)

/-- Steps 1 to 6 of CTXSAVE; an error is the stop of the record's write (R378). The record holds the entries that the
invalidation's write-backs left in the logs too (R107). -/
def State.saveContext (s : State) (asid : Asid) (cr : Cap) : Except Stop (Nat × State) :=
  let size (s : State) := recordSize (s.sys.entriesOf asid).length
  if s.ctxInUse asid then .ok (ctxBusy + size s * 2 ^ 32, s)
  else
    match s.sys.ctx asid with
    | none => .ok (ctxAbsent + size s * 2 ^ 32, s)
    | some c =>
        let t := s.expelContext asid
        let size := size t
        if cr.len < size then .ok (ctxShort + size * 2 ^ 32, s)
        else
          match t.systemWrite cr (c.record (t.sys.entriesOf asid)) with
          | .error e => .error e
          | .ok s =>
              let y := s.sys.dropEntries asid
              .ok (size * 2 ^ 32, { s with sys := { y with ctxs := Sparse.drop y.ctxs asid.toNat } })

/-- Where the context instructions may run (R61, R317). -/
def ctxLimits (o : Op) : Limits := { op := o, priv := true, ejected := some cEjectedOp }

/-! ### CTXLOAD -/

/-- Bytes a system instruction reads as a load of the gang. -/
def State.systemRead (s : State) (va n : Nat) : Except Stop (List Byte × State) :=
  if (windowOf va).1 = .scratch then .ok (s.crew.scratchRead (va - Config.scratchBase) n, s)
  else
    match s.leaves s.who .load (splitParts 128 va n) with
    | .error e => .error e
    | .ok (ls, s) => .ok (s.readParts s.who 0 ls)

/-- A record read through a capability: its header, then all of it where the header holds; a bad one is none. -/
def State.readRecord (s : State) (c : Cap) : Except Stop (Option (List Byte) × State) :=
  match s.systemRead c.base (min 256 c.len) with
  | .error e => .error e
  | .ok (h, s) =>
      if !headOk h c.len then .ok (none, s)
      else
        match s.systemRead c.base (recordSizeField h) with
        | .error e => .error e
        | .ok (b, s) => .ok (if digestOk b then some b else none, s)

/-- The status a good record meets besides (R378): 0 where it may be installed. -/
def Sys.residence (y : Sys) (asid : Asid) : Nat :=
  if (y.ctx asid).isSome then ctxDuplicate else if Config.maxContexts ≤ y.ctxs.length then ctxFull else 0

/-- Every instruction buffer is empty (R40). -/
def Sys.dropBuffers (y : Sys) : Sys :=
  (y.cores.map Prod.fst).foldl (fun (y : Sys) c => y.updCore c fun k => { k with ibuf := [] }) y

/-- Installs a record's registers, latches its table and empties the buffers; a fault of the table is the error
(R114, R378). -/
def State.install (s : State) (core : Nat) (b : List Byte) : Except Stop State :=
  let c := Context.ofRecord b
  let s : State := { s with sys := { s.sys.dropBuffers with ctxs := Sparse.insert s.sys.ctxs c.asid.toNat c } }
  match s.unitRead { core := core, engine := true, crew := 0, asid := c.asid, priv := true } (tableVa c.parkctl) 512 with
  | .error e => .error e
  | .ok (t, s) => .ok (s.latch c.asid (tableEntries t))

/-- The entries of a load are installed, or the gang waits for room (R378). -/
def State.loadEntries (s : State) (x : Fun) (l : List LogEntry) : State × Bool :=
  let (rest, t) := s.returnEntries l
  if rest.isEmpty then (t.deliver x.d 8 false [(0, 0)], true) else (t.wait (.ctxload x rest), false)

/-- A fault of another context's page holds the gang (R100, R114). -/
def State.stopFor (s : State) (asid : Asid) : Stop → State
  | .trap c => s.trap c.1 c.2
  | .fault va acc f =>
      if f.refused then (s.recordFault va asid acc f s.core).trap f.cause (f.info va)
      else
        let (id, s) := s.openFault va asid acc f s.core (.gang s.gang.id f.cause (f.info va))
        s.wait (.fault id)

/-- CTXLOAD (R378). -/
def execCtxload (x : Fun) (s : State) : Out :=
  s.attempt (ctxLimits .ctxload) fun s =>
    let (c, tag) := s.capOf x.a
    s.orTrap (s.operandChecks [((c, tag), ⟨[.linear], pRead, 1⟩)]) fun s =>
      match s.readRecord c with
      | .error e => (s.stop e, false)
      | .ok (none, t) => (t.deliver x.d 8 false [(0, ctxBadRecord)], true)
      | .ok (some b, t) =>
          let asid := (Context.ofRecord b).asid
          let r := t.sys.residence asid
          if r ≠ 0 then (t.deliver x.d 8 false [(0, r)], true)
          else
            match t.install t.core b with
            | .error e => (t.stopFor asid e, false)
            | .ok t => t.loadEntries x (recordLog asid b)

/-- The end of the first context load: its event of KIND 8 (R385, R387). -/
def State.ctxdbDone (s : State) (pa status : Nat) : State :=
  ({ s with host := { s.host with ctxdb := s.host.ctxdb.tail, ctxdbRest := none } } : State).event
    { kind := 8, info := BitVec.ofNat 64 pa, value := BitVec.ofNat 64 status }

/-- A gang that waits for room in a log goes on: the rest of a CTXLOAD's entries, or of a store's (R103, R378). -/
def State.refillGang (s : State) (id : Nat) (h : Hold) : State :=
  let t := (s.focus id).atHold h
  match h.why with
  | .ctxload x rest => State.finishHeld (t.loadEntries x rest)
  | .logRoom rest => State.finishHeld (t.enterLog rest)
  | _ => s

/-- The host's first context load returns the rest of its entries, and ends with them (R378, R387). -/
def State.refillLoad (s : State) : State :=
  match s.host.ctxdb, s.host.ctxdbRest with
  | pa :: _, some l =>
      let (rest, t) := s.returnEntries l
      if rest.isEmpty then t.ctxdbDone pa 0 else { t with host := { t.host with ctxdbRest := some rest } }
  | _, _ => s

/-- Logs have room again: records that waited for their entries are written, gangs and a context load that wait for room go on
(R103, R304, R378, R387). -/
def State.refillLogs (s : State) : State :=
  let s := s.flushRecords.refillLoad
  s.allGangs.foldl (fun (s : State) g =>
    match (s.findGang g.id).hold with
    | some h => { (s.refillGang g.id h).focus s.gang.id with run := s.run, ipc := s.ipc }
    | none => s) s

/-- CTXSAVE (R378). -/
def execCtxsave (x : Fun) (s : State) : Out :=
  s.attempt (ctxLimits .ctxsave) fun s =>
    let (c, tag) := s.capOf x.b
    s.orTrap (s.operandChecks [((c, tag), ⟨[.linear], pWrite, 2⟩)]) fun s =>
      let asid : Asid := (s.scalar x.a).setWidth 16
      if s.ctxLoading asid then (s.wait (.ctxLoading asid), false)
      else if s.ctxReleases asid c then (s.wait (.logged (BitVec.allOnes 32)), false)
      else
      match s.saveContext asid c with
      | .error e => ((if s.ctxInUse asid then s else s.expelContext asid).stop e, false)
      | .ok (n, t) => (t.refillLogs.deliver x.d 8 false [(0, n)], true)

/-! ### The host's context loads (R387) -/

/-- A port may write what HSEM guards (R381). -/
def HostSide.owns (h : HostSide) (p : Port) : Bool := h.owner = (if p = .portA then 1 else 2)

/-- CTXDB_LOAD: a load is queued behind those before it (R381, R387). -/
def execCtxdbLoad (port : Port) (value : Dword) (s : State) : Out :=
  .next (if s.host.owns port then
      let s : State := { s with host := { s.host with ctxdbReg := value &&& 0x3FFFFFFFF03 } }
      if bitsAt value.toNat 0 2 = 1 then
        { s with host := { s.host with ctxdb := s.host.ctxdb ++ [bitsAt value.toNat 8 34 * 256] } }
      else s
    else s)

/-- The bytes of a record in device memory; none where it does not lie in memory or is bad. -/
def State.hostRecord (s : State) (pa : Nat) : Option (List Byte) :=
  if Config.memTop < pa + 256 then none
  else
    let h := s.sys.bytes pa 256
    if headOk h (Config.memTop - pa) then
      let b := s.sys.bytes pa (recordSizeField h)
      if digestOk b then some b else none
    else none

/-- A context load whose table the driver refuses ends; R378 gives its event no status for that (free value, log 10). -/
def State.ctxdbRefused (s : State) : State :=
  match s.host.ctxdb with
  | [] => s
  | pa :: _ =>
      let (v, s) := s.free
      s.ctxdbDone pa (v.toNat % 2 ^ 32)

/-- A fault of the table goes to the driver; the load waits for the answer. -/
def State.ctxdbFault (s : State) (asid : Asid) : Stop → State
  | .trap _ => s
  | .fault va acc f =>
      if f.refused then (s.recordFault va asid acc f 0).ctxdbRefused
      else if s.sys.faults.any fun x => x.waiters.contains .ctxdb then s
      else (s.openFault va asid acc f 0 .ctxdb).2

/-- CTXDB_LOAD_COMPLETE: the first load is installed as CTXLOAD does; entries for which a log has no room are returned as room
frees, and the load ends with the last of them (R378, R387). -/
def execCtxdbLoadComplete (s : State) : Out :=
  .next (match s.host.ctxdb with
    | [] => s
    | pa :: _ =>
        if s.host.ctxdbRest.isSome then s.refillLoad
        else
        match s.hostRecord pa with
        | none => s.ctxdbDone pa ctxBadRecord
        | some b =>
            let asid := (Context.ofRecord b).asid
            let r := s.sys.residence asid
            if r ≠ 0 then s.ctxdbDone pa r
            else
              match s.install 0 b with
              | .error e => s.ctxdbFault asid e
              | .ok t => ({ t with host := { t.host with ctxdbRest := some (recordLog asid b) } } : State).refillLoad)

end Sys2Proof.Machine
end

