-- ==== Sys2Proof/Machine/Integer.lean ====
section
/-! DEFINITION. The integer group (R216-R221): one meaning an instruction over the shared lanes of Operands.lean. -/

namespace Sys2Proof.Machine

/-- IADD: a + b (R216). -/
def execIadd (x : Typed) (s : State) : Out :=
  s.sequential { op := .iadd } fun s => s.intOp x (some 4) fun a b _ => clampInt x.ty x.width x.sat (tyInt' x.ty x.width a + tyInt' x.ty x.width b)

/-- ISUB: a - b (R216). -/
def execIsub (x : Typed) (s : State) : Out :=
  s.sequential { op := .isub } fun s => s.intOp x (some 4) fun a b _ => clampInt x.ty x.width x.sat (tyInt' x.ty x.width a - tyInt' x.ty x.width b)

/-- IMUL: a * b (R216). -/
def execImul (x : Typed) (s : State) : Out :=
  s.sequential { op := .imul } fun s => s.intOp x (some 6) fun a b _ => clampInt x.ty x.width x.sat (tyInt' x.ty x.width a * tyInt' x.ty x.width b)

/-- IMULH: bits 2w-1 to w of the exact product (R216). -/
def execImulh (x : Typed) (s : State) : Out :=
  s.sequential { op := .imulh } fun s => s.intOp x (some 6) fun a b _ => (wrapInt x.width (tyInt' x.ty x.width a * tyInt' x.ty x.width b / (2 ^ x.width : Nat)), 0)

/-- IMAD: a * b + c, one wrap or clamp (R216). -/
def execImad (x : Typed) (s : State) : Out :=
  s.sequential { op := .imad } fun s => s.intOp x (some 6) fun a b c => clampInt x.ty x.width x.sat (tyInt' x.ty x.width a * tyInt' x.ty x.width b + tyInt' x.ty x.width c)

/-- IDIV: quotient truncated towards zero (R218); variable latency. -/
def execIdiv (x : Typed) (s : State) : Out :=
  s.sequential { op := .idiv } fun s => s.intOp x none fun a b _ => divInt x.ty x.width x.sat a b

/-- IREM: remainder with the sign of a (R218); variable latency. -/
def execIrem (x : Typed) (s : State) : Out :=
  s.sequential { op := .irem } fun s => s.intOp x none fun a b _ => (remInt x.ty x.width a b, 0)

/-- IMIN (R216). -/
def execImin (x : Typed) (s : State) : Out :=
  s.sequential { op := .imin } fun s => s.intOp x (some 4) fun a b _ => (if tyInt' x.ty x.width b < tyInt' x.ty x.width a then b else a, 0)

/-- IMAX (R216). -/
def execImax (x : Typed) (s : State) : Out :=
  s.sequential { op := .imax } fun s => s.intOp x (some 4) fun a b _ => (if tyInt' x.ty x.width a < tyInt' x.ty x.width b then b else a, 0)

/-- AND (R216). -/
def execAnd (x : Typed) (s : State) : Out :=
  s.sequential { op := .and } fun s => s.intOp x (some 4) fun a b _ => (a &&& b, 0)

/-- OR (R216). -/
def execOr (x : Typed) (s : State) : Out :=
  s.sequential { op := .or } fun s => s.intOp x (some 4) fun a b _ => (a ||| b, 0)

/-- XOR (R216). -/
def execXor (x : Typed) (s : State) : Out :=
  s.sequential { op := .xor } fun s => s.intOp x (some 4) fun a b _ => (a ^^^ b, 0)

/-- ANDN: a AND NOT b (R216). -/
def execAndn (x : Typed) (s : State) : Out :=
  s.sequential { op := .andn } fun s => s.intOp x (some 4) fun a b _ => (a &&& (2 ^ x.width - 1 - b), 0)

/-- SHL (R217). -/
def execShl (x : Typed) (s : State) : Out :=
  s.sequential { op := .shl } fun s => s.intOp x (some 4) fun a b _ => (shlBits x.width a (b % 2 ^ 32), 0)

/-- SHR (R217). -/
def execShr (x : Typed) (s : State) : Out :=
  s.sequential { op := .shr } fun s => s.intOp x (some 4) fun a b _ => (shrBits a (b % 2 ^ 32), 0)

/-- SAR (R217). -/
def execSar (x : Typed) (s : State) : Out :=
  s.sequential { op := .sar } fun s => s.intOp x (some 4) fun a b _ => (sarBits x.width a (b % 2 ^ 32), 0)

/-- ROT.L and ROT.R by b mod w (R216, R217). -/
def execRot (x : Typed) (s : State) : Out :=
  s.sequential { op := .rot } fun s => s.intOp x (some 4) fun a b _ => 
    (if x.var = 0 then rotBits x.width a (b % 2 ^ 32) else rotBits x.width a (x.width - b % 2 ^ 32 % x.width), 0)

/-- BFX (R219). -/
def execBfx (x : Typed) (s : State) : Out :=
  s.sequential { op := .bfx } fun s => s.intOp x (some 4) fun a b _ => (bitExtract x.ty x.width a b, 0)

/-- BFI (R219). -/
def execBfi (x : Typed) (s : State) : Out :=
  s.sequential { op := .bfi } fun s => s.intOp x (some 4) fun a b c => (bitInsert x.width a b c, 0)

/-- POPC (R216). -/
def execPopc (x : Typed) (s : State) : Out :=
  s.sequential { op := .popc } fun s => s.intOp x (some 4) fun a _ _ => (popCount x.width a, 0)

/-- CLZ: w of zero (R216). -/
def execClz (x : Typed) (s : State) : Out :=
  s.sequential { op := .clz } fun s => s.intOp x (some 4) fun a _ _ => (x.width - bitLength a, 0)

/-- BREV (R216). -/
def execBrev (x : Typed) (s : State) : Out :=
  s.sequential { op := .brev } fun s => s.intOp x (some 4) fun a _ _ => (reverseBits x.width a, 0)

/-- A comparison: 1 or 0 to a predicate or a scalar register (R220, R223). -/
def State.compareOp (s : State) (x : Typed) (lat : Nat) (f : Nat → Nat → Bool × BitVec 8) : State :=
  s.arith x.d x.hdr 32 false (some lat) fun i st =>
    let r := f (s.srcA x i) (s.srcB x i)
    plainLane (if r.1 then 1 else 0, r.2) st

/-- ICMP (R220). -/
def execIcmp (x : Typed) (s : State) : Out :=
  s.sequential { op := .icmp } fun s => s.compareOp x 4 fun a b =>
    (cmpInt x.var.toNat (tyInt' x.ty x.width (intMods x.ty x.width x.absa x.nega a)) (tyInt' x.ty x.width (intMods x.ty x.width x.absb x.negb b)), 0)

/-- The condition of SEL: a predicate of the strand, or a scalar register that is nonzero (R220). -/
def State.selects (s : State) (c : Sel) (i : Nat) : Bool :=
  match c with
  | .p n => s.readPBit n.toNat i
  | c => s.scalar c ≠ 0

/-- SEL: a when the condition holds, else b (R220). -/
def execSel (x : Typed) (s : State) : Out :=
  s.sequential { op := .sel } fun s => 
    s.arith x.d x.hdr x.width x.ty.isSigned (some 4) fun i st =>
      plainLane (if s.selects x.c i then s.srcA x i else s.srcB x i, 0) st

/-- MOV: a, extended; a predicate receives 1 where a is not 0 (R220). -/
def execMov (x : Typed) (s : State) : Out :=
  s.sequential { op := .mov } fun s => 
    s.arith x.d x.hdr x.width x.ty.isSigned (some 4) fun i st => plainLane (s.srcA x i, 0) st

/-- LEA: a + (b << k), b of 32 bits (R221). -/
def execLea (x : Typed) (s : State) : Out :=
  s.sequential { op := .lea } fun s => 
    s.arith x.d x.hdr x.width x.ty.isSigned (some 4) fun i st =>
      plainLane (wrapInt x.width ((s.srcA x i : Int) + tyInt' x.ty 32 (s.src 32 false x.b x.imm i) * (2 ^ x.var.toNat : Nat)), 0) st

/-- PRMT.SEL and PRMT.FUNNEL: 32 bits even in uniform form (R221). -/
def execPrmt (x : Typed) (s : State) : Out :=
  s.sequential { op := .prmt } fun s => 
    s.arith x.d x.hdr 32 false (some 4) fun i st =>
      let v (o : Sel) := s.src 32 false o x.imm i
      plainLane (permBytes (x.var = 1) (v x.a) (v x.b) (v x.c), 0) st

/-- PLOP: the truth table of three predicates (R220). -/
def execPlop (x : Typed) (s : State) : Out :=
  s.sequential { op := .plop } fun s => 
    s.arith x.d x.hdr 32 false (some 4) fun i st =>
      let v (o : Sel) := s.src 32 false o 0 i
      plainLane (bitsAt x.imm.toNat (v x.a * 4 + v x.b * 2 + v x.c) 1, 0) st

/-- IDOT4: the exact sum, wrapped or clamped (R221). -/
def execIdot4 (x : Typed) (s : State) : Out :=
  s.sequential { op := .idot4 } fun s => s.intOp x (some 6) fun a b c => clampInt .i32 32 x.sat (dot4 x.var.toNat a b c)

/-- IABS (R216). -/
def execIabs (x : Typed) (s : State) : Out :=
  s.sequential { op := .iabs } fun s => s.intOp x (some 4) fun a _ _ => clampInt x.ty x.width x.sat (tyInt' x.ty x.width a).natAbs

end Sys2Proof.Machine
end

