-- ==== Sys2Proof/Machine/FloatOps.lean ====
section
/-! DEFINITION. The floating-point group (R222-R227): one meaning an instruction over the formats of Float.lean. -/

namespace Sys2Proof.Machine

/-- FADD (R222). -/
def execFadd (x : Typed) (s : State) : Out :=
  s.sequential { op := .fadd } fun s => s.floatOp x (some 6) fun f a b _ st =>
    (f.add x.rnd.toNat x.sat (f.unpack a) (f.unpack b) st).lane

/-- FSUB: a - b (R222). -/
def execFsub (x : Typed) (s : State) : Out :=
  s.sequential { op := .fsub } fun s => s.floatOp x (some 6) fun f a b _ st =>
    (f.add x.rnd.toNat x.sat (f.unpack a) (f.unpack b).negate st).lane

/-- FMUL (R222). -/
def execFmul (x : Typed) (s : State) : Out :=
  s.sequential { op := .fmul } fun s => s.floatOp x (some 6) fun f a b _ st =>
    (f.mul x.rnd.toNat x.sat (f.unpack a) (f.unpack b) st).lane

/-- FFMA: one rounding (R222). -/
def execFfma (x : Typed) (s : State) : Out :=
  s.sequential { op := .ffma } fun s => s.floatOp x (some 6) fun f a b c st =>
    (f.fma x.rnd.toNat x.sat (f.unpack a) (f.unpack b) (f.unpack c) st).lane

/-- FMIN (R224). -/
def execFmin (x : Typed) (s : State) : Out :=
  s.sequential { op := .fmin } fun s => s.floatOp x (some 6) fun f a b _ st =>
    plainLane (f.minMax false a b) st

/-- FMAX (R224). -/
def execFmax (x : Typed) (s : State) : Out :=
  s.sequential { op := .fmax } fun s => s.floatOp x (some 6) fun f a b _ st =>
    plainLane (f.minMax true a b) st

/-- FCMP (R223). -/
def execFcmp (x : Typed) (s : State) : Out :=
  s.sequential { op := .fcmp } fun s => 
    let f := x.ty.floatFmt
    s.compareOp x 6 fun a b => f.cmp x.var.toNat (f.signOps x.absa x.nega a) (f.signOps x.absb x.negb b)

/-- FCLASS: a 32-bit mask (R223). -/
def execFclass (x : Typed) (s : State) : Out :=
  s.sequential { op := .fclass } fun s => 
    s.arith x.d x.hdr 32 false (some 6) fun i st => plainLane (x.ty.floatFmt.classMask (s.srcA x i), 0) st

/-- FRCP (R225). -/
def execFrcp (x : Typed) (s : State) : Out :=
  s.sequential { op := .frcp } fun s => s.floatOp x none fun f a _ _ st =>
    (f.rcp x.rnd.toNat x.sat (f.unpack a) st).lane

/-- FRSQ (R225). -/
def execFrsq (x : Typed) (s : State) : Out :=
  s.sequential { op := .frsq } fun s => s.floatOp x none fun f a _ _ st =>
    (f.rsq x.rnd.toNat (f.unpack a) st).lane

/-- FSQRT (R225). -/
def execFsqrt (x : Typed) (s : State) : Out :=
  s.sequential { op := .fsqrt } fun s => s.floatOp x none fun f a _ _ st =>
    (f.sqrt x.rnd.toNat (f.unpack a) st).lane

/-- FEXP2 (R225). -/
def execFexp2 (x : Typed) (s : State) : Out :=
  s.sequential { op := .fexp2 } fun s => s.floatOp x none fun f a _ _ st =>
    (f.exp2 x.rnd.toNat x.sat (f.unpack a) st).lane

/-- FLOG2 (R225). -/
def execFlog2 (x : Typed) (s : State) : Out :=
  s.sequential { op := .flog2 } fun s => s.floatOp x none fun f a _ _ st =>
    (f.log2 x.rnd.toNat (f.unpack a) st).lane

/-- FDIV (R222). -/
def execFdiv (x : Typed) (s : State) : Out :=
  s.sequential { op := .fdiv } fun s => s.floatOp x none fun f a b _ st =>
    (f.div x.rnd.toNat x.sat (f.unpack a) (f.unpack b) st).lane

/-- FSCALE: a * 2^n, n the signed 32 bits of b (R226). -/
def execFscale (x : Typed) (s : State) : Out :=
  s.sequential { op := .fscale } fun s => 
    let f := x.ty.floatFmt
    s.arith x.d x.hdr x.ty.bits false (some 6) fun i st =>
      (f.scale x.rnd.toNat x.sat (f.signOps x.absa x.nega (s.srcA x i)) (signed 32 (s.src 32 false x.b x.imm i)) st).lane

/-- FROUND (R226). -/
def execFround (x : Typed) (s : State) : Out :=
  s.sequential { op := .fround } fun s => s.floatOp x (some 6) fun f a _ _ st =>
    (f.integral x.rnd.toNat (x.var = 1) a st).lane

/-- HADD2 (R227). -/
def execHadd2 (x : Typed) (s : State) : Out :=
  s.sequential { op := .hadd2 } fun s => s.packedOp x (some 6) fun f a b _ st =>
    (f.add x.rnd.toNat x.sat (f.unpack a) (f.unpack b) st).lane

/-- HMUL2 (R227). -/
def execHmul2 (x : Typed) (s : State) : Out :=
  s.sequential { op := .hmul2 } fun s => s.packedOp x (some 6) fun f a b _ st =>
    (f.mul x.rnd.toNat x.sat (f.unpack a) (f.unpack b) st).lane

/-- HFMA2 (R227). -/
def execHfma2 (x : Typed) (s : State) : Out :=
  s.sequential { op := .hfma2 } fun s => s.packedOp x (some 6) fun f a b c st =>
    (f.fma x.rnd.toNat x.sat (f.unpack a) (f.unpack b) (f.unpack c) st).lane

end Sys2Proof.Machine
end

