-- ==== Sys2Proof/Machine/Conversion.lean ====
section
/-! DEFINITION. The conversion group (R228-R232): CVT, CVTI, and the block instructions whose lanes write several
registers. -/

namespace Sys2Proof.Machine

/-- Register `k` of a group that a selector starts (R228). -/
def State.groupWord (s : State) (a : Sel) (strand k : Nat) : Nat :=
  match a with
  | .v n => (s.readV strand (n.toNat + k)).toNat
  | .s n => (s.readS (n.toNat + k)).toNat % 2 ^ 32
  | _ => 0

/-- Elements packed in 32 bits one after another, each converted in turn (R75, R228). -/
def packLane (dt st : Ty) (mode : Nat) (sat : Bool) (src : Nat → Nat) : Nat → Nat → Word → Lane
  | 0, _, r => (0, 0, r)
  | n + 1, i, r =>
      let x := convertElement dt st mode sat (src i) r
      let (bits, fl, r) := packLane dt st mode sat src n (i + 1) x.st
      (x.bits * 2 ^ (i * dt.bits) + bits, x.flags ||| fl, r)

/-- One conversion by variant: plain, .PK, .UPK (R228). -/
def State.convertOp (s : State) (x : Conv) : State :=
  let mode := x.rnd.toNat
  if x.var = 1 then
    s.arith x.d x.hdr 32 false (some 8) fun i r =>
      packLane x.dt x.st mode x.sat (fun k => s.groupWord x.a i k) (pkCount x.dt) 0 r
  else if x.var = 2 then
    s.arith x.d x.hdr x.dt.bits false (some 8) fun i r =>
      let k := s.src 32 false x.b x.imm i % pkCount x.st
      (convertElement x.dt x.st mode x.sat (bitsAt (s.src 32 false x.a x.imm i) (k * x.st.bits) x.st.bits) r).lane
  else
    s.arith x.d x.hdr x.dt.bits x.dt.isSigned (some 8) fun i r =>
      (convertElement x.dt x.st mode x.sat (s.src x.st.bits (x.st = .i64) x.a x.imm i) r).lane

/-- CVT (R228). -/
def execCvt (x : Conv) (s : State) : Out := s.sequential { op := .cvt } fun s => s.convertOp x

/-- CVTI (R228). -/
def execCvti (x : Conv) (s : State) : Out := s.sequential { op := .cvti } fun s => s.convertOp x

/-! ### Blocks -/

/-- An instruction whose lanes write `count` vector registers from `d`, the words packed in the lane's value, low first. -/
def State.groupOp (s : State) (d : Sel) (h : Hdr) (lat count : Nat) (f : Nat → Word → Lane) : State :=
  match d with
  | .v n =>
      let (vals, flags, t) := s.evalLanes false f (s.active h)
      ((List.range count).foldl (fun (t : State) k =>
        t.writeV lat (n.toNat + k) (vals.map fun e => (e.1, BitVec.ofNat 32 (e.2 / 2 ^ (32 * k))))) t).raise flags
  | _ => s

/-- The element format and the exponent of the largest normal of an MX type (R229). -/
def mxElement : Ty → Ty × Int
  | .mx8 => (.e4m3, 8)
  | .mx6 => (.e2m3, 2)
  | .mx6b => (.e3m2, 4)
  | _ => (.e2m1, 2)

/-- Element `i` of a block in the register layout of its type (R229). -/
def State.blockElement (s : State) (t : Ty) (a : Sel) (strand i : Nat) : FVal :=
  t.floatFmt.unpack
    (if t = .f32 then s.groupWord a strand i else bitsAt (s.groupWord a strand (i / 2)) (16 * (i % 2)) 16)

/-- ⌊log2 m⌋ of a finite nonzero value. -/
def FVal.log2Floor (v : FVal) : Int :=
  match v with
  | .num _ m e => e + (bitLength m : Int) - 1
  | _ => 0

/-- The computed scale byte of a block (R229). -/
def blockScale (emax : Int) (xs : List FVal) : Nat :=
  if xs.any fun v => v.isNan || v.isInf then 0xFF
  else
    let nz := xs.filter fun v => !v.isZero
    if nz.isEmpty then 0
    else
      let top := nz.foldl (fun a v => max a (FVal.log2Floor v)) (FVal.log2Floor (nz.headD (.nan false)))
      (max (-127) (min 127 (top - emax)) + 127).toNat

/-- The codes of a block under a scale, `e` bits each (R229). -/
def packBlock (f : FloatFmt) (e mode : Nat) (k : Int) : List FVal → Nat → Word → Lane
  | [], _, r => (0, 0, r)
  | v :: rest, i, r =>
      let x := f.convert mode false (v.shift (-k)) r
      let (bits, fl, r) := packBlock f e mode k rest (i + 1) x.st
      (x.bits * 2 ^ (i * e) + bits, x.flags ||| fl, r)

/-- MXPACK (R229): the payload, then the scale register. -/
def execMxpack (x : Conv) (s : State) : Out :=
  s.sequential { op := .mxpack } fun s =>
    let (elt, emax) := mxElement x.dt
    let p := mxPayload x.dt
    s.groupOp x.d x.hdr 8 (p + 1) fun i r =>
      let xs := (List.range 32).map fun k => s.blockElement x.st x.a i k
      let scale := if x.var = 1 then s.src 32 false x.b x.imm i % 256 else blockScale emax xs
      if scale = 0xFF then (0xFF * 2 ^ (32 * p), flagNV, r)
      else
        let (bits, fl, r) := packBlock elt.floatFmt elt.bits x.rnd.toNat ((scale : Int) - 127) xs 0 r
        (bits + scale * 2 ^ (32 * p), fl, r)

/-- The elements of a payload as a destination type, in its register layout (R230). -/
def unpackBlock (elt dt : Ty) (mode : Nat) (sat : Bool) (payload scale : Nat) : Nat → Nat → Word → Lane
  | 0, _, r => (0, 0, r)
  | n + 1, i, r =>
      let (v, fl) := scaledValue (elt.floatFmt.unpack (bitsAt payload (i * elt.bits) elt.bits)) scale
      let x := dt.floatFmt.convert mode sat v r
      let (bits, fls, r) := unpackBlock elt dt mode sat payload scale n (i + 1) x.st
      (x.bits * 2 ^ (i * dt.bits) + bits, fl ||| x.flags ||| fls, r)

/-- MXUNPACK (R230). -/
def execMxunpack (x : Conv) (s : State) : Out :=
  s.sequential { op := .mxunpack } fun s =>
    let p := mxPayload x.st
    s.groupOp x.d x.hdr 8 (mxSources x.dt) fun i r =>
      let payload := (List.range p).foldl (fun a k => a + s.groupWord x.a i k * 2 ^ (32 * k)) 0
      unpackBlock (mxElement x.st).1 x.dt x.rnd.toNat x.sat payload (s.groupWord x.a i p % 256) 32 0 r

/-- The ternary code of a value against a threshold (R231). -/
def ternCode (t v : FVal) : Nat × BitVec 8 :=
  if v.isNan || t.isNan then (0, flagNV)
  else if t.lt v then (1, 0)
  else if v.lt t.negate then (3, 0)
  else (0, 0)

/-- TERNQ (R231). -/
def execTernq (x : Conv) (s : State) : Out :=
  s.sequential { op := .ternq } fun s =>
    let f := Ty.floatFmt .f32
    s.arith x.d x.hdr 32 false (some 8) fun i r =>
      let t := f.unpack (f.signOps true false (s.src 32 false x.b x.imm i))
      (List.range 16).foldl (fun (a : Lane) k =>
        let c := ternCode t (s.blockElement x.st x.a i k)
        (a.1 + c.1 * 4 ^ k, a.2.1 ||| c.2, r)) (0, 0, r)

end Sys2Proof.Machine
end

