-- ==== Sys2Proof/Machine/Launch.lean ====
section
/-! DEFINITION. Launches (R327, R385), placement and allocation (R328-R330), pre-emption and resumption (R337-R340), and the
end of a crew with its exit record (R184, R353). -/

namespace Sys2Proof.Machine

/-! ### Launch records (R327) -/

/-- The fields of the 128 bytes of a launch record as a number. -/
def LaunchRec.ofNat (n : Nat) : LaunchRec :=
  { entry := BitVec.ofNat 64 (bitsAt n 0 64), exitRec := BitVec.ofNat 64 (bitsAt n 64 64),
    carryV := BitVec.ofNat 128 (bitsAt n 128 128), carryS := BitVec.ofNat 64 (bitsAt n 256 64),
    clmask := BitVec.ofNat 48 (bitsAt n 320 48), asid := BitVec.ofNat 16 (bitsAt n 368 16), cohorts := bitsAt n 384 24,
    scratch := bitsAt n 416 32, strands := bitsAt n 448 16, accBase := bitsAt n 464 16, ar := bitsAt n 480 16,
    gangs := bitsAt n 496 8, crews := bitsAt n 504 8, vregs := bitsAt n 512 8, qshare := bitsAt n 520 8,
    nbar := bitsAt n 528 8, cls := bitsAt n 536 2, stage := bitsAt n 538 4, retq := bitsAt n 542 1 = 1,
    priv := bitsAt n 543 1 = 1, crewRec := BitVec.ofNat 64 (bitsAt n 544 64) }

/-- The bytes of a record that offend (R327). -/
def launchOffends (n : Nat) : List Nat :=
  let r := LaunchRec.ofNat n
  let bad (at' : Nat) (b : Bool) : List Nat := if b then [at'] else []
  let bits (at' lo k : Nat) : List Nat := bad at' (bitsAt n (8 * at' + lo) k ≠ 0)
  bits 0 0 6 ++ bits 7 1 7 ++ bits 8 0 8 ++ bits 9 0 1 ++ bits 15 1 7 ++
    bad 16 (32 < popCount 128 r.carryV.toNat || r.carryV.toNat / 2 ^ r.vregs ≠ 0) ++
    bad 32 (16 < popCount 64 r.carryS.toNat) ++ bad 40 (r.clmask = 0) ++ bad 48 (r.cohorts = 0) ++ bits 51 0 8 ++
    bad 52 (r.scratch % 128 ≠ 0 || Config.scratchBytes < r.scratch) ++
    bad 56 (r.strands = 0 || 32 * r.gangs < r.strands) ++ bad 60 (Config.accRows < r.accBase + r.ar) ++
    bad 62 (r.gangs = 0 || 32 < r.gangs) ++ bad 63 (r.crews = 0 || 16 < r.crews) ++
    bad 64 (r.vregs % 8 ≠ 0 || r.vregs = 0 || 128 < r.vregs) ++ bad 65 (8 < r.qshare) ++ bad 66 (96 < r.nbar) ++
    bits 68 0 8 ++ bits 69 0 4 ++ bits 75 1 7 ++ (List.range 52).flatMap fun i => bits (76 + i) 0 8

/-- The lowest launch id that is free (R385). -/
def State.freeLid (s : State) : Option Nat :=
  let id := freeId (s.launches.map fun l => l.lid)
  if id < Config.launchIds then some id else none

/-- VALUE of the KIND 3, 4 and 5 events (R385). -/
def launchValue (tag : BitVec 16) (lid : Nat) : Dword := BitVec.ofNat 64 (tag.toNat + lid % 256 * 2 ^ 16)

/-- A refused launch: of its VALUE the spec gives the tag; it has no launch id (free value, log 10). -/
def State.refuseLaunch (s : State) (tag : BitVec 16) (info : Nat) : State :=
  let (v, s) := s.free
  s.event { kind := 4, info := BitVec.ofNat 64 info, value := launchValue tag v.toNat }

/-- The device answers the host: boot has not halted (R390). -/
def State.ready (s : State) : Bool := !s.host.bootHalted

/-- LAUNCH_DOORBELL (R327, R385). -/
def execLaunchDoorbell (value : Dword) (s : State) : Out :=
  .next (
    let s : State := { s with host := { s.host with launchdb := value &&& 0xFFFF03FFFFFFFF80 } }
    let tag : BitVec 16 := value.extractLsb' 48 16
    let n := s.sys.num (bitsAt value.toNat 7 35 * 128) 128
    if !s.ready then s
    else
      match minList (launchOffends n), s.freeLid with
      | some b, _ => s.refuseLaunch tag b
      | none, none => s.refuseLaunch tag 0xFF
      | none, some lid =>
          let r := LaunchRec.ofNat n
          let l : Launch :=
            { lid := lid, tag := tag, seq := s.host.nextSeq, r := r, effCls := r.cls, placed := 0, live := 0, exitsDue := 0 }
          ({ s with launches := s.launches ++ [l], host := { s.host with nextSeq := s.host.nextSeq + 1 } } : State).event
            { kind := 3, value := launchValue tag lid })

/-! ### Room on a core (R328) -/

/-- What a crew needs. -/
structure CrewNeed where
  gangs : Nat
  vregs : Nat
  scratch : Nat
  nbar : Nat
  qshare : Nat
  accBase : Nat
  ar : Nat
deriving DecidableEq, Repr

def LaunchRec.need (r : LaunchRec) : CrewNeed := ⟨r.gangs, r.vregs, r.scratch, r.nbar, r.qshare, r.accBase, r.ar⟩
def Crew.need (c : Crew) : CrewNeed := ⟨c.gangs, c.vregs, c.scratchSize, c.nbar, c.qshare, c.accBase, c.ar⟩

/-- The crews resident on a core. -/
def State.crewsOn (s : State) (core : Nat) : List Crew := s.allCrews.filter fun c => c.core = core

/-- The sum of a list. -/
def total (l : List Nat) : Nat := l.foldl (· + ·) 0

/-- The lowest run of scratch bytes free on a core (R157). -/
def scratchPlace (crews : List Crew) (n : Nat) : Option Nat :=
  let starts := 0 :: crews.map fun c => c.scratchBase + c.scratchSize
  minList (starts.filter fun a =>
    a + n ≤ Config.scratchBytes && crews.all fun c => a + n ≤ c.scratchBase || c.scratchBase + c.scratchSize ≤ a || n = 0)

/-- A crew fits on a core: where its scratch goes (R328). -/
def State.fits (s : State) (core : Nat) (n : CrewNeed) : Option Nat :=
  let crews := s.crewsOn core
  let sum (f : Crew → Nat) := total (crews.map f)
  if sum (fun c => c.gangs) + n.gangs ≤ Config.gangsPerSlot * Config.slotsPerCore &&
      sum (fun c => 128 * c.gangs * c.vregs) + 128 * n.gangs * n.vregs ≤ Config.vrfBytes &&
      sum (fun c => c.nbar) + n.nbar ≤ Config.barriersPerCore && sum (fun c => c.qshare) + n.qshare ≤ 8 &&
      (n.ar = 0 || crews.all fun c => c.ar = 0 || n.accBase + n.ar ≤ c.accBase || c.accBase + c.ar ≤ n.accBase)
  then scratchPlace crews n.scratch else none

/-- The core of a cluster that crew `j` goes to: the first that fits from core j mod 4 on (R329). -/
def State.coreFor (s : State) (cluster j : Nat) (n : CrewNeed) : Option (Nat × Nat) :=
  ((List.range 4).filterMap fun k =>
    let core := cluster * 4 + (j + k) % 4
    (s.fits core n).map fun base => (core, base)).head?

/-! ### Allocation (R330) -/

/-- The issue slot of a core with the fewest gangs, the lower-numbered on a tie (R330). -/
def State.slotFor (s : State) (core : Nat) : Nat :=
  let n (i : Nat) := (s.slotGangs core i).length
  let least := (minList ((List.range Config.slotsPerCore).map n)).getD 0
  ((List.range Config.slotsPerCore).find? fun i => n i = least).getD 0

/-- A gang enters an issue slot: into the active set while that has room (R330); with no live strand it has left. -/
def State.enterSlot (s : State) (core : Nat) (g : Gang) : State :=
  let slot := s.slotFor core
  let there := s.slotGangs core slot
  let active := (there.filter fun x => x.active && !x.left).length < Config.activePerSlot
  let left := g.live = 0
  let g := { g with slot := slot, active := active && !left, left := left,
                    arrival := maxList (there.map fun x => x.arrival) + 1, nextIssue := 0, lastIssue := 0 }
  { s with gangs := Sparse.put {} s.gangs g.id g }

/-- The first rounding state of a strand, and of the scalar pipe (R75). -/
def firstRound (i : Nat) : Word := 0x9E3779B9 ^^^ BitVec.ofNat 32 i

/-- A gang of a new crew (R75, R259, R309, R330, R351). -/
def newGang (crew idx strands : Nat) (entry : Dword) (priv : Bool) : Gang :=
  let here := (List.range 32).filter fun i => 32 * idx + i < strands
  { id := (crew * 32 + idx) * 33, crewId := crew, idx := idx,
    strands := here.foldl (fun t i => Sparse.put {} t i { pc := entry, age := 0, st := .ready }) [],
    rnd := (List.range 32).foldl (fun t i => Sparse.put 0 t i (firstRound (32 * idx + i))) [],
    urnd := firstRound (0x400 + idx), priv := priv }

/-- A new crew on a core (R325, R327, R351, R354). -/
def newCrew (id : Nat) (l : Launch) (j core base : Nat) : Crew :=
  let r := l.r
  { id := id, lid := l.lid, cohort := l.placed, idx := j, number := l.placed * r.crews + j, asid := r.asid, stage := r.stage,
    cls := r.cls, effCls := l.effCls, core := core, gangs := r.gangs, strands := r.strands, vregs := r.vregs,
    scratchSize := r.scratch, scratchBase := base, accBase := r.accBase, ar := r.ar, qshare := r.qshare, nbar := r.nbar,
    retq := r.retq, priv := r.priv, carryV := r.carryV, carryS := r.carryS, exitRec := r.exitRec, crewRec := r.crewRec,
    barriers := (List.range r.nbar).foldl (fun t b => Sparse.put {} t b { count := r.gangs, arrived := 0, phase := false }) [],
    freeHandles := List.range Config.handleEntries }

/-- The core before a crew issues: its L1 holds nothing older than the launch or the crew's record, the crew's accumulator
rows are zero (R239, R304, R339). -/
def State.prepareCore (s : State) (c : Crew) : State :=
  let s := s.acquire { core := c.core, crew := c.id, asid := c.asid, priv := c.priv } 6
  { s with sys := s.sys.updCore c.core fun k => k.zeroRows c.accBase c.ar }

/-- The core's instruction buffer is empty once it allocates a crew (R40). -/
def State.emptyBuffer (s : State) (core : Nat) : State := { s with sys := s.sys.updCore core fun k => { k with ibuf := [] } }

/-- Allocates crew `j` of the next cohort of a launch on a cluster. -/
def State.placeCrew (s : State) (l : Launch) (cluster j : Nat) : Option State :=
  (s.coreFor cluster j l.r.need).map fun (core, base) =>
    let id := s.nextCrew
    let c := newCrew id l j core base
    let s : State := { s with crews := Sparse.put {} s.crews id c, nextCrew := id + 1 }
    ((List.range l.r.gangs).foldl (fun (s : State) g =>
      s.enterSlot core (newGang id g l.r.strands l.r.entry l.r.priv)) s).prepareCore c |>.emptyBuffer core

/-- Places every crew of the next cohort of a launch on a cluster, or none (R329). -/
def State.placeOn (s : State) (l : Launch) (cluster : Nat) : Option State :=
  (List.range l.r.crews).foldlM (fun (s : State) j => s.placeCrew l cluster j) s

/-- The first cluster of CLMASK on which the next cohort fits (R329). -/
def State.placeCohort (s : State) (l : Launch) : Option State :=
  if (s.sys.ctx l.r.asid).isNone then none
  else ((bitList 48 l.r.clmask.toNat).filterMap fun g => s.placeOn l g).head?

/-- The numbers of a list in rising order, without repeats. -/
def ordered (l : List Nat) : List Nat := distinct ((l.foldl (fun (a : Sparse Unit) q => Sparse.insert a q ()) []).map Prod.fst)

/-- The launches with a waiting cohort: highest effective class first, then the oldest (R329). -/
def State.waitingLaunches (s : State) : List Launch :=
  let l := s.launches.filter fun l => l.placed < l.r.cohorts
  [3, 2, 1, 0].flatMap fun c =>
    let here := l.filter fun l => l.effCls = c
    (ordered (here.map fun l => l.seq)).filterMap fun q => here.find? fun l => l.seq = q

/-- The launch whose waiting cohort is placed next (R329). -/
def State.nextPlacement (s : State) : Option (Launch × State) :=
  (s.waitingLaunches.filterMap fun l => (s.placeCohort l).map fun t => (l, t)).head?

/-- A launch with one more cohort placed. -/
def Launch.placedOne (l : Launch) : Launch :=
  { l with placed := l.placed + 1, live := l.live + l.r.crews, exitsDue := l.exitsDue + l.r.crews }

/-- Applies a function to a launch. -/
def State.updLaunch (s : State) (lid : Nat) (f : Launch → Launch) : State :=
  { s with launches := s.launches.map fun l => if l.lid = lid then f l else l }

/-- COHORT_PLACEMENT: when the launch is the next to be served (R329, R330). -/
def execCohortPlacement (lid : Nat) (s : State) : Out :=
  .next (match s.nextPlacement with
    | some (l, t) => if l.lid = lid then t.updLaunch lid Launch.placedOne else s
    | none => s)

/-! ### Pre-emption (R337, R338, R340) -/

/-- Since when every live gang of a crew waits in a QPOP.B; none where one does not (R337, R340). -/
def State.blockedSince (s : State) (c : Crew) : Option Nat :=
  let gs := (s.gangsOf c.id).filter fun g => g.live ≠ 0 || g.ej.isSome
  let l := gs.map fun g => if g.handler.isNone && g.suspended = .no && g.ej.isNone then g.blockedPop else none
  if l.isEmpty || l.any (fun x => x.isNone) then none else some (maxList (l.filterMap fun x => x.map Prod.snd))

/-- A crew may be pre-empted (R184, R240, R321, R337). -/
def State.preemptible (s : State) (c : Crew) : Option Nat :=
  if c.ended = .running && c.pendingHandles.isEmpty && !(s.ops.any fun o => o.crewId = c.id) && !s.crewEjected c.id then
    s.blockedSince c
  else none

/-- The size of a crew record (R338). -/
def Crew.recordSize (c : Crew) : Nat :=
  (256 + c.gangs * (512 + 128 * popCount 128 c.carryV.toNat) + c.scratchSize + 4095) / 4096 * 4096

/-- Bytes whose form the spec leaves open, written at the home of a record's lines (free values, log 9). A line whose page
does not translate is left alone. -/
def State.openRecord (s : State) (w : Who) (va n : Nat) : State :=
  (splitParts 128 va n).foldl (fun (s : State) p =>
    match s.homeLeaf w .store p.1 with
    | .error _ => s
    | .ok (l, s) =>
        let b := (List.range p.2).map fun i => (Config.freeValue (s.freeCtr + i)).setWidth 8
        { s.homeWrite w l p.1 b with freeCtr := s.freeCtr + p.2 }) s

/-- What a crew record keeps of a gang (R338, R339): its carried registers; the QPOP.B it waits in issues again. -/
def Gang.saved (g : Gang) (c : Crew) : Gang :=
  let tags := (List.range 32).foldl (fun (t : BitVec 32) k =>
    if g.stags.getLsbD k && c.carryS.getLsbD (2 * k) && c.carryS.getLsbD (2 * k + 1) then t ||| (1 <<< k) else t) 0
  { g with v := g.v.filter (fun e => c.carryV.getLsbD (e.1 % 128)), s := g.s.filter (fun e => c.carryS.getLsbD e.1),
           stags := tags, p := [], shadows := [], marks := [], groups := [], pair := false, handleIds := [],
           hold := g.hold.map fun h => { h with why := .retry } }

/-- The planes and the tokens a crew held (R239, R241, R270). -/
def State.freeCore (s : State) (c : Crew) : State :=
  let free (p : Plane) : Plane := if p.owner = c.id then {} else p
  let gangs := (s.gangsOf c.id).map fun g => g.id
  { s with sys := s.sys.updCore c.core fun k =>
      { k with active := free k.active, shadow := free k.shadow, prio := k.prio.filter fun e => !gangs.contains e.2 } }

/-- A crew leaves its core: its gangs, its registers, its places in the slots. -/
def State.vacate (s : State) (c : Crew) : State :=
  let s := s.freeCore c
  let slots := (s.gangsOf c.id).map fun g => g.slot
  let s := (s.gangsOf c.id).foldl (fun (s : State) g => s.removeGang g.id) s
  (distinct slots).foldl (fun (s : State) i => s.promote c.core i Config.activePerSlot) (s.removeCrew c.id)

/-- Saves a crew: its record is written and released, then its resources are free (R338). -/
def State.preempt (s : State) (c : Crew) : State :=
  let w : Who := { core := c.core, crew := c.id, asid := c.asid, priv := c.priv }
  let p : SavedCrew := { crew := c, gangs := (s.gangsOf c.id).map fun g => g.saved c }
  let s := s.release w 5
  let s := s.openRecord { w with engine := true, priv := true } (c.crewRec.toNat + c.number * c.recordSize) c.recordSize
  { s.vacate c with saved := s.saved ++ [p] }

/-- The victims for a cohort in their order: of lower class, on clusters of CLMASK, lowest class first, then the one blocked
longest (R340). -/
def State.victims (s : State) (l : Launch) : List Crew :=
  let all := s.allCrews.filterMap fun c =>
    if c.effCls < l.effCls && l.r.clmask.getLsbD (c.core / 4) then (s.preemptible c).map fun t => (t, c) else none
  [0, 1, 2, 3].flatMap fun k =>
    let here := all.filter fun e => e.2.effCls = k
    (ordered (here.map Prod.fst)).flatMap fun t => (here.filter fun e => e.1 = t).map Prod.snd

/-- The state with the fewest victims gone with which the cohort fits (R340). -/
def State.makeRoom (s : State) (l : Launch) (v : List Crew) : Option State :=
  ((List.range v.length).filterMap fun k =>
    let t := (v.take (k + 1)).foldl (fun (t : State) c => t.preempt c) s
    if (t.placeCohort l).isSome then some t else none).head?

/-- PREEMPTION: only for a cohort that fits nowhere (R340). -/
def execPreemption (lid : Nat) (s : State) : Out :=
  .next (match s.waitingLaunches.find? fun l => l.lid = lid with
    | some l => if (s.placeCohort l).isSome then s else (s.makeRoom l (s.victims l)).getD s
    | none => s)

/-! ### Resumption (R339) -/

/-- The vector registers of a resumed gang: carried ones as saved, others a free value each (log 10). -/
def openVregs (ctr : Nat) (c : Crew) (v : Sparse Word) : Sparse Word :=
  (List.range 4096).filterMap fun k =>
    let x := if c.carryV.getLsbD (k % 128) then v.get 0 k
      else if k % 128 < c.vregs then (Config.freeValue (ctr + k)).setWidth 32 else 0
    if x = 0 then none else some (k, x)

/-- The scalar registers and predicates of a resumed gang. -/
def openSregs (ctr : Nat) (c : Crew) (m : Sparse Dword) : Sparse Dword :=
  (List.range 64).filterMap fun k =>
    let x := if c.carryS.getLsbD k then m.get 0 k else Config.freeValue (ctr + 4096 + k)
    if x = 0 then none else some (k, x)
def openPreds (ctr : Nat) : Sparse Mask :=
  (List.range 7).filterMap fun k =>
    let x : Mask := (Config.freeValue (ctr + 4160 + k)).setWidth 32
    if x = 0 then none else some (k, x)

/-- Free values one resumed gang takes. -/
def openPerGang : Nat := 4167

/-- A gang comes back: registers outside the carry set hold unspecified values (R339). -/
def State.reenter (s : State) (core : Nat) (c : Crew) (g : Gang) : State :=
  let g := { g with v := openVregs s.freeCtr c g.v, s := openSregs s.freeCtr c g.s, p := openPreds s.freeCtr }
  { s.enterSlot core g with freeCtr := s.freeCtr + openPerGang }

/-- CREW_RESUME: on a core of its cohort's cluster (R339). -/
def execCrewResume (crew : Nat) (s : State) : Out :=
  .next (match s.saved.find? fun p => p.crew.id = crew && p.crew.ended = .running with
    | none => s
    | some p =>
        match s.coreFor (p.crew.core / 4) p.crew.idx p.crew.need with
        | none => s
        | some (core, base) =>
            let c := { p.crew with core := core, scratchBase := base }
            let s : State := { s with saved := s.saved.filter fun q => q.crew.id ≠ crew,
                                      crews := Sparse.put {} s.crews crew c }
            (p.gangs.foldl (fun (s : State) g => s.reenter core c g) s).prepareCore c)

/-! ### The end of a crew (R184, R353) -/

/-- KIND and CAUSE of an exit record (R353). -/
def CrewEnd.kind : CrewEnd → Nat
  | .running | .exited => 0
  | .killed _ => 1
  | .retq => 2
def CrewEnd.cause : CrewEnd → Nat
  | .killed c => c.toNat
  | _ => 0

/-- The 512 bytes of an exit record (R353). -/
def exitBytes (c : Crew) (gangs : List Gang) : List Byte :=
  let smask (i : Nat) := (((gangs.find? fun (g : Gang) => g.ej.isNone && g.idx = i).map fun (g : Gang) => g.smask).getD 0).toNat
  toBytes 4 c.ended.kind ++ toBytes 4 c.ended.cause ++ toBytes 8 c.locates.toNat ++ toBytes 8 c.demotes.toNat ++
    toBytes 8 0 ++ toBytes 4 (c.cohort + c.idx * 2 ^ 24) ++ List.replicate 28 0 ++
    ((List.range 32).flatMap fun i => toBytes 8 (smask i)) ++ List.replicate 192 0

/-- A launch whose crews have all retired and whose exit records are written or dropped ends with KIND 5 (R353, R385). -/
def State.endLaunch (s : State) (lid : Nat) : State :=
  match s.launches.find? fun l => l.lid = lid with
  | none => s
  | some l =>
      if l.placed = l.r.cohorts && l.live = 0 && l.exitsDue = 0 then
        ({ s with launches := s.launches.filter fun l => l.lid ≠ lid } : State).event
          { kind := 5, value := launchValue l.tag lid }
      else s

/-- An exit record is written or dropped. -/
def State.exitDone (s : State) (lid : Nat) : State :=
  (s.updLaunch lid fun l => { l with exitsDue := l.exitsDue - 1 }).endLaunch lid

/-- The event of an exit record that was dropped (R385). -/
def exitDropped (va : Dword) (number : Nat) : Event :=
  { kind := 9, info := va, value := BitVec.ofNat 64 (number % 2 ^ 32 * 2 ^ 16) }

/-- Writes an exit record; a fault goes to the driver (R353). -/
def State.writeExit (s : State) (core lid number : Nat) (va : Dword) (data : List Byte) (asid : Asid) : State :=
  match s.recordWrite { core := core, engine := true, crew := 0, asid := asid, priv := true } va.toNat data with
  | .ok s => s.exitDone lid
  | .error (.trap _) => (s.event (exitDropped va number)).exitDone lid
  | .error (.fault fva acc f) =>
      if f.refused then ((s.recordFault fva asid acc f core).event (exitDropped va number)).exitDone lid
      else (s.openFault fva asid acc f core (.exitRecord lid number va data asid)).2

/-- A crew retires: its stores are released, its resources are free, its exit record is written (R353). -/
def State.retire (s : State) (c : Crew) (gangs : List Gang) : State :=
  let data := exitBytes c gangs
  let va := c.exitRec + BitVec.ofNat 64 (512 * c.number)
  let s := s.updLaunch c.lid fun l => { l with live := l.live - 1 }
  s.writeExit c.core c.lid c.number va data c.asid

/-- Every strand of a crew is DONE, none is on a marionette, and no operation of it is pending (R184). -/
def State.mayRetire (s : State) (c : Crew) : Bool :=
  (s.gangsOf c.id).all (fun g => g.live = 0 && g.ej.isNone) && c.pendingHandles.isEmpty && !s.ops.any fun o => o.crewId = c.id

/-- CREW_RETIRE, of a resident crew or of a pre-empted one that was killed (R184, R353, R386). -/
def execCrewRetire (crew : Nat) (s : State) : Out :=
  .next (match s.allCrews.find? fun c => c.id = crew with
    | some c =>
        if s.mayRetire c then
          let gangs := s.gangsOf crew
          let s := s.release { core := c.core, crew := crew, asid := c.asid, priv := c.priv } 6
          (s.vacate c).retire c gangs
        else s
    | none =>
        match s.saved.find? fun p => p.crew.id = crew && p.crew.ended ≠ .running with
        | some p => ({ s with saved := s.saved.filter fun q => q.crew.id ≠ crew } : State).retire p.crew p.gangs
        | none => s)

end Sys2Proof.Machine
end

