-- ==== Sys2Proof/Machine/Faults.lean ====
section
/-! DEFINITION. Fetching a line (R39-R42), page-table walks (R99), the driver's answers to faults (R100, R384), the side
log's replays and discards (R104, R106), and the firmware path (R188). -/

namespace Sys2Proof.Machine

/-! ### Fetch -/

/-- FETCH_PARITY (R63). -/
def cFetchParity : BitVec 8 := 0x07

/-- A line enters a core's instruction buffer (R40). -/
def Core.keepLine (c : Core) (asid : Asid) (va : Nat) (l : CodeLine) : Core :=
  let rest := c.ibuf.filter fun x => !(x.asid = asid && x.line = va / 64)
  { c with ibuf := ({ asid := asid, line := va / 64, data := l } :: rest).take Config.ibufLines }

/-- The branch of a strand of the run, or of the handler, that reached a slot without a label, or the BRX that names it as its
rejoin PC (R42, R314). -/
def State.unlabelled (s : State) (l : CodeLine) : Option Pc :=
  if (lineWord l).getLsbD (pcSlot s.ipc) then none
  else
    (match s.gang.handler with
      | some b => b.via
      | none => ((Mask.list s.run).filterMap fun i => (s.gang.strand i).via).head?) <|>
      (s.gang.unchecked.find? fun e => e.1 = s.ipc).map Prod.snd

/-- The target bit at a rejoin PC has been looked at. -/
def Gang.checked (g : Gang) (pc : Pc) : Gang := { g with unchecked := g.unchecked.filter fun e => e.1 ≠ pc }

/-- BAD_TARGET of the branch that led to a slot without a label (R42). -/
def State.badLabel (s : State) (branch : Pc) : State :=
  ({ s with gang := s.gang.checked s.ipc } : State).trapAt cBadTarget s.ipc branch s.run false

/-- A good line arrives: the target bit of a branch that could not see it is checked now. -/
def State.lineArrives (s : State) (l : CodeLine) : State :=
  let s : State := { s with sys := s.sys.updCore s.core fun c => c.keepLine s.crew.asid (pcLine s.ipc) l }
  match s.unlabelled l with
  | some b => s.badLabel b
  | none => { s with gang := { (s.gang.setVia s.run none).checked s.ipc with hold := none } }

/-- Fetches the line of the PC; the noises are the bits soft errors flip in the two copies (R39, R41, R85, R100). -/
def State.fetch (s : State) (noise1 noise2 : BitVec 512) : State :=
  let va := pcLine s.ipc
  if Config.ownBase ≤ va then s.trap cWindow s.ipc
  else
    match s.leaf { s.who with engine := true } .fetch va with
    | .error f => s.stop (.fault va .fetch f)
    | .ok (l, s) =>
        let line : CodeLine := BitVec.ofNat 512 (fromBytes (s.homeRead l va 64))
        if parityOk (line ^^^ noise1) then s.lineArrives (line ^^^ noise1)
        else if parityOk (line ^^^ noise2) then
          ({ s with sys := s.sys.updCore s.core fun c => { c with softerr := c.softerr + 1 } } : State).lineArrives (line ^^^ noise2)
        else s.trap cFetchParity (BitVec.ofNat 64 va)

/-- LINE_FETCH: the line a gang would issue from arrives (R39, R40). -/
def execLineFetch (g : Nat) (noise1 noise2 : BitVec 512) (s : State) : Out :=
  let t := s.focus g
  .next (match t.nextIssue with
    | some (pc, run, _) =>
        let t : State := { t.unhold.settle with run := run, ipc := pc }
        if (t.heldLine pc).isSome then s else t.fetch noise1 noise2
    | none => s)

/-! ### Walks -/

/-- MTLB_WALK: a fill, or a fault record (R99, R100). -/
def execMtlbWalk (asid : Asid) (va : Dword) (acc : Access) (isPriv : Bool) (s : State) : Out :=
  .next (if (s.sys.ctx asid).isNone || (s.sys.mtlbFind asid va.toNat).isSome then s
    else
      match s.sys.walkFill asid va.toNat acc isPriv with
      | .ok (_, y) => { s with sys := y }
      | .error f => if f.refused then s.recordFault va.toNat asid acc f 0 else (s.openFault va.toNat asid acc f 0 .device).2)

/-! ### Side log -/

/-- An exit record that still waits for its page, or the count of its discarded entries, takes one more (R353). -/
def countDiscard (va : Dword) (w : Waiter) : Waiter :=
  match w with
  | .discards crew va' n asid => if va' = va then .discards crew va' (n + 1) asid else w
  | .exitRecord lid crew va' data asid =>
      if va' = va then
        .exitRecord lid crew va' (data.take 24 ++ toBytes 8 (fromBytes ((data.drop 24).take 8) + 1) ++ data.drop 32) asid
      else w
  | _ => w

/-- DISCARD of a retired crew's exit record goes up and the record is rewritten; a page that faults goes to the driver, as for
the record itself (R106, R353). -/
def State.countDiscards (s : State) (core number : Nat) (va : Dword) (n : Nat) (asid : Asid) : State :=
  let w : Who := { core := core, engine := true, crew := 0, asid := asid, priv := true }
  let r : Except Stop State := match s.unitRead w (va.toNat + 24) 8 with
    | .error e => .error e
    | .ok (b, s) => s.recordWrite w (va.toNat + 24) (toBytes 8 (fromBytes b + n))
  match r with
  | .ok s => s
  | .error (.trap _) => s.event (exitDropped va number)
  | .error (.fault fva _ f) =>
      if f.ofStore.refused then (s.recordFault fva asid .engineWrite f core).event (exitDropped va number)
      else (s.openFault fva asid .engineWrite f.ofStore core (.discards number va n asid)).2

/-- One more entry of a retired crew was discarded (R106, R353). -/
def State.addDiscard (s : State) (e : LogEntry) : State :=
  let va := e.exitRec + BitVec.ofNat 64 (512 * e.crewNumber)
  let faults := s.sys.faults.map fun f => { f with waiters := f.waiters.map (countDiscard va) }
  if faults ≠ s.sys.faults then { s with sys := { s.sys with faults := faults } }
  else s.countDiscards e.core e.crewNumber va 1 e.asid

/-- A discarded entry is reported to its gang, or in the exit record of a crew that has retired (R106); a write-back has no
gang (R107). -/
def State.reportDiscard (s : State) (e : LogEntry) : State :=
  let item : Dword × Pc := (((e.lanes.head?).map fun l => l.va).getD 0, e.pc)
  let add (g : Gang) : Gang := { g with discarded := g.discarded ++ [item] }
  if e.gangId = 0 then s
  else if (s.findGang e.gangId).id ≠ 0 then s.updGang e.gangId add
  else if s.saved.any fun p => p.gangs.any fun g => g.id = e.gangId then
    { s with saved := s.saved.map fun p => { p with gangs := p.gangs.map fun g => if g.id = e.gangId then add g else g } }
  else s.addDiscard e

/-- A gang's entries that wait for room in a log, of those a test picks, and the gang without them. -/
def Gang.awaitsRoom (g : Gang) (p : LogEntry → Bool) : List LogEntry :=
  match g.hold with
  | some h => (match h.why with
      | .logRoom rest => rest.filter p
      | _ => [])
  | none => []
def Gang.dropRoom (g : Gang) (p : LogEntry → Bool) : Gang :=
  { g with hold := g.hold.map fun h => match h.why with
      | .logRoom rest => { h with why := .logRoom (rest.filter fun e => !p e) }
      | _ => h }

/-- The driver refused a logged page: its entries in a core's log, and those that wait for room there, never happen (R106). -/
def State.discardPage (s : State) (core : Nat) (asid : Asid) (page : Nat) : State :=
  let mine (e : LogEntry) : Bool := e.asid = asid && e.page = page
  let waiting (e : LogEntry) : Bool := e.core = core && mine e
  let gone := ((s.sys.core core).log.filter mine) ++ s.allGangs.flatMap fun g => g.awaitsRoom waiting
  let s : State := { s with sys := s.sys.updCore core fun k => { k with log := k.log.filter fun e => !mine e } }
  let s := s.allGangs.foldl (fun (s : State) g => s.updGang g.id fun g => g.dropRoom waiting) s
  (gone.foldl (fun (s : State) e => s.reportDiscard e) s).refillLogs

/-- The agent of a logged access: its own core, whose L1 the replay passes by. -/
def LogEntry.who (e : LogEntry) : Who :=
  { core := e.core, eject := e.eject, crew := e.crewId, asid := e.asid, priv := e.priv }

/-- The parts of a lane's bytes in memory: one, but for a word that a STITCH list splits. -/
def LogLane.parts (x : LogLane) : List (Nat × Nat) := (x.va.toNat, x.data.length - (x.rest.map Prod.snd).sum) :: x.rest

/-- What a replayed entry asks of its pages. -/
def LogEntry.acc (e : LogEntry) : Access := if e.op.isSome then .atomic else .store

/-- Translates every lane anew before any is applied (R104). -/
def State.replayLeaves (s : State) (e : LogEntry) :
    List LogLane → Except Stop (List (LogLane × List (Nat × Nat × Leaf)) × State)
  | [] => .ok ([], s)
  | x :: rest =>
      match s.leaves { e.who with engine := true } e.acc x.parts with
      | .error f => .error f
      | .ok (ls, s) =>
          match s.replayLeaves e rest with
          | .error f => .error f
          | .ok (xs, s) => .ok ((x, ls) :: xs, s)

/-- Applies one lane as the original instruction would have (R104); lanes on one word are one request (R171). -/
def State.replayLane (s : State) (e : LogEntry) (first : Bool) (x : LogLane) (ls : List (Nat × Nat × Leaf)) : State :=
  match e.op with
  | some op => (s.atomMemory e.who (.rmw op.toNat) e.size (fromBytes x.data) 0 first ls).2
  | none =>
      ls.foldl (fun (s : State) p =>
        s.writePart e.who p.2.2 3 e.rset (s.sys.readers e.who e.rset) p.1 x.data
          (x.tag = some true && wholeGranule p.1 x.data.length)) s

/-- Applies the lanes of an entry in order; `seen` are the words of those before. -/
def State.replayLanes (s : State) (e : LogEntry) (seen : List Nat) :
    List (LogLane × List (Nat × Nat × Leaf)) → State
  | [] => s
  | (x, ls) :: rest =>
      (s.replayLane e (!seen.contains x.va.toNat) x ls).replayLanes e (x.va.toNat :: seen) rest

/-- A line that still has its error, and that no cache holds (R107). -/
def State.replayBad (s : State) (e : LogEntry) (l : List (LogLane × List (Nat × Nat × Leaf))) : Option Nat :=
  ((l.flatMap fun x => x.2).find? fun p =>
    s.sys.isBad (p.2.2.addr p.1) && !(s.sys.entry e.asid (p.1 / 128)).held).map fun p => p.1

/-- The pages an entry has bytes in, the one it is logged under among them. -/
def LogEntry.pages (e : LogEntry) : List Nat := e.page :: e.lanes.flatMap LogLane.pages

/-- Two entries of a context share a page. -/
def LogEntry.meets (e x : LogEntry) : Bool := e.asid = x.asid && e.pages.any fun p => x.pages.contains p

/-- The first entry of a log that a test allows and that no entry before it shares a page with: entries of one page replay in
log order (R104). -/
def firstFree (ok : LogEntry → Bool) : List LogEntry → List LogEntry → Option LogEntry
  | _, [] => none
  | before, e :: rest => if ok e && !before.any e.meets then some e else firstFree ok (e :: before) rest

/-- The entry of a core's log that replays next: its context is resident, and no page of it has an open fault record. -/
def State.replayable (s : State) (core : Nat) : Option LogEntry :=
  firstFree (fun e => (s.sys.ctx e.asid).isSome && !s.sys.faults.any fun f => f.asid = e.asid && f.page = e.page)
    [] (s.sys.core core).log

/-- An entry that faults again goes to the driver, under the page that faulted (R100, R104, R107). -/
def State.replayFault (s : State) (core : Nat) (e : LogEntry) (va : Nat) (f : XFault) : State :=
  if f.refused then (s.recordFault va e.asid .store f core).discardPage core e.asid e.page
  else
    let (_, s) := s.openFault va e.asid .store f core (.log core)
    { s with sys := s.sys.updCore core fun k =>
        { k with log := k.log.map fun x => if x = e then { x with page := va / 65536 } else x } }

/-- Replays an entry: its lanes are translated anew, then applied, and the entry is freed; a fault, or a line that still has
its error, goes to the driver again (R100, R104, R107). -/
def State.replay (s : State) (core : Nat) (e : LogEntry) : State :=
  match s.replayLeaves e e.lanes with
  | .error (.trap _) => s
  | .error (.fault va _ f) => s.replayFault core e va f.ofStore
  | .ok (l, s) =>
      match s.replayBad e l with
      | some va => s.replayFault core e va (.memError false)
      | none =>
          let s := s.replayLanes e [] l
          ({ s with sys := s.sys.updCore core fun k => { k with log := k.log.erase e } } : State).refillLogs

/-- SIDELOG_REPLAY (R104). -/
def execSidelogReplay (core : Nat) (s : State) : Out :=
  .next (match s.replayable core with
    | some e => s.replay core e
    | none => s)

/-! ### The driver's answer (R100, R106, R188, R353, R383, R384) -/

/-- Removes an open record. -/
def State.closeFault (s : State) (id : Nat) : State :=
  { s with sys := { s.sys with faults := s.sys.faults.filter fun f => f.id ≠ id } }

/-- A gang that waits on a record may try again: the same run reissues its instruction; a fetch that was held is chosen
anew. -/
def Gang.retry (g : Gang) (id : Nat) (fetched : Bool) : Gang :=
  match g.hold with
  | some h => if h.why = .fault id then { g with hold := if fetched then some { h with why := .retry } else none } else g
  | none => g

/-- The line a gang's held instruction issued from is in its core's buffer. -/
def State.heldFetched (s : State) (gang : Nat) : Bool :=
  let t := s.focus gang
  t.gang.hold.any fun h => (t.heldLine h.pc).isSome

/-- The push of a gang that was held for its completion record is over (R383). -/
def State.endPush (s : State) (gang : Nat) : State :=
  let t := s.focus gang
  match t.gang.hold with
  | some h =>
      (match h.why with
        | .completion _ x n timeout => ((t.atHold h).moved x { count := n, timeout := timeout }).advance
        | _ => s)
  | none => s

/-- The queue a completion record names. -/
def specKey (spec : BitVec 16) : Nat := spec.toNat % 1024

/-- A held completion record is written at last; a page that faults again goes to the driver again (R383). -/
def State.writeCompletion (s : State) (gang : Nat) (va : Dword) (data : List Byte) (asid : Asid) (ports : BitVec 2)
    (spec : BitVec 16) : State :=
  let core := specKey spec / 16 * 4
  match s.recordWrite { core := core, engine := true, crew := 0, asid := asid, priv := (s.findGang gang).priv } va.toNat data with
  | .ok s => (s.raisePorts asid (specKey spec) ports).endPush gang
  | .error (.trap _) => s
  | .error (.fault fva acc f) =>
      if f.refused then
        (((s.recordFault fva asid acc f core).event (completionDropped va spec)).raisePorts asid (specKey spec) ports).endPush gang
      else (s.openFault fva asid acc f core (.completion gang va data asid ports spec)).2

/-! ### The NIC's accesses (R389) -/

/-- The NIC as an agent: local addresses are translated under the pair's ASID. -/
def QueuePair.who (q : QueuePair) : Who := { core := 0, engine := true, crew := 0, asid := q.asid, priv := false }

/-- The pages of a range as the NIC translates them; the first that fails stops it. -/
def State.nicPages (s : State) (q : QueuePair) (va n : Nat) : Except (Nat × XFault) State :=
  (splitParts 65536 va n).foldlM (fun (s : State) p =>
    match s.leaf q.who .nic p.1 with
    | .error f => Except.error (p.1, f)
    | .ok (_, s) => Except.ok s) s

/-- A fault of the NIC, at its next work entry or at an inbound request, goes to the driver on the firmware path; one that
acts as refused ends the entry or the request (R100, R188, R389). -/
def State.nicFault (s : State) (qp : Nat) (q : QueuePair) (req : Option RoceRequest) (e : Nat × XFault) : State :=
  if e.2.refused then
    let s := s.recordFault e.1 q.asid .nic e.2 0
    if req.isNone then { s with nic := Sparse.upd {} s.nic qp fun q => { q with refused := true } } else s
  else if req.isNone && s.sys.faults.any fun f => f.waiters.contains (.nic qp none) then s
  else (s.openFault e.1 q.asid .nic e.2 0 (.nic qp req)).2

/-- The work entry a pair's send ring holds at its next place: the local address and the length (R389). -/
def State.workEntry (s : State) (q : QueuePair) : Except (Nat × XFault) (Nat × Nat × State) :=
  let va := q.ring.toNat + 64 * (q.next.toNat % 2 ^ q.log)
  match s.leaf q.who .nic va with
  | .error f => .error (va, f)
  | .ok (l, s) =>
      let n := fromBytes (s.homeRead l va 64)
      .ok (bitsAt n 64 64, bitsAt n 224 32, s)

/-- Bytes an inbound request writes under the pair's ASID, a fault recorded with ACCESS 5 (R389). -/
def State.nicWrite (s : State) (qp : Nat) (req : RoceRequest) (va : Nat) (data : List Byte) : State :=
  let q := s.nic.get {} qp
  match s.unitCheck q.who va data.length with
  | .error (.fault fva _ f) => s.nicFault qp q (some req) (fva, f)
  | .error (.trap _) => s
  | .ok s => s.unitWrite q.who va data

/-- What an inbound request does: RDMA WRITE and the response of an RDMA READ write memory, RDMA READ reads it; the spec gives
a SEND no place in memory (R389, log 13). -/
def State.inbound (s : State) (qp : Nat) (req : RoceRequest) : State :=
  match req with
  | .write va data | .writeImm va data _ => s.nicWrite qp req va.toNat data
  | .read va n =>
      let q := s.nic.get {} qp
      (match s.nicPages q va.toNat n with
        | .error e => s.nicFault qp q (some req) e
        | .ok t =>
            match t.unitRead q.who va.toNat n with
            | .error _ => s
            | .ok (b, t) => { t with host := { t.host with lastRead := b } })
  | .send _ => s

/-! ### The driver's answers -/

/-- What an access that joined a record does when the driver has resolved it. -/
def State.resolved (s : State) (id : Nat) (w : Waiter) : State :=
  match w with
  | .gang g _ _ => s.updGang g fun x => x.retry id (s.heldFetched g)
  | .op o _ => s.updOp o fun x => if x.phase = .faulted then { x with phase := .firmware } else x
  | .exitRecord lid crew va data asid => s.writeExit 0 lid crew va data asid
  | .discards crew va n asid => s.countDiscards 0 crew va n asid
  | .completion g va data asid ports spec => s.writeCompletion g va data asid ports spec
  | .nic qp (some req) => s.inbound qp req
  | .log _ | .nic _ none | .ctxdb | .device => s

/-- What it does when the driver has refused it. -/
def State.refused (s : State) (id page : Nat) (asid : Asid) (w : Waiter) : State :=
  match w with
  | .gang g cause info =>
      let t := s.focus g
      (match t.gang.hold with
        | some h => if h.why = .fault id then (t.atHold h).trap cause info else s
        | none => s)
  | .op o cause =>
      (match s.findOp o with
        | some x => if x.phase = .faulted then s.finishOp x (causeCode cause) 0 0 else s
        | none => s)
  | .log core => s.discardPage core asid page
  | .exitRecord lid crew va _ _ => (s.event (exitDropped va crew)).exitDone lid
  | .discards crew va _ _ => s.event (exitDropped va crew)
  | .completion g va _ asid ports spec =>
      ((s.event (completionDropped va spec)).raisePorts asid (specKey spec) ports).endPush g
  | .nic qp none => { s with nic := Sparse.upd {} s.nic qp fun q => { q with refused := true } }
  | .ctxdb => s.ctxdbRefused
  | .nic _ (some _) | .device => s

/-- FAULT_RESOLVE (R100, R104, R384). -/
def execFaultResolve (id : Nat) (s : State) : Out :=
  .next (
    let s : State := { s with host := { s.host with faultresp := BitVec.ofNat 64 (id % 2 ^ 16) } }
    match s.sys.faults.find? fun f => f.id = id with
    | none => s
    | some f => f.waiters.foldl (fun (s : State) w => s.resolved id w) (s.closeFault id))

/-- FAULT_REFUSE (R100, R106, R188, R384). -/
def execFaultRefuse (id : Nat) (s : State) : Out :=
  .next (
    let s : State := { s with host := { s.host with faultresp := BitVec.ofNat 64 (2 ^ 16 + id % 2 ^ 16) } }
    match s.sys.faults.find? fun f => f.id = id with
    | none => s
    | some f => f.waiters.foldl (fun (s : State) w => s.refused id f.page f.asid w) (s.closeFault id))

/-! ### The firmware path (R188) -/

/-- What the engine of an operation does. -/
def State.opWork (s : State) (o : EngineOp) : Except Stop (OpResult × State) :=
  match o.kind with
  | .copy .. | .gather .. | .scatter .. => s.copyWork o
  | .topk .. => s.topkWork o
  | .splice .. => s.spliceWork o
  | _ => s.matrixWork o

/-- FIRMWARE_PATH_COMPLETE: the remainder is performed and the handle completed; a cancelled operation stops (R183, R188). -/
def execFirmwarePathComplete (op : Nat) (s : State) : Out :=
  .next (match s.findOp op with
    | some o =>
        if o.phase = .firmware || (o.cancel && o.phase = .faulted && !o.kind.isSplice) then s.complete o State.opWork else s
    | none => s)

end Sys2Proof.Machine
end

