-- ==== Sys2Proof/Machine/Events.lean ====
section
/-! DEFINITION. Events inside a core: results that land (R35, R58), swaps of gangs (R332), the hand-overs to the marionettes
and back (R316, R321) and the end of a rejoin wait (R319). -/

namespace Sys2Proof.Machine

/-! ### Results -/

/-- FIXED_RESULT_DELIVERY: what is due is in its register (R35). -/
def execFixedResultDelivery (g : Nat) (s : State) : Out :=
  .next (s.updGang g fun x => { x with shadows := pruneShadows s.clock x.shadows })

/-- VARIABLE_RESULT_LANDS (R58). -/
def execVariableResultLands (g : Nat) (s : State) : Out := .next (s.landVariable g)

/-! ### Swaps (R332) -/

/-- The gang in focus waits for one of the results of R332, on a hold or at a JOIN; a result is awaited once the STALL gap is over. -/
def State.waiting (s : State) : Bool :=
  let t := s.unhold.settle
  match t.gang.hold with
  | some h => !t.released h.why
  | none =>
      match t.chosen with
      | none => t.gang.inState (fun x => x = .waitj) ≠ 0
      | some (pc, _) => t.gang.nextIssue ≤ t.clock && t.waitsSlow pc

/-- The cycle at which a gang that waits began to: its hold or its wait at a JOIN, or the end of the STALL gap behind which a
result is awaited. -/
def State.waitBegan (s : State) (g : Gang) : Nat :=
  if g.hold.isSome || (s.focus g.id).unhold.settle.chosen.isNone then g.since else g.nextIssue

/-- The active gang of a slot that has waited longest; of several, the one that issued least recently. -/
def State.longestWaiting (s : State) (core slot : Nat) : Option Gang :=
  let l := (s.slotGangs core slot).filter fun g => g.active && g.live ≠ 0 && (s.focus g.id).waiting
  match minList (l.map s.waitBegan) with
  | none => none
  | some t =>
      let l := l.filter fun g => s.waitBegan g = t
      match minList (l.map fun g => g.lastIssue) with
      | none => none
      | some k => l.find? fun g => g.lastIssue = k

/-- GANG_SWAP: slot `slot` of the device is slot mod 4 of core slot / 4 (R332). -/
def execGangSwap (slot : Nat) (s : State) : Out :=
  .next (
    let core := slot / Config.slotsPerCore
    let i := slot % Config.slotsPerCore
    match s.longestWaiting core i, s.firstReady core i with
    | some out, some new => s.swap core i out.id new.id
    | _, _ => s)

/-! ### Marionettes (R316, R317, R321) -/

/-- The registers of a live range. -/
def liveRegs (l : Option (Nat × Nat)) : List Nat :=
  match l with
  | some (a, b) => (List.range (b + 1 - a)).map fun k => a + k
  | none => []

/-- Copies a strand's live registers from one gang's to another's (R316). -/
def copyLive (strand : Nat) (regs : List Nat) (src dst : Sparse Word) : Sparse Word :=
  regs.foldl (fun m r => Sparse.put 0 m (strand * 128 + r) (src.get 0 (strand * 128 + r))) dst

/-- An MXDRAIN.R of the parent still owes a live register (R254, R316). -/
def State.liveOwed (s : State) (e : Ejection) : Bool :=
  s.ops.any fun o =>
    o.gangId = e.parent &&
      match o.kind with
      | .drainR d dt .. => (liveRegs e.live).any fun r => d ≤ r && r < d + drainRegs dt
      | _ => false

/-- The hand-over of an ejected strand may end: every result of earlier instructions it carries has landed (R316). -/
def State.handoverReady (s : State) (e : Ejection) : Bool :=
  e.awaits.isEmpty && !s.liveOwed e && e.lands ≤ s.clock && e.marks.isEmpty

/-- HANDOVER_OUT_COMPLETE: every result of earlier instructions has landed; the core's dirty bytes go to the cluster cache
(R316). -/
def execHandoverOutComplete (g : Nat) (s : State) : Out :=
  .next (
    let x := s.findGang g
    match x.ej with
    | some e =>
        if (x.strand e.strand).st = .out && s.handoverReady e then
          let c := s.findCrew x.crewId
          let p := s.findGang e.parent
          let s := s.l1Release { core := c.core, crew := c.id, asid := c.asid, priv := x.priv }
          let s := s.updGang g fun x =>
            ({ x.mapStrands e.mask (fun y => { y with st := .ej }) with
                v := copyLive e.strand (liveRegs e.live) p.v x.v, nextIssue := s.clock } : Gang).rejoins
          s.showEjected g
        else s
    | none => s)

/-- Results in flight since before a hand-over no longer hide what the strand brings back (R57, R316). -/
def dropShadows (m : Mask) (regs : List Nat) (l : List Shadow) : List Shadow :=
  l.map fun x =>
    match x.old with
    | .v n w old => if regs.contains n then { x with old := .v n (w &&& ~~~m) old } else x
    | .p n w old => { x with old := .p n (w &&& ~~~m) old }
    | _ => x

/-- One strand's bits of some predicates taken from another table. -/
def mergePreds (m : Mask) (keys : List Nat) (src dst : Sparse Mask) : Sparse Mask :=
  keys.foldl (fun t k => Sparse.put 0 t k ((dst.get 0 k &&& ~~~m) ||| (src.get 0 k &&& m))) dst

/-- The parent of a strand that has come back: live registers, predicates, rounding state, flags (R80, R316). While the parent
is in its handler, p4-p6 go to the gang's own copies (R360, R362). -/
def Gang.receive (p g : Gang) (e : Ejection) : Gang :=
  let m := e.mask
  { p with shadows := dropShadows m (liveRegs e.live) p.shadows,
           v := copyLive e.strand (liveRegs e.live) g.v p.v,
           p := mergePreds m ((List.range 7).filter fun k => p.handler.isNone || !bankedP.contains k) g.p p.p,
           handler := p.handler.map fun b => { b with p := mergePreds m bankedP g.p b.p },
           rnd := Sparse.put 0 p.rnd e.strand (g.rnd.get 0 e.strand), fpstat := p.fpstat ||| g.fpstat }

/-- Where a returned strand stands: it waits while its group is open, at a JOIN (`waits`) only (R309, R318). -/
def Gang.comesBack (p : Gang) (e : Ejection) (y : Strand) (waits : Bool) : Gang :=
  let openGroup := p.groups.any fun r => r.rejoin = e.rejoin && r.members.getLsbD e.strand
  p.mapStrands e.mask fun _ => { y with age := 0, st := if e.cause.isNone && openGroup && waits then .waitj else .ready }

/-- A JOIN stands at the PC and REJOINWAIT lets strands wait there (R318, R319). -/
def State.joinAt (s : State) (pc : Pc) : Bool := s.crew.rejoinWait ≠ 0 && (s.peekOp pc).any fun x => x.1 = .join

/-- A hand-back may end: not with a cause while its gang holds an instruction that has taken effect in part (R321). -/
def State.handbackReady (s : State) (e : Ejection) : Bool :=
  e.cause.isNone || !(s.findGang e.parent).hold.any fun h =>
    match h.why with
    | .completion .. | .ctxload .. | .logRoom _ => true
    | _ => false

/-- HANDBACK_COMPLETE: the core drops its clean lines; a cause the strand raised traps the gang, but not in its handler
(R316, R321). -/
def execHandbackComplete (g : Nat) (s : State) : Out :=
  .next (
    let x := s.findGang g
    match x.ej with
    | some e =>
        let pc := (x.strand e.strand).pc
        if (x.strand e.strand).st = .back && s.handbackReady e then
          let c := s.findCrew x.crewId
          let s := s.l1Acquire { core := c.core, crew := c.id, asid := c.asid, priv := x.priv }
          let s := (s.removeGang g).updGang e.parent fun p =>
            (p.receive x e).comesBack e (x.strand e.strand) ((s.focus e.parent).joinAt pc)
          match e.cause with
          | none => s
          | some (cause, info, trapPc) =>
              let t := s.focus e.parent
              if t.inHandler || t.gang.suspended ≠ .no then s
              else
                let t : State :=
                  if cause = cLocate then { t with gang := { t.gang with located := (trapPc, e.mask) :: t.gang.located } } else t
                ({ t with run := e.mask, ipc := pc } : State).trapAt cause info trapPc e.mask true
        else s
    | none => s)

/-- REJOINWAIT_EXPIRY (R319). -/
def execRejoinwaitExpiry (g grp : Nat) (s : State) : Out :=
  .next (s.updGang g fun x =>
    { x with groups := (x.groups.zip (List.range x.groups.length)).map fun e =>
        if e.2 = grp && e.1.expires.any (fun t => t ≤ s.clock) then { e.1 with expired := true } else e.1 })

end Sys2Proof.Machine
end

