-- ==== Sys2Proof/Machine/Device.lean ====
section
/-! DEFINITION. The device as a whole: host and peer accesses to memory (R305-R308), BAR0 registers and rings (R380-R384),
Plovlan ports (R291), the NIC (R389), resets and boot (R390), attestation (R391), power (R393). -/

namespace Sys2Proof.Machine

/-! ### Host and peer accesses to memory -/

/-- A range of device memory (R96, R380). -/
def inMemory (pa n : Nat) : Bool := pa + n ≤ Config.memTop

/-- A write from outside that covers a line mends its error (R107, log 51). -/
def Sys.mend (y : Sys) (pa n : Nat) : Sys :=
  let first := (pa + 127) / 128
  let whole := (List.range ((pa + n) / 128 - first)).map fun k => moduleLine ((first + k) * 128)
  { y with bad := y.bad.filter fun l => !whole.contains l }

/-- A write from outside lands at the home: copies are invalidated, tags cleared (R92, R306). -/
def State.landWrite (s : State) (pa : Nat) (data : List Byte) : State :=
  let y := (splitParts 128 pa data.length).foldl (fun (y : Sys) p => y.outsideWrite p.1 p.2) s.sys
  { s with sys := (y.setBytes pa data).mend pa data.length }

/-- A write from outside to device memory; no other address exists (R380). -/
def State.writeFromOutside (s : State) (pa : Nat) (data : List Byte) : Out :=
  if inMemory pa data.length then .next (s.landWrite pa data) else .fault (.noSuchAddress pa)

/-- A read from outside: the bytes at the home (R305, R307). -/
def State.readFromOutside (s : State) (pa n : Nat) : Out :=
  if inMemory pa n then .next { s with host := { s.host with lastRead := s.sys.bytes pa n } }
  else .fault (.noSuchAddress pa)

/-- HOST_MEM_WRITE (R306). -/
def execHostMemWrite (pa : Nat) (data : List Byte) (s : State) : Out := s.writeFromOutside pa data

/-- HOST_MEM_READ (R305). -/
def execHostMemRead (pa n : Nat) (s : State) : Out := s.readFromOutside pa n

/-- The table of a Plovlan port lets a peer reach every frame of a range (R388). -/
def Sys.portAllows (y : Sys) (a : PortAddr) (n : Nat) : Bool :=
  (splitParts 65536 a.pa n).all fun p => !y.portDenied.contains (a.port * 2 ^ 32 + p.1 / 65536)

/-- PEER_MEM_WRITE: one that the port's table denies is refused on the link (R306, R388). -/
def execPeerMemWrite (a : PortAddr) (data : List Byte) (s : State) : Out :=
  if s.sys.portAllows a data.length then s.writeFromOutside a.pa data else .next s

/-- PEER_MEM_READ: one that the port's table denies is refused on the link (R307, R388). -/
def execPeerMemRead (a : PortAddr) (n : Nat) (s : State) : Out :=
  if s.sys.portAllows a n then s.readFromOutside a.pa n else .next s

/-! ### BAR0 (R380-R384) -/

/-- The link of a port is up: a write through it arrives. -/
def HostSide.linkUp (h : HostSide) (p : Port) : Bool :=
  match p with
  | .portA => h.linkA
  | .portB => h.linkB

/-- OWNER of a port (R381). -/
def ownerOf (p : Port) : BitVec 2 := if p = .portA then 1 else 2

/-- HSEM_CLAIM (R381). -/
def execHsemClaim (port : Port) (s : State) : Out :=
  .next (if s.host.linkUp port && s.host.owner = 0 then
      { s with host := { s.host with owner := ownerOf port, gen := s.host.gen + 1 } }
    else s)

/-- A port loses or gives up HSEM (R381). -/
def State.dropHsem (s : State) (port : Port) : State :=
  if s.host.owner = ownerOf port then { s with host := { s.host with owner := 0 } } else s

/-- HSEM_RELEASE (R381). -/
def execHsemRelease (port : Port) (s : State) : Out := .next (if s.host.linkUp port then s.dropHsem port else s)

/-- RING_HEAD_WRITE (R381, R384). -/
def execRingHeadWrite (ring : Ring) (head : Word) (s : State) : Out :=
  .next ((match ring with
    | .fault => { s with host := { s.host with faultHead := head } }
    | .event => { s with host := { s.host with eventHead := head } } : State).drainRing ring)

/-- The bits of FAULTQ and EVENTQ (R381). -/
def ringMask : Dword := 0x3FFFFFFF01F

/-- FAULTQ_EVENTQ_WRITE (R384). -/
def execFaultqEventqWrite (ring : Ring) (value : Dword) (s : State) : Out :=
  .next ((match ring with
    | .fault => { s with host := { s.host with faultq := value &&& ringMask } }
    | .event => { s with host := { s.host with eventq := value &&& ringMask } } : State).drainRing ring)

/-- A write that takes effect only from the owner of HSEM (R381). -/
def State.guarded (s : State) (port : Port) (f : State → State) : State :=
  if s.host.linkUp port && s.host.owns port then f s else s

/-- The bits of PEERMAP (R381). -/
def peermapMask : Dword := 0x01FFFFFFC00083FF

/-- BAR0_REGISTER_WRITE: PEERMAP stores its fields; a register that is not there, and an action that is ignored, have no
effect (R4, R381). The firmware-update mailbox keeps what the owner of HSEM writes; what firmware makes of it the spec does not
say (log 12). -/
def execBar0RegisterWrite (port : Port) (reg : Bar0Reg) (value : Dword) (s : State) : Out :=
  .next (match reg with
    | .peermap i =>
        if i < 15 then
          s.guarded port fun s =>
            { s with host := { s.host with peermap := Sparse.put 0 s.host.peermap i (value &&& peermapMask) } }
        else s
    | .gangctlIgnored => { s with host := { s.host with gangctl := value &&& 0xDFFFFFFFFFFFFF } }
    | .firmwareUpdate => s.guarded port fun s => { s with host := { s.host with fwMailbox := value } }
    | .unassigned _ => s)

/-- The 64-bit word of BAR0 at an offset: reserved bits and offsets that name nothing read as zero (R4, R381); a queue's
doorbell block shows HEAD and TAIL in its second half (R382). -/
def State.barWord (s : State) (off : Nat) : Nat :=
  let h := s.host
  if off < 0x10000 then
    match off with
    | 0x00 => h.gen.toNat * 2 ^ 16 + h.owner.toNat
    | 0x20 => h.faultq.toNat
    | 0x28 => h.eventq.toNat
    | 0x30 => h.faultTail.toNat * 2 ^ 32 + h.faultHead.toNat
    | 0x38 => h.eventTail.toNat * 2 ^ 32 + h.eventHead.toNat
    | 0x40 => h.launchdb.toNat
    | 0x48 => h.gangctl.toNat
    | 0x50 => h.faultresp.toNat
    | 0x60 => h.powercfg.toNat
    | 0x70 => h.ctxdbReg.toNat
    | _ => if 0x80 ≤ off && off < 0x80 + 8 * 15 then (h.peermap.get 0 ((off - 0x80) / 8)).toNat else 0
  else
    let q := (off - 0x10000) / 16
    if queueExists (q / 16) (q % 16) && off % 16 = 8 then (s.queue q).tail.toNat * 2 ^ 32 + (s.queue q).head.toNat else 0

/-- A host's read of BAR0. -/
def State.barRead (s : State) (off n : Nat) : State :=
  let byte (k : Nat) : Byte := BitVec.ofNat 8 (s.barWord (k / 8 * 8) / 2 ^ (8 * (k % 8)))
  { s with host := { s.host with lastRead := (List.range n).map fun k => byte (off + k) } }

/-- POWERCFG_WRITE (R381, R393). -/
def execPowercfgWrite (port : Port) (tokens : BitVec 16) (s : State) : Out :=
  .next (s.guarded port fun s => { s with host := { s.host with powercfg := tokens } })

/-! ### Plovlan ports (R291) -/

/-- A Plovlan port. -/
def isPort (i : Nat) : Bool := i < 16

/-- Sets a port's link. -/
def State.setLink (s : State) (i : Nat) (l : LinkState) : State :=
  { s with sys := { s.sys with links := Sparse.put .up s.sys.links i l } }

/-- Since when a port retrains. -/
def Sys.retrainsSince (y : Sys) (i : Nat) : Option Nat :=
  match y.link i with
  | .retraining t => some t
  | _ => none

/-- PORT_RETRAIN_BEGIN: the limit of 500 µs runs from now (R291). -/
def execPortRetrainBegin (i : Nat) (s : State) : Out :=
  .next (if isPort i && (s.sys.retrainsSince i).isNone then s.setLink i (.retraining s.clock) else s)

/-- The writes held for a port. -/
def Sys.heldFor (y : Sys) (i : Nat) : List HeldWrite := y.held.filter fun h => h.port = i
def Sys.withoutHeld (y : Sys) (i : Nat) : Sys := { y with held := y.held.filter fun h => h.port ≠ i }

/-- PORT_RETRAIN_COMPLETE: the writes the port held are performed in order (R291). -/
def execPortRetrainComplete (i : Nat) (s : State) : Out :=
  .next (if (s.sys.retrainsSince i).isSome then
      let y := (s.sys.heldFor i).foldl (fun (y : Sys) h => y.setPeer h.pa h.data) (s.sys.withoutHeld i)
      ({ s with sys := y } : State).setLink i .up
    else s)

/-- PORT_RETRAIN_TIMEOUT: the port is down, the writes it held are discarded and reported (R291, R385). -/
def execPortRetrainTimeout (i : Nat) (s : State) : Out :=
  .next (match s.sys.retrainsSince i with
    | none => s
    | some t =>
        if s.clock < t + Config.retrainLimit then s
        else
          let held := s.sys.heldFor i
          let y := held.foldl (fun (y : Sys) h => y.dropWrite h.asid i 1) (s.sys.withoutHeld i)
          let s := ({ s with sys := y } : State).setLink i .down
          if held.isEmpty then s else s.event (discardedWrites i held.length))

/-! ### The NIC (R389) -/

/-- A queue pair of the package. -/
def isPair (qp : Nat) : Bool := qp < 4096

/-- NIC_DOORBELL (R389). -/
def execNicDoorbell (qp : Nat) (tail : Word) (s : State) : Out :=
  .next (if isPair qp then { s with nic := Sparse.upd {} s.nic qp fun q => { q with tail := tail } } else s)

/-- A completion entry: its bytes are not given (free value, log 10, log 13). -/
def openEntry (ctr : Nat) : BitVec 512 :=
  BitVec.ofNat 512 ((List.range 8).foldl (fun a i => a + (Config.freeValue (ctr + i)).toNat * 2 ^ (64 * i)) 0)

/-- The next work entry of a pair is over: its completion entry goes to the pair's queue (R307, R389). -/
def State.nicDone (s : State) (qp : Nat) (q : QueuePair) : State :=
  match s.outsidePush (q.cq / 16) (q.cq % 16) (openEntry s.freeCtr) with
  | none => s
  | some t =>
      { t with freeCtr := t.freeCtr + 8,
               nic := Sparse.upd {} t.nic qp fun q => { q with next := q.next + 1, refused := false } }

/-- NIC_COMPLETION: the NIC takes the next work entry; one whose fault was refused completes too (R188, R307, R389). -/
def execNicCompletion (qp : Nat) (s : State) : Out :=
  .next (
    let q := s.nic.get {} qp
    if !isPair qp || q.next = q.tail then s
    else if q.refused then s.nicDone qp q
    else
      match s.workEntry q with
      | .error e => s.nicFault qp q none e
      | .ok (va, n, t) =>
          match t.nicPages q va n with
          | .error e => s.nicFault qp q none e
          | .ok t => t.nicDone qp q)

/-- ROCE_INBOUND_REQUEST (R389). -/
def execRoceInboundRequest (qp : Nat) (req : RoceRequest) (s : State) : Out :=
  .next (if isPair qp then s.inbound qp req else s)

/-! ### Resets and boot (R390) -/

/-- Every operation is cancelled and over: nothing is pending of any crew. -/
def State.dropOps (s : State) : State :=
  let clear (c : Crew) : Crew := { c with handles := c.handles.map fun e => (e.1, { e.2 with pending := false }) }
  { s with ops := [], crew := clear s.crew, crews := s.crews.map fun e => (e.1, clear e.2) }

/-- Every crew is killed and its exit record written (R353, R390). -/
def State.killAll (s : State) : State :=
  let ids := s.allCrews.map fun c => c.id
  let s := (ids.foldl (fun (s : State) c => s.killCrew c (s.trappedCause c)) s).dropOps
  let s := ids.foldl (fun (s : State) id =>
    let c := s.findCrew id
    let gangs := s.gangsOf id
    let s := s.release { core := c.core, crew := id, asid := c.asid, priv := c.priv } 6
    (s.vacate c).retire c gangs) s
  s.saved.foldl (fun (s : State) p =>
    let c := { p.crew with ended := if p.crew.ended = .running then .killed 0 else p.crew.ended }
    s.retire c p.gangs) { s with saved := [] }

/-- The memory system without contexts and with empty caches; memory keeps its contents, the firmware region does not
(R390). -/
def Sys.warm (y : Sys) : Sys :=
  { y with mtlb := [], rev := [], seals := [], dir := [], ctxs := [], peerLines := [], peerSeen := [],
           cores := y.cores.map (fun e => (e.1, { e.2 with l1 := [], ibuf := [], log := [], softerr := 0, active := {},
                                                           shadow := {}, prio := [] })),
           links := y.links.map fun e => (e.1, match e.2 with
             | .retraining _ => .retraining 0
             | l => l) }

/-- The tokens of the rings after a reset (R243). -/
def HostSide.tokens (h : HostSide) : List Token :=
  (List.range Config.dies).flatMap fun d => (List.range (h.tokenCount d)).map fun t =>
    { die := d, place := t, held := false, since := 0 }

/-- A warm reset (R390). -/
def State.warmReset (s : State) : State :=
  let s := s.killAll
  { s with gang := {}, crew := {}, queues := [], sys := s.sys.warm, tokens := s.host.tokens, clock := 0 }

/-- WARM_RESET (R381, R390). -/
def execWarmReset (port : Port) (s : State) : Out := .next (s.guarded port State.warmReset)

/-- CRITICAL_TEMPERATURE (R393). -/
def execCriticalTemperature (s : State) : Out := .next s.warmReset

/-- What the boot ROM has done so far: the measurements, and whether a stage failed (R390). -/
def bootStage (a : Sparse (BitVec 512) × Bool) (n : Nat) (g : FirmwareStage) : Sparse (BitVec 512) × Bool :=
  if a.2 || !Config.stageVerifies g.image g.signature then (a.1, true)
  else
    let old := toBytes 64 (a.1.get 0 n).toNat
    let m := toBytes 64 (sha3 g.image).toNat
    (if n < 8 then Sparse.put 0 a.1 n (sha3 (old ++ m)) else a.1, false)

/-- Measures, verifies and extends the stages in order; one beyond MEAS7 has no register to extend (R390, log 38). -/
def boot (stages : List FirmwareStage) : Sparse (BitVec 512) × Bool :=
  ((List.range stages.length).zip stages).foldl (fun a e => bootStage a e.1 e.2) ([], false)

/-- COLD_RESET: the device as after power-on, with what the boot ROM measured (R390). -/
def execColdReset (stages : List FirmwareStage) (s : State) : Out :=
  let (m, failed) := boot stages
  .next { State.reset with
    host := { State.reset.host with meas := m, bootHalted := failed },
    freeCtr := s.freeCtr, turns := s.turns }

/-- FUNCTION_LEVEL_RESET: the port's HSEM and MSI-X state alone (R390). -/
def execFunctionLevelReset (port : Port) (s : State) : Out :=
  .next (
    let s := s.dropHsem port
    { s with host := { s.host with msix := s.host.msix.filter fun e => e.1 ≠ port } })

/-- HOST_LINK_DOWN (R381). -/
def execHostLinkDown (port : Port) (s : State) : Out :=
  .next (
    let s := s.dropHsem port
    { s with host := match port with
        | .portA => { s.host with linkA := false }
        | .portB => { s.host with linkB := false } })

/-! ### Attestation and power (R391, R393) -/

/-- Bytes cut or padded to a length. -/
def fitBytes (n : Nat) (l : List Byte) : List Byte := (List.range n).map fun i => l.getD i 0

/-- The attestation report of a nonce (R391). -/
def HostSide.attest (h : HostSide) (nonce : BitVec 512) : List Byte :=
  let body := toBytes 64 nonce.toNat ++ ((List.range 8).flatMap fun i => toBytes 64 (h.meas.get 0 i).toNat) ++
    fitBytes 2592 (Config.identityKey (h.meas.get 0 0))
  body ++ fitBytes 4627 (Config.signReport (h.meas.get 0 0) body)

/-- ATTESTATION_REPORT (R381, R391). -/
def execAttestationReport (port : Port) (nonce : BitVec 512) (s : State) : Out :=
  .next (s.guarded port fun s => { s with host := { s.host with report := s.host.attest nonce } })

/-- The token counts of POWERCFG, die by die (R381). -/
def dieTokens (x : BitVec 16) : List Nat := (List.range 4).map fun d => bitsAt x.toNat (4 * d) 4

/-- POWER_THERMAL_LIMIT: firmware lowers counts and writes them into POWERCFG (R393). -/
def execPowerThermalLimit (tokens : BitVec 16) (s : State) : Out :=
  .next (if ((dieTokens tokens).zip (dieTokens s.host.powercfg)).all fun e => e.1 ≤ e.2 then
      { s with host := { s.host with powercfg := tokens } }
    else s)

/-- POWER_THERMAL_CLEAR: firmware raises them again (R393). -/
def execPowerThermalClear (tokens : BitVec 16) (s : State) : Out :=
  .next (if ((dieTokens tokens).zip (dieTokens s.host.powercfg)).all fun e => e.2 ≤ e.1 then
      { s with host := { s.host with powercfg := tokens } }
    else s)

end Sys2Proof.Machine
end

