-- ==== Sys2Proof/Machine/Dispatch.lean ====
section
/-! DEFINITION. One arm for every instruction and event of the opcode table: a direct call of its meaning. -/

namespace Sys2Proof.Machine

/-- The meaning of an instruction or event (R60 and the device's events). -/
def exec (i : Instr) (s : State) : Host.Outcome State Fault Refusal :=
  match i with
  | .iadd x => Sys2Proof.Machine.execIadd x s
  | .isub x => Sys2Proof.Machine.execIsub x s
  | .imul x => Sys2Proof.Machine.execImul x s
  | .imulh x => Sys2Proof.Machine.execImulh x s
  | .imad x => Sys2Proof.Machine.execImad x s
  | .idiv x => Sys2Proof.Machine.execIdiv x s
  | .irem x => Sys2Proof.Machine.execIrem x s
  | .imin x => Sys2Proof.Machine.execImin x s
  | .imax x => Sys2Proof.Machine.execImax x s
  | .and x => Sys2Proof.Machine.execAnd x s
  | .or x => Sys2Proof.Machine.execOr x s
  | .xor x => Sys2Proof.Machine.execXor x s
  | .andn x => Sys2Proof.Machine.execAndn x s
  | .shl x => Sys2Proof.Machine.execShl x s
  | .shr x => Sys2Proof.Machine.execShr x s
  | .sar x => Sys2Proof.Machine.execSar x s
  | .rot x => Sys2Proof.Machine.execRot x s
  | .bfx x => Sys2Proof.Machine.execBfx x s
  | .bfi x => Sys2Proof.Machine.execBfi x s
  | .popc x => Sys2Proof.Machine.execPopc x s
  | .clz x => Sys2Proof.Machine.execClz x s
  | .brev x => Sys2Proof.Machine.execBrev x s
  | .icmp x => Sys2Proof.Machine.execIcmp x s
  | .sel x => Sys2Proof.Machine.execSel x s
  | .mov x => Sys2Proof.Machine.execMov x s
  | .lea x => Sys2Proof.Machine.execLea x s
  | .prmt x => Sys2Proof.Machine.execPrmt x s
  | .plop x => Sys2Proof.Machine.execPlop x s
  | .idot4 x => Sys2Proof.Machine.execIdot4 x s
  | .iabs x => Sys2Proof.Machine.execIabs x s
  | .fadd x => Sys2Proof.Machine.execFadd x s
  | .fsub x => Sys2Proof.Machine.execFsub x s
  | .fmul x => Sys2Proof.Machine.execFmul x s
  | .ffma x => Sys2Proof.Machine.execFfma x s
  | .fmin x => Sys2Proof.Machine.execFmin x s
  | .fmax x => Sys2Proof.Machine.execFmax x s
  | .fcmp x => Sys2Proof.Machine.execFcmp x s
  | .fclass x => Sys2Proof.Machine.execFclass x s
  | .frcp x => Sys2Proof.Machine.execFrcp x s
  | .frsq x => Sys2Proof.Machine.execFrsq x s
  | .fsqrt x => Sys2Proof.Machine.execFsqrt x s
  | .fexp2 x => Sys2Proof.Machine.execFexp2 x s
  | .flog2 x => Sys2Proof.Machine.execFlog2 x s
  | .fdiv x => Sys2Proof.Machine.execFdiv x s
  | .fscale x => Sys2Proof.Machine.execFscale x s
  | .fround x => Sys2Proof.Machine.execFround x s
  | .hadd2 x => Sys2Proof.Machine.execHadd2 x s
  | .hmul2 x => Sys2Proof.Machine.execHmul2 x s
  | .hfma2 x => Sys2Proof.Machine.execHfma2 x s
  | .cvt x => Sys2Proof.Machine.execCvt x s
  | .cvti x => Sys2Proof.Machine.execCvti x s
  | .mxpack x => Sys2Proof.Machine.execMxpack x s
  | .mxunpack x => Sys2Proof.Machine.execMxunpack x s
  | .ternq x => Sys2Proof.Machine.execTernq x s
  | .ld x => Sys2Proof.Machine.execLd x s
  | .st x => Sys2Proof.Machine.execSt x s
  | .ldc x => Sys2Proof.Machine.execLdc x s
  | .stc x => Sys2Proof.Machine.execStc x s
  | .ldp x => Sys2Proof.Machine.execLdp x s
  | .stp x => Sys2Proof.Machine.execStp x s
  | .lds x => Sys2Proof.Machine.execLds x s
  | .sts x => Sys2Proof.Machine.execSts x s
  | .park x => Sys2Proof.Machine.execPark x s
  | .unpark x => Sys2Proof.Machine.execUnpark x s
  | .revise x => Sys2Proof.Machine.execRevise x s
  | .prefetch x => Sys2Proof.Machine.execPrefetch x s
  | .flush x => Sys2Proof.Machine.execFlush x s
  | .inval x => Sys2Proof.Machine.execInval x s
  | .capset x => Sys2Proof.Machine.execCapset x s
  | .capnarrowRange x => Sys2Proof.Machine.execCapnarrowRange x s
  | .capnarrowPerm x => Sys2Proof.Machine.execCapnarrowPerm x s
  | .capnarrowSubtile x => Sys2Proof.Machine.execCapnarrowSubtile x s
  | .capnarrowVersion x => Sys2Proof.Machine.execCapnarrowVersion x s
  | .capnarrowRetype x => Sys2Proof.Machine.execCapnarrowRetype x s
  | .capget x => Sys2Proof.Machine.execCapget x s
  | .capchk x => Sys2Proof.Machine.execCapchk x s
  | .capmov x => Sys2Proof.Machine.execCapmov x s
  | .seal x => Sys2Proof.Machine.execSeal x s
  | .sealOpen x => Sys2Proof.Machine.execSealOpen x s
  | .reseal x => Sys2Proof.Machine.execReseal x s
  | .atom x => Sys2Proof.Machine.execAtom x s
  | .red x => Sys2Proof.Machine.execRed x s
  | .cas x => Sys2Proof.Machine.execCas x s
  | .atoms x => Sys2Proof.Machine.execAtoms x s
  | .cass x => Sys2Proof.Machine.execCass x s
  | .fence x => Sys2Proof.Machine.execFence x s
  | .fenceSc x => Sys2Proof.Machine.execFenceSc x s
  | .fenceComplete g => Sys2Proof.Machine.execFenceComplete g s
  | .barSync x => Sys2Proof.Machine.execBarSync x s
  | .barArrive x => Sys2Proof.Machine.execBarArrive x s
  | .barWait x => Sys2Proof.Machine.execBarWait x s
  | .barset x => Sys2Proof.Machine.execBarset x s
  | .waith x => Sys2Proof.Machine.execWaith x s
  | .testh x => Sys2Proof.Machine.execTesth x s
  | .cancelh x => Sys2Proof.Machine.execCancelh x s
  | .bra x => Sys2Proof.Machine.execBra x s
  | .brx x => Sys2Proof.Machine.execBrx x s
  | .join x => Sys2Proof.Machine.execJoin x s
  | .call x => Sys2Proof.Machine.execCall x s
  | .ret x => Sys2Proof.Machine.execRet x s
  | .jmpr x => Sys2Proof.Machine.execJmpr x s
  | .loop x => Sys2Proof.Machine.execLoop x s
  | .exit x => Sys2Proof.Machine.execExit x s
  | .yield x => Sys2Proof.Machine.execYield x s
  | .nop x => Sys2Proof.Machine.execNop x s
  | .shfl x => Sys2Proof.Machine.execShfl x s
  | .vote x => Sys2Proof.Machine.execVote x s
  | .ballot x => Sys2Proof.Machine.execBallot x s
  | .redux x => Sys2Proof.Machine.execRedux x s
  | .scan x => Sys2Proof.Machine.execScan x s
  | .part x => Sys2Proof.Machine.execPart x s
  | .matchI x => Sys2Proof.Machine.execMatchI x s
  | .elect x => Sys2Proof.Machine.execElect x s
  | .prioTake x => Sys2Proof.Machine.execPrioTake x s
  | .prioPass x => Sys2Proof.Machine.execPrioPass x s
  | .prioDrop x => Sys2Proof.Machine.execPrioDrop x s
  | .smxstep x => Sys2Proof.Machine.execSmxstep x s
  | .mxloadw x => Sys2Proof.Machine.execMxloadw x s
  | .mxswap x => Sys2Proof.Machine.execMxswap x s
  | .mxrun x => Sys2Proof.Machine.execMxrun x s
  | .mxfence x => Sys2Proof.Machine.execMxfence x s
  | .mxdrain x => Sys2Proof.Machine.execMxdrain x s
  | .mxdrainR x => Sys2Proof.Machine.execMxdrainR x s
  | .mxzero x => Sys2Proof.Machine.execMxzero x s
  | .mxstat x => Sys2Proof.Machine.execMxstat x s
  | .mxstatFlagsclr x => Sys2Proof.Machine.execMxstatFlagsclr x s
  | .copy x => Sys2Proof.Machine.execCopy x s
  | .gather x => Sys2Proof.Machine.execGather x s
  | .scatter x => Sys2Proof.Machine.execScatter x s
  | .slistInit x => Sys2Proof.Machine.execSlistInit x s
  | .slistStat x => Sys2Proof.Machine.execSlistStat x s
  | .spliceIns x => Sys2Proof.Machine.execSpliceIns x s
  | .spliceRemove x => Sys2Proof.Machine.execSpliceRemove x s
  | .spliceTrunc x => Sys2Proof.Machine.execSpliceTrunc x s
  | .splicePerform op => Sys2Proof.Machine.execSplicePerform op s
  | .pin x => Sys2Proof.Machine.execPin x s
  | .pinVer x => Sys2Proof.Machine.execPinVer x s
  | .unpin x => Sys2Proof.Machine.execUnpin x s
  | .slook x => Sys2Proof.Machine.execSlook x s
  | .reclaim x => Sys2Proof.Machine.execReclaim x s
  | .topk x => Sys2Proof.Machine.execTopk x s
  | .qpush x => Sys2Proof.Machine.execQpush x s
  | .qpop x => Sys2Proof.Machine.execQpop x s
  | .qsteal x => Sys2Proof.Machine.execQsteal x s
  | .qstat x => Sys2Proof.Machine.execQstat x s
  | .qbindBind x => Sys2Proof.Machine.execQbindBind x s
  | .qbindUnbind x => Sys2Proof.Machine.execQbindUnbind x s
  | .qbindClose x => Sys2Proof.Machine.execQbindClose x s
  | .qbindOpen x => Sys2Proof.Machine.execQbindOpen x s
  | .trap x => Sys2Proof.Machine.execTrap x s
  | .brk x => Sys2Proof.Machine.execBrk x s
  | .mfsr x => Sys2Proof.Machine.execMfsr x s
  | .mtsr x => Sys2Proof.Machine.execMtsr x s
  | .mtsrParkctl x => Sys2Proof.Machine.execMtsrParkctl x s
  | .rft x => Sys2Proof.Machine.execRft x s
  | .srseed x => Sys2Proof.Machine.execSrseed x s
  | .srseedG x => Sys2Proof.Machine.execSrseedG x s
  | .ctxsave x => Sys2Proof.Machine.execCtxsave x s
  | .ctxload x => Sys2Proof.Machine.execCtxload x s
  | .tlbinvRange x => Sys2Proof.Machine.execTlbinvRange x s
  | .tlbinvAsid x => Sys2Proof.Machine.execTlbinvAsid x s
  | .tlbinvAll x => Sys2Proof.Machine.execTlbinvAll x s
  | .tlbinvSplinter x => Sys2Proof.Machine.execTlbinvSplinter x s
  | .haltWait x => Sys2Proof.Machine.execHaltWait x s
  | .haltKill x => Sys2Proof.Machine.execHaltKill x s
  | .lineFetch g noise1 noise2 => Sys2Proof.Machine.execLineFetch g noise1 noise2 s
  | .fixedResultDelivery g => Sys2Proof.Machine.execFixedResultDelivery g s
  | .variableResultLands g => Sys2Proof.Machine.execVariableResultLands g s
  | .gangSwap slot => Sys2Proof.Machine.execGangSwap slot s
  | .handoverOutComplete g => Sys2Proof.Machine.execHandoverOutComplete g s
  | .handbackComplete g => Sys2Proof.Machine.execHandbackComplete g s
  | .rejoinwaitExpiry g grp => Sys2Proof.Machine.execRejoinwaitExpiry g grp s
  | .mtlbWalk asid va acc isPriv => Sys2Proof.Machine.execMtlbWalk asid va acc isPriv s
  | .sidelogReplay core => Sys2Proof.Machine.execSidelogReplay core s
  | .firmwarePathComplete op => Sys2Proof.Machine.execFirmwarePathComplete op s
  | .copyOpStart cluster => Sys2Proof.Machine.execCopyOpStart cluster s
  | .copyOpComplete op => Sys2Proof.Machine.execCopyOpComplete op s
  | .topkStart cluster => Sys2Proof.Machine.execTopkStart cluster s
  | .topkComplete op => Sys2Proof.Machine.execTopkComplete op s
  | .mxloadwDispatch op => Sys2Proof.Machine.execMxloadwDispatch op s
  | .mxloadwComplete op => Sys2Proof.Machine.execMxloadwComplete op s
  | .mxswapDispatch op => Sys2Proof.Machine.execMxswapDispatch op s
  | .mxrunDispatch op => Sys2Proof.Machine.execMxrunDispatch op s
  | .mxrunComplete op => Sys2Proof.Machine.execMxrunComplete op s
  | .mxdrainDispatch op => Sys2Proof.Machine.execMxdrainDispatch op s
  | .mxdrainComplete op => Sys2Proof.Machine.execMxdrainComplete op s
  | .mxzeroDispatch op => Sys2Proof.Machine.execMxzeroDispatch op s
  | .engineBarrierArrival op => Sys2Proof.Machine.execEngineBarrierArrival op s
  | .tokenArrival tok => Sys2Proof.Machine.execTokenArrival tok s
  | .tokenRelease tok => Sys2Proof.Machine.execTokenRelease tok s
  | .tokenHoldExpiry tok => Sys2Proof.Machine.execTokenHoldExpiry tok s
  | .boostRecompute => Sys2Proof.Machine.execBoostRecompute s
  | .qpopWake g => Sys2Proof.Machine.execQpopWake g s
  | .qpushWake g => Sys2Proof.Machine.execQpushWake g s
  | .qpushWaitExpiry g => Sys2Proof.Machine.execQpushWaitExpiry g s
  | .cohortPlacement lid => Sys2Proof.Machine.execCohortPlacement lid s
  | .preemption lid => Sys2Proof.Machine.execPreemption lid s
  | .crewResume crew => Sys2Proof.Machine.execCrewResume crew s
  | .crewRetire crew => Sys2Proof.Machine.execCrewRetire crew s
  | .hostMemWrite pa data => Sys2Proof.Machine.execHostMemWrite pa data s
  | .hostMemRead pa len => Sys2Proof.Machine.execHostMemRead pa len s
  | .peerMemWrite pa data => Sys2Proof.Machine.execPeerMemWrite pa data s
  | .peerMemRead pa len => Sys2Proof.Machine.execPeerMemRead pa len s
  | .peerPush cluster q item => Sys2Proof.Machine.execPeerPush cluster q item s
  | .hsemClaim port => Sys2Proof.Machine.execHsemClaim port s
  | .hsemRelease port => Sys2Proof.Machine.execHsemRelease port s
  | .ringHeadWrite ring head => Sys2Proof.Machine.execRingHeadWrite ring head s
  | .launchDoorbell value => Sys2Proof.Machine.execLaunchDoorbell value s
  | .gangResume asid crewNo gang => Sys2Proof.Machine.execGangResume asid crewNo gang s
  | .crewKill asid crew => Sys2Proof.Machine.execCrewKill asid crew s
  | .faultResolve id => Sys2Proof.Machine.execFaultResolve id s
  | .faultRefuse id => Sys2Proof.Machine.execFaultRefuse id s
  | .powercfgWrite port tokens => Sys2Proof.Machine.execPowercfgWrite port tokens s
  | .warmReset port => Sys2Proof.Machine.execWarmReset port s
  | .ctxdbLoad port value => Sys2Proof.Machine.execCtxdbLoad port value s
  | .ctxdbLoadComplete => Sys2Proof.Machine.execCtxdbLoadComplete s
  | .taildb cluster q value => Sys2Proof.Machine.execTaildb cluster q value s
  | .headdb cluster q value => Sys2Proof.Machine.execHeaddb cluster q value s
  | .bar0RegisterWrite port reg value => Sys2Proof.Machine.execBar0RegisterWrite port reg value s
  | .coldReset stages => Sys2Proof.Machine.execColdReset stages s
  | .functionLevelReset port => Sys2Proof.Machine.execFunctionLevelReset port s
  | .hostLinkDown port => Sys2Proof.Machine.execHostLinkDown port s
  | .portRetrainComplete port => Sys2Proof.Machine.execPortRetrainComplete port s
  | .portRetrainTimeout port => Sys2Proof.Machine.execPortRetrainTimeout port s
  | .powerThermalLimit tokens => Sys2Proof.Machine.execPowerThermalLimit tokens s
  | .powerThermalClear tokens => Sys2Proof.Machine.execPowerThermalClear tokens s
  | .criticalTemperature => Sys2Proof.Machine.execCriticalTemperature s
  | .attestationReport port nonce => Sys2Proof.Machine.execAttestationReport port nonce s
  | .nicDoorbell qp tail => Sys2Proof.Machine.execNicDoorbell qp tail s
  | .nicCompletion qp => Sys2Proof.Machine.execNicCompletion qp s
  | .illegalOpcodeIssue w => Sys2Proof.Machine.execIllegalOpcodeIssue w s
  | .faultqEventqWrite ring value => Sys2Proof.Machine.execFaultqEventqWrite ring value s
  | .portRetrainBegin port => Sys2Proof.Machine.execPortRetrainBegin port s
  | .roceInboundRequest qp req => Sys2Proof.Machine.execRoceInboundRequest qp req s

end Sys2Proof.Machine
end

