-- ==== Sys2Proof/Machine/Schedule.lean ====
section
/-! DEFINITION. One step of the device (log 4): a gang's issue with its fetch and decode checks (R39-R42, R56-R64, R310),
which gang issues (R331, R333), which of the device's own events happens, and the passing of a cycle. -/

namespace Sys2Proof.Machine

/-! ### The word of an issue -/

/-- STALL_SHORT and SIDELOG_DISCARD (R57, R106). -/
def cStallShort : BitVec 8 := 0x05
def cSidelogDiscard : BitVec 8 := 0x29

/-- The cause of a field check with its TRAPINFO (R44, R63). -/
def decodeCause : DecodeError → Cause
  | .zeroWord => (cZeroWord, 0)
  | .illegalOpcode => (cIllegalOpcode, 0)
  | .illegalField b => (cIllegalField, BitVec.ofNat 64 b)
  | .illegalOperand field sel => (cIllegalOperand, BitVec.ofNat 64 (field.toNat + 256 * sel.toNat))

/-- Bit 48: an s register in B supplies a queue spec that names cluster 48-62 (R342, R64). -/
def State.specField (s : State) (o : Op) (f : Fields) : List Nat :=
  match o with
  | .qpush | .qpop | .qsteal | .qstat | .qbind =>
      if isS f.b then
        let c := (s.readS (f.b.toNat - 128)).toNat % 1024 / 16
        refusedAt 48 (48 ≤ c && c ≠ 63)
      else []
  | _ => []

/-- A base that selects a TILE2D needs a column register that exists, whatever the guard (R64, R131, R152). -/
def State.columnBad (s : State) (o : Op) (f : Fields) : Bool :=
  o.layout = .sized && (o = .capchk || f.fn.getLsbD 0) && s.columnMissing (s.capOf (Sel.ofCodeD f.a)).1 (Sel.ofCodeD f.b)

/-- The first misused operand in the order D, A, B, C (R44, R131). -/
def State.operandBad (s : State) (o : Op) (f : Fields) : Option (BitVec 2 × BitVec 8) :=
  match o.operandBad s.crew.vregs f with
  | some e => if 2 < e.1 && s.columnBad o f then some (2, f.b) else some e
  | none => if s.columnBad o f then some (2, f.b) else none

/-- TRAPINFO of a line word (R39, R63). -/
def lineInfo (l : CodeLine) (bit : Nat) : Dword := BitVec.ofNat 64 (bit + 128 + (lineWord l).toNat * 2 ^ 32)

/-- ILLEGAL_FIELD of an instruction or of the line word it stands under: the lowest offending bit, of the word where both
offend in one (R39, R63, R64). -/
def State.fieldCause (s : State) (l : CodeLine) (o : Op) (f : Fields) : Option Cause :=
  match leastBit (o.fieldBits f ++ s.specField o f), (lineBits l).head? with
  | some b, some b' => some (if b ≤ b' then decodeCause (.illegalField b) else (cIllegalField, lineInfo l b'))
  | some b, none => some (decodeCause (.illegalField b))
  | none, some b' => some (cIllegalField, lineInfo l b')
  | none, none => none

/-- The checks on the fields of an instruction, in the order of R64. -/
def State.fieldCheck (s : State) (l : CodeLine) (o : Op) (f : Fields) : Option Cause :=
  s.fieldCause l o f <|> (s.operandBad o f).map fun e => decodeCause (.illegalOperand e.1 e.2)

/-- What a gang issues of the word at its slot of a line: an instruction, or the cause of its decode checks (R57, R61, R63,
R64). -/
def State.decodeAt (s : State) (l : CodeLine) : Except Cause Instr :=
  let w := slotWord l (pcSlot s.ipc)
  let f := Fields.ofWord w
  match Op.ofCode f.op with
  | none => .ok (.illegalOpcodeIssue w)
  | some o =>
      if o.privileged f && !s.gang.priv then .error (cPrivileged, f.op.setWidth 64)
      else
        match s.fieldCheck l o f with
        | some c => .error c
        | none =>
            match (s.earlyRead o f).filter fun _ => s.crew.crewctl with
            | some sel => .error (cStallShort, sel.setWidth 64)
            | none =>
                match o.build f with
                | some i => .ok i
                | none => .error (decodeCause (.illegalField 72))

/-! ### The issue -/

/-- The instruction does not issue yet: a run that goes to WAITJ, or a collective whose subgroup has an ejected member
(R263, R319). -/
def State.notYet (s : State) (o : Op) (f : Fields) : Bool :=
  match o with
  | .join => s.joinWaits s.ipc
  | .bar | .barset => s.awayOf (BitVec.allOnes 32) ≠ 0
  | _ => parksAt o f && s.awayOf ((s.group (Sel.ofCodeD f.c)).touched s.run) ≠ 0

/-- An issue of a gang in the tables: ages, but not at a YIELD, the STALL gap, which a marionette ignores, delivered results,
whether the next slot follows as the second of a pair (R35, R56, R59, R310, R323, R331). -/
def State.prepared (s : State) (w : InstrWord) (held second : Bool) : State :=
  let f := Fields.ofWord w
  if ((Op.ofCode f.op).map fun o => s.notYet o f) = some true then s
  else
    let g := if held || second || s.inHandler || Op.ofCode f.op = some .yield then s.gang else s.gang.aged s.run
    { s with
      issues := s.issues + 1,
      gang := { g with
        nextIssue := s.clock + 1 + (if g.ej.isSome then 0 else f.stall.toNat), lastIssue := s.issues + 1, alone := false,
        pair := !held && !second && s.pairs s.ipc, shadows := pruneShadows s.clock s.gang.shadows } }

/-- After a meaning, an ejected strand that has reached its rejoin PC is on its way back (R309). -/
def showAfter (id : Nat) : Out → Out
  | .next t => .next (t.showBack id)
  | .fault r => .fault r
  | .refused r => .refused r

/-- Issues the word of a line for the run at the PC. -/
def State.issueWord (s : State) (l : CodeLine) (held second : Bool) : Out :=
  let t := s.prepared (slotWord l (pcSlot s.ipc)) held second
  showAfter s.gang.id (match s.decodeAt l with
    | .ok i => exec i t
    | .error c => .next (t.trap c.1 c.2))

/-- Discarded side-log entries are reported at the gang's next issue (R106). -/
def State.sidelogTrap (s : State) : State :=
  let g := s.gang
  ({ s with gang := { g with discard := g.discarded, discarded := [] } } : State).trap cSidelogDiscard
    (BitVec.ofNat 64 g.discarded.length)

/-- Bits 5-3 and the slot of a PC are those of an instruction (R41, R42). -/
def pcOk (pc : Pc) : Bool := pc.extractLsb' 3 3 = 0 && pcSlot pc < 5

/-- Issues from a line that the core holds: the target bit of a branch that could not see it (R42), then the word of the slot
under its line word (R39). -/
def State.issueLine (s : State) (l : CodeLine) (held second : Bool) : Out :=
  match s.unlabelled l with
  | some b => .next ((s.badLabel b).showBack s.gang.id)
  | none => s.issueWord l held second

/-- The gang in focus issues at its PC; a line that the core does not hold is fetched first (R40). -/
def State.issueHere (s : State) (held second : Bool) : Out :=
  if !s.inHandler && !s.gang.discarded.isEmpty then .next s.sidelogTrap
  else if !pcOk s.ipc then .next ((s.trap cBadTarget s.ipc).showBack s.gang.id)
  else
    match s.heldLine s.ipc with
    | none => .next ((s.fetch 0 0).showBack s.gang.id)
    | some l => s.issueLine l held second

/-- The gang in focus with its PC table settled and the run it issues. -/
def State.atRun (s : State) (pc : Pc) (run : Mask) : State := { s.unhold.settle with run := run, ipc := pc }

/-- A gang issues what R310 chooses, or a held instruction again; nothing when it is not ready. -/
def State.issueGang (s : State) (id : Nat) : Out :=
  let t := s.focus id
  match t.nextIssue with
  | none => .next t
  | some (pc, run, held) => (t.atRun pc run).issueHere held false

/-- The second slot of a pair follows for the same run (R59). -/
def State.issueSecond (s : State) : Out :=
  ({ s with ipc := nextPc s.ipc, gang := { s.gang with pair := false } } : State).issueHere false true

/-! ### Which gang issues (R331, R333) -/

/-- Gangs of the active sets, and ejected strands, that are ready. -/
def State.readyGangs (s : State) : List Gang := s.allGangs.filter fun g => g.active && s.readyGang g.id

/-- Where a gang issues: a slot of a core, or a marionette slot of its own. -/
def State.place (s : State) (g : Gang) : Nat :=
  if g.ej.isSome then Config.dies * 48 * Config.slotsPerCore + g.id else (s.findCrew g.crewId).core * Config.slotsPerCore + g.slot

/-- A gang holds its slot's priority token (R270). -/
def State.hasToken (s : State) (g : Gang) : Bool :=
  g.ej.isNone && (s.sys.core (s.findCrew g.crewId).core).prio.get 0 g.slot = g.id

/-- The choice among the ready gangs of a slot (R331). -/
def State.chooseIn (s : State) (l : List Gang) : Option Gang :=
  match l.find? s.hasToken with
  | some g => some g
  | none => (least (fun g => g.lastIssue) (greatest (fun g => (s.findCrew g.crewId).effCls) l)).head?

/-- The slot that has issued least recently goes first. -/
def State.choose (s : State) : Option Gang :=
  let l := s.readyGangs
  let last (p : Nat) := maxList ((s.allGangs.filter fun g => s.place g = p).map fun g => g.lastIssue)
  match (least (fun g => last (s.place g)) l).head? with
  | none => none
  | some g => s.chooseIn (l.filter fun h => s.place h = s.place g)

/-- A vector instruction that names no s, c or g register, of a group that may fuse (R333). -/
def fusible (o : Op) (f : Fields) : Bool :=
  (o.code < 0x60 || (0x70 ≤ o.code && o.code ≤ 0x75)) && !o.once f && !o.uniform f &&
    (o.slots f).all fun x => !isS x.sel && !isG x.sel

/-- A gang with which a chosen one is fused: of its crew and slot, ready at the same PC with other strands (R333). -/
def State.partner (s : State) (g : Gang) : Option Gang :=
  let t := s.focus g.id
  match t.nextIssue with
  | some (pc, run, false) =>
      (match t.peekOp pc with
        | some (o, f) =>
            if fusible o f && g.ej.isNone then
              s.readyGangs.find? fun h =>
                h.id ≠ g.id && h.ej.isNone && h.crewId = g.crewId && h.slot = g.slot &&
                  match (s.focus h.id).nextIssue with
                  | some (pc', run', false) => pc' = pc && run' &&& run = 0
                  | _ => false
            else none
        | none => none)
  | _ => none

/-- The chosen gang issues; of two fused ones the lower-indexed first, and FUSED counts (R333, R354). -/
def State.issueChosen (s : State) (g : Gang) : Out :=
  match s.partner g with
  | none => s.issueGang g.id
  | some h =>
      let s := s.updCrew g.crewId fun c => { c with fused := c.fused + 1 }
      ({ s with fuse := max g.id h.id } : State).issueGang (min g.id h.id)

/-! ### The device's own events -/

/-- The fence of a held gang has nothing to wait for (R290). -/
def State.fenceReady (s : State) (g : Nat) (x : Fun) (run : Mask) : Bool :=
  let t : State := { s.focus g with run := run }
  let m := t.actsFor x.d.isScalar x.hdr
  !t.logBlocked m && !(fenceScope x = 6 && 2 ≤ fenceOrder x && t.sys.retraining)

/-- What ends a gang's wait in a held instruction. -/
def State.holdEvents (s : State) (g : Gang) : List Instr :=
  match g.hold with
  | none => []
  | some h =>
      match h.why with
      | .fence x _ => if s.fenceReady g.id x h.run then [.fenceComplete g.id] else []
      | .qpop _ key _ =>
          let q := s.queue key
          if s.firstBlocked Gang.blockedPop key = some g.id && (q.count ≠ 0 || q.closed) then [.qpopWake g.id] else []
      | .qpush _ key since =>
          let t := s.focus g.id
          let q := s.queue key
          if t.portBlocked q then []
          else if s.firstBlocked Gang.blockedPush key = some g.id && Mask.count h.run ≤ q.space then [.qpushWake g.id]
          else if since + t.crew.qwaitMax.toNat ≤ s.clock then [.qpushWaitExpiry g.id]
          else []
      | _ => []

/-- Groups whose wait runs out (R319). -/
def State.expiries (s : State) (g : Gang) : List Instr :=
  (List.range g.groups.length).filterMap fun k =>
    match g.groups[k]? with
    | some r => if !r.expired && r.expires.any (fun t => t ≤ s.clock) then some (.rejoinwaitExpiry g.id k) else none
    | none => none

/-- The hand-over of an ejected strand may end (R316). -/
def State.handovers (s : State) (g : Gang) : List Instr :=
  match g.ej with
  | none => []
  | some e =>
      match (g.strand e.strand).st with
      | .out => if s.handoverReady e then [.handoverOutComplete g.id] else []
      | .back => if s.handbackReady e then [.handbackComplete g.id] else []
      | _ => []

/-- An ejected strand of the gang waits for a variable-latency result that it takes along (R316). -/
def State.handoverMarks (s : State) (id : Nat) : Bool :=
  s.allGangs.any fun g => g.ej.any fun e => e.parent = id && !e.marks.isEmpty

/-- What may happen to a gang. Variable-latency results land once the fixed-latency ones in flight are delivered: each
takes longer than those (R35; log 6). -/
def State.gangEvents (s : State) (g : Gang) : List Instr :=
  s.handovers g ++ s.holdEvents g ++ s.expiries g ++
    (if (g.marks.isEmpty && !s.handoverMarks g.id) || g.shadows.any (fun x => s.clock < x.due) then []
      else [.variableResultLands g.id]) ++
    if pruneShadows s.clock g.shadows = g.shadows then [] else [.fixedResultDelivery g.id]

/-- The dispatch event of a matrix entry (R240). -/
def OpKind.dispatch (k : OpKind) (id : Nat) : List Instr :=
  match k with
  | .loadw .. => [.mxloadwDispatch id]
  | .swap => [.mxswapDispatch id]
  | .mxrun .. => [.mxrunDispatch id]
  | .drain .. | .drainR .. => [.mxdrainDispatch id]
  | .zero .. => [.mxzeroDispatch id]
  | _ => []

/-- An engine may arrive at the barrier of an operation (R242). -/
def State.arrives (s : State) (o : EngineOp) : Bool :=
  o.barrier.isSome && !o.arrived && !o.cancel && o.phase = .started && !(o.kind.isRun && !s.tokenHere (o.core / 4)) &&
    s.mayRead o

/-- What may happen to an engine operation. -/
def State.opEvents (s : State) (o : EngineOp) : List Instr :=
  if o.phase = .firmware || (o.cancel && o.phase = .faulted && !o.kind.isSplice) then [.firmwarePathComplete o.id]
  else if o.kind.isCopy then (if o.inWork then [.copyOpComplete o.id] else [])
  else if o.kind.isTopk then (if o.inWork then [.topkComplete o.id] else [])
  else if o.kind.isSplice then (if o.phase = .queued && !s.spliceAhead o then [.splicePerform o.id] else [])
  else if s.mayDispatch o then o.kind.dispatch o.id
  else if s.arrives o then [.engineBarrierArrival o.id]
  else if o.kind.isLoadw then (if s.loadDone o then [.mxloadwComplete o.id] else [])
  else if o.kind.isRun then (if s.runDone o then [.mxrunComplete o.id] else [])
  else if o.kind.isDrain && o.phase = .written then [.mxdrainComplete o.id]
  else []

/-- The starts of a cluster's engines (R185, R274). -/
def State.starts (s : State) (cluster : Nat) : List Instr :=
  let top := s.ops.filter fun o => o.kind.isTopk && o.core / 4 = cluster
  (if (s.nextCopy cluster).isSome then [.copyOpStart cluster] else []) ++
    if (top.any fun o => o.phase = .queued) && !top.any fun o => o.phase = .started then [.topkStart cluster] else []

/-- The moves of a power token (R243). -/
def State.tokenEvents (s : State) (k : Nat) (t : Token) : List Instr :=
  if !t.held then (if s.dieWaits t.die then [.tokenArrival k] else [])
  else if !s.streaming t.cluster then [.tokenRelease k]
  else if t.since + Config.tokenHold ≤ s.clock then [.tokenHoldExpiry k]
  else []

/-- The swap of a slot (R332). -/
def State.swaps (s : State) (p : Nat) : List Instr :=
  let core := p / Config.slotsPerCore
  let slot := p % Config.slotsPerCore
  if (s.longestWaiting core slot).isSome && (s.firstReady core slot).isSome then [.gangSwap p] else []

/-- Placement, pre-emption, resumption and retirement (R184, R329, R339, R340). -/
def State.launchEvents (s : State) : List Instr :=
  ((s.allCrews.filter s.mayRetire).map fun c => .crewRetire c.id) ++
    ((s.saved.filter fun p => p.crew.ended ≠ .running).map fun p => .crewRetire p.crew.id) ++
    (match s.nextPlacement with
      | some (l, _) => [.cohortPlacement l.lid]
      | none =>
          ((s.waitingLaunches.filter fun l =>
            (s.sys.ctx l.r.asid).isSome && (s.makeRoom l (s.victims l)).isSome).map fun l => .preemption l.lid)) ++
    (s.saved.filter fun p => p.crew.ended = .running && (s.coreFor (p.crew.core / 4) p.crew.idx p.crew.need).isSome).map
      fun p => .crewResume p.crew.id

/-- The state an event leads to. -/
def Out.state (o : Out) (s : State) : State :=
  match o with
  | .next t => t
  | _ => s

/-- A host's context load, a port's limit, the NIC's work (R291, R387, R389). -/
def State.hostEvents (s : State) : List Instr :=
  let c := Out.state (execCtxdbLoadComplete s) s
  (if c.host.ctxdb ≠ s.host.ctxdb || c.host.ctxdbRest ≠ s.host.ctxdbRest || c.sys.faults ≠ s.sys.faults then [.ctxdbLoadComplete] else []) ++
    ((List.range 16).filterMap fun i =>
      match s.sys.retrainsSince i with
      | some t => if t + Config.retrainLimit ≤ s.clock then some (.portRetrainTimeout i) else none
      | none => none) ++
    s.nic.filterMap fun e =>
      let t := Out.state (execNicCompletion e.1 s) s
      if t.nic ≠ s.nic || t.sys.faults ≠ s.sys.faults then some (.nicCompletion e.1) else none

/-- The first of the events that concern gangs, side logs, slots, power tokens, launches and the host. -/
def State.promptEvent (s : State) : Option Instr :=
  let slots := distinct ((s.allGangs.filter fun g => g.ej.isNone).map s.place)
  let logs := (s.sys.cores.map Prod.fst).filter fun c => (s.replayable c).isSome
  let tokens := ((List.range s.tokens.length).zip s.tokens).flatMap fun (e : Nat × Token) => s.tokenEvents e.1 e.2
  (s.allGangs.flatMap s.gangEvents ++ logs.map Instr.sidelogReplay ++ slots.flatMap s.swaps ++ tokens ++ s.launchEvents ++
    s.hostEvents).head?

/-- The operations with those of the copy engines by class, the highest first (R334). -/
def State.servedOps (s : State) : List EngineOp :=
  ([3, 2, 1, 0].flatMap fun k => s.ops.filter fun o => o.kind.isCopy && o.cls = k) ++ s.ops.filter fun o => !o.kind.isCopy

/-- The first of the engines' events. -/
def State.engineEvent (s : State) : Option Instr :=
  let clusters := distinct (s.ops.map fun (o : EngineOp) => o.core / 4)
  (s.servedOps.flatMap s.opEvents ++ clusters.flatMap s.starts).head?

/-- The first of the device's own events that may happen now. -/
def State.nextEvent (s : State) : Option Instr := s.promptEvent <|> s.engineEvent

/-- A gang of the active sets, or an ejected strand, is ready but for the cycles its last instruction takes. -/
def State.soonReady (s : State) : Bool :=
  s.allGangs.any fun g => g.active && s.clock < g.nextIssue &&
    (s.focus g.id |> fun t => ({ t with clock := g.nextIssue } : State).nextIssue).isSome

/-! ### One step -/

/-- An event of the device or of the outside world happens; an instruction word is no event. -/
def State.happen (s : State) (e : Instr) : Out :=
  match e with
  | .illegalOpcodeIssue _ => .next s
  | e => if e.fields.isSome then .next s else exec e s

/-- Dirty bytes that stay in L1s are written back in finite time (R298): all of them at multiples of this many cycles
(DESIGN CHOICE, log 16). -/
def writeBackPeriod : Nat := 4096

/-- A core's ordinary L1 lines are written back and stay as clean lines (R298, R299). -/
def State.writeBackCore (s : State) (c : Nat) : State :=
  let lines := (s.sys.core c).l1
  let s := lines.foldl (fun (s : State) l =>
    let crew := (s.allCrews.find? fun k => k.core = c && k.asid = l.asid).getD {}
    s.writeBack { core := c, crew := crew.id, asid := l.asid, priv := false } l) s
  { s with sys := s.sys.updCore c fun k => { k with l1 := k.l1.map fun l => { l with dirty := 0 } } }

/-- A cycle passes; classes are recomputed every 64 (R336). -/
def State.tick (s : State) : Out :=
  let s : State := { s with clock := s.clock + 1 }
  let dirty := (s.sys.cores.filter fun e => e.2.l1.any fun l => l.dirty ≠ 0).map Prod.fst
  let s := if s.clock % writeBackPeriod = 0 then dirty.foldl (fun (s : State) c => s.writeBackCore c) s else s
  if s.clock % 64 = 0 then exec .boostRecompute s else .next s

/-- The event that happens when no gang is ready: an engine's only once no gang is about to be. -/
def State.idleEvent (s : State) : Option Instr :=
  match s.promptEvent with
  | some e => some e
  | none => if s.soonReady then none else s.engineEvent

/-- What happens of itself: every 32nd time an event of the device first, else the chosen gang issues, else an event
happens, else a cycle passes (log 4). -/
def State.proceed (s : State) : Out :=
  match (if s.issues % 32 = 31 then s.nextEvent else none) with
  | some e => ({ s with issues := s.issues + 1 } : State).happen e
  | none =>
      match s.choose with
      | some g => s.issueChosen g
      | none =>
          match s.idleEvent with
          | some e => s.happen e
          | none => s.tick

/-- The turn of a gang: its slot issues it when it is the one the slot chooses (R331); no gang of a pending set issues
(R332). -/
def State.issueTurn (s : State) (id : Nat) : Out :=
  let here := s.place (s.findGang id)
  match s.chooseIn (s.readyGangs.filter fun g => s.place g = here) with
  | some g => if g.id = id then s.issueChosen g else .next s
  | none => .next s

/-- One step: the second slot of a pair, the other half of a fused issue, the turns the state gives, or what happens of
itself. -/
def State.move (s : State) : Out :=
  if s.gang.pair then s.issueSecond
  else if s.fuse ≠ 0 then ({ s with fuse := 0 } : State).issueGang s.fuse
  else
    match s.turns with
    | .issue g :: rest => ({ s with turns := rest } : State).issueTurn g
    | .event e :: rest => ({ s with turns := rest } : State).happen e
    | .barRead off n :: rest => .next (({ s with turns := rest } : State).barRead off n)
    | [] => s.proceed

end Sys2Proof.Machine
end

