-- ==== Sys2Proof/Machine/Step.lean ====
section
/-! DEFINITION. The step of the device, and a state that holds one instruction where the next step issues it (log 7). -/

namespace Sys2Proof.Machine

/-- One step of the device (log 4). -/
def step (s : State) : Host.Outcome State Fault Refusal := s.move

/-- The line address of the placed instruction. -/
def placedLine : Nat := 0x100000

/-- A crew of one gang in privileged mode, the gang at slot 0 of a line. -/
def placedCrew (id : Nat) : Crew :=
  { id := id, asid := 1, gangs := 1, strands := 32, nbar := 96, qshare := 8, priv := true,
    barriers := (List.range 96).map (fun b => (b, { count := 1 })), freeHandles := List.range 64 }

/-- A crew of one gang is resident on core 0, with the instruction in slot 0 of a line of the core's instruction buffer,
and it is its turn to issue: it holds the priority token of its slot (log 7). -/
def State.withFetchWord (s : State) (nbits w : Nat) : State :=
  let word : InstrWord := BitVec.ofNat 96 (w % 2 ^ nbits)
  let line := sealLine (fun i => if i = 0 then word else 0) 1 0
  let g : Gang := { newGang s.nextCrew 0 32 (BitVec.ofNat 64 placedLine) true with active := true }
  { s with
    gang := { s.gang with pair := false }, fuse := 0,
    gangs := Sparse.put {} s.gangs g.id g, crews := Sparse.put {} s.crews s.nextCrew (placedCrew s.nextCrew),
    nextCrew := s.nextCrew + 1,
    sys := { s.sys.updCore 0 (fun c => { c.keepLine 1 placedLine line with prio := Sparse.put 0 c.prio 0 g.id }) with
      ctxs := Sparse.put {} s.sys.ctxs 1 { s.sys.ctxD 1 with asid := 1 } },
    turns := [.issue g.id] }

end Sys2Proof.Machine
end

