-- ==== Sys2Proof/Safety.lean ====
section
/-! DEFINITION. The terms claims are stated in: what a safe run is, what a register-only instruction leaves alone, what
its destination receives, and where a gang stands. -/

namespace Sys2Proof.Machine

/-! ### Safe runs -/

/-- A run of `n` steps ends in neither a fault nor a refusal. -/
def SafeRun (n : Nat) (s : State) : Prop := ∃ t, Sys2Proof.core.run n s = .next t

/-! ### Where a gang stands -/

/-- The strands of a mask stand at a PC; in handler mode the handler does (R309, R362). -/
def State.StandsAt (s : State) (m : Mask) (pc : Pc) : Prop :=
  match s.gang.handler with
  | some b => b.pc = pc
  | none => ∀ i, i < 32 → m.getLsbD i = true → (s.gang.strand i).pc = pc

/-- The run has gone on to the next PC and its gang waits for nothing. -/
def State.WentOn (s t : State) : Prop := t.StandsAt s.run (nextPc s.ipc) ∧ t.gang.hold = none

/-! ### Destinations -/

/-- The destination register holds the results `r` of the lanes: 32 bits of a vector register a strand, a pair of 64, a
scalar register, or a predicate's bit (R44, R48, R70, R214). -/
def State.Received (t : State) (d : Sel) (w : Nat) (sx : Bool) (lanes : List Nat) (r : Nat → Nat) : Prop :=
  match d with
  | .v n => ∀ i ∈ lanes,
      if w = 64 then
        t.gang.v.get 0 (i * 128 + n.toNat) = BitVec.ofNat 32 (r i) ∧
        t.gang.v.get 0 (i * 128 + (n.toNat + 1)) = BitVec.ofNat 32 (r i / 2 ^ 32)
      else t.gang.v.get 0 (i * 128 + n.toNat) = BitVec.ofNat 32 (extend w 32 sx (r i))
  | .s n => t.gang.s.get 0 n.toNat = BitVec.ofNat 64 (extend w 64 sx (r 0)) ∧ t.gang.stags.getLsbD (n.toNat / 2) = false
  | .p n => ∀ i ∈ lanes, i < 32 → (t.gang.p.get 0 n.toNat).getLsbD i = decide (r i ≠ 0)
  | _ => True

/-- The vector-register cells, by strand * 128 + number, of a destination. -/
def destCells (d : Sel) (w : Nat) (lanes : List Nat) : List Nat :=
  match d with
  | .v n => lanes.flatMap fun i =>
      if w = 64 then [i * 128 + n.toNat, i * 128 + (n.toNat + 1)] else [i * 128 + n.toNat]
  | _ => []

/-- Every register but the destination keeps its value, in place and as read while results are in flight: vector
registers, scalar registers and their tags, predicates, partitions (R44, R57). -/
def State.KeptRegisters (s t : State) (d : Sel) (w : Nat) (lanes : List Nat) : Prop :=
  (∀ k, k ∉ destCells d w lanes → t.gang.v.get 0 k = s.gang.v.get 0 k) ∧
  (∀ i n, n < 128 → i * 128 + n ∉ destCells d w lanes → t.readV i n = s.readV i n) ∧
  (∀ k, (∀ n, d = .s n → k ≠ n.toNat) → t.gang.s.get 0 k = s.gang.s.get 0 k ∧ t.readS k = s.readS k) ∧
  (∀ k, (∀ n, d = .s n → k / 2 ≠ n.toNat / 2) →
    t.gang.stags.getLsbD (k / 2) = s.gang.stags.getLsbD (k / 2) ∧ t.readTag k = s.readTag k) ∧
  (∀ k i, (∀ n, d = .p n → k = n.toNat → i ∉ lanes) →
    (t.gang.p.get 0 k).getLsbD i = (s.gang.p.get 0 k).getLsbD i ∧ t.readPBit k i = s.readPBit k i) ∧
  (t.gang.g = s.gang.g ∧ ∀ n, t.readG n = s.readG n)

/-- Nothing differs from `s` gone on to its next PC but registers, FPSTAT, the rounding states and the results in flight of
the gang in focus: memory, every special register, the trap record, the mode, the other gangs stay. -/
def State.RegisterOnly (s t : State) : Prop :=
  t = { s.advance with gang := { s.advance.gang with
    v := t.gang.v, s := t.gang.s, stags := t.gang.stags, p := t.gang.p, g := t.gang.g, handleIds := t.gang.handleIds,
    rnd := t.gang.rnd, urnd := t.gang.urnd, fpstat := t.gang.fpstat, shadows := t.gang.shadows, marks := t.gang.marks,
    quick := t.gang.quick } }

/-- Every byte of memory reads as before. -/
def State.SameMemory (s t : State) : Prop := ∀ a, t.sys.byte a = s.sys.byte a

/-- FPSTAT gained exactly these flags; in handler mode it is left alone (R80, R362). -/
def State.Flagged (s t : State) (f : BitVec 8) : Prop :=
  t.gang.fpstat = if s.inHandler then s.gang.fpstat else s.gang.fpstat ||| f

/-- The rounding states of the lanes become `r`; all others stay (R74, R75). -/
def State.RoundStates (s t : State) (uni : Bool) (lanes : List Nat) (r : Nat → Word) : Prop :=
  (∀ j ∈ lanes, t.roundState uni j = r j) ∧
  (uni = true → t.gang.rnd = s.gang.rnd) ∧
  (uni = false → t.gang.urnd = s.gang.urnd ∧ ∀ j, j ∉ lanes → t.gang.rnd.get 0 j = s.gang.rnd.get 0 j)

/-- The instruction completes: it goes on to the next PC with the results of its lanes in D. Lane `j` computes a value,
flags and a rounding state from its own rounding state; nothing else of the device changes. -/
def Delivers (i : Instr) (s : State) (d : Sel) (h : Hdr) (w : Nat) (sx : Bool) (f : Nat → Word → Lane) : Prop :=
  let uni := d.isScalar
  let lanes := s.lanes uni h
  let r j := f j (s.roundState uni j)
  ∃ t, exec i s = .next t ∧ t.Received d w sx lanes (fun j => (r j).1) ∧ s.KeptRegisters t d w lanes ∧
    s.RegisterOnly t ∧ s.SameMemory t ∧ s.Flagged t (lanes.foldr (fun j a => (r j).2.1 ||| a) 0) ∧
    s.RoundStates t uni lanes fun j => (r j).2.2

/-- A 64-bit destination in vector registers is an even pair (R21). -/
def evenPair (d : Sel) (w : Nat) : Prop := ∀ n, d = .v n → w = 64 → n.toNat % 2 = 0

/-! ### Integer operands and results (R54, R70, R215) -/

/-- An operand after absolute value, which changes signed types only, then negation (R54). -/
def operand {w : Nat} (t : Ty) (ab ng : Bool) (p : BitVec w) : BitVec w :=
  let q := if ab && t.isSigned then p.abs else p
  if ng then -q else q

/-- The operands of a lane as patterns of the operation's width. -/
def State.opA (s : State) (x : Typed) (i : Nat) : BitVec x.width :=
  operand x.ty x.absa x.nega (BitVec.ofNat x.width (s.srcA x i))
def State.opB (s : State) (x : Typed) (i : Nat) : BitVec x.width :=
  operand x.ty x.absb x.negb (BitVec.ofNat x.width (s.srcB x i))
def State.opC (s : State) (x : Typed) (i : Nat) : BitVec x.width := BitVec.ofNat x.width (s.srcC x i)

/-- The integer a pattern stands for in a type (R70). -/
def asInt {w : Nat} (t : Ty) (p : BitVec w) : Int := if t.isSigned then p.toInt else p.toNat

/-- The least and the greatest integer of a type (R215). -/
def leastOf (t : Ty) (w : Nat) : Int := if t.isSigned then -(2 ^ (w - 1) : Nat) else 0
def greatestOf (t : Ty) (w : Nat) : Int := if t.isSigned then (2 ^ (w - 1) : Nat) - 1 else (2 ^ w : Nat) - 1

/-- An exact integer as a result: wrapped, or clamped into the type with SAT, which sets SATF when the value changes
(R215). -/
def narrowed (t : Ty) (w : Nat) (sat : Bool) (z : Int) : BitVec w × BitVec 8 :=
  let c := max (leastOf t w) (min (greatestOf t w) z)
  if sat then (BitVec.ofInt w c, flagIf (decide (c ≠ z)) flagSATF) else (BitVec.ofInt w z, 0)

/-- An integer instruction of the typed layout completes with these values and flags; rounding states stay. -/
def DeliversInt (i : Instr) (s : State) (x : Typed) (r : Nat → BitVec x.width × BitVec 8) : Prop :=
  Delivers i s x.d x.hdr x.width x.ty.isSigned fun j st => ((r j).1.toNat, (r j).2, st)

end Sys2Proof.Machine

namespace Sys2Proof

/-! ### Floating-point values and rounding (R66, R72-R77) -/

/-- The real number a finite value is (R66). -/
noncomputable def FVal.real : FVal → ℝ
  | .num n m e => (if n then -1 else 1) * (m : ℝ) * 2 ^ e
  | _ => 0

/-- The value with its infinities. -/
noncomputable def FVal.ereal : FVal → EReal
  | .inf true => ⊥
  | .inf false => ⊤
  | v => v.real

/-- A magnitude stands for a real number: exactly, or with 64 bits and the remainder known to be there. -/
def Mag.Holds (x : Mag) (q : ℝ) : Prop :=
  (x.m : ℝ) * 2 ^ x.e ≤ q ∧ q < ((x.m : ℝ) + 1) * 2 ^ x.e ∧ (x.sticky = true ↔ q ≠ (x.m : ℝ) * 2 ^ x.e) ∧
    (x.sticky = true → 2 ^ 64 ≤ x.m)

/-- The exact nonzero result rounded once: RoundF (R6, R73, R76). -/
def FloatFmt.RoundOf (f : FloatFmt) (mode : Nat) (sat : Bool) (q : ℝ) (st : Word) (r : FRes) : Prop :=
  ∃ (x : Mag) (neg : Bool), x.Holds |q| ∧ (neg = true ↔ q < 0) ∧ r = f.round mode sat neg x st

/-- An exact zero with a sign; the rounding state advances under SR (R72, R74). -/
def FloatFmt.zero (f : FloatFmt) (mode : Nat) (neg : Bool) (st : Word) : FRes :=
  { bits := f.signed neg 0, flags := 0, st := if mode = SR then advanceState st else st }

/-- NV for the operands when one of them is a signalling NaN (R67). -/
def invalidIf (vs : List FVal) : BitVec 8 := if vs.any FVal.isSig then flagNV else 0

/-- a + b (R67, R72, R222). -/
def FloatFmt.IsSum (f : FloatFmt) (mode : Nat) (sat : Bool) (a b : FVal) (st : Word) (r : FRes) : Prop :=
  if a.isNan ∨ b.isNan then r = f.nan (invalidIf [a, b]) st
  else if a.isInf ∧ b.isInf ∧ a.neg ≠ b.neg then r = f.nan flagNV st
  else if a.isInf ∨ b.isInf then r = f.inf (if a.isInf then a.neg else b.neg) 0 st
  else if a.real + b.real ≠ 0 then f.RoundOf mode sat (a.real + b.real) st r
  else r = f.zero mode (if a.isZero ∧ a.neg = b.neg then a.neg else mode = RD) st

/-- a * b (R67, R222). -/
def FloatFmt.IsProduct (f : FloatFmt) (mode : Nat) (sat : Bool) (a b : FVal) (st : Word) (r : FRes) : Prop :=
  if a.isNan ∨ b.isNan then r = f.nan (invalidIf [a, b]) st
  else if (a.isZero ∧ b.isInf) ∨ (a.isInf ∧ b.isZero) then r = f.nan flagNV st
  else if a.isInf ∨ b.isInf then r = f.inf (a.neg != b.neg) 0 st
  else if a.real * b.real ≠ 0 then f.RoundOf mode sat (a.real * b.real) st r
  else r = f.zero mode (a.neg != b.neg) st

/-- a * b + c with one rounding (R67, R222). -/
def FloatFmt.IsFused (f : FloatFmt) (mode : Nat) (sat : Bool) (a b c : FVal) (st : Word) (r : FRes) : Prop :=
  let neg := a.neg != b.neg
  if (a.isZero ∧ b.isInf) ∨ (a.isInf ∧ b.isZero) then r = f.nan flagNV st
  else if a.isNan ∨ b.isNan ∨ c.isNan then r = f.nan (invalidIf [a, b, c]) st
  else if (a.isInf ∨ b.isInf) ∧ c.isInf ∧ neg ≠ c.neg then r = f.nan flagNV st
  else if a.isInf ∨ b.isInf ∨ c.isInf then r = f.inf (if a.isInf ∨ b.isInf then neg else c.neg) 0 st
  else if a.real * b.real + c.real ≠ 0 then f.RoundOf mode sat (a.real * b.real + c.real) st r
  else r = f.zero mode (if c.isZero ∧ neg = c.neg then neg else mode = RD) st

/-- a / b (R67, R222). -/
def FloatFmt.IsQuotient (f : FloatFmt) (mode : Nat) (sat : Bool) (a b : FVal) (st : Word) (r : FRes) : Prop :=
  let neg := a.neg != b.neg
  if a.isNan ∨ b.isNan then r = f.nan (invalidIf [a, b]) st
  else if (a.isInf ∧ b.isInf) ∨ (a.isZero ∧ b.isZero) then r = f.nan flagNV st
  else if a.isInf then r = f.inf neg 0 st
  else if b.isInf then r.bits = f.signed neg 0 ∧ r.flags = 0
  else if b.isZero then r = f.inf neg flagDZ st
  else if a.isZero then r.bits = f.signed neg 0 ∧ r.flags = 0
  else f.RoundOf mode sat (a.real / b.real) st r

/-- 1 / a, and 1 / √a or √a of a positive value; the special operands of R225. -/
def FloatFmt.IsReciprocal (f : FloatFmt) (mode : Nat) (sat : Bool) (a : FVal) (st : Word) (r : FRes) : Prop :=
  if a.isNan then r = f.nan (invalidIf [a]) st
  else if a.isInf then r.bits = f.signed a.neg 0 ∧ r.flags = 0
  else if a.isZero then r = f.inf a.neg flagDZ st
  else f.RoundOf mode sat (1 / a.real) st r

def FloatFmt.IsRoot (f : FloatFmt) (mode : Nat) (a : FVal) (st : Word) (r : FRes) : Prop :=
  if a.isNan then r = f.nan (invalidIf [a]) st
  else if a.isZero then r.bits = f.signed a.neg 0 ∧ r.flags = 0
  else if a.neg then r = f.nan flagNV st
  else if a.isInf then r = f.inf false 0 st
  else f.RoundOf mode false (Real.sqrt a.real) st r

def FloatFmt.IsReciprocalRoot (f : FloatFmt) (mode : Nat) (a : FVal) (st : Word) (r : FRes) : Prop :=
  if a.isNan then r = f.nan (invalidIf [a]) st
  else if a.isZero then r = f.inf a.neg flagDZ st
  else if a.neg then r = f.nan flagNV st
  else if a.isInf then r.bits = 0 ∧ r.flags = 0
  else f.RoundOf mode false (1 / Real.sqrt a.real) st r

/-- 2^a and log2 a: the special operands of R225, and the exact results. -/
def FloatFmt.IsPower (f : FloatFmt) (mode : Nat) (sat : Bool) (a : FVal) (st : Word) (r : FRes) : Prop :=
  if a.isNan then r = f.nan (invalidIf [a]) st
  else if a.isInf then (if a.neg then r.bits = 0 ∧ r.flags = 0 else r = f.inf false 0 st)
  else ∀ n : ℤ, |n| ≤ 1000 → a.real = n → f.RoundOf mode sat (2 ^ n) st r

def FloatFmt.IsLogarithm (f : FloatFmt) (mode : Nat) (a : FVal) (st : Word) (r : FRes) : Prop :=
  if a.isNan then r = f.nan (invalidIf [a]) st
  else if a.isZero then r = f.inf true flagDZ st
  else if a.neg then r = f.nan flagNV st
  else if a.isInf then r = f.inf false 0 st
  else ∀ n : ℤ, a.real = 2 ^ n → (n = 0 → r.bits = 0 ∧ r.flags = 0) ∧ (n ≠ 0 → f.RoundOf mode false n st r)

/-- a * 2^n with n clamped to ±1024 (R226); zeros and infinities pass. -/
def FloatFmt.IsScaled (f : FloatFmt) (mode : Nat) (sat : Bool) (a : Nat) (n : ℤ) (st : Word) (r : FRes) : Prop :=
  let v := f.unpack a
  if v.isNan then r = f.nan (invalidIf [v]) st
  else if v.isInf ∨ v.isZero then r.bits = a ∧ r.flags = 0
  else f.RoundOf mode sat (v.real * 2 ^ max (-1024) (min 1024 n)) st r

/-- The integral value that a mode chooses for a real number; SR is R74's. -/
def Integral (mode : Nat) (q : ℝ) (z : ℤ) : Prop :=
  (mode = RNE → |(z : ℝ) - q| ≤ 1 / 2 ∧ (|(z : ℝ) - q| = 1 / 2 → z % 2 = 0)) ∧
  (mode = RZ → |(z : ℝ)| ≤ |q| ∧ |(z : ℝ) - q| < 1 ∧ 0 ≤ (z : ℝ) * q) ∧
  (mode = RD → z = ⌊q⌋) ∧ (mode = RU → z = ⌈q⌉) ∧ (mode = SR → |(z : ℝ) - q| < 1)

/-- FROUND (R226): the sign of a; NX for variant .X when the value changes. -/
def FloatFmt.IsIntegral (f : FloatFmt) (mode : Nat) (x : Bool) (a : Nat) (st : Word) (r : FRes) : Prop :=
  let v := f.unpack a
  if v.isNan then r = f.nan (invalidIf [v]) st
  else if v.isInf ∨ v.isZero then r.bits = a ∧ r.flags = 0
  else ∃ z : ℤ, Integral mode v.real z ∧ (f.unpack r.bits).real = z ∧ (f.unpack r.bits).neg = v.neg ∧
    r.flags = if x ∧ (z : ℝ) ≠ v.real then flagNX else 0

/-! ### Conversions (R71, R77, R78) -/

/-- NaN and infinity written to a format (R77). -/
def FloatFmt.IsSpecial (f : FloatFmt) (sat : Bool) (v : FVal) (r : FRes) : Prop :=
  match v, f.kind with
  | .nan _, .finite => r.bits = 0 ∧ r.flags = flagNV
  | .nan sig, _ => r.bits = f.nanBits ∧ r.flags = if sig then flagNV else 0
  | .inf neg, .ieee =>
      if sat then r.bits = f.signed neg f.maxBits ∧ r.flags = flagSATF else r.bits = f.signed neg f.infBits ∧ r.flags = 0
  | .inf neg, _ => r.bits = f.signed neg f.maxBits ∧ r.flags = flagOF ||| flagSATF
  | .num .., _ => False

/-- A float value converted to a float format (R77, R78). -/
def FloatFmt.IsConverted (f : FloatFmt) (mode : Nat) (sat : Bool) (v : FVal) (st : Word) (r : FRes) : Prop :=
  if v.isNan ∨ v.isInf then f.IsSpecial sat v r
  else if v.isZero then r = f.zero mode v.neg st
  else f.RoundOf mode sat v.real st r

/-- An exact integer converted to a type (R78). -/
def Ty.IsConvertedInt (t : Ty) (mode : Nat) (sat : Bool) (n : ℤ) (st : Word) (r : FRes) : Prop :=
  if t.isFloat then
    (if n = 0 then r = t.floatFmt.zero mode false st else t.floatFmt.RoundOf mode sat n st r)
  else if sat then
    r.bits = (BitVec.ofInt t.bits (max t.minInt (min t.maxInt n))).toNat ∧
      r.flags = if n < t.minInt ∨ t.maxInt < n then flagSATF else 0
  else r.bits = (BitVec.ofInt t.bits n).toNat ∧ r.flags = 0

/-- A float value converted to an integer type (R78). -/
def Ty.IsConvertedFloat (t : Ty) (mode : Nat) (v : FVal) (r : FRes) : Prop :=
  if v.isNan then r.bits = 0 ∧ r.flags = flagNV
  else if v.isInf then r.bits = (BitVec.ofInt t.bits (if v.neg then t.minInt else t.maxInt)).toNat ∧ r.flags = flagNV
  else ∃ z : ℤ, Integral mode v.real z ∧ r.bits = (BitVec.ofInt t.bits (max t.minInt (min t.maxInt z))).toNat ∧
    r.flags = if z < t.minInt ∨ t.maxInt < z then flagNV else if (z : ℝ) ≠ v.real then flagNX else 0

/-- A pattern of a source type converted to another type; the ternary code 0b10 reads as 0 and sets TERN (R71, R78). -/
def IsConversion (dt st : Ty) (mode : Nat) (sat : Bool) (x : Nat) (rs : Word) (r : FRes) : Prop :=
  if st = .t2 then
    ∃ q : FRes, r = { q with flags := if x % 4 = 2 then q.flags ||| flagTERN else q.flags } ∧
      dt.IsConvertedInt mode sat (if x % 4 = 1 then 1 else if x % 4 = 3 then -1 else 0) rs q
  else if st.isFloat then
    (if dt.isFloat then dt.floatFmt.IsConverted mode sat (st.floatFmt.unpack (x % 2 ^ st.bits)) rs r
     else dt.IsConvertedFloat mode (st.floatFmt.unpack (x % 2 ^ st.bits)) r)
  else dt.IsConvertedInt mode sat (Machine.asInt st (BitVec.ofNat st.bits x)) rs r

/-- The scale byte MXPACK computes for a block (R229). -/
def ComputedScale (emax : ℤ) (v : Nat → FVal) (scale : Nat) : Prop :=
  let blank := ∃ k, k < 32 ∧ ((v k).isNan ∨ (v k).isInf)
  let zero := ∀ k, k < 32 → (v k).isZero
  (blank → scale = 0xFF) ∧ (zero → scale = 0) ∧
  (¬blank → ¬zero → ∃ l : ℤ, (∀ k, k < 32 → |(v k).real| < 2 ^ (l + 1)) ∧ (∃ k, k < 32 ∧ 2 ^ l ≤ |(v k).real|) ∧
    (scale : ℤ) = max (-127) (min 127 (l - emax)) + 127)

/-- Elements of one lane packed one after another, each with the rounding state the one before left (R75, R227, R228). -/
def elements (bits : Nat) (r : Nat → Word → FRes) : Nat → Nat → Word → Machine.Lane
  | 0, _, st => (0, 0, st)
  | n + 1, i, st =>
      let x := r i st
      let y := elements bits r n (i + 1) x.st
      (x.bits * 2 ^ (i * bits) + y.1, x.flags ||| y.2.1, y.2.2)

end Sys2Proof

namespace Sys2Proof.Machine

/-- A floating-point instruction of the typed layout completes with results that meet a specification. -/
def DeliversFloat (i : Instr) (s : State) (x : Typed) (spec : Nat → Word → FRes → Prop) : Prop :=
  ∃ r : Nat → Word → FRes,
    Delivers i s x.d x.hdr x.ty.bits false (fun j st => (r j st).lane) ∧ ∀ j st, spec j st (r j st)

/-- A packed instruction completes: `n` elements of `bits` bits in 32, element k of lane j meeting a specification. -/
def DeliversPacked (i : Instr) (s : State) (d : Sel) (h : Hdr) (bits n : Nat)
    (spec : Nat → Nat → Word → FRes → Prop) : Prop :=
  ∃ r : Nat → Nat → Word → FRes,
    Delivers i s d h 32 false (fun j st => elements bits (r j) n 0 st) ∧ ∀ j k st, spec j k st (r j k st)

/-- The vector cells of a group of registers. -/
def groupCells (n count : Nat) (lanes : List Nat) : List Nat :=
  lanes.flatMap fun i => (List.range count).map fun k => i * 128 + (n + k)

/-- A block instruction completes (R229-R231): lane `j` writes `count` vector registers from `n` with the words `words j`,
raises its flags and leaves its rounding state; nothing else of the device changes. -/
def DeliversBlock (i : Instr) (s : State) (n count : Nat) (h : Hdr) (words : Nat → Word → Nat → Word)
    (rest : Nat → Word → BitVec 8 × Word) : Prop :=
  let lanes := s.active h
  ∃ t, exec i s = .next t ∧
    (∀ j ∈ lanes, ∀ k < count, t.gang.v.get 0 (j * 128 + (n + k)) = words j (s.gang.rnd.get 0 j) k) ∧
    (∀ c, c ∉ groupCells n count lanes → t.gang.v.get 0 c = s.gang.v.get 0 c) ∧
    t.gang.s = s.gang.s ∧ t.gang.stags = s.gang.stags ∧ t.gang.p = s.gang.p ∧ t.gang.g = s.gang.g ∧
    s.RegisterOnly t ∧ s.SameMemory t ∧
    s.Flagged t (lanes.foldr (fun j a => (rest j (s.gang.rnd.get 0 j)).1 ||| a) 0) ∧
    s.RoundStates t false lanes fun j => (rest j (s.gang.rnd.get 0 j)).2

/-! ### Memory accesses -/

/-- Of two states only the memory system, the scratch and the parking counters of the crew in focus, SMASK, SPASS and the
LOCATE mark of the gang in focus differ; for an ejected strand its parent's SMASK and SPASS too. -/
def State.Touches (s t : State) : Prop :=
  t = { s with
    sys := t.sys, gangs := t.gangs,
    crew := { s.crew with
      locates := t.crew.locates, demotes := t.crew.demotes, scratch := t.crew.scratch, scratchTags := t.crew.scratchTags,
      unfenced := t.crew.unfenced },
    gang := { s.gang with smask := t.gang.smask, spass := t.gang.spass, located := t.gang.located } } ∧
  (s.gang.ej = none → t.gangs = s.gangs)

/-- The item is a store to memory or to scratch, performed at once. -/
def StoreItem.plain : StoreItem → Bool
  | .memory _ va _ l => isMemory (l.addr va)
  | .logged .. => false
  | .scratch .. => true

/-- Some core's L1 holds byte `b` dirty for physical address `a` (R110). -/
def Sys.Dirty (y : Sys) (a : Nat) (b : Byte) : Prop :=
  ∃ c, ∃ x ∈ (y.core c).l1, ∃ i, i < 128 ∧ x.dirty.getLsbD i = true ∧ a = x.pa + i ∧ b = lineByte x.data i

/-- Every byte of memory outside `stored` is as before, or an L1 held it dirty and has written it back (R109, R110). -/
def State.KeptMemory (s t : State) (stored : Nat → Prop) : Prop :=
  ∀ a, ¬stored a → t.sys.byte a = s.sys.byte a ∨ s.sys.Dirty a (t.sys.byte a)

/-- The physical lines that stores to a line of the issuing context go to: the L1's line where it holds it, and the lines the
translations give. -/
def State.homes (s : State) (w : Who) (items : List StoreItem) (line base : Nat) : Prop :=
  (∃ x ∈ (s.sys.core w.core).l1, x.asid = w.asid ∧ x.line = line ∧ x.pa = base) ∨
  ∃ i va b l, StoreItem.memory i va b l ∈ items ∧ va / 128 = line ∧ base + va % 128 = l.addr va

/-- The bytes of memory that the parts of a store write. -/
def State.storedBytes (s : State) (w : Who) (items : List StoreItem) (a : Nat) : Prop :=
  ∃ i va b l base, StoreItem.memory i va b l ∈ items ∧ s.homes w items (va / 128) base ∧ base + va % 128 ≤ a ∧
    a < base + va % 128 + b.length

/-- An access has completed: its gang has gone on to the next PC, and besides registers only what `Touches` names differs. -/
def State.AccessOnly (s t : State) : Prop :=
  t = { s.advance with
    sys := t.sys, gangs := t.gangs,
    crew := { s.crew with
      locates := t.crew.locates, demotes := t.crew.demotes, scratch := t.crew.scratch, scratchTags := t.crew.scratchTags,
      unfenced := t.crew.unfenced },
    gang := { s.advance.gang with
      v := t.gang.v, s := t.gang.s, stags := t.gang.stags, handleIds := t.gang.handleIds, shadows := t.gang.shadows,
      marks := t.gang.marks, smask := t.gang.smask, spass := t.gang.spass, located := t.gang.located } } ∧
  (s.gang.ej = none → t.gangs = s.gangs)

/-- Every general register of the gang holds what it held. -/
def State.SameRegisters (s t : State) : Prop :=
  t.gang.v = s.gang.v ∧ t.gang.s = s.gang.s ∧ t.gang.stags = s.gang.stags ∧ t.gang.p = s.gang.p ∧ t.gang.g = s.gang.g ∧
    t.gang.shadows = s.gang.shadows

/-- Registers a load of `size` bytes writes in each lane: vector registers of 4 bytes, scalar registers of 8 (R133). -/
def loadCount (d : Sel) (size : Nat) : Nat :=
  match d with
  | .s _ => max 1 (size / 8)
  | _ => max 1 (size / 4)

/-- The destination of a load holds the loaded numbers; narrow ones are zero- or sign-extended (R133). -/
def State.LoadReceived (t : State) (d : Sel) (size : Nat) (sx : Bool) (lanes : List Nat) (num : Nat → Nat) : Prop :=
  match d with
  | .v n => ∀ j ∈ lanes, ∀ k < loadCount d size, t.gang.v.get 0 (j * 128 + (n.toNat + k)) =
      BitVec.ofNat 32 (if size < 4 then extend (8 * size) 32 sx (num j) else num j / 2 ^ (32 * k))
  | .s n => ∀ k < loadCount d size, t.gang.s.get 0 (n.toNat + k) =
      BitVec.ofNat 64 (if size < 8 then extend (8 * size) 64 sx (num 0) else num 0 / 2 ^ (64 * k)) ∧
      t.gang.stags.getLsbD ((n.toNat + k) / 2) = false
  | _ => True

/-- Every other register is as before (R44). -/
def State.LoadKept (s t : State) (d : Sel) (size : Nat) (lanes : List Nat) : Prop :=
  (∀ c, (∀ n, d = .v n → c ∉ groupCells n.toNat (loadCount d size) lanes) → t.gang.v.get 0 c = s.gang.v.get 0 c) ∧
  (∀ c, (∀ n, d = .s n → ∀ k < loadCount d size, c ≠ n.toNat + k) → t.gang.s.get 0 c = s.gang.s.get 0 c) ∧
  (∀ c, (∀ n, d = .s n → ∀ k < loadCount d size, c ≠ (n.toNat + k) / 2) →
    t.gang.stags.getLsbD c = s.gang.stags.getLsbD c) ∧
  t.gang.p = s.gang.p ∧ t.gang.g = s.gang.g

/-- The number a lane of a load reads (R1). -/
def loadedNum (xs : List Loaded) (j : Nat) : Nat :=
  fromBytes (((xs.find? fun e => e.strand = j).map fun e => e.data).getD [])

/-- LD, LDP and LDS, ST, STP and STS by the window their plain base points to. -/
def loadForms (x : MemOp) : List (Instr × AddrSpace) := [(.ld x, .any), (.ldp x, .priv), (.lds x, .scratch)]
def storeForms (x : MemOp) : List (Instr × AddrSpace) := [(.st x, .any), (.stp x, .priv), (.sts x, .scratch)]

/-- A pair holds 128 bits and a tag; every other general register is as before (R44, R92). -/
def State.PairReceived (s t : State) (n : Nat) (q : Quad) (tag : Bool) : Prop :=
  t.gang.s.get 0 n = q.extractLsb' 0 64 ∧ t.gang.s.get 0 (n + 1) = q.extractLsb' 64 64 ∧
  t.gang.stags.getLsbD (n / 2) = tag ∧
  (∀ k, k ≠ n → k ≠ n + 1 → t.gang.s.get 0 k = s.gang.s.get 0 k) ∧
  (∀ k, k ≠ n / 2 → t.gang.stags.getLsbD k = s.gang.stags.getLsbD k) ∧
  t.gang.v = s.gang.v ∧ t.gang.p = s.gang.p ∧ t.gang.g = s.gang.g ∧ t.gang.fpstat = s.gang.fpstat ∧
  t.gang.rnd = s.gang.rnd ∧ t.gang.urnd = s.gang.urnd

/-- The status word of a uniform instruction in D, when it has one: a scalar register, its pair's tag clear; every other
register is as before (R92, R143). -/
def State.WordReceived (s t : State) (d : Sel) (x : Dword) : Prop :=
  (∀ n, d = .s n → t.gang.s.get 0 n.toNat = x ∧ t.gang.stags.getLsbD (n.toNat / 2) = false) ∧
  (∀ k, (∀ n, d = .s n → k ≠ n.toNat) → t.gang.s.get 0 k = s.gang.s.get 0 k) ∧
  (∀ k, (∀ n, d = .s n → k ≠ n.toNat / 2) → t.gang.stags.getLsbD k = s.gang.stags.getLsbD k) ∧
  t.gang.v = s.gang.v ∧ t.gang.p = s.gang.p ∧ t.gang.g = s.gang.g

/-! ### Scratch (R157-R164) -/

/-- The plain offset of a lane in scratch (R168). -/
def State.scratchOffset (s : State) (x : MemOp) (j : Nat) : Int :=
  signed 64 (wrapInt 64 ((s.scalar x.a).toNat + s.index x.b j * x.size.bytes + dispOf x.off x.size.bytes))

/-- A lane of an access of `n` bytes lies outside the allocation, or in a pending destination window (R162, R165). -/
def State.outOfScratch (s : State) (off : Int) (n : Nat) : Prop := off < 0 ∨ (s.crew.scratchSize : Int) < off + n
def State.inWindow (s : State) (off : Int) (n : Nat) : Prop :=
  ∃ p ∈ s.windows s.crew.id, (p.1 : Int) < off + n ∧ off ≤ (p.2 : Int)

/-- The byte a lane takes part in. -/
def State.covers (s : State) (x : MemOp) (j o : Nat) : Prop :=
  let off := s.scratchOffset x j
  ¬s.outOfScratch off x.size.bytes ∧ ¬s.inWindow off x.size.bytes ∧ off ≤ o ∧ (o : Int) < off + x.size.bytes

/-- SMASK gains the switched-off lanes and the kinds of reasons (R164). -/
def State.SmaskGained (s t : State) (x : MemOp) (lanes : List Nat) : Prop :=
  let out j := s.outOfScratch (s.scratchOffset x j) x.size.bytes
  let win j := s.inWindow (s.scratchOffset x j) x.size.bytes
  ∀ k, k < 64 → (t.gang.smask.getLsbD k = true ↔ s.gang.smask.getLsbD k = true ∨
    ∃ j ∈ lanes, (out j ∨ win j) ∧ (k = j ∨ (k = 32 ∧ out j) ∨ (k = 33 ∧ ¬out j)))

/-! ### Atomics (R170-R175) -/

/-- Read-modify-writes of `n` bytes in memory, one lane after another: what each lane finds, and memory afterwards (R171,
R174). -/
def atomicRun (n : Nat) (new : Nat → Nat → Nat) : List (Nat × Nat) → Sys → List (Nat × Nat) × Sys
  | [], y => ([], y)
  | (i, pa) :: rest, y =>
      let old := y.num pa n
      let r := atomicRun n new rest (y.setNum pa n (new i old))
      ((i, old) :: r.1, r.2)

/-- The same in a crew's scratch, by offset (R175). -/
def atomicScratch (n : Nat) (new : Nat → Nat → Nat) : List (Nat × Nat) → Crew → List (Nat × Nat) × Crew
  | [], c => ([], c)
  | (i, off) :: rest, c =>
      let old := fromBytes (c.scratchRead off n)
      let r := atomicScratch n new rest (c.scratchWrite off (toBytes n (new i old)) false)
      ((i, old) :: r.1, r.2)

/-- What a lane of an atomic finds. -/
def foundBy (l : List (Nat × Nat)) (j : Nat) : Nat := ((l.find? fun e => e.1 = j).map Prod.snd).getD 0

/-- The operand `k` of a lane of an atomic: the register, and for a new value the one after it (R173). -/
def State.atomOperand (s : State) (x : AtomOp) (k i : Nat) : Nat :=
  match x.c with
  | .v r => s.src (8 * x.size.bytes) false (.v (r + BitVec.ofNat 7 (k * (x.size.bytes / 4)))) 0 i
  | .s r => (s.readS (r.toNat + k)).toNat % 2 ^ (8 * x.size.bytes)
  | _ => 0

/-- The five forms: where the plain base points, and the new word of a lane (R173-R175). -/
def atomForms (s : State) (x : AtomOp) : List (Instr × AddrSpace × (Nat → Nat → Nat)) :=
  let w := 8 * x.size.bytes
  let rmw i old := atomicStep x.op.toNat w old (s.atomOperand x 0 i)
  let swap i old := if old = s.atomOperand x 0 i then s.atomOperand x 1 i else old
  [(.atom x, .any, rmw), (.red x, .any, rmw), (.cas x, .any, swap), (.atoms x, .scratch, rmw), (.cass x, .scratch, swap)]

/-! ### Control flow (R309-R322) -/

/-- Strands of the run go to their PCs; in a handler the handler does. Nothing else of the PC table changes (R41, R362). -/
def State.WentTo (s t : State) (pc : Nat → Pc) : Prop :=
  match s.gang.handler with
  | some b => ∃ via, t.gang.handler = some { b with pc := pc s.lead, via := via } ∧ t.gang.strands = s.gang.strands
  | none => t.gang.handler = none ∧ ∀ i, i < 32 →
      if s.run.getLsbD i then
        (t.gang.strand i).pc = pc i ∧ (t.gang.strand i).st = (s.gang.strand i).st ∧ (t.gang.strand i).age = (s.gang.strand i).age
      else t.gang.strand i = s.gang.strand i

/-- Nothing differs but registers of the gang, its PC table and its wait, which is over. -/
def State.FlowOnly (s t : State) : Prop :=
  t = { s with gang := { s.gang with
    v := t.gang.v, s := t.gang.s, stags := t.gang.stags, p := t.gang.p, handleIds := t.gang.handleIds,
    shadows := t.gang.shadows, marks := t.gang.marks, quick := t.gang.quick, strands := t.gang.strands,
    handler := t.gang.handler, hold := none } }

/-- A branch completes: the strands that take it go to their targets, the others of the run to the next PC; D receives
results. A target that fails R42 traps before anything changes (R312, R362). -/
def Branches (i : Instr) (s : State) (taking : Mask) (target : Nat → Dword) (d : Sel) (w : Nat) (lanes : List Nat)
    (r : Nat → Nat) : Prop :=
  let m := if s.inHandler then (if taking.getLsbD s.lead then s.run else 0) else taking
  let goal j := if s.inHandler then target s.lead else target j
  ((∀ j, m.getLsbD j = true → s.targetOk (goal j) = true) → (m = s.run ∨ s.flows = true) →
    ∃ t, exec i s = .next t ∧ s.WentTo t (fun j => if m.getLsbD j then goal j else nextPc s.ipc) ∧
      t.Received d w false lanes r ∧ s.KeptRegisters t d w lanes ∧ s.FlowOnly t) ∧
  ∀ j, m.getLsbD j = true → s.targetOk (goal j) = false →
    (∀ k, k < j → m.getLsbD k = true → s.targetOk (goal k) = true) → exec i s = .next (s.trap 0x04 (goal j))

/-! ### Collectives (R259-R271) -/

/-- Every member of the subgroups the run touches is in the run or has exited: none is away, none elsewhere (R262, R263). -/
def State.Gathered (s : State) (p : Part) : Prop :=
  let m := p.touched s.run
  m &&& s.gang.inState StrandState.away = 0 ∧ m &&& s.gang.live &&& ~~~s.run = 0

/-- A collective completes with a result in every participant, or that of the lowest participant in a scalar register. -/
def Shares (i : Instr) (s : State) (x : Typed) (w : Nat) (r : Nat → Nat) : Prop :=
  Delivers i s x.d x.hdr w false fun j st => (r (if x.d.isScalar then s.lead else j), 0, st)

end Sys2Proof.Machine

namespace Sys2Proof

/-- The exact sum of a list of values, rounded once (R268). -/
def FloatFmt.IsTotal (f : FloatFmt) (mode : Nat) (sat : Bool) (vs : List FVal) (r : Nat × BitVec 8) : Prop :=
  let up := ∃ v ∈ vs, v.isInf ∧ ¬v.neg
  let down := ∃ v ∈ vs, v.isInf ∧ v.neg
  let sum : ℝ := (vs.map FVal.real).sum
  if (∃ v ∈ vs, v.isNan) ∨ (up ∧ down) then
    r.1 = f.nanBits ∧ (r.2 = if (∃ v ∈ vs, v.isSig) ∨ (up ∧ down) then flagNV else 0)
  else if up then r = (f.signed false f.infBits, 0)
  else if down then r = (f.signed true f.infBits, 0)
  else if sum ≠ 0 then ∃ q, f.RoundOf mode sat sum 0 q ∧ r = (q.bits, q.flags)
  else r.2 = 0 ∧ ((∀ v ∈ vs, v.isZero ∧ v.neg) → vs ≠ [] → r.1 = f.signed true 0) ∧
    ((∀ v ∈ vs, v.isZero ∧ ¬v.neg) → vs ≠ [] → r.1 = f.signed false 0) ∧
    ((∃ v ∈ vs, ¬v.isZero) ∨ ((∃ v ∈ vs, v.neg) ∧ ∃ v ∈ vs, ¬v.neg) → r.1 = f.signed (mode = RD) 0)

end Sys2Proof

namespace Sys2Proof.Machine

/-! ### Engine operations (R177, R178, R185, R240) -/

/-- An instruction completes by queueing an engine operation, pending in a fresh entry of the crew's handle table when a
register names it. The places it needs must be free. -/
def Queues (i : Instr) (s : State) (q : Request) : Prop :=
  (q.reg ≠ none → s.crew.freeHandles ≠ []) → (q.window ≠ none → s.hasRoom .windows = true) →
  (∀ r, q.room = some r → s.hasRoom r = true) →
  ∃ (t : State) (o : EngineOp), exec i s = .next t ∧ s.WentOn t ∧ t.ops = s.ops ++ [o] ∧ t.nextOp = s.nextOp + 1 ∧
    o = { id := s.nextOp, kind := q.kind, crewId := s.crew.id, gangId := s.gang.id, gangIdx := s.gang.idx,
          asid := s.crew.asid, priv := s.gang.priv, core := s.core, cls := s.crew.cls, handle := o.handle,
          window := q.window, holds := q.holds, unproven := q.unproven, fence := s.crew.fences, barrier := q.barrier } ∧
    (q.reg = none → o.handle = none ∧ t.crew = s.crew) ∧
    (∀ r, q.reg = some r → ∃ e rest, s.crew.freeHandles = e :: rest ∧ o.handle = some e ∧ t.crew.freeHandles = rest ∧
      let old := s.crew.handles.get {} e
      let h := t.crew.handles.get {} e
      h.pending = true ∧ h.reg = r ∧ h.gang = s.gang.id ∧ h.serial = (if old.used then old.serial + 1 else 0) ∧
      t.gang.handleIds.get none r = some ⟨e, h.serial⟩) ∧
    s.SameRegisters t ∧ t.sys = s.sys

/-- An operation is over: it is gone from the engines, and its handle, if still pending, holds the status word: CODE in bits
15-0, FLAGS in 23-16, RESULT in 63-32. A register that is not banked holds the word too (R178). -/
def State.Reported (s t : State) (o : EngineOp) (code : BitVec 16) (flags : BitVec 8) (result : Nat) : Prop :=
  (∀ x, x ∈ t.ops ↔ x ∈ s.ops ∧ x.id ≠ o.id) ∧
  ∀ h, o.handle = some h →
    let e := (s.findCrew o.crewId).handles.get {} h
    let word : Dword := BitVec.ofNat 64 (code.toNat + 2 ^ 16 * flags.toNat + 2 ^ 32 * (result % 2 ^ 32))
    e.pending = true → (s.findCrew o.crewId).id = o.crewId → o.crewId ≠ 0 →
      (t.findCrew o.crewId).handles.get {} h = { e with pending := false, status := word } ∧
      (e.reg < 56 → (s.findGang e.gang).id = e.gang → e.gang ≠ 0 → (t.findGang e.gang).s.get 0 e.reg = word)

/-- `u` ranks above `v` (R273). -/
def Above (u v : FVal) : Prop := ¬u.isNan ∧ (v.isNan ∨ v.ereal < u.ereal)

/-- The integer of an activation code and of a weight code in the integer modes (R83, R237). -/
def activationInt (fmt code : Nat) : Int := if fmt = 9 then (BitVec.ofNat 8 code).toInt else (code % 256 : Nat)
def weightInt (fmt code : Nat) : Int :=
  if fmt = 12 then (if code % 4 = 1 then 1 else if code % 4 = 3 then -1 else 0) else (BitVec.ofNat 8 code).toInt

/-- The formats of a weight plane and of an activation stream: code and block scaling (R236). -/
def weightFormats : List (Nat × Bool) :=
  [(4, false), (4, true), (5, false), (5, true), (6, true), (7, true), (8, true), (3, false), (2, false), (9, false), (12, false)]
def streamFormats : List (Nat × Bool) :=
  [(4, false), (4, true), (5, false), (5, true), (6, true), (7, true), (8, true), (3, false), (2, false), (9, false), (10, false)]

/-- A Hadamard transform of 16 * 2^hn points is allowed over an extent (R238). -/
def transformAllowed (fmt : Nat) (bs : Bool) (hn extent : Nat) : Prop :=
  hn < 3 ∧ extent % (16 * 2 ^ hn) = 0 ∧ if bs then hn < 2 else fmt = 2 ∨ fmt = 3 ∨ fmt = 4 ∨ fmt = 5

end Sys2Proof.Machine

namespace Sys2Proof.Machine

/-! ### Stitched lists (R198-R209) -/

/-- The addresses of the bytes of a version, in the order of their indices (R198, R200). -/
def versionBytes (v : Nat) (l : List Piece) : List Nat :=
  (l.filter fun p => p.aliveAt v).flatMap fun p => (List.range p.len).map fun i => p.base + i

/-- The versions of a list that can still be resolved (R200, R201). -/
def State.liveVersions (s : State) (asid : Asid) (va : Nat) (h : ListHdr) : List Nat :=
  h.version :: (h.pins.filter fun p => 0 < p.1).map Prod.snd ++ s.heldVersions asid va

/-- An agent finds the memory of a byte at once: the MTLBs hold a translation with the rights the access needs, which gives
device memory without an error, and a line that a cache holds of it has the same frame and those rights (R10, R99, R100,
R107). -/
def State.Finds (s : State) (w : Who) (acc : Access) (va pa : Nat) : Prop :=
  (∃ t, s.sys.mtlbFind w.asid va = some t ∧ t.rights.lacks acc w.priv = none ∧ (t.leaf va).addr va = pa) ∧
    isMemory pa = true ∧ s.sys.isBad pa = false ∧
    ∀ l, s.sys.reached w va = some l → l.addr va = pa ∧ l.rights.lacks acc w.priv = none

/-- It finds each of `n` bytes of the global or the private window. -/
def State.FindsAll (s : State) (w : Who) (acc : Access) (va n : Nat) : Prop :=
  ∀ a, va ≤ a → a < va + n → a < Config.ownTop ∧ ∃ pa, s.Finds w acc a pa

/-- The stitch unit finds the header of a list at once and reads `h` there, a header it can use (R197, R199). -/
def State.FindsHeader (s : State) (w : Who) (va pa : Nat) (h : ListHdr) : Prop :=
  let b := s.sys.bytes pa 64
  va % 64 = 0 ∧ va < Config.ownTop ∧ s.Finds w .load va pa ∧ h = ListHdr.ofBytes b ∧ h.k ≤ 20 ∧ h.used ≤ 2 ^ h.k ∧
    h.version ≠ 0 ∧ h.version ≠ 0xFFFFFFFF ∧ fromBytes b / 2 ^ 185 % 2 ^ 7 = 0

/-- It finds each entry of the array in use at once too, and reads `l` there (R198, R199). -/
def State.FindsEntries (s : State) (w : Who) (h : ListHdr) (pa : Nat → Nat) (l : List Piece) : Prop :=
  l = ((List.range h.used).map fun i => Piece.ofBytes (s.sys.bytes (pa i) 32)) ∧
    ∀ i, i < h.used → h.arr + 32 * i < Config.ownTop ∧ s.Finds w .load (h.arr + 32 * i) (pa i) ∧
      fromBytes (s.sys.bytes (pa i) 32) / 2 ^ 224 = 0

/-- An instruction of the stitch unit completes: its gang goes on, the memory system becomes `y`, no operation is queued. -/
def Stitches (i : Instr) (s : State) (y : Sys) (p : State → Prop) : Prop :=
  ∃ t, exec i s = .next t ∧ s.WentOn t ∧ t.sys = y ∧ t.ops = s.ops ∧ p t

end Sys2Proof.Machine

namespace Sys2Proof.Machine

/-! ### Queues (R341-R350) -/

/-- A transfer of `count` items reports: its status word in C, and in the predicate D the strands of the lowest ranks; every
other general register is as before (R344). -/
def State.TransferReceived (s t : State) (x : Fun) (count : Nat) (word : Nat) : Prop :=
  (∀ n, x.c = .s n → t.gang.s.get 0 n.toNat = BitVec.ofNat 64 word ∧ t.gang.stags.getLsbD (n.toNat / 2) = false) ∧
  (∀ k, (∀ n, x.c = .s n → k ≠ n.toNat) → t.gang.s.get 0 k = s.gang.s.get 0 k) ∧
  (∀ k, (∀ n, x.c = .s n → k ≠ n.toNat / 2) → t.gang.stags.getLsbD k = s.gang.stags.getLsbD k) ∧
  (∀ k i, i < 32 → (t.gang.p.get 0 k).getLsbD i =
    if (∃ n, x.d = .p n ∧ k = n.toNat) ∧ s.run.getLsbD i = true then
      decide (((Mask.list s.run).filter fun j => j < i).length < count)
    else (s.gang.p.get 0 k).getLsbD i) ∧
  t.gang.v = s.gang.v ∧ t.gang.g = s.gang.g

/-- The gang in focus acts at a queue at which no gang waits: nobody is served first (R346). -/
def State.NoneWaits (s : State) (key : Nat) : Prop :=
  s.crew.id = s.gang.crewId ∧ s.gang.live ≠ 0 ∧
    ∀ g ∈ s.allGangs, ∀ n, g.blockedPop ≠ some (key, n) ∧ g.blockedPush ≠ some (key, n)

/-- The instruction names a queue bound to its context, at which no gang waits, and an item for each strand of the run within
scratch (R342, R344). -/
def State.MayTransfer (s : State) (x : Fun) (o : Op) (key : Nat) (q : Queue) : Prop :=
  s.NoneWaits key ∧ s.barred (queueLimits o x) = none ∧ s.specBit x = none ∧ key = s.queueKey (s.queueSpec x) ∧ q = s.queue key ∧
  s.usable q = true ∧ s.itemBase x % 64 = 0 ∧ s.itemBase x + 64 * Mask.count s.run ≤ s.crew.scratchSize ∧
  ¬s.inWindow (s.itemBase x) (64 * Mask.count s.run)

/-- C is a scalar register or none, D a predicate below p7 or none. -/
def transferRegisters (x : Fun) : Prop :=
  (x.c = .none ∨ ∃ n, x.c = .s n) ∧ (x.d = .none ∨ ∃ n : BitVec 3, x.d = .p n ∧ n ≠ 7)

/-- A step `r` of the gang in `s` pushes what fits of its items: they go to the ring after the release, then the tail moves,
the completion record and the vectors of a host queue follow, and the status word tells a wait that ran out (R344-R347,
R383). -/
def State.Pushes (s : State) (r : Out) (x : Fun) (key : Nat) (q : Queue) (timed : Prop) : Prop :=
  let w := s.unitWho
  let a := Mask.count s.run
  let m := min a q.space
  ∀ u, s.ringCheck w q m = .ok u →
    let v := (u.release s.who q.pushScope).ringWrite w q (s.itemBase x) m
    let done (p : State → Prop) : Prop := ∃ t word, r = .next t ∧ s.WentOn t ∧ s.TransferReceived t x m word ∧
      (timed ∧ m < a → word = m + 2 ^ 30) ∧ (¬(timed ∧ m < a) → word = m) ∧
      t.queue key = { q with tail := q.tail + BitVec.ofNat 32 m } ∧ (∀ k, k ≠ key → t.queues.get {} k = s.queues.get {} k) ∧
      t.crew.scratch = s.crew.scratch ∧ p t
    (m = 0 ∨ q.hostPorts = 0 → done fun t => t.sys = v.sys) ∧
    (m ≠ 0 → q.hostPorts ≠ 0 → s.host.linkA = true → s.host.linkB = true → ∀ v', v.recordWrite w
        (q.crec.toNat + 32 * (q.tail.toNat % q.capacity)) (s.completionBytes q key m) = .ok v' →
      done fun t => t.sys = v'.sys ∧ (q.hostPorts.getLsbD 0 = true → (Port.portA, key) ∈ t.host.msix) ∧
        (q.hostPorts.getLsbD 1 = true → (Port.portB, key) ∈ t.host.msix))

/-- A step `r` of the gang in `s` takes the `m` items at the indices: they stand in scratch behind the item base, those of
their slots that lie within a root are tagged, the queue becomes `q'`, and the status word holds the count, the flags and the
strands whose item declares a slot that was not minted (R94, R343-R347). -/
def State.Takes (s : State) (r : Out) (x : Fun) (key : Nat) (q q' : Queue) (m : Nat) (nosteal : Prop) (index : Nat → Word) :
    Prop :=
  let w := s.unitWho
  let base := s.itemBase x
  ∀ items u, ((List.range m).map fun n => q.slot (index n)).foldlM (readItem w) ([], s) = .ok (items, u) →
    let roots := if m = 0 then ([], u) else u.roots w
    let minted n := mintedSlots roots.1 (items.getD n [])
    let v := if m = 0 then u else roots.2.acquire s.who 6
    ∃ t word, r = .next t ∧ s.WentOn t ∧ s.TransferReceived t x m word ∧ t.queue key = q' ∧
      (∀ k, k ≠ key → t.queues.get {} k = s.queues.get {} k) ∧ t.sys = v.sys ∧ word % 2 ^ 29 = m ∧
      (word.testBit 29 = true ↔ nosteal) ∧ word.testBit 30 = false ∧
      (word.testBit 31 = true ↔ q.closed = true ∧ q.count < Mask.count s.run) ∧
      (∀ n k, n < m → k < 64 → some (t.crew.scratch.get 0 (base + 64 * n + k)) = (items.getD n [])[k]?) ∧
      (∀ k, k < base ∨ base + 64 * m ≤ k → t.crew.scratch.get 0 k = s.crew.scratch.get 0 k) ∧
      (∀ n j, n < m → j < 4 → (t.crew.scratchTags.contains (base / 16 + 4 * n + j) = true ↔ j ∈ minted n)) ∧
      ∀ n i, n < m → (Mask.list s.run)[n]? = some i →
        (word.testBit (32 + i) = true ↔ ∃ j, j < 3 ∧ ((items.getD n []).getD 63 0).getLsbD j = true ∧ j ∉ minted n)

end Sys2Proof.Machine

namespace Sys2Proof.Machine

/-! ### Traps (R358-R371) -/

/-- A gang has entered its handler with this trap record: the handler's s56-s63 and p4-p6 are zero, its own copies are set
aside, the other registers stay, and it waits for nothing (R361, R362). -/
def State.Entered (s t : State) (cause : BitVec 8) (info pc : Dword) (run : Mask) : Prop :=
  t.gang.trapCause = cause.setWidth 9 ∧ t.gang.trapInfo = info ∧ t.gang.trapPc = pc &&& 0x01FFFFFFFFFFFFFF ∧
  t.gang.trapRun = run ∧ t.gang.priv = true ∧ t.gang.hold = none ∧
  (∃ b, t.gang.handler = some b ∧ b.via = none ∧
    b.pc = BitVec.ofNat 64 ((s.sys.ctxD s.crew.asid).trapvec.toNat / 64 % 2 ^ 51 * 64) ∧
    (∀ k, 56 ≤ k → k < 64 → b.s.get 0 k = s.gang.s.get 0 k ∧ b.tags.getLsbD (k / 2) = s.gang.stags.getLsbD (k / 2)) ∧
    ∀ k, 4 ≤ k → k < 7 → b.p.get 0 k = s.gang.p.get 0 k) ∧
  (∀ k, k < 64 → t.gang.s.get 0 k = (if 56 ≤ k then 0 else s.gang.s.get 0 k) ∧
    t.gang.stags.getLsbD (k / 2) = (if 56 ≤ k then false else s.gang.stags.getLsbD (k / 2))) ∧
  (∀ k, k < 7 → t.gang.p.get 0 k = if 4 ≤ k then 0 else s.gang.p.get 0 k) ∧
  t.gang.v = s.gang.v ∧ t.gang.g = s.gang.g ∧ t.gang.fpstat = s.gang.fpstat ∧ t.gang.smask = s.gang.smask ∧
  t.gang.rnd = s.gang.rnd ∧ t.gang.urnd = s.gang.urnd ∧ t.gang.groups = s.gang.groups ∧ t = { s with gang := t.gang }

/-- A gang that may take a trap: of a context with a handler, not in the handler, not ejected. -/
def State.HasHandler (s : State) : Prop :=
  s.gang.ej = none ∧ s.gang.handler = none ∧ (s.sys.ctxD s.crew.asid).trapvec.getLsbD 0 = true

/-- Every strand of every gang of a crew is DONE, none is on a marionette, and the crew ended on a cause; its operations are
asked to cancel (R184, R373). -/
def State.Killed (s : State) (crew : Nat) (cause : Word) : Prop :=
  (∀ g ∈ s.gangsOf crew, g.ej = none ∧ g.live = 0 ∧ g.hold = none) ∧ (s.findCrew crew).ended = .killed cause ∧
    ∀ o ∈ s.ops, o.crewId = crew → o.cancel = true

/-- The gangs and the crew in focus stand under their own numbers. -/
def State.Numbered (s : State) : Prop :=
  s.gang.id ≠ 0 ∧ s.crew.id ≠ 0 ∧ s.crew.id = s.gang.crewId ∧ (∀ e ∈ s.gangs, e.2.id = e.1 ∧ e.1 ≠ s.gang.id ∧ e.1 ≠ 0) ∧
    (s.gangs.map Prod.fst).Pairwise (· < ·) ∧ (∀ e ∈ s.crews, e.2.id = e.1 ∧ e.1 ≠ s.crew.id ∧ e.1 ≠ 0) ∧
    (s.crews.map Prod.fst).Pairwise (· < ·)

/-- The instructions that execute only in privileged mode, with their opcodes (R61). -/
def privilegedForms (x : Fun) : List (Instr × Op) :=
  [(.capset x, .capset), (.qbindBind x, .qbind), (.qbindUnbind x, .qbind), (.qbindClose x, .qbind), (.qbindOpen x, .qbind),
   (.rft x, .rft), (.ctxsave x, .ctxsave), (.ctxload x, .ctxload), (.tlbinvRange x, .tlbinv), (.tlbinvAsid x, .tlbinv),
   (.tlbinvAll x, .tlbinv), (.tlbinvSplinter x, .tlbinv), (.haltWait x, .halt), (.haltKill x, .halt)]

end Sys2Proof.Machine

namespace Sys2Proof.Machine

/-! ### Contexts and translations (R375-R378) -/

/-- No cache, translation, reverse-map record or instruction buffer holds anything of the units (R99, R102, R375). -/
def Sys.Forgets (y : Sys) (p : Asid → Nat → Prop) : Prop :=
  (∀ e ∈ y.mtlb, ∀ k, k < e.units → ¬p e.asid (e.vpn + k)) ∧
  (∀ e ∈ y.dir, e.2.held = true → ¬p (keyAsid e.1) (keyLine e.1 / 512)) ∧ (∀ e ∈ y.rev, e.2.v = true → ¬p e.2.asid e.2.vpn) ∧
  ∀ c, (∀ l ∈ (y.core c).l1, ¬p l.asid (l.line / 512)) ∧ ∀ l ∈ (y.core c).ibuf, ¬p l.asid (l.line / 1024)

/-- No store, no CTXLOAD and no context load of the host waits for room in a log. -/
def State.NoLoadWaits (s : State) : Prop :=
  s.host.ctxdbRest = none ∧
    ∀ g ∈ s.allGangs, ∀ h, g.hold = some h → (∀ x r, h.why ≠ .ctxload x r) ∧ ∀ r, h.why ≠ .logRoom r

end Sys2Proof.Machine
end

