-- ==== Sys2Proof/Certificates/Slice0/Obligations.lean ====
section
/-! DEFINITION. The statements for the provers. -/

open Sys2Proof Sys2Proof.Machine

/-! ### The integer group (R214-R221) -/

/-- R216: IADD, ISUB, IMUL, IMAD and IABS complete with the exact integer result, wrapped or clamped; IMULH with its high half. -/
def Claims.IntegerSums : Prop :=
  ∀ (x : Typed) (s : State), s.flows = true → evenPair x.d x.width →
    let a i := asInt x.ty (s.opA x i)
    let b i := asInt x.ty (s.opB x i)
    let c i := asInt x.ty (s.opC x i)
    let done (i : Instr) (r : Nat → BitVec x.width × BitVec 8) : Prop := DeliversInt i s x r
    done (.iadd x) (fun i => narrowed x.ty x.width x.sat (a i + b i)) ∧
    done (.isub x) (fun i => narrowed x.ty x.width x.sat (a i - b i)) ∧
    done (.imul x) (fun i => narrowed x.ty x.width x.sat (a i * b i)) ∧
    done (.imad x) (fun i => narrowed x.ty x.width x.sat (a i * b i + c i)) ∧
    done (.imulh x) (fun i => (BitVec.ofInt x.width (a i * b i / (2 ^ x.width : Nat)), 0)) ∧
    done (.iabs x) (fun i => narrowed x.ty x.width x.sat (a i).natAbs)

/-- R221: IDOT4 completes with the sum of four byte products and c, wrapped or clamped. -/
def Claims.DotProduct : Prop :=
  ∀ (x : Typed) (s : State), s.flows = true → evenPair x.d x.width →
    let byte (signedByte : Bool) (n j : Nat) : Int :=
      let b := BitVec.ofNat 8 (n / 2 ^ (8 * j))
      if signedByte then b.toInt else b.toNat
    let a i := byte (decide (x.var.toNat < 2)) (s.opA x i).toNat
    let b i := byte (decide (x.var.toNat % 2 = 0)) (s.opB x i).toNat
    x.ty = .i32 → DeliversInt (.idot4 x) s x fun i =>
      narrowed x.ty x.width x.sat ((s.opC x i).toInt + a i 0 * b i 0 + a i 1 * b i 1 + a i 2 * b i 2 + a i 3 * b i 3)

/-- R216, R217: the logical operations and the shifts; an amount at or above the width gives 0, or the sign. -/
def Claims.LogicAndShifts : Prop :=
  ∀ (x : Typed) (s : State), s.flows = true → evenPair x.d x.width →
    let a := s.opA x
    let b := s.opB x
    let k i := (b i).toNat % 2 ^ 32
    let done (i : Instr) (r : Nat → BitVec x.width) : Prop := DeliversInt i s x fun j => (r j, 0)
    done (.and x) (fun i => a i &&& b i) ∧
    done (.or x) (fun i => a i ||| b i) ∧
    done (.xor x) (fun i => a i ^^^ b i) ∧
    done (.andn x) (fun i => a i &&& ~~~(b i)) ∧
    done (.shl x) (fun i => a i <<< k i) ∧
    done (.shr x) (fun i => a i >>> k i) ∧
    done (.sar x) (fun i => (a i).sshiftRight (k i)) ∧
    done (.rot x) (fun i => if x.var = 0 then (a i).rotateLeft (k i % x.width) else (a i).rotateRight (k i % x.width))

/-- R216, R219: counts, reversal and bit fields; positions and lengths beyond the width act as the width. -/
def Claims.BitFields : Prop :=
  ∀ (x : Typed) (s : State), s.flows = true → evenPair x.d x.width →
    let a := s.opA x
    let c := s.opC x
    let pos i := min x.width ((s.opB x i).toNat % 256)
    let len i := min x.width ((s.opB x i).toNat / 256 % 256)
    let done (i : Instr) (r : Nat → BitVec x.width) : Prop := DeliversInt i s x fun j => (r j, 0)
    done (.popc x) (fun i => (a i).cpop) ∧
    done (.clz x) (fun i => (a i).clz) ∧
    done (.brev x) (fun i => (a i).reverse) ∧
    done (.bfx x) (fun i =>
      if x.ty.isSigned then (((a i).signExtend (2 * x.width)).extractLsb' (pos i) (len i)).signExtend x.width
      else ((a i).extractLsb' (pos i) (len i)).setWidth x.width) ∧
    done (.bfi x) (fun i =>
      let field : BitVec x.width := ((BitVec.allOnes x.width) >>> (x.width - len i)) <<< pos i
      (c i &&& ~~~field) ||| ((a i <<< pos i) &&& field))

/-- R216, R217, R219: logic, shifts, rotations, counts and bit fields. -/
def Obligations.LogicAndFields : Prop := Claims.LogicAndShifts ∧ Claims.BitFields

/-- R218: IDIV truncates towards zero, IREM has the sign of a; a divisor of zero gives the extreme value, or a. -/
def Claims.Division : Prop :=
  ∀ (x : Typed) (s : State), s.flows = true → evenPair x.d x.width →
    let a i := asInt x.ty (s.opA x i)
    let b i := asInt x.ty (s.opB x i)
    DeliversInt (.idiv x) s x (fun i =>
      if b i = 0 then
        (BitVec.ofInt x.width (if x.ty.isSigned && a i < 0 then leastOf x.ty x.width else greatestOf x.ty x.width), 0)
      else narrowed x.ty x.width x.sat (Int.tdiv (a i) (b i))) ∧
    DeliversInt (.irem x) s x fun i => (if b i = 0 then s.opA x i else BitVec.ofInt x.width (Int.tmod (a i) (b i)), 0)

/-- R216, R218, R221: the sums, products and absolute value, the dot product of bytes, and division. -/
def Obligations.IntegerArithmetic : Prop := Claims.IntegerSums ∧ Claims.DotProduct ∧ Claims.Division

/-- R216, R220, R221: minimum, maximum, comparison, selection, move, LEA and PLOP. -/
def Claims.CompareAndMove : Prop :=
  ∀ (x : Typed) (s : State), s.flows = true → evenPair x.d x.width →
    let a i := asInt x.ty (s.opA x i)
    let b i := asInt x.ty (s.opB x i)
    let raw (sel : Sel) i : BitVec x.width := BitVec.ofNat x.width (s.src x.width x.sx sel x.imm i)
    let compare i : Bool :=
      match x.var.toNat with
      | 0 => a i = b i
      | 1 => a i ≠ b i
      | 2 => a i < b i
      | 3 => a i ≤ b i
      | 4 => b i < a i
      | _ => b i ≤ a i
    let chosen i : Bool :=
      match x.c with
      | .p n => s.readPBit n.toNat i
      | .s n => s.readS n.toNat ≠ 0
      | _ => false
    let bit (sel : Sel) i : Nat :=
      match sel with
      | .p n => if s.readPBit n.toNat i then 1 else 0
      | _ => 0
    let done (i : Instr) (r : Nat → BitVec x.width) : Prop := DeliversInt i s x fun j => (r j, 0)
    let truth (i : Instr) (r : Nat → Bool) : Prop :=
      Delivers i s x.d x.hdr 32 false fun j st => (if r j then 1 else 0, 0, st)
    done (.imin x) (fun i => if b i < a i then s.opB x i else s.opA x i) ∧
    done (.imax x) (fun i => if a i < b i then s.opB x i else s.opA x i) ∧
    truth (.icmp x) compare ∧
    done (.sel x) (fun i => if chosen i then raw x.a i else raw x.b i) ∧
    done (.mov x) (raw x.a) ∧
    done (.lea x) (fun i =>
      raw x.a i + (BitVec.ofInt x.width (asInt x.ty (BitVec.ofNat 32 (s.src 32 false x.b x.imm i)))) <<< x.var.toNat) ∧
    ((∀ q ∈ [x.a, x.b, x.c], q = .none ∨ ∃ n, q = .p n) →
      truth (.plop x) fun i => x.imm.getLsbD (4 * bit x.a i + 2 * bit x.b i + bit x.c i))

/-- R221: PRMT.SEL places a source byte or a blank by each nibble of c; PRMT.FUNNEL takes four bytes of the ring. -/
def Claims.Permutation : Prop :=
  ∀ (x : Typed) (s : State), s.flows = true →
    let v (sel : Sel) (i : Nat) : Word := BitVec.ofNat 32 (s.src 32 false sel x.imm i)
    let ring i : BitVec 64 := v x.b i ++ v x.a i
    let nibble i (j : Nat) : Nat := ((v x.c i).extractLsb' (4 * j) 4).toNat
    let part i (j : Nat) : Byte :=
      if x.var = 1 then (ring i).extractLsb' (8 * (((v x.c i).toNat + j) % 8)) 8
      else if 8 ≤ nibble i j then 0 else (ring i).extractLsb' (8 * nibble i j) 8
    Delivers (.prmt x) s x.d x.hdr 32 false fun i st => ((part i 3 ++ part i 2 ++ part i 1 ++ part i 0).toNat, 0, st)

/-- R216, R220, R221: comparisons, selections and moves, and the permutation of bytes. -/
def Obligations.ComparesAndMoves : Prop := Claims.CompareAndMove ∧ Claims.Permutation

/-! ### The floating-point group (R222-R227) -/

/-- R222: FADD, FSUB, FMUL, FFMA and FDIV complete with the exact real result rounded once, and the special results. That NaN and
infinite results leave the rounding state unchanged is the model's reading (log 59). -/
def Claims.FloatArithmetic : Prop :=
  ∀ (x : Typed) (s : State), x.ty = .f32 ∨ x.ty = .f16 ∨ x.ty = .bf16 → s.flows = true →
    let f := x.ty.floatFmt
    let a j := f.unpack (f.signOps x.absa x.nega (s.srcA x j))
    let b j := f.unpack (f.signOps x.absb x.negb (s.srcB x j))
    let c j := f.unpack (s.srcC x j)
    let mode := x.rnd.toNat
    DeliversFloat (.fadd x) s x (fun j => f.IsSum mode x.sat (a j) (b j)) ∧
    DeliversFloat (.fsub x) s x (fun j => f.IsSum mode x.sat (a j) (b j).negate) ∧
    DeliversFloat (.fmul x) s x (fun j => f.IsProduct mode x.sat (a j) (b j)) ∧
    DeliversFloat (.ffma x) s x (fun j => f.IsFused mode x.sat (a j) (b j) (c j)) ∧
    DeliversFloat (.fdiv x) s x (fun j => f.IsQuotient mode x.sat (a j) (b j))

/-- R225, R226: FRCP, FRSQ, FSQRT, FEXP2, FLOG2, FSCALE and FROUND complete with correctly rounded results and the special
results of the table; FEXP2 and FLOG2 are stated on special operands and where the result is exact. -/
def Claims.FloatUnary : Prop :=
  ∀ (x : Typed) (s : State), x.ty = .f32 ∨ x.ty = .f16 ∨ x.ty = .bf16 → s.flows = true →
    let f := x.ty.floatFmt
    let raw j := f.signOps x.absa x.nega (s.srcA x j)
    let a j := f.unpack (raw j)
    let mode := x.rnd.toNat
    DeliversFloat (.frcp x) s x (fun j => f.IsReciprocal mode x.sat (a j)) ∧
    DeliversFloat (.fsqrt x) s x (fun j => f.IsRoot mode (a j)) ∧
    DeliversFloat (.frsq x) s x (fun j => f.IsReciprocalRoot mode (a j)) ∧
    DeliversFloat (.fexp2 x) s x (fun j => f.IsPower mode x.sat (a j)) ∧
    DeliversFloat (.flog2 x) s x (fun j => f.IsLogarithm mode (a j)) ∧
    DeliversFloat (.fscale x) s x (fun j =>
      f.IsScaled mode x.sat (raw j) (BitVec.ofNat 32 (s.src 32 false x.b x.imm j)).toInt) ∧
    (mode ≤ SR → DeliversFloat (.fround x) s x (fun j => f.IsIntegral mode (x.var = 1) (raw j)))

/-- R223, R224: FMIN, FMAX, FCMP and FCLASS complete with the operand, the truth value or the class of the table. -/
def Obligations.FloatOrder : Prop :=
  ∀ (x : Typed) (s : State), x.ty.isFloat = true → s.flows = true →
    let f := x.ty.floatFmt
    let rawA j := f.signOps x.absa x.nega (s.srcA x j)
    let rawB j := f.signOps x.absb x.negb (s.srcB x j)
    let a j := f.unpack (rawA j)
    let b j := f.unpack (rawB j)
    let invalid j := invalidIf [a j, b j]
    let below (u v : FVal) : Prop := u.ereal < v.ereal ∨ (u.isZero ∧ v.isZero ∧ u.neg ∧ ¬v.neg)
    let picked (least : Bool) j (n : Nat) : Prop :=
      if (a j).isNan ∧ (b j).isNan then n = f.nanBits
      else if (a j).isNan then n = rawB j
      else if (b j).isNan then n = rawA j
      else (below (a j) (b j) → n = if least then rawA j else rawB j) ∧
        (below (b j) (a j) → n = if least then rawB j else rawA j) ∧ (n = rawA j ∨ n = rawB j)
    let holds j : Prop :=
      if (a j).isNan ∨ (b j).isNan then x.var.toNat = 1 ∨ x.var.toNat = 6
      else match x.var.toNat with
        | 0 => (a j).ereal = (b j).ereal
        | 1 => (a j).ereal ≠ (b j).ereal
        | 2 => (a j).ereal < (b j).ereal
        | 3 => (a j).ereal ≤ (b j).ereal
        | 4 => (b j).ereal < (a j).ereal
        | 5 => (b j).ereal ≤ (a j).ereal
        | 6 => False
        | _ => True
    let tiny : ℝ := 2 ^ (1 - (f.bias : ℤ))
    let classOf (v : FVal) (k : Nat) : Prop :=
      match v with
      | .nan sig => k = if sig then 8 else 9
      | .inf neg => k = if neg then 0 else 7
      | .num neg m _ =>
          if m = 0 then k = if neg then 3 else 4
          else if |v.real| < tiny then k = if neg then 2 else 5
          else k = if neg then 1 else 6
    (∃ n : Nat → Nat, Delivers (.fmin x) s x.d x.hdr x.ty.bits false (fun j st => (n j, invalid j, st)) ∧
      ∀ j, picked true j (n j)) ∧
    (∃ n : Nat → Nat, Delivers (.fmax x) s x.d x.hdr x.ty.bits false (fun j st => (n j, invalid j, st)) ∧
      ∀ j, picked false j (n j)) ∧
    (∃ n : Nat → Bool, Delivers (.fcmp x) s x.d x.hdr 32 false (fun j st => (if n j then 1 else 0, invalid j, st)) ∧
      ∀ j, n j = true ↔ holds j) ∧
    (∃ k : Nat → Nat, Delivers (.fclass x) s x.d x.hdr 32 false (fun j st => (2 ^ k j, 0, st)) ∧
      ∀ j, classOf (f.unpack (s.srcA x j)) (k j))

/-- R227: HADD2, HMUL2 and HFMA2 complete with two independent 16-bit results, the low half first. -/
def Claims.PackedArithmetic : Prop :=
  ∀ (x : Typed) (s : State), x.ty = .f16 ∨ x.ty = .bf16 → s.flows = true →
    let f := x.ty.floatFmt
    let half (sel : Sel) j k : Nat := s.src 32 false sel x.imm j / 2 ^ (16 * k) % 2 ^ 16
    let a j k := f.unpack (f.signOps x.absa x.nega (half x.a j k))
    let b j k := f.unpack (f.signOps x.absb x.negb (half x.b j k))
    let c j k := f.unpack (half x.c j k)
    let mode := x.rnd.toNat
    DeliversPacked (.hadd2 x) s x.d x.hdr 16 2 (fun j k => f.IsSum mode x.sat (a j k) (b j k)) ∧
    DeliversPacked (.hmul2 x) s x.d x.hdr 16 2 (fun j k => f.IsProduct mode x.sat (a j k) (b j k)) ∧
    DeliversPacked (.hfma2 x) s x.d x.hdr 16 2 (fun j k => f.IsFused mode x.sat (a j k) (b j k) (c j k))

/-- R222, R225-R227: the float operations, and the packed ones, each half rounded alone. That NaN and infinite results leave the
rounding state unchanged is the model's reading (log 59). -/
def Obligations.FloatOperations : Prop := Claims.FloatArithmetic ∧ Claims.FloatUnary ∧ Claims.PackedArithmetic

/-- R73, R76, R79: rounding. The result is the real number itself or one of its two neighbours of the format, the mode
chooses between them, NX and UF are set exactly, and only a number past the largest finite value overflows. -/
def Obligations.RoundingModes : Prop :=
  ∀ (ty : Ty) (mode : Nat) (sat neg : Bool) (x : Mag) (q : ℝ) (st : Word), ty.isFloat = true → mode ≤ SR → 0 < q →
    x.Holds q →
    let f := ty.floatFmt
    let r := f.round mode sat neg x st
    let value (p : Nat) : ℝ := (f.unpack p).real
    if r.flags &&& flagOF = 0 then
      ∃ p, p ≤ f.maxBits ∧ r.bits = f.signed neg p ∧
        (∀ u, u ≤ f.maxBits → ¬(value p < value u ∧ value u ≤ q) ∧ ¬(q ≤ value u ∧ value u < value p)) ∧
        (mode = RZ ∨ (mode = RD ∧ neg = false) ∨ (mode = RU ∧ neg = true) → value p ≤ q) ∧
        ((mode = RD ∧ neg = true) ∨ (mode = RU ∧ neg = false) → q ≤ value p) ∧
        (mode = RNE → ∀ u, u ≤ f.maxBits →
          |value p - q| ≤ |value u - q| ∧ (|value p - q| = |value u - q| → u = p ∨ p % 2 = 0)) ∧
        (r.flags &&& flagNX ≠ 0 ↔ value p ≠ q) ∧
        (r.flags &&& flagUF ≠ 0 ↔ value p ≠ q ∧ q < 2 ^ (1 - (f.bias : ℤ)))
    else
      value f.maxBits < q ∧ r.flags &&& flagNX ≠ 0 ∧
      (if f.kind = .ieee ∧ ty ≠ .e5m2 ∧ sat = false ∧
          (mode = RNE ∨ mode = SR ∨ (mode = RU ∧ neg = false) ∨ (mode = RD ∧ neg = true)) then
        r.bits = f.signed neg f.infBits ∧ r.flags &&& flagSATF = 0
      else r.bits = f.signed neg f.maxBits ∧ r.flags &&& flagSATF ≠ 0)

/-! ### Conversions (R228-R231) -/

/-- R78, R228: CVT and CVTI complete with the converted element, packed or unpacked elements. -/
def Obligations.Conversions : Prop :=
  ∀ (x : Conv) (s : State), s.flows = true → x.rnd.toNat ≤ SR → evenPair x.d x.dt.bits →
    let group (j k : Nat) : Nat :=
      match x.a with
      | .v n => (s.readV j (n.toNat + k)).toNat
      | .s n => (s.readS (n.toNat + k)).toNat % 2 ^ 32
      | _ => 0
    let picked j : Nat :=
      s.src 32 false x.a x.imm j / 2 ^ (s.src 32 false x.b x.imm j % pkCount x.st * x.st.bits) % 2 ^ x.st.bits
    let plain j : Nat := s.src x.st.bits (x.st = .i64) x.a x.imm j
    let one (i : Instr) (sx : Bool) (el : Nat → Nat) : Prop :=
      ∃ r : Nat → Word → FRes, Delivers i s x.d x.hdr x.dt.bits sx (fun j st => (r j st).lane) ∧
        ∀ j st, IsConversion x.dt x.st x.rnd.toNat x.sat (el j) st (r j st)
    ∀ i, i = .cvt x ∨ i = .cvti x →
      (x.var = 0 → one i x.dt.isSigned plain) ∧
      (x.var = 1 → DeliversPacked i s x.d x.hdr x.dt.bits (pkCount x.dt) fun j k st r =>
        IsConversion x.dt x.st x.rnd.toNat x.sat (group j k) st r) ∧
      (x.var = 2 → one i false picked)

/-- R229: MXPACK completes with the payload registers and then the scale; every code is the element over the scale. -/
def Claims.BlockPack : Prop :=
  ∀ (x : Conv) (s : State) (d a : BitVec 7), s.flows = true → x.d = .v d → x.a = .v a →
    x.dt = .mx8 ∨ x.dt = .mx6 ∨ x.dt = .mx6b ∨ x.dt = .mx4 → x.st = .f32 ∨ x.st = .f16 ∨ x.st = .bf16 →
    let p := mxPayload x.dt
    d.toNat + p < 128 →
    let elt := x.dt.floatFmt
    let emax : ℤ := if x.dt = .mx8 then 8 else if x.dt = .mx6b then 4 else 2
    let el j k : FVal := x.st.floatFmt.unpack
      (if x.st = .f32 then (s.readV j (a.toNat + k)).toNat
       else (s.readV j (a.toNat + k / 2)).toNat / 2 ^ (16 * (k % 2)) % 2 ^ 16)
    ∃ (scale : Nat → Nat) (code : Nat → Nat → Word → FRes),
      let block j st : Lane :=
        if scale j = 0xFF then (0, flagNV, st) else elements (1 + elt.e + elt.m) (code j) 32 0 st
      DeliversBlock (.mxpack x) s d.toNat (p + 1) x.hdr
        (fun j st k => if k = p then BitVec.ofNat 32 (scale j) else BitVec.ofNat 32 ((block j st).1 / 2 ^ (32 * k)))
        (fun j st => (block j st).2) ∧
      (∀ j, if x.var = 1 then scale j = s.src 32 false x.b x.imm j % 256 else ComputedScale emax (el j) (scale j)) ∧
      (∀ j k st, elt.IsConverted x.rnd.toNat false ((el j k).shift (127 - (scale j : ℤ))) st (code j k st))

/-- R230: MXUNPACK completes with every element times the scale, rounded; a scale of 0xFF gives NaN and SCNAN. -/
def Claims.BlockUnpack : Prop :=
  ∀ (x : Conv) (s : State) (d a : BitVec 7), s.flows = true → x.d = .v d → x.a = .v a →
    x.st = .mx8 ∨ x.st = .mx6 ∨ x.st = .mx6b ∨ x.st = .mx4 → x.dt = .f32 ∨ x.dt = .f16 ∨ x.dt = .bf16 →
    d.toNat + mxSources x.dt ≤ 128 →
    let elt := x.st.floatFmt
    let width := 1 + elt.e + elt.m
    let payload j : Nat :=
      (List.range (mxPayload x.st)).foldr (fun k n => (s.readV j (a.toNat + k)).toNat * 2 ^ (32 * k) + n) 0
    let scale j : Nat := (s.readV j (a.toNat + mxPayload x.st)).toNat % 256
    let el j k : FVal := elt.unpack (payload j / 2 ^ (k * width) % 2 ^ width)
    ∃ code : Nat → Nat → Word → FRes,
      DeliversBlock (.mxunpack x) s d.toNat (mxSources x.dt) x.hdr
        (fun j st k => BitVec.ofNat 32 ((elements x.dt.bits (code j) 32 0 st).1 / 2 ^ (32 * k)))
        (fun j st => (elements x.dt.bits (code j) 32 0 st).2) ∧
      (∀ j k st,
        if scale j = 0xFF then (code j k st).bits = x.dt.floatFmt.nanBits ∧ (code j k st).flags = flagSCNAN
        else x.dt.floatFmt.IsConverted x.rnd.toNat x.sat ((el j k).shift ((scale j : ℤ) - 127)) st (code j k st))

/-- R231: TERNQ completes with a ternary code for each of 16 elements, by comparison with the threshold's magnitude. -/
def Claims.TernaryQuantise : Prop :=
  ∀ (x : Conv) (s : State) (a : BitVec 7), s.flows = true → x.a = .v a → x.st = .f32 ∨ x.st = .f16 ∨ x.st = .bf16 →
    let el j k : FVal := x.st.floatFmt.unpack
      (if x.st = .f32 then (s.readV j (a.toNat + k)).toNat
       else (s.readV j (a.toNat + k / 2)).toNat / 2 ^ (16 * (k % 2)) % 2 ^ 16)
    let t j : FVal := Ty.f32.floatFmt.unpack (s.src 32 false x.b x.imm j % 2 ^ 31)
    ∃ (code : Nat → Nat → Nat) (bad : Nat → Bool),
      Delivers (.ternq x) s x.d x.hdr 32 false (fun j st =>
        ((List.range 16).foldr (fun k n => code j k * 4 ^ k + n) 0, if bad j then flagNV else 0, st)) ∧
      (∀ j, bad j = true ↔ (t j).isNan ∨ ∃ k, k < 16 ∧ (el j k).isNan) ∧
      ∀ j k, k < 16 →
        if (t j).isNan ∨ (el j k).isNan then code j k = 0
        else if (t j).ereal < (el j k).ereal then code j k = 1
        else if (el j k).ereal < -(t j).ereal then code j k = 3
        else code j k = 0

/-- R229-R231: blocks packed and unpacked, and ternary codes. -/
def Obligations.BlockFormats : Prop := Claims.BlockPack ∧ Claims.BlockUnpack ∧ Claims.TernaryQuantise

/-! ### Loads and stores (R130-R139, R157-R168) -/

/-- R133, R136, R138, R168: LD, LDP and LDS complete when every address is sound and translates, no logged store of the
core covers their pages and strict mode lets them pass. D receives each lane's number; nothing else changes but caches. -/
def Claims.Loads : Prop :=
  ∀ (x : MemOp) (s : State), s.flows = true → ∀ form ∈ loadForms x,
    let n := x.size.bytes
    let lanes := s.lanes x.d.isScalar x.hdr
    let m := memAddr x n pRead form.2 (orderAlign x.order n)
    (∀ d, x.d = .v d → d.toNat + loadCount x.d n ≤ 128) →
    ∀ ts s1 rs s2, s.targets s.who m lanes = .ok (ts, s1) → s.loggedPage ts = none →
      s1.readyLanes s.who .load ts = .ok (rs, s2) → s2.locate s.who ts = none →
      let s3 := if x.order.toNat % 2 = 1 then s2.acquire s.who (scopeOf x.scope.toNat ts) else s2
      let xs := (s3.loadLanes s.who x.policy.toNat n rs).1
      ∃ t, exec form.1 s = .next t ∧ xs.map (fun e => e.strand) = lanes ∧
        t.LoadReceived x.d n x.x73 lanes (loadedNum xs) ∧ s.LoadKept t x.d n lanes ∧ s.AccessOnly t ∧
        s.KeptMemory t fun _ => False

/-- R137, R138, R168: ST, STP and STS complete when every address is sound, every page translates to memory, no store of the
gang to a page of theirs is in the log of a core it has left (log 53) and, for a release, no store of theirs is logged. Registers
stay; memory changes at the stored bytes only. -/
def Claims.Stores : Prop :=
  ∀ (x : MemOp) (s : State), s.flows = true → ∀ form ∈ storeForms x,
    let n := x.size.bytes
    let uni := !isVector x.b && !isVector x.c
    let lanes := s.lanes uni x.hdr
    let m := memAddr x n (storeNeeds x.rset) form.2 (orderAlign x.order n)
    ∀ ts s1, s.targets s.who m lanes = .ok (ts, s1) → s1.movedPage ts = none →
      let r := s1.sys.readers s.who x.rset
      let ready := s1.storeItems s.who .store (r ≠ .none || 3 ≤ x.policy.toNat || s.who.noL1) (fun i => s.storeData x.c n i) ts
      let items := ready.1
      (∀ y ∈ items, y.plain = true) → (2 ≤ x.order.toNat → s1.logBlocked (s.actsFor uni x.hdr) = false) →
      let s3 := ready.2.performStores s.who x.policy.toNat x.rset r none items
      let s4 := if 2 ≤ x.order.toNat then s3.release s.who (scopeOf (max x.scope.toNat (r.scope s.who)) ts) else s3
      ∃ t, exec form.1 s = .next t ∧ (lanes ≠ [] → t.sys = s4.sys ∧ t.crew.scratch = s4.crew.scratch) ∧
        s.SameRegisters t ∧ s.AccessOnly t ∧ s.KeptMemory t (s.storedBytes s.who items)

/-- R139: LDC completes with the 16 bytes, and the granule's tag from scratch or the private window, a clear tag from the
global window. -/
def Claims.CapabilityLoads : Prop :=
  ∀ (x : MemOp) (s : State) (d : BitVec 6), s.flows = true → x.d = .s d → d.toNat % 2 = 0 →
    ∀ ts s1 r s2, s.targets s.who (memAddr x 16 pRead .any 16) [0] = .ok (ts, s1) → s.loggedPage ts = none →
      s1.readyLanes s.who .load ts = .ok ([(0, r)], s2) → s2.locate s.who ts = none →
      let s3 := if x.order.toNat % 2 = 1 then s2.acquire s.who (scopeOf x.scope.toNat ts) else s2
      ∃ t q tag, exec (.ldc x) s = .next t ∧ s.PairReceived t d.toNat q tag ∧ s.AccessOnly t ∧
        s.KeptMemory t (fun _ => False) ∧
        match r with
        | .memory parts => q.toNat = fromBytes (s3.readParts s.who x.policy.toNat parts).1 ∧
            (∀ p ∈ parts.head?, tag = ((windowOf p.1).1 = .priv && p.2.1 = 16 && p.1 % 16 = 0 &&
              s3.readGranule s.who p.2.2 p.1))
        | .scratch off =>
            (s.outOfScratch off 16 ∨ s.inWindow off 16 → q = 0 ∧ tag = false) ∧
            (¬s.outOfScratch off 16 → ¬s.inWindow off 16 →
              q.toNat = fromBytes (s.crew.scratchRead off.toNat 16) ∧ tag = s.crew.scratchTags.contains (off.toNat / 16))

/-- R133, R136, R138, R139, R168: loads, and loads of capabilities with their tag. -/
def Obligations.LoadsFromMemory : Prop := Claims.Loads ∧ Claims.CapabilityLoads

/-- R92, R139: STC completes with the pair's bytes stored, and its tag in the granule for scratch and the private window. -/
def Claims.CapabilityStores : Prop :=
  ∀ (x : MemOp) (s : State) (c : BitVec 6), s.flows = true → x.c = .s c → c.toNat % 2 = 0 →
    ∀ ts s1, s.targets s.who (memAddr x 16 (storeNeeds x.rset) .any 16) [0] = .ok (ts, s1) → s1.movedPage ts = none →
      let fills := s1.sys.readers s.who x.rset ≠ .none || 3 ≤ x.policy.toNat || s.who.noL1
      let items := (s1.storeItems s.who .store fills (fun i => s.storeData x.c 16 i) ts).1
      (∀ y ∈ items, y.plain = true) → (2 ≤ x.order.toNat → s1.logBlocked s.run = false) →
      ∃ t, exec (.stc x) s = .next t ∧ s.SameRegisters t ∧ s.AccessOnly t ∧ s.KeptMemory t (s.storedBytes s.who items) ∧
        (∀ off, items = [.scratch 0 off (s.storeData x.c 16 0)] → ¬s.outOfScratch off 16 → ¬s.inWindow off 16 →
          fromBytes (t.crew.scratchRead off.toNat 16) = (s.readPair c.toNat).toNat ∧
          (off % 16 = 0 → t.crew.scratchTags.contains (off.toNat / 16) = s.readTag c.toNat)) ∧
        ∀ va b l, items = [.memory 0 va b l] → x.rset = 0 → s.gang.ej.isSome → l.addr va % 16 = 0 →
          (∀ y ∈ (s.sys.core s.core).l1, y.dirty = 0) →
          t.sys.num (l.addr va) 16 = (s.readPair c.toNat).toNat ∧
          t.sys.tag (l.addr va) = (s.readTag c.toNat && (windowOf va).1 = .priv)

/-- R92, R137-R139, R168: stores, and stores of capabilities with their tag. -/
def Obligations.StoresToMemory : Prop := Claims.Stores ∧ Claims.CapabilityStores

/-- R162-R164, R168: LDS and STS of a plain base. A lane outside the allocation or in a pending window is switched off: it
reads 0, stores nothing, and SMASK records it. The other lanes read and write their bytes; the highest lane writes last. -/
def Claims.ScratchAccess : Prop :=
  ∀ (x : MemOp) (s : State), s.flows = true → s.gang.ej = none → x.capb = false → x.order = 0 →
    let n := x.size.bytes
    let lanes := s.lanes x.d.isScalar x.hdr
    let stored := s.lanes (!isVector x.b && !isVector x.c) x.hdr
    (∀ d, x.d = .v d → d.toNat + loadCount x.d n ≤ 128) →
    (∃ (t : State) (num : Nat → Nat), exec (.lds x) s = .next t ∧ t.LoadReceived x.d n x.x73 lanes num ∧
      s.LoadKept t x.d n lanes ∧ s.AccessOnly t ∧ t.sys = s.sys ∧ t.crew = s.crew ∧ s.SmaskGained t x lanes ∧
      ∀ j ∈ lanes,
        (s.outOfScratch (s.scratchOffset x j) n ∨ s.inWindow (s.scratchOffset x j) n → num j = 0) ∧
        (¬s.outOfScratch (s.scratchOffset x j) n → ¬s.inWindow (s.scratchOffset x j) n →
          num j = fromBytes (s.crew.scratchRead (s.scratchOffset x j).toNat n))) ∧
    (∃ t, exec (.sts x) s = .next t ∧ s.SameRegisters t ∧ s.AccessOnly t ∧ t.sys = s.sys ∧ s.SmaskGained t x stored ∧
      (∀ o, (∀ j ∈ stored, ¬s.covers x j o) → t.crew.scratch.get 0 o = s.crew.scratch.get 0 o) ∧
      ∀ o, ∀ j ∈ stored, s.covers x j o → (∀ i ∈ stored, j < i → ¬s.covers x i o) →
        t.crew.scratch.get 0 o = (s.storeData x.c n j).getD (o - (s.scratchOffset x j).toNat) 0)

/-- R107, R110: what an agent reads of a line is its own L1's bytes where it holds them, else memory; after its own store
to a line it reads the bytes it stored. -/
def Claims.OwnStores : Prop :=
  ∀ (s : State) (w : Who) (l : Leaf) (va : Nat), isMemory (l.addr va) = true →
    (∀ policy n i, i < n → va % 128 + n ≤ 128 → (s.readPart w l policy va n).1[i]? = some (
      match (if w.noL1 then none else s.sys.l1Find w.core w.asid (va / 128)) with
      | some x =>
          if byteMask (va % 128) n &&& ~~~x.valid = 0 ∨ x.dirty.getLsbD (va % 128 + i) = true then
            lineByte x.data (va % 128 + i)
          else s.sys.byte (l.addr va + i)
      | none => s.sys.byte (l.addr va + i))) ∧
    ∀ policy policy' set r data tag, va % 128 + data.length ≤ 128 →
      ((∃ p, s.sys.parked w.asid (va / 128) = some p ∧ p.place = .l1 w.core) →
        s.sys.l1Find w.core w.asid (va / 128) = none) →
      (r ≠ .none → ∀ c, ∀ x ∈ (s.sys.core c).l1, ∀ i, i < 128 → x.dirty.getLsbD i = true →
        x.pa + i < l.addr va ∨ l.addr va + data.length ≤ x.pa + i) →
      ((s.writePart w l policy set r va data tag).readPart w l policy' va data.length).1 = data

/-- R110, R162-R164, R168: the scratch accesses, and that a core reads its own stores. -/
def Obligations.ScratchAndOwnStores : Prop := Claims.ScratchAccess ∧ Claims.OwnStores

/-- R85, R90, R91, R131, R148, R359: an access through a capability traps before any strand takes effect: an address in a
reserved range or past the end of its window first, then untagged, the kind, the fields, the permission, and for a LINEAR one
the bounds. -/
def Claims.CapabilityTraps : Prop :=
  ∀ (x : MemOp) (s : State) (a : BitVec 6), s.flows = true → x.capb = true → x.a = .s a →
    let n := x.size.bytes
    let c := Cap.ofQuad (s.readPair a.toNat)
    let off i := signed 64 (wrapInt 64 (s.index x.b i * n + dispOf x.off n))
    let at' i : Nat := wrapInt 64 ((c.base : Int) + s.index x.b i * n + dispOf x.off n)
    ∀ e ∈ [(Instr.ld x, s.lanes x.d.isScalar x.hdr, pRead),
           (.st x, s.lanes (!isVector x.b && !isVector x.c) x.hdr, storeNeeds x.rset)], ∀ i rest, e.2.1 = i :: rest →
      let stops (cause : BitVec 8) (info : Dword) : Prop := exec e.1 s = .next (s.trap cause info)
      let clear : Prop := ∀ va, s.capAddress c x.b x.off n i = some va → (windowOf va).1 ≠ .reserved ∧ va + n ≤ (windowOf va).2
      s.columnMissing c x.b = false →
      (c.kind = some .linear →
        ((windowOf (at' i)).1 = .reserved → stops 0x24 (BitVec.ofNat 64 (at' i))) ∧
        ((windowOf (at' i)).1 ≠ .reserved → (windowOf (at' i)).2 < at' i + n → stops 0x24 (BitVec.ofNat 64 (windowOf (at' i)).2))) ∧
      (clear →
        (s.readTag a.toNat = false → stops 0x40 (capInfo 1 i)) ∧
        (s.readTag a.toNat = true → c.kind = none → stops 0x41 (capInfo 1 i)) ∧
        (s.readTag a.toNat = true → c.kind ≠ none → c.fieldsOk = false → stops 0x45 (capInfo 1 i)) ∧
        (s.readTag a.toNat = true → c.kind ≠ none → c.fieldsOk = true → e.2.2 &&& ~~~c.perms ≠ 0 →
          stops 0x43 (capInfo 1 i)) ∧
        (s.readTag a.toNat = true → c.kind = some .linear → c.fieldsOk = true → e.2.2 &&& ~~~c.perms = 0 →
          off i < 0 ∨ (c.len : Int) < off i + n → stops 0x42 (boundsInfo (off i) 1 i)))

/-! ### Placement, prefetching and seals (R142-R146, R155) -/

/-- R143-R145: PARK, UNPARK and REVISE complete with a count of lines; only the placement of lines changes. REVISE to a set
without a unit counts every line of another set, for the host's set too (the model's choice, log 57); PARK of a line of a peer
counts nothing (the model's reading of R388, log 58). -/
def Claims.Parking : Prop :=
  ∀ (x : Fun) (s : State) (a : BitVec 6), s.flows = true → x.a = .s a → (∀ n, x.d ≠ .v n) →
    let c := Cap.ofQuad (s.readPair a.toNat)
    let parked n := s.sys.parked s.crew.asid n
    let set := Fun.rset x
    let r := s.sys.readers s.who set
    c.check (s.readTag a.toNat) [.linear, .tile] pPark 1 0 = none →
    let moves (i : Instr) (word : Nat) (q : State → Prop) : Prop :=
      ∃ t, exec i s = .next t ∧ s.WordReceived t x.d (BitVec.ofNat 64 word) ∧ s.AccessOnly t ∧
        s.KeptMemory t (fun _ => False) ∧ q t
    let shape (p : Parked) : Parked := { p with writers := [] }
    let others (t : State) : Prop := ∀ n, n ∉ c.lines → (t.sys.parked s.crew.asid n).map shape = (parked n).map shape
    (c.lines.length < 2 ^ 32 → moves (.unpark x) ((c.lines.filter fun n => (parked n).any fun p => p.reserved).length)
      fun t => others t ∧ ∀ n ∈ c.lines,
        t.sys.parked s.crew.asid n = (parked n).map fun p => { p with reserved := false }) ∧
    (r.unit = none → moves (.park x) 0 fun t => t.sys = s.sys) ∧
    (c.lines.length < 2 ^ 32 → (∀ n ∈ c.lines, ∃ p : Parked, parked n = some p ∧ p.set = set ∧ p.readers = r ∧
        r.unit = some p.place) →
      moves (.park x) c.lines.length fun t => others t ∧ ∀ n ∈ c.lines,
        t.sys.parked s.crew.asid n = (parked n).map fun p => { p with reserved := true }) ∧
    (∀ n u p, c.lines = [n] → parked n = some p → p.set = set → p.readers = r → r.unit = some u → u ≠ p.place →
      (∀ store ∈ u.stores (homeDie (n * 128)), s.sys.demand s.crew.asid n set store = none) →
      moves (.park x) 1 fun t => others t ∧ ∃ q, t.sys.parked s.crew.asid n = some q ∧ q.place = u ∧ q.set = set ∧
        q.readers = r ∧ q.reserved = true) ∧
    (∀ n l s1, c.lines = [n] → parked n = none → r.unit ≠ none →
      s.leaf { s.who with engine := true } .load (n * 128) = .ok (l, s1) → isMemory (l.addr (n * 128)) = false →
      moves (.park x) 0 fun t => others t ∧ t.sys.parked s.crew.asid n = none) ∧
    (∀ n u l s1, c.lines = [n] → parked n = none → r.unit = some u →
      s.leaf { s.who with engine := true } .load (n * 128) = .ok (l, s1) → isMemory (l.addr (n * 128)) = true →
      (∀ store ∈ u.stores (homeDie (n * 128)), s.sys.demand s.crew.asid n set store = none) →
      moves (.park x) 1 fun t => others t ∧ ∃ p, t.sys.parked s.crew.asid n = some p ∧ p.place = u ∧ p.set = set ∧
        p.readers = r ∧ p.reserved = true) ∧
    (c.lines.length < 2 ^ 32 → r.unit = none → moves (.revise x)
      ((c.lines.filter fun n => (parked n).any fun p => p.set ≠ set || p.readers ≠ r).length) fun t => others t ∧
        ∀ n ∈ c.lines, (∀ p, parked n = some p → p.set ≠ set) → t.sys.parked s.crew.asid n = none) ∧
    (∀ n u p, c.lines = [n] → parked n = some p → p.set ≠ set → r.unit = some u →
      (∀ store ∈ u.stores (homeDie (n * 128)), s.sys.demand s.crew.asid n set store = none) →
      moves (.revise x) 1 fun t => others t ∧ ∃ q, t.sys.parked s.crew.asid n = some q ∧ q.place = u ∧ q.set = set ∧
        q.reserved = p.reserved)

/-- R146: PREFETCH, FLUSH and INVAL complete without changing a register or a byte's value; a flushed line has no owner, no
privatised and no parked copy; an invalidated line is out of the issuer's L1. -/
def Claims.LineOperations : Prop :=
  ∀ (x : MemOp) (s : State), s.flows = true →
    let lanes := s.active x.hdr
    let n := x.size.bytes
    let same (t : State) : Prop := s.SameRegisters t ∧ s.AccessOnly t ∧ s.KeptMemory t (fun _ => False)
    let bare : Addr := { size := n, capb := x.capb, a := x.a, b := x.b, off := x.off, need := 0, fields := false }
    (∀ ts s1, s.prefetchTargets s.who (memAddr x n pRead .any 0) lanes = .ok (ts, s1) →
      ∃ t, exec (.prefetch x) s = .next t ∧ same t ∧ t.sys.seals = s.sys.seals) ∧
    (∀ ts s1, s.targets s.who bare lanes = .ok (ts, s1) → s.loggedLine (s.guard x.hdr) (targetLines ts) = none →
      (∃ t, exec (.flush x) s = .next t ∧ same t ∧ ∀ k ∈ targetLines ts,
        (t.sys.entry s.crew.asid k).owner = none ∧ (t.sys.entry s.crew.asid k).privatised = [] ∧
        t.sys.parked s.crew.asid k = none ∧
        (s.gang.ej = none → ∀ l ∈ (t.sys.core s.core).l1, l.asid = s.crew.asid → l.line = k → l.dirty = 0)) ∧
      (∃ t, exec (.inval x) s = .next t ∧ same t ∧ ∀ k ∈ targetLines ts,
        (s.gang.ej = none → t.sys.l1Find s.core s.crew.asid k = none) ∧
        (t.sys.parked s.crew.asid k).isSome = (s.sys.parked s.crew.asid k).isSome ∧
        (x.x73 = true → (t.sys.entry s.crew.asid k).holds (ccOf s.cluster) = false ∧
          ((s.sys.entry s.crew.asid k).holds (ccOf s.cluster) = true → s.sys.parked s.crew.asid k = none →
            ∀ o ∈ (t.sys.entry s.crew.asid k).owner, o.1 ≠ s.cluster))))

/-- R143-R146: parked lines, and the operations on single lines. That REVISE to a set without a unit counts every such line as
moved, for the host's set too, is the model's choice (log 57), and that PARK of a peer's line counts nothing its reading (log 58). -/
def Obligations.PlacementOfLines : Prop := Claims.Parking ∧ Claims.LineOperations

/-- R155: SEAL, SEAL.OPEN and RESEAL complete with the new version of every frame of the footprint, D that of the first. -/
def Obligations.Seals : Prop :=
  ∀ (x : Fun) (s : State) (a : BitVec 6), s.flows = true → x.a = .s a → (∀ n, x.d ≠ .v n) →
    let c := Cap.ofQuad (s.readPair a.toNat)
    c.check (s.readTag a.toNat) [.linear, .tile] pSeal 1 0 = none → c.base % 65536 = 0 → c.footprint % 65536 = 0 →
    s.logBlocked s.run = false →
    ∀ f fs s1, s.frames s.who c.pages = .ok (f :: fs, s1) →
      let old k : Nat := s.sys.seals.get 0 k
      let seals (i : Instr) (next : Nat → Nat) : Prop :=
        ∃ t, exec i s = .next t ∧ s.WordReceived t x.d (BitVec.ofNat 64 (next (old f))) ∧ s.AccessOnly t ∧
          s.KeptMemory t (fun _ => False) ∧
          ∀ k, t.sys.seals.get 0 k = if k ∈ f :: fs then next (old k) else old k
      seals (.seal x) (fun v => if v = 0 then 1 else v) ∧
      seals (.sealOpen x) (fun _ => 0) ∧
      seals (.reseal x) (fun v => if v = 0xFFFFFF then 1 else v + 1)

/-! ### Capabilities (R148-R153) -/

/-- R149, R150, R153: CAPSET, CAPMOV and the CAPNARROW forms complete with the copied or derived capability, tagged. -/
def Obligations.CapabilityDerivation : Prop :=
  ∀ (x : Fun) (s : State) (a d : BitVec 6), s.flows = true → x.a = .s a → x.d = .s d → d.toNat % 2 = 0 →
    let q := s.readPair a.toNat
    let c := Cap.ofQuad q
    let b := (s.scalar x.b).toNat
    let l := (s.scalar x.c).toNat
    let gives (i : Instr) (tag : Bool) (p : Quad → Prop) : Prop :=
      ∃ t r, exec i s = .next t ∧ s.PairReceived t d.toNat r tag ∧ s.RegisterOnly t ∧ p r
    let sound (k : CapKind) : Prop := s.readTag a.toNat = true ∧ c.kind = some k ∧ c.fieldsOk = true
    let row0 := b % 2 ^ 20
    let col0 := b / 2 ^ 20
    let rows := l % 2 ^ 20
    let cols := l / 2 ^ 20
    gives (.capmov x) (s.readTag a.toNat) (fun r => r = q) ∧
    (s.gang.priv = true → c.kind ≠ none → c.fieldsOk = true → gives (.capset x) true fun r => r = q) ∧
    (sound .linear → c.bs = false → b + l ≤ c.len → c.base + b < 2 ^ 57 → gives (.capnarrowRange x) true fun r =>
      Cap.ofQuad r = { c with raw := r, base := c.base + b, len := l }) ∧
    (∀ k, sound k → gives (.capnarrowPerm x) true fun r =>
      r = q &&& ~~~((~~~(x.imm.extractLsb' 0 4)).setWidth 128 <<< 120)) ∧
    (sound .stitch → c.ver ≤ b → b < 2 ^ 32 → gives (.capnarrowVersion x) true fun r =>
      Cap.ofQuad r = { c with raw := r, ver := b }) ∧
    (sound .tile → b < 2 ^ 40 → l < 2 ^ 40 → 0 < rows → 0 < cols → row0 + rows ≤ c.rows → col0 + cols ≤ c.cols →
      col0 * c.bits % 8 = 0 → (c.bs = true → col0 = 0 ∧ cols = c.cols) → (c.bits = 6 → cols % 4 = 0) →
      gives (.capnarrowSubtile x) true fun r => Cap.ofQuad r =
        { c with raw := r, base := c.base + row0 * c.pitch * 64 + col0 * c.bits / 8, rows := rows, cols := cols,
                 ring := c.ring && row0 = 0 && rows = c.rows }) ∧
    (sound .linear → c.fmt = 0 → c.bs = false → x.imm.toNat % 64 < 13 → gives (.capnarrowRetype x) true fun r =>
      Cap.ofQuad r = { c with raw := r, fmt := x.imm.toNat % 16 }) ∧
    (sound .linear → c.fmt = 0 → c.bs = false → b < 2 ^ 40 → l < 2 ^ 16 → x.imm.toNat % 64 = 32 + x.imm.toNat % 16 →
      x.imm.toNat % 16 < 13 → fmtBits (x.imm.toNat % 16) ≠ 6 → 0 < row0 → 0 < col0 →
      (col0 * fmtBits (x.imm.toNat % 16) + 7) / 8 ≤ l * 64 →
      (row0 - 1) * l * 64 + (col0 * fmtBits (x.imm.toNat % 16) + 7) / 8 ≤ c.len →
      gives (.capnarrowRetype x) true fun r => Cap.ofQuad r =
        { c with raw := r, kind := some .tile, fmt := x.imm.toNat % 16, len := 0, ring := false, pitch := l, cols := col0,
                 rows := row0 })

/-- R150: a CAPNARROW whose result would not lie within its source takes CAP_WIDEN. A version of more than 32 bits takes
CAP_FIELD of field 2. -/
def Claims.NoWidening : Prop :=
  ∀ (x : Fun) (s : State) (a : BitVec 6), s.flows = true → x.a = .s a →
    let c := Cap.ofQuad (s.readPair a.toNat)
    let b := (s.scalar x.b).toNat
    let l := (s.scalar x.c).toNat
    let sound (k : CapKind) : Prop := s.readTag a.toNat = true ∧ c.kind = some k ∧ c.fieldsOk = true
    let widens (i : Instr) : Prop := exec i s = .next (s.trap 0x44 (capInfo 1 0))
    (sound .linear → c.bs = false → c.len < b + l → widens (.capnarrowRange x)) ∧
    (sound .stitch → b < c.ver → b < 2 ^ 32 → widens (.capnarrowVersion x)) ∧
    (sound .stitch → 2 ^ 32 ≤ b → exec (.capnarrowVersion x) s = .next (s.trap 0x45 (capInfo 2 0))) ∧
    (sound .tile → b < 2 ^ 40 → l < 2 ^ 40 → b / 2 ^ 20 * c.bits % 8 = 0 →
      (c.bs = true → b / 2 ^ 20 = 0 ∧ l / 2 ^ 20 = c.cols) →
      c.rows < b % 2 ^ 20 + l % 2 ^ 20 ∨ c.cols < b / 2 ^ 20 + l / 2 ^ 20 → widens (.capnarrowSubtile x)) ∧
    (sound .linear → c.fmt ≠ 0 ∨ c.bs = true → x.imm.getLsbD 5 = false → widens (.capnarrowRetype x))

/-- R151, R152: CAPGET completes with the field of a pair, tagged or not; CAPCHK with one bit a strand, without trapping. -/
def Claims.CapabilityTests : Prop :=
  (∀ (x : Fun) (s : State) (a : BitVec 6), s.flows = true → x.a = .s a → x.d.isScalar = true →
    let q := s.readPair a.toNat
    let n := q.toNat
    let kind := n / 2 ^ 124
    let bits (lo k : Nat) := n / 2 ^ lo % 2 ^ k
    let known (v : Nat) := if kind = 1 ∨ kind = 2 ∨ kind = 3 then v else 0
    let read (v : Nat) : Prop := Delivers (.capget x) s x.d x.hdr 64 false fun _ st => (v, 0, st)
    (x.fn = 0 → read (if s.readTag a.toNat then 1 else 0)) ∧
    (x.fn = 1 → read kind) ∧
    (x.fn = 2 → read (bits 120 4)) ∧
    (x.fn = 3 → read (bits 115 1 * 16 + bits 116 4)) ∧
    (x.fn = 4 → read (known (if kind = 3 then bits 0 57 / 64 * 64 else bits 0 57))) ∧
    (x.fn = 5 → read (if kind = 1 then bits 57 52 else if kind = 2 then bits 57 20 else 0)) ∧
    (x.fn = 6 → read (if kind = 2 then bits 77 20 else 0)) ∧
    (x.fn = 7 → read (if kind = 2 then bits 97 16 else 0)) ∧
    (x.fn = 8 → read (if kind = 2 then bits 113 1 else 0)) ∧
    (x.fn = 9 → read (if kind = 3 then bits 57 32 else 0)) ∧
    (x.fn = 10 → read (known (Cap.footprint (Cap.ofQuad q))))) ∧
  ∀ (x : ChkOp) (s : State) (a : BitVec 6) (d : BitVec 3), s.flows = true → x.a = .s a → x.d = .p d →
    let c := Cap.ofQuad (s.readPair a.toNat)
    s.columnMissing c x.b = false →
    ∃ ok : Nat → Bool, Delivers (.capchk x) s x.d x.hdr 32 false (fun i st => (if ok i then 1 else 0, 0, st)) ∧
      (s.readTag a.toNat = false ∨ c.kind = none ∨ c.fieldsOk = false ∨ x.perms &&& ~~~c.perms ≠ 0 → ∀ i, ok i = false) ∧
      (s.readTag a.toNat = true → c.fieldsOk = true → x.perms &&& ~~~c.perms = 0 →
        (c.kind = some .stitch → ∀ i, ok i = true) ∧
        (c.kind = some .linear → ∀ i, ok i = true ↔
          let off := signed 64 (wrapInt 64 (s.index x.b i * x.size.bytes + dispOf x.off x.size.bytes))
          0 ≤ off ∧ off + x.size.bytes ≤ c.len))

/-- R90, R91, R131, R150-R152: what a check of a capability raises, what CAPGET and CAPCHK answer, and that no derivation widens rights. -/
def Obligations.CapabilityChecks : Prop := Claims.CapabilityTraps ∧ Claims.NoWidening ∧ Claims.CapabilityTests

/-! ### Atomics (R170-R175) -/

/-- R172, R173: the new word of each of the fourteen atomic operations from the old word and the operand: integer, bitwise and
exchange at both widths; the sums of F32 and of two halves rounded to nearest even; and .FMIN and .FMAX, of which -0 is below
+0, the other operand is the result where one is NaN, and the canonical NaN where both are. -/
def Obligations.AtomicOperations : Prop :=
  ∀ (w o x : Nat), w = 32 ∨ w = 64 → o < 2 ^ w → x < 2 ^ w →
    let a := BitVec.ofNat w o
    let b := BitVec.ofNat w x
    let new (op : Nat) := BitVec.ofNat w (atomicStep op w o x)
    let f32 := Ty.f32.floatFmt
    let halves (f : FloatFmt) (n : Nat) : Prop := n < 2 ^ 32 ∧ ∀ k, k < 2 → ∃ r,
      f.IsSum RNE false (f.unpack (o / 2 ^ (16 * k) % 2 ^ 16)) (f.unpack (x / 2 ^ (16 * k) % 2 ^ 16)) 0 r ∧
      n / 2 ^ (16 * k) % 2 ^ 16 = r.bits
    new 0 = a + b ∧
    new 1 = (if b.slt a then b else a) ∧ new 2 = (if a.slt b then b else a) ∧
    new 3 = (if b.ult a then b else a) ∧ new 4 = (if a.ult b then b else a) ∧
    new 5 = a &&& b ∧ new 6 = a ||| b ∧ new 7 = a ^^^ b ∧ new 8 = b ∧
    (w = 32 → (∃ r, f32.IsSum RNE false (f32.unpack o) (f32.unpack x) 0 r ∧ atomicStep 9 w o x = r.bits) ∧
      halves Ty.f16.floatFmt (atomicStep 10 w o x) ∧ halves Ty.bf16.floatFmt (atomicStep 11 w o x) ∧
      ∀ op, op = 12 ∨ op = 13 →
        let u := f32.unpack o
        let v := f32.unpack x
        let r := atomicStep op w o x
        let below (y z : FVal) : Prop := y.ereal < z.ereal ∨ (y.isZero ∧ z.isZero ∧ y.neg ∧ ¬z.neg)
        (u.isNan ∧ v.isNan → r = 0x7FC00000) ∧ (u.isNan ∧ ¬v.isNan → r = x) ∧ (¬u.isNan ∧ v.isNan → r = o) ∧
        (¬u.isNan → ¬v.isNan → (r = o ∨ r = x) ∧ (below u v → r = if op = 12 then o else x) ∧
          (below v u → r = if op = 12 then x else o)))

/-- R171, R174, R175: ATOM, RED, CAS, ATOMS and CASS complete, one lane after another: each lane finds the word as the lanes
before it left it, and D receives what it found. -/
def Obligations.AtomicAccesses : Prop :=
  ∀ (x : AtomOp) (s : State), s.flows = true → ∀ form ∈ atomForms s x,
    let n := x.size.bytes
    let uni := x.d.isScalar || (form.1 == .red x && !isVector x.b && !isVector x.c)
    let lanes := s.lanes uni x.hdr
    let m : Addr := { size := n, capb := x.capb, a := x.a, b := x.b, off := x.off, need := pRead ||| pWrite,
                      space := form.2.1, align := n }
    (∀ d, x.d = .v d → d.toNat + loadCount x.d n ≤ 128) →
    ∀ ts s1 rs s2, s.targets s.who m lanes = .ok (ts, s1) → s1.loggedPage ts = none →
      s1.readyLanes s.who .atomic ts = .ok (rs, s2) →
      (2 ≤ x.order.toNat → s1.logBlocked (s.actsFor uni x.hdr) = false) →
      (∀ (cells : List (Nat × Nat × Leaf)), rs = cells.map (fun c => (c.1, Ready.memory [(c.2.1, n, c.2.2)])) →
        (∀ c ∈ cells, isMemory (c.2.2.addr c.2.1) = true) → (∀ l ∈ (s.sys.core s.core).l1, l.dirty = 0) →
        let r := atomicRun n form.2.2 (cells.map fun c => (c.1, c.2.2.addr c.2.1)) s.sys
        ∃ t, exec form.1 s = .next t ∧ t.LoadReceived x.d n false lanes (foundBy r.1) ∧ s.LoadKept t x.d n lanes ∧
          s.AccessOnly t ∧ (∀ a, t.sys.byte a = r.2.byte a) ∧ t.crew.scratch = s.crew.scratch) ∧
      ∀ cells : List (Nat × Nat), rs = cells.map (fun c => (c.1, Ready.scratch (c.2 : Int))) →
        (∀ c ∈ cells, ¬s.outOfScratch (c.2 : Int) n ∧ ¬s.inWindow (c.2 : Int) n) →
        let r := atomicScratch n form.2.2 cells s.crew
        ∃ t, exec form.1 s = .next t ∧ t.LoadReceived x.d n false lanes (foundBy r.1) ∧ s.LoadKept t x.d n lanes ∧
          s.AccessOnly t ∧ s.KeptMemory t (fun _ => False) ∧ t.crew.scratch = r.2.scratch ∧
          t.crew.scratchTags = r.2.scratchTags

/-! ### Fences, barriers and handles (R289-R293, R351, R352, R177-R184) -/

/-- R110, R290, R291: FENCE and FENCE.SC complete, at once or at FENCE_COMPLETE, when no store of their strands is logged
and, at system scope, no port retrains. A release at cluster scope or wider leaves no dirty byte in the L1, an acquire none
but dirty ones. A status word reports the ports that dropped writes of the context. An ejected strand that a held fence brings
to its rejoin PC is shown on its way back (R309). -/
def Obligations.Fences : Prop :=
  let done (u t : State) (x : Fun) (waited : Bool) : Prop :=
    let system := fenceScope x = 6 ∧ 2 ≤ fenceOrder x
    u.AccessOnly t ∧ u.KeptMemory t (fun _ => False) ∧
    (∃ word : Dword, u.WordReceived t x.d word ∧
      (∀ k, k < 18 → (word.getLsbD k = true ↔ system ∧ u.sys.dropped.get 0 (droppedKey u.crew.asid k) ≠ 0)) ∧
      (word.getLsbD 18 = true ↔ system ∧ waited = true) ∧ word.extractLsb' 19 45 = 0) ∧
    (system → ∀ k, k < 18 → t.sys.dropped.get 0 (droppedKey u.crew.asid k) = 0) ∧
    (3 ≤ fenceScope x → 2 ≤ fenceOrder x → ∀ l ∈ (t.sys.core u.core).l1, l.dirty = 0) ∧
    (u.gang.ej = none → 3 ≤ fenceScope x → fenceOrder x % 2 = 1 → ∀ l ∈ (t.sys.core u.core).l1, l.valid = l.dirty)
  let may (u : State) (x : Fun) : Prop :=
    u.actsFor x.d.isScalar x.hdr ≠ 0 ∧ u.logBlocked (u.actsFor x.d.isScalar x.hdr) = false ∧ (∀ n, x.d ≠ .v n) ∧
    (fenceScope x = 6 → 2 ≤ fenceOrder x → u.sys.retraining = false ∧
      (x.d.isScalar = true ∨ ∀ k, k < 18 → u.sys.dropped.get 0 (droppedKey u.crew.asid k) = 0))
  (∀ (x : Fun) (s : State), s.flows = true → may s x →
    (∃ t, exec (.fence x) s = .next t ∧ done s t x false) ∧ ∃ t, exec (.fenceSc x) s = .next t ∧ done s t x false) ∧
  ∀ (g : Nat) (x : Fun) (h : Hold) (waited : Bool) (s : State), (s.focus g).gang.hold = some h → h.why = .fence x waited →
    let u := (s.focus g).atHold h
    may u x → ∃ t, done u t x waited ∧
      exec (.fenceComplete g) s = .next (if u.gang.ej.isSome then t.showBack t.gang.id else t)

/-- R351, R352: BAR.ARRIVE, BAR.WAIT, BAR.SYNC and BARSET complete when the whole gang is present: an arrival is counted, and
the last one turns the phase and ends the waits of the crew's gangs; a wait ends when the phase differs from the gang's. An
arrival waits for the strands' side-log entries (the model's reading of R105, log 15). -/
def Obligations.Barriers : Prop :=
  ∀ (x : Fun) (s : State), s.flows = true → s.inHandler = false → s.gang.ej = none →
    let b := s.barrierNo x
    let k := s.crew.barriers.get {} b
    b < s.crew.nbar → s.Gathered {} → s.run ≠ 0 →
    let waits := s.gang.myph.getLsbD b = k.phase
    let held (why : HoldWhy) : Prop := ∃ h, s.gang.hold = some h ∧ h.why = why ∧ h.pc = s.ipc
    let passed := held (.passed b)
    let here := held (.barrier b) ∨ passed
    let same (t : State) : Prop := s.SameRegisters t ∧ s.KeptMemory t (fun _ => False) ∧ s.WentOn t
    let arrived (t : State) : Prop :=
      t.crew.barriers.get {} b = (if k.arrived + 1 = k.count then { k with arrived := 0, phase := !k.phase }
        else { k with arrived := k.arrived + 1 }) ∧
      (∀ c, c ≠ b → t.crew.barriers.get {} c = s.crew.barriers.get {} c) ∧
      (∀ c, c < 96 → t.gang.myph.getLsbD c = if c = b then k.phase else s.gang.myph.getLsbD c) ∧
      ∀ g h, (s.findGang g).id = g → (s.findGang g).crewId = s.crew.id → g ≠ 0 → g ≠ s.gang.id → k.arrived + 1 = k.count →
        (s.findGang g).hold = some h → h.why = .barrier b → (t.findGang g).hold = some { h with why := .passed b }
    let kept (t : State) : Prop := t.crew.barriers = s.crew.barriers ∧ t.gang.myph = s.gang.myph
    b < 96 →
    (s.logBlocked s.run = true → exec (.barArrive x) s = .next (s.wait (.logged s.run)) ∧
      (¬here → exec (.barSync x) s = .next (s.wait (.logged s.run)))) ∧
    (s.logBlocked s.run = false → ∃ t, exec (.barArrive x) s = .next t ∧ same t ∧ arrived t) ∧
    (¬waits ∨ passed → ∃ t, exec (.barWait x) s = .next t ∧ same t ∧ kept t) ∧
    (s.logBlocked s.run = false → ¬here → k.arrived + 1 = k.count → ∃ t, exec (.barSync x) s = .next t ∧ same t ∧ arrived t) ∧
    (here → ¬waits ∨ passed → ∃ t, exec (.barSync x) s = .next t ∧ same t ∧ kept t) ∧
    (let n := s.argOrImm x.b (bitsAt x.imm.toNat 16 10)
     k.arrived = 0 → s.barrierAwaited b = false → 0 < n → n < 1024 →
      ∃ t, exec (.barset x) s = .next t ∧ same t ∧ t.sys = s.sys ∧ t.crew.barriers.get {} b = { k with count := n } ∧
        (∀ c, c ≠ b → t.crew.barriers.get {} c = s.crew.barriers.get {} c) ∧
        ∀ g, (s.findGang g).id = g → (s.findGang g).crewId = s.crew.id → g ≠ 0 →
          (t.findGang g).myph.getLsbD b = k.phase)

/-- R180-R183: WAITH completes when its handle is no longer pending, with the status word in D; TESTH answers at once;
CANCELH asks the pending operation to cancel. The word that WAITH.ID returns for an id that is not valid is open. -/
def Obligations.Handles : Prop :=
  ∀ (x : Fun) (s : State), s.flows = true → s.gang.ej = none →
    let entry (h : Handle) : HandleEntry := s.crew.handles.get {} h.entry
    let named (id : Nat) : Option Handle :=
      let e := s.crew.handles.get {} (id % 64)
      if e.used = true ∧ e.serial % 4 = id / 64 then some ⟨id % 64, e.serial⟩ else none
    let h : Option Handle :=
      match x.fn, x.a with
      | 0, .s n => s.gang.handleIds.get none n.toNat
      | _, a => named (s.argOrImm a x.imm.toNat % 256)
    let pending (k : Handle) : Prop := (entry k).pending = true ∧ (entry k).serial = k.serial
    let ended : Prop := (∃ word, s.finishedHere = some word) ∨ ∀ k, h = some k → ¬pending k
    let read (k : Handle) : Nat :=
      match x.fn, x.a with
      | 0, .s n => (s.gang.s.get 0 n.toNat).toNat % 2 ^ 32
      | _, _ => (entry k).status.toNat % 2 ^ 32
    let waits (p : Dword → Prop) : Prop := ∃ t word, exec (.waith x) s = .next t ∧ s.WordReceived t x.d word ∧
      ({ s with freeCtr := t.freeCtr } : State).AccessOnly t ∧ (s.KeptMemory t fun _ => False) ∧ p word
    (x.d = .none → ended → ∃ t, exec (.waith x) s = .next t ∧ s.SameRegisters t ∧ s.AccessOnly t ∧
      s.KeptMemory t fun _ => False) ∧
    (x.d.isScalar = true → ended → waits fun word => (∀ w, s.finishedHere = some w → word = w) ∧
      ∀ k, s.finishedHere = none → h = some k → word = (entry k).status) ∧
    (x.d.isScalar = true → ∃ word : Nat, Delivers (.testh x) s x.d x.hdr 64 false (fun _ st => (word, 0, st)) ∧
      (h = none → word = 2 ^ 63) ∧
      (∀ k, h = some k → pending k → word = 2 ^ 62 + k.id.toNat * 2 ^ 48) ∧
      ∀ k, h = some k → ¬pending k → word = 2 ^ 63 + 2 ^ 62 + k.id.toNat * 2 ^ 48 + read k) ∧
    ∃ t, exec (.cancelh x) s = .next t ∧ t.StandsAt s.run (nextPc s.ipc) ∧
      t = { s.advance with ops := t.ops } ∧ t.ops.length = s.ops.length ∧
      ∀ (j : Nat) (o : EngineOp), s.ops[j]? = some o → ∃ c : Bool, t.ops[j]? = some { o with cancel := c } ∧
        (c = true ↔ o.cancel = true ∨
          ∃ k, h = some k ∧ pending k ∧ o.crewId = s.crew.id ∧ o.handle = some k.entry)

/-! ### Control flow (R309-R324) -/

/-- R42, R312, R362: BRA, CALL, RET, JMPR and LOOP complete with the strands at their targets. A target whose line the core
cannot see is taken as it is (the model's reading, log 41). -/
def Claims.BranchTargets : Prop :=
  ∀ (x : Fun) (s : State), s.run ≠ 0 →
    let direct : Nat → Dword := fun _ =>
      BitVec.ofInt 64 ((s.ipc.toNat / 64 * 64 : Nat) + x.imm.toInt / 8 * 64 + (x.imm.toNat % 8 : Nat))
    let register (i : Nat) : Dword := BitVec.ofNat 64 (s.src 64 false x.a 0 i)
    let guarded := s.guard x.hdr
    let m := s.actsFor x.d.isScalar x.hdr
    let w := if x.d.isScalar then 64 else 32
    let count (i : Nat) : Nat := (BitVec.ofNat w (s.src w false x.d 0 i) - 1).toNat
    let lanes := s.lanes x.d.isScalar x.hdr
    Branches (.bra x) s guarded direct .none 32 [] (fun _ => 0) ∧
    Branches (.ret x) s guarded register .none 32 [] (fun _ => 0) ∧
    Branches (.jmpr x) s guarded register .none 32 [] (fun _ => 0) ∧
    (evenPair x.d 64 → Branches (.call x) s m direct x.d 64 lanes fun _ => (nextPc s.ipc).toNat) ∧
    Branches (.loop x) s (maskOf ((Mask.list m).filter fun i => count i ≠ 0)) direct x.d w lanes count

/-- R314-R316, R318-R320: BRX ejects a small minority to free marionette slots with their live registers and opens a group, and
otherwise acts as BRA; JOIN closes its groups when nobody is missing, and waits otherwise. A rejoin PC whose line the core cannot
see is taken and checked when it is fetched (the model's reading, log 41). -/
def Claims.Divergence : Prop :=
  (∀ (x : BrxOp) (s : State), s.inHandler = false → s.gang.ej = none → s.flows = true →
    let target := directTarget s.ipc x.imm
    let rejoin := rejoinPc s.ipc x
    let taking := s.guard x.hdr
    let t := Mask.count taking
    let n := Mask.count s.run
    let k := min t (n - t)
    let m := if t < n - t then taking else s.run &&& ~~~taking
    s.targetOk target = true → s.targetOk rejoin = true → t ≠ n - t → 0 < k → k ≤ min 8 s.crew.ejectMax.toNat →
    k ≤ s.freeSlots.length → s.gang.groups.length < 4 →
    ∃ u, exec (.brx x) s = .next u ∧
      (∀ i, i < 32 → s.run.getLsbD i = true →
        (u.gang.strand i).pc = (if taking.getLsbD i then target else nextPc s.ipc) ∧
        (u.gang.strand i).st = if m.getLsbD i then .out else (s.gang.strand i).st) ∧
      u.gang.groups = s.gang.groups ++ [{ rejoin := rejoin, members := s.run, expires := none, expired := false }] ∧
      (∀ i, i < 32 → m.getLsbD i = true → ∃ e ∈ s.freeSlots,
        let a := u.gangs.get {} (s.gang.id + 1 + i)
        a.ej.map (fun j => (j.parent, j.strand, j.slot, j.rejoin)) = some (s.gang.id, i, e, rejoin) ∧
        a.crewId = s.gang.crewId ∧ a.idx = s.gang.idx ∧ a.s = s.gang.s ∧ a.stags = s.gang.stags ∧ a.p = s.gang.p ∧
        ∀ lo hi r, x.a = .v lo → x.b = .v hi → lo.toNat ≤ r → r ≤ hi.toNat →
          a.v.get 0 (i * 128 + r) = s.gang.v.get 0 (i * 128 + r)) ∧
      u = { s with gangs := u.gangs, gang := { s.gang with strands := u.gang.strands, groups := u.gang.groups, hold := none,
                                                           unchecked := u.gang.unchecked } } ∧
      ∀ e, e ∈ u.gang.unchecked ↔ e ∈ s.gang.unchecked ∨ (e = (rejoin, s.ipc) ∧ s.peekLine (pcLine rejoin) = none)) ∧
  (∀ (x : BrxOp) (y : Fun) (s : State), s.flows = true → y.hdr = x.hdr → y.imm = x.imm →
    let rejoin := rejoinPc s.ipc x
    let t := Mask.count (s.guard x.hdr)
    let n := Mask.count s.run
    let k := min t (n - t)
    s.targetOk (directTarget s.ipc x.imm) = true → s.targetOk rejoin = true →
    t = n - t ∨ k = 0 ∨ min 8 s.crew.ejectMax.toNat < k ∨ s.freeSlots.length < k ∨ 4 ≤ s.gang.groups.length ∨
      s.gang.ej.isSome = true ∨ s.inHandler = true →
    ∃ u l, exec (.bra y) s = .next u ∧ exec (.brx x) s = .next { u with gang := { u.gang with unchecked := l } } ∧
      ∀ e, e ∈ l ↔ e ∈ u.gang.unchecked ∨ (e = (rejoin, s.ipc) ∧ s.peekLine (pcLine rejoin) = none)) ∧
  ∀ (x : Fun) (s : State), s.flows = true →
    (s.joinIdle = true → exec (.join x) s = .next s.advance) ∧
    (s.joinIdle = false → s.gang.missing s.ipc = 0 ∨ s.gang.waitOver s.ipc = true ∨ s.crew.rejoinWait = 0 →
      s.logBlocked s.run = true → exec (.join x) s = .next (s.wait (.logged s.run))) ∧
    (s.joinIdle = false → s.gang.missing s.ipc = 0 ∨ s.gang.waitOver s.ipc = true ∨ s.crew.rejoinWait = 0 →
      s.logBlocked s.run = false → ∃ t, exec (.join x) s = .next t ∧ s.WentOn t ∧ s.SameRegisters t ∧ s.KeptMemory t (fun _ => False) ∧
        t.gang.groups = s.gang.groups.filter fun r => r.rejoin ≠ s.ipc) ∧
    (s.joinIdle = false → s.gang.missing s.ipc ≠ 0 → s.gang.waitOver s.ipc = false → s.crew.rejoinWait ≠ 0 →
      ∃ t, exec (.join x) s = .next t ∧ (∀ i, i < 32 → s.run.getLsbD i = true →
        t.gang.strand i = { s.gang.strand i with st := .waitj }) ∧
        (∀ r ∈ t.gang.groups, r.rejoin = s.ipc → r.expires ≠ none) ∧ t.sys = s.sys)

/-- R42, R312, R314-R316, R318-R320, R362: where branches go, when they trap, and how strands part and meet. That a target or a
rejoin PC which the core cannot see is taken as it is, is the model's reading (log 41). -/
def Obligations.BranchesAndDivergence : Prop := Claims.BranchTargets ∧ Claims.Divergence

/-- R322-R324: EXIT ends the guarded strands and the others go on; a gang without live strands leaves its slot. YIELD gives
the place in the active set to a ready pending gang. NOP only goes on. -/
def Claims.StrandEnds : Prop :=
  ∀ (x : Fun) (s : State), s.flows = true →
    exec (.nop x) s = .next s.advance ∧
    (s.inHandler = false → s.gang.ej = none → (∀ e ∈ s.gangs, e.2.id ≠ s.gang.id) →
      ∃ t, exec (.exit x) s = .next t ∧
        (∀ i, i < 32 → t.gang.strand i =
          if (s.guard x.hdr).getLsbD i then { s.gang.strand i with st := .done }
          else if s.run.getLsbD i then { s.gang.strand i with pc := nextPc s.ipc, via := none } else s.gang.strand i) ∧
        (t.gang.live = 0 → s.gang.left = false → t.gang.left = true ∧ t.gang.active = false) ∧
        (∀ r ∈ t.gang.groups, r.members &&& s.guard x.hdr = 0) ∧ s.SameRegisters t ∧ s.SameMemory t ∧ t.ops = s.ops) ∧
    (s.joinIdle = true ∨ s.firstReady s.core s.gang.slot = none → exec (.yield x) s = .next s.advance) ∧
    ∀ g, s.joinIdle = false → s.gang.active = true → s.firstReady s.core s.gang.slot = some g → g.id ≠ s.gang.id →
      (s.findGang g.id).id = g.id → g.id ≠ 0 → s.gang.id ≠ 0 →
      ∃ t, exec (.yield x) s = .next t ∧ t.gang.active = false ∧ (t.findGang g.id).active = true ∧
        s.clock + 2 ≤ (t.findGang g.id).nextIssue ∧ s.WentOn t ∧ s.SameRegisters t ∧ t.sys = s.sys

/-! ### Collectives (R259-R271) -/

/-- R261, R266, R267: SHFL, VOTE, BALLOT, MATCH and ELECT complete when every member of the touched subgroups is present. -/
def Claims.Exchanges : Prop :=
  ∀ (x : Typed) (s : State), s.flows = true → s.inHandler = false → s.gang.ej = none → s.run ≠ 0 →
    let p := s.group x.c
    let act := s.actsFor x.d.isScalar x.hdr
    let peers i := (Mask.list act).filter fun j => p.sub j = p.sub i
    let w := if x.ty = .n64 then 64 else 32
    let own i := s.src w false x.a x.imm i
    let u i := s.src 32 false x.b x.imm i
    let r i := p.rank i
    let from' i (q : Nat) : Nat := let j := p.member (p.sub i) q; if (s.gang.strand j).st = .done then 0 else own j
    let yes j : Bool := s.src 1 false x.a 0 j = 1
    let c i := ((peers i).filter yes).length
    let m i := (peers i).length
    let quota := (match x.b with | .s n => (s.readS n.toNat).toNat | _ => x.imm.toNat) % 64
    let answer i : Bool :=
      match x.var.toNat with
      | 0 => c i = m i
      | 1 => 1 ≤ c i
      | 2 => c i = 0 ∨ c i = m i
      | 3 => m i < 2 * c i
      | _ => quota ≤ c i
    s.Gathered p →
    (evenPair x.d w → Shares (.shfl x) s x w fun i =>
      match x.var.toNat with
      | 0 => from' i (u i % p.n)
      | 1 => if u i ≤ r i then from' i (r i - u i) else own i
      | 2 => if r i + u i < p.n then from' i (r i + u i) else own i
      | 3 => from' i (r i ^^^ (u i % p.n))
      | _ => from' i ((r i + u i) % p.n)) ∧
    Shares (.vote x) s x 1 (fun i => if answer i then 1 else 0) ∧
    Shares (.ballot x) s x 32 (fun i => (maskOf ((peers i).filter yes)).toNat) ∧
    Shares (.matchI x) s x 32 (fun i => (maskOf ((peers i).filter fun j => s.src w false x.a 0 j = s.src w false x.a 0 i)).toNat) ∧
    (x.d.isScalar = false → Shares (.elect x) s x 1 fun i => if ∀ j ∈ peers i, i ≤ j then 1 else 0) ∧
    (x.d.isScalar = true → Shares (.elect x) s x 64 fun _ => s.lead)

/-- R262: a live member of a touched subgroup that is elsewhere makes every collective trap with COLLECTIVE_DIVERGED, before
any strand takes effect. -/
def Claims.Diverged : Prop :=
  ∀ (x : Typed) (s : State), s.flows = true → s.inHandler = false → s.gang.ej = none →
    let m := (s.group x.c).touched s.run
    let absent := m &&& s.gang.live &&& ~~~s.run
    m &&& s.gang.inState StrandState.away = 0 → absent ≠ 0 →
    ∀ i ∈ [Instr.shfl x, .vote x, .ballot x, .matchI x, .elect x, .redux x, .scan x], exec i s = .next (s.trap 0x60 (s.run ++ absent))

/-- R261, R262, R266, R267: SHFL, VOTE, BALLOT, MATCH and ELECT, and the trap of a subgroup that is not together. -/
def Obligations.ExchangesInSubgroups : Prop := Claims.Exchanges ∧ Claims.Diverged

/-- R261, R268: REDUX and SCAN complete with the combination of the contributions of the subgroup's members, or of those up to
or below the strand's rank, where a member that takes no part contributes the identity: one exact sum, the least, the
greatest, or the bitwise combination. -/
def Obligations.Reductions : Prop :=
  ∀ (x : Typed) (s : State), s.flows = true → s.inHandler = false → s.gang.ej = none → x.d.isScalar = false →
    evenPair x.d x.ty.bits → x.ty ≠ .untyped →
    let p := s.group x.c
    let f := Ty.f32.floatFmt
    let members i := (List.range 32).filter fun j => p.sub j = p.sub i
    let upTo i := (members i).filter fun j => if x.imm.getLsbD 0 then p.rank j < p.rank i else p.rank j ≤ p.rank i
    let identity : BitVec x.ty.bits :=
      if x.ty = .f32 then (if x.var = 0 then 0x80000000 else if x.var = 1 then 0x7F800000 else 0xFF800000)
      else if x.var = 1 then BitVec.ofInt x.ty.bits (greatestOf x.ty x.ty.bits)
      else if x.var = 2 then BitVec.ofInt x.ty.bits (leastOf x.ty x.ty.bits)
      else if x.var = 3 then BitVec.allOnes x.ty.bits else 0
    let a j : BitVec x.ty.bits :=
      if j ∈ s.active x.hdr then BitVec.ofNat x.ty.bits (s.src x.ty.bits false x.a 0 j) else identity
    let z j : Int := asInt x.ty (a j)
    let v j : FVal := f.unpack (a j).toNat
    let combined (l : List Nat) (r : Nat × BitVec 8) : Prop :=
      let int (q : BitVec x.ty.bits × BitVec 8) : Prop := r = (q.1.toNat, q.2)
      if x.ty = .f32 then
        (x.var = 0 → l ≠ [] → f.IsTotal x.rnd.toNat x.sat (l.map v) r) ∧
        (x.var ≠ 0 → (∃ j ∈ l, ¬(v j).isNan) → (∃ j ∈ l, ¬(v j).isNan ∧ r.1 = (a j).toNat) ∧
          ∀ j ∈ l, ¬(v j).isNan →
            (if x.var = 1 then (f.unpack r.1).ereal ≤ (v j).ereal else (v j).ereal ≤ (f.unpack r.1).ereal) ∧
            ((v j).isZero → (f.unpack r.1).isZero → (v j).neg = decide (x.var = 1) →
              (f.unpack r.1).neg = decide (x.var = 1))) ∧
        (x.var ≠ 0 → l ≠ [] → (∀ j ∈ l, (v j).isNan) → r.1 = f.nanBits) ∧
        (x.var ≠ 0 → r.2 = if ∃ j ∈ l, (v j).isSig then flagNV else 0) ∧
        (l = [] → r = (identity.toNat, 0))
      else
        match x.var.toNat with
        | 0 => int (narrowed x.ty x.ty.bits x.sat (l.map z).sum)
        | 1 => int (BitVec.ofInt x.ty.bits ((l.map z).foldr min (greatestOf x.ty x.ty.bits)), 0)
        | 2 => int (BitVec.ofInt x.ty.bits ((l.map z).foldr max (leastOf x.ty x.ty.bits)), 0)
        | 3 => int ((l.map a).foldr (· &&& ·) (BitVec.allOnes x.ty.bits), 0)
        | 4 => int ((l.map a).foldr (· ||| ·) 0, 0)
        | _ => int ((l.map a).foldr (· ^^^ ·) 0, 0)
    let all (i : Instr) (pick : Nat → List Nat) : Prop :=
      ∃ r : Nat → Nat × BitVec 8, Delivers i s x.d x.hdr x.ty.bits false (fun j st => ((r j).1, (r j).2, st)) ∧
        ∀ j ∈ s.active x.hdr, combined (pick j) (r j)
    s.Gathered p → x.ty = .i32 ∨ x.ty = .n32 ∨ x.ty = .i64 ∨ x.ty = .n64 ∨ x.ty = .f32 →
    all (.redux x) members ∧ all (.scan x) upTo

/-- R260, R270: PART completes with the partition in the g register; PRIO.TAKE, PASS and DROP with the token of the slot at
its new holder. -/
def Obligations.PartitionsAndPriority : Prop :=
  ∀ (x : Typed) (s : State), s.flows = true → s.inHandler = false → s.gang.ej = none →
    (∀ g, x.d = .g g → ∃ t, exec (.part x) s = .next t ∧
      t.gang.g.get {} g.toNat = { ilv := x.var = 1, n := x.imm.toNat } ∧
      (∀ k, k ≠ g.toNat → t.gang.g.get {} k = s.gang.g.get {} k) ∧
      t = { s.advance with gang := { s.advance.gang with g := t.gang.g, shadows := t.gang.shadows } }) ∧
    let holder := (s.sys.core s.core).prio.get 0 s.gang.slot
    let token (i : Instr) (id : Nat) : Prop := ∃ t, exec i s = .next t ∧ s.WentOn t ∧ s.SameRegisters t ∧ s.SameMemory t ∧
      (t.sys.core s.core).prio.get 0 s.gang.slot = id ∧
      ∀ k, k ≠ s.gang.slot → (t.sys.core s.core).prio.get 0 k = (s.sys.core s.core).prio.get 0 k
    (holder = 0 ∨ (s.findGang holder).crewId = s.crew.id → token (.prioTake x) s.gang.id) ∧
    (holder ≠ 0 → (s.findGang holder).crewId ≠ s.crew.id → token (.prioTake x) holder) ∧
    (holder ≠ s.gang.id → token (.prioPass x) holder ∧ token (.prioDrop x) holder) ∧
    (holder = s.gang.id → token (.prioDrop x) 0 ∧
      (∀ g ∈ s.gangsOf s.crew.id, g.ej = none → g.idx = s.argOrImm x.a x.imm.toNat % 32 → g.live ≠ 0 → g.slot = s.gang.slot →
        (∀ h ∈ s.gangsOf s.crew.id, h.ej = none → h.idx = g.idx → h = g) → token (.prioPass x) g.id) ∧
      ((∀ g ∈ s.gangsOf s.crew.id, g.ej = none → g.idx = s.argOrImm x.a x.imm.toNat % 32 → g.live = 0) →
        token (.prioPass x) 0))

/-- R271: SMXSTEP completes with the new maximum, the scale of the old sum and the shift of the new scores. -/
def Obligations.SoftmaxStep : Prop :=
  ∀ (x : Typed) (s : State) (d : BitVec 7), s.flows = true → x.d = .v d → d.toNat + 3 ≤ 128 →
    (x.var = 1 → s.inHandler = false ∧ s.gang.ej = none ∧ s.Gathered (s.group x.c)) →
    let f := Ty.f32.floatFmt
    let peers i := if x.var = 1 then (s.active x.hdr).filter fun j => (s.group x.c).sub j = (s.group x.c).sub i else [i]
    let b j := f.unpack (s.src 32 false x.b 0 j)
    let a j := f.unpack (s.src 32 false x.a 0 j)
    let step (j : Nat) (y : FVal) (m sc h : Nat) (fl : BitVec 8) : Prop :=
      let bad := m = f.nanBits ∧ sc = f.nanBits ∧ h = f.nanBits
      let sig := (a j).isSig ∨ ∃ k ∈ peers j, (b k).isSig
      if (a j).isNan ∨ ∃ k ∈ peers j, (b k).isNan then bad ∧ (fl = if sig then flagNV else 0)
      else if (a j).ereal = ⊤ ∨ y.ereal = ⊤ then bad ∧ fl = flagNV
      else if (a j).ereal = ⊥ ∧ y.ereal = ⊥ then m = 0xFF800000 ∧ sc = 0 ∧ h = 0 ∧ fl = 0
      else (f.unpack m).ereal = max (a j).ereal y.ereal ∧ h = m ∧
        ((a j).ereal = ⊥ → sc = 0 ∧ fl = 0) ∧ (y.ereal ≤ (a j).ereal → sc = 0x3F800000 ∧ fl = 0) ∧
        ∀ n : ℤ, |n| ≤ 1000 → (a j).isInf = false → y.isInf = false → y.real - (a j).real = n → 0 ≤ n →
          ∃ r, f.RoundOf x.rnd.toNat false (2 ^ (-n)) 0 r ∧ sc = r.bits ∧ fl = r.flags
    ∃ (t : State) (m sc h : Nat → Nat) (fl : Nat → BitVec 8) (y : Nat → FVal), exec (.smxstep x) s = .next t ∧
      (∀ j ∈ s.active x.hdr, step j (y j) (m j) (sc j) (h j) (fl j) ∧
        ((∀ k ∈ peers j, ¬(b k).isNan) → (∃ k ∈ peers j, y j = b k) ∧ ∀ k ∈ peers j, (b k).ereal ≤ (y j).ereal) ∧
        t.gang.v.get 0 (j * 128 + d.toNat) = BitVec.ofNat 32 (m j) ∧
        t.gang.v.get 0 (j * 128 + (d.toNat + 1)) = BitVec.ofNat 32 (sc j) ∧
        t.gang.v.get 0 (j * 128 + (d.toNat + 2)) = BitVec.ofNat 32 (h j)) ∧
      (∀ c, c ∉ groupCells d.toNat 3 (s.active x.hdr) → t.gang.v.get 0 c = s.gang.v.get 0 c) ∧
      s.RegisterOnly t ∧ s.SameMemory t ∧ t.gang.s = s.gang.s ∧ t.gang.p = s.gang.p ∧
      s.Flagged t ((s.active x.hdr).foldr (fun j acc => fl j ||| acc) 0)

/-! ### Engines (R177-R196, R234-R257, R272-R274) -/

/-- R185-R194, R272, R274: COPY, GATHER, SCATTER and TOPK complete by queueing their operation once their checks pass and no
store of the gang is logged. -/
def Obligations.CopyIssue : Prop :=
  ∀ (x : Fun) (s : State), s.flows = true → s.gang.ej = none → s.logBlocked (BitVec.allOnes 32) = false →
    let a := s.capOf x.a
    let b := s.capOf x.b
    let c := s.capOf x.c
    let set := Fun.rset x
    let sound (c : Cap × Bool) (kinds : List CapKind) (perms : BitVec 4) (field : Nat) : Prop :=
      c.1.reservedCause = none ∧ s.engineCheck c.1 c.2 ⟨kinds, perms, field⟩ = none
    let any : List CapKind := [.linear, .tile, .stitch]
    let lanes := s.active x.hdr
    let origin := s.rowOrigin x
    let rows (sc : Cap) : List (Nat × Nat) := ((List.range lanes.length).zip lanes).map fun e =>
      (if sc.ring then (origin + e.1) % sc.rows else origin + e.1, s.src 32 false x.b 0 e.2)
    let sides (sc mc : Cap × Bool) (scPerm mcPerm : BitVec 4) (scField mcField : Nat) : Prop :=
      sound sc [.tile] scPerm scField ∧ sound mc [.tile, .stitch] mcPerm mcField ∧ sc.1.inScratch = true ∧
      mc.1.inScratch = false ∧ s.versionCheck mc.1 = none ∧ sc.1.fmt = mc.1.fmt ∧ sc.1.bs = mc.1.bs ∧
      (mc.1.kind = some .tile → sc.1.rb + sc.1.sb = mc.1.rb + mc.1.sb) ∧ (x.fn.getLsbD 0 = false → sc.1.rb % 128 = 0) ∧
      (sc.1.ring = false → origin + lanes.length ≤ sc.1.rows ∨ lanes = [])
    (sound a any (destPerms a.1 set) 1 → sound b any pRead 2 → s.versionCheck a.1 = none → s.versionCheck b.1 = none →
      (a.1.kind ≠ some .stitch → b.1.kind ≠ some .stitch →
        a.1.wholeElements ≠ none ∧ a.1.wholeElements = b.1.wholeElements) →
      (a.1.fmt = b.1.fmt ∧ a.1.bs = b.1.bs) ∨ (b.1.fmt ≠ 0 ∧ a.1.fmt ≠ 0 ∧ a.1.fmt ≠ 12 ∧ a.1.bs = false) →
      Queues (.copy x) s
        { kind := .copy a.1.raw b.1.raw (x.md.toNat / 32) (x.md.getLsbD 4) (if a.1.inScratch then 0 else set),
          reg := handleReg x.d, room := some .copyQueue, window := a.1.window, holds := a.1.holds ++ b.1.holds,
          unproven := s.unproven a.1 ++ s.unproven b.1 }) ∧
    (sides a c pWrite pRead 1 3 → Queues (.gather x) s
      { kind := .gather a.1.raw c.1.raw (rows a.1) (x.fn.getLsbD 0), reg := immReg x 0, room := some .copyQueue,
        window := rowsWindow a.1 (rows a.1), holds := c.1.holds, unproven := s.unproven c.1 }) ∧
    (sides c a pRead (destPerms a.1 set) 3 1 → Queues (.scatter x) s
      { kind := .scatter a.1.raw c.1.raw (rows c.1) (x.fn.getLsbD 0) set, reg := immReg x 0, room := some .copyQueue,
        holds := a.1.holds, unproven := s.unproven a.1 }) ∧
    (let sp := (s.scalar x.c).toNat
     let k := sp % 2 ^ 13
     let beta := sp / 2 ^ 16 % 2 ^ 5
     let bytes := if x.fn = 1 then 8 else 4
     sound a [.linear] (destPerms a.1 set) 1 → sound b [.linear] pRead 2 →
     a.1.fmt = 0 ∨ a.1.fmt = 11 → a.1.bs = false → bytes * k ≤ a.1.len →
     b.1.fmt = 1 ∨ b.1.fmt = 2 ∨ b.1.fmt = 4 → b.1.bs = false → 0 < b.1.elements → b.1.elements ≤ 2 ^ 20 →
     b.1.len * 8 % b.1.bits = 0 → sp = k + 2 ^ 16 * beta → 0 < k → k ≤ 4096 → beta ≤ 20 → x.fn = 2 ∨ beta = 0 →
     Queues (.topk x) s
      { kind := .topk a.1.raw b.1.raw k beta x.fn.toNat (if a.1.inScratch then 0 else set), reg := handleReg x.d,
        room := some .scarabQueue,
        window := if a.1.inScratch then scratchWindow a.1.base (bytes * k) else none })

/-- R240, R246-R255: MXLOADW, MXSWAP, MXRUN, MXDRAIN, MXDRAIN.R and MXZERO complete by queueing their entry once their checks
pass; MXFENCE counts one fence more and settles the words of scratch that no entry in the queue may still see old, whichever gang
of the crew wrote them (the model's reading, log 60). -/
def Claims.MatrixIssue : Prop :=
  ∀ (s : State), s.flows = true → s.gang.ej = none → s.inHandler = false → 0 < s.crew.qshare →
    s.logBlocked (BitVec.allOnes 32) = false →
    let sound (c : Cap × Bool) (kinds : List CapKind) (perms : BitVec 4) (field : Nat) : Prop :=
      c.1.reservedCause = none ∧ s.engineCheck c.1 c.2 ⟨kinds, perms, field⟩ = none
    let scales (sel : Sel) (field : Nat) : Prop := ∀ n, sel = .s n →
      let c := s.capOf sel
      sound c [.linear] pRead field ∧ c.1.fmt = 1 ∧ c.1.bs = false ∧ c.1.len = 512
    let scaleBits (sel : Sel) : Option Quad := match sel with | .s n => some (s.readPair n.toNat) | _ => none
    let barrier (n : Nat) : Option Nat := if n / 128 % 2 = 1 then some (n % 128) else none
    let inRange (n : Nat) : Prop := n % 128 < 96 ∧ ∀ b, barrier n = some b → b < s.crew.nbar
    let spec (d : Dword) : Prop := d.toNat / 2 ^ 21 % 2 ^ 11 = 0 ∧ 0 < d.toNat / 2 ^ 10 % 2 ^ 11 ∧
      d.toNat / 2 ^ 10 % 2 ^ 11 ≤ 1024 ∧ d.toNat % 2 ^ 10 + d.toNat / 2 ^ 10 % 2 ^ 11 ≤ s.crew.ar
    let base (d : Dword) := d.toNat % 2 ^ 10
    let count (d : Dword) := d.toNat / 2 ^ 10 % 2 ^ 11
    let scale (d : Dword) : Word := BitVec.ofNat 32 (d.toNat / 2 ^ 32)
    (∀ x : Fun,
      (let w := s.capOf x.a
       let had := x.md.getLsbD 7
       let hn := x.md.toNat / 32 % 4
       let hexp := (x.imm.extractLsb' 8 4).toInt
       sound w [.tile] pRead 1 → scales x.b 2 → (w.1.fmt, w.1.bs) ∈ weightFormats → w.1.rows ≤ 128 →
       w.1.cols ≤ (if w.1.fmt = 8 ∨ w.1.fmt = 12 then 256 else 128) → (w.1.fmt = 9 ∨ w.1.fmt = 12 → scaleBits x.b = none) →
       (had = false → hn = 0 ∧ hexp = 0) → (had = true → transformAllowed w.1.fmt w.1.bs hn w.1.cols) →
       inRange (x.imm.toNat % 256) →
       Queues (.mxloadw x) s { kind := .loadw w.1.raw (scaleBits x.b) had hn hexp, reg := handleReg x.d,
                               room := some .matrixShare, barrier := barrier (x.imm.toNat % 256) }) ∧
      Queues (.mxswap x) s { kind := .swap, reg := none, room := some .matrixShare } ∧
      (let off := match x.a with | .s n => (s.readS n.toNat).toNat | _ => x.imm.toNat
       let b := Block.ofBytes (s.crew.scratchRead off 64)
       let st := Cap.ofQuad b.stream
       off % 64 = 0 → off + 64 ≤ s.crew.scratchSize → ¬s.inWindow (off : Int) 64 →
       s.crew.scratchTags.contains (off / 16) = true → sound (st, true) [.tile] pRead 1 → st.inScratch = true →
       0 < b.rows → b.rows ≤ 1024 → st.ring = true ∨ b.row0 + b.rows ≤ st.rows → 0 < b.k → b.k ≤ st.cols →
       b.k ≤ (if st.fmt = 8 ∨ st.fmt = 9 ∨ st.fmt = 10 then 256 else 128) → b.mode < 32 →
       (b.had = false → b.hn = 0 ∧ b.hexp = 0) → (b.had = true → transformAllowed st.fmt st.bs b.hn b.k) →
       -8 ≤ b.hexp → b.hexp ≤ 7 → inRange b.barrier → (∀ n ∈ b.rest, n = 0) → b.accRow + b.rows ≤ s.crew.ar →
       (st.fmt, st.bs) ∈ streamFormats →
       Queues (.mxrun x) s { kind := .mxrun b.stream b.rows b.row0 b.k b.accRow b.acc b.had b.swz b.hn b.hexp,
                             reg := handleReg x.d, room := some .matrixShare, barrier := barrier b.barrier }) ∧
      (let d := s.scalar x.a
       spec d → scale d = 0 → Queues (.mxzero x) s { kind := .zero (base d) (count d), reg := none, room := some .matrixShare }) ∧
      ∃ t, exec (.mxfence x) s = .next t ∧
        t = { s.advance with crew := { s.crew with fences := s.crew.fences + 1, unfenced := t.crew.unfenced } } ∧
        ∀ e ∈ t.crew.unfenced, (∃ l, (e.1, l) ∈ s.crew.unfenced ∧ ∀ x ∈ e.2, x ∈ l) ∧
          ∀ x ∈ e.2, s.crew.fences < x.1 ∨ ∃ o ∈ s.ops, o.kind.isMatrix = true ∧ o.crewId = s.crew.id ∧ o.fence ≤ x.1) ∧
    ∀ x : Typed,
      let d := s.scalar x.b
      let whole : Prop := x.ty.isFloat = true ∨ (scale d = 0x3F800000 ∧ scaleBits x.c = none)
      spec d → scales x.c 3 → whole →
      (let c := s.capOf x.a
       let set : BitVec 16 := x.imm.extractLsb' 16 16
       x.ty ∈ [Ty.f32, .f16, .bf16, .e4m3, .e5m2, .i32, .i8, .n8] →
       sound c [.linear, .tile] (destPerms c.1 set) 1 → fmtTy c.1.fmt = x.ty → c.1.fmt ≠ 0 → c.1.bs = false →
       c.1.wholeElements = some (count d * 128) →
       Queues (.mxdrain x) s
        { kind := .drain c.1.raw x.ty (x.var.getLsbD 0) x.rnd.toNat x.sat (base d) (count d) (scale d) (scaleBits x.c)
            (if c.1.inScratch then 0 else set), reg := handleReg x.d, room := some .matrixShare, window := c.1.window }) ∧
      ∀ v, x.d = .v v → count d = 1 → Queues (.mxdrainR x) s
        { kind := .drainR v.toNat x.ty (x.var.getLsbD 0) x.rnd.toNat x.sat (base d) (scale d) (scaleBits x.c), reg := none,
          room := some .matrixShare }

/-- R256: MXSTAT completes with the flag word, the plane word, the queue word or the token waits; FLAGSCLR clears the flag
word that it returns. -/
def Claims.MatrixStatus : Prop :=
  ∀ (x : Fun) (s : State) (d : BitVec 6), s.flows = true → s.gang.ej = none → s.inHandler = false → x.d = .s d →
    let core := s.sys.core s.core
    let bit (b : Bool) (n : Nat) : Nat := if b then 2 ^ n else 0
    let here := s.ops.filter fun o => o.kind.isMatrix && o.core = s.core
    let read (v : Nat) : Prop := Delivers (.mxstat x) s x.d x.hdr 64 false fun _ st => (v, 0, st)
    (x.fn = 0 → read s.crew.mxFlags.toNat) ∧
    (x.fn = 2 → read ((if core.shadow.full then 2 else if core.shadow.loading then 1 else 0) +
      bit (core.shadow.owner = s.crew.id) 2 + bit core.active.full 3 + bit (core.active.owner = s.crew.id) 4 +
      core.active.fmt.code * 2 ^ 8 + bit core.active.fmt.bs 12 + core.shadow.fmt.code * 2 ^ 16 + bit core.shadow.fmt.bs 20)) ∧
    (x.fn = 3 → read (here.length * 2 ^ 8 + s.crew.qshare * 2 ^ 4 + (here.filter fun o => o.crewId = s.crew.id).length)) ∧
    (x.fn = 4 → (∀ o ∈ s.ops, o.streams = false) → read s.crew.tokWait.toNat) ∧
    ∃ t, exec (.mxstatFlagsclr x) s = .next t ∧ s.WordReceived t x.d (s.crew.mxFlags.setWidth 64) ∧ s.WentOn t ∧
      t.crew = { s.crew with mxFlags := 0 } ∧ t.sys = s.sys ∧ t.ops = s.ops

/-- R240, R246-R256: what the matrix instructions queue, and MXSTAT. That MXFENCE settles the writes of the whole crew is the
model's reading (log 60). -/
def Obligations.MatrixCommands : Prop := Claims.MatrixIssue ∧ Claims.MatrixStatus

/-- R178, R183, R185, R186, R190, R195: the copy engine takes operations in order, four at a time, after a release; it ends
them cancelled, or with the destination written and a status word. A version that issue could not check and that is not
reachable ends its operation with STITCH_VERSION (R192; checked when the engine first reads the list: the model's choice, log
53). -/
def Claims.CopyEngineWork : Prop :=
  (∀ (cluster : Nat) (s : State) (o : EngineOp) (before after : List EngineOp), s.ops = before ++ o :: after →
    let mine (p : EngineOp) : Prop := p.kind.isCopy = true ∧ p.core / 4 = cluster
    mine o → o.phase = .queued → (∀ p ∈ before, mine p → p.phase ≠ .queued) →
    (s.ops.filter fun p => p.kind.isCopy && p.core / 4 = cluster && p.phase = .started).length < 4 →
    ∃ t, exec (.copyOpStart cluster) s = .next t ∧ s.KeptMemory t (fun _ => False) ∧ t.gang = s.gang ∧ t.gangs = s.gangs ∧
      t.ops = s.ops.map (fun p => if p.id = o.id then { p with phase := .started } else p) ∧
      ∀ l ∈ (t.sys.core o.core).l1, l.dirty = 0) ∧
  ∀ (op : Nat) (s : State) (o : EngineOp), s.findOp op = some o → o.kind.isCopy = true → o.phase = .started →
    let ends (code : BitVec 16) (flags : BitVec 8) (result : Nat) (y : Sys) (p : State → Prop) : Prop :=
      ∃ t, exec (.copyOpComplete op) s = .next t ∧ s.Reported t o code flags result ∧ t.sys = y ∧ p t
    let off (a : Nat) := a - Config.scratchBase
    (o.cancel = true → ends 1 0 0 s.sys fun t => (t.findCrew o.crewId).scratch = (s.findCrew o.crewId).scratch) ∧
    (o.cancel = false → ∀ h x s1, o.unproven = [h] → s.readHeader o.who h.1.toNat = .ok (x, s1) →
      s1.reachable o.asid h.1.toNat x h.2 = false →
      ends 0x0189 0 0 s.sys fun _ => True) ∧
    (o.cancel = false → o.unproven = [] → ∀ d r rnd sat set, o.kind = .copy d r rnd sat set →
      let dst := Cap.ofQuad d
      let src := Cap.ofQuad r
      dst.kind = some .linear → src.kind = some .linear → dst.fmt = src.fmt → dst.bs = false → src.bs = false →
      dst.len = src.len → src.len * 8 % src.bits = 0 →
      (∀ b s1 s2, s.engRead o.who src.base src.len = .ok (b, s1) → s1.engWrite o.who set dst.base b = .ok s2 →
        ends 0 0 0 s2.sys fun _ => True) ∧
      ((windowOf src.base).1 = .scratch → (windowOf dst.base).1 = .scratch → o.crewId = s.crew.id →
        ends 0 0 0 s.sys fun t => ∀ k, k < src.len →
          t.crew.scratch.get 0 (off dst.base + k) = s.crew.scratch.get 0 (off src.base + k))) ∧
    (o.cancel = false → o.unproven = [] → ∀ d r row idx nosw, o.kind = .gather d r [(row, idx)] nosw → o.crewId = s.crew.id →
      let sc := Cap.ofQuad d
      let mc := Cap.ofQuad r
      let size := sc.rb + sc.sb
      let at' := off (sc.base + row * sc.pitch * 64)
      (windowOf (sc.base + row * sc.pitch * 64)).1 = .scratch → mc.kind = some .tile → nosw = true ∨ sc.rb % 128 = 0 →
      (mc.ring = false → mc.rows ≤ idx → ends 0 8 1 s.sys fun t => ∀ k, k < size → t.crew.scratch.get 0 (at' + k) = 0) ∧
      (mc.ring = true ∨ idx < mc.rows → ∀ b s1, s.engRead o.who (mc.rowAddr idx) size = .ok (b, s1) →
        ends 0 0 0 s1.sys fun t => ∀ k, k < size → some (t.crew.scratch.get 0 (at' + k)) =
          b[if nosw ∨ sc.rb ≤ k then k else 16 * (k / 16 ^^^ (row % 8)) + k % 16]?)) ∧
    (o.cancel = false → o.unproven = [] → ∀ d r row idx nosw set, o.kind = .scatter d r [(row, idx)] nosw set →
      let mc := Cap.ofQuad d
      let sc := Cap.ofQuad r
      mc.kind = some .tile →
      (mc.ring = false → mc.rows ≤ idx → ends 0 8 1 s.sys fun _ => True) ∧
      (mc.ring = true ∨ idx < mc.rows → ∀ b s1 s2,
        s.engRead o.who (sc.base + row * sc.pitch * 64) (sc.rb + sc.sb) = .ok (b, s1) →
        s1.engWrite o.who set (mc.rowAddr idx) (swizzle nosw row sc.rb b) = .ok s2 → ends 0 0 0 s2.sys fun _ => True))

/-- R78, R191: COPY between formats converts every element on its own. -/
def Claims.CopyConversion : Prop :=
  ∀ (dst src : Cap) (rnd : Nat) (sat : Bool) (codes : List Nat), src.bs = false → rnd < 4 → 0 < src.fmt → src.fmt < 13 →
    0 < dst.fmt → dst.fmt < 12 → (∀ c ∈ codes, c < 2 ^ src.bits) →
    let out := (convertCodes dst src rnd sat [] 0 codes).1
    out.length = codes.length ∧ ∀ (k c : Nat), codes[k]? = some c →
      ∃ r : FRes, IsConversion (fmtTy dst.fmt) (fmtTy src.fmt) rnd sat c 0 r ∧ out[k]? = some r.bits

/-- R78, R178, R183, R185, R186, R190, R191, R195: what the copy engines write, and the conversion of each element. -/
def Obligations.CopyEngines : Prop := Claims.CopyEngineWork ∧ Claims.CopyConversion

/-- R273, R274: the scarab runs one operation at a time; TOPK ranks by value with ties to the lower index and NaN last, and
completes with the entries of the first k and their number; a .VALS entry holds the element itself as F32 behind its index. -/
def Obligations.TopkRanking : Prop :=
  (∀ vs : List FVal,
    let l := ranking vs
    l.length = vs.length ∧ (∀ e ∈ l, vs[e.1]? = some e.2) ∧ (l.map Prod.fst).Nodup ∧
    l.Pairwise fun a b => Above a.2 b.2 ∨ (¬Above b.2 a.2 ∧ a.1 < b.1)) ∧
  (∀ (k beta : Nat) (top : List Ranked), (∀ e ∈ top, e.1 < 2 ^ 32) → top.length ≤ k →
    let word (form t n : Nat) : Nat := fromBytes (((topkEntries form k beta top).1.drop (n * t)).take 4)
    (topkEntries 0 k beta top).2 = top.length ∧ (topkEntries 1 k beta top).2 = top.length ∧
    (∀ t, t < k → word 0 t 4 = ((top[t]?).map Prod.fst).getD 0xFFFFFFFF ∧
      word 1 t 8 = ((top[t]?).map Prod.fst).getD 0xFFFFFFFF) ∧
    (∀ t, t < k →
      let value := fromBytes (((topkEntries 1 k beta top).1.drop (8 * t + 4)).take 4)
      let y := Ty.f32.floatFmt.unpack value
      (top[t]? = none → value = 0x7FC00000) ∧
      ∀ (i : Nat) (ty : Ty) (c : Nat), ty = .f32 ∨ ty = .f16 ∨ ty = .e4m3 → c < 2 ^ ty.bits →
        let v := ty.floatFmt.unpack c
        top[t]? = some (i, v) → (v.isNan → value = 0x7FC00000) ∧
          (¬v.isNan → ¬y.isNan ∧ y.ereal = v.ereal ∧ y.neg = v.neg)) ∧
    ∃ blocks : List Nat, blocks.Pairwise (· < ·) ∧ (∀ b, b ∈ blocks ↔ ∃ e ∈ top, b = e.1 / 2 ^ beta) ∧
      (topkEntries 2 k beta top).2 = blocks.length ∧ ∀ t, t < k → word 2 t 4 = blocks.getD t 0xFFFFFFFF) ∧
  (∀ (cluster : Nat) (s : State) (o : EngineOp) (before after : List EngineOp), s.ops = before ++ o :: after →
    o.kind.isTopk = true → o.core / 4 = cluster → o.phase = .queued →
    (∀ p ∈ s.ops, p.kind.isTopk = true → p.core / 4 = cluster → p.phase ≠ .started) →
    (∀ p ∈ before, p.kind.isTopk = true → p.core / 4 = cluster → p.phase ≠ .queued) →
    ∃ t, exec (.topkStart cluster) s = .next t ∧ s.KeptMemory t (fun _ => False) ∧ t.gang = s.gang ∧
      t.ops = s.ops.map fun p => if p.id = o.id then { p with phase := .started } else p) ∧
  ∀ (op : Nat) (s : State) (o : EngineOp), s.findOp op = some o → o.phase = .started → o.cancel = false → o.unproven = [] →
    ∀ d r k beta form set, o.kind = .topk d r k beta form set → ∀ codes sc s1,
      s.readElements o.who (Cap.ofQuad r) = .ok ((codes, sc), s1) →
      let out := topkEntries form k beta
        ((ranking (codes.map (Ty.floatFmt (fmtTy (Cap.ofQuad r).fmt)).unpack)).take k)
      ∀ s2, s1.engWrite o.who set (Cap.ofQuad d).base out.1 = .ok s2 →
        ∃ t, exec (.topkComplete op) s = .next t ∧ s.Reported t o 0 0 out.2 ∧ t.sys = s2.sys

/-- R239-R242, R246, R248, R255: the matrix queue dispatches: a weight load takes the shadow plane and fills it, a swap makes
it active, a zeroing clears rows and tags, which no earlier drain gives back; an engine arrives at its barrier. What it reads of
scratch has been fenced (R245). -/
def Obligations.WeightPlanes : Prop :=
  ∀ (op : Nat) (s : State) (o : EngineOp), s.findOp op = some o → o.cancel = false → o.unproven = [] →
    let core := s.sys.core o.core
    let fenced : Prop := ∀ e ∈ (s.findCrew o.crewId).unfenced, ∀ x ∈ e.2, x.1 < o.fence
    (s.mayDispatch o = true → ∀ q cs had hn hexp, o.kind = .loadw q cs had hn hexp →
      ∃ t, exec (.mxloadwDispatch op) s = .next t ∧ s.KeptMemory t (fun _ => False) ∧
        (t.sys.core o.core).active = core.active ∧
        (t.sys.core o.core).shadow = { loading := true, owner := o.crewId, fmt := ⟨(Cap.ofQuad q).fmt, (Cap.ofQuad q).bs⟩,
                                       kw := (Cap.ofQuad q).cols, had := had, hn := hn, hexp := hexp } ∧
        t.ops = s.ops.map fun p => if p.id = o.id then { p with phase := .started } else p) ∧
    (o.phase = .started → s.mayRead o = true → fenced → ∀ q hn hexp, o.kind = .loadw q none false hn hexp → core.shadow.loading = true →
      core.shadow.owner = o.crewId →
      let c := Cap.ofQuad q
      let row j := (s.findCrew o.crewId).scratchRead (c.base + j * c.pitch * 64 - Config.scratchBase) (c.rb + c.sb)
      (∀ j, j < c.rows → (windowOf (c.base + j * c.pitch * 64)).1 = .scratch) → c.cols ≤ 256 →
      ∃ t flags, exec (.mxloadwComplete op) s = .next t ∧ s.Reported t o 0 flags 0 ∧
        let p := (t.sys.core o.core).shadow
        p.full = true ∧ p.loading = false ∧ p.owner = o.crewId ∧ p.fmt = core.shadow.fmt ∧ p.colScales = [] ∧
        (∀ j i, j < c.rows → i < c.cols →
          (p.codes.get 0 (j * 256 + i)).toNat = fromBytes ((row j).take c.rb) / 2 ^ (i * c.bits) % 2 ^ c.bits) ∧
        (∀ j g, j < c.rows → g < c.sb → g < 8 → some (p.scales.get 0 (j * 8 + g)) = (row j)[c.rb + g]?) ∧
        (t.sys.core o.core).active = core.active) ∧
    (s.mayDispatch o = true → o.kind = .swap →
      ∃ t, exec (.mxswapDispatch op) s = .next t ∧ s.Reported t o 0 0 0 ∧
        (core.shadow.full = true → core.shadow.owner = o.crewId →
          (t.sys.core o.core).active = core.shadow ∧ (t.sys.core o.core).shadow = {}) ∧
        (core.shadow.full = false ∨ core.shadow.owner ≠ o.crewId → t.sys.core o.core = core)) ∧
    (s.mayDispatch o = true → ∀ base count, o.kind = .zero base count →
      let first := (s.findCrew o.crewId).accBase + base
      ∃ t, exec (.mxzeroDispatch op) s = .next t ∧ (s.rowsWritten o.core first count).Reported t o 0 0 0 ∧
        (∀ r j, j < 128 → (t.sys.core o.core).acc.get 0 (r * 128 + j) =
          if first ≤ r ∧ r < first + count then 0 else core.acc.get 0 (r * 128 + j)) ∧
        ∀ r, (t.sys.core o.core).accMode.get .none r = if first ≤ r ∧ r < first + count then .none else core.accMode.get .none r) ∧
    ∀ b o', o.barrier = some b → o.arrived = false → o.phase = .started → s.mayRead o = true →
      (o.kind.isRun = true → s.tokenHere (o.core / 4) = true ∧ s.rowsSettled o = true) →
      (s.perform o).findOp op = some o' → o'.phase = .written →
      (s.findCrew o.crewId).id = o.crewId → o.crewId ≠ 0 →
      let k := ((s.perform o).findCrew o.crewId).barriers.get {} b
      ∃ t, exec (.engineBarrierArrival op) s = .next t ∧ t.sys = (s.perform o).sys ∧
        (t.findOp op).map (fun p => p.arrived) = some true ∧
        (t.findCrew o.crewId).barriers.get {} b = if k.arrived + 1 = k.count then { k with arrived := 0, phase := !k.phase }
          else { k with arrived := k.arrived + 1 }

/-- R82, R83, R236, R237, R239, R250: a run that has its token, and whose rows no earlier entry has still to write, completes with
exact sums: modulo 2^32 in the integer mode, and in the float mode one rounding to nearest even a group, here for one group of
finite operands without block scales. Under a positive column scale a sum that is exactly zero is -0 only where every product is
-0. -/
def Obligations.MatrixRuns : Prop :=
  ∀ (op : Nat) (s : State) (o : EngineOp), s.findOp op = some o → o.cancel = false → o.unproven = [] →
    ∀ q rows row0 k accRow acc swz, o.kind = .mxrun q rows row0 k accRow acc false swz 0 0 →
    let st := Cap.ofQuad q
    let fenced : Prop := ∀ e ∈ (s.findCrew o.crewId).unfenced, ∀ x ∈ e.2, x.1 < o.fence
    let crew := s.findCrew o.crewId
    let core := s.sys.core o.core
    let plane := core.active
    let first := crew.accBase + accRow
    let a r i : Nat := ((crew.activation st row0 k false swz 0 0 r).codes).getD i 0
    let w j i : Nat := (plane.codes.get 0 (j * 256 + i)).toNat
    let old r j : Word := if acc then core.acc.get 0 ((first + r) * 128 + j) else 0
    (s.mayDispatch o = true →
      let bad (code : BitVec 16) : Prop := ∃ t, exec (.mxrunDispatch op) s = .next t ∧ s.Reported t o code 0 0 ∧
        (t.sys.core o.core).acc = core.acc
      (plane.full = false ∨ plane.owner ≠ o.crewId → bad 0x0186) ∧
      (plane.full = true → plane.owner = o.crewId → (pairMode plane.fmt ⟨st.fmt, st.bs⟩ ≠ none) →
        k ≤ (if plane.fmt.code = 8 ∨ plane.fmt.code = 12 then 256 else 128) →
        ∃ t, exec (.mxrunDispatch op) s = .next t ∧ t.sys = s.sys ∧
          t.ops = s.ops.map fun p => if p.id = o.id then { p with phase := .started, since := s.clock } else p)) ∧
    (o.phase = .started → s.tokenHere (o.core / 4) = true → s.mayRead o = true → s.rowsSettled o = true → fenced → k ≤ 256 →
      k ≤ st.cols →
      let done (m : AccMode) (p : Nat → Nat → Word → Prop) : Prop :=
        ∃ t flags, exec (.mxrunComplete op) s = .next t ∧ (s.rowsWritten o.core first rows).Reported t o 0 flags rows ∧
          (∀ r j, r < rows → j < 128 → p r j ((t.sys.core o.core).acc.get 0 ((first + r) * 128 + j))) ∧
          (∀ r, r < rows → (t.sys.core o.core).accMode.get .none (first + r) = m) ∧
          (∀ c, c < first * 128 ∨ (first + rows) * 128 ≤ c → (t.sys.core o.core).acc.get 0 c = core.acc.get 0 c) ∧
          (t.sys.core o.core).active = plane ∧ t.sys.mem = s.sys.mem
      let modes (m : AccMode) : Prop := acc = true → ∀ r, r < rows →
        core.accMode.get .none (first + r) = m ∨ core.accMode.get .none (first + r) = .none
      ((plane.fmt.code = 9 ∨ plane.fmt.code = 12) → plane.fmt.bs = false → (st.fmt = 9 ∨ st.fmt = 10) → st.bs = false →
        modes .i → done .i fun r j x => x = BitVec.ofInt 32 ((old r j).toInt +
          ((List.range k).map fun i => activationInt st.fmt (a r i) * weightInt plane.fmt.code (w j i)).sum)) ∧
      (∀ fmt, (fmt = 2 ∨ fmt = 3 ∨ fmt = 4) → plane.fmt = ⟨fmt, false⟩ → st.fmt = fmt → st.bs = false → 0 < k → k ≤ 32 →
        modes .f →
        let f := (fmtTy fmt).floatFmt
        let f32 := Ty.f32.floatFmt
        let scale j := f32.unpack (plane.colScales.get 0x3F800000 j).toNat
        let finite (v : FVal) : Prop := v.isNan = false ∧ v.isInf = false
        (∀ r i j, r < rows → i < k → j < 128 → finite (f.unpack (a r i)) ∧ finite (f.unpack (w j i)) ∧ finite (scale j) ∧
          finite (f32.unpack (old r j).toNat)) →
        done .f fun r j x =>
          let g : ℝ := (scale j).real * ((List.range k).map fun i => (f.unpack (a r i)).real * (f.unpack (w j i)).real).sum
          ((f32.unpack (old r j).toNat).real + g ≠ 0 →
            ∃ y, f32.RoundOf RNE false ((f32.unpack (old r j).toNat).real + g) 0 y ∧ x.toNat = y.bits) ∧
          (acc = false → g = 0 → (scale j).real ≠ 0 → (scale j).neg = false →
            ((∀ i, i < k → (f.unpack (a r i)).real * (f.unpack (w j i)).real = 0 ∧
              (f.unpack (a r i)).neg ≠ (f.unpack (w j i)).neg) → x = 0x80000000) ∧
            ((∃ i, i < k ∧ ((f.unpack (a r i)).real * (f.unpack (w j i)).real ≠ 0 ∨
              (f.unpack (a r i)).neg = (f.unpack (w j i)).neg)) → x = 0))))

/-- R252, R254: a drain reads its rows, converts each element, writes the destination in order and, with CLR, zeroes the
rows and leaves them without a tag; here with scale 1.0 and no column scales. MXDRAIN.R fills the registers of all 32 strands. -/
def Obligations.MatrixDrains : Prop :=
  ∀ (op : Nat) (s : State) (o : EngineOp), s.findOp op = some o → o.cancel = false → o.rows = none →
    let core := s.sys.core o.core
    let first base := (s.findCrew o.crewId).accBase + base
    let drained (dt : Ty) (rnd : Nat) (sat : Bool) (row j code : Nat) : Prop :=
      let x := core.acc.get 0 (row * 128 + j)
      match core.accMode.get .none row with
      | .none => code = 0
      | .i => ∃ r : FRes, dt.IsConvertedInt rnd sat x.toInt 0 r ∧ code = r.bits
      | .f => ∃ r : FRes, (if dt.isFloat then dt.floatFmt.IsConverted rnd sat (Ty.f32.floatFmt.unpack x.toNat) 0 r
          else dt.IsConvertedFloat rnd (Ty.f32.floatFmt.unpack x.toNat) r) ∧ code = r.bits
    let cleared (t : State) (clr : Bool) (base count : Nat) : Prop := ∀ r,
      let gone : Prop := clr = true ∧ first base ≤ r ∧ r < first base + count
      (t.sys.core o.core).accMode.get .none r = (if gone then .none else core.accMode.get .none r) ∧
      ∀ j, j < 128 → (t.sys.core o.core).acc.get 0 (r * 128 + j) = if gone then 0 else core.acc.get 0 (r * 128 + j)
    let before (clr : Bool) (base count : Nat) : State := if clr then s.rowsWritten o.core (first base) count else s
    (s.mayDispatch o = true → ∀ q dt clr rnd sat base count set, rnd < 4 →
      o.kind = .drain q dt clr rnd sat base count 0x3F800000 none set →
      ∃ codes : List Nat, codes.length = count * 128 ∧
        (∀ r j, r < count → j < 128 → ∃ c, codes[r * 128 + j]? = some c ∧ drained dt rnd sat (first base + r) j c) ∧
        ∀ s1, s.writeElements o.who set (Cap.ofQuad q) codes [] = .ok s1 →
          ∃ t flags, exec (.mxdrainDispatch op) s = .next t ∧ t.sys.mem = s1.sys.mem ∧ cleared t clr base count ∧
            (t.findCrew o.crewId).scratch = (s1.findCrew o.crewId).scratch ∧
            t.ops = (before clr base count).ops.map fun p => if p.id = o.id then
              { p with phase := .written, code := 0, flags := flags, result := BitVec.ofNat 32 count } else p) ∧
    (s.mayDispatch o = true → ∀ d dt clr rnd sat row, rnd < 4 → o.kind = .drainR d dt clr rnd sat row 0x3F800000 none →
      dt = .f32 ∨ dt = .i32 → d + 4 ≤ 128 → (s.findGang o.gangId).id = o.gangId → o.gangId ≠ 0 →
      ∃ t flags, exec (.mxdrainDispatch op) s = .next t ∧ t.sys.mem = s.sys.mem ∧ cleared t clr row 1 ∧
        (∀ i k, i < 32 → k < 4 → ∃ c, drained dt rnd sat (first row) (4 * i + k) c ∧
          (t.findGang o.gangId).v.get 0 (i * 128 + d + k) = BitVec.ofNat 32 c) ∧
        t.ops = (before clr row 1).ops.map fun p => if p.id = o.id then
          { p with phase := .written, code := 0, flags := flags, result := BitVec.ofNat 32 1 } else p) ∧
    (o.kind.isDrain = true → o.phase = .written →
      ∃ t, exec (.mxdrainComplete op) s = .next t ∧ s.Reported t o o.code o.flags o.result.toNat ∧ t.sys = s.sys)

/-! ### Stitched lists (R197-R209) -/

/-- R200, R204, R207-R209: SLIST.INIT, SLIST.STAT, SLOOK, PIN, PIN.VER, UNPIN and RECLAIM complete when the header, the
entries and the lines they write translate. UNPIN settles first the versions that operations hold but could not check at issue
(the model's choice, log 53). -/
def Claims.ListInstructions : Prop :=
  ∀ (x : Fun) (s : State), s.flows = true → s.gang.ej = none → (∀ n, x.d ≠ .v n) →
    let c := s.capOf x.a
    let w := s.unitWho
    let va := c.1.base
    s.splicing va = false →
    let may (perms : BitVec 4) : Prop := c.1.check c.2 [.stitch] perms 1 0 = none
    let quiet : Prop := s.logBlocked (BitVec.allOnes 32) = false
    let acquired (u : State) : Sys := (u.acquire s.who 5).sys
    let word (i : Instr) (y : Sys) (v : Nat) : Prop := Stitches i s y fun t => s.WordReceived t x.d (BitVec.ofNat 64 v)
    (∀ d, x.d = .s d → d.toNat % 2 = 0 →
      let a := s.capOf x.b
      let k := (s.scalar x.c).toNat
      let h : ListHdr := ⟨1, 0, 0, a.1.base, k, 0, List.replicate 8 (0, 0)⟩
      c.1.reservedCause = none → a.1.reservedCause = none → s.engineCheck c.1 c.2 ⟨[.linear], 3, 1⟩ = none →
      s.engineCheck a.1 a.2 ⟨[.linear], 3, 2⟩ = none → quiet →
      c.1.base % 64 = 0 → 64 ≤ c.1.len → k ≤ 20 → a.1.base % 64 = 0 → 32 * 2 ^ k ≤ a.1.len →
      ∀ u, (s.release s.who 5).saveHeader w va h = .ok u → Stitches (.slistInit x) s u.sys fun t =>
        ∃ q, s.PairReceived t d.toNat q true ∧ (Cap.ofQuad q).kind = some .stitch ∧ (Cap.ofQuad q).base = va ∧
          (Cap.ofQuad q).ver = 1 ∧ (Cap.ofQuad q).perms = c.1.perms ∧ (Cap.ofQuad q).fmt = 0 ∧ (Cap.ofQuad q).bs = false) ∧
    (∀ h u, may pRead → s.readHeader w va = .ok (h, u) → let stat := word (.slistStat x) (acquired u)
      (x.fn = 0x10 → stat h.version) ∧ (x.fn = 0x11 → stat h.length) ∧ (x.fn = 0x12 → stat h.count) ∧
      (x.fn = 0x13 → stat h.used) ∧
      (x.fn = 0x14 → ∃ m, stat m ∧ ((∀ p ∈ h.pins, p.1 = 0) → m = h.version) ∧
        ((∃ p ∈ h.pins, 0 < p.1) → (∃ p ∈ h.pins, 0 < p.1 ∧ p.2 = m) ∧ ∀ p ∈ h.pins, 0 < p.1 → m ≤ p.2))) ∧
    (∀ h l u, may pRead → s.readList w va = .ok ((h, l), u) → u.reachable s.crew.asid va h c.1.ver = true →
      let i := (s.scalar x.b).toNat
      let alive := l.filter fun p => p.aliveAt c.1.ver
      let total := (alive.map fun p => p.len).sum
      let look := word (.slook x) (acquired u)
      (x.fn = 0x15 → word (.slistStat x) (acquired u) total) ∧ (x.fn = 3 → look total) ∧
      (x.fn ≠ 3 → total ≤ i → look (2 ^ 64 - 1)) ∧
      ∀ before p after, alive = before ++ p :: after →
        let start := (before.map fun p => p.len).sum
        start ≤ i → i < start + p.len → (x.fn = 0 → look (p.base + (i - start))) ∧
          (x.fn = 1 → look (p.pid + min (i - start) (2 ^ 32 - 1) * 2 ^ 32)) ∧ (x.fn = 2 → look start)) ∧
    (∀ h u d, may pRead → x.d = .s d → d.toNat % 2 = 0 → s.readHeader w va = .ok (h, u) →
      let pinned (i : Instr) (v : Nat) : Prop :=
        (h.pinSlot v = none → exec i s = .next (s.trap cPinFull (BitVec.ofNat 64 v))) ∧
        ∀ j u2, h.pinSlot v = some j → u.saveHeader w va (h.setPin j ((h.pins.getD j (0, 0)).1 + 1, v)) = .ok u2 →
          Stitches i s (acquired u2) fun t => s.PairReceived t d.toNat { c.1 with ver := v }.toQuad true
      pinned (.pin x) h.version ∧ (u.reachable s.crew.asid va h c.1.ver = true → pinned (.pinVer x) c.1.ver)) ∧
    (∀ h u j u2, may pRead → quiet → s.readHeader w va = .ok (h, u) → j < 8 →
      let holds j := 0 < (h.pins.getD j (0, 0)).1 ∧ (h.pins.getD j (0, 0)).2 = c.1.ver
      holds j → (∀ i, i < j → ¬holds i) →
      (u.settleHolds s.crew.asid va h).saveHeader w va (h.setPin j ((h.pins.getD j (0, 0)).1 - 1, c.1.ver)) = .ok u2 →
      ∃ t, exec (.unpin x) s = .next t ∧ s.WentOn t ∧ t.sys = u2.sys ∧ t.ops = (u.settleHolds s.crew.asid va h).ops ∧
        s.SameRegisters t) ∧
    ∀ h l u m, let co := s.capOf x.b
      may pWrite → co.1.reservedCause = none → s.engineCheck co.1 co.2 ⟨[.linear], pWrite, 2⟩ = none → s.readList w va = .ok ((h, l), u) →
      let live := u.liveVersions s.crew.asid va h
      m ∈ live → (∀ v ∈ live, m ≤ v) →
      let r := reclaim m (co.1.len / 16) l
      let n := r.gone.length + if r.more then 2 ^ 63 else 0
      let out := goneBytes r.gone
      let h' := { h with used := r.kept.length }
      (r.gone = [] → word (.reclaim x) u.sys n) ∧
      (r.gone ≠ [] → co.1.inScratch = true → ∀ u2, u.saveList w va h' r.kept = .ok u2 →
        Stitches (.reclaim x) s u2.sys fun t => s.WordReceived t x.d (BitVec.ofNat 64 n) ∧
          t.crew.scratchRead (co.1.base - Config.scratchBase) out.length = out) ∧
      (r.gone ≠ [] → co.1.inScratch = false → ∀ u1 u2, u.unitCheck w co.1.base out.length = .ok u1 →
        u1.saveList w va h' r.kept = .ok u2 → word (.reclaim x) (u2.writeDescriptors w co.1 out).sys n)

/-- R198, R205, R207, R209: what the list operations do to the entries of a list: the new version's bytes, the old one's that
stay, the slot of a pin and the entries that RECLAIM takes. -/
def Claims.ListContents : Prop :=
  (∀ (v sb sc : Nat) (l : List Piece), (∀ p ∈ l, p.birth ≤ v ∧ p.death ≠ v + 1) → v + 1 < neverDies →
    let at' := placed v 0 l
    let ends := boundaries (versionLength v l) at'
    let old := versionBytes v l
    (∀ new : List Piece, (∀ p ∈ new, p.birth = v + 1 ∧ p.death = neverDies) → sb ∈ ends →
      versionBytes (v + 1) (insertAt sb new at') =
        old.take sb ++ (new.flatMap fun p => (List.range p.len).map fun i => p.base + i) ++ old.drop sb ∧
      versionBytes v (insertAt sb new at') = old) ∧
    (sb ∈ ends → sc ∈ ends → sb ≤ sc →
      versionBytes (v + 1) (removeRange (v + 1) sb sc at') = old.take sb ++ old.drop sc ∧
      versionBytes v (removeRange (v + 1) sb sc at') = old) ∧
    versionBytes (v + 1) (truncateAt (v + 1) sb at') = old.take sb ∧ versionBytes v (truncateAt (v + 1) sb at') = old) ∧
  (∀ (v : Nat) (b : List Byte) (i : Nat), i < b.length / 16 →
    (newPieces v b)[i]? = some ⟨fromBytes ((b.drop (16 * i)).take 8), fromBytes ((b.drop (16 * i + 8)).take 4),
      fromBytes ((b.drop (16 * i + 12)).take 4), v, neverDies, 0⟩) ∧
  (∀ h : ListHdr, h.version < 2 ^ 32 → h.count < 2 ^ 32 → h.length < 2 ^ 64 → h.arr < 2 ^ 57 → h.arr % 64 = 0 → h.k < 64 →
    h.used < 2 ^ 32 → h.pins.length = 8 → (∀ p ∈ h.pins, p.1 < 16 ∧ p.2 < 2 ^ 32) → ListHdr.ofBytes h.toBytes = h) ∧
  (∀ (h : ListHdr) (v j : Nat),
    let count j := (h.pins.getD j (0, 0)).1
    let ver j := (h.pins.getD j (0, 0)).2
    let fits j := j < 8 ∧ 0 < count j ∧ count j < 15 ∧ ver j = v
    let free j := j < 8 ∧ count j = 0
    h.pinSlot v = some j ↔ (fits j ∧ ∀ i, i < j → ¬fits i) ∨ ((∀ i, ¬fits i) ∧ free j ∧ ∀ i, i < j → ¬free i)) ∧
  ∀ (m room : Nat) (l : List Piece),
    let r := reclaim m room l
    let needy (l : List Piece) := (l.filter fun p => p.death ≤ m ∧ p.keep ≠ p.len).length
    ∃ taken left, l = taken ++ left ∧ r.gone = taken.filter (fun p => p.death ≤ m) ∧
      r.kept = taken.filter (fun p => m < p.death) ++ left ∧ needy taken ≤ room ∧ (r.more = false → left = []) ∧
      (r.more = true → needy taken = room ∧ ∃ p rest, left = p :: rest ∧ p.death ≤ m ∧ p.keep ≠ p.len)

/-- R197, R204, R207-R209: where the stitch unit finds the header, the entries in use and the bytes it writes, the list
instructions complete with their words and capabilities. -/
def Claims.ListsComplete : Prop :=
  ∀ (x : Fun) (s : State) (h : ListHdr) (l : List Piece) (pa : Nat) (pe : Nat → Nat), s.flows = true → s.gang.ej = none →
    (∀ n, x.d ≠ .v n) →
    let c := s.capOf x.a
    let o := s.capOf x.b
    let w := s.unitWho
    let va := c.1.base
    s.splicing va = false →
    let may (perms : BitVec 4) : Prop := c.1.check c.2 [.stitch] perms 1 0 = none
    let quiet : Prop := s.logBlocked (BitVec.allOnes 32) = false
    let word (i : Instr) (v : Nat) : Prop := ∃ t, exec i s = .next t ∧ s.WentOn t ∧ s.WordReceived t x.d (BitVec.ofNat 64 v)
    let gives (i : Instr) (v : Nat) : Prop := ∀ d, x.d = .s d → d.toNat % 2 = 0 → ∃ t q, exec i s = .next t ∧ s.WentOn t ∧
      s.PairReceived t d.toNat q true ∧ (Cap.ofQuad q).kind = some .stitch ∧ (Cap.ofQuad q).base = va ∧
      (Cap.ofQuad q).ver = v % 2 ^ 32
    let k := (s.scalar x.c).toNat
    (c.1.reservedCause = none → o.1.reservedCause = none → s.engineCheck c.1 c.2 ⟨[.linear], 3, 1⟩ = none →
      s.engineCheck o.1 o.2 ⟨[.linear], 3, 2⟩ = none → quiet → va % 64 = 0 → 64 ≤ c.1.len → k ≤ 20 → o.1.base % 64 = 0 →
      32 * 2 ^ k ≤ o.1.len → s.FindsAll w .store va 64 → gives (.slistInit x) 1) ∧
    (s.FindsHeader w va pa h →
      (may pRead →
        (x.fn = 0x10 → word (.slistStat x) h.version) ∧ (x.fn = 0x11 → word (.slistStat x) h.length) ∧
        (x.fn = 0x12 → word (.slistStat x) h.count) ∧ (x.fn = 0x13 → word (.slistStat x) h.used) ∧
        (x.fn = 0x14 → ∃ v, word (.slistStat x) v)) ∧
      (may pRead → s.FindsAll w .store va 64 →
        ((∃ j, j < 8 ∧ (h.pins.getD j (0, 0)).1 = 0) → gives (.pin x) h.version ∧
          (c.1.ver ∈ s.liveVersions s.crew.asid va h → gives (.pinVer x) c.1.ver)) ∧
        ((∃ j, j < 8 ∧ 0 < (h.pins.getD j (0, 0)).1 ∧ (h.pins.getD j (0, 0)).2 = c.1.ver) → quiet →
          ∃ t, exec (.unpin x) s = .next t ∧ s.WentOn t ∧ s.SameRegisters t)) ∧
      (s.FindsEntries w h pe l →
        (may pRead → c.1.ver ∈ s.liveVersions s.crew.asid va h →
          let total := ((l.filter fun p => p.aliveAt c.1.ver).map fun p => p.len).sum
          (x.fn = 0x15 → word (.slistStat x) total) ∧ (x.fn = 3 → word (.slook x) total) ∧ ∃ v, word (.slook x) v) ∧
        (may pWrite → o.1.reservedCause = none → s.engineCheck o.1 o.2 ⟨[.linear], pWrite, 2⟩ = none →
          o.1.inScratch = true ∨ s.FindsAll w .store o.1.base o.1.len → s.FindsAll w .store h.arr (32 * h.used) →
          s.FindsAll w .store va 64 → ∃ v, word (.reclaim x) v)))

/-- R197, R198, R200, R204, R205, R207-R209: the list instructions, and the bytes a version of a list stands for. -/
def Obligations.StitchedLists : Prop := Claims.ListInstructions ∧ Claims.ListsComplete ∧ Claims.ListContents

/-- R205: SPLICE.INS, SPLICE.REMOVE and SPLICE.TRUNC complete by queueing their operation; the stitch unit performs it
indivisibly, or ends it with its code and leaves the list as it was. A splice settles first the versions that operations hold but
could not check at issue (the model's choice, log 53). -/
def Obligations.Splices : Prop :=
  (∀ (x : Fun) (s : State), s.flows = true → s.gang.ej = none → s.logBlocked (BitVec.allOnes 32) = false →
    let c := s.capOf x.a
    let p := s.capOf x.c
    let expect : Option Word := if 128 ≤ x.fn.toNat then some x.imm else none
    let queued (i : Instr) (fn : Nat) (sc : Dword) (cp : Option Quad) : Prop :=
      Queues i s { kind := .splice fn c.1.raw (s.scalar x.b) sc cp expect, reg := handleReg x.d, room := none }
    c.1.check c.2 [.stitch] pWrite 1 0 = none →
    (p.1.reservedCause = none → s.engineCheck p.1 p.2 ⟨[.linear], pRead, 3⟩ = none → p.1.len % 16 = 0 → 0 < p.1.len → p.1.len ≤ 65536 →
      queued (.spliceIns x) 0 0 (some p.1.raw)) ∧
    (s.scalar x.b ≤ s.scalar x.c → queued (.spliceRemove x) 1 (s.scalar x.c) none) ∧ queued (.spliceTrunc x) 2 0 none) ∧
  ∀ (op : Nat) (s : State) (o : EngineOp) (fn : Nat) (q : Quad) (b c : Dword) (cp : Option Quad) (expect : Option Word),
    s.findOp op = some o → o.phase = .queued → s.spliceAhead o = false → o.kind = .splice fn q b c cp expect → fn ≤ 2 → (fn = 0 ↔ cp ≠ none) →
    let va := (Cap.ofQuad q).base
    let sb := b.toNat
    let sc := c.toNat
    let ends (code : BitVec 16) (result : Nat) (y : Sys) : Prop :=
      ∃ t, exec (.splicePerform op) s = .next t ∧ s.Reported t o code 0 result ∧ t.sys = y
    (o.cancel = true → ends 1 0 s.sys) ∧
    (o.cancel = false → ∀ h u1, (s.opRelease o 5).readHeader o.who va = .ok (h, u1) →
      ((∃ e, expect = some e ∧ e.toNat ≠ h.version) → ends 2 h.version u1.sys) ∧
      ((∀ e, expect = some e → e.toNat = h.version) → ∀ l u2, u1.readPieces o.who va h = .ok (l, u2) →
        let at' := placed h.version 0 l
        let marks := boundaries h.length at'
        let v := h.version + 1
        let same : Prop := (fn = 2 ∧ h.length ≤ sb) ∨ (fn = 1 ∧ sb = sc)
        let whole : Prop := fn = 2 ∨ (sb ∈ marks ∧ (fn = 1 → sc ∈ marks))
        let added := match cp with
          | some d => (Cap.ofQuad d).len / 16
          | none => if fn = 2 ∧ straddles sb at' = true then 1 else 0
        let saves (l' : List Piece) (u : State) : Prop :=
          let count := (l'.filter fun p => p.aliveAt v).length
          let h' : ListHdr := { h with version := v, count := count, length := versionLength v l', used := l'.length }
          let held := u.settleHolds o.asid va h
          ∀ u3, held.saveList o.who va h' l' = .ok u3 →
            ∃ t, exec (.splicePerform op) s = .next t ∧ ({ s with ops := held.ops } : State).Reported t o 0 0 v ∧ t.sys = u3.sys
        (same → ends 0 h.version u2.sys) ∧ (¬same → ¬whole → ends 5 0 u2.sys) ∧
        (¬same → whole → h.version = 0xFFFFFFFE → ends 4 0 u2.sys) ∧
        (¬same → whole → h.version ≠ 0xFFFFFFFE → 2 ^ h.k < h.used + added → ends 3 0 u2.sys) ∧
        (¬same → whole → h.version ≠ 0xFFFFFFFE → h.used + added ≤ 2 ^ h.k →
          (fn = 1 → saves (removeRange v sb sc at') u2) ∧ (fn = 2 → saves (truncateAt v sb at') u2) ∧
          ∀ d bytes u, cp = some d → u2.descriptors o.who (Cap.ofQuad d) = .ok (bytes, u) →
            let bad (p : Piece) : Prop := p.len = 0 ∨ ((windowOf p.base).1 ≠ .global ∧ (windowOf p.base).1 ≠ .priv)
            ((∃ p ∈ newPieces v bytes, bad p) → ends 0x018C 0 u.sys) ∧
            ((∀ p ∈ newPieces v bytes, ¬bad p) → saves (insertAt sb (newPieces v bytes) at') u))))

/-! ### Hardware queues (R341-R350, R382) -/

/-- R344-R348: QPUSH moves min(a, room) items to TAIL, QPOP takes min(a, items) from HEAD and QSTEAL from TAIL, in rank order,
with the status word; QPUSH.B waits for room and QPOP.B for an item. -/
def Claims.QueueTransfers : Prop :=
  ∀ (x : Fun) (s : State) (key : Nat) (q : Queue), s.flows = true → transferRegisters x →
    let a := Mask.count s.run
    let blocking := x.fn.getLsbD 0 = true
    (s.MayTransfer x .qpush key q → s.logBlocked s.run = false →
      let since := s.gang.pushSince.getD s.clock
      let blocks : Prop := blocking ∧ s.crew.qwaitMax ≠ 0
      let late : Prop := since + s.crew.qwaitMax.toNat ≤ s.clock
      let waits : Prop := blocks ∧ ¬late ∧ (q.space < a ∨ s.portBlocked q = true)
      (waits → exec (.qpush x) s =
        .next (({ s with gang := { s.gang with pushSince := some since } } : State).wait (.qpush x key since))) ∧
      (¬waits → s.portBlocked q = false → s.Pushes (exec (.qpush x) s) x key q (blocks ∧ late))) ∧
    (let m := min a q.count
     let popped := { q with head := q.head + BitVec.ofNat 32 m }
     let at' (n : Nat) : Word := q.tail - 1 - BitVec.ofNat 32 n
     (s.MayTransfer x .qpop key q →
       (¬(blocking ∧ q.count = 0 ∧ (q.closed = false ∨ s.crew.retq = true)) →
         s.Takes (exec (.qpop x) s) x key q popped m False fun n => q.head + BitVec.ofNat 32 n) ∧
       (blocking → q.count = 0 → q.closed = false → exec (.qpop x) s = .next (s.wait (.qpop x key s.clock)))) ∧
     (s.MayTransfer x .qsteal key q →
       (q.steals = true →
         s.Takes (exec (.qsteal x) s) x key q { q with tail := q.tail - BitVec.ofNat 32 m } m False at') ∧
       (q.steals = false → s.Takes (exec (.qsteal x) s) x key q q 0 True at')))

/-- R342, R344: before anything else a spec that names no cluster, a queue of another context or none, and a scratch range
outside the allocation trap; the queue comes before the scratch range (the model's reading, log 27). -/
def Claims.QueueTraps : Prop :=
  ∀ (x : Fun) (s : State), s.flows = true →
    let spec := s.queueSpec x
    let q := s.queue (s.queueKey spec)
    let base := s.itemBase x
    ∀ (i : Instr) (o : Op), (i, o) ∈ [(Instr.qpush x, Op.qpush), (.qpop x, .qpop), (.qsteal x, .qsteal)] →
      s.barred (queueLimits o x) = none →
      (48 ≤ spec / 16 → spec / 16 ≠ 0x3F →
        exec i s = .next (s.trap cIllegalField (if x.b.isScalar = true then 48 else 26))) ∧
      (spec / 16 < 48 ∨ spec / 16 = 0x3F →
        (q.bound = false ∨ q.asid ≠ s.crew.asid → exec i s = .next (s.trap cQueueState (BitVec.ofNat 64 spec))) ∧
        (q.bound = true → q.asid = s.crew.asid →
          (base % 64 ≠ 0 → exec i s = .next (s.trap cQdestRange (BitVec.ofNat 64 base))) ∧
          (base % 64 = 0 → s.crew.scratchSize < base + 64 * Mask.count s.run →
            ¬s.inWindow base (64 * Mask.count s.run) →
            exec i s = .next (s.trap cQdestRange (BitVec.ofNat 64 (max base s.crew.scratchSize))))))

/-- R346, R348: a blocked gang that stands first on its queue is served as if it issued its instruction now: a pop takes the
items that stand, a push goes in once all its items fit; the wait of QPUSH.B ends with what fits and TIMEOUT. A gang that is
not first, or not blocked, stays as it is. The crew of a pop that a CLOSE wakes is retired where RETQ is set (the model's reading,
log 29). -/
def Claims.QueueWaiting : Prop :=
  ∀ (g : Nat) (s : State) (h : Hold),
    let t := s.focus g
    let v := t.atHold h
    t.gang.hold = some h →
    ∀ (x : Fun) (key since : Nat), transferRegisters x → v.itemBase x % 64 = 0 →
      let q := t.queue key
      let a := Mask.count h.run
      let m := min a q.count
      (h.why = .qpop x key since →
        (t.firstBlocked Gang.blockedPop key = some g → q.count ≠ 0 ∨ q.closed = true →
          (q.count ≠ 0 ∨ t.crew.retq = false → v.Takes (exec (.qpopWake g) s) x key q
            { q with head := q.head + BitVec.ofNat 32 m } m False fun n => q.head + BitVec.ofNat 32 n) ∧
          (x.fn.getLsbD 0 = true → q.count = 0 → t.crew.retq = true → exec (.qpopWake g) s = .next v.retireByQueue)) ∧
        (t.firstBlocked Gang.blockedPop key ≠ some g ∨ (q.count = 0 ∧ q.closed = false) → exec (.qpopWake g) s = .next s)) ∧
      (h.why = .qpush x key since →
        (t.firstBlocked Gang.blockedPush key = some g → a ≤ q.space → t.portBlocked q = false →
          v.Pushes (exec (.qpushWake g) s) x key q False) ∧
        (t.firstBlocked Gang.blockedPush key ≠ some g ∨ q.space < a ∨ t.portBlocked q = true →
          exec (.qpushWake g) s = .next s) ∧
        (t.clock < since + t.crew.qwaitMax.toNat ∨ t.portBlocked q = true → exec (.qpushWaitExpiry g) s = .next s) ∧
        (since + t.crew.qwaitMax.toNat ≤ t.clock → t.portBlocked q = false →
          v.Pushes (exec (.qpushWaitExpiry g) s) x key q True))

/-- R345, R346, R348: where the queue unit finds the slots of the ring, a blocked gang that is served, or whose wait ends,
moves its items and goes on. -/
def Claims.WaitsEnd : Prop :=
  ∀ (g : Nat) (s : State) (h : Hold) (x : Fun) (key since : Nat),
    let t := s.focus g
    let v := t.atHold h
    let q := t.queue key
    let a := Mask.count h.run
    let moved (n : Nat) : Word := BitVec.ofNat 32 n
    let ends (i : Instr) (q' : Queue) : Prop := ∃ u, exec i s = .next u ∧ v.WentOn u ∧ u.queue key = q'
    t.gang.hold = some h → transferRegisters x →
    (h.why = .qpop x key since → t.firstBlocked Gang.blockedPop key = some g → q.count ≠ 0 →
      (∀ n, n < min a q.count → v.FindsAll v.unitWho .load (q.slot (q.head + moved n)) 64) →
      ends (.qpopWake g) { q with head := q.head + moved (min a q.count) }) ∧
    (h.why = .qpush x key since → q.hostPorts = 0 → t.portBlocked q = false →
      (∀ n, n < min a q.space → v.FindsAll v.unitWho .store (q.slot (q.tail + moved n)) 64) →
      (t.firstBlocked Gang.blockedPush key = some g → a ≤ q.space →
        ends (.qpushWake g) { q with tail := q.tail + moved a }) ∧
      (since + t.crew.qwaitMax.toNat ≤ t.clock →
        ends (.qpushWaitExpiry g) { q with tail := q.tail + moved (min a q.space) }))

/-- R342, R344-R348: the transfers, their traps, and the end of a wait. That QUEUE_STATE comes before QDEST_RANGE is the model's
reading (log 27), and so is the retirement of a RETQ crew whose blocked pop a CLOSE wakes (log 29). -/
def Obligations.QueueItems : Prop := Claims.QueueTransfers ∧ Claims.QueueTraps ∧ Claims.QueueWaiting ∧ Claims.WaitsEnd

/-- R341, R349, R350: QSTAT completes with the count, the room, the pointers or the flags; QBIND.BIND binds a queue from its
descriptor, and traps for a queue that is bound, a LOGCAP above 16 or a ring that is not aligned to its size; UNBIND writes the descriptor back and frees the queue, CLOSE and OPEN set and clear CLOSED. -/
def Claims.QueueBinding : Prop :=
  ∀ (x : Fun) (s : State), s.flows = true → s.gang.ej = none → s.specBit x = none →
    let key := s.queueKey (s.queueSpec x)
    let q := s.queue key
    let others (t : State) : Prop := ∀ k, k ≠ key → t.queues.get {} k = s.queues.get {} k
    let desc := descAddr x
    (s.usable q = true → x.d.isScalar = true → s.NoneWaits key →
      let read (v : Nat) : Prop := Stitches (.qstat x) s s.sys fun t => s.WordReceived t x.d (BitVec.ofNat 64 v) ∧
        t.queues = s.queues
      (x.fn = 0 → read (q.tail - q.head).toNat) ∧ (x.fn = 1 → read (BitVec.ofNat 32 (2 ^ q.logcap) - (q.tail - q.head)).toNat) ∧
      (x.fn = 2 → read q.head.toNat) ∧ (x.fn = 3 → read q.tail.toNat) ∧
      (x.fn = 4 → read (q.flags.toNat + 256 * q.logcap))) ∧
    (s.gang.priv = true →
      (q.bound = true → exec (.qbindBind x) s = .next (s.trap 0x65 (BitVec.ofNat 64 (s.queueSpec x)))) ∧
      (q.bound = false → ∀ ts s1 rs s2, s.targets s.who desc [0] = .ok (ts, s1) → s.loggedPage ts = none →
        s1.readyLanes s.who .load ts = .ok (rs, s2) → s2.locate s.who ts = none →
        let b := (s2.loadLanes s.who 0 32 rs).1.flatMap fun y => y.data
        let field (first n : Nat) := fromBytes ((b.drop first).take n)
        b.length = 32 →
        (16 < field 8 1 ∨ field 0 8 % (64 * 2 ^ field 8 1) ≠ 0 → ∃ u, exec (.qbindBind x) s = .next (u.trap 0x02 56) ∧
          u.queues = s.queues ∧ u.ipc = s.ipc ∧ u.run = s.run ∧ s.SameRegisters u) ∧
        (field 8 1 ≤ 16 → field 0 8 % (64 * 2 ^ field 8 1) = 0 →
          ∃ t, exec (.qbindBind x) s = .next t ∧ s.WentOn t ∧ s.SameRegisters t ∧ others t ∧
            t.queue key = ⟨true, BitVec.ofNat 64 (field 0 8), field 8 1, BitVec.ofNat 8 (field 9 1 % 32),
              BitVec.ofNat 16 (field 10 2), field 12 1, field 13 1, BitVec.ofNat 32 (field 16 4), BitVec.ofNat 32 (field 20 4),
              BitVec.ofNat 64 (field 24 8)⟩)) ∧
      (s.usable q = false → ∀ i ∈ [Instr.qbindUnbind x, .qbindClose x, .qbindOpen x],
        exec i s = .next (s.trap cQueueState (BitVec.ofNat 64 (s.queueSpec x)))) ∧
      (s.usable q = true → s.NoneWaits key →
        (∀ tg u v, s.target s.who desc 0 = .ok (tg, u) → u.writeDesc tg q = .ok v →
          (∀ g ∈ s.allGangs, ∀ h, (s.focus g.id).gang.hold = some h → ∀ y k n, h.why ≠ .qpop y k n ∧ h.why ≠ .qpush y k n) →
          ∃ t, exec (.qbindUnbind x) s = .next t ∧ s.WentOn t ∧ s.SameRegisters t ∧ t.sys = v.sys ∧ t.queue key = {} ∧
            others t) ∧
        exec (.qbindClose x) s = .next (s.updQueue key fun q => { q with flags := q.flags ||| 8 }).advance ∧
        exec (.qbindOpen x) s = .next (s.updQueue key fun q => { q with flags := q.flags &&& 0xF7 }).advance)) ∧
    ∀ g h y n, (s.focus g).gang.hold = some h → transferRegisters y →
      let v := (s.focus g).atHold h
      (h.why = .qpop y key n → v.WentOn (s.unblock key g) ∧ v.TransferReceived (s.unblock key g) y 0 (2 ^ 31)) ∧
      (h.why = .qpush y key n → v.WentOn (s.unblock key g) ∧ v.TransferReceived (s.unblock key g) y 0 (2 ^ 30))

/-- R304, R307, R345, R382: a tail or head doorbell acts behind the gangs that the queue can serve, and moves its pointer if it
lies between HEAD and the capacity, or the held items, and is discarded otherwise; a peer's item goes to the tail of a PEER queue
with room. An item for a queue that is not bound, not PEER or full has no effect (the model's choice, log 28). -/
def Claims.QueueDoorbells : Prop :=
  ∀ (cluster n : Nat) (value : Word) (item : BitVec 512) (s0 : State), cluster < 48 → n < 16 →
    let key := cluster * 16 + n
    let s := s0.served key
    let q := s.queue key
    let bell (off : Nat) : Dword := BitVec.ofNat 64 (0x10000 + 16 * key + off)
    let discarded (off : Nat) : State := s.event { kind := 6, info := bell off, value := value.setWidth 64 }
    let moved (t : State) (q' : Queue) : Prop := t.queue key = q' ∧ t = { s with queues := t.queues } ∧
      ∀ k, k ≠ key → t.queue k = s.queue k
    let tailOk : Prop := q.bound = true ∧ value ≠ q.tail ∧ (value - q.head).toNat ≤ 2 ^ q.logcap
    let headOk : Prop := q.bound = true ∧ value ≠ q.head ∧ (value - q.head).toNat ≤ (q.tail - q.head).toNat
    ((∀ g ∈ s0.allGangs, ∀ k, g.blockedPop ≠ some (key, k) ∧ g.blockedPush ≠ some (key, k)) → s = s0) ∧
    (tailOk → ∃ t, exec (.taildb cluster n value) s0 = .next t ∧ moved t { q with tail := value }) ∧
    (¬tailOk → exec (.taildb cluster n value) s0 = .next (discarded 0)) ∧
    (headOk → ∃ t, exec (.headdb cluster n value) s0 = .next t ∧ moved t { q with head := value }) ∧
    (¬headOk → exec (.headdb cluster n value) s0 = .next (discarded 4)) ∧
    (q.bound = false ∨ q.peer = false ∨ q.space = 0 → exec (.peerPush cluster n item) s0 = .next s0) ∧
    (q.bound = true → q.peer = true → q.space ≠ 0 → s.FindsAll (queueWho cluster q) .store (q.slot q.tail) 64 →
      ∃ t, exec (.peerPush cluster n item) s0 = .next t ∧ t.queue key = { q with tail := q.tail + 1 } ∧
        (∀ k, k ≠ key → t.queue k = s.queue k) ∧ t.gang = s.gang ∧ t.gangs = s.gangs) ∧
    ∀ u, q.bound = true → q.peer = true → q.space ≠ 0 →
      s.unitCheck (queueWho cluster q) (q.slot q.tail) 64 = .ok u →
      ∃ t, exec (.peerPush cluster n item) s0 = .next t ∧ t.queue key = { q with tail := q.tail + 1 } ∧
        (∀ k, k ≠ key → t.queue k = s.queue k) ∧ t.gang = s.gang ∧ t.gangs = s.gangs ∧
        t.sys = (u.unitWrite (queueWho cluster q) (q.slot q.tail) (toBytes 64 item.toNat)).sys

/-- R304, R307, R341, R349, R350, R382: binding, the doorbells and what a peer pushes. That a peer's push to a queue which cannot
take it has no effect is the model's choice (log 28). -/
def Obligations.QueueControl : Prop := Claims.QueueBinding ∧ Claims.QueueDoorbells

/-- R334-R336: after a recomputation every crew and every launch has its own class or the highest one lent to it: a crew blocked
in QPOP.B lends to the producer launch of the queue, one blocked in QPUSH.B to the consumer launch; an engine operation has the
class of its crew, or the one its crew lends it while a gang of it waits for the operation in WAITH. A pre-empted crew lends too
(the model's reading, log 30). -/
def Claims.Boosts : Prop :=
  ∀ s : State, (∀ e ∈ s.everyCrew, e.1.cls ≤ 3) → (∀ l ∈ s.launches, l.r.cls ≤ 3) →
    let lends (e : Crew × List Gang) (lid : Nat) : Prop := ∃ g ∈ e.2, ∃ h x key since, g.hold = some h ∧
      (s.queues.get {} key).bound = true ∧
      ((h.why = .qpop x key since ∧ (s.queues.get {} key).prodlid = lid) ∨
        (h.why = .qpush x key since ∧ (s.queues.get {} key).conslid = lid))
    ∃ t, exec .boostRecompute s = .next t ∧
      (let raised (lid own eff : Nat) : Prop := own ≤ eff ∧ (∀ e ∈ t.everyCrew, lends e lid → e.1.effCls ≤ eff) ∧
        (eff = own ∨ ∃ e ∈ t.everyCrew, lends e lid ∧ eff = e.1.effCls)
       (∀ e ∈ t.everyCrew, raised e.1.lid e.1.cls e.1.effCls) ∧ ∀ l ∈ t.launches, raised l.lid l.r.cls l.effCls) ∧
      t.gang = s.gang ∧ t.gangs = s.gangs ∧ t.sys = s.sys ∧ t.queues = s.queues ∧
      t.everyCrew.map (fun e => (e.1.id, e.1.cls, e.1.lid, e.2)) = s.everyCrew.map (fun e => (e.1.id, e.1.cls, e.1.lid, e.2)) ∧
      t.ops.length = s.ops.length ∧ ∀ (j : Nat) (o : EngineOp), s.ops[j]? = some o → ∃ n, t.ops[j]? = some { o with cls := n } ∧
        let c := t.findCrew o.crewId
        let waits : Prop := ∃ g ∈ t.gangsOf o.crewId, ∃ h k, g.hold = some h ∧ h.why = .handle k ∧ o.handle = some k.entry
        (waits → n = max c.cls c.effCls) ∧ (¬waits → n = c.cls)

/-! ### Power tokens and the driver's answers (R100, R106, R188, R243, R393) -/

/-- R243, R381, R393: a free token is taken where it is waited for and else passed on; a holder that does not stream passes it
on when a cluster waits and else lets it go, and after 2048 cycles it goes on when another cluster waits. POWERCFG gives each die its number of tokens. -/
def Obligations.PowerTokens : Prop :=
  (∀ (k : Nat) (s : State) (tok : Token), s.tokens[k]? = some tok →
    let here := tok.die * 12 + tok.place
    let next := (tok.place + 1) % 12
    let count := (s.tokens.filter fun t => t.die = tok.die).length
    let right : Prop := count = max 1 (min 12 (s.host.powercfg.toNat / 16 ^ tok.die % 16))
    let becomes (i : Instr) (tok' : Token) (p : State → Prop) : Prop :=
      ∃ t, exec i s = .next t ∧ t.tokens = s.tokens.set k tok' ∧ t.sys = s.sys ∧ t.gang = s.gang ∧ p t
    (tok.held = true ∨ s.dieWaits tok.die = false → exec (.tokenArrival k) s = .next s) ∧
    (tok.held = false → s.dieWaits tok.die = true →
      (s.wantsToken here = true →
        becomes (.tokenArrival k) { tok with held := true, since := s.clock } fun t => t.ops = s.ops) ∧
      (s.wantsToken here = false → right → becomes (.tokenArrival k) { tok with place := next } fun t => t.ops = s.ops)) ∧
    (tok.held = true → s.streaming here = false → right →
      becomes (.tokenRelease k) { tok with held := false, place := if s.dieWaits tok.die then next else tok.place } fun t =>
        t.ops = s.ops) ∧
    (tok.held = false ∨ s.streaming here = true → exec (.tokenRelease k) s = .next s) ∧
    (tok.held = false ∨ s.clock < tok.since + 2048 → exec (.tokenHoldExpiry k) s = .next s) ∧
    (tok.held = true → tok.since + 2048 ≤ s.clock →
      (s.dieWaits tok.die = true → right → becomes (.tokenHoldExpiry k) { tok with held := false, place := next } fun t =>
        t.ops = s.ops.map fun o => if o.streams = true ∧ o.core / 4 = here then { o with since := s.clock } else o) ∧
      (s.dieWaits tok.die = false →
        becomes (.tokenHoldExpiry k) { tok with since := s.clock } fun t => t.ops = s.ops))) ∧
  ∀ (port : Port) (x : BitVec 16) (s : State),
    let set : Out := .next { s with host := { s.host with powercfg := x } }
    let owner : Prop := s.host.linkUp port = true ∧ s.host.owner = ownerOf port
    let at' (v : BitVec 16) (d : Nat) := v.toNat / 16 ^ d % 16
    (owner → exec (.powercfgWrite port x) s = set) ∧ (¬owner → exec (.powercfgWrite port x) s = .next s) ∧
    ((∀ d, d < 4 → at' x d ≤ at' s.host.powercfg d) → exec (.powerThermalLimit x) s = set) ∧
    ((∀ d, d < 4 → at' s.host.powercfg d ≤ at' x d) → exec (.powerThermalClear x) s = set)

/-- R100, R106, R188: when the driver resolves a fault the held instruction issues again and the operation goes to the
firmware path; when it refuses, the gang traps with the cause, the operation ends on it, and logged stores of the page are
discarded and reported. The firmware path ends an operation with what it did, or cancelled, but a SPLICE at its home is not
cancelled. -/
def Obligations.DriverAnswers : Prop :=
  (∀ (id : Nat) (s : State) (f : OpenFault) (w : Waiter), (s.sys.faults.find? fun f => f.id = id) = some f →
    f.waiters = [w] → s.Numbered →
    let rest := s.sys.faults.filter fun f => f.id ≠ id
    let answered (bit : Nat) : State := { s with host := { s.host with faultresp := BitVec.ofNat 64 (bit + id % 2 ^ 16) } }
    (∀ g cause info h, w = .gang g cause info → (s.findGang g).hold = some h → h.why = .fault id →
      (∃ t, exec (.faultResolve id) s = .next t ∧ t.sys.faults = rest ∧ t.ops = s.ops ∧
        ((t.findGang g).hold = none ∨ (t.findGang g).hold = some { h with why := .retry })) ∧
      exec (.faultRefuse id) s = .next (((((answered (2 ^ 16)).closeFault id).focus g).atHold h).trap cause info)) ∧
    (∀ o cause x, w = .op o cause → s.findOp o = some x → x.phase = .faulted →
      (∃ t, exec (.faultResolve id) s = .next t ∧ t.sys.faults = rest ∧
        t.ops = s.ops.map fun y => if y.id = o ∧ y.phase = .faulted then { y with phase := .firmware } else y) ∧
      ∃ t, exec (.faultRefuse id) s = .next t ∧ t.sys.faults = rest ∧ s.Reported t x (causeCode cause) 0 0) ∧
    ∀ core, w = .log core → s.NoLoadWaits →
      let mine (e : LogEntry) : Bool := e.asid = f.asid && e.page = f.page
      let gone := (s.sys.core core).log.filter mine
      (∃ t, exec (.faultResolve id) s = .next t ∧ t.sys.faults = rest ∧ (t.sys.core core).log = (s.sys.core core).log) ∧
      ∃ t, exec (.faultRefuse id) s = .next t ∧ (t.sys.core core).log = (s.sys.core core).log.filter (fun e => !mine e) ∧
        ∀ g, (s.findGang g).id = g → g ≠ 0 → (t.findGang g).discarded = (s.findGang g).discarded ++
          (gone.filter fun e => e.gangId = g).map fun e => (((e.lanes.head?).map fun l => l.va).getD 0, e.pc)) ∧
  ∀ (op : Nat) (s : State) (o : EngineOp), s.findOp op = some o → o.kind.isMatrix = false →
    (o.phase = .firmware → o.cancel = false ∨ o.kind.isSplice = true → o.unproven = [] → ∀ r u, s.opWork o = .ok (r, u) →
      ∃ t, exec (.firmwarePathComplete op) s = .next t ∧ u.Reported t o r.code r.flags r.result ∧ t.sys = u.sys) ∧
    (o.phase = .firmware ∨ o.phase = .faulted → o.cancel = true → o.kind.isSplice = false →
      ∃ t, exec (.firmwarePathComplete op) s = .next t ∧ s.Reported t o 1 0 0 ∧ t.sys = s.sys)

/-! ### Traps, modes and system registers (R61, R357-R373) -/

/-- R358, R361-R363, R369: taking a trap; TRAP and BRK trap for the strands that pass the guard and the others go on; a word
with a reserved opcode traps with ILLEGAL_OPCODE. A cause in the handler kills the crew. -/
def Obligations.TrapEntry : Prop :=
  (∀ (s : State) (cause : BitVec 8) (info : Dword), s.HasHandler → s.Entered (s.trap cause info) cause info s.ipc s.run) ∧
  (∀ (x : Fun) (s : State), s.HasHandler → s.flows = true →
    let m := s.guard x.hdr
    let traps (i : Instr) (cause : BitVec 8) (info pc : Dword) : Prop :=
      (m = 0 → exec i s = .next s.advance) ∧
      (m ≠ 0 → ∃ t u : State, exec i s = .next t ∧ u.Entered t cause info pc m ∧
        u = { s with gang := { s.gang with strands := u.gang.strands, hold := u.gang.hold } } ∧
        ∀ i, i < 32 → u.gang.strand i = if s.run.getLsbD i = true ∧ m.getLsbD i = false
          then { s.gang.strand i with pc := nextPc s.ipc, via := none } else s.gang.strand i)
    traps (.trap x) (0xA0 + BitVec.ofNat 8 (x.imm.toNat % 32)) (s.scalar x.a) (nextPc s.ipc) ∧
    traps (.brk x) 0x08 (BitVec.ofNat 64 (x.imm.toNat % 2 ^ 24)) s.ipc) ∧
  (∀ (w : InstrWord) (s : State),
    (w ≠ 0 → Op.ofCode (w.extractLsb' 88 8) = none →
      exec (.illegalOpcodeIssue w) s = .next (s.trap 0x01 ((w.extractLsb' 64 32).setWidth 64))) ∧
    (s.HasHandler → ∃ t info, exec (.illegalOpcodeIssue 0) s = .next t ∧
      State.Entered { s with freeCtr := s.freeCtr + 1 } t 0x00 info s.ipc s.run)) ∧
  (∀ (s : State) (cause : BitVec 8) (info : Dword), s.gang.ej = none → s.gang.handler = none →
    (s.sys.ctxD s.crew.asid).trapvec.getLsbD 0 = false →
    (s.trap cause info).gang.suspended = .inHandler ∧ (s.trap cause info).gang.trapRun = s.run ∧
      (s.trap cause info).gang.trapInfo = info) ∧
  ∀ (s : State) (cause : BitVec 8) (info : Dword), s.gang.ej = none → s.inHandler = true → s.Numbered →
    s.crew.ended = .running →
    (s.trap cause info).Killed s.gang.crewId (BitVec.ofNat 32 (s.gang.trapCause.toNat % 256 + cause.toNat * 256 + 65536))

/-- R371: RFT in a handler restores the gang's own s56-s63 and p4-p6, sends the live strands of TRAPRUN to TRAPPC and leaves
privileged mode for that of the launch; after a trap and at once RFT the gang is as it was, its strands at the instruction.
Outside a handler (DEDUCED, log 8) the strands of TRAPRUN go to TRAPPC and the others of the run on. -/
def Claims.TrapReturn : Prop :=
  ∀ (x : Fun) (s : State), s.gang.priv = true → s.gang.ej = none →
    let m := s.gang.trapRun &&& s.gang.live
    (∀ b, s.gang.handler = some b → (∀ e ∈ s.crew.handles, e.2.inHandler = false ∨ e.2.reg < 56 ∨ e.2.reg = 64) →
      s.crew.id = s.gang.crewId → b.tags &&& 0x0FFFFFFF = 0 →
      ∃ t, exec (.rft x) s = .next t ∧ t = { s with gang := t.gang } ∧
        t.gang.handler = none ∧ t.gang.priv = s.crew.priv ∧ t.gang.hold = none ∧
        (∀ i, i < 32 → (t.gang.strand i).pc = (if m.getLsbD i then s.gang.trapPc else (s.gang.strand i).pc) ∧
          (t.gang.strand i).st = (s.gang.strand i).st) ∧
        (∀ k, k < 64 → t.gang.s.get 0 k = (if 56 ≤ k then b.s.get 0 k else s.gang.s.get 0 k)) ∧
        (∀ k, k < 7 → t.gang.p.get 0 k = if 4 ≤ k then b.p.get 0 k else s.gang.p.get 0 k) ∧
        (∀ k, k < 32 → t.gang.stags.getLsbD k = if 28 ≤ k then b.tags.getLsbD k else s.gang.stags.getLsbD k) ∧
        t.gang.v = s.gang.v ∧ t.gang.g = s.gang.g ∧ t.gang.fpstat = s.gang.fpstat ∧ t.gang.trapCause = s.gang.trapCause ∧
        t.gang.trapPc = s.gang.trapPc ∧ t.gang.trapInfo = s.gang.trapInfo ∧ t.gang.trapRun = s.gang.trapRun) ∧
    (s.gang.handler = none → s.flows = true →
      ∃ t, exec (.rft x) s = .next t ∧ t = { s with gang := t.gang } ∧ s.SameRegisters t ∧ t.gang.priv = true ∧
        ∀ i, i < 32 → (t.gang.strand i).pc =
          if m.getLsbD i then s.gang.trapPc else if s.run.getLsbD i then nextPc s.ipc else (s.gang.strand i).pc) ∧
    (s.HasHandler → s.crew.id = s.gang.crewId → s.run &&& ~~~s.gang.live = 0 →
      s.ipc.toNat < 2 ^ 57 → s.crew.handles = [] →
      ∃ t, exec (.rft x) (s.trap 0x08 0) = .next t ∧
        (∀ k, k < 64 → t.gang.s.get 0 k = s.gang.s.get 0 k ∧ t.gang.stags.getLsbD (k / 2) = s.gang.stags.getLsbD (k / 2)) ∧
        (∀ k, k < 7 → t.gang.p.get 0 k = s.gang.p.get 0 k) ∧ t.gang.v = s.gang.v ∧ t.gang.handler = none ∧
        ∀ i, i < 32 → (t.gang.strand i).pc = if s.run.getLsbD i then s.ipc else (s.gang.strand i).pc)

/-- R373, R386: HALT.WAIT suspends the gang and reports it, in its handler or outside, once its logged stores are
performed; HALT.KILL and the host kill a crew;
the host resumes a suspended gang as RFT does, or lets it issue on. -/
def Claims.HaltAndResume : Prop :=
  (∀ (x : Fun) (s : State), s.gang.priv = true → s.gang.ej = none →
    let v := s.scalar x.a
    (s.inHandler = true → exec (.haltWait x) s = .next (s.suspend v) ∧ (s.suspend v).gang.suspended = .inHandler ∧
      (s.suspend v).gang.strands = s.gang.strands ∧ (s.suspend v).gang.trapPc = s.gang.trapPc) ∧
    (s.inHandler = false → s.flows = true → ∃ t, exec (.haltWait x) s = .next t ∧ t.gang.suspended = .outside ∧
      t.StandsAt s.run (nextPc s.ipc) ∧ t.gang.trapPc = s.gang.trapPc ∧ t.gang.trapRun = s.gang.trapRun ∧
      s.SameRegisters t ∧
      let flags := s.gang.trapCause.toNat / 256 + 2
      let e : Event := ⟨1, 0, 0, flags, s.crew.asid, s.gang.idx, s.crew.number, nextPc s.ipc, 0, s.run, v⟩
      (s.loggedStrands s.logGang = 0 → t.host = (s.advance.event e).host) ∧
      (s.loggedStrands s.logGang ≠ 0 →
        t.host = { s.host with deferred := s.host.deferred ++ [(s.logGang, e.record)] })) ∧
    (s.Numbered → s.crew.ended = .running → ∃ t, exec (.haltKill x) s = .next t ∧
      t.Killed s.gang.crewId (BitVec.ofNat 32 (s.gang.trapCause.toNat % 256)) ∧ s.SameMemory t)) ∧
  ∀ (asid : Asid) (n k : Nat) (s : State) (c : Crew), s.crewNumbered asid n = some c → s.Numbered →
    (c.ended = .running → ∃ t, exec (.crewKill asid ⟨n, k⟩) s = .next t ∧ t.Killed c.id (s.trappedCause c.id) ∧ s.SameMemory t) ∧
    ∀ g, ((s.gangsOf c.id).find? fun g => g.ej.isNone && g.idx = k) = some g →
      let word := asid.toNat + n % 2 ^ 32 * 2 ^ 16 + k % 32 * 2 ^ 48 + 2 ^ 54
      let noted : State := { s with host := { s.host with gangctl := BitVec.ofNat 64 word } }
      (g.suspended = .no → exec (.gangResume asid n k) s = .next noted) ∧
      (g.suspended = .inHandler → exec (.gangResume asid n k) s = .next (noted.focus g.id).returnTrap) ∧
      (g.suspended = .outside → ∃ t, exec (.gangResume asid n k) s = .next t ∧
        t.gang = { (s.focus g.id).gang with suspended := .no })

/-- R371, R373, R386: the return from a handler, and suspended, resumed and killed gangs. -/
def Obligations.ReturnsAndHalts : Prop := Claims.TrapReturn ∧ Claims.HaltAndResume

/-- R4, R366, R370, R372: MFSR completes with the register's value; MTSR sets the register's bits and no other register,
reserved bits stay 0; read-only and unassigned numbers trap with SR_ACCESS. PARKCTL latches its table. SRSEED sets the
rounding states. -/
def Claims.SystemRegisters : Prop :=
  ∀ (x : Fun) (s : State), s.flows = true → s.gang.priv = true →
    let n := x.imm.toNat % 2 ^ 12
    let access : Out := .next (s.trap 0x09 (BitVec.ofNat 64 n))
    (SysReg.ofNumber n = none → exec (.mfsr x) s = access ∧ exec (.mtsr x) s = access) ∧
    (∀ r, SysReg.ofNumber n = some r →
      (x.d.isScalar = true → ∃ t, exec (.mfsr x) s = .next t ∧ s.WordReceived t x.d (s.readSys r) ∧ s.WentOn t ∧
        t.sys = s.sys ∧ t.crew = s.crew) ∧
      (r.readOnly = true → exec (.mtsr x) s = access) ∧
      (r.readOnly = false → s.gang.ej = none ∨ r.ofContext = false → r ≠ .parkctl →
        exec (.mtsr x) s = .next (s.writeSys r (s.scalar x.a)).advance)) ∧
    (∀ (r q : SysReg) (v : Dword), r.readOnly = false → s.gang.ej = none → (s.sys.ctx s.crew.asid).isSome = true →
      (s.writeSys r v).readSys r = v &&& r.mask ∧
      (q ≠ r → (r = .sldsel → q ≠ .sldva ∧ q ≠ .sldpc) → (s.writeSys r v).readSys q = s.readSys q) ∧
      s.SameRegisters (s.writeSys r v) ∧ s.SameMemory (s.writeSys r v)) ∧
    (SysReg.ofNumber n = some .parkctl → s.gang.ej = none →
      let v := s.scalar x.a &&& SysReg.mask .parkctl
      (s.pageLogged s.core s.crew.asid (tableVa v / 65536) = true →
        exec (.mtsrParkctl x) s = .next (s.wait (.logPage s.crew.asid (tableVa v / 65536)))) ∧
      (s.pageLogged s.core s.crew.asid (tableVa v / 65536) = false → ∀ b u,
        s.readTable s.who v = .ok (b, u) → ∃ t, exec (.mtsrParkctl x) s = .next t ∧ s.WentOn t ∧ s.SameRegisters t ∧
          ((u.sys.ctx s.crew.asid).isSome = true → (t.sys.ctxD s.crew.asid).parkctl = v ∧
            ∀ k, k < 64 → (t.sys.ctxD s.crew.asid).table.get 0 k = BitVec.ofNat 64 (fromBytes ((b.drop (8 * k)).take 8))))) ∧
    (let seed (v : Nat) : Word := if v % 2 ^ 32 = 0 then 1 else BitVec.ofNat 32 v
     (∃ t, exec (.srseed x) s = .next t ∧ t = { s.advance with gang := { s.advance.gang with rnd := t.gang.rnd } } ∧
       ∀ i, t.gang.rnd.get 0 i = if i ∈ s.active x.hdr then seed (s.src 32 false x.a x.imm i) else s.gang.rnd.get 0 i) ∧
     exec (.srseedG x) s =
       .next { s with gang := { s.gang with urnd := seed (s.src 32 false x.a x.imm 0) } : State }.advance)

/-- R61: outside privileged mode every privileged instruction raises PRIVILEGED with its opcode and does nothing else; MFSR and
MTSR do for the privileged registers. -/
def Claims.PrivilegedMode : Prop :=
  ∀ (x : Fun) (s : State), s.gang.priv = false →
    (∀ e ∈ privilegedForms x, exec e.1 s = .next (s.trap 0x06 (e.2.code.setWidth 64))) ∧
    ∀ r, SysReg.ofNumber (x.imm.toNat % 2 ^ 12) = some r → r.isPriv = true →
      exec (.mfsr x) s = .next (s.trap 0x06 (Op.mfsr.code.setWidth 64)) ∧
      exec (.mtsr x) s = .next (s.trap 0x06 (Op.mtsr.code.setWidth 64)) ∧
      (r = .parkctl → exec (.mtsrParkctl x) s = .next (s.trap 0x06 (Op.mtsr.code.setWidth 64)))

/-- R4, R61, R366, R370, R372: the system registers, and what is refused outside privileged mode. -/
def Obligations.SystemAccess : Prop := Claims.SystemRegisters ∧ Claims.PrivilegedMode

/-! ### Contexts and translations (R101, R375-R378, R387) -/

/-- R99, R101, R375: a TLBINV form completes with its status; with status 0 nothing of its units is cached any more and dirty
bytes are written home, else nothing is invalidated. A splinter's entries map the named units as the template says. That
status 2 comes before 3, and 4 where the ASID is not resident, are the model's readings (log 26). -/
def Obligations.Invalidation : Prop :=
  (∀ (x : Fun) (s : State), s.flows = true → s.gang.priv = true → s.gang.ej = none → x.d.isScalar = true →
    s.logBlocked (BitVec.allOnes 32) = false →
    let va := (s.scalar x.a).toNat
    let s1 := s.release s.who 5
    let status (i : Instr) (n : Nat) (p : State → Prop) : Prop :=
      ∃ t, exec i s = .next t ∧ s.WordReceived t x.d (BitVec.ofNat 64 n) ∧ s.WentOn t ∧ p t
    let clears (i : Instr) (p : Asid → Nat → Prop) : Prop :=
      status i 0 fun t => t.sys.Forgets p ∧ s.KeptMemory t fun _ => False
    let read (n : Nat) (b : List Byte) (u : State) : Prop :=
      ∃ ts s2 rs s3, s1.targets s.who ⟨n, false, x.a, .none, 0, 0, .any, 0, true⟩ [0] = .ok (ts, s2) ∧
        s1.loggedPage ts = none ∧ s2.readyLanes s.who .load ts = .ok (rs, s3) ∧ s3.locate s.who ts = none ∧
        b = (s3.loadLanes s.who 0 n rs).1.flatMap (fun y => y.data) ∧ u.sys = (s3.loadLanes s.who 0 n rs).2.sys
    let malformed (b : List Byte) : Prop := (TlbDesc.ofBytes va b).malformed = true
    clears (.tlbinvAsid x) (fun a _ => a = (s.scalar x.a).setWidth 16) ∧ clears (.tlbinvAll x) (fun _ _ => True) ∧
    (va % 16 ≠ 0 → status (.tlbinvRange x) 1 fun t => t.sys = s1.sys) ∧
    (va % 32 ≠ 0 → status (.tlbinvSplinter x) 1 fun t => t.sys = s1.sys) ∧
    (∀ b u, va % 16 = 0 → read 16 b u →
      let d := TlbDesc.ofBytes va b
      (malformed b → status (.tlbinvRange x) 1 fun t => t.sys = u.sys) ∧
      (¬malformed b → clears (.tlbinvRange x) fun a v => a = d.asid ∧ d.vpn ≤ v ∧ v < d.vpn + d.count)) ∧
    ∀ b u, va % 32 = 0 → read 32 b u →
      let d := TlbDesc.ofBytes va b
      let inSpace : Prop := d.vpn < 2 ^ 41
      let leaf := u.sys.bigLeaf (d.vpn * 65536) 4 0 ((u.sys.ctxD d.asid).ptroot.toNat / 4096 % 2 ^ 30 * 4096)
      (malformed b → status (.tlbinvSplinter x) 1 fun t => t.sys = u.sys) ∧
      (¬malformed b → (leaf = none ∨ ¬inSpace → status (.tlbinvSplinter x) 4 fun t => t.sys = u.sys) ∧
        ∀ l, leaf = some l → inSpace →
          let n := if l.level = 2 then 16384 else 32
          let first := d.vpn / n * n
          let small : Prop := (l.level = 2 ∧ d.area % 4096 ≠ 0) ∨ Config.memTop < d.area + d.areaNeed l.level first
          (first + n < d.vpn + d.count → status (.tlbinvSplinter x) 2 fun t => t.sys = u.sys) ∧
          (d.vpn + d.count ≤ first + n → small → status (.tlbinvSplinter x) 3 fun t => t.sys = u.sys) ∧
          (d.vpn + d.count ≤ first + n → ¬small → status (.tlbinvSplinter x) 0 fun t =>
            t.sys.Forgets fun a v => a = d.asid ∧ d.vpn ≤ v ∧ v < d.vpn + d.count))) ∧
  ∀ (d : TlbDesc) (l : BigLeaf) (first u : Nat),
    let frame (e : Nat) := e / 2 ^ 8 % 2 ^ 34 * 256
    let e := d.unit l first u
    let named : Prop := d.vpn ≤ first + u ∧ first + u < d.vpn + d.count
    let old := frame l.pte + u * 65536
    let new := frame d.template + (first + u - d.vpn) * 65536
    e % 4 = 3 ∧ (¬named → frame e = old % 2 ^ 42 ∧ e / 4 % 16 = l.pte / 4 % 16) ∧
    (named → frame e = (if frame d.template = 0 then old else new) % 2 ^ 42 ∧ e / 4 % 16 = d.template / 4 % 16)

/-- R377, R378, R387: CTXSAVE and CTXLOAD complete with their status; a saved context is gone with its log entries, a loaded
one has the record's registers; a record that was written passes the checks and gives its registers back. The host's loads
do the same in order and report with an event. -/
def Claims.ContextRecords : Prop :=
  (∀ (x : Fun) (s : State), s.flows = true → s.gang.priv = true → s.gang.ej = none → x.d.isScalar = true →
    let status (i : Instr) (n : Nat) (p : Sys → Prop) : Prop :=
      ∃ t, exec i s = .next t ∧ s.WordReceived t x.d (BitVec.ofNat 64 n) ∧ s.WentOn t ∧ p t.sys
    (let c := s.capOf x.b
     let asid : Asid := (s.scalar x.a).setWidth 16
     let need (s : State) := 256 + 1024 * (s.sys.entriesOf asid).length
     let used := s.ctxInUse asid
     c.1.reservedCause = none → s.engineCheck c.1 c.2 ⟨[.linear], pWrite, 2⟩ = none → s.NoLoadWaits →
     s.host.deferred = [] → s.logBlocked (BitVec.allOnes 32) = false →
     (used = true → status (.ctxsave x) (1 + need s * 2 ^ 32) fun y => y = s.sys) ∧
     (used = false → s.sys.ctx asid = none → status (.ctxsave x) (2 + need s * 2 ^ 32) fun y => y = s.sys) ∧
     let v := (s.release s.who 5).invalidate s.who fun a _ => a = asid
     ∀ k, used = false → s.sys.ctx asid = some k →
       (c.1.len < need v → status (.ctxsave x) (3 + need v * 2 ^ 32) fun y => y = s.sys) ∧
       ∀ u, need v ≤ c.1.len → v.systemWrite c.1 (k.record (v.sys.entriesOf asid)) = .ok u →
         status (.ctxsave x) (need v * 2 ^ 32) fun y => y.ctx asid = none ∧ y.mem = u.sys.mem ∧
           (∀ a, a ≠ asid → y.ctx a = u.sys.ctx a) ∧ ∀ n, ∀ e ∈ (y.core n).log, e.asid ≠ asid) ∧
    let c := s.capOf x.a
    c.1.reservedCause = none → s.engineCheck c.1 c.2 ⟨[.linear], pRead, 1⟩ = none → ∀ b u, s.readRecord c.1 = .ok (b, u) →
      (b = none → status (.ctxload x) 4 fun y => y = u.sys) ∧
      ∀ r, b = some r → let asid := (Context.ofRecord r).asid
        ((u.sys.ctx asid).isSome = true → status (.ctxload x) 5 fun y => y = u.sys) ∧
        (u.sys.ctx asid = none → 64 ≤ u.sys.ctxs.length → status (.ctxload x) 6 fun y => y = u.sys) ∧
        ∀ v z, u.sys.ctx asid = none → u.sys.ctxs.length < 64 → u.install u.core r = .ok v →
          v.returnEntries (recordLog asid r) = ([], z) → status (.ctxload x) 0 fun y => y = z.sys) ∧
  (∀ (s : State) (core : Nat) (r : List Byte) (u : State), s.install core r = .ok u →
    s.sys.ctx (Context.ofRecord r).asid = none →
    let c := Context.ofRecord r
    (∃ k, u.sys.ctx c.asid = some { c with table := k }) ∧ (∀ a, a ≠ c.asid → u.sys.ctx a = s.sys.ctx a) ∧
    ∀ n, (u.sys.core n).ibuf = []) ∧
  (∀ (c : Context) (l : List LogEntry), l.length < 2 ^ 20 → (∀ e ∈ l, e.toBytes.length = 1024) →
    (c.ptroot &&& SysReg.mask .ptroot = c.ptroot ∧ c.privhw &&& SysReg.mask .privhw = c.privhw ∧
      c.caproots &&& SysReg.mask .caproots = c.caproots ∧ c.parkctl &&& SysReg.mask .parkctl = c.parkctl ∧
      c.parkquota &&& SysReg.mask .parkquota = c.parkquota ∧ c.trapvec &&& SysReg.mask .trapvec = c.trapvec) →
    let r := c.record l
    r.length = 256 + 1024 * l.length ∧ headOk (r.take 256) r.length = true ∧ digestOk r = true ∧
      recordEntries r = l.length ∧ Context.ofRecord r = { c with table := [] }) ∧
  ∀ (s : State) (port : Port) (value : Dword) (pa : Nat) (rest : List Nat),
    let done (status : Nat) (t : State) : Prop := exec .ctxdbLoadComplete s = .next (t.ctxdbDone pa status)
    (s.host.owner = ownerOf port → value.toNat % 4 = 1 →
      exec (.ctxdbLoad port value) s = .next { s with host :=
        { s.host with ctxdbReg := value &&& 0x3FFFFFFFF03, ctxdb := s.host.ctxdb ++ [value.toNat / 256 % 2 ^ 34 * 256] } }) ∧
    (s.host.owner = ownerOf port → value.toNat % 4 ≠ 1 →
      exec (.ctxdbLoad port value) s = .next { s with host := { s.host with ctxdbReg := value &&& 0x3FFFFFFFF03 } }) ∧
    (s.host.owner ≠ ownerOf port → exec (.ctxdbLoad port value) s = .next s) ∧
    let returns (v : State) (l : List LogEntry) : Prop := ∀ left z, v.returnEntries l = (left, z) →
      (left = [] → done 0 z) ∧
      (left ≠ [] → exec .ctxdbLoadComplete s = .next { z with host := { z.host with ctxdbRest := some left } })
    (s.host.ctxdb = [] → exec .ctxdbLoadComplete s = .next s) ∧
    (s.host.ctxdb = pa :: rest → ∀ l, s.host.ctxdbRest = some l → returns s l) ∧
    (s.host.ctxdb = pa :: rest → s.host.ctxdbRest = none →
      (s.hostRecord pa = none → done 4 s) ∧
      ∀ r, s.hostRecord pa = some r → let asid := (Context.ofRecord r).asid
        ((s.sys.ctx asid).isSome = true → done 5 s) ∧
        (s.sys.ctx asid = none → 64 ≤ s.sys.ctxs.length → done 6 s) ∧
        ∀ v, s.sys.ctx asid = none → s.sys.ctxs.length < 64 → s.install 0 r = .ok v → returns v (recordLog asid r))

/-- R377, R378, R387: a host's load of a good record completes with status 0 where a place is free, the logs have room and the
table of the context is found. -/
def Claims.HostLoads : Prop :=
  ∀ (s : State) (pa : Nat) (rest : List Nat) (r : List Byte), s.host.ctxdb = pa :: rest → s.host.ctxdbRest = none →
    s.hostRecord pa = some r →
    let c := Context.ofRecord r
    s.sys.ctx c.asid = none → s.sys.ctxs.length < 64 →
    (∀ k, (s.sys.core k).log.length + recordEntries r ≤ Config.sideLogEntries) →
    s.FindsAll { core := 0, engine := true, crew := 0, asid := c.asid, priv := true } .load (tableVa c.parkctl) 512 →
    ∃ t, exec .ctxdbLoadComplete s = .next t ∧ t.host.ctxdb = rest ∧
      ∃ k, t.sys.ctx c.asid = some { c with table := k }

/-- R377, R378, R387: contexts saved, loaded, and loaded by the host. -/
def Obligations.ContextRecords : Prop := Claims.ContextRecords ∧ Claims.HostLoads

/-! ### The device's own events (R35, R39-R42, R58, R99-R104, R316-R332) -/

/-- R35, R58, R319, R332: results in flight are delivered without a change of what is read; variable-latency results land; a
gang that waits longest gives its place to the first ready pending one; a rejoin wait expires. -/
def Obligations.GangEvents : Prop :=
  ∀ (s : State), s.Numbered →
    (∀ g, (s.findGang g).id = g → g ≠ 0 →
      let x := s.findGang g
      let only (i : Instr) (y : Gang) : Prop := ∃ t, exec i s = .next t ∧ t.findGang g = y ∧ t.sys = s.sys ∧
        t.crew = s.crew ∧ t.ops = s.ops ∧ ∀ k, k ≠ g → t.findGang k = s.findGang k
      only (.fixedResultDelivery g) { x with shadows := pruneShadows s.clock x.shadows } ∧
      (∃ t, exec (.variableResultLands g) s = .next t ∧ t.sys = s.sys ∧ t.crew = s.crew ∧ t.ops = s.ops ∧ ∀ k,
        let y := s.findGang k
        let y := if (y.ej.any fun e => e.parent = g) = true then
          { y with ej := y.ej.map fun (e : Ejection) => { e with marks := [] } } else y
        t.findGang k = if k = g then { y with marks := [], quick := [] } else y) ∧
      ((∀ f ∈ x.shadows, f.due ≤ s.clock) → pruneShadows s.clock x.shadows = []) ∧
      (s.gang.id = g → ∀ t, exec (.fixedResultDelivery g) s = .next t → (∀ i n, t.readV i n = s.readV i n) ∧
        (∀ n, t.readS n = s.readS n ∧ t.readTag n = s.readTag n ∧ t.readG n = s.readG n) ∧
        ∀ n i, t.readPBit n i = s.readPBit n i) ∧
      ∀ grp, ∃ t, exec (.rejoinwaitExpiry g grp) s = .next t ∧ t.findGang g = { x with groups := (t.findGang g).groups } ∧
        (t.findGang g).groups.length = x.groups.length ∧
        ∀ (k : Nat) (r : Group), x.groups[k]? = some r → ∃ e : Bool, (t.findGang g).groups[k]? = some { r with expired := e } ∧
          (e = true ↔ r.expired = true ∨ (k = grp ∧ ∃ c, r.expires = some c ∧ c ≤ s.clock))) ∧
    ∀ slot,
      (∀ out new, s.longestWaiting (slot / 4) (slot % 4) = some out → s.firstReady (slot / 4) (slot % 4) = some new →
        out.id ≠ new.id → ∃ t, exec (.gangSwap slot) s = .next t ∧ t.sys = s.sys ∧
          t.findGang out.id = { out with active := false, arrival := (t.findGang out.id).arrival } ∧
          (∀ x ∈ s.slotGangs (slot / 4) (slot % 4), x.arrival < (t.findGang out.id).arrival) ∧
          t.findGang new.id = { new with active := true, nextIssue := max new.nextIssue (s.clock + 2) } ∧
          ∀ k, k ≠ out.id → k ≠ new.id → t.findGang k = s.findGang k) ∧
      (s.longestWaiting (slot / 4) (slot % 4) = none ∨ s.firstReady (slot / 4) (slot % 4) = none →
        exec (.gangSwap slot) s = .next s)

/-- R80, R309, R316, R318, R319, R321: once every result of earlier instructions has landed, the hand-over takes the live
registers to the marionette and writes the core's dirty bytes back; the hand-back brings them home with the strand's predicates,
flags and PC, past results in flight, and the strand waits only at a JOIN while its group is open; while its gang is in the
handler its p4-p6 go to the gang's own copies, which RFT restores (R360, R362); a cause it raised traps its gang. -/
def Claims.HandOvers : Prop :=
  ∀ (g : Nat) (s : State) (e : Ejection), s.Numbered → (s.findGang g).id = g → g ≠ 0 → (s.findGang g).ej = some e →
    e.strand < 32 → (s.findGang e.parent).id = e.parent → e.parent ≠ 0 → e.parent ≠ g →
    let x := s.findGang g
    let p := s.findGang e.parent
    let here := x.strand e.strand
    let c := s.findCrew x.crewId
    let core := c.core
    let back := (s.l1Acquire { core := core, crew := c.id, asid := c.asid, priv := x.priv }).focus e.parent
    let live (r : Nat) : Prop := ∃ a b, e.live = some (a, b) ∧ a ≤ r ∧ r ≤ b ∧ r < 128
    (here.st = .out → e.awaits = [] → s.liveOwed e = false → e.lands ≤ s.clock → e.marks = [] →
      ∃ t, exec (.handoverOutComplete g) s = .next t ∧ s.KeptMemory t (fun _ => False) ∧
        (∀ l ∈ (t.sys.core core).l1, l.dirty = 0) ∧
        let st := if here.pc = e.rejoin then StrandState.back else .ej
        (t.findGang g).strand e.strand = { here with st := st } ∧
        (t.findGang e.parent).strand e.strand = { p.strand e.strand with st := st } ∧
        (∀ r, r < 128 → (live r → (t.findGang g).v.get 0 (e.strand * 128 + r) = p.v.get 0 (e.strand * 128 + r)) ∧
          (¬live r → (t.findGang g).v.get 0 (e.strand * 128 + r) = x.v.get 0 (e.strand * 128 + r)))) ∧
    (here.st ≠ .out ∨ e.awaits ≠ [] ∨ s.liveOwed e = true ∨ s.clock < e.lands ∨ e.marks ≠ [] →
      exec (.handoverOutComplete g) s = .next s) ∧
    (here.st ≠ .back ∨ s.handbackReady e = false → exec (.handbackComplete g) s = .next s) ∧
    (here.st = .back → s.handbackReady e = true → ∃ t, exec (.handbackComplete g) s = .next t ∧ (t.findGang g).id ≠ g ∧
      (e.cause = none → s.KeptMemory t (fun _ => False) ∧
        let q := t.findGang e.parent
        q.id = e.parent ∧ q.fpstat = p.fpstat ||| x.fpstat ∧
        (∀ r, r < 128 → (live r → q.v.get 0 (e.strand * 128 + r) = x.v.get 0 (e.strand * 128 + r)) ∧
          (¬live r → q.v.get 0 (e.strand * 128 + r) = p.v.get 0 (e.strand * 128 + r))) ∧
        (∀ n i, n < 7 → i < 32 → (q.p.get 0 n).getLsbD i =
          if i = e.strand ∧ (n < 4 ∨ p.handler = none) then (x.p.get 0 n).getLsbD i else (p.p.get 0 n).getLsbD i) ∧
        (∀ b, p.handler = some b → ∃ k, q.handler = some k ∧ ∀ n i, 4 ≤ n → n < 7 → i < 32 → (k.p.get 0 n).getLsbD i =
          if i = e.strand then (x.p.get 0 n).getLsbD i else (b.p.get 0 n).getLsbD i) ∧
        q.rnd.get 0 e.strand = x.rnd.get 0 e.strand ∧ q.s = p.s ∧ q.groups = p.groups ∧
        (∀ r, live r → ∀ f ∈ q.shadows, ∀ m old, f.old = .v r m old → m.getLsbD e.strand = false) ∧
        (q.strand e.strand).pc = here.pc ∧ (q.strand e.strand).age = 0 ∧
        ((q.strand e.strand).st = .waitj ↔ back.joinAt here.pc = true ∧
          ∃ r ∈ p.groups, r.rejoin = e.rejoin ∧ r.members.getLsbD e.strand = true) ∧
        ((q.strand e.strand).st = .waitj ∨ (q.strand e.strand).st = .ready)) ∧
      ∀ cause info pc, e.cause = some (cause, info, pc) → p.handler = none → p.suspended = .no → p.ej = none →
        t.gang.id = e.parent ∧ t.gang.trapCause = 1#1 ++ cause ∧ t.gang.trapInfo = info ∧
        t.gang.trapPc = pc &&& 0x01FFFFFFFFFFFFFF ∧ t.gang.trapRun = 1 <<< e.strand)

/-- R80, R309, R316, R321-R324: strands that end or yield, and strands that go to a marionette and come back. -/
def Obligations.ExitsAndHandOvers : Prop := Claims.StrandEnds ∧ Claims.HandOvers

/-- R39-R41, R63, R99, R100, R104: the line a gang would issue from arrives with good parity, at the second try after a soft
error, or the gang traps; a walk fills the translation or sends a fault; a logged store is replayed when its page
translates and leaves the log. -/
def Claims.LinesAndReplays : Prop :=
  (∀ (g : Nat) (n1 n2 : BitVec 512) (s : State) (pc : Pc) (run : Mask) (held : Bool),
    let t := s.focus g
    let u : State := { t.unhold.settle with run := run, ipc := pc }
    t.nextIssue = some (pc, run, held) →
    ((t.heldLine pc).isSome = true → exec (.lineFetch g n1 n2) s = .next s) ∧
    (t.heldLine pc = none → Config.ownBase ≤ pcLine pc → exec (.lineFetch g n1 n2) s = .next (u.trap cWindow pc)) ∧
    (t.heldLine pc = none → pcLine pc < Config.ownBase → ∀ l v,
      u.leaf { u.who with engine := true } .fetch (pcLine pc) = .ok (l, v) →
      let line : CodeLine := BitVec.ofNat 512 (fromBytes (v.homeRead l (pcLine pc) 64))
      let errors (w : State) := (w.sys.core w.core).softerr
      let arrives (line : CodeLine) (soft : Dword) : Prop := v.unlabelled line = none →
        ∃ w, exec (.lineFetch g n1 n2) s = .next w ∧ w.heldLine pc = some line ∧ errors w = errors v + soft ∧
          w.gang.hold = none ∧ w.sys.mem = v.sys.mem
      (parityOk (line ^^^ n1) = true → arrives (line ^^^ n1) 0) ∧
      (parityOk (line ^^^ n1) = false → parityOk (line ^^^ n2) = true → arrives (line ^^^ n2) 1) ∧
      (parityOk (line ^^^ n1) = false → parityOk (line ^^^ n2) = false →
        exec (.lineFetch g n1 n2) s = .next (v.trap 0x07 (BitVec.ofNat 64 (pcLine pc)))))) ∧
  (∀ (asid : Asid) (va : Dword) (acc : Access) (isPriv : Bool) (s : State),
    let walk := s.sys.walkFill asid va.toNat acc isPriv
    ((s.sys.ctx asid).isNone = true ∨ (s.sys.mtlbFind asid va.toNat).isSome = true →
      exec (.mtlbWalk asid va acc isPriv) s = .next s) ∧
    ((s.sys.ctx asid).isSome = true → s.sys.mtlbFind asid va.toNat = none →
      (∀ l y, walk = .ok (l, y) → exec (.mtlbWalk asid va acc isPriv) s = .next { s with sys := y } ∧
        (y.mtlbFind asid va.toNat).map (fun t => t.leaf va.toNat) = some l) ∧
      ∀ f, walk = .error f → ∃ t, exec (.mtlbWalk asid va acc isPriv) s = .next t ∧ t.sys.mtlb = s.sys.mtlb ∧
        (f.refused = true → t.sys.faults = s.sys.faults) ∧
        (f.refused = false → ∃ r ∈ t.sys.faults, r.asid = asid ∧ r.page = va.toNat / 65536 ∧ Waiter.device ∈ r.waiters))) ∧
  ∀ (core : Nat) (s : State),
    (s.replayable core = none → exec (.sidelogReplay core) s = .next s) ∧
    ∀ e, s.replayable core = some e → s.NoLoadWaits →
      let log (y : Sys) := (y.core core).log
      let again (va : Nat) : Prop := ∃ t, exec (.sidelogReplay core) s = .next t ∧
        log t.sys = (log s.sys).map (fun x => if x = e then { x with page := va / 65536 } else x) ∧
        ∃ f ∈ t.sys.faults, f.asid = e.asid ∧ f.page = va / 65536
      (∀ va acc f, s.replayLeaves e e.lanes = .error (.fault va acc f) → f.ofStore.refused = false → again va) ∧
      ∀ l u, s.replayLeaves e e.lanes = .ok (l, u) →
        (∀ va, u.replayBad e l = some va → again va) ∧
        (s.sys.bad = [] → s.host.deferred = [] → ∃ t, exec (.sidelogReplay core) s = .next t ∧ log t.sys = (log s.sys).erase e ∧
          ∀ x va leaf, l = [(x, [(va, x.data.length, leaf)])] → e.op = none → e.rset = 0 → isMemory (leaf.addr va) = true →
            va % 128 + x.data.length ≤ 128 →
            ∀ i, i < x.data.length → some (t.sys.byte (leaf.addr va + i)) = x.data[i]?)

/-- R107: a load that needs the bytes of a line with an uncorrectable error, which no cache holds, traps with MEM_UNCORRECTABLE,
whose record goes to the driver. A dirty L1 line is written back, one to such a line into the side log, even a full one (log
51). -/
def Claims.MemoryErrors : Prop :=
  (∀ (x : MemOp) (s s1 u : State) (i va : Nat) (l : Leaf), s.flows = true →
    let n := x.size.bytes
    let m := memAddr x n pRead .any (orderAlign x.order n)
    s.targets s.who m (s.lanes x.d.isScalar x.hdr) = .ok ([(i, .memory [(va, n)])], s1) → va % 128 + n ≤ 128 →
    s.loggedPage [(i, .memory [(va, n)])] = none → s1.page s.who .load va = .ok (l, u) → moduleLine (l.addr va) ∈ s1.sys.bad →
    (s1.sys.entry s.who.asid (va / 128)).held = false →
    (s.who.noL1 = true ∨ ∀ c, s1.sys.l1Find s.who.core s.who.asid (va / 128) = some c →
      byteMask (va % 128) n &&& ~~~c.valid ≠ 0) →
    exec (.ld x) s = .next ((s1.recordFault va s1.crew.asid .load (.memError true) s1.core).trap 0x28
      (BitVec.ofNat 64 (va / 128 * 128)))) ∧
  ∀ (s : State) (w : Who) (l : L1Line), l.dirty ≠ 0 → l.line < 2 ^ 57 →
    let bad : Prop := moduleLine l.pa ∈ s.sys.bad ∧ (s.sys.entry l.asid l.line).held = false
    (¬bad → ∀ i, i < 128 → l.dirty.getLsbD i = true → (s.writeBack w l).sys.byte (l.pa + i) = lineByte l.data i) ∧
    (bad → s.SameMemory (s.writeBack w l) ∧
      ∃ e, ((s.writeBack w l).sys.core w.core).log = (s.sys.core w.core).log ++ [e] ∧ e.asid = l.asid ∧
        ∀ i, i < 128 → l.dirty.getLsbD i = true → ∃ y ∈ e.lanes, y.va.toNat ≤ l.line * 128 + i ∧
          y.data[l.line * 128 + i - y.va.toNat]? = some (lineByte l.data i))

/-- R39-R41, R63, R99, R100, R104, R107: instruction lines arrive or trap, walks fill or fault, logged stores replay, and
what an uncorrectable error of the memory does. -/
def Obligations.LinesAndLogs : Prop := Claims.LinesAndReplays ∧ Claims.MemoryErrors

/-! ### Launches (R327-R330, R337-R340, R353, R385) -/

/-- R327, R385: a launch record is accepted with the lowest free launch id and an event of KIND 3, or refused with one of KIND
4 that names its lowest offending byte or 0xFF; a byte that offends comes before the want of an id (the model's reading, log 31).
It is sound exactly when its fields keep their limits. -/
def Claims.LaunchRecords : Prop :=
  (∀ (value : Dword) (s : State),
    let tag : BitVec 16 := value.extractLsb' 48 16
    let n := s.sys.num (value.toNat / 128 % 2 ^ 35 * 128) 128
    let run := exec (.launchDoorbell value) s
    let s : State := { s with host := { s.host with launchdb := value &&& 0xFFFF03FFFFFFFF80 } }
    (s.host.bootHalted = true → run = .next s) ∧
    (s.host.bootHalted = false →
      (∀ lid, launchOffends n = [] → lid < 255 → (∀ l ∈ s.launches, l.lid ≠ lid) →
        (∀ k, k < lid → ∃ l ∈ s.launches, l.lid = k) →
        let r := LaunchRec.ofNat n
        let l : Launch := ⟨lid, tag, s.host.nextSeq, r, r.cls, 0, 0, 0⟩
        let host := { s.host with nextSeq := s.host.nextSeq + 1 }
        run = .next (({ s with launches := s.launches ++ [l], host := host } : State).event
          { kind := 3, value := BitVec.ofNat 64 (tag.toNat + lid * 2 ^ 16) })) ∧
      (∀ b, (b ∈ launchOffends n ∧ ∀ c ∈ launchOffends n, b ≤ c) ∨
          (launchOffends n = [] ∧ b = 0xFF ∧ ∀ k, k < 255 → ∃ l ∈ s.launches, l.lid = k) →
        ∃ v : Dword, v.extractLsb' 0 16 = tag ∧ v.toNat < 2 ^ 24 ∧
          run = .next (({ s with freeCtr := s.freeCtr + 1 } : State).event
            { kind := 4, info := BitVec.ofNat 64 b, value := v })))) ∧
  ∀ n : Nat,
    let f (i k : Nat) := n / 2 ^ (8 * i) % 2 ^ (8 * k)
    let ones (i k : Nat) := ((List.range (8 * k)).filter fun j => (f i k).testBit j).length
    launchOffends n = [] ↔
      (f 0 8 < 2 ^ 57 ∧ f 0 8 % 64 = 0) ∧ (f 8 8 < 2 ^ 57 ∧ f 8 8 % 512 = 0) ∧ (ones 16 16 ≤ 32 ∧ f 16 16 < 2 ^ f 64 1) ∧
      ones 32 8 ≤ 16 ∧ f 40 6 ≠ 0 ∧ (0 < f 48 4 ∧ f 48 4 < 2 ^ 24) ∧ (f 52 4 % 128 = 0 ∧ f 52 4 ≤ 262144) ∧
      (0 < f 56 2 ∧ f 56 2 ≤ 32 * f 62 1) ∧ f 58 2 + f 60 2 ≤ 1024 ∧ (0 < f 62 1 ∧ f 62 1 ≤ 32) ∧
      (0 < f 63 1 ∧ f 63 1 ≤ 16) ∧ (f 64 1 % 8 = 0 ∧ 0 < f 64 1 ∧ f 64 1 ≤ 128) ∧ f 65 1 ≤ 8 ∧ f 66 1 ≤ 96 ∧
      (f 68 8 < 2 ^ 57 ∧ f 68 8 % 4096 = 0) ∧ f 76 52 = 0

/-- R75, R309, R327-R330, R339: a cohort is placed whole, its gangs READY at ENTRY with their first registers, which are 0 where the
spec gives none (log 2); the event of a launch that is not the next changes nothing (log 32); a victim leaves with what its crew
record holds, and comes back with its carried registers, scratch and PC table. -/
def Claims.Placement : Prop :=
  (∀ (lid : Nat) (s : State),
    (∀ l t0, s.nextPlacement = some (l, t0) → l.lid = lid → l.r.gangs ≤ 32 → s.crew.id < s.nextCrew →
      s.gang.id < s.nextCrew * 1056 → ∃ t, exec (.cohortPlacement lid) s = .next t ∧
        t.launches = s.launches.map (fun k => if k.lid = lid then k.placedOne else k) ∧
        ∃ cluster, l.r.clmask.getLsbD cluster = true ∧ ∀ j, j < l.r.crews →
          let c := t.findCrew (s.nextCrew + j)
          c.id = s.nextCrew + j ∧ c.core / 4 = cluster ∧ c.lid = lid ∧ c.idx = j ∧ c.cohort = l.placed ∧
          c.number = l.placed * l.r.crews + j ∧ c.asid = l.r.asid ∧ c.scratch = [] ∧ c.ended = .running ∧
          c.priv = l.r.priv ∧ c.ejectMax = 4 ∧ c.rejoinWait = 4096 ∧ c.ageMax = 64 ∧ c.qwaitMax = 65536 ∧
          (∀ b, b < l.r.nbar → c.barriers.get {} b = ⟨l.r.gangs, 0, false⟩) ∧
          ∀ i, i < l.r.gangs →
            let g := t.findGang (((s.nextCrew + j) * 32 + i) * 33)
            g.crewId = c.id ∧ g.idx = i ∧ g.priv = l.r.priv ∧ g.handler = none ∧ g.hold = none ∧ g.fpstat = 0 ∧ g.v = [] ∧
            g.s = [] ∧ g.p = [] ∧ g.urnd = 0x9E3779B9 ^^^ BitVec.ofNat 32 (0x400 + i) ∧
            ∀ k, k < 32 → g.rnd.get 0 k = 0x9E3779B9 ^^^ BitVec.ofNat 32 (32 * i + k) ∧
              g.strand k = if 32 * i + k < l.r.strands then { pc := l.r.entry, age := 0, st := .ready } else {}) ∧
    ((∀ l t0, s.nextPlacement = some (l, t0) → l.lid ≠ lid) → exec (.cohortPlacement lid) s = .next s)) ∧
  (∀ (lid : Nat) (s : State) (l : Launch), (s.waitingLaunches.find? fun l => l.lid = lid) = some l →
    ((s.placeCohort l).isSome = true ∨ s.makeRoom l (s.victims l) = none → exec (.preemption lid) s = .next s) ∧
    (∀ v ∈ s.victims l, v.effCls < l.effCls ∧ l.r.clmask.getLsbD (v.core / 4) = true ∧ v ∈ s.allCrews ∧
      ∀ g ∈ s.gangsOf v.id, g.live ≠ 0 → g.ej = none ∧ g.handler = none ∧ g.blockedPop ≠ none) ∧
    ∀ v t, s.placeCohort l = none → s.victims l = [v] → s.makeRoom l [v] = some t → s.Numbered → v.id ≠ 0 →
      exec (.preemption lid) s = .next t ∧ (t.findCrew v.id).id ≠ v.id ∧ (∀ g ∈ t.allGangs, g.crewId ≠ v.id) ∧
      ∃ gs, t.saved = s.saved ++ [⟨v, gs⟩] ∧ gs.map (fun g => g.id) = (s.gangsOf v.id).map (fun g => g.id) ∧
        ∀ g ∈ s.gangsOf v.id, ∃ k ∈ gs, k.id = g.id ∧ k.strands = g.strands ∧ k.rnd = g.rnd ∧ k.urnd = g.urnd ∧ k.g = g.g ∧
          k.fpstat = g.fpstat ∧ k.smask = g.smask ∧ k.spass = g.spass ∧
          (∀ n, v.carryV.getLsbD (n % 128) = true → k.v.get 0 n = g.v.get 0 n) ∧
          ∀ n, v.carryS.getLsbD n = true → k.s.get 0 n = g.s.get 0 n) ∧
  ∀ (crew : Nat) (s : State) (p : SavedCrew) (core base : Nat),
    (s.saved.find? fun p => p.crew.id = crew && p.crew.ended = .running) = some p →
    (s.coreFor (p.crew.core / 4) p.crew.idx p.crew.need = none → exec (.crewResume crew) s = .next s) ∧
    (s.coreFor (p.crew.core / 4) p.crew.idx p.crew.need = some (core, base) → crew ≠ 0 → s.crew.id ≠ crew →
      (∀ g ∈ p.gangs, g.id ≠ s.gang.id ∧ g.id ≠ 0) → (p.gangs.map fun g => g.id).Nodup →
      ∃ t, exec (.crewResume crew) s = .next t ∧ t.findCrew crew = { p.crew with core := core, scratchBase := base } ∧
        (∀ q ∈ t.saved, q.crew.id ≠ crew) ∧ ∀ g ∈ p.gangs,
          let k := t.findGang g.id
          k.strands = g.strands ∧ k.rnd = g.rnd ∧ k.urnd = g.urnd ∧ k.g = g.g ∧ k.fpstat = g.fpstat ∧ k.smask = g.smask ∧
          k.hold = g.hold ∧ k.stags = g.stags ∧
          (∀ n, n < 4096 → p.crew.carryV.getLsbD (n % 128) = true → k.v.get 0 n = g.v.get 0 n) ∧
          ∀ n, n < 64 → p.crew.carryS.getLsbD n = true → k.s.get 0 n = g.s.get 0 n)

/-- R328-R330, R337-R340: the one waiting cohort of one crew is placed where a core of its clusters is free; where every core
of its cluster is too full, the blocked crew of lower class on one of them makes room; a pre-empted crew comes back to a free
cluster. -/
def Claims.PlacesTaken : Prop :=
  (∀ (s : State) (l : Launch) (k : Nat), s.launches = [l] → l.placed < l.r.cohorts → l.effCls ≤ 3 → l.r.crews = 1 →
    (s.sys.ctx l.r.asid).isSome = true → l.r.clmask.getLsbD k = true → k < 48 →
    l.r.gangs ≤ 32 → l.r.vregs ≤ 128 → l.r.scratch ≤ 262144 → l.r.nbar ≤ 96 → l.r.qshare ≤ 8 →
    ((∀ c ∈ s.allCrews, c.core ≠ 4 * k) →
      ∃ t, exec (.cohortPlacement l.lid) s = .next t ∧ t.launches = [l.placedOne]) ∧
    ∀ c ∈ s.allCrews, (∀ j, j < 48 → l.r.clmask.getLsbD j = true → j = k) → c.core / 4 = k → c.effCls < l.effCls →
      (s.preemptible c).isSome = true → (∀ d ∈ s.allCrews, d.core / 4 = k → d ≠ c → d.core ≠ c.core ∧ l.effCls ≤ d.effCls) →
      (∀ j, j < 4 → ∃ d ∈ s.allCrews, d.core = 4 * k + j ∧ 4096 < d.gangs * d.vregs + l.r.gangs * l.r.vregs) → s.Numbered →
      ∃ t, exec (.preemption l.lid) s = .next t ∧ (t.findCrew c.id).id ≠ c.id ∧ ∃ p ∈ t.saved, p.crew = c) ∧
  ∀ (crew : Nat) (s : State) (p : SavedCrew),
    (s.saved.find? fun p => p.crew.id = crew && p.crew.ended = .running) = some p → crew ≠ 0 → s.crew.id ≠ crew →
    (∀ g ∈ p.gangs, g.id ≠ s.gang.id ∧ g.id ≠ 0) → (∀ c ∈ s.allCrews, c.core / 4 ≠ p.crew.core / 4) →
    p.crew.gangs ≤ 32 → p.crew.vregs ≤ 128 → p.crew.scratchSize ≤ 262144 → p.crew.nbar ≤ 96 → p.crew.qshare ≤ 8 →
    ∃ t, exec (.crewResume crew) s = .next t ∧ (∀ q ∈ t.saved, q.crew.id ≠ crew) ∧
      t.findCrew crew = { p.crew with core := p.crew.core / 4 * 4 + p.crew.idx % 4, scratchBase := 0 }

/-- R75, R327-R330, R334-R340: effective classes, placement, pre-emption and resumption. Registers that are 0 at allocation (log 2),
lending by pre-empted crews (log 30) and the event of a launch that is not the next (log 32) are the model's. -/
def Obligations.PlacementAndBoosts : Prop := Claims.Boosts ∧ Claims.Placement ∧ Claims.PlacesTaken

/-- R184, R353, R385: a crew whose strands are all DONE and of which nothing is pending retires with its exit record and its
places are free; the launch ends with KIND 5 once every exit record is written or dropped. The release at system scope before it
(log 36), the device's privilege in writing it (log 34) and its DISCARD of 0 (log 53) are the model's readings. -/
def Claims.Retirement : Prop :=
  (∀ (crew : Nat) (s : State) (c : Crew), (s.allCrews.find? fun c => c.id = crew) = some c → s.Numbered →
    (s.mayRetire c = false → exec (.crewRetire crew) s = .next s) ∧
    (s.mayRetire c = true →
      let v := (s.release { core := c.core, crew := crew, asid := c.asid, priv := c.priv } 6).vacate c
      let w : Who := { core := c.core, engine := true, crew := 0, asid := c.asid, priv := true }
      let va := (c.exitRec + BitVec.ofNat 64 (512 * c.number)).toNat
      ∃ t, exec (.crewRetire crew) s = .next t ∧ (t.findCrew crew).id ≠ crew ∧ (∀ g ∈ t.allGangs, g.crewId ≠ crew) ∧
        t.ops = s.ops ∧
        ∀ u, v.recordWrite w va (exitBytes c (s.gangsOf crew)) = .ok u →
          (∃ l ∈ s.launches, l.lid = c.lid ∧ 1 < l.live) → (s.launches.map fun l => l.lid).Nodup →
          t.sys = u.sys ∧ t.launches = s.launches.map fun l =>
            if l.lid = c.lid then { l with live := l.live - 1, exitsDue := l.exitsDue - 1 } else l)) ∧
  (∀ (s : State) (lid : Nat) (l : Launch), (s.launches.find? fun l => l.lid = lid) = some l →
    (l.placed = l.r.cohorts → l.live = 0 → l.exitsDue = 0 →
      s.endLaunch lid = ({ s with launches := s.launches.filter fun l => l.lid ≠ lid } : State).event
        { kind := 5, value := BitVec.ofNat 64 (l.tag.toNat + lid % 256 * 2 ^ 16) }) ∧
    (l.placed ≠ l.r.cohorts ∨ l.live ≠ 0 ∨ l.exitsDue ≠ 0 → s.endLaunch lid = s)) ∧
  ∀ (c : Crew) (gs : List Gang),
    let b := exitBytes c gs
    let f (i k : Nat) := fromBytes ((b.drop i).take k)
    b.length = 512 ∧ f 0 4 = (match c.ended with | .killed _ => 1 | .retq => 2 | _ => 0) ∧
    f 4 4 = (match c.ended with | .killed k => k.toNat | _ => 0) ∧ f 8 8 = c.locates.toNat ∧ f 16 8 = c.demotes.toNat ∧
    f 24 8 = 0 ∧ (c.cohort < 2 ^ 24 → c.idx < 16 → f 32 4 = c.cohort + c.idx * 2 ^ 24) ∧ f 36 28 = 0 ∧ f 320 192 = 0 ∧
    ∀ g ∈ gs, g.ej = none → g.idx < 32 → (∀ h ∈ gs, h.ej = none → h.idx = g.idx → h = g) → f (64 + 8 * g.idx) 8 = g.smask.toNat

/-- R184, R327, R353, R385: what makes a launch record sound, and how crews and launches end. The model's readings in it: an
offending byte before the want of an id (log 31), the exit record written with device privilege (log 34) after a release at system
scope (log 36), its DISCARD starting at 0 (log 53). -/
def Obligations.LaunchesAndRetirement : Prop := Claims.LaunchRecords ∧ Claims.Retirement

/-! ### The host, the links, the network, resets (R96, R291, R305-R307, R380-R391) -/

/-- R96, R305-R307, R388: a host's write, or a peer's whose port's table lets it reach the frames, lands in memory, clears the
tags it covers, leaves no cache beyond the L1s with the line and touches no ordinary L1 line; a read returns the bytes at the
home; a byte nothing has written reads as 0 by the model's choice (log 1). A peer's access that the table denies is refused on
the link. An address outside device memory does not exist: the access stops. -/
def Obligations.HostMemory : Prop :=
  ∀ (port pa n : Nat) (data : List Byte) (s : State),
    let here (a : Nat) : Prop := pa ≤ a ∧ a < pa + data.length
    let denied (n : Nat) : Prop := ∃ a, pa ≤ a ∧ a < pa + n ∧ port * 2 ^ 32 + a / 65536 ∈ s.sys.portDenied
    let writes (i : Instr) : Prop :=
      (pa + data.length ≤ Config.memTop → ∃ t, exec i s = .next t ∧ t = { s with sys := t.sys } ∧
        (∀ a, here a → some (t.sys.byte a) = data[a - pa]?) ∧ (∀ a, ¬here a → t.sys.byte a = s.sys.byte a) ∧
        (∀ a, t.sys.tag a = true ↔ s.sys.tag a = true ∧ ∀ b, here b → b / 16 ≠ a / 16) ∧
        (∀ c, (t.sys.core c).l1 = (s.sys.core c).l1 ∧ (t.sys.core c).ibuf = (s.sys.core c).ibuf) ∧
        t.sys.mtlb = s.sys.mtlb ∧ t.sys.ctxs = s.sys.ctxs ∧ t.sys.peerMem = s.sys.peerMem ∧
        ∀ a, here a → ∀ e ∈ t.sys.dir, e.2.pa = a / 128 * 128 → e.2.held = false) ∧
      (Config.memTop < pa + data.length → exec i s = .fault (.noSuchAddress pa))
    let reads (i : Instr) : Prop :=
      (pa + n ≤ Config.memTop → ∃ b : List Byte, exec i s = .next { s with host := { s.host with lastRead := b } } ∧
        b.length = n ∧ ∀ k, k < n → b[k]? = some (s.sys.byte (pa + k))) ∧
      (Config.memTop < pa + n → exec i s = .fault (.noSuchAddress pa))
    writes (.hostMemWrite pa data) ∧ reads (.hostMemRead pa n) ∧
    (¬denied data.length → writes (.peerMemWrite ⟨port, pa⟩ data)) ∧ (¬denied n → reads (.peerMemRead ⟨port, pa⟩ n)) ∧
    (denied data.length → exec (.peerMemWrite ⟨port, pa⟩ data) s = .next s) ∧
    (denied n → exec (.peerMemRead ⟨port, pa⟩ n) s = .next s)

/-- R4, R381, R382: HSEM is granted while it is free and freed by its owner; PEERMAP keeps its fields, written by the owner
alone, and so is the firmware-update mailbox, which keeps what is written (log 12). GANGCTL keeps its fields; a register that is
not there keeps nothing. A host's read of BAR0 shows HSEM, the heads and
tails of the rings, and those of a queue. -/
def Claims.HostRegisters : Prop :=
  ∀ (port : Port) (value : Dword) (k : Nat) (s : State),
    let up : Prop := s.host.linkUp port = true
    let mine : Prop := s.host.owner = ownerOf port
    let set (h : HostSide) : Out := .next { s with host := h }
    let kept (b : Nat) : Bool := decide (b < 10 ∨ b = 15 ∨ (30 ≤ b ∧ b < 57))
    (up → s.host.owner = 0 →
      exec (.hsemClaim port) s = set { s.host with owner := ownerOf port, gen := s.host.gen + 1 }) ∧
    (¬up ∨ s.host.owner ≠ 0 → exec (.hsemClaim port) s = .next s) ∧
    (up → mine → exec (.hsemRelease port) s = set { s.host with owner := 0 }) ∧
    (¬up ∨ ¬mine → exec (.hsemRelease port) s = .next s) ∧
    (up → mine → k < 15 → ∃ m, exec (.bar0RegisterWrite port (.peermap k) value) s = set { s.host with peermap := m } ∧
      (∀ b, (m.get 0 k).getLsbD b = (value.getLsbD b && kept b)) ∧ ∀ j, j ≠ k → m.get 0 j = s.host.peermap.get 0 j) ∧
    (¬up ∨ ¬mine ∨ 15 ≤ k → exec (.bar0RegisterWrite port (.peermap k) value) s = .next s) ∧
    (∃ v : Dword, exec (.bar0RegisterWrite port .gangctlIgnored value) s = set { s.host with gangctl := v } ∧
      ∀ b, b < 64 → v.getLsbD b = (value.getLsbD b && decide (b < 53 ∨ b = 54 ∨ b = 55))) ∧
    (up → mine → exec (.bar0RegisterWrite port .firmwareUpdate value) s = set { s.host with fwMailbox := value }) ∧
    (¬up ∨ ¬mine → exec (.bar0RegisterWrite port .firmwareUpdate value) s = .next s) ∧
    exec (.bar0RegisterWrite port (.unassigned k) value) s = .next s ∧
    ∀ off n rest, s.gang.pair = false → s.fuse = 0 → s.turns = .barRead off n :: rest →
      ∃ b : List Byte, step s = .next { s with turns := rest, host := { s.host with lastRead := b } } ∧ b.length = n ∧
        let shows (at' hi lo k : Nat) : Prop := off = at' → n = 8 → fromBytes b = hi * 2 ^ k + lo
        shows 0x00 s.host.gen.toNat s.host.owner.toNat 16 ∧ shows 0x30 s.host.faultTail.toNat s.host.faultHead.toNat 32 ∧
        shows 0x38 s.host.eventTail.toNat s.host.eventHead.toNat 32 ∧
        ∀ q, q < 768 → shows (0x10000 + 16 * q + 8) (s.queue q).tail.toNat (s.queue q).head.toNat 32

/-- R384: a write of a ring's head or of its register lets the device write the records that wait, in order, while TAIL - HEAD
is below 2^LOG; a ring whose LOG is not 6 to 16 keeps them waiting. -/
def Claims.DriverRings : Prop :=
  ∀ (head : Word) (value : Dword) (s : State),
    let drained (i : Instr) (reg : Dword) (head tail : Word) (wait : List Record)
        (set : Word → List Record → HostSide) : Prop :=
      let log := reg.toNat % 32
      let room := 2 ^ log - (tail - head).toNat
      let k := min wait.length room
      let slot (j : Nat) := reg.toNat / 4096 % 2 ^ 30 * 4096 + 64 * ((tail.toNat + j) % 2 ^ log)
      (log < 6 ∨ 16 < log → exec i s = .next { s with host := set tail wait }) ∧
      (6 ≤ log → log ≤ 16 → ∃ y, exec i s = .next { s with host := set (tail + BitVec.ofNat 32 k) (wait.drop k), sys := y } ∧
        (∀ j r, j < k → wait[j]? = some r → y.num (slot j) 64 = r.toNat) ∧
        ∀ a, (∀ j, j < k → a < slot j ∨ slot j + 64 ≤ a) → y.byte a = s.sys.byte a)
    let h := s.host
    let fields (v : Dword) : Dword := BitVec.ofNat 64 (v.toNat / 4096 % 2 ^ 30 * 4096 + v.toNat % 32)
    drained (.ringHeadWrite .fault head) h.faultq head h.faultTail h.waitingFaults
      (fun t w => { h with faultHead := head, faultTail := t, waitingFaults := w }) ∧
    drained (.ringHeadWrite .event head) h.eventq head h.eventTail h.waitingEvents
      (fun t w => { h with eventHead := head, eventTail := t, waitingEvents := w }) ∧
    drained (.faultqEventqWrite .fault value) (fields value) h.faultHead h.faultTail h.waitingFaults
      (fun t w => { h with faultq := fields value, faultTail := t, waitingFaults := w }) ∧
    drained (.faultqEventqWrite .event value) (fields value) h.eventHead h.eventTail h.waitingEvents
      (fun t w => { h with eventq := fields value, eventTail := t, waitingEvents := w })

/-- R4, R381, R382, R384: the host registers and the rings of driver records. -/
def Obligations.RegistersAndRings : Prop := Claims.HostRegisters ∧ Claims.DriverRings

/-- R291: writes a retraining port held are performed in order when it is up again, and discarded and reported with KIND 7
once 1,350,000 cycles have passed. -/
def Obligations.PortRetraining : Prop :=
  ∀ (i : Nat) (s : State),
    let held := s.sys.heldFor i
    let others (y : Sys) : Prop := (∀ k, k ≠ i → y.link k = s.sys.link k) ∧ y.mem = s.sys.mem ∧ y.cores = s.sys.cores
    let emptied (y : Sys) : Prop := y.held = s.sys.held.filter fun h => h.port ≠ i
    (i < 16 → (∀ t, s.sys.link i ≠ .retraining t) → ∃ y, exec (.portRetrainBegin i) s = .next { s with sys := y } ∧
      y.link i = .retraining s.clock ∧ others y ∧ y.held = s.sys.held ∧ y.peerMem = s.sys.peerMem) ∧
    ((16 ≤ i ∨ ∃ t, s.sys.link i = .retraining t) → exec (.portRetrainBegin i) s = .next s) ∧
    (∀ since, s.sys.link i = .retraining since →
      (∃ y, exec (.portRetrainComplete i) s = .next { s with sys := y } ∧ y.link i = .up ∧ others y ∧ emptied y ∧
        ∀ k, y.peerMem.get 0 k = held.foldl (fun b h =>
          if h.pa ≤ k ∧ k < h.pa + h.data.length then h.data.getD (k - h.pa) 0 else b) (s.sys.peerMem.get 0 k)) ∧
      (s.clock < since + 1350000 → exec (.portRetrainTimeout i) s = .next s) ∧
      (since + 1350000 ≤ s.clock → ∃ y, y.link i = .down ∧ others y ∧ emptied y ∧ y.peerMem = s.sys.peerMem ∧
        (∀ asid : Asid, y.dropped.get 0 (asid.toNat * 32 + i) =
          s.sys.dropped.get 0 (asid.toNat * 32 + i) + (held.filter fun h => h.asid = asid).length) ∧
        exec (.portRetrainTimeout i) s = .next (if held = [] then { s with sys := y } else
          ({ s with sys := y } : State).event
            { kind := 7, info := BitVec.ofNat 64 held.length, value := BitVec.ofNat 64 (2 ^ i) }))) ∧
    ((∀ t, s.sys.link i ≠ .retraining t) →
      exec (.portRetrainComplete i) s = .next s ∧ exec (.portRetrainTimeout i) s = .next s)

/-- R188, R307, R389: the NIC takes a pair's tail, pushes one completion entry for each work entry whose local pages translate
into the pair's queue, or whose fault the driver refused, and writes and reads for inbound requests under the pair's ASID; a
fault goes to the driver. The ring, size, next entry and completion queue of a pair, and a SEND that reaches no memory, are the
model's (PRESUMED, log 13); a completion entry that its queue cannot take is tried again (log 28). -/
def Claims.Network : Prop :=
  ∀ (qp : Nat) (tail : Word) (s : State),
    let q := s.nic.get {} qp
    let who : Who := { core := 0, engine := true, crew := 0, asid := q.asid, priv := false }
    let others (t : State) : Prop := ∀ k, k ≠ qp → t.nic.get {} k = s.nic.get {} k
    let pushed (i : Instr) (v : State) : Prop := ∀ z, (∃ item, v.outsidePush (q.cq / 16) (q.cq % 16) item = some z) →
      ∃ t, exec i s = .next t ∧ t.nic.get {} qp = { q with next := q.next + 1, refused := false } ∧ others t ∧
        t.queues = z.queues ∧ t.gang = z.gang ∧ t.gangs = z.gangs
    let faulted (i : Instr) (va : Nat) : Prop := ∃ t, exec i s = .next t ∧ t.nic = s.nic ∧
      ∃ r ∈ t.sys.faults, r.asid = q.asid ∧ r.page = va / 65536
    (4096 ≤ qp → exec (.nicDoorbell qp tail) s = .next s ∧ exec (.nicCompletion qp) s = .next s ∧
      ∀ r, exec (.roceInboundRequest qp r) s = .next s) ∧
    (qp < 4096 →
      (∃ m, exec (.nicDoorbell qp tail) s = .next { s with nic := m } ∧ m.get {} qp = { q with tail := tail } ∧
        ∀ k, k ≠ qp → m.get {} k = s.nic.get {} k) ∧
      (q.next = q.tail → exec (.nicCompletion qp) s = .next s) ∧
      (q.next ≠ q.tail → q.refused = true → pushed (.nicCompletion qp) s) ∧
      (q.next ≠ q.tail → q.refused = false →
        let va := q.ring.toNat + 64 * (q.next.toNat % 2 ^ q.log)
        let stops (a : Nat) (f : XFault) : Prop :=
          (f.refused = false → (∀ r ∈ s.sys.faults, Waiter.nic qp none ∉ r.waiters) → faulted (.nicCompletion qp) a) ∧
          (f.refused = true → ∃ t, exec (.nicCompletion qp) s = .next t ∧ t.nic.get {} qp = { q with refused := true } ∧ others t)
        (∀ f, s.leaf who .nic va = .error f → stops va f) ∧
        ∀ l u, s.leaf who .nic va = .ok (l, u) →
          let entry := fromBytes (u.homeRead l va 64)
          let pages := u.nicPages q (entry / 2 ^ 64 % 2 ^ 64) (entry / 2 ^ 224 % 2 ^ 32)
          (∀ a f, pages = .error (a, f) → stops a f) ∧ ∀ v, pages = .ok v → pushed (.nicCompletion qp) v) ∧
      ∀ (va : Dword) (data : List Byte) (imm : Word) (n : Nat),
        (∀ r ∈ [RoceRequest.write va data, .writeImm va data imm],
          (∀ u, s.unitCheck who va.toNat data.length = .ok u →
            exec (.roceInboundRequest qp r) s = .next (u.unitWrite who va.toNat data)) ∧
          ∀ a acc f, s.unitCheck who va.toNat data.length = .error (.fault a acc f) → f.refused = false →
            faulted (.roceInboundRequest qp r) a) ∧
        (∀ a f, s.nicPages q va.toNat n = .error (a, f) → f.refused = false →
          faulted (.roceInboundRequest qp (.read va n)) a) ∧
        (∀ u b w, s.nicPages q va.toNat n = .ok u → u.unitRead who va.toNat n = .ok (b, w) →
          exec (.roceInboundRequest qp (.read va n)) s = .next { w with host := { w.host with lastRead := b } }) ∧
        exec (.roceInboundRequest qp (.send data)) s = .next s)

/-- R307, R389: where the NIC finds the work entry, its local pages and the slot of the pair's queue, at which no gang waits, it
pushes the completion entry; where it finds the range of an inbound request, it writes or reads it. -/
def Claims.NetworkCompletes : Prop :=
  ∀ (qp : Nat) (s : State) (pa : Nat), qp < 4096 →
    let q := s.nic.get {} qp
    let who : Who := { core := 0, engine := true, crew := 0, asid := q.asid, priv := false }
    let va := q.ring.toNat + 64 * (q.next.toNat % 2 ^ q.log)
    let entry := fromBytes (s.sys.bytes pa 64)
    let k := s.queue q.cq
    (q.next ≠ q.tail → q.refused = false → s.Finds who .nic va pa →
      s.FindsAll who .nic (entry / 2 ^ 64 % 2 ^ 64) (entry / 2 ^ 224 % 2 ^ 32) → q.cq < 768 → k.bound = true → k.peer = true →
      k.space ≠ 0 → (∀ g ∈ s.allGangs, ∀ m, g.blockedPop ≠ some (q.cq, m) ∧ g.blockedPush ≠ some (q.cq, m)) →
      s.FindsAll (queueWho (q.cq / 16) k) .store (k.slot k.tail) 64 →
      ∃ t, exec (.nicCompletion qp) s = .next t ∧ t.nic.get {} qp = { q with next := q.next + 1, refused := false } ∧
        t.queue q.cq = { k with tail := k.tail + 1 }) ∧
    ∀ (a : Dword) (data : List Byte) (imm : Word) (n : Nat),
      (s.FindsAll who .store a.toNat data.length → ∀ r ∈ [RoceRequest.write a data, .writeImm a data imm],
        exec (.roceInboundRequest qp r) s = .next (s.unitWrite who a.toNat data)) ∧
      (s.FindsAll who .nic a.toNat n → ∃ b : List Byte, b.length = n ∧
        exec (.roceInboundRequest qp (.read a n)) s = .next { s with host := { s.host with lastRead := b } })

/-- R188, R307, R389: the network interface. The registers of a queue pair and a SEND that reaches no memory are the model's
(PRESUMED, log 13); a refused push that is tried again is log 28. -/
def Obligations.Network : Prop := Claims.Network ∧ Claims.NetworkCompletes

/-- R390, R391, R393: a warm reset, also the one at the critical temperature, ends every crew with a KIND 1 exit record,
unbinds the queues, drops the contexts and empties the caches. A reset of a port, and a port's link going down, free its
HSEM. The attestation report carries the nonce, MEAS, the key and the signature. What a warm reset clears beyond the words of R390
is the model's reading (log 37). -/
def Claims.Resets : Prop :=
  ∀ (port : Port) (nonce : BitVec 512) (s : State),
    let up : Prop := s.host.linkUp port = true
    let mine : Prop := s.host.owner = ownerOf port
    let freed : HostSide := { s.host with owner := if s.host.owner = ownerOf port then 0 else s.host.owner }
    (∃ t, (up → mine → exec (.warmReset port) s = .next t) ∧ exec .criticalTemperature s = .next t ∧ t.queues = [] ∧
      t.ops = [] ∧ t.saved = [] ∧ t.sys.ctxs = [] ∧ t.sys.mtlb = [] ∧ t.sys.rev = [] ∧ t.sys.dir = [] ∧ t.clock = 0 ∧
      (∀ c, (t.sys.core c).l1 = [] ∧ (t.sys.core c).ibuf = [] ∧ (t.sys.core c).log = []) ∧
      t.sys.peerLines = [] ∧ t.sys.peerSeen = [] ∧
      (s.Numbered → (∀ g ∈ s.allGangs, ∃ c ∈ s.allCrews, c.id = g.crewId) → t.allCrews = [] ∧ t.allGangs = []) ∧
      (s.allCrews = [] → s.saved = [] → t.sys.mem = s.sys.mem) ∧
      ∀ c, s.allCrews = [c] → s.saved = [] → s.Numbered → c.ended = .running → ringSize s.host.eventq = none →
        let k := (s.killCrew c.id (s.trappedCause c.id)).dropOps
        let d := k.findCrew c.id
        let record := exitBytes d (k.gangsOf c.id)
        let v := (k.release { core := c.core, crew := c.id, asid := c.asid, priv := c.priv } 6).vacate d
        fromBytes (record.take 4) = 1 ∧
        ∀ u, v.recordWrite { core := c.core, engine := true, crew := 0, asid := c.asid, priv := true }
          (c.exitRec + BitVec.ofNat 64 (512 * c.number)).toNat record = .ok u → t.sys.mem = u.sys.mem) ∧
    (¬up ∨ ¬mine → exec (.warmReset port) s = .next s ∧ exec (.attestationReport port nonce) s = .next s) ∧
    exec (.functionLevelReset port) s =
      .next { s with host := { freed with msix := s.host.msix.filter fun e => e.1 ≠ port } } ∧
    exec (.hostLinkDown port) s = .next { s with host := match port with
      | .portA => { freed with linkA := false }
      | .portB => { freed with linkB := false } } ∧
    (up → mine → ∃ r : List Byte, exec (.attestationReport port nonce) s = .next { s with host := { s.host with report := r } } ∧
      r.length = 7795 ∧ fromBytes (r.take 64) = nonce.toNat ∧
      (∀ k, k < 8 → fromBytes ((r.drop (64 + 64 * k)).take 64) = (s.host.meas.get 0 k).toNat) ∧
      (∀ k, k < 2592 → r[576 + k]? = some ((Config.identityKey (s.host.meas.get 0 0)).getD k 0)) ∧
      ∀ k, k < 4627 → r[3168 + k]? = some ((Config.signReport (s.host.meas.get 0 0) (r.take 3168)).getD k 0))

/-- R390: after a cold reset the device is as State.reset gives it; MEASn is the hash of its old value and stage n's
measurement for every stage before the first that fails its signature check, and a failure of any stage halts boot. The fields
that a cold reset keeps and the stages past the eighth are log 38; MEAS is 0 before the first measurement by log 12. -/
def Claims.ColdBoot : Prop :=
  ∀ (stages : List FirmwareStage) (s : State),
    let ok (k : Nat) : Prop := ∀ g, stages[k]? = some g → Config.stageVerifies g.image g.signature = true
    ∃ meas halted, exec (.coldReset stages) s = .next { State.reset with
        host := { State.reset.host with meas := meas, bootHalted := halted }, freeCtr := s.freeCtr, turns := s.turns } ∧
      (halted = false ↔ ∀ k, ok k) ∧
      ∀ n, meas.get 0 n = match stages[n]? with
        | some g => if n < 8 ∧ ∀ k, k ≤ n → ok k then sha3 (toBytes 64 0 ++ toBytes 64 (sha3 g.image).toNat) else 0
        | none => 0

/-- R390, R391, R393: resets, boot and attestation. What a warm reset clears beyond R390 is the model's (log 37), and so are the
fields that a cold reset keeps and stages past the eighth (log 38), and MEAS 0 before the first measurement (log 12). -/
def Obligations.ResetsAndBoot : Prop := Claims.Resets ∧ Claims.ColdBoot

/-- R45, R243, R381, R382: after reset %clock is 0, HSEM is free, the rings are disabled, POWERCFG is 0x9999 and each die has
nine tokens in its first nine clusters; no queue is bound, no context, launch, crew or operation is there. -/
def Claims.ResetValues : Prop :=
  let s := State.reset
  s.clock = 0 ∧ s.host.owner = 0 ∧ s.host.gen = 0 ∧ s.host.faultq = 0 ∧ s.host.eventq = 0 ∧ s.host.powercfg = 0x9999 ∧
  (∀ i, s.host.peermap.get 0 i = 0) ∧ ringSize s.host.faultq = none ∧ ringSize s.host.eventq = none ∧
  s.host.faultHead = 0 ∧ s.host.faultTail = 0 ∧ s.host.eventHead = 0 ∧ s.host.eventTail = 0 ∧
  (∀ k, (s.queue k).bound = false) ∧ (∀ a, s.sys.ctx a = none) ∧ s.launches = [] ∧ s.allCrews = [] ∧ s.allGangs = [] ∧
  s.ops = [] ∧ ∀ d, d < 4 → (s.tokens.filter fun t => t.die = d).map (fun t => (t.place, t.held)) =
    (List.range 9).map fun i => (i, false)

/-! ### Issue (R35, R39-R43, R56, R57, R63, R64, R310) -/

/-- R56, R57, R63, R64, R331, R333: a gang whose turn it is, and which its slot chooses, issues the instruction its word decodes
to: the step is that instruction's meaning in the state that has counted the issue; of two fused gangs the lower-indexed issues
and FUSED counts. A word that fails a check traps with its cause. A marionette ignores STALL. -/
def Obligations.StepRunsDecoded : Prop :=
  (∀ (s : State) (id : Nat) (rest : List Turn) (pc : Pc) (run : Mask) (held : Bool) (line : CodeLine),
    s.gang.pair = false → s.fuse = 0 → s.turns = .issue id :: rest →
    let s0 : State := { s with turns := rest }
    ∀ (x : Gang) (q : State) (g : Nat),
    s0.chooseIn (s0.readyGangs.filter fun y => s0.place y = s0.place (s0.findGang id)) = some x → x.id = id →
    (s0.partner x = none ∧ q = s0 ∧ g = id) ∨
      (∃ h, s0.partner x = some h ∧ g = min id h.id ∧
        q = { s0.updCrew x.crewId fun c => { c with fused := c.fused + 1 } with fuse := max id h.id }) →
    let t := q.focus g
    t.nextIssue = some (pc, run, held) →
    let u := t.atRun pc run
    (u.inHandler = true ∨ u.gang.discarded = []) → pcOk pc = true → u.heldLine pc = some line → lineBits line = [] →
    u.unlabelled line = none →
    let w := slotWord line (pcSlot pc)
    let f := Fields.ofWord w
    let v := u.prepared w held false
    let traps (cause : BitVec 8) (info : Dword) : Prop := step s = showAfter u.gang.id (.next (v.trap cause info))
    (∀ o, Op.ofCode f.op = some o →
      (o.privileged f = true → u.gang.priv = false → traps 0x06 (f.op.setWidth 64)) ∧
      ((o.privileged f = true → u.gang.priv = true) → u.specField o f = [] →
        (u.columnBad o f = true → (∀ b, o.check u.crew.vregs f ≠ some (.illegalField b)) →
          (∀ field sel, o.check u.crew.vregs f = some (.illegalOperand field sel) → 2 < field.toNat) →
          traps 0x03 (BitVec.ofNat 64 (2 + 256 * f.b.toNat))) ∧
        (∀ b, o.check u.crew.vregs f = some (.illegalField b) → traps 0x02 (BitVec.ofNat 64 b)) ∧
        (u.columnBad o f = false → (∀ sel, o.check u.crew.vregs f = none → u.crew.crewctl = true →
          u.earlyRead o f = some sel → traps 0x05 (sel.setWidth 64)) ∧
        ((u.crew.crewctl = true → u.earlyRead o f = none) → ∀ i, decode u.crew.vregs w = .ok i →
          step s = showAfter u.gang.id (exec i v)) ∧
        ∀ field sel, o.check u.crew.vregs f = some (.illegalOperand field sel) →
          traps 0x03 (BitVec.ofNat 64 (field.toNat + 256 * sel.toNat))))) ∧
    (Op.ofCode f.op = none → step s = showAfter u.gang.id (exec (.illegalOpcodeIssue w) v))) ∧
  ∀ (s : State) (w : InstrWord) (held second : Bool),
    let f := Fields.ofWord w
    let t := s.prepared w held second
    ((Op.ofCode f.op).map fun o => s.notYet o f) ≠ some true →
      t.gang.nextIssue = s.clock + 1 + (if s.gang.ej.isSome then 0 else f.stall.toNat) ∧ t.issues = s.issues + 1 ∧ t.gang.lastIssue = s.issues + 1 ∧
      (second = true ∨ held = true → t.gang.pair = false) ∧ t.gang.v = s.gang.v ∧ t.gang.s = s.gang.s ∧
      t.gang.p = s.gang.p ∧ t.sys = s.sys ∧ t.crew = s.crew ∧ t.gangs = s.gangs ∧ t.clock = s.clock

/-- R310: the run is the READY strands at the smallest PC, or at the smallest PC of the oldest once an age reaches AGEMAX - 31;
an issue sets the ages of the run to 0 and those of the other READY strands one up, 255 at most. -/
def Claims.RunChoice : Prop :=
  ∀ s : State, s.gang.handler = none → s.gang.ej = none → 32 ≤ s.crew.ageMax.toNat →
    let ready (i : Nat) : Prop := i < 32 ∧ (s.gang.strand i).st = .ready
    let age (i : Nat) := (s.gang.strand i).age
    let pc (i : Nat) := (s.gang.strand i).pc
    (s.chosen = none ↔ ∀ i, ¬ready i) ∧
    (∀ p run, s.chosen = some (p, run) → (∀ i, i < 32 → (run.getLsbD i = true ↔ ready i ∧ pc i = p)) ∧
      ∃ o, ready o ∧ (∀ i, ready i → age i ≤ age o) ∧
        let pool (i : Nat) : Prop := ready i ∧ (s.crew.ageMax.toNat ≤ age o + 31 → age i = age o)
        (∃ i, pool i ∧ pc i = p) ∧ ∀ i, pool i → p.toNat ≤ (pc i).toNat) ∧
    ∀ (run : Mask) (i : Nat), i < 32 →
      let x := s.gang.strand i
      (s.gang.aged run).strand i =
        { x with age := if run.getLsbD i then 0 else if x.st = .ready then min (x.age + 1) 255 else x.age }

/-- R35, R57: a fixed-latency result is read from its latency on; before, a read gives what an issue then would have read
without the instruction. -/
def Claims.EarlyReads : Prop :=
  ∀ (x : Typed) (s : State) (later : Nat), s.flows = true → s.gang.ej = none → x.width ≠ 64 →
    let at' (t : State) : State := { t with clock := s.clock + later }
    let delivered (i : Instr) (latency : Nat) : Prop := ∃ t, exec i s = .next t ∧
      (∀ n, x.d = .v n → ∀ j ∈ s.active x.hdr,
        (at' t).readV j n.toNat = if later < latency then (at' s).readV j n.toNat else t.gang.v.get 0 (j * 128 + n.toNat)) ∧
      ∀ n, x.d = .s n → (at' t).readS n.toNat = if later < 2 then (at' s).readS n.toNat else t.gang.s.get 0 n.toNat
    delivered (.iadd x) 4 ∧ delivered (.and x) 4 ∧ delivered (.shl x) 4 ∧ delivered (.popc x) 4 ∧ delivered (.imul x) 6 ∧
    delivered (.imulh x) 6 ∧ delivered (.imad x) 6 ∧ delivered (.fadd x) 6 ∧ delivered (.fmul x) 6 ∧ delivered (.ffma x) 6

/-- R35, R57, R310: the run that issues, and from when its results are read. -/
def Obligations.IssueAndResults : Prop := Claims.RunChoice ∧ Claims.EarlyReads

/-! ### Encodings (R39, R43, R49-R54, R60, R64) -/

/-- R43, R44, R49-R51, R63, R64: a well-formed instruction has a word, which decodes to it; a word that decodes is the word of
its instruction, which is well formed: no bit of an encoding is dropped. -/
def Obligations.EncodeDecode : Prop :=
  ∀ vregs : Nat,
    (∀ i : Instr, i.wellFormedIn vregs = true → ∃ w, encode i = some w ∧ decode vregs w = .ok i) ∧
    ∀ (w : InstrWord) (i : Instr), decode vregs w = .ok i → encode i = some w ∧ i.wellFormedIn vregs = true

/-- R39, R43, R44, R49-R54, R60: the words that the spec writes out decode to the instructions they stand for. -/
def Obligations.DecodeWords : Prop :=
  let p7 : Hdr := ⟨0, false, 7⟩
  let reads (w : InstrWord) (i : Instr) : Prop := decode 128 w = .ok i
  reads 0x230B48060708062800000000
    (.ffma ⟨⟨0, true, 3⟩, .f32, 0, .v 6, .v 7, .v 8, .v 6, 1, false, true, false, false, false, 0⟩) ∧
  reads 0x4207882800FF090000000000 (.mxpack ⟨p7, .mx8, .f32, 0, .v 40, .v 0, .none, 0, false, 0⟩) ∧
  reads 0x510741FF880302705F020002
    (.st ⟨p7, .s4, true, false, 3, 2, 0, .none, .s 8, .v 3, .v 2, 0x5F02, 2⟩) ∧
  reads 0x550740FF80FF02005F0C0040
    (.stp ⟨p7, .s4, false, false, 0, 0, 0, .none, .s 0, .none, .v 2, 0x5F0C, 0x40⟩) ∧
  reads 0x56076004FF02FF0000000000 (.lds ⟨p7, .s8, false, false, 0, 0, 0, .v 4, .none, .v 2, .none, 0, 0⟩) ∧
  reads 0x7007410A8C0209B800000000 (.atom ⟨p7, .s4, 0, true, 5, 3, 0, .v 10, .s 12, .v 2, .v 9, 0⟩) ∧
  reads 0x710140FF818A029000000020 (.red ⟨⟨0, false, 1⟩, .s4, 0, false, 4, 2, 0, .none, .s 1, .s 10, .v 2, 0x20⟩) ∧
  reads 0x7507008AFFFFFFD000000000 (.fence ⟨p7, 0, .s 10, .none, .none, .none, 0xD0, 0⟩) ∧
  reads 0x81020000080F036000000010 (.brx ⟨⟨0, false, 2⟩, 3, .v 8, .v 15, 3, 0x10⟩) ∧
  reads 0x9007030504F0C90000000001
    (.shfl ⟨p7, .untyped, 3, .v 5, .v 4, .imm, .g 1, 0, false, false, false, false, false, 1⟩) ∧
  reads 0xA207008C94FFFF0000000000 (.mxrun ⟨p7, 0, .s 12, .s 20, .none, .none, 0, 0⟩) ∧
  reads 0xB007008A8488FF0020000000 (.copy ⟨p7, 0, .s 10, .s 4, .s 8, .none, 0, 0x20000000⟩) ∧
  reads 0xB10601FF86078A000000959A (.gather ⟨⟨0, false, 6⟩, 1, .none, .s 6, .v 7, .s 10, 0, 0x959A⟩) ∧
  reads 0xC10701C194FF9600FCC00400 (.qpop ⟨p7, 1, .p 1, .s 20, .none, .s 22, 0, 0xFCC00400⟩) ∧
  reads 0xD00700FF84FFFF0000000002 (.trap ⟨p7, 0, .none, .s 4, .none, .none, 0, 2⟩)

/-! ### What every step keeps -/

/-- Memory keeps its canonical form through every step: addresses rise, and no cell holds what an unlisted one reads as. -/
def Obligations.MemoryCanonical : Prop :=
  ∀ s t : State, Memory.wf s.sys.mem = true → Machine.step s = .next t → Memory.wf t.sys.mem = true

/-- Memory after reset has its canonical form. -/
def Claims.MemoryAtReset : Prop := Memory.wf State.reset.sys.mem = true

/-- R45, R243, R381, R382: the values after reset, and the canonical form of memory then. -/
def Obligations.AfterReset : Prop := Claims.ResetValues ∧ Claims.MemoryAtReset
end

