-- ==== Sys2Proof/Laws/State.lean ====
section
/-! SUPPORT. What the writes of the gang in focus leave alone: one lemma per field and update, so that no proof unfolds a
record update. `_frame` says it of the whole state: nothing but the gang changes; `_gang_frame` names the fields of the
gang that may. -/

namespace Sys2Proof.Machine

/-- Only the gang in focus differs. -/
def State.onlyGang (s t : State) : Prop := t = { s with gang := t.gang }

theorem State.onlyGang.trans {s t u : State} (h : s.onlyGang t) (h' : t.onlyGang u) : s.onlyGang u := by
  unfold State.onlyGang at *; rw [h']; rw [h]

theorem State.onlyGang.run {s t : State} (h : s.onlyGang t) : t.run = s.run := by rw [h]

theorem State.onlyGang.ipc {s t : State} (h : s.onlyGang t) : t.ipc = s.ipc := by rw [h]

theorem State.onlyGang.crew {s t : State} (h : s.onlyGang t) : t.crew = s.crew := by rw [h]

theorem State.onlyGang.gangs {s t : State} (h : s.onlyGang t) : t.gangs = s.gangs := by rw [h]

theorem State.onlyGang.crews {s t : State} (h : s.onlyGang t) : t.crews = s.crews := by rw [h]

theorem State.onlyGang.saved {s t : State} (h : s.onlyGang t) : t.saved = s.saved := by rw [h]

theorem State.onlyGang.launches {s t : State} (h : s.onlyGang t) : t.launches = s.launches := by rw [h]

theorem State.onlyGang.nextCrew {s t : State} (h : s.onlyGang t) : t.nextCrew = s.nextCrew := by rw [h]

theorem State.onlyGang.ops {s t : State} (h : s.onlyGang t) : t.ops = s.ops := by rw [h]

theorem State.onlyGang.nextOp {s t : State} (h : s.onlyGang t) : t.nextOp = s.nextOp := by rw [h]

theorem State.onlyGang.tokens {s t : State} (h : s.onlyGang t) : t.tokens = s.tokens := by rw [h]

theorem State.onlyGang.sys {s t : State} (h : s.onlyGang t) : t.sys = s.sys := by rw [h]

theorem State.onlyGang.queues {s t : State} (h : s.onlyGang t) : t.queues = s.queues := by rw [h]

theorem State.onlyGang.host {s t : State} (h : s.onlyGang t) : t.host = s.host := by rw [h]

theorem State.onlyGang.nic {s t : State} (h : s.onlyGang t) : t.nic = s.nic := by rw [h]

theorem State.onlyGang.clock {s t : State} (h : s.onlyGang t) : t.clock = s.clock := by rw [h]

theorem State.onlyGang.issues {s t : State} (h : s.onlyGang t) : t.issues = s.issues := by rw [h]

theorem State.onlyGang.freeCtr {s t : State} (h : s.onlyGang t) : t.freeCtr = s.freeCtr := by rw [h]

theorem State.onlyGang.fuse {s t : State} (h : s.onlyGang t) : t.fuse = s.fuse := by rw [h]

theorem State.onlyGang.turns {s t : State} (h : s.onlyGang t) : t.turns = s.turns := by rw [h]

/-! ### shadow -/

theorem State.shadow_frame (s : State) (lat : Nat) (old : OldValue) : s.onlyGang (s.shadow lat old) := by
  unfold State.shadow
  split <;> rfl

@[simp] theorem State.shadow_run (s : State) (lat : Nat) (old : OldValue) : (s.shadow lat old).run = s.run :=
  (State.shadow_frame s _ _).run

@[simp] theorem State.shadow_ipc (s : State) (lat : Nat) (old : OldValue) : (s.shadow lat old).ipc = s.ipc :=
  (State.shadow_frame s _ _).ipc

@[simp] theorem State.shadow_crew (s : State) (lat : Nat) (old : OldValue) : (s.shadow lat old).crew = s.crew :=
  (State.shadow_frame s _ _).crew

@[simp] theorem State.shadow_gangs (s : State) (lat : Nat) (old : OldValue) : (s.shadow lat old).gangs = s.gangs :=
  (State.shadow_frame s _ _).gangs

@[simp] theorem State.shadow_crews (s : State) (lat : Nat) (old : OldValue) : (s.shadow lat old).crews = s.crews :=
  (State.shadow_frame s _ _).crews

@[simp] theorem State.shadow_saved (s : State) (lat : Nat) (old : OldValue) : (s.shadow lat old).saved = s.saved :=
  (State.shadow_frame s _ _).saved

@[simp] theorem State.shadow_launches (s : State) (lat : Nat) (old : OldValue) : (s.shadow lat old).launches = s.launches :=
  (State.shadow_frame s _ _).launches

@[simp] theorem State.shadow_nextCrew (s : State) (lat : Nat) (old : OldValue) : (s.shadow lat old).nextCrew = s.nextCrew :=
  (State.shadow_frame s _ _).nextCrew

@[simp] theorem State.shadow_ops (s : State) (lat : Nat) (old : OldValue) : (s.shadow lat old).ops = s.ops :=
  (State.shadow_frame s _ _).ops

@[simp] theorem State.shadow_nextOp (s : State) (lat : Nat) (old : OldValue) : (s.shadow lat old).nextOp = s.nextOp :=
  (State.shadow_frame s _ _).nextOp

@[simp] theorem State.shadow_tokens (s : State) (lat : Nat) (old : OldValue) : (s.shadow lat old).tokens = s.tokens :=
  (State.shadow_frame s _ _).tokens

@[simp] theorem State.shadow_sys (s : State) (lat : Nat) (old : OldValue) : (s.shadow lat old).sys = s.sys :=
  (State.shadow_frame s _ _).sys

@[simp] theorem State.shadow_queues (s : State) (lat : Nat) (old : OldValue) : (s.shadow lat old).queues = s.queues :=
  (State.shadow_frame s _ _).queues

@[simp] theorem State.shadow_host (s : State) (lat : Nat) (old : OldValue) : (s.shadow lat old).host = s.host :=
  (State.shadow_frame s _ _).host

@[simp] theorem State.shadow_nic (s : State) (lat : Nat) (old : OldValue) : (s.shadow lat old).nic = s.nic :=
  (State.shadow_frame s _ _).nic

@[simp] theorem State.shadow_clock (s : State) (lat : Nat) (old : OldValue) : (s.shadow lat old).clock = s.clock :=
  (State.shadow_frame s _ _).clock

@[simp] theorem State.shadow_issues (s : State) (lat : Nat) (old : OldValue) : (s.shadow lat old).issues = s.issues :=
  (State.shadow_frame s _ _).issues

@[simp] theorem State.shadow_freeCtr (s : State) (lat : Nat) (old : OldValue) : (s.shadow lat old).freeCtr = s.freeCtr :=
  (State.shadow_frame s _ _).freeCtr

@[simp] theorem State.shadow_fuse (s : State) (lat : Nat) (old : OldValue) : (s.shadow lat old).fuse = s.fuse :=
  (State.shadow_frame s _ _).fuse

@[simp] theorem State.shadow_turns (s : State) (lat : Nat) (old : OldValue) : (s.shadow lat old).turns = s.turns :=
  (State.shadow_frame s _ _).turns

theorem State.shadow_gang_frame (s : State) (lat : Nat) (old : OldValue) :
    (s.shadow lat old).gang =
      { s.gang with shadows := (s.shadow lat old).gang.shadows } := by
  unfold State.shadow
  split <;> rfl

@[simp] theorem State.shadow_gang_id (s : State) (lat : Nat) (old : OldValue) : (s.shadow lat old).gang.id = s.gang.id :=
  by rw [State.shadow_gang_frame]

@[simp] theorem State.shadow_gang_crewId (s : State) (lat : Nat) (old : OldValue) : (s.shadow lat old).gang.crewId = s.gang.crewId :=
  by rw [State.shadow_gang_frame]

@[simp] theorem State.shadow_gang_idx (s : State) (lat : Nat) (old : OldValue) : (s.shadow lat old).gang.idx = s.gang.idx :=
  by rw [State.shadow_gang_frame]

@[simp] theorem State.shadow_gang_slot (s : State) (lat : Nat) (old : OldValue) : (s.shadow lat old).gang.slot = s.gang.slot :=
  by rw [State.shadow_gang_frame]

@[simp] theorem State.shadow_gang_active (s : State) (lat : Nat) (old : OldValue) : (s.shadow lat old).gang.active = s.gang.active :=
  by rw [State.shadow_gang_frame]

@[simp] theorem State.shadow_gang_v (s : State) (lat : Nat) (old : OldValue) : (s.shadow lat old).gang.v = s.gang.v :=
  by rw [State.shadow_gang_frame]

@[simp] theorem State.shadow_gang_s (s : State) (lat : Nat) (old : OldValue) : (s.shadow lat old).gang.s = s.gang.s :=
  by rw [State.shadow_gang_frame]

@[simp] theorem State.shadow_gang_stags (s : State) (lat : Nat) (old : OldValue) : (s.shadow lat old).gang.stags = s.gang.stags :=
  by rw [State.shadow_gang_frame]

@[simp] theorem State.shadow_gang_p (s : State) (lat : Nat) (old : OldValue) : (s.shadow lat old).gang.p = s.gang.p :=
  by rw [State.shadow_gang_frame]

@[simp] theorem State.shadow_gang_g (s : State) (lat : Nat) (old : OldValue) : (s.shadow lat old).gang.g = s.gang.g :=
  by rw [State.shadow_gang_frame]

@[simp] theorem State.shadow_gang_strands (s : State) (lat : Nat) (old : OldValue) : (s.shadow lat old).gang.strands = s.gang.strands :=
  by rw [State.shadow_gang_frame]

@[simp] theorem State.shadow_gang_rnd (s : State) (lat : Nat) (old : OldValue) : (s.shadow lat old).gang.rnd = s.gang.rnd :=
  by rw [State.shadow_gang_frame]

@[simp] theorem State.shadow_gang_urnd (s : State) (lat : Nat) (old : OldValue) : (s.shadow lat old).gang.urnd = s.gang.urnd :=
  by rw [State.shadow_gang_frame]

@[simp] theorem State.shadow_gang_fpstat (s : State) (lat : Nat) (old : OldValue) : (s.shadow lat old).gang.fpstat = s.gang.fpstat :=
  by rw [State.shadow_gang_frame]

@[simp] theorem State.shadow_gang_smask (s : State) (lat : Nat) (old : OldValue) : (s.shadow lat old).gang.smask = s.gang.smask :=
  by rw [State.shadow_gang_frame]

@[simp] theorem State.shadow_gang_spass (s : State) (lat : Nat) (old : OldValue) : (s.shadow lat old).gang.spass = s.gang.spass :=
  by rw [State.shadow_gang_frame]

@[simp] theorem State.shadow_gang_myph (s : State) (lat : Nat) (old : OldValue) : (s.shadow lat old).gang.myph = s.gang.myph :=
  by rw [State.shadow_gang_frame]

@[simp] theorem State.shadow_gang_trapCause (s : State) (lat : Nat) (old : OldValue) : (s.shadow lat old).gang.trapCause = s.gang.trapCause :=
  by rw [State.shadow_gang_frame]

@[simp] theorem State.shadow_gang_trapPc (s : State) (lat : Nat) (old : OldValue) : (s.shadow lat old).gang.trapPc = s.gang.trapPc :=
  by rw [State.shadow_gang_frame]

@[simp] theorem State.shadow_gang_trapInfo (s : State) (lat : Nat) (old : OldValue) : (s.shadow lat old).gang.trapInfo = s.gang.trapInfo :=
  by rw [State.shadow_gang_frame]

@[simp] theorem State.shadow_gang_trapRun (s : State) (lat : Nat) (old : OldValue) : (s.shadow lat old).gang.trapRun = s.gang.trapRun :=
  by rw [State.shadow_gang_frame]

@[simp] theorem State.shadow_gang_priv (s : State) (lat : Nat) (old : OldValue) : (s.shadow lat old).gang.priv = s.gang.priv :=
  by rw [State.shadow_gang_frame]

@[simp] theorem State.shadow_gang_handler (s : State) (lat : Nat) (old : OldValue) : (s.shadow lat old).gang.handler = s.gang.handler :=
  by rw [State.shadow_gang_frame]

@[simp] theorem State.shadow_gang_suspended (s : State) (lat : Nat) (old : OldValue) : (s.shadow lat old).gang.suspended = s.gang.suspended :=
  by rw [State.shadow_gang_frame]

@[simp] theorem State.shadow_gang_marks (s : State) (lat : Nat) (old : OldValue) : (s.shadow lat old).gang.marks = s.gang.marks :=
  by rw [State.shadow_gang_frame]

@[simp] theorem State.shadow_gang_pair (s : State) (lat : Nat) (old : OldValue) : (s.shadow lat old).gang.pair = s.gang.pair :=
  by rw [State.shadow_gang_frame]

@[simp] theorem State.shadow_gang_hold (s : State) (lat : Nat) (old : OldValue) : (s.shadow lat old).gang.hold = s.gang.hold :=
  by rw [State.shadow_gang_frame]

@[simp] theorem State.shadow_gang_groups (s : State) (lat : Nat) (old : OldValue) : (s.shadow lat old).gang.groups = s.gang.groups :=
  by rw [State.shadow_gang_frame]

@[simp] theorem State.shadow_gang_ej (s : State) (lat : Nat) (old : OldValue) : (s.shadow lat old).gang.ej = s.gang.ej :=
  by rw [State.shadow_gang_frame]

@[simp] theorem State.shadow_gang_handleIds (s : State) (lat : Nat) (old : OldValue) : (s.shadow lat old).gang.handleIds = s.gang.handleIds :=
  by rw [State.shadow_gang_frame]

@[simp] theorem State.shadow_gang_arrival (s : State) (lat : Nat) (old : OldValue) : (s.shadow lat old).gang.arrival = s.gang.arrival :=
  by rw [State.shadow_gang_frame]

@[simp] theorem State.shadow_gang_lastIssue (s : State) (lat : Nat) (old : OldValue) : (s.shadow lat old).gang.lastIssue = s.gang.lastIssue :=
  by rw [State.shadow_gang_frame]

@[simp] theorem State.shadow_gang_sldsel (s : State) (lat : Nat) (old : OldValue) : (s.shadow lat old).gang.sldsel = s.gang.sldsel :=
  by rw [State.shadow_gang_frame]

@[simp] theorem State.shadow_gang_discard (s : State) (lat : Nat) (old : OldValue) : (s.shadow lat old).gang.discard = s.gang.discard :=
  by rw [State.shadow_gang_frame]

@[simp] theorem State.shadow_gang_discarded (s : State) (lat : Nat) (old : OldValue) : (s.shadow lat old).gang.discarded = s.gang.discarded :=
  by rw [State.shadow_gang_frame]

@[simp] theorem State.shadow_gang_quick (s : State) (lat : Nat) (old : OldValue) : (s.shadow lat old).gang.quick = s.gang.quick :=
  by rw [State.shadow_gang_frame]

@[simp] theorem State.shadow_gang_nextIssue (s : State) (lat : Nat) (old : OldValue) : (s.shadow lat old).gang.nextIssue = s.gang.nextIssue :=
  by rw [State.shadow_gang_frame]

@[simp] theorem State.shadow_gang_since (s : State) (lat : Nat) (old : OldValue) : (s.shadow lat old).gang.since = s.gang.since :=
  by rw [State.shadow_gang_frame]

@[simp] theorem State.shadow_gang_alone (s : State) (lat : Nat) (old : OldValue) : (s.shadow lat old).gang.alone = s.gang.alone :=
  by rw [State.shadow_gang_frame]

@[simp] theorem State.shadow_gang_unchecked (s : State) (lat : Nat) (old : OldValue) : (s.shadow lat old).gang.unchecked = s.gang.unchecked :=
  by rw [State.shadow_gang_frame]

@[simp] theorem State.shadow_gang_pushSince (s : State) (lat : Nat) (old : OldValue) : (s.shadow lat old).gang.pushSince = s.gang.pushSince :=
  by rw [State.shadow_gang_frame]

@[simp] theorem State.shadow_gang_located (s : State) (lat : Nat) (old : OldValue) : (s.shadow lat old).gang.located = s.gang.located :=
  by rw [State.shadow_gang_frame]

@[simp] theorem State.shadow_gang_left (s : State) (lat : Nat) (old : OldValue) : (s.shadow lat old).gang.left = s.gang.left :=
  by rw [State.shadow_gang_frame]

/-! ### writeV -/

theorem State.writeV_frame (s : State) (lat n : Nat) (vals : List (Nat × Word)) : s.onlyGang (s.writeV lat n vals) := by
  unfold State.writeV State.shadow
  dsimp only
  split <;> rfl

@[simp] theorem State.writeV_run (s : State) (lat n : Nat) (vals : List (Nat × Word)) : (s.writeV lat n vals).run = s.run :=
  (State.writeV_frame s _ _ _).run

@[simp] theorem State.writeV_ipc (s : State) (lat n : Nat) (vals : List (Nat × Word)) : (s.writeV lat n vals).ipc = s.ipc :=
  (State.writeV_frame s _ _ _).ipc

@[simp] theorem State.writeV_crew (s : State) (lat n : Nat) (vals : List (Nat × Word)) : (s.writeV lat n vals).crew = s.crew :=
  (State.writeV_frame s _ _ _).crew

@[simp] theorem State.writeV_gangs (s : State) (lat n : Nat) (vals : List (Nat × Word)) : (s.writeV lat n vals).gangs = s.gangs :=
  (State.writeV_frame s _ _ _).gangs

@[simp] theorem State.writeV_crews (s : State) (lat n : Nat) (vals : List (Nat × Word)) : (s.writeV lat n vals).crews = s.crews :=
  (State.writeV_frame s _ _ _).crews

@[simp] theorem State.writeV_saved (s : State) (lat n : Nat) (vals : List (Nat × Word)) : (s.writeV lat n vals).saved = s.saved :=
  (State.writeV_frame s _ _ _).saved

@[simp] theorem State.writeV_launches (s : State) (lat n : Nat) (vals : List (Nat × Word)) : (s.writeV lat n vals).launches = s.launches :=
  (State.writeV_frame s _ _ _).launches

@[simp] theorem State.writeV_nextCrew (s : State) (lat n : Nat) (vals : List (Nat × Word)) : (s.writeV lat n vals).nextCrew = s.nextCrew :=
  (State.writeV_frame s _ _ _).nextCrew

@[simp] theorem State.writeV_ops (s : State) (lat n : Nat) (vals : List (Nat × Word)) : (s.writeV lat n vals).ops = s.ops :=
  (State.writeV_frame s _ _ _).ops

@[simp] theorem State.writeV_nextOp (s : State) (lat n : Nat) (vals : List (Nat × Word)) : (s.writeV lat n vals).nextOp = s.nextOp :=
  (State.writeV_frame s _ _ _).nextOp

@[simp] theorem State.writeV_tokens (s : State) (lat n : Nat) (vals : List (Nat × Word)) : (s.writeV lat n vals).tokens = s.tokens :=
  (State.writeV_frame s _ _ _).tokens

@[simp] theorem State.writeV_sys (s : State) (lat n : Nat) (vals : List (Nat × Word)) : (s.writeV lat n vals).sys = s.sys :=
  (State.writeV_frame s _ _ _).sys

@[simp] theorem State.writeV_queues (s : State) (lat n : Nat) (vals : List (Nat × Word)) : (s.writeV lat n vals).queues = s.queues :=
  (State.writeV_frame s _ _ _).queues

@[simp] theorem State.writeV_host (s : State) (lat n : Nat) (vals : List (Nat × Word)) : (s.writeV lat n vals).host = s.host :=
  (State.writeV_frame s _ _ _).host

@[simp] theorem State.writeV_nic (s : State) (lat n : Nat) (vals : List (Nat × Word)) : (s.writeV lat n vals).nic = s.nic :=
  (State.writeV_frame s _ _ _).nic

@[simp] theorem State.writeV_clock (s : State) (lat n : Nat) (vals : List (Nat × Word)) : (s.writeV lat n vals).clock = s.clock :=
  (State.writeV_frame s _ _ _).clock

@[simp] theorem State.writeV_issues (s : State) (lat n : Nat) (vals : List (Nat × Word)) : (s.writeV lat n vals).issues = s.issues :=
  (State.writeV_frame s _ _ _).issues

@[simp] theorem State.writeV_freeCtr (s : State) (lat n : Nat) (vals : List (Nat × Word)) : (s.writeV lat n vals).freeCtr = s.freeCtr :=
  (State.writeV_frame s _ _ _).freeCtr

@[simp] theorem State.writeV_fuse (s : State) (lat n : Nat) (vals : List (Nat × Word)) : (s.writeV lat n vals).fuse = s.fuse :=
  (State.writeV_frame s _ _ _).fuse

@[simp] theorem State.writeV_turns (s : State) (lat n : Nat) (vals : List (Nat × Word)) : (s.writeV lat n vals).turns = s.turns :=
  (State.writeV_frame s _ _ _).turns

theorem State.writeV_gang_frame (s : State) (lat n : Nat) (vals : List (Nat × Word)) :
    (s.writeV lat n vals).gang =
      { s.gang with v := (s.writeV lat n vals).gang.v, shadows := (s.writeV lat n vals).gang.shadows } := by
  unfold State.writeV State.shadow
  dsimp only
  split <;> rfl

@[simp] theorem State.writeV_gang_id (s : State) (lat n : Nat) (vals : List (Nat × Word)) : (s.writeV lat n vals).gang.id = s.gang.id :=
  by rw [State.writeV_gang_frame]

@[simp] theorem State.writeV_gang_crewId (s : State) (lat n : Nat) (vals : List (Nat × Word)) : (s.writeV lat n vals).gang.crewId = s.gang.crewId :=
  by rw [State.writeV_gang_frame]

@[simp] theorem State.writeV_gang_idx (s : State) (lat n : Nat) (vals : List (Nat × Word)) : (s.writeV lat n vals).gang.idx = s.gang.idx :=
  by rw [State.writeV_gang_frame]

@[simp] theorem State.writeV_gang_slot (s : State) (lat n : Nat) (vals : List (Nat × Word)) : (s.writeV lat n vals).gang.slot = s.gang.slot :=
  by rw [State.writeV_gang_frame]

@[simp] theorem State.writeV_gang_active (s : State) (lat n : Nat) (vals : List (Nat × Word)) : (s.writeV lat n vals).gang.active = s.gang.active :=
  by rw [State.writeV_gang_frame]

@[simp] theorem State.writeV_gang_s (s : State) (lat n : Nat) (vals : List (Nat × Word)) : (s.writeV lat n vals).gang.s = s.gang.s :=
  by rw [State.writeV_gang_frame]

@[simp] theorem State.writeV_gang_stags (s : State) (lat n : Nat) (vals : List (Nat × Word)) : (s.writeV lat n vals).gang.stags = s.gang.stags :=
  by rw [State.writeV_gang_frame]

@[simp] theorem State.writeV_gang_p (s : State) (lat n : Nat) (vals : List (Nat × Word)) : (s.writeV lat n vals).gang.p = s.gang.p :=
  by rw [State.writeV_gang_frame]

@[simp] theorem State.writeV_gang_g (s : State) (lat n : Nat) (vals : List (Nat × Word)) : (s.writeV lat n vals).gang.g = s.gang.g :=
  by rw [State.writeV_gang_frame]

@[simp] theorem State.writeV_gang_strands (s : State) (lat n : Nat) (vals : List (Nat × Word)) : (s.writeV lat n vals).gang.strands = s.gang.strands :=
  by rw [State.writeV_gang_frame]

@[simp] theorem State.writeV_gang_rnd (s : State) (lat n : Nat) (vals : List (Nat × Word)) : (s.writeV lat n vals).gang.rnd = s.gang.rnd :=
  by rw [State.writeV_gang_frame]

@[simp] theorem State.writeV_gang_urnd (s : State) (lat n : Nat) (vals : List (Nat × Word)) : (s.writeV lat n vals).gang.urnd = s.gang.urnd :=
  by rw [State.writeV_gang_frame]

@[simp] theorem State.writeV_gang_fpstat (s : State) (lat n : Nat) (vals : List (Nat × Word)) : (s.writeV lat n vals).gang.fpstat = s.gang.fpstat :=
  by rw [State.writeV_gang_frame]

@[simp] theorem State.writeV_gang_smask (s : State) (lat n : Nat) (vals : List (Nat × Word)) : (s.writeV lat n vals).gang.smask = s.gang.smask :=
  by rw [State.writeV_gang_frame]

@[simp] theorem State.writeV_gang_spass (s : State) (lat n : Nat) (vals : List (Nat × Word)) : (s.writeV lat n vals).gang.spass = s.gang.spass :=
  by rw [State.writeV_gang_frame]

@[simp] theorem State.writeV_gang_myph (s : State) (lat n : Nat) (vals : List (Nat × Word)) : (s.writeV lat n vals).gang.myph = s.gang.myph :=
  by rw [State.writeV_gang_frame]

@[simp] theorem State.writeV_gang_trapCause (s : State) (lat n : Nat) (vals : List (Nat × Word)) : (s.writeV lat n vals).gang.trapCause = s.gang.trapCause :=
  by rw [State.writeV_gang_frame]

@[simp] theorem State.writeV_gang_trapPc (s : State) (lat n : Nat) (vals : List (Nat × Word)) : (s.writeV lat n vals).gang.trapPc = s.gang.trapPc :=
  by rw [State.writeV_gang_frame]

@[simp] theorem State.writeV_gang_trapInfo (s : State) (lat n : Nat) (vals : List (Nat × Word)) : (s.writeV lat n vals).gang.trapInfo = s.gang.trapInfo :=
  by rw [State.writeV_gang_frame]

@[simp] theorem State.writeV_gang_trapRun (s : State) (lat n : Nat) (vals : List (Nat × Word)) : (s.writeV lat n vals).gang.trapRun = s.gang.trapRun :=
  by rw [State.writeV_gang_frame]

@[simp] theorem State.writeV_gang_priv (s : State) (lat n : Nat) (vals : List (Nat × Word)) : (s.writeV lat n vals).gang.priv = s.gang.priv :=
  by rw [State.writeV_gang_frame]

@[simp] theorem State.writeV_gang_handler (s : State) (lat n : Nat) (vals : List (Nat × Word)) : (s.writeV lat n vals).gang.handler = s.gang.handler :=
  by rw [State.writeV_gang_frame]

@[simp] theorem State.writeV_gang_suspended (s : State) (lat n : Nat) (vals : List (Nat × Word)) : (s.writeV lat n vals).gang.suspended = s.gang.suspended :=
  by rw [State.writeV_gang_frame]

@[simp] theorem State.writeV_gang_marks (s : State) (lat n : Nat) (vals : List (Nat × Word)) : (s.writeV lat n vals).gang.marks = s.gang.marks :=
  by rw [State.writeV_gang_frame]

@[simp] theorem State.writeV_gang_pair (s : State) (lat n : Nat) (vals : List (Nat × Word)) : (s.writeV lat n vals).gang.pair = s.gang.pair :=
  by rw [State.writeV_gang_frame]

@[simp] theorem State.writeV_gang_hold (s : State) (lat n : Nat) (vals : List (Nat × Word)) : (s.writeV lat n vals).gang.hold = s.gang.hold :=
  by rw [State.writeV_gang_frame]

@[simp] theorem State.writeV_gang_groups (s : State) (lat n : Nat) (vals : List (Nat × Word)) : (s.writeV lat n vals).gang.groups = s.gang.groups :=
  by rw [State.writeV_gang_frame]

@[simp] theorem State.writeV_gang_ej (s : State) (lat n : Nat) (vals : List (Nat × Word)) : (s.writeV lat n vals).gang.ej = s.gang.ej :=
  by rw [State.writeV_gang_frame]

@[simp] theorem State.writeV_gang_handleIds (s : State) (lat n : Nat) (vals : List (Nat × Word)) : (s.writeV lat n vals).gang.handleIds = s.gang.handleIds :=
  by rw [State.writeV_gang_frame]

@[simp] theorem State.writeV_gang_arrival (s : State) (lat n : Nat) (vals : List (Nat × Word)) : (s.writeV lat n vals).gang.arrival = s.gang.arrival :=
  by rw [State.writeV_gang_frame]

@[simp] theorem State.writeV_gang_lastIssue (s : State) (lat n : Nat) (vals : List (Nat × Word)) : (s.writeV lat n vals).gang.lastIssue = s.gang.lastIssue :=
  by rw [State.writeV_gang_frame]

@[simp] theorem State.writeV_gang_sldsel (s : State) (lat n : Nat) (vals : List (Nat × Word)) : (s.writeV lat n vals).gang.sldsel = s.gang.sldsel :=
  by rw [State.writeV_gang_frame]

@[simp] theorem State.writeV_gang_discard (s : State) (lat n : Nat) (vals : List (Nat × Word)) : (s.writeV lat n vals).gang.discard = s.gang.discard :=
  by rw [State.writeV_gang_frame]

@[simp] theorem State.writeV_gang_discarded (s : State) (lat n : Nat) (vals : List (Nat × Word)) : (s.writeV lat n vals).gang.discarded = s.gang.discarded :=
  by rw [State.writeV_gang_frame]

@[simp] theorem State.writeV_gang_quick (s : State) (lat n : Nat) (vals : List (Nat × Word)) : (s.writeV lat n vals).gang.quick = s.gang.quick :=
  by rw [State.writeV_gang_frame]

@[simp] theorem State.writeV_gang_nextIssue (s : State) (lat n : Nat) (vals : List (Nat × Word)) : (s.writeV lat n vals).gang.nextIssue = s.gang.nextIssue :=
  by rw [State.writeV_gang_frame]

@[simp] theorem State.writeV_gang_since (s : State) (lat n : Nat) (vals : List (Nat × Word)) : (s.writeV lat n vals).gang.since = s.gang.since :=
  by rw [State.writeV_gang_frame]

@[simp] theorem State.writeV_gang_alone (s : State) (lat n : Nat) (vals : List (Nat × Word)) : (s.writeV lat n vals).gang.alone = s.gang.alone :=
  by rw [State.writeV_gang_frame]

@[simp] theorem State.writeV_gang_unchecked (s : State) (lat n : Nat) (vals : List (Nat × Word)) : (s.writeV lat n vals).gang.unchecked = s.gang.unchecked :=
  by rw [State.writeV_gang_frame]

@[simp] theorem State.writeV_gang_pushSince (s : State) (lat n : Nat) (vals : List (Nat × Word)) : (s.writeV lat n vals).gang.pushSince = s.gang.pushSince :=
  by rw [State.writeV_gang_frame]

@[simp] theorem State.writeV_gang_located (s : State) (lat n : Nat) (vals : List (Nat × Word)) : (s.writeV lat n vals).gang.located = s.gang.located :=
  by rw [State.writeV_gang_frame]

@[simp] theorem State.writeV_gang_left (s : State) (lat n : Nat) (vals : List (Nat × Word)) : (s.writeV lat n vals).gang.left = s.gang.left :=
  by rw [State.writeV_gang_frame]

/-! ### writeTag -/

theorem State.writeTag_frame (s : State) (lat k : Nat) (on : Bool) : s.onlyGang (s.writeTag lat k on) := by
  unfold State.writeTag State.shadow
  dsimp only
  split <;> rfl

@[simp] theorem State.writeTag_run (s : State) (lat k : Nat) (on : Bool) : (s.writeTag lat k on).run = s.run :=
  (State.writeTag_frame s _ _ _).run

@[simp] theorem State.writeTag_ipc (s : State) (lat k : Nat) (on : Bool) : (s.writeTag lat k on).ipc = s.ipc :=
  (State.writeTag_frame s _ _ _).ipc

@[simp] theorem State.writeTag_crew (s : State) (lat k : Nat) (on : Bool) : (s.writeTag lat k on).crew = s.crew :=
  (State.writeTag_frame s _ _ _).crew

@[simp] theorem State.writeTag_gangs (s : State) (lat k : Nat) (on : Bool) : (s.writeTag lat k on).gangs = s.gangs :=
  (State.writeTag_frame s _ _ _).gangs

@[simp] theorem State.writeTag_crews (s : State) (lat k : Nat) (on : Bool) : (s.writeTag lat k on).crews = s.crews :=
  (State.writeTag_frame s _ _ _).crews

@[simp] theorem State.writeTag_saved (s : State) (lat k : Nat) (on : Bool) : (s.writeTag lat k on).saved = s.saved :=
  (State.writeTag_frame s _ _ _).saved

@[simp] theorem State.writeTag_launches (s : State) (lat k : Nat) (on : Bool) : (s.writeTag lat k on).launches = s.launches :=
  (State.writeTag_frame s _ _ _).launches

@[simp] theorem State.writeTag_nextCrew (s : State) (lat k : Nat) (on : Bool) : (s.writeTag lat k on).nextCrew = s.nextCrew :=
  (State.writeTag_frame s _ _ _).nextCrew

@[simp] theorem State.writeTag_ops (s : State) (lat k : Nat) (on : Bool) : (s.writeTag lat k on).ops = s.ops :=
  (State.writeTag_frame s _ _ _).ops

@[simp] theorem State.writeTag_nextOp (s : State) (lat k : Nat) (on : Bool) : (s.writeTag lat k on).nextOp = s.nextOp :=
  (State.writeTag_frame s _ _ _).nextOp

@[simp] theorem State.writeTag_tokens (s : State) (lat k : Nat) (on : Bool) : (s.writeTag lat k on).tokens = s.tokens :=
  (State.writeTag_frame s _ _ _).tokens

@[simp] theorem State.writeTag_sys (s : State) (lat k : Nat) (on : Bool) : (s.writeTag lat k on).sys = s.sys :=
  (State.writeTag_frame s _ _ _).sys

@[simp] theorem State.writeTag_queues (s : State) (lat k : Nat) (on : Bool) : (s.writeTag lat k on).queues = s.queues :=
  (State.writeTag_frame s _ _ _).queues

@[simp] theorem State.writeTag_host (s : State) (lat k : Nat) (on : Bool) : (s.writeTag lat k on).host = s.host :=
  (State.writeTag_frame s _ _ _).host

@[simp] theorem State.writeTag_nic (s : State) (lat k : Nat) (on : Bool) : (s.writeTag lat k on).nic = s.nic :=
  (State.writeTag_frame s _ _ _).nic

@[simp] theorem State.writeTag_clock (s : State) (lat k : Nat) (on : Bool) : (s.writeTag lat k on).clock = s.clock :=
  (State.writeTag_frame s _ _ _).clock

@[simp] theorem State.writeTag_issues (s : State) (lat k : Nat) (on : Bool) : (s.writeTag lat k on).issues = s.issues :=
  (State.writeTag_frame s _ _ _).issues

@[simp] theorem State.writeTag_freeCtr (s : State) (lat k : Nat) (on : Bool) : (s.writeTag lat k on).freeCtr = s.freeCtr :=
  (State.writeTag_frame s _ _ _).freeCtr

@[simp] theorem State.writeTag_fuse (s : State) (lat k : Nat) (on : Bool) : (s.writeTag lat k on).fuse = s.fuse :=
  (State.writeTag_frame s _ _ _).fuse

@[simp] theorem State.writeTag_turns (s : State) (lat k : Nat) (on : Bool) : (s.writeTag lat k on).turns = s.turns :=
  (State.writeTag_frame s _ _ _).turns

theorem State.writeTag_gang_frame (s : State) (lat k : Nat) (on : Bool) :
    (s.writeTag lat k on).gang =
      { s.gang with stags := (s.writeTag lat k on).gang.stags, shadows := (s.writeTag lat k on).gang.shadows } := by
  unfold State.writeTag State.shadow
  dsimp only
  split <;> rfl

@[simp] theorem State.writeTag_gang_id (s : State) (lat k : Nat) (on : Bool) : (s.writeTag lat k on).gang.id = s.gang.id :=
  by rw [State.writeTag_gang_frame]

@[simp] theorem State.writeTag_gang_crewId (s : State) (lat k : Nat) (on : Bool) : (s.writeTag lat k on).gang.crewId = s.gang.crewId :=
  by rw [State.writeTag_gang_frame]

@[simp] theorem State.writeTag_gang_idx (s : State) (lat k : Nat) (on : Bool) : (s.writeTag lat k on).gang.idx = s.gang.idx :=
  by rw [State.writeTag_gang_frame]

@[simp] theorem State.writeTag_gang_slot (s : State) (lat k : Nat) (on : Bool) : (s.writeTag lat k on).gang.slot = s.gang.slot :=
  by rw [State.writeTag_gang_frame]

@[simp] theorem State.writeTag_gang_active (s : State) (lat k : Nat) (on : Bool) : (s.writeTag lat k on).gang.active = s.gang.active :=
  by rw [State.writeTag_gang_frame]

@[simp] theorem State.writeTag_gang_v (s : State) (lat k : Nat) (on : Bool) : (s.writeTag lat k on).gang.v = s.gang.v :=
  by rw [State.writeTag_gang_frame]

@[simp] theorem State.writeTag_gang_s (s : State) (lat k : Nat) (on : Bool) : (s.writeTag lat k on).gang.s = s.gang.s :=
  by rw [State.writeTag_gang_frame]

@[simp] theorem State.writeTag_gang_p (s : State) (lat k : Nat) (on : Bool) : (s.writeTag lat k on).gang.p = s.gang.p :=
  by rw [State.writeTag_gang_frame]

@[simp] theorem State.writeTag_gang_g (s : State) (lat k : Nat) (on : Bool) : (s.writeTag lat k on).gang.g = s.gang.g :=
  by rw [State.writeTag_gang_frame]

@[simp] theorem State.writeTag_gang_strands (s : State) (lat k : Nat) (on : Bool) : (s.writeTag lat k on).gang.strands = s.gang.strands :=
  by rw [State.writeTag_gang_frame]

@[simp] theorem State.writeTag_gang_rnd (s : State) (lat k : Nat) (on : Bool) : (s.writeTag lat k on).gang.rnd = s.gang.rnd :=
  by rw [State.writeTag_gang_frame]

@[simp] theorem State.writeTag_gang_urnd (s : State) (lat k : Nat) (on : Bool) : (s.writeTag lat k on).gang.urnd = s.gang.urnd :=
  by rw [State.writeTag_gang_frame]

@[simp] theorem State.writeTag_gang_fpstat (s : State) (lat k : Nat) (on : Bool) : (s.writeTag lat k on).gang.fpstat = s.gang.fpstat :=
  by rw [State.writeTag_gang_frame]

@[simp] theorem State.writeTag_gang_smask (s : State) (lat k : Nat) (on : Bool) : (s.writeTag lat k on).gang.smask = s.gang.smask :=
  by rw [State.writeTag_gang_frame]

@[simp] theorem State.writeTag_gang_spass (s : State) (lat k : Nat) (on : Bool) : (s.writeTag lat k on).gang.spass = s.gang.spass :=
  by rw [State.writeTag_gang_frame]

@[simp] theorem State.writeTag_gang_myph (s : State) (lat k : Nat) (on : Bool) : (s.writeTag lat k on).gang.myph = s.gang.myph :=
  by rw [State.writeTag_gang_frame]

@[simp] theorem State.writeTag_gang_trapCause (s : State) (lat k : Nat) (on : Bool) : (s.writeTag lat k on).gang.trapCause = s.gang.trapCause :=
  by rw [State.writeTag_gang_frame]

@[simp] theorem State.writeTag_gang_trapPc (s : State) (lat k : Nat) (on : Bool) : (s.writeTag lat k on).gang.trapPc = s.gang.trapPc :=
  by rw [State.writeTag_gang_frame]

@[simp] theorem State.writeTag_gang_trapInfo (s : State) (lat k : Nat) (on : Bool) : (s.writeTag lat k on).gang.trapInfo = s.gang.trapInfo :=
  by rw [State.writeTag_gang_frame]

@[simp] theorem State.writeTag_gang_trapRun (s : State) (lat k : Nat) (on : Bool) : (s.writeTag lat k on).gang.trapRun = s.gang.trapRun :=
  by rw [State.writeTag_gang_frame]

@[simp] theorem State.writeTag_gang_priv (s : State) (lat k : Nat) (on : Bool) : (s.writeTag lat k on).gang.priv = s.gang.priv :=
  by rw [State.writeTag_gang_frame]

@[simp] theorem State.writeTag_gang_handler (s : State) (lat k : Nat) (on : Bool) : (s.writeTag lat k on).gang.handler = s.gang.handler :=
  by rw [State.writeTag_gang_frame]

@[simp] theorem State.writeTag_gang_suspended (s : State) (lat k : Nat) (on : Bool) : (s.writeTag lat k on).gang.suspended = s.gang.suspended :=
  by rw [State.writeTag_gang_frame]

@[simp] theorem State.writeTag_gang_marks (s : State) (lat k : Nat) (on : Bool) : (s.writeTag lat k on).gang.marks = s.gang.marks :=
  by rw [State.writeTag_gang_frame]

@[simp] theorem State.writeTag_gang_pair (s : State) (lat k : Nat) (on : Bool) : (s.writeTag lat k on).gang.pair = s.gang.pair :=
  by rw [State.writeTag_gang_frame]

@[simp] theorem State.writeTag_gang_hold (s : State) (lat k : Nat) (on : Bool) : (s.writeTag lat k on).gang.hold = s.gang.hold :=
  by rw [State.writeTag_gang_frame]

@[simp] theorem State.writeTag_gang_groups (s : State) (lat k : Nat) (on : Bool) : (s.writeTag lat k on).gang.groups = s.gang.groups :=
  by rw [State.writeTag_gang_frame]

@[simp] theorem State.writeTag_gang_ej (s : State) (lat k : Nat) (on : Bool) : (s.writeTag lat k on).gang.ej = s.gang.ej :=
  by rw [State.writeTag_gang_frame]

@[simp] theorem State.writeTag_gang_handleIds (s : State) (lat k : Nat) (on : Bool) : (s.writeTag lat k on).gang.handleIds = s.gang.handleIds :=
  by rw [State.writeTag_gang_frame]

@[simp] theorem State.writeTag_gang_arrival (s : State) (lat k : Nat) (on : Bool) : (s.writeTag lat k on).gang.arrival = s.gang.arrival :=
  by rw [State.writeTag_gang_frame]

@[simp] theorem State.writeTag_gang_lastIssue (s : State) (lat k : Nat) (on : Bool) : (s.writeTag lat k on).gang.lastIssue = s.gang.lastIssue :=
  by rw [State.writeTag_gang_frame]

@[simp] theorem State.writeTag_gang_sldsel (s : State) (lat k : Nat) (on : Bool) : (s.writeTag lat k on).gang.sldsel = s.gang.sldsel :=
  by rw [State.writeTag_gang_frame]

@[simp] theorem State.writeTag_gang_discard (s : State) (lat k : Nat) (on : Bool) : (s.writeTag lat k on).gang.discard = s.gang.discard :=
  by rw [State.writeTag_gang_frame]

@[simp] theorem State.writeTag_gang_discarded (s : State) (lat k : Nat) (on : Bool) : (s.writeTag lat k on).gang.discarded = s.gang.discarded :=
  by rw [State.writeTag_gang_frame]

@[simp] theorem State.writeTag_gang_quick (s : State) (lat k : Nat) (on : Bool) : (s.writeTag lat k on).gang.quick = s.gang.quick :=
  by rw [State.writeTag_gang_frame]

@[simp] theorem State.writeTag_gang_nextIssue (s : State) (lat k : Nat) (on : Bool) : (s.writeTag lat k on).gang.nextIssue = s.gang.nextIssue :=
  by rw [State.writeTag_gang_frame]

@[simp] theorem State.writeTag_gang_since (s : State) (lat k : Nat) (on : Bool) : (s.writeTag lat k on).gang.since = s.gang.since :=
  by rw [State.writeTag_gang_frame]

@[simp] theorem State.writeTag_gang_alone (s : State) (lat k : Nat) (on : Bool) : (s.writeTag lat k on).gang.alone = s.gang.alone :=
  by rw [State.writeTag_gang_frame]

@[simp] theorem State.writeTag_gang_unchecked (s : State) (lat k : Nat) (on : Bool) : (s.writeTag lat k on).gang.unchecked = s.gang.unchecked :=
  by rw [State.writeTag_gang_frame]

@[simp] theorem State.writeTag_gang_pushSince (s : State) (lat k : Nat) (on : Bool) : (s.writeTag lat k on).gang.pushSince = s.gang.pushSince :=
  by rw [State.writeTag_gang_frame]

@[simp] theorem State.writeTag_gang_located (s : State) (lat k : Nat) (on : Bool) : (s.writeTag lat k on).gang.located = s.gang.located :=
  by rw [State.writeTag_gang_frame]

@[simp] theorem State.writeTag_gang_left (s : State) (lat k : Nat) (on : Bool) : (s.writeTag lat k on).gang.left = s.gang.left :=
  by rw [State.writeTag_gang_frame]

/-! ### writeSBits -/

theorem State.writeSBits_frame (s : State) (lat n : Nat) (x : Dword) : s.onlyGang (s.writeSBits lat n x) := by
  unfold State.writeSBits State.shadow
  dsimp only
  split <;> rfl

@[simp] theorem State.writeSBits_run (s : State) (lat n : Nat) (x : Dword) : (s.writeSBits lat n x).run = s.run :=
  (State.writeSBits_frame s _ _ _).run

@[simp] theorem State.writeSBits_ipc (s : State) (lat n : Nat) (x : Dword) : (s.writeSBits lat n x).ipc = s.ipc :=
  (State.writeSBits_frame s _ _ _).ipc

@[simp] theorem State.writeSBits_crew (s : State) (lat n : Nat) (x : Dword) : (s.writeSBits lat n x).crew = s.crew :=
  (State.writeSBits_frame s _ _ _).crew

@[simp] theorem State.writeSBits_gangs (s : State) (lat n : Nat) (x : Dword) : (s.writeSBits lat n x).gangs = s.gangs :=
  (State.writeSBits_frame s _ _ _).gangs

@[simp] theorem State.writeSBits_crews (s : State) (lat n : Nat) (x : Dword) : (s.writeSBits lat n x).crews = s.crews :=
  (State.writeSBits_frame s _ _ _).crews

@[simp] theorem State.writeSBits_saved (s : State) (lat n : Nat) (x : Dword) : (s.writeSBits lat n x).saved = s.saved :=
  (State.writeSBits_frame s _ _ _).saved

@[simp] theorem State.writeSBits_launches (s : State) (lat n : Nat) (x : Dword) : (s.writeSBits lat n x).launches = s.launches :=
  (State.writeSBits_frame s _ _ _).launches

@[simp] theorem State.writeSBits_nextCrew (s : State) (lat n : Nat) (x : Dword) : (s.writeSBits lat n x).nextCrew = s.nextCrew :=
  (State.writeSBits_frame s _ _ _).nextCrew

@[simp] theorem State.writeSBits_ops (s : State) (lat n : Nat) (x : Dword) : (s.writeSBits lat n x).ops = s.ops :=
  (State.writeSBits_frame s _ _ _).ops

@[simp] theorem State.writeSBits_nextOp (s : State) (lat n : Nat) (x : Dword) : (s.writeSBits lat n x).nextOp = s.nextOp :=
  (State.writeSBits_frame s _ _ _).nextOp

@[simp] theorem State.writeSBits_tokens (s : State) (lat n : Nat) (x : Dword) : (s.writeSBits lat n x).tokens = s.tokens :=
  (State.writeSBits_frame s _ _ _).tokens

@[simp] theorem State.writeSBits_sys (s : State) (lat n : Nat) (x : Dword) : (s.writeSBits lat n x).sys = s.sys :=
  (State.writeSBits_frame s _ _ _).sys

@[simp] theorem State.writeSBits_queues (s : State) (lat n : Nat) (x : Dword) : (s.writeSBits lat n x).queues = s.queues :=
  (State.writeSBits_frame s _ _ _).queues

@[simp] theorem State.writeSBits_host (s : State) (lat n : Nat) (x : Dword) : (s.writeSBits lat n x).host = s.host :=
  (State.writeSBits_frame s _ _ _).host

@[simp] theorem State.writeSBits_nic (s : State) (lat n : Nat) (x : Dword) : (s.writeSBits lat n x).nic = s.nic :=
  (State.writeSBits_frame s _ _ _).nic

@[simp] theorem State.writeSBits_clock (s : State) (lat n : Nat) (x : Dword) : (s.writeSBits lat n x).clock = s.clock :=
  (State.writeSBits_frame s _ _ _).clock

@[simp] theorem State.writeSBits_issues (s : State) (lat n : Nat) (x : Dword) : (s.writeSBits lat n x).issues = s.issues :=
  (State.writeSBits_frame s _ _ _).issues

@[simp] theorem State.writeSBits_freeCtr (s : State) (lat n : Nat) (x : Dword) : (s.writeSBits lat n x).freeCtr = s.freeCtr :=
  (State.writeSBits_frame s _ _ _).freeCtr

@[simp] theorem State.writeSBits_fuse (s : State) (lat n : Nat) (x : Dword) : (s.writeSBits lat n x).fuse = s.fuse :=
  (State.writeSBits_frame s _ _ _).fuse

@[simp] theorem State.writeSBits_turns (s : State) (lat n : Nat) (x : Dword) : (s.writeSBits lat n x).turns = s.turns :=
  (State.writeSBits_frame s _ _ _).turns

theorem State.writeSBits_gang_frame (s : State) (lat n : Nat) (x : Dword) :
    (s.writeSBits lat n x).gang =
      { s.gang with s := (s.writeSBits lat n x).gang.s, handleIds := (s.writeSBits lat n x).gang.handleIds, shadows := (s.writeSBits lat n x).gang.shadows } := by
  unfold State.writeSBits State.shadow
  dsimp only
  split <;> rfl

@[simp] theorem State.writeSBits_gang_id (s : State) (lat n : Nat) (x : Dword) : (s.writeSBits lat n x).gang.id = s.gang.id :=
  by rw [State.writeSBits_gang_frame]

@[simp] theorem State.writeSBits_gang_crewId (s : State) (lat n : Nat) (x : Dword) : (s.writeSBits lat n x).gang.crewId = s.gang.crewId :=
  by rw [State.writeSBits_gang_frame]

@[simp] theorem State.writeSBits_gang_idx (s : State) (lat n : Nat) (x : Dword) : (s.writeSBits lat n x).gang.idx = s.gang.idx :=
  by rw [State.writeSBits_gang_frame]

@[simp] theorem State.writeSBits_gang_slot (s : State) (lat n : Nat) (x : Dword) : (s.writeSBits lat n x).gang.slot = s.gang.slot :=
  by rw [State.writeSBits_gang_frame]

@[simp] theorem State.writeSBits_gang_active (s : State) (lat n : Nat) (x : Dword) : (s.writeSBits lat n x).gang.active = s.gang.active :=
  by rw [State.writeSBits_gang_frame]

@[simp] theorem State.writeSBits_gang_v (s : State) (lat n : Nat) (x : Dword) : (s.writeSBits lat n x).gang.v = s.gang.v :=
  by rw [State.writeSBits_gang_frame]

@[simp] theorem State.writeSBits_gang_stags (s : State) (lat n : Nat) (x : Dword) : (s.writeSBits lat n x).gang.stags = s.gang.stags :=
  by rw [State.writeSBits_gang_frame]

@[simp] theorem State.writeSBits_gang_p (s : State) (lat n : Nat) (x : Dword) : (s.writeSBits lat n x).gang.p = s.gang.p :=
  by rw [State.writeSBits_gang_frame]

@[simp] theorem State.writeSBits_gang_g (s : State) (lat n : Nat) (x : Dword) : (s.writeSBits lat n x).gang.g = s.gang.g :=
  by rw [State.writeSBits_gang_frame]

@[simp] theorem State.writeSBits_gang_strands (s : State) (lat n : Nat) (x : Dword) : (s.writeSBits lat n x).gang.strands = s.gang.strands :=
  by rw [State.writeSBits_gang_frame]

@[simp] theorem State.writeSBits_gang_rnd (s : State) (lat n : Nat) (x : Dword) : (s.writeSBits lat n x).gang.rnd = s.gang.rnd :=
  by rw [State.writeSBits_gang_frame]

@[simp] theorem State.writeSBits_gang_urnd (s : State) (lat n : Nat) (x : Dword) : (s.writeSBits lat n x).gang.urnd = s.gang.urnd :=
  by rw [State.writeSBits_gang_frame]

@[simp] theorem State.writeSBits_gang_fpstat (s : State) (lat n : Nat) (x : Dword) : (s.writeSBits lat n x).gang.fpstat = s.gang.fpstat :=
  by rw [State.writeSBits_gang_frame]

@[simp] theorem State.writeSBits_gang_smask (s : State) (lat n : Nat) (x : Dword) : (s.writeSBits lat n x).gang.smask = s.gang.smask :=
  by rw [State.writeSBits_gang_frame]

@[simp] theorem State.writeSBits_gang_spass (s : State) (lat n : Nat) (x : Dword) : (s.writeSBits lat n x).gang.spass = s.gang.spass :=
  by rw [State.writeSBits_gang_frame]

@[simp] theorem State.writeSBits_gang_myph (s : State) (lat n : Nat) (x : Dword) : (s.writeSBits lat n x).gang.myph = s.gang.myph :=
  by rw [State.writeSBits_gang_frame]

@[simp] theorem State.writeSBits_gang_trapCause (s : State) (lat n : Nat) (x : Dword) : (s.writeSBits lat n x).gang.trapCause = s.gang.trapCause :=
  by rw [State.writeSBits_gang_frame]

@[simp] theorem State.writeSBits_gang_trapPc (s : State) (lat n : Nat) (x : Dword) : (s.writeSBits lat n x).gang.trapPc = s.gang.trapPc :=
  by rw [State.writeSBits_gang_frame]

@[simp] theorem State.writeSBits_gang_trapInfo (s : State) (lat n : Nat) (x : Dword) : (s.writeSBits lat n x).gang.trapInfo = s.gang.trapInfo :=
  by rw [State.writeSBits_gang_frame]

@[simp] theorem State.writeSBits_gang_trapRun (s : State) (lat n : Nat) (x : Dword) : (s.writeSBits lat n x).gang.trapRun = s.gang.trapRun :=
  by rw [State.writeSBits_gang_frame]

@[simp] theorem State.writeSBits_gang_priv (s : State) (lat n : Nat) (x : Dword) : (s.writeSBits lat n x).gang.priv = s.gang.priv :=
  by rw [State.writeSBits_gang_frame]

@[simp] theorem State.writeSBits_gang_handler (s : State) (lat n : Nat) (x : Dword) : (s.writeSBits lat n x).gang.handler = s.gang.handler :=
  by rw [State.writeSBits_gang_frame]

@[simp] theorem State.writeSBits_gang_suspended (s : State) (lat n : Nat) (x : Dword) : (s.writeSBits lat n x).gang.suspended = s.gang.suspended :=
  by rw [State.writeSBits_gang_frame]

@[simp] theorem State.writeSBits_gang_marks (s : State) (lat n : Nat) (x : Dword) : (s.writeSBits lat n x).gang.marks = s.gang.marks :=
  by rw [State.writeSBits_gang_frame]

@[simp] theorem State.writeSBits_gang_pair (s : State) (lat n : Nat) (x : Dword) : (s.writeSBits lat n x).gang.pair = s.gang.pair :=
  by rw [State.writeSBits_gang_frame]

@[simp] theorem State.writeSBits_gang_hold (s : State) (lat n : Nat) (x : Dword) : (s.writeSBits lat n x).gang.hold = s.gang.hold :=
  by rw [State.writeSBits_gang_frame]

@[simp] theorem State.writeSBits_gang_groups (s : State) (lat n : Nat) (x : Dword) : (s.writeSBits lat n x).gang.groups = s.gang.groups :=
  by rw [State.writeSBits_gang_frame]

@[simp] theorem State.writeSBits_gang_ej (s : State) (lat n : Nat) (x : Dword) : (s.writeSBits lat n x).gang.ej = s.gang.ej :=
  by rw [State.writeSBits_gang_frame]

@[simp] theorem State.writeSBits_gang_arrival (s : State) (lat n : Nat) (x : Dword) : (s.writeSBits lat n x).gang.arrival = s.gang.arrival :=
  by rw [State.writeSBits_gang_frame]

@[simp] theorem State.writeSBits_gang_lastIssue (s : State) (lat n : Nat) (x : Dword) : (s.writeSBits lat n x).gang.lastIssue = s.gang.lastIssue :=
  by rw [State.writeSBits_gang_frame]

@[simp] theorem State.writeSBits_gang_sldsel (s : State) (lat n : Nat) (x : Dword) : (s.writeSBits lat n x).gang.sldsel = s.gang.sldsel :=
  by rw [State.writeSBits_gang_frame]

@[simp] theorem State.writeSBits_gang_discard (s : State) (lat n : Nat) (x : Dword) : (s.writeSBits lat n x).gang.discard = s.gang.discard :=
  by rw [State.writeSBits_gang_frame]

@[simp] theorem State.writeSBits_gang_discarded (s : State) (lat n : Nat) (x : Dword) : (s.writeSBits lat n x).gang.discarded = s.gang.discarded :=
  by rw [State.writeSBits_gang_frame]

@[simp] theorem State.writeSBits_gang_quick (s : State) (lat n : Nat) (x : Dword) : (s.writeSBits lat n x).gang.quick = s.gang.quick :=
  by rw [State.writeSBits_gang_frame]

@[simp] theorem State.writeSBits_gang_nextIssue (s : State) (lat n : Nat) (x : Dword) : (s.writeSBits lat n x).gang.nextIssue = s.gang.nextIssue :=
  by rw [State.writeSBits_gang_frame]

@[simp] theorem State.writeSBits_gang_since (s : State) (lat n : Nat) (x : Dword) : (s.writeSBits lat n x).gang.since = s.gang.since :=
  by rw [State.writeSBits_gang_frame]

@[simp] theorem State.writeSBits_gang_alone (s : State) (lat n : Nat) (x : Dword) : (s.writeSBits lat n x).gang.alone = s.gang.alone :=
  by rw [State.writeSBits_gang_frame]

@[simp] theorem State.writeSBits_gang_unchecked (s : State) (lat n : Nat) (x : Dword) : (s.writeSBits lat n x).gang.unchecked = s.gang.unchecked :=
  by rw [State.writeSBits_gang_frame]

@[simp] theorem State.writeSBits_gang_pushSince (s : State) (lat n : Nat) (x : Dword) : (s.writeSBits lat n x).gang.pushSince = s.gang.pushSince :=
  by rw [State.writeSBits_gang_frame]

@[simp] theorem State.writeSBits_gang_located (s : State) (lat n : Nat) (x : Dword) : (s.writeSBits lat n x).gang.located = s.gang.located :=
  by rw [State.writeSBits_gang_frame]

@[simp] theorem State.writeSBits_gang_left (s : State) (lat n : Nat) (x : Dword) : (s.writeSBits lat n x).gang.left = s.gang.left :=
  by rw [State.writeSBits_gang_frame]

/-! ### writeS -/

theorem State.writeS_frame (s : State) (lat n : Nat) (x : Dword) : s.onlyGang (s.writeS lat n x) := (State.writeSBits_frame s _ _ _).trans (State.writeTag_frame _ _ _ _)

@[simp] theorem State.writeS_run (s : State) (lat n : Nat) (x : Dword) : (s.writeS lat n x).run = s.run :=
  (State.writeS_frame s _ _ _).run

@[simp] theorem State.writeS_ipc (s : State) (lat n : Nat) (x : Dword) : (s.writeS lat n x).ipc = s.ipc :=
  (State.writeS_frame s _ _ _).ipc

@[simp] theorem State.writeS_crew (s : State) (lat n : Nat) (x : Dword) : (s.writeS lat n x).crew = s.crew :=
  (State.writeS_frame s _ _ _).crew

@[simp] theorem State.writeS_gangs (s : State) (lat n : Nat) (x : Dword) : (s.writeS lat n x).gangs = s.gangs :=
  (State.writeS_frame s _ _ _).gangs

@[simp] theorem State.writeS_crews (s : State) (lat n : Nat) (x : Dword) : (s.writeS lat n x).crews = s.crews :=
  (State.writeS_frame s _ _ _).crews

@[simp] theorem State.writeS_saved (s : State) (lat n : Nat) (x : Dword) : (s.writeS lat n x).saved = s.saved :=
  (State.writeS_frame s _ _ _).saved

@[simp] theorem State.writeS_launches (s : State) (lat n : Nat) (x : Dword) : (s.writeS lat n x).launches = s.launches :=
  (State.writeS_frame s _ _ _).launches

@[simp] theorem State.writeS_nextCrew (s : State) (lat n : Nat) (x : Dword) : (s.writeS lat n x).nextCrew = s.nextCrew :=
  (State.writeS_frame s _ _ _).nextCrew

@[simp] theorem State.writeS_ops (s : State) (lat n : Nat) (x : Dword) : (s.writeS lat n x).ops = s.ops :=
  (State.writeS_frame s _ _ _).ops

@[simp] theorem State.writeS_nextOp (s : State) (lat n : Nat) (x : Dword) : (s.writeS lat n x).nextOp = s.nextOp :=
  (State.writeS_frame s _ _ _).nextOp

@[simp] theorem State.writeS_tokens (s : State) (lat n : Nat) (x : Dword) : (s.writeS lat n x).tokens = s.tokens :=
  (State.writeS_frame s _ _ _).tokens

@[simp] theorem State.writeS_sys (s : State) (lat n : Nat) (x : Dword) : (s.writeS lat n x).sys = s.sys :=
  (State.writeS_frame s _ _ _).sys

@[simp] theorem State.writeS_queues (s : State) (lat n : Nat) (x : Dword) : (s.writeS lat n x).queues = s.queues :=
  (State.writeS_frame s _ _ _).queues

@[simp] theorem State.writeS_host (s : State) (lat n : Nat) (x : Dword) : (s.writeS lat n x).host = s.host :=
  (State.writeS_frame s _ _ _).host

@[simp] theorem State.writeS_nic (s : State) (lat n : Nat) (x : Dword) : (s.writeS lat n x).nic = s.nic :=
  (State.writeS_frame s _ _ _).nic

@[simp] theorem State.writeS_clock (s : State) (lat n : Nat) (x : Dword) : (s.writeS lat n x).clock = s.clock :=
  (State.writeS_frame s _ _ _).clock

@[simp] theorem State.writeS_issues (s : State) (lat n : Nat) (x : Dword) : (s.writeS lat n x).issues = s.issues :=
  (State.writeS_frame s _ _ _).issues

@[simp] theorem State.writeS_freeCtr (s : State) (lat n : Nat) (x : Dword) : (s.writeS lat n x).freeCtr = s.freeCtr :=
  (State.writeS_frame s _ _ _).freeCtr

@[simp] theorem State.writeS_fuse (s : State) (lat n : Nat) (x : Dword) : (s.writeS lat n x).fuse = s.fuse :=
  (State.writeS_frame s _ _ _).fuse

@[simp] theorem State.writeS_turns (s : State) (lat n : Nat) (x : Dword) : (s.writeS lat n x).turns = s.turns :=
  (State.writeS_frame s _ _ _).turns

theorem State.writeS_gang_frame (s : State) (lat n : Nat) (x : Dword) :
    (s.writeS lat n x).gang =
      { s.gang with s := (s.writeS lat n x).gang.s, handleIds := (s.writeS lat n x).gang.handleIds, stags := (s.writeS lat n x).gang.stags, shadows := (s.writeS lat n x).gang.shadows } := by
  have h1 := State.writeTag_gang_frame (s.writeSBits lat n x) lat (n / 2) false
  have h2 := State.writeSBits_gang_frame s lat n x
  unfold State.writeS
  rw [h1, h2]

@[simp] theorem State.writeS_gang_id (s : State) (lat n : Nat) (x : Dword) : (s.writeS lat n x).gang.id = s.gang.id :=
  by rw [State.writeS_gang_frame]

@[simp] theorem State.writeS_gang_crewId (s : State) (lat n : Nat) (x : Dword) : (s.writeS lat n x).gang.crewId = s.gang.crewId :=
  by rw [State.writeS_gang_frame]

@[simp] theorem State.writeS_gang_idx (s : State) (lat n : Nat) (x : Dword) : (s.writeS lat n x).gang.idx = s.gang.idx :=
  by rw [State.writeS_gang_frame]

@[simp] theorem State.writeS_gang_slot (s : State) (lat n : Nat) (x : Dword) : (s.writeS lat n x).gang.slot = s.gang.slot :=
  by rw [State.writeS_gang_frame]

@[simp] theorem State.writeS_gang_active (s : State) (lat n : Nat) (x : Dword) : (s.writeS lat n x).gang.active = s.gang.active :=
  by rw [State.writeS_gang_frame]

@[simp] theorem State.writeS_gang_v (s : State) (lat n : Nat) (x : Dword) : (s.writeS lat n x).gang.v = s.gang.v :=
  by rw [State.writeS_gang_frame]

@[simp] theorem State.writeS_gang_p (s : State) (lat n : Nat) (x : Dword) : (s.writeS lat n x).gang.p = s.gang.p :=
  by rw [State.writeS_gang_frame]

@[simp] theorem State.writeS_gang_g (s : State) (lat n : Nat) (x : Dword) : (s.writeS lat n x).gang.g = s.gang.g :=
  by rw [State.writeS_gang_frame]

@[simp] theorem State.writeS_gang_strands (s : State) (lat n : Nat) (x : Dword) : (s.writeS lat n x).gang.strands = s.gang.strands :=
  by rw [State.writeS_gang_frame]

@[simp] theorem State.writeS_gang_rnd (s : State) (lat n : Nat) (x : Dword) : (s.writeS lat n x).gang.rnd = s.gang.rnd :=
  by rw [State.writeS_gang_frame]

@[simp] theorem State.writeS_gang_urnd (s : State) (lat n : Nat) (x : Dword) : (s.writeS lat n x).gang.urnd = s.gang.urnd :=
  by rw [State.writeS_gang_frame]

@[simp] theorem State.writeS_gang_fpstat (s : State) (lat n : Nat) (x : Dword) : (s.writeS lat n x).gang.fpstat = s.gang.fpstat :=
  by rw [State.writeS_gang_frame]

@[simp] theorem State.writeS_gang_smask (s : State) (lat n : Nat) (x : Dword) : (s.writeS lat n x).gang.smask = s.gang.smask :=
  by rw [State.writeS_gang_frame]

@[simp] theorem State.writeS_gang_spass (s : State) (lat n : Nat) (x : Dword) : (s.writeS lat n x).gang.spass = s.gang.spass :=
  by rw [State.writeS_gang_frame]

@[simp] theorem State.writeS_gang_myph (s : State) (lat n : Nat) (x : Dword) : (s.writeS lat n x).gang.myph = s.gang.myph :=
  by rw [State.writeS_gang_frame]

@[simp] theorem State.writeS_gang_trapCause (s : State) (lat n : Nat) (x : Dword) : (s.writeS lat n x).gang.trapCause = s.gang.trapCause :=
  by rw [State.writeS_gang_frame]

@[simp] theorem State.writeS_gang_trapPc (s : State) (lat n : Nat) (x : Dword) : (s.writeS lat n x).gang.trapPc = s.gang.trapPc :=
  by rw [State.writeS_gang_frame]

@[simp] theorem State.writeS_gang_trapInfo (s : State) (lat n : Nat) (x : Dword) : (s.writeS lat n x).gang.trapInfo = s.gang.trapInfo :=
  by rw [State.writeS_gang_frame]

@[simp] theorem State.writeS_gang_trapRun (s : State) (lat n : Nat) (x : Dword) : (s.writeS lat n x).gang.trapRun = s.gang.trapRun :=
  by rw [State.writeS_gang_frame]

@[simp] theorem State.writeS_gang_priv (s : State) (lat n : Nat) (x : Dword) : (s.writeS lat n x).gang.priv = s.gang.priv :=
  by rw [State.writeS_gang_frame]

@[simp] theorem State.writeS_gang_handler (s : State) (lat n : Nat) (x : Dword) : (s.writeS lat n x).gang.handler = s.gang.handler :=
  by rw [State.writeS_gang_frame]

@[simp] theorem State.writeS_gang_suspended (s : State) (lat n : Nat) (x : Dword) : (s.writeS lat n x).gang.suspended = s.gang.suspended :=
  by rw [State.writeS_gang_frame]

@[simp] theorem State.writeS_gang_marks (s : State) (lat n : Nat) (x : Dword) : (s.writeS lat n x).gang.marks = s.gang.marks :=
  by rw [State.writeS_gang_frame]

@[simp] theorem State.writeS_gang_pair (s : State) (lat n : Nat) (x : Dword) : (s.writeS lat n x).gang.pair = s.gang.pair :=
  by rw [State.writeS_gang_frame]

@[simp] theorem State.writeS_gang_hold (s : State) (lat n : Nat) (x : Dword) : (s.writeS lat n x).gang.hold = s.gang.hold :=
  by rw [State.writeS_gang_frame]

@[simp] theorem State.writeS_gang_groups (s : State) (lat n : Nat) (x : Dword) : (s.writeS lat n x).gang.groups = s.gang.groups :=
  by rw [State.writeS_gang_frame]

@[simp] theorem State.writeS_gang_ej (s : State) (lat n : Nat) (x : Dword) : (s.writeS lat n x).gang.ej = s.gang.ej :=
  by rw [State.writeS_gang_frame]

@[simp] theorem State.writeS_gang_arrival (s : State) (lat n : Nat) (x : Dword) : (s.writeS lat n x).gang.arrival = s.gang.arrival :=
  by rw [State.writeS_gang_frame]

@[simp] theorem State.writeS_gang_lastIssue (s : State) (lat n : Nat) (x : Dword) : (s.writeS lat n x).gang.lastIssue = s.gang.lastIssue :=
  by rw [State.writeS_gang_frame]

@[simp] theorem State.writeS_gang_sldsel (s : State) (lat n : Nat) (x : Dword) : (s.writeS lat n x).gang.sldsel = s.gang.sldsel :=
  by rw [State.writeS_gang_frame]

@[simp] theorem State.writeS_gang_discard (s : State) (lat n : Nat) (x : Dword) : (s.writeS lat n x).gang.discard = s.gang.discard :=
  by rw [State.writeS_gang_frame]

@[simp] theorem State.writeS_gang_discarded (s : State) (lat n : Nat) (x : Dword) : (s.writeS lat n x).gang.discarded = s.gang.discarded :=
  by rw [State.writeS_gang_frame]

@[simp] theorem State.writeS_gang_quick (s : State) (lat n : Nat) (x : Dword) : (s.writeS lat n x).gang.quick = s.gang.quick :=
  by rw [State.writeS_gang_frame]

@[simp] theorem State.writeS_gang_nextIssue (s : State) (lat n : Nat) (x : Dword) : (s.writeS lat n x).gang.nextIssue = s.gang.nextIssue :=
  by rw [State.writeS_gang_frame]

@[simp] theorem State.writeS_gang_since (s : State) (lat n : Nat) (x : Dword) : (s.writeS lat n x).gang.since = s.gang.since :=
  by rw [State.writeS_gang_frame]

@[simp] theorem State.writeS_gang_alone (s : State) (lat n : Nat) (x : Dword) : (s.writeS lat n x).gang.alone = s.gang.alone :=
  by rw [State.writeS_gang_frame]

@[simp] theorem State.writeS_gang_unchecked (s : State) (lat n : Nat) (x : Dword) : (s.writeS lat n x).gang.unchecked = s.gang.unchecked :=
  by rw [State.writeS_gang_frame]

@[simp] theorem State.writeS_gang_pushSince (s : State) (lat n : Nat) (x : Dword) : (s.writeS lat n x).gang.pushSince = s.gang.pushSince :=
  by rw [State.writeS_gang_frame]

@[simp] theorem State.writeS_gang_located (s : State) (lat n : Nat) (x : Dword) : (s.writeS lat n x).gang.located = s.gang.located :=
  by rw [State.writeS_gang_frame]

@[simp] theorem State.writeS_gang_left (s : State) (lat n : Nat) (x : Dword) : (s.writeS lat n x).gang.left = s.gang.left :=
  by rw [State.writeS_gang_frame]

/-! ### writePair -/

theorem State.writePair_frame (s : State) (lat n : Nat) (x : Quad) (tag : Bool) : s.onlyGang (s.writePair lat n x tag) := ((State.writeSBits_frame s _ _ _).trans (State.writeSBits_frame _ _ _ _)).trans
    (State.writeTag_frame _ _ _ _)

@[simp] theorem State.writePair_run (s : State) (lat n : Nat) (x : Quad) (tag : Bool) : (s.writePair lat n x tag).run = s.run :=
  (State.writePair_frame s _ _ _ _).run

@[simp] theorem State.writePair_ipc (s : State) (lat n : Nat) (x : Quad) (tag : Bool) : (s.writePair lat n x tag).ipc = s.ipc :=
  (State.writePair_frame s _ _ _ _).ipc

@[simp] theorem State.writePair_crew (s : State) (lat n : Nat) (x : Quad) (tag : Bool) : (s.writePair lat n x tag).crew = s.crew :=
  (State.writePair_frame s _ _ _ _).crew

@[simp] theorem State.writePair_gangs (s : State) (lat n : Nat) (x : Quad) (tag : Bool) : (s.writePair lat n x tag).gangs = s.gangs :=
  (State.writePair_frame s _ _ _ _).gangs

@[simp] theorem State.writePair_crews (s : State) (lat n : Nat) (x : Quad) (tag : Bool) : (s.writePair lat n x tag).crews = s.crews :=
  (State.writePair_frame s _ _ _ _).crews

@[simp] theorem State.writePair_saved (s : State) (lat n : Nat) (x : Quad) (tag : Bool) : (s.writePair lat n x tag).saved = s.saved :=
  (State.writePair_frame s _ _ _ _).saved

@[simp] theorem State.writePair_launches (s : State) (lat n : Nat) (x : Quad) (tag : Bool) : (s.writePair lat n x tag).launches = s.launches :=
  (State.writePair_frame s _ _ _ _).launches

@[simp] theorem State.writePair_nextCrew (s : State) (lat n : Nat) (x : Quad) (tag : Bool) : (s.writePair lat n x tag).nextCrew = s.nextCrew :=
  (State.writePair_frame s _ _ _ _).nextCrew

@[simp] theorem State.writePair_ops (s : State) (lat n : Nat) (x : Quad) (tag : Bool) : (s.writePair lat n x tag).ops = s.ops :=
  (State.writePair_frame s _ _ _ _).ops

@[simp] theorem State.writePair_nextOp (s : State) (lat n : Nat) (x : Quad) (tag : Bool) : (s.writePair lat n x tag).nextOp = s.nextOp :=
  (State.writePair_frame s _ _ _ _).nextOp

@[simp] theorem State.writePair_tokens (s : State) (lat n : Nat) (x : Quad) (tag : Bool) : (s.writePair lat n x tag).tokens = s.tokens :=
  (State.writePair_frame s _ _ _ _).tokens

@[simp] theorem State.writePair_sys (s : State) (lat n : Nat) (x : Quad) (tag : Bool) : (s.writePair lat n x tag).sys = s.sys :=
  (State.writePair_frame s _ _ _ _).sys

@[simp] theorem State.writePair_queues (s : State) (lat n : Nat) (x : Quad) (tag : Bool) : (s.writePair lat n x tag).queues = s.queues :=
  (State.writePair_frame s _ _ _ _).queues

@[simp] theorem State.writePair_host (s : State) (lat n : Nat) (x : Quad) (tag : Bool) : (s.writePair lat n x tag).host = s.host :=
  (State.writePair_frame s _ _ _ _).host

@[simp] theorem State.writePair_nic (s : State) (lat n : Nat) (x : Quad) (tag : Bool) : (s.writePair lat n x tag).nic = s.nic :=
  (State.writePair_frame s _ _ _ _).nic

@[simp] theorem State.writePair_clock (s : State) (lat n : Nat) (x : Quad) (tag : Bool) : (s.writePair lat n x tag).clock = s.clock :=
  (State.writePair_frame s _ _ _ _).clock

@[simp] theorem State.writePair_issues (s : State) (lat n : Nat) (x : Quad) (tag : Bool) : (s.writePair lat n x tag).issues = s.issues :=
  (State.writePair_frame s _ _ _ _).issues

@[simp] theorem State.writePair_freeCtr (s : State) (lat n : Nat) (x : Quad) (tag : Bool) : (s.writePair lat n x tag).freeCtr = s.freeCtr :=
  (State.writePair_frame s _ _ _ _).freeCtr

@[simp] theorem State.writePair_fuse (s : State) (lat n : Nat) (x : Quad) (tag : Bool) : (s.writePair lat n x tag).fuse = s.fuse :=
  (State.writePair_frame s _ _ _ _).fuse

@[simp] theorem State.writePair_turns (s : State) (lat n : Nat) (x : Quad) (tag : Bool) : (s.writePair lat n x tag).turns = s.turns :=
  (State.writePair_frame s _ _ _ _).turns

theorem State.writePair_gang_frame (s : State) (lat n : Nat) (x : Quad) (tag : Bool) :
    (s.writePair lat n x tag).gang =
      { s.gang with s := (s.writePair lat n x tag).gang.s, handleIds := (s.writePair lat n x tag).gang.handleIds, stags := (s.writePair lat n x tag).gang.stags, shadows := (s.writePair lat n x tag).gang.shadows } := by
  have h1 := State.writeTag_gang_frame ((s.writeSBits lat n (x.extractLsb' 0 64)).writeSBits lat (n + 1) (x.extractLsb' 64 64)) lat (n / 2) tag
  have h2 := State.writeSBits_gang_frame (s.writeSBits lat n (x.extractLsb' 0 64)) lat (n + 1) (x.extractLsb' 64 64)
  have h3 := State.writeSBits_gang_frame s lat n (x.extractLsb' 0 64)
  unfold State.writePair
  rw [h1, h2, h3]

@[simp] theorem State.writePair_gang_id (s : State) (lat n : Nat) (x : Quad) (tag : Bool) : (s.writePair lat n x tag).gang.id = s.gang.id :=
  by rw [State.writePair_gang_frame]

@[simp] theorem State.writePair_gang_crewId (s : State) (lat n : Nat) (x : Quad) (tag : Bool) : (s.writePair lat n x tag).gang.crewId = s.gang.crewId :=
  by rw [State.writePair_gang_frame]

@[simp] theorem State.writePair_gang_idx (s : State) (lat n : Nat) (x : Quad) (tag : Bool) : (s.writePair lat n x tag).gang.idx = s.gang.idx :=
  by rw [State.writePair_gang_frame]

@[simp] theorem State.writePair_gang_slot (s : State) (lat n : Nat) (x : Quad) (tag : Bool) : (s.writePair lat n x tag).gang.slot = s.gang.slot :=
  by rw [State.writePair_gang_frame]

@[simp] theorem State.writePair_gang_active (s : State) (lat n : Nat) (x : Quad) (tag : Bool) : (s.writePair lat n x tag).gang.active = s.gang.active :=
  by rw [State.writePair_gang_frame]

@[simp] theorem State.writePair_gang_v (s : State) (lat n : Nat) (x : Quad) (tag : Bool) : (s.writePair lat n x tag).gang.v = s.gang.v :=
  by rw [State.writePair_gang_frame]

@[simp] theorem State.writePair_gang_p (s : State) (lat n : Nat) (x : Quad) (tag : Bool) : (s.writePair lat n x tag).gang.p = s.gang.p :=
  by rw [State.writePair_gang_frame]

@[simp] theorem State.writePair_gang_g (s : State) (lat n : Nat) (x : Quad) (tag : Bool) : (s.writePair lat n x tag).gang.g = s.gang.g :=
  by rw [State.writePair_gang_frame]

@[simp] theorem State.writePair_gang_strands (s : State) (lat n : Nat) (x : Quad) (tag : Bool) : (s.writePair lat n x tag).gang.strands = s.gang.strands :=
  by rw [State.writePair_gang_frame]

@[simp] theorem State.writePair_gang_rnd (s : State) (lat n : Nat) (x : Quad) (tag : Bool) : (s.writePair lat n x tag).gang.rnd = s.gang.rnd :=
  by rw [State.writePair_gang_frame]

@[simp] theorem State.writePair_gang_urnd (s : State) (lat n : Nat) (x : Quad) (tag : Bool) : (s.writePair lat n x tag).gang.urnd = s.gang.urnd :=
  by rw [State.writePair_gang_frame]

@[simp] theorem State.writePair_gang_fpstat (s : State) (lat n : Nat) (x : Quad) (tag : Bool) : (s.writePair lat n x tag).gang.fpstat = s.gang.fpstat :=
  by rw [State.writePair_gang_frame]

@[simp] theorem State.writePair_gang_smask (s : State) (lat n : Nat) (x : Quad) (tag : Bool) : (s.writePair lat n x tag).gang.smask = s.gang.smask :=
  by rw [State.writePair_gang_frame]

@[simp] theorem State.writePair_gang_spass (s : State) (lat n : Nat) (x : Quad) (tag : Bool) : (s.writePair lat n x tag).gang.spass = s.gang.spass :=
  by rw [State.writePair_gang_frame]

@[simp] theorem State.writePair_gang_myph (s : State) (lat n : Nat) (x : Quad) (tag : Bool) : (s.writePair lat n x tag).gang.myph = s.gang.myph :=
  by rw [State.writePair_gang_frame]

@[simp] theorem State.writePair_gang_trapCause (s : State) (lat n : Nat) (x : Quad) (tag : Bool) : (s.writePair lat n x tag).gang.trapCause = s.gang.trapCause :=
  by rw [State.writePair_gang_frame]

@[simp] theorem State.writePair_gang_trapPc (s : State) (lat n : Nat) (x : Quad) (tag : Bool) : (s.writePair lat n x tag).gang.trapPc = s.gang.trapPc :=
  by rw [State.writePair_gang_frame]

@[simp] theorem State.writePair_gang_trapInfo (s : State) (lat n : Nat) (x : Quad) (tag : Bool) : (s.writePair lat n x tag).gang.trapInfo = s.gang.trapInfo :=
  by rw [State.writePair_gang_frame]

@[simp] theorem State.writePair_gang_trapRun (s : State) (lat n : Nat) (x : Quad) (tag : Bool) : (s.writePair lat n x tag).gang.trapRun = s.gang.trapRun :=
  by rw [State.writePair_gang_frame]

@[simp] theorem State.writePair_gang_priv (s : State) (lat n : Nat) (x : Quad) (tag : Bool) : (s.writePair lat n x tag).gang.priv = s.gang.priv :=
  by rw [State.writePair_gang_frame]

@[simp] theorem State.writePair_gang_handler (s : State) (lat n : Nat) (x : Quad) (tag : Bool) : (s.writePair lat n x tag).gang.handler = s.gang.handler :=
  by rw [State.writePair_gang_frame]

@[simp] theorem State.writePair_gang_suspended (s : State) (lat n : Nat) (x : Quad) (tag : Bool) : (s.writePair lat n x tag).gang.suspended = s.gang.suspended :=
  by rw [State.writePair_gang_frame]

@[simp] theorem State.writePair_gang_marks (s : State) (lat n : Nat) (x : Quad) (tag : Bool) : (s.writePair lat n x tag).gang.marks = s.gang.marks :=
  by rw [State.writePair_gang_frame]

@[simp] theorem State.writePair_gang_pair (s : State) (lat n : Nat) (x : Quad) (tag : Bool) : (s.writePair lat n x tag).gang.pair = s.gang.pair :=
  by rw [State.writePair_gang_frame]

@[simp] theorem State.writePair_gang_hold (s : State) (lat n : Nat) (x : Quad) (tag : Bool) : (s.writePair lat n x tag).gang.hold = s.gang.hold :=
  by rw [State.writePair_gang_frame]

@[simp] theorem State.writePair_gang_groups (s : State) (lat n : Nat) (x : Quad) (tag : Bool) : (s.writePair lat n x tag).gang.groups = s.gang.groups :=
  by rw [State.writePair_gang_frame]

@[simp] theorem State.writePair_gang_ej (s : State) (lat n : Nat) (x : Quad) (tag : Bool) : (s.writePair lat n x tag).gang.ej = s.gang.ej :=
  by rw [State.writePair_gang_frame]

@[simp] theorem State.writePair_gang_arrival (s : State) (lat n : Nat) (x : Quad) (tag : Bool) : (s.writePair lat n x tag).gang.arrival = s.gang.arrival :=
  by rw [State.writePair_gang_frame]

@[simp] theorem State.writePair_gang_lastIssue (s : State) (lat n : Nat) (x : Quad) (tag : Bool) : (s.writePair lat n x tag).gang.lastIssue = s.gang.lastIssue :=
  by rw [State.writePair_gang_frame]

@[simp] theorem State.writePair_gang_sldsel (s : State) (lat n : Nat) (x : Quad) (tag : Bool) : (s.writePair lat n x tag).gang.sldsel = s.gang.sldsel :=
  by rw [State.writePair_gang_frame]

@[simp] theorem State.writePair_gang_discard (s : State) (lat n : Nat) (x : Quad) (tag : Bool) : (s.writePair lat n x tag).gang.discard = s.gang.discard :=
  by rw [State.writePair_gang_frame]

@[simp] theorem State.writePair_gang_discarded (s : State) (lat n : Nat) (x : Quad) (tag : Bool) : (s.writePair lat n x tag).gang.discarded = s.gang.discarded :=
  by rw [State.writePair_gang_frame]

@[simp] theorem State.writePair_gang_quick (s : State) (lat n : Nat) (x : Quad) (tag : Bool) : (s.writePair lat n x tag).gang.quick = s.gang.quick :=
  by rw [State.writePair_gang_frame]

@[simp] theorem State.writePair_gang_nextIssue (s : State) (lat n : Nat) (x : Quad) (tag : Bool) : (s.writePair lat n x tag).gang.nextIssue = s.gang.nextIssue :=
  by rw [State.writePair_gang_frame]

@[simp] theorem State.writePair_gang_since (s : State) (lat n : Nat) (x : Quad) (tag : Bool) : (s.writePair lat n x tag).gang.since = s.gang.since :=
  by rw [State.writePair_gang_frame]

@[simp] theorem State.writePair_gang_alone (s : State) (lat n : Nat) (x : Quad) (tag : Bool) : (s.writePair lat n x tag).gang.alone = s.gang.alone :=
  by rw [State.writePair_gang_frame]

@[simp] theorem State.writePair_gang_unchecked (s : State) (lat n : Nat) (x : Quad) (tag : Bool) : (s.writePair lat n x tag).gang.unchecked = s.gang.unchecked :=
  by rw [State.writePair_gang_frame]

@[simp] theorem State.writePair_gang_pushSince (s : State) (lat n : Nat) (x : Quad) (tag : Bool) : (s.writePair lat n x tag).gang.pushSince = s.gang.pushSince :=
  by rw [State.writePair_gang_frame]

@[simp] theorem State.writePair_gang_located (s : State) (lat n : Nat) (x : Quad) (tag : Bool) : (s.writePair lat n x tag).gang.located = s.gang.located :=
  by rw [State.writePair_gang_frame]

@[simp] theorem State.writePair_gang_left (s : State) (lat n : Nat) (x : Quad) (tag : Bool) : (s.writePair lat n x tag).gang.left = s.gang.left :=
  by rw [State.writePair_gang_frame]

/-! ### writeP -/

theorem State.writeP_frame (s : State) (lat n : Nat) (written bits : Mask) : s.onlyGang (s.writeP lat n written bits) := by
  unfold State.writeP State.shadow
  dsimp only
  split <;> rfl

@[simp] theorem State.writeP_run (s : State) (lat n : Nat) (written bits : Mask) : (s.writeP lat n written bits).run = s.run :=
  (State.writeP_frame s _ _ _ _).run

@[simp] theorem State.writeP_ipc (s : State) (lat n : Nat) (written bits : Mask) : (s.writeP lat n written bits).ipc = s.ipc :=
  (State.writeP_frame s _ _ _ _).ipc

@[simp] theorem State.writeP_crew (s : State) (lat n : Nat) (written bits : Mask) : (s.writeP lat n written bits).crew = s.crew :=
  (State.writeP_frame s _ _ _ _).crew

@[simp] theorem State.writeP_gangs (s : State) (lat n : Nat) (written bits : Mask) : (s.writeP lat n written bits).gangs = s.gangs :=
  (State.writeP_frame s _ _ _ _).gangs

@[simp] theorem State.writeP_crews (s : State) (lat n : Nat) (written bits : Mask) : (s.writeP lat n written bits).crews = s.crews :=
  (State.writeP_frame s _ _ _ _).crews

@[simp] theorem State.writeP_saved (s : State) (lat n : Nat) (written bits : Mask) : (s.writeP lat n written bits).saved = s.saved :=
  (State.writeP_frame s _ _ _ _).saved

@[simp] theorem State.writeP_launches (s : State) (lat n : Nat) (written bits : Mask) : (s.writeP lat n written bits).launches = s.launches :=
  (State.writeP_frame s _ _ _ _).launches

@[simp] theorem State.writeP_nextCrew (s : State) (lat n : Nat) (written bits : Mask) : (s.writeP lat n written bits).nextCrew = s.nextCrew :=
  (State.writeP_frame s _ _ _ _).nextCrew

@[simp] theorem State.writeP_ops (s : State) (lat n : Nat) (written bits : Mask) : (s.writeP lat n written bits).ops = s.ops :=
  (State.writeP_frame s _ _ _ _).ops

@[simp] theorem State.writeP_nextOp (s : State) (lat n : Nat) (written bits : Mask) : (s.writeP lat n written bits).nextOp = s.nextOp :=
  (State.writeP_frame s _ _ _ _).nextOp

@[simp] theorem State.writeP_tokens (s : State) (lat n : Nat) (written bits : Mask) : (s.writeP lat n written bits).tokens = s.tokens :=
  (State.writeP_frame s _ _ _ _).tokens

@[simp] theorem State.writeP_sys (s : State) (lat n : Nat) (written bits : Mask) : (s.writeP lat n written bits).sys = s.sys :=
  (State.writeP_frame s _ _ _ _).sys

@[simp] theorem State.writeP_queues (s : State) (lat n : Nat) (written bits : Mask) : (s.writeP lat n written bits).queues = s.queues :=
  (State.writeP_frame s _ _ _ _).queues

@[simp] theorem State.writeP_host (s : State) (lat n : Nat) (written bits : Mask) : (s.writeP lat n written bits).host = s.host :=
  (State.writeP_frame s _ _ _ _).host

@[simp] theorem State.writeP_nic (s : State) (lat n : Nat) (written bits : Mask) : (s.writeP lat n written bits).nic = s.nic :=
  (State.writeP_frame s _ _ _ _).nic

@[simp] theorem State.writeP_clock (s : State) (lat n : Nat) (written bits : Mask) : (s.writeP lat n written bits).clock = s.clock :=
  (State.writeP_frame s _ _ _ _).clock

@[simp] theorem State.writeP_issues (s : State) (lat n : Nat) (written bits : Mask) : (s.writeP lat n written bits).issues = s.issues :=
  (State.writeP_frame s _ _ _ _).issues

@[simp] theorem State.writeP_freeCtr (s : State) (lat n : Nat) (written bits : Mask) : (s.writeP lat n written bits).freeCtr = s.freeCtr :=
  (State.writeP_frame s _ _ _ _).freeCtr

@[simp] theorem State.writeP_fuse (s : State) (lat n : Nat) (written bits : Mask) : (s.writeP lat n written bits).fuse = s.fuse :=
  (State.writeP_frame s _ _ _ _).fuse

@[simp] theorem State.writeP_turns (s : State) (lat n : Nat) (written bits : Mask) : (s.writeP lat n written bits).turns = s.turns :=
  (State.writeP_frame s _ _ _ _).turns

theorem State.writeP_gang_frame (s : State) (lat n : Nat) (written bits : Mask) :
    (s.writeP lat n written bits).gang =
      { s.gang with p := (s.writeP lat n written bits).gang.p, shadows := (s.writeP lat n written bits).gang.shadows } := by
  unfold State.writeP State.shadow
  dsimp only
  split <;> rfl

@[simp] theorem State.writeP_gang_id (s : State) (lat n : Nat) (written bits : Mask) : (s.writeP lat n written bits).gang.id = s.gang.id :=
  by rw [State.writeP_gang_frame]

@[simp] theorem State.writeP_gang_crewId (s : State) (lat n : Nat) (written bits : Mask) : (s.writeP lat n written bits).gang.crewId = s.gang.crewId :=
  by rw [State.writeP_gang_frame]

@[simp] theorem State.writeP_gang_idx (s : State) (lat n : Nat) (written bits : Mask) : (s.writeP lat n written bits).gang.idx = s.gang.idx :=
  by rw [State.writeP_gang_frame]

@[simp] theorem State.writeP_gang_slot (s : State) (lat n : Nat) (written bits : Mask) : (s.writeP lat n written bits).gang.slot = s.gang.slot :=
  by rw [State.writeP_gang_frame]

@[simp] theorem State.writeP_gang_active (s : State) (lat n : Nat) (written bits : Mask) : (s.writeP lat n written bits).gang.active = s.gang.active :=
  by rw [State.writeP_gang_frame]

@[simp] theorem State.writeP_gang_v (s : State) (lat n : Nat) (written bits : Mask) : (s.writeP lat n written bits).gang.v = s.gang.v :=
  by rw [State.writeP_gang_frame]

@[simp] theorem State.writeP_gang_s (s : State) (lat n : Nat) (written bits : Mask) : (s.writeP lat n written bits).gang.s = s.gang.s :=
  by rw [State.writeP_gang_frame]

@[simp] theorem State.writeP_gang_stags (s : State) (lat n : Nat) (written bits : Mask) : (s.writeP lat n written bits).gang.stags = s.gang.stags :=
  by rw [State.writeP_gang_frame]

@[simp] theorem State.writeP_gang_g (s : State) (lat n : Nat) (written bits : Mask) : (s.writeP lat n written bits).gang.g = s.gang.g :=
  by rw [State.writeP_gang_frame]

@[simp] theorem State.writeP_gang_strands (s : State) (lat n : Nat) (written bits : Mask) : (s.writeP lat n written bits).gang.strands = s.gang.strands :=
  by rw [State.writeP_gang_frame]

@[simp] theorem State.writeP_gang_rnd (s : State) (lat n : Nat) (written bits : Mask) : (s.writeP lat n written bits).gang.rnd = s.gang.rnd :=
  by rw [State.writeP_gang_frame]

@[simp] theorem State.writeP_gang_urnd (s : State) (lat n : Nat) (written bits : Mask) : (s.writeP lat n written bits).gang.urnd = s.gang.urnd :=
  by rw [State.writeP_gang_frame]

@[simp] theorem State.writeP_gang_fpstat (s : State) (lat n : Nat) (written bits : Mask) : (s.writeP lat n written bits).gang.fpstat = s.gang.fpstat :=
  by rw [State.writeP_gang_frame]

@[simp] theorem State.writeP_gang_smask (s : State) (lat n : Nat) (written bits : Mask) : (s.writeP lat n written bits).gang.smask = s.gang.smask :=
  by rw [State.writeP_gang_frame]

@[simp] theorem State.writeP_gang_spass (s : State) (lat n : Nat) (written bits : Mask) : (s.writeP lat n written bits).gang.spass = s.gang.spass :=
  by rw [State.writeP_gang_frame]

@[simp] theorem State.writeP_gang_myph (s : State) (lat n : Nat) (written bits : Mask) : (s.writeP lat n written bits).gang.myph = s.gang.myph :=
  by rw [State.writeP_gang_frame]

@[simp] theorem State.writeP_gang_trapCause (s : State) (lat n : Nat) (written bits : Mask) : (s.writeP lat n written bits).gang.trapCause = s.gang.trapCause :=
  by rw [State.writeP_gang_frame]

@[simp] theorem State.writeP_gang_trapPc (s : State) (lat n : Nat) (written bits : Mask) : (s.writeP lat n written bits).gang.trapPc = s.gang.trapPc :=
  by rw [State.writeP_gang_frame]

@[simp] theorem State.writeP_gang_trapInfo (s : State) (lat n : Nat) (written bits : Mask) : (s.writeP lat n written bits).gang.trapInfo = s.gang.trapInfo :=
  by rw [State.writeP_gang_frame]

@[simp] theorem State.writeP_gang_trapRun (s : State) (lat n : Nat) (written bits : Mask) : (s.writeP lat n written bits).gang.trapRun = s.gang.trapRun :=
  by rw [State.writeP_gang_frame]

@[simp] theorem State.writeP_gang_priv (s : State) (lat n : Nat) (written bits : Mask) : (s.writeP lat n written bits).gang.priv = s.gang.priv :=
  by rw [State.writeP_gang_frame]

@[simp] theorem State.writeP_gang_handler (s : State) (lat n : Nat) (written bits : Mask) : (s.writeP lat n written bits).gang.handler = s.gang.handler :=
  by rw [State.writeP_gang_frame]

@[simp] theorem State.writeP_gang_suspended (s : State) (lat n : Nat) (written bits : Mask) : (s.writeP lat n written bits).gang.suspended = s.gang.suspended :=
  by rw [State.writeP_gang_frame]

@[simp] theorem State.writeP_gang_marks (s : State) (lat n : Nat) (written bits : Mask) : (s.writeP lat n written bits).gang.marks = s.gang.marks :=
  by rw [State.writeP_gang_frame]

@[simp] theorem State.writeP_gang_pair (s : State) (lat n : Nat) (written bits : Mask) : (s.writeP lat n written bits).gang.pair = s.gang.pair :=
  by rw [State.writeP_gang_frame]

@[simp] theorem State.writeP_gang_hold (s : State) (lat n : Nat) (written bits : Mask) : (s.writeP lat n written bits).gang.hold = s.gang.hold :=
  by rw [State.writeP_gang_frame]

@[simp] theorem State.writeP_gang_groups (s : State) (lat n : Nat) (written bits : Mask) : (s.writeP lat n written bits).gang.groups = s.gang.groups :=
  by rw [State.writeP_gang_frame]

@[simp] theorem State.writeP_gang_ej (s : State) (lat n : Nat) (written bits : Mask) : (s.writeP lat n written bits).gang.ej = s.gang.ej :=
  by rw [State.writeP_gang_frame]

@[simp] theorem State.writeP_gang_handleIds (s : State) (lat n : Nat) (written bits : Mask) : (s.writeP lat n written bits).gang.handleIds = s.gang.handleIds :=
  by rw [State.writeP_gang_frame]

@[simp] theorem State.writeP_gang_arrival (s : State) (lat n : Nat) (written bits : Mask) : (s.writeP lat n written bits).gang.arrival = s.gang.arrival :=
  by rw [State.writeP_gang_frame]

@[simp] theorem State.writeP_gang_lastIssue (s : State) (lat n : Nat) (written bits : Mask) : (s.writeP lat n written bits).gang.lastIssue = s.gang.lastIssue :=
  by rw [State.writeP_gang_frame]

@[simp] theorem State.writeP_gang_sldsel (s : State) (lat n : Nat) (written bits : Mask) : (s.writeP lat n written bits).gang.sldsel = s.gang.sldsel :=
  by rw [State.writeP_gang_frame]

@[simp] theorem State.writeP_gang_discard (s : State) (lat n : Nat) (written bits : Mask) : (s.writeP lat n written bits).gang.discard = s.gang.discard :=
  by rw [State.writeP_gang_frame]

@[simp] theorem State.writeP_gang_discarded (s : State) (lat n : Nat) (written bits : Mask) : (s.writeP lat n written bits).gang.discarded = s.gang.discarded :=
  by rw [State.writeP_gang_frame]

@[simp] theorem State.writeP_gang_quick (s : State) (lat n : Nat) (written bits : Mask) : (s.writeP lat n written bits).gang.quick = s.gang.quick :=
  by rw [State.writeP_gang_frame]

@[simp] theorem State.writeP_gang_nextIssue (s : State) (lat n : Nat) (written bits : Mask) : (s.writeP lat n written bits).gang.nextIssue = s.gang.nextIssue :=
  by rw [State.writeP_gang_frame]

@[simp] theorem State.writeP_gang_since (s : State) (lat n : Nat) (written bits : Mask) : (s.writeP lat n written bits).gang.since = s.gang.since :=
  by rw [State.writeP_gang_frame]

@[simp] theorem State.writeP_gang_alone (s : State) (lat n : Nat) (written bits : Mask) : (s.writeP lat n written bits).gang.alone = s.gang.alone :=
  by rw [State.writeP_gang_frame]

@[simp] theorem State.writeP_gang_unchecked (s : State) (lat n : Nat) (written bits : Mask) : (s.writeP lat n written bits).gang.unchecked = s.gang.unchecked :=
  by rw [State.writeP_gang_frame]

@[simp] theorem State.writeP_gang_pushSince (s : State) (lat n : Nat) (written bits : Mask) : (s.writeP lat n written bits).gang.pushSince = s.gang.pushSince :=
  by rw [State.writeP_gang_frame]

@[simp] theorem State.writeP_gang_located (s : State) (lat n : Nat) (written bits : Mask) : (s.writeP lat n written bits).gang.located = s.gang.located :=
  by rw [State.writeP_gang_frame]

@[simp] theorem State.writeP_gang_left (s : State) (lat n : Nat) (written bits : Mask) : (s.writeP lat n written bits).gang.left = s.gang.left :=
  by rw [State.writeP_gang_frame]

/-! ### writeG -/

theorem State.writeG_frame (s : State) (lat n : Nat) (x : Part) : s.onlyGang (s.writeG lat n x) := by
  unfold State.writeG State.shadow
  dsimp only
  split <;> rfl

@[simp] theorem State.writeG_run (s : State) (lat n : Nat) (x : Part) : (s.writeG lat n x).run = s.run :=
  (State.writeG_frame s _ _ _).run

@[simp] theorem State.writeG_ipc (s : State) (lat n : Nat) (x : Part) : (s.writeG lat n x).ipc = s.ipc :=
  (State.writeG_frame s _ _ _).ipc

@[simp] theorem State.writeG_crew (s : State) (lat n : Nat) (x : Part) : (s.writeG lat n x).crew = s.crew :=
  (State.writeG_frame s _ _ _).crew

@[simp] theorem State.writeG_gangs (s : State) (lat n : Nat) (x : Part) : (s.writeG lat n x).gangs = s.gangs :=
  (State.writeG_frame s _ _ _).gangs

@[simp] theorem State.writeG_crews (s : State) (lat n : Nat) (x : Part) : (s.writeG lat n x).crews = s.crews :=
  (State.writeG_frame s _ _ _).crews

@[simp] theorem State.writeG_saved (s : State) (lat n : Nat) (x : Part) : (s.writeG lat n x).saved = s.saved :=
  (State.writeG_frame s _ _ _).saved

@[simp] theorem State.writeG_launches (s : State) (lat n : Nat) (x : Part) : (s.writeG lat n x).launches = s.launches :=
  (State.writeG_frame s _ _ _).launches

@[simp] theorem State.writeG_nextCrew (s : State) (lat n : Nat) (x : Part) : (s.writeG lat n x).nextCrew = s.nextCrew :=
  (State.writeG_frame s _ _ _).nextCrew

@[simp] theorem State.writeG_ops (s : State) (lat n : Nat) (x : Part) : (s.writeG lat n x).ops = s.ops :=
  (State.writeG_frame s _ _ _).ops

@[simp] theorem State.writeG_nextOp (s : State) (lat n : Nat) (x : Part) : (s.writeG lat n x).nextOp = s.nextOp :=
  (State.writeG_frame s _ _ _).nextOp

@[simp] theorem State.writeG_tokens (s : State) (lat n : Nat) (x : Part) : (s.writeG lat n x).tokens = s.tokens :=
  (State.writeG_frame s _ _ _).tokens

@[simp] theorem State.writeG_sys (s : State) (lat n : Nat) (x : Part) : (s.writeG lat n x).sys = s.sys :=
  (State.writeG_frame s _ _ _).sys

@[simp] theorem State.writeG_queues (s : State) (lat n : Nat) (x : Part) : (s.writeG lat n x).queues = s.queues :=
  (State.writeG_frame s _ _ _).queues

@[simp] theorem State.writeG_host (s : State) (lat n : Nat) (x : Part) : (s.writeG lat n x).host = s.host :=
  (State.writeG_frame s _ _ _).host

@[simp] theorem State.writeG_nic (s : State) (lat n : Nat) (x : Part) : (s.writeG lat n x).nic = s.nic :=
  (State.writeG_frame s _ _ _).nic

@[simp] theorem State.writeG_clock (s : State) (lat n : Nat) (x : Part) : (s.writeG lat n x).clock = s.clock :=
  (State.writeG_frame s _ _ _).clock

@[simp] theorem State.writeG_issues (s : State) (lat n : Nat) (x : Part) : (s.writeG lat n x).issues = s.issues :=
  (State.writeG_frame s _ _ _).issues

@[simp] theorem State.writeG_freeCtr (s : State) (lat n : Nat) (x : Part) : (s.writeG lat n x).freeCtr = s.freeCtr :=
  (State.writeG_frame s _ _ _).freeCtr

@[simp] theorem State.writeG_fuse (s : State) (lat n : Nat) (x : Part) : (s.writeG lat n x).fuse = s.fuse :=
  (State.writeG_frame s _ _ _).fuse

@[simp] theorem State.writeG_turns (s : State) (lat n : Nat) (x : Part) : (s.writeG lat n x).turns = s.turns :=
  (State.writeG_frame s _ _ _).turns

theorem State.writeG_gang_frame (s : State) (lat n : Nat) (x : Part) :
    (s.writeG lat n x).gang =
      { s.gang with g := (s.writeG lat n x).gang.g, shadows := (s.writeG lat n x).gang.shadows } := by
  unfold State.writeG State.shadow
  dsimp only
  split <;> rfl

@[simp] theorem State.writeG_gang_id (s : State) (lat n : Nat) (x : Part) : (s.writeG lat n x).gang.id = s.gang.id :=
  by rw [State.writeG_gang_frame]

@[simp] theorem State.writeG_gang_crewId (s : State) (lat n : Nat) (x : Part) : (s.writeG lat n x).gang.crewId = s.gang.crewId :=
  by rw [State.writeG_gang_frame]

@[simp] theorem State.writeG_gang_idx (s : State) (lat n : Nat) (x : Part) : (s.writeG lat n x).gang.idx = s.gang.idx :=
  by rw [State.writeG_gang_frame]

@[simp] theorem State.writeG_gang_slot (s : State) (lat n : Nat) (x : Part) : (s.writeG lat n x).gang.slot = s.gang.slot :=
  by rw [State.writeG_gang_frame]

@[simp] theorem State.writeG_gang_active (s : State) (lat n : Nat) (x : Part) : (s.writeG lat n x).gang.active = s.gang.active :=
  by rw [State.writeG_gang_frame]

@[simp] theorem State.writeG_gang_v (s : State) (lat n : Nat) (x : Part) : (s.writeG lat n x).gang.v = s.gang.v :=
  by rw [State.writeG_gang_frame]

@[simp] theorem State.writeG_gang_s (s : State) (lat n : Nat) (x : Part) : (s.writeG lat n x).gang.s = s.gang.s :=
  by rw [State.writeG_gang_frame]

@[simp] theorem State.writeG_gang_stags (s : State) (lat n : Nat) (x : Part) : (s.writeG lat n x).gang.stags = s.gang.stags :=
  by rw [State.writeG_gang_frame]

@[simp] theorem State.writeG_gang_p (s : State) (lat n : Nat) (x : Part) : (s.writeG lat n x).gang.p = s.gang.p :=
  by rw [State.writeG_gang_frame]

@[simp] theorem State.writeG_gang_strands (s : State) (lat n : Nat) (x : Part) : (s.writeG lat n x).gang.strands = s.gang.strands :=
  by rw [State.writeG_gang_frame]

@[simp] theorem State.writeG_gang_rnd (s : State) (lat n : Nat) (x : Part) : (s.writeG lat n x).gang.rnd = s.gang.rnd :=
  by rw [State.writeG_gang_frame]

@[simp] theorem State.writeG_gang_urnd (s : State) (lat n : Nat) (x : Part) : (s.writeG lat n x).gang.urnd = s.gang.urnd :=
  by rw [State.writeG_gang_frame]

@[simp] theorem State.writeG_gang_fpstat (s : State) (lat n : Nat) (x : Part) : (s.writeG lat n x).gang.fpstat = s.gang.fpstat :=
  by rw [State.writeG_gang_frame]

@[simp] theorem State.writeG_gang_smask (s : State) (lat n : Nat) (x : Part) : (s.writeG lat n x).gang.smask = s.gang.smask :=
  by rw [State.writeG_gang_frame]

@[simp] theorem State.writeG_gang_spass (s : State) (lat n : Nat) (x : Part) : (s.writeG lat n x).gang.spass = s.gang.spass :=
  by rw [State.writeG_gang_frame]

@[simp] theorem State.writeG_gang_myph (s : State) (lat n : Nat) (x : Part) : (s.writeG lat n x).gang.myph = s.gang.myph :=
  by rw [State.writeG_gang_frame]

@[simp] theorem State.writeG_gang_trapCause (s : State) (lat n : Nat) (x : Part) : (s.writeG lat n x).gang.trapCause = s.gang.trapCause :=
  by rw [State.writeG_gang_frame]

@[simp] theorem State.writeG_gang_trapPc (s : State) (lat n : Nat) (x : Part) : (s.writeG lat n x).gang.trapPc = s.gang.trapPc :=
  by rw [State.writeG_gang_frame]

@[simp] theorem State.writeG_gang_trapInfo (s : State) (lat n : Nat) (x : Part) : (s.writeG lat n x).gang.trapInfo = s.gang.trapInfo :=
  by rw [State.writeG_gang_frame]

@[simp] theorem State.writeG_gang_trapRun (s : State) (lat n : Nat) (x : Part) : (s.writeG lat n x).gang.trapRun = s.gang.trapRun :=
  by rw [State.writeG_gang_frame]

@[simp] theorem State.writeG_gang_priv (s : State) (lat n : Nat) (x : Part) : (s.writeG lat n x).gang.priv = s.gang.priv :=
  by rw [State.writeG_gang_frame]

@[simp] theorem State.writeG_gang_handler (s : State) (lat n : Nat) (x : Part) : (s.writeG lat n x).gang.handler = s.gang.handler :=
  by rw [State.writeG_gang_frame]

@[simp] theorem State.writeG_gang_suspended (s : State) (lat n : Nat) (x : Part) : (s.writeG lat n x).gang.suspended = s.gang.suspended :=
  by rw [State.writeG_gang_frame]

@[simp] theorem State.writeG_gang_marks (s : State) (lat n : Nat) (x : Part) : (s.writeG lat n x).gang.marks = s.gang.marks :=
  by rw [State.writeG_gang_frame]

@[simp] theorem State.writeG_gang_pair (s : State) (lat n : Nat) (x : Part) : (s.writeG lat n x).gang.pair = s.gang.pair :=
  by rw [State.writeG_gang_frame]

@[simp] theorem State.writeG_gang_hold (s : State) (lat n : Nat) (x : Part) : (s.writeG lat n x).gang.hold = s.gang.hold :=
  by rw [State.writeG_gang_frame]

@[simp] theorem State.writeG_gang_groups (s : State) (lat n : Nat) (x : Part) : (s.writeG lat n x).gang.groups = s.gang.groups :=
  by rw [State.writeG_gang_frame]

@[simp] theorem State.writeG_gang_ej (s : State) (lat n : Nat) (x : Part) : (s.writeG lat n x).gang.ej = s.gang.ej :=
  by rw [State.writeG_gang_frame]

@[simp] theorem State.writeG_gang_handleIds (s : State) (lat n : Nat) (x : Part) : (s.writeG lat n x).gang.handleIds = s.gang.handleIds :=
  by rw [State.writeG_gang_frame]

@[simp] theorem State.writeG_gang_arrival (s : State) (lat n : Nat) (x : Part) : (s.writeG lat n x).gang.arrival = s.gang.arrival :=
  by rw [State.writeG_gang_frame]

@[simp] theorem State.writeG_gang_lastIssue (s : State) (lat n : Nat) (x : Part) : (s.writeG lat n x).gang.lastIssue = s.gang.lastIssue :=
  by rw [State.writeG_gang_frame]

@[simp] theorem State.writeG_gang_sldsel (s : State) (lat n : Nat) (x : Part) : (s.writeG lat n x).gang.sldsel = s.gang.sldsel :=
  by rw [State.writeG_gang_frame]

@[simp] theorem State.writeG_gang_discard (s : State) (lat n : Nat) (x : Part) : (s.writeG lat n x).gang.discard = s.gang.discard :=
  by rw [State.writeG_gang_frame]

@[simp] theorem State.writeG_gang_discarded (s : State) (lat n : Nat) (x : Part) : (s.writeG lat n x).gang.discarded = s.gang.discarded :=
  by rw [State.writeG_gang_frame]

@[simp] theorem State.writeG_gang_quick (s : State) (lat n : Nat) (x : Part) : (s.writeG lat n x).gang.quick = s.gang.quick :=
  by rw [State.writeG_gang_frame]

@[simp] theorem State.writeG_gang_nextIssue (s : State) (lat n : Nat) (x : Part) : (s.writeG lat n x).gang.nextIssue = s.gang.nextIssue :=
  by rw [State.writeG_gang_frame]

@[simp] theorem State.writeG_gang_since (s : State) (lat n : Nat) (x : Part) : (s.writeG lat n x).gang.since = s.gang.since :=
  by rw [State.writeG_gang_frame]

@[simp] theorem State.writeG_gang_alone (s : State) (lat n : Nat) (x : Part) : (s.writeG lat n x).gang.alone = s.gang.alone :=
  by rw [State.writeG_gang_frame]

@[simp] theorem State.writeG_gang_unchecked (s : State) (lat n : Nat) (x : Part) : (s.writeG lat n x).gang.unchecked = s.gang.unchecked :=
  by rw [State.writeG_gang_frame]

@[simp] theorem State.writeG_gang_pushSince (s : State) (lat n : Nat) (x : Part) : (s.writeG lat n x).gang.pushSince = s.gang.pushSince :=
  by rw [State.writeG_gang_frame]

@[simp] theorem State.writeG_gang_located (s : State) (lat n : Nat) (x : Part) : (s.writeG lat n x).gang.located = s.gang.located :=
  by rw [State.writeG_gang_frame]

@[simp] theorem State.writeG_gang_left (s : State) (lat n : Nat) (x : Part) : (s.writeG lat n x).gang.left = s.gang.left :=
  by rw [State.writeG_gang_frame]

/-! ### mark -/

theorem State.mark_frame (s : State) (r : RegName) : s.onlyGang (s.mark r) := by
  unfold State.mark
  split <;> rfl

@[simp] theorem State.mark_run (s : State) (r : RegName) : (s.mark r).run = s.run :=
  (State.mark_frame s _).run

@[simp] theorem State.mark_ipc (s : State) (r : RegName) : (s.mark r).ipc = s.ipc :=
  (State.mark_frame s _).ipc

@[simp] theorem State.mark_crew (s : State) (r : RegName) : (s.mark r).crew = s.crew :=
  (State.mark_frame s _).crew

@[simp] theorem State.mark_gangs (s : State) (r : RegName) : (s.mark r).gangs = s.gangs :=
  (State.mark_frame s _).gangs

@[simp] theorem State.mark_crews (s : State) (r : RegName) : (s.mark r).crews = s.crews :=
  (State.mark_frame s _).crews

@[simp] theorem State.mark_saved (s : State) (r : RegName) : (s.mark r).saved = s.saved :=
  (State.mark_frame s _).saved

@[simp] theorem State.mark_launches (s : State) (r : RegName) : (s.mark r).launches = s.launches :=
  (State.mark_frame s _).launches

@[simp] theorem State.mark_nextCrew (s : State) (r : RegName) : (s.mark r).nextCrew = s.nextCrew :=
  (State.mark_frame s _).nextCrew

@[simp] theorem State.mark_ops (s : State) (r : RegName) : (s.mark r).ops = s.ops :=
  (State.mark_frame s _).ops

@[simp] theorem State.mark_nextOp (s : State) (r : RegName) : (s.mark r).nextOp = s.nextOp :=
  (State.mark_frame s _).nextOp

@[simp] theorem State.mark_tokens (s : State) (r : RegName) : (s.mark r).tokens = s.tokens :=
  (State.mark_frame s _).tokens

@[simp] theorem State.mark_sys (s : State) (r : RegName) : (s.mark r).sys = s.sys :=
  (State.mark_frame s _).sys

@[simp] theorem State.mark_queues (s : State) (r : RegName) : (s.mark r).queues = s.queues :=
  (State.mark_frame s _).queues

@[simp] theorem State.mark_host (s : State) (r : RegName) : (s.mark r).host = s.host :=
  (State.mark_frame s _).host

@[simp] theorem State.mark_nic (s : State) (r : RegName) : (s.mark r).nic = s.nic :=
  (State.mark_frame s _).nic

@[simp] theorem State.mark_clock (s : State) (r : RegName) : (s.mark r).clock = s.clock :=
  (State.mark_frame s _).clock

@[simp] theorem State.mark_issues (s : State) (r : RegName) : (s.mark r).issues = s.issues :=
  (State.mark_frame s _).issues

@[simp] theorem State.mark_freeCtr (s : State) (r : RegName) : (s.mark r).freeCtr = s.freeCtr :=
  (State.mark_frame s _).freeCtr

@[simp] theorem State.mark_fuse (s : State) (r : RegName) : (s.mark r).fuse = s.fuse :=
  (State.mark_frame s _).fuse

@[simp] theorem State.mark_turns (s : State) (r : RegName) : (s.mark r).turns = s.turns :=
  (State.mark_frame s _).turns

theorem State.mark_gang_frame (s : State) (r : RegName) :
    (s.mark r).gang =
      { s.gang with marks := (s.mark r).gang.marks } := by
  unfold State.mark
  split <;> rfl

@[simp] theorem State.mark_gang_id (s : State) (r : RegName) : (s.mark r).gang.id = s.gang.id :=
  by rw [State.mark_gang_frame]

@[simp] theorem State.mark_gang_crewId (s : State) (r : RegName) : (s.mark r).gang.crewId = s.gang.crewId :=
  by rw [State.mark_gang_frame]

@[simp] theorem State.mark_gang_idx (s : State) (r : RegName) : (s.mark r).gang.idx = s.gang.idx :=
  by rw [State.mark_gang_frame]

@[simp] theorem State.mark_gang_slot (s : State) (r : RegName) : (s.mark r).gang.slot = s.gang.slot :=
  by rw [State.mark_gang_frame]

@[simp] theorem State.mark_gang_active (s : State) (r : RegName) : (s.mark r).gang.active = s.gang.active :=
  by rw [State.mark_gang_frame]

@[simp] theorem State.mark_gang_v (s : State) (r : RegName) : (s.mark r).gang.v = s.gang.v :=
  by rw [State.mark_gang_frame]

@[simp] theorem State.mark_gang_s (s : State) (r : RegName) : (s.mark r).gang.s = s.gang.s :=
  by rw [State.mark_gang_frame]

@[simp] theorem State.mark_gang_stags (s : State) (r : RegName) : (s.mark r).gang.stags = s.gang.stags :=
  by rw [State.mark_gang_frame]

@[simp] theorem State.mark_gang_p (s : State) (r : RegName) : (s.mark r).gang.p = s.gang.p :=
  by rw [State.mark_gang_frame]

@[simp] theorem State.mark_gang_g (s : State) (r : RegName) : (s.mark r).gang.g = s.gang.g :=
  by rw [State.mark_gang_frame]

@[simp] theorem State.mark_gang_strands (s : State) (r : RegName) : (s.mark r).gang.strands = s.gang.strands :=
  by rw [State.mark_gang_frame]

@[simp] theorem State.mark_gang_rnd (s : State) (r : RegName) : (s.mark r).gang.rnd = s.gang.rnd :=
  by rw [State.mark_gang_frame]

@[simp] theorem State.mark_gang_urnd (s : State) (r : RegName) : (s.mark r).gang.urnd = s.gang.urnd :=
  by rw [State.mark_gang_frame]

@[simp] theorem State.mark_gang_fpstat (s : State) (r : RegName) : (s.mark r).gang.fpstat = s.gang.fpstat :=
  by rw [State.mark_gang_frame]

@[simp] theorem State.mark_gang_smask (s : State) (r : RegName) : (s.mark r).gang.smask = s.gang.smask :=
  by rw [State.mark_gang_frame]

@[simp] theorem State.mark_gang_spass (s : State) (r : RegName) : (s.mark r).gang.spass = s.gang.spass :=
  by rw [State.mark_gang_frame]

@[simp] theorem State.mark_gang_myph (s : State) (r : RegName) : (s.mark r).gang.myph = s.gang.myph :=
  by rw [State.mark_gang_frame]

@[simp] theorem State.mark_gang_trapCause (s : State) (r : RegName) : (s.mark r).gang.trapCause = s.gang.trapCause :=
  by rw [State.mark_gang_frame]

@[simp] theorem State.mark_gang_trapPc (s : State) (r : RegName) : (s.mark r).gang.trapPc = s.gang.trapPc :=
  by rw [State.mark_gang_frame]

@[simp] theorem State.mark_gang_trapInfo (s : State) (r : RegName) : (s.mark r).gang.trapInfo = s.gang.trapInfo :=
  by rw [State.mark_gang_frame]

@[simp] theorem State.mark_gang_trapRun (s : State) (r : RegName) : (s.mark r).gang.trapRun = s.gang.trapRun :=
  by rw [State.mark_gang_frame]

@[simp] theorem State.mark_gang_priv (s : State) (r : RegName) : (s.mark r).gang.priv = s.gang.priv :=
  by rw [State.mark_gang_frame]

@[simp] theorem State.mark_gang_handler (s : State) (r : RegName) : (s.mark r).gang.handler = s.gang.handler :=
  by rw [State.mark_gang_frame]

@[simp] theorem State.mark_gang_suspended (s : State) (r : RegName) : (s.mark r).gang.suspended = s.gang.suspended :=
  by rw [State.mark_gang_frame]

@[simp] theorem State.mark_gang_shadows (s : State) (r : RegName) : (s.mark r).gang.shadows = s.gang.shadows :=
  by rw [State.mark_gang_frame]

@[simp] theorem State.mark_gang_pair (s : State) (r : RegName) : (s.mark r).gang.pair = s.gang.pair :=
  by rw [State.mark_gang_frame]

@[simp] theorem State.mark_gang_hold (s : State) (r : RegName) : (s.mark r).gang.hold = s.gang.hold :=
  by rw [State.mark_gang_frame]

@[simp] theorem State.mark_gang_groups (s : State) (r : RegName) : (s.mark r).gang.groups = s.gang.groups :=
  by rw [State.mark_gang_frame]

@[simp] theorem State.mark_gang_ej (s : State) (r : RegName) : (s.mark r).gang.ej = s.gang.ej :=
  by rw [State.mark_gang_frame]

@[simp] theorem State.mark_gang_handleIds (s : State) (r : RegName) : (s.mark r).gang.handleIds = s.gang.handleIds :=
  by rw [State.mark_gang_frame]

@[simp] theorem State.mark_gang_arrival (s : State) (r : RegName) : (s.mark r).gang.arrival = s.gang.arrival :=
  by rw [State.mark_gang_frame]

@[simp] theorem State.mark_gang_lastIssue (s : State) (r : RegName) : (s.mark r).gang.lastIssue = s.gang.lastIssue :=
  by rw [State.mark_gang_frame]

@[simp] theorem State.mark_gang_sldsel (s : State) (r : RegName) : (s.mark r).gang.sldsel = s.gang.sldsel :=
  by rw [State.mark_gang_frame]

@[simp] theorem State.mark_gang_discard (s : State) (r : RegName) : (s.mark r).gang.discard = s.gang.discard :=
  by rw [State.mark_gang_frame]

@[simp] theorem State.mark_gang_discarded (s : State) (r : RegName) : (s.mark r).gang.discarded = s.gang.discarded :=
  by rw [State.mark_gang_frame]

@[simp] theorem State.mark_gang_quick (s : State) (r : RegName) : (s.mark r).gang.quick = s.gang.quick :=
  by rw [State.mark_gang_frame]

@[simp] theorem State.mark_gang_nextIssue (s : State) (r : RegName) : (s.mark r).gang.nextIssue = s.gang.nextIssue :=
  by rw [State.mark_gang_frame]

@[simp] theorem State.mark_gang_since (s : State) (r : RegName) : (s.mark r).gang.since = s.gang.since :=
  by rw [State.mark_gang_frame]

@[simp] theorem State.mark_gang_alone (s : State) (r : RegName) : (s.mark r).gang.alone = s.gang.alone :=
  by rw [State.mark_gang_frame]

@[simp] theorem State.mark_gang_unchecked (s : State) (r : RegName) : (s.mark r).gang.unchecked = s.gang.unchecked :=
  by rw [State.mark_gang_frame]

@[simp] theorem State.mark_gang_pushSince (s : State) (r : RegName) : (s.mark r).gang.pushSince = s.gang.pushSince :=
  by rw [State.mark_gang_frame]

@[simp] theorem State.mark_gang_located (s : State) (r : RegName) : (s.mark r).gang.located = s.gang.located :=
  by rw [State.mark_gang_frame]

@[simp] theorem State.mark_gang_left (s : State) (r : RegName) : (s.mark r).gang.left = s.gang.left :=
  by rw [State.mark_gang_frame]

/-! ### markQuick -/

theorem State.markQuick_frame (s : State) (r : RegName) : s.onlyGang (s.markQuick r) := by
  unfold State.markQuick
  split <;> rfl

@[simp] theorem State.markQuick_run (s : State) (r : RegName) : (s.markQuick r).run = s.run :=
  (State.markQuick_frame s _).run

@[simp] theorem State.markQuick_ipc (s : State) (r : RegName) : (s.markQuick r).ipc = s.ipc :=
  (State.markQuick_frame s _).ipc

@[simp] theorem State.markQuick_crew (s : State) (r : RegName) : (s.markQuick r).crew = s.crew :=
  (State.markQuick_frame s _).crew

@[simp] theorem State.markQuick_gangs (s : State) (r : RegName) : (s.markQuick r).gangs = s.gangs :=
  (State.markQuick_frame s _).gangs

@[simp] theorem State.markQuick_crews (s : State) (r : RegName) : (s.markQuick r).crews = s.crews :=
  (State.markQuick_frame s _).crews

@[simp] theorem State.markQuick_saved (s : State) (r : RegName) : (s.markQuick r).saved = s.saved :=
  (State.markQuick_frame s _).saved

@[simp] theorem State.markQuick_launches (s : State) (r : RegName) : (s.markQuick r).launches = s.launches :=
  (State.markQuick_frame s _).launches

@[simp] theorem State.markQuick_nextCrew (s : State) (r : RegName) : (s.markQuick r).nextCrew = s.nextCrew :=
  (State.markQuick_frame s _).nextCrew

@[simp] theorem State.markQuick_ops (s : State) (r : RegName) : (s.markQuick r).ops = s.ops :=
  (State.markQuick_frame s _).ops

@[simp] theorem State.markQuick_nextOp (s : State) (r : RegName) : (s.markQuick r).nextOp = s.nextOp :=
  (State.markQuick_frame s _).nextOp

@[simp] theorem State.markQuick_tokens (s : State) (r : RegName) : (s.markQuick r).tokens = s.tokens :=
  (State.markQuick_frame s _).tokens

@[simp] theorem State.markQuick_sys (s : State) (r : RegName) : (s.markQuick r).sys = s.sys :=
  (State.markQuick_frame s _).sys

@[simp] theorem State.markQuick_queues (s : State) (r : RegName) : (s.markQuick r).queues = s.queues :=
  (State.markQuick_frame s _).queues

@[simp] theorem State.markQuick_host (s : State) (r : RegName) : (s.markQuick r).host = s.host :=
  (State.markQuick_frame s _).host

@[simp] theorem State.markQuick_nic (s : State) (r : RegName) : (s.markQuick r).nic = s.nic :=
  (State.markQuick_frame s _).nic

@[simp] theorem State.markQuick_clock (s : State) (r : RegName) : (s.markQuick r).clock = s.clock :=
  (State.markQuick_frame s _).clock

@[simp] theorem State.markQuick_issues (s : State) (r : RegName) : (s.markQuick r).issues = s.issues :=
  (State.markQuick_frame s _).issues

@[simp] theorem State.markQuick_freeCtr (s : State) (r : RegName) : (s.markQuick r).freeCtr = s.freeCtr :=
  (State.markQuick_frame s _).freeCtr

@[simp] theorem State.markQuick_fuse (s : State) (r : RegName) : (s.markQuick r).fuse = s.fuse :=
  (State.markQuick_frame s _).fuse

@[simp] theorem State.markQuick_turns (s : State) (r : RegName) : (s.markQuick r).turns = s.turns :=
  (State.markQuick_frame s _).turns

theorem State.markQuick_gang_frame (s : State) (r : RegName) :
    (s.markQuick r).gang =
      { s.gang with marks := (s.markQuick r).gang.marks, quick := (s.markQuick r).gang.quick } := by
  unfold State.markQuick
  split <;> rfl

@[simp] theorem State.markQuick_gang_id (s : State) (r : RegName) : (s.markQuick r).gang.id = s.gang.id :=
  by rw [State.markQuick_gang_frame]

@[simp] theorem State.markQuick_gang_crewId (s : State) (r : RegName) : (s.markQuick r).gang.crewId = s.gang.crewId :=
  by rw [State.markQuick_gang_frame]

@[simp] theorem State.markQuick_gang_idx (s : State) (r : RegName) : (s.markQuick r).gang.idx = s.gang.idx :=
  by rw [State.markQuick_gang_frame]

@[simp] theorem State.markQuick_gang_slot (s : State) (r : RegName) : (s.markQuick r).gang.slot = s.gang.slot :=
  by rw [State.markQuick_gang_frame]

@[simp] theorem State.markQuick_gang_active (s : State) (r : RegName) : (s.markQuick r).gang.active = s.gang.active :=
  by rw [State.markQuick_gang_frame]

@[simp] theorem State.markQuick_gang_v (s : State) (r : RegName) : (s.markQuick r).gang.v = s.gang.v :=
  by rw [State.markQuick_gang_frame]

@[simp] theorem State.markQuick_gang_s (s : State) (r : RegName) : (s.markQuick r).gang.s = s.gang.s :=
  by rw [State.markQuick_gang_frame]

@[simp] theorem State.markQuick_gang_stags (s : State) (r : RegName) : (s.markQuick r).gang.stags = s.gang.stags :=
  by rw [State.markQuick_gang_frame]

@[simp] theorem State.markQuick_gang_p (s : State) (r : RegName) : (s.markQuick r).gang.p = s.gang.p :=
  by rw [State.markQuick_gang_frame]

@[simp] theorem State.markQuick_gang_g (s : State) (r : RegName) : (s.markQuick r).gang.g = s.gang.g :=
  by rw [State.markQuick_gang_frame]

@[simp] theorem State.markQuick_gang_strands (s : State) (r : RegName) : (s.markQuick r).gang.strands = s.gang.strands :=
  by rw [State.markQuick_gang_frame]

@[simp] theorem State.markQuick_gang_rnd (s : State) (r : RegName) : (s.markQuick r).gang.rnd = s.gang.rnd :=
  by rw [State.markQuick_gang_frame]

@[simp] theorem State.markQuick_gang_urnd (s : State) (r : RegName) : (s.markQuick r).gang.urnd = s.gang.urnd :=
  by rw [State.markQuick_gang_frame]

@[simp] theorem State.markQuick_gang_fpstat (s : State) (r : RegName) : (s.markQuick r).gang.fpstat = s.gang.fpstat :=
  by rw [State.markQuick_gang_frame]

@[simp] theorem State.markQuick_gang_smask (s : State) (r : RegName) : (s.markQuick r).gang.smask = s.gang.smask :=
  by rw [State.markQuick_gang_frame]

@[simp] theorem State.markQuick_gang_spass (s : State) (r : RegName) : (s.markQuick r).gang.spass = s.gang.spass :=
  by rw [State.markQuick_gang_frame]

@[simp] theorem State.markQuick_gang_myph (s : State) (r : RegName) : (s.markQuick r).gang.myph = s.gang.myph :=
  by rw [State.markQuick_gang_frame]

@[simp] theorem State.markQuick_gang_trapCause (s : State) (r : RegName) : (s.markQuick r).gang.trapCause = s.gang.trapCause :=
  by rw [State.markQuick_gang_frame]

@[simp] theorem State.markQuick_gang_trapPc (s : State) (r : RegName) : (s.markQuick r).gang.trapPc = s.gang.trapPc :=
  by rw [State.markQuick_gang_frame]

@[simp] theorem State.markQuick_gang_trapInfo (s : State) (r : RegName) : (s.markQuick r).gang.trapInfo = s.gang.trapInfo :=
  by rw [State.markQuick_gang_frame]

@[simp] theorem State.markQuick_gang_trapRun (s : State) (r : RegName) : (s.markQuick r).gang.trapRun = s.gang.trapRun :=
  by rw [State.markQuick_gang_frame]

@[simp] theorem State.markQuick_gang_priv (s : State) (r : RegName) : (s.markQuick r).gang.priv = s.gang.priv :=
  by rw [State.markQuick_gang_frame]

@[simp] theorem State.markQuick_gang_handler (s : State) (r : RegName) : (s.markQuick r).gang.handler = s.gang.handler :=
  by rw [State.markQuick_gang_frame]

@[simp] theorem State.markQuick_gang_suspended (s : State) (r : RegName) : (s.markQuick r).gang.suspended = s.gang.suspended :=
  by rw [State.markQuick_gang_frame]

@[simp] theorem State.markQuick_gang_shadows (s : State) (r : RegName) : (s.markQuick r).gang.shadows = s.gang.shadows :=
  by rw [State.markQuick_gang_frame]

@[simp] theorem State.markQuick_gang_pair (s : State) (r : RegName) : (s.markQuick r).gang.pair = s.gang.pair :=
  by rw [State.markQuick_gang_frame]

@[simp] theorem State.markQuick_gang_hold (s : State) (r : RegName) : (s.markQuick r).gang.hold = s.gang.hold :=
  by rw [State.markQuick_gang_frame]

@[simp] theorem State.markQuick_gang_groups (s : State) (r : RegName) : (s.markQuick r).gang.groups = s.gang.groups :=
  by rw [State.markQuick_gang_frame]

@[simp] theorem State.markQuick_gang_ej (s : State) (r : RegName) : (s.markQuick r).gang.ej = s.gang.ej :=
  by rw [State.markQuick_gang_frame]

@[simp] theorem State.markQuick_gang_handleIds (s : State) (r : RegName) : (s.markQuick r).gang.handleIds = s.gang.handleIds :=
  by rw [State.markQuick_gang_frame]

@[simp] theorem State.markQuick_gang_arrival (s : State) (r : RegName) : (s.markQuick r).gang.arrival = s.gang.arrival :=
  by rw [State.markQuick_gang_frame]

@[simp] theorem State.markQuick_gang_lastIssue (s : State) (r : RegName) : (s.markQuick r).gang.lastIssue = s.gang.lastIssue :=
  by rw [State.markQuick_gang_frame]

@[simp] theorem State.markQuick_gang_sldsel (s : State) (r : RegName) : (s.markQuick r).gang.sldsel = s.gang.sldsel :=
  by rw [State.markQuick_gang_frame]

@[simp] theorem State.markQuick_gang_discard (s : State) (r : RegName) : (s.markQuick r).gang.discard = s.gang.discard :=
  by rw [State.markQuick_gang_frame]

@[simp] theorem State.markQuick_gang_discarded (s : State) (r : RegName) : (s.markQuick r).gang.discarded = s.gang.discarded :=
  by rw [State.markQuick_gang_frame]

@[simp] theorem State.markQuick_gang_nextIssue (s : State) (r : RegName) : (s.markQuick r).gang.nextIssue = s.gang.nextIssue :=
  by rw [State.markQuick_gang_frame]

@[simp] theorem State.markQuick_gang_since (s : State) (r : RegName) : (s.markQuick r).gang.since = s.gang.since :=
  by rw [State.markQuick_gang_frame]

@[simp] theorem State.markQuick_gang_alone (s : State) (r : RegName) : (s.markQuick r).gang.alone = s.gang.alone :=
  by rw [State.markQuick_gang_frame]

@[simp] theorem State.markQuick_gang_unchecked (s : State) (r : RegName) : (s.markQuick r).gang.unchecked = s.gang.unchecked :=
  by rw [State.markQuick_gang_frame]

@[simp] theorem State.markQuick_gang_pushSince (s : State) (r : RegName) : (s.markQuick r).gang.pushSince = s.gang.pushSince :=
  by rw [State.markQuick_gang_frame]

@[simp] theorem State.markQuick_gang_located (s : State) (r : RegName) : (s.markQuick r).gang.located = s.gang.located :=
  by rw [State.markQuick_gang_frame]

@[simp] theorem State.markQuick_gang_left (s : State) (r : RegName) : (s.markQuick r).gang.left = s.gang.left :=
  by rw [State.markQuick_gang_frame]

/-! ### raise -/

theorem State.raise_frame (s : State) (f : BitVec 8) : s.onlyGang (s.raise f) := by
  unfold State.raise
  split <;> rfl

@[simp] theorem State.raise_run (s : State) (f : BitVec 8) : (s.raise f).run = s.run :=
  (State.raise_frame s _).run

@[simp] theorem State.raise_ipc (s : State) (f : BitVec 8) : (s.raise f).ipc = s.ipc :=
  (State.raise_frame s _).ipc

@[simp] theorem State.raise_crew (s : State) (f : BitVec 8) : (s.raise f).crew = s.crew :=
  (State.raise_frame s _).crew

@[simp] theorem State.raise_gangs (s : State) (f : BitVec 8) : (s.raise f).gangs = s.gangs :=
  (State.raise_frame s _).gangs

@[simp] theorem State.raise_crews (s : State) (f : BitVec 8) : (s.raise f).crews = s.crews :=
  (State.raise_frame s _).crews

@[simp] theorem State.raise_saved (s : State) (f : BitVec 8) : (s.raise f).saved = s.saved :=
  (State.raise_frame s _).saved

@[simp] theorem State.raise_launches (s : State) (f : BitVec 8) : (s.raise f).launches = s.launches :=
  (State.raise_frame s _).launches

@[simp] theorem State.raise_nextCrew (s : State) (f : BitVec 8) : (s.raise f).nextCrew = s.nextCrew :=
  (State.raise_frame s _).nextCrew

@[simp] theorem State.raise_ops (s : State) (f : BitVec 8) : (s.raise f).ops = s.ops :=
  (State.raise_frame s _).ops

@[simp] theorem State.raise_nextOp (s : State) (f : BitVec 8) : (s.raise f).nextOp = s.nextOp :=
  (State.raise_frame s _).nextOp

@[simp] theorem State.raise_tokens (s : State) (f : BitVec 8) : (s.raise f).tokens = s.tokens :=
  (State.raise_frame s _).tokens

@[simp] theorem State.raise_sys (s : State) (f : BitVec 8) : (s.raise f).sys = s.sys :=
  (State.raise_frame s _).sys

@[simp] theorem State.raise_queues (s : State) (f : BitVec 8) : (s.raise f).queues = s.queues :=
  (State.raise_frame s _).queues

@[simp] theorem State.raise_host (s : State) (f : BitVec 8) : (s.raise f).host = s.host :=
  (State.raise_frame s _).host

@[simp] theorem State.raise_nic (s : State) (f : BitVec 8) : (s.raise f).nic = s.nic :=
  (State.raise_frame s _).nic

@[simp] theorem State.raise_clock (s : State) (f : BitVec 8) : (s.raise f).clock = s.clock :=
  (State.raise_frame s _).clock

@[simp] theorem State.raise_issues (s : State) (f : BitVec 8) : (s.raise f).issues = s.issues :=
  (State.raise_frame s _).issues

@[simp] theorem State.raise_freeCtr (s : State) (f : BitVec 8) : (s.raise f).freeCtr = s.freeCtr :=
  (State.raise_frame s _).freeCtr

@[simp] theorem State.raise_fuse (s : State) (f : BitVec 8) : (s.raise f).fuse = s.fuse :=
  (State.raise_frame s _).fuse

@[simp] theorem State.raise_turns (s : State) (f : BitVec 8) : (s.raise f).turns = s.turns :=
  (State.raise_frame s _).turns

theorem State.raise_gang_frame (s : State) (f : BitVec 8) :
    (s.raise f).gang =
      { s.gang with fpstat := (s.raise f).gang.fpstat } := by
  unfold State.raise
  split <;> rfl

@[simp] theorem State.raise_gang_id (s : State) (f : BitVec 8) : (s.raise f).gang.id = s.gang.id :=
  by rw [State.raise_gang_frame]

@[simp] theorem State.raise_gang_crewId (s : State) (f : BitVec 8) : (s.raise f).gang.crewId = s.gang.crewId :=
  by rw [State.raise_gang_frame]

@[simp] theorem State.raise_gang_idx (s : State) (f : BitVec 8) : (s.raise f).gang.idx = s.gang.idx :=
  by rw [State.raise_gang_frame]

@[simp] theorem State.raise_gang_slot (s : State) (f : BitVec 8) : (s.raise f).gang.slot = s.gang.slot :=
  by rw [State.raise_gang_frame]

@[simp] theorem State.raise_gang_active (s : State) (f : BitVec 8) : (s.raise f).gang.active = s.gang.active :=
  by rw [State.raise_gang_frame]

@[simp] theorem State.raise_gang_v (s : State) (f : BitVec 8) : (s.raise f).gang.v = s.gang.v :=
  by rw [State.raise_gang_frame]

@[simp] theorem State.raise_gang_s (s : State) (f : BitVec 8) : (s.raise f).gang.s = s.gang.s :=
  by rw [State.raise_gang_frame]

@[simp] theorem State.raise_gang_stags (s : State) (f : BitVec 8) : (s.raise f).gang.stags = s.gang.stags :=
  by rw [State.raise_gang_frame]

@[simp] theorem State.raise_gang_p (s : State) (f : BitVec 8) : (s.raise f).gang.p = s.gang.p :=
  by rw [State.raise_gang_frame]

@[simp] theorem State.raise_gang_g (s : State) (f : BitVec 8) : (s.raise f).gang.g = s.gang.g :=
  by rw [State.raise_gang_frame]

@[simp] theorem State.raise_gang_strands (s : State) (f : BitVec 8) : (s.raise f).gang.strands = s.gang.strands :=
  by rw [State.raise_gang_frame]

@[simp] theorem State.raise_gang_rnd (s : State) (f : BitVec 8) : (s.raise f).gang.rnd = s.gang.rnd :=
  by rw [State.raise_gang_frame]

@[simp] theorem State.raise_gang_urnd (s : State) (f : BitVec 8) : (s.raise f).gang.urnd = s.gang.urnd :=
  by rw [State.raise_gang_frame]

@[simp] theorem State.raise_gang_smask (s : State) (f : BitVec 8) : (s.raise f).gang.smask = s.gang.smask :=
  by rw [State.raise_gang_frame]

@[simp] theorem State.raise_gang_spass (s : State) (f : BitVec 8) : (s.raise f).gang.spass = s.gang.spass :=
  by rw [State.raise_gang_frame]

@[simp] theorem State.raise_gang_myph (s : State) (f : BitVec 8) : (s.raise f).gang.myph = s.gang.myph :=
  by rw [State.raise_gang_frame]

@[simp] theorem State.raise_gang_trapCause (s : State) (f : BitVec 8) : (s.raise f).gang.trapCause = s.gang.trapCause :=
  by rw [State.raise_gang_frame]

@[simp] theorem State.raise_gang_trapPc (s : State) (f : BitVec 8) : (s.raise f).gang.trapPc = s.gang.trapPc :=
  by rw [State.raise_gang_frame]

@[simp] theorem State.raise_gang_trapInfo (s : State) (f : BitVec 8) : (s.raise f).gang.trapInfo = s.gang.trapInfo :=
  by rw [State.raise_gang_frame]

@[simp] theorem State.raise_gang_trapRun (s : State) (f : BitVec 8) : (s.raise f).gang.trapRun = s.gang.trapRun :=
  by rw [State.raise_gang_frame]

@[simp] theorem State.raise_gang_priv (s : State) (f : BitVec 8) : (s.raise f).gang.priv = s.gang.priv :=
  by rw [State.raise_gang_frame]

@[simp] theorem State.raise_gang_handler (s : State) (f : BitVec 8) : (s.raise f).gang.handler = s.gang.handler :=
  by rw [State.raise_gang_frame]

@[simp] theorem State.raise_gang_suspended (s : State) (f : BitVec 8) : (s.raise f).gang.suspended = s.gang.suspended :=
  by rw [State.raise_gang_frame]

@[simp] theorem State.raise_gang_shadows (s : State) (f : BitVec 8) : (s.raise f).gang.shadows = s.gang.shadows :=
  by rw [State.raise_gang_frame]

@[simp] theorem State.raise_gang_marks (s : State) (f : BitVec 8) : (s.raise f).gang.marks = s.gang.marks :=
  by rw [State.raise_gang_frame]

@[simp] theorem State.raise_gang_pair (s : State) (f : BitVec 8) : (s.raise f).gang.pair = s.gang.pair :=
  by rw [State.raise_gang_frame]

@[simp] theorem State.raise_gang_hold (s : State) (f : BitVec 8) : (s.raise f).gang.hold = s.gang.hold :=
  by rw [State.raise_gang_frame]

@[simp] theorem State.raise_gang_groups (s : State) (f : BitVec 8) : (s.raise f).gang.groups = s.gang.groups :=
  by rw [State.raise_gang_frame]

@[simp] theorem State.raise_gang_ej (s : State) (f : BitVec 8) : (s.raise f).gang.ej = s.gang.ej :=
  by rw [State.raise_gang_frame]

@[simp] theorem State.raise_gang_handleIds (s : State) (f : BitVec 8) : (s.raise f).gang.handleIds = s.gang.handleIds :=
  by rw [State.raise_gang_frame]

@[simp] theorem State.raise_gang_arrival (s : State) (f : BitVec 8) : (s.raise f).gang.arrival = s.gang.arrival :=
  by rw [State.raise_gang_frame]

@[simp] theorem State.raise_gang_lastIssue (s : State) (f : BitVec 8) : (s.raise f).gang.lastIssue = s.gang.lastIssue :=
  by rw [State.raise_gang_frame]

@[simp] theorem State.raise_gang_sldsel (s : State) (f : BitVec 8) : (s.raise f).gang.sldsel = s.gang.sldsel :=
  by rw [State.raise_gang_frame]

@[simp] theorem State.raise_gang_discard (s : State) (f : BitVec 8) : (s.raise f).gang.discard = s.gang.discard :=
  by rw [State.raise_gang_frame]

@[simp] theorem State.raise_gang_discarded (s : State) (f : BitVec 8) : (s.raise f).gang.discarded = s.gang.discarded :=
  by rw [State.raise_gang_frame]

@[simp] theorem State.raise_gang_quick (s : State) (f : BitVec 8) : (s.raise f).gang.quick = s.gang.quick :=
  by rw [State.raise_gang_frame]

@[simp] theorem State.raise_gang_nextIssue (s : State) (f : BitVec 8) : (s.raise f).gang.nextIssue = s.gang.nextIssue :=
  by rw [State.raise_gang_frame]

@[simp] theorem State.raise_gang_since (s : State) (f : BitVec 8) : (s.raise f).gang.since = s.gang.since :=
  by rw [State.raise_gang_frame]

@[simp] theorem State.raise_gang_alone (s : State) (f : BitVec 8) : (s.raise f).gang.alone = s.gang.alone :=
  by rw [State.raise_gang_frame]

@[simp] theorem State.raise_gang_unchecked (s : State) (f : BitVec 8) : (s.raise f).gang.unchecked = s.gang.unchecked :=
  by rw [State.raise_gang_frame]

@[simp] theorem State.raise_gang_pushSince (s : State) (f : BitVec 8) : (s.raise f).gang.pushSince = s.gang.pushSince :=
  by rw [State.raise_gang_frame]

@[simp] theorem State.raise_gang_located (s : State) (f : BitVec 8) : (s.raise f).gang.located = s.gang.located :=
  by rw [State.raise_gang_frame]

@[simp] theorem State.raise_gang_left (s : State) (f : BitVec 8) : (s.raise f).gang.left = s.gang.left :=
  by rw [State.raise_gang_frame]

/-! ### setRoundState -/

theorem State.setRoundState_frame (s : State) (uni : Bool) (i : Nat) (x : Word) : s.onlyGang (s.setRoundState uni i x) := rfl

@[simp] theorem State.setRoundState_run (s : State) (uni : Bool) (i : Nat) (x : Word) : (s.setRoundState uni i x).run = s.run :=
  (State.setRoundState_frame s _ _ _).run

@[simp] theorem State.setRoundState_ipc (s : State) (uni : Bool) (i : Nat) (x : Word) : (s.setRoundState uni i x).ipc = s.ipc :=
  (State.setRoundState_frame s _ _ _).ipc

@[simp] theorem State.setRoundState_crew (s : State) (uni : Bool) (i : Nat) (x : Word) : (s.setRoundState uni i x).crew = s.crew :=
  (State.setRoundState_frame s _ _ _).crew

@[simp] theorem State.setRoundState_gangs (s : State) (uni : Bool) (i : Nat) (x : Word) : (s.setRoundState uni i x).gangs = s.gangs :=
  (State.setRoundState_frame s _ _ _).gangs

@[simp] theorem State.setRoundState_crews (s : State) (uni : Bool) (i : Nat) (x : Word) : (s.setRoundState uni i x).crews = s.crews :=
  (State.setRoundState_frame s _ _ _).crews

@[simp] theorem State.setRoundState_saved (s : State) (uni : Bool) (i : Nat) (x : Word) : (s.setRoundState uni i x).saved = s.saved :=
  (State.setRoundState_frame s _ _ _).saved

@[simp] theorem State.setRoundState_launches (s : State) (uni : Bool) (i : Nat) (x : Word) : (s.setRoundState uni i x).launches = s.launches :=
  (State.setRoundState_frame s _ _ _).launches

@[simp] theorem State.setRoundState_nextCrew (s : State) (uni : Bool) (i : Nat) (x : Word) : (s.setRoundState uni i x).nextCrew = s.nextCrew :=
  (State.setRoundState_frame s _ _ _).nextCrew

@[simp] theorem State.setRoundState_ops (s : State) (uni : Bool) (i : Nat) (x : Word) : (s.setRoundState uni i x).ops = s.ops :=
  (State.setRoundState_frame s _ _ _).ops

@[simp] theorem State.setRoundState_nextOp (s : State) (uni : Bool) (i : Nat) (x : Word) : (s.setRoundState uni i x).nextOp = s.nextOp :=
  (State.setRoundState_frame s _ _ _).nextOp

@[simp] theorem State.setRoundState_tokens (s : State) (uni : Bool) (i : Nat) (x : Word) : (s.setRoundState uni i x).tokens = s.tokens :=
  (State.setRoundState_frame s _ _ _).tokens

@[simp] theorem State.setRoundState_sys (s : State) (uni : Bool) (i : Nat) (x : Word) : (s.setRoundState uni i x).sys = s.sys :=
  (State.setRoundState_frame s _ _ _).sys

@[simp] theorem State.setRoundState_queues (s : State) (uni : Bool) (i : Nat) (x : Word) : (s.setRoundState uni i x).queues = s.queues :=
  (State.setRoundState_frame s _ _ _).queues

@[simp] theorem State.setRoundState_host (s : State) (uni : Bool) (i : Nat) (x : Word) : (s.setRoundState uni i x).host = s.host :=
  (State.setRoundState_frame s _ _ _).host

@[simp] theorem State.setRoundState_nic (s : State) (uni : Bool) (i : Nat) (x : Word) : (s.setRoundState uni i x).nic = s.nic :=
  (State.setRoundState_frame s _ _ _).nic

@[simp] theorem State.setRoundState_clock (s : State) (uni : Bool) (i : Nat) (x : Word) : (s.setRoundState uni i x).clock = s.clock :=
  (State.setRoundState_frame s _ _ _).clock

@[simp] theorem State.setRoundState_issues (s : State) (uni : Bool) (i : Nat) (x : Word) : (s.setRoundState uni i x).issues = s.issues :=
  (State.setRoundState_frame s _ _ _).issues

@[simp] theorem State.setRoundState_freeCtr (s : State) (uni : Bool) (i : Nat) (x : Word) : (s.setRoundState uni i x).freeCtr = s.freeCtr :=
  (State.setRoundState_frame s _ _ _).freeCtr

@[simp] theorem State.setRoundState_fuse (s : State) (uni : Bool) (i : Nat) (x : Word) : (s.setRoundState uni i x).fuse = s.fuse :=
  (State.setRoundState_frame s _ _ _).fuse

@[simp] theorem State.setRoundState_turns (s : State) (uni : Bool) (i : Nat) (x : Word) : (s.setRoundState uni i x).turns = s.turns :=
  (State.setRoundState_frame s _ _ _).turns

theorem State.setRoundState_gang_frame (s : State) (uni : Bool) (i : Nat) (x : Word) :
    (s.setRoundState uni i x).gang =
      { s.gang with rnd := (s.setRoundState uni i x).gang.rnd, urnd := (s.setRoundState uni i x).gang.urnd } := by
  unfold State.setRoundState
  cases uni <;> rfl

@[simp] theorem State.setRoundState_gang_id (s : State) (uni : Bool) (i : Nat) (x : Word) : (s.setRoundState uni i x).gang.id = s.gang.id :=
  by rw [State.setRoundState_gang_frame]

@[simp] theorem State.setRoundState_gang_crewId (s : State) (uni : Bool) (i : Nat) (x : Word) : (s.setRoundState uni i x).gang.crewId = s.gang.crewId :=
  by rw [State.setRoundState_gang_frame]

@[simp] theorem State.setRoundState_gang_idx (s : State) (uni : Bool) (i : Nat) (x : Word) : (s.setRoundState uni i x).gang.idx = s.gang.idx :=
  by rw [State.setRoundState_gang_frame]

@[simp] theorem State.setRoundState_gang_slot (s : State) (uni : Bool) (i : Nat) (x : Word) : (s.setRoundState uni i x).gang.slot = s.gang.slot :=
  by rw [State.setRoundState_gang_frame]

@[simp] theorem State.setRoundState_gang_active (s : State) (uni : Bool) (i : Nat) (x : Word) : (s.setRoundState uni i x).gang.active = s.gang.active :=
  by rw [State.setRoundState_gang_frame]

@[simp] theorem State.setRoundState_gang_v (s : State) (uni : Bool) (i : Nat) (x : Word) : (s.setRoundState uni i x).gang.v = s.gang.v :=
  by rw [State.setRoundState_gang_frame]

@[simp] theorem State.setRoundState_gang_s (s : State) (uni : Bool) (i : Nat) (x : Word) : (s.setRoundState uni i x).gang.s = s.gang.s :=
  by rw [State.setRoundState_gang_frame]

@[simp] theorem State.setRoundState_gang_stags (s : State) (uni : Bool) (i : Nat) (x : Word) : (s.setRoundState uni i x).gang.stags = s.gang.stags :=
  by rw [State.setRoundState_gang_frame]

@[simp] theorem State.setRoundState_gang_p (s : State) (uni : Bool) (i : Nat) (x : Word) : (s.setRoundState uni i x).gang.p = s.gang.p :=
  by rw [State.setRoundState_gang_frame]

@[simp] theorem State.setRoundState_gang_g (s : State) (uni : Bool) (i : Nat) (x : Word) : (s.setRoundState uni i x).gang.g = s.gang.g :=
  by rw [State.setRoundState_gang_frame]

@[simp] theorem State.setRoundState_gang_strands (s : State) (uni : Bool) (i : Nat) (x : Word) : (s.setRoundState uni i x).gang.strands = s.gang.strands :=
  by rw [State.setRoundState_gang_frame]

@[simp] theorem State.setRoundState_gang_fpstat (s : State) (uni : Bool) (i : Nat) (x : Word) : (s.setRoundState uni i x).gang.fpstat = s.gang.fpstat :=
  by rw [State.setRoundState_gang_frame]

@[simp] theorem State.setRoundState_gang_smask (s : State) (uni : Bool) (i : Nat) (x : Word) : (s.setRoundState uni i x).gang.smask = s.gang.smask :=
  by rw [State.setRoundState_gang_frame]

@[simp] theorem State.setRoundState_gang_spass (s : State) (uni : Bool) (i : Nat) (x : Word) : (s.setRoundState uni i x).gang.spass = s.gang.spass :=
  by rw [State.setRoundState_gang_frame]

@[simp] theorem State.setRoundState_gang_myph (s : State) (uni : Bool) (i : Nat) (x : Word) : (s.setRoundState uni i x).gang.myph = s.gang.myph :=
  by rw [State.setRoundState_gang_frame]

@[simp] theorem State.setRoundState_gang_trapCause (s : State) (uni : Bool) (i : Nat) (x : Word) : (s.setRoundState uni i x).gang.trapCause = s.gang.trapCause :=
  by rw [State.setRoundState_gang_frame]

@[simp] theorem State.setRoundState_gang_trapPc (s : State) (uni : Bool) (i : Nat) (x : Word) : (s.setRoundState uni i x).gang.trapPc = s.gang.trapPc :=
  by rw [State.setRoundState_gang_frame]

@[simp] theorem State.setRoundState_gang_trapInfo (s : State) (uni : Bool) (i : Nat) (x : Word) : (s.setRoundState uni i x).gang.trapInfo = s.gang.trapInfo :=
  by rw [State.setRoundState_gang_frame]

@[simp] theorem State.setRoundState_gang_trapRun (s : State) (uni : Bool) (i : Nat) (x : Word) : (s.setRoundState uni i x).gang.trapRun = s.gang.trapRun :=
  by rw [State.setRoundState_gang_frame]

@[simp] theorem State.setRoundState_gang_priv (s : State) (uni : Bool) (i : Nat) (x : Word) : (s.setRoundState uni i x).gang.priv = s.gang.priv :=
  by rw [State.setRoundState_gang_frame]

@[simp] theorem State.setRoundState_gang_handler (s : State) (uni : Bool) (i : Nat) (x : Word) : (s.setRoundState uni i x).gang.handler = s.gang.handler :=
  by rw [State.setRoundState_gang_frame]

@[simp] theorem State.setRoundState_gang_suspended (s : State) (uni : Bool) (i : Nat) (x : Word) : (s.setRoundState uni i x).gang.suspended = s.gang.suspended :=
  by rw [State.setRoundState_gang_frame]

@[simp] theorem State.setRoundState_gang_shadows (s : State) (uni : Bool) (i : Nat) (x : Word) : (s.setRoundState uni i x).gang.shadows = s.gang.shadows :=
  by rw [State.setRoundState_gang_frame]

@[simp] theorem State.setRoundState_gang_marks (s : State) (uni : Bool) (i : Nat) (x : Word) : (s.setRoundState uni i x).gang.marks = s.gang.marks :=
  by rw [State.setRoundState_gang_frame]

@[simp] theorem State.setRoundState_gang_pair (s : State) (uni : Bool) (i : Nat) (x : Word) : (s.setRoundState uni i x).gang.pair = s.gang.pair :=
  by rw [State.setRoundState_gang_frame]

@[simp] theorem State.setRoundState_gang_hold (s : State) (uni : Bool) (i : Nat) (x : Word) : (s.setRoundState uni i x).gang.hold = s.gang.hold :=
  by rw [State.setRoundState_gang_frame]

@[simp] theorem State.setRoundState_gang_groups (s : State) (uni : Bool) (i : Nat) (x : Word) : (s.setRoundState uni i x).gang.groups = s.gang.groups :=
  by rw [State.setRoundState_gang_frame]

@[simp] theorem State.setRoundState_gang_ej (s : State) (uni : Bool) (i : Nat) (x : Word) : (s.setRoundState uni i x).gang.ej = s.gang.ej :=
  by rw [State.setRoundState_gang_frame]

@[simp] theorem State.setRoundState_gang_handleIds (s : State) (uni : Bool) (i : Nat) (x : Word) : (s.setRoundState uni i x).gang.handleIds = s.gang.handleIds :=
  by rw [State.setRoundState_gang_frame]

@[simp] theorem State.setRoundState_gang_arrival (s : State) (uni : Bool) (i : Nat) (x : Word) : (s.setRoundState uni i x).gang.arrival = s.gang.arrival :=
  by rw [State.setRoundState_gang_frame]

@[simp] theorem State.setRoundState_gang_lastIssue (s : State) (uni : Bool) (i : Nat) (x : Word) : (s.setRoundState uni i x).gang.lastIssue = s.gang.lastIssue :=
  by rw [State.setRoundState_gang_frame]

@[simp] theorem State.setRoundState_gang_sldsel (s : State) (uni : Bool) (i : Nat) (x : Word) : (s.setRoundState uni i x).gang.sldsel = s.gang.sldsel :=
  by rw [State.setRoundState_gang_frame]

@[simp] theorem State.setRoundState_gang_discard (s : State) (uni : Bool) (i : Nat) (x : Word) : (s.setRoundState uni i x).gang.discard = s.gang.discard :=
  by rw [State.setRoundState_gang_frame]

@[simp] theorem State.setRoundState_gang_discarded (s : State) (uni : Bool) (i : Nat) (x : Word) : (s.setRoundState uni i x).gang.discarded = s.gang.discarded :=
  by rw [State.setRoundState_gang_frame]

@[simp] theorem State.setRoundState_gang_quick (s : State) (uni : Bool) (i : Nat) (x : Word) : (s.setRoundState uni i x).gang.quick = s.gang.quick :=
  by rw [State.setRoundState_gang_frame]

@[simp] theorem State.setRoundState_gang_nextIssue (s : State) (uni : Bool) (i : Nat) (x : Word) : (s.setRoundState uni i x).gang.nextIssue = s.gang.nextIssue :=
  by rw [State.setRoundState_gang_frame]

@[simp] theorem State.setRoundState_gang_since (s : State) (uni : Bool) (i : Nat) (x : Word) : (s.setRoundState uni i x).gang.since = s.gang.since :=
  by rw [State.setRoundState_gang_frame]

@[simp] theorem State.setRoundState_gang_alone (s : State) (uni : Bool) (i : Nat) (x : Word) : (s.setRoundState uni i x).gang.alone = s.gang.alone :=
  by rw [State.setRoundState_gang_frame]

@[simp] theorem State.setRoundState_gang_unchecked (s : State) (uni : Bool) (i : Nat) (x : Word) : (s.setRoundState uni i x).gang.unchecked = s.gang.unchecked :=
  by rw [State.setRoundState_gang_frame]

@[simp] theorem State.setRoundState_gang_pushSince (s : State) (uni : Bool) (i : Nat) (x : Word) : (s.setRoundState uni i x).gang.pushSince = s.gang.pushSince :=
  by rw [State.setRoundState_gang_frame]

@[simp] theorem State.setRoundState_gang_located (s : State) (uni : Bool) (i : Nat) (x : Word) : (s.setRoundState uni i x).gang.located = s.gang.located :=
  by rw [State.setRoundState_gang_frame]

@[simp] theorem State.setRoundState_gang_left (s : State) (uni : Bool) (i : Nat) (x : Word) : (s.setRoundState uni i x).gang.left = s.gang.left :=
  by rw [State.setRoundState_gang_frame]

/-! ### goTo -/

theorem State.goTo_frame (s : State) (m : Mask) (pc : Pc) : s.onlyGang (s.goTo m pc) := by
  unfold State.goTo
  split <;> rfl

@[simp] theorem State.goTo_run (s : State) (m : Mask) (pc : Pc) : (s.goTo m pc).run = s.run :=
  (State.goTo_frame s _ _).run

@[simp] theorem State.goTo_ipc (s : State) (m : Mask) (pc : Pc) : (s.goTo m pc).ipc = s.ipc :=
  (State.goTo_frame s _ _).ipc

@[simp] theorem State.goTo_crew (s : State) (m : Mask) (pc : Pc) : (s.goTo m pc).crew = s.crew :=
  (State.goTo_frame s _ _).crew

@[simp] theorem State.goTo_gangs (s : State) (m : Mask) (pc : Pc) : (s.goTo m pc).gangs = s.gangs :=
  (State.goTo_frame s _ _).gangs

@[simp] theorem State.goTo_crews (s : State) (m : Mask) (pc : Pc) : (s.goTo m pc).crews = s.crews :=
  (State.goTo_frame s _ _).crews

@[simp] theorem State.goTo_saved (s : State) (m : Mask) (pc : Pc) : (s.goTo m pc).saved = s.saved :=
  (State.goTo_frame s _ _).saved

@[simp] theorem State.goTo_launches (s : State) (m : Mask) (pc : Pc) : (s.goTo m pc).launches = s.launches :=
  (State.goTo_frame s _ _).launches

@[simp] theorem State.goTo_nextCrew (s : State) (m : Mask) (pc : Pc) : (s.goTo m pc).nextCrew = s.nextCrew :=
  (State.goTo_frame s _ _).nextCrew

@[simp] theorem State.goTo_ops (s : State) (m : Mask) (pc : Pc) : (s.goTo m pc).ops = s.ops :=
  (State.goTo_frame s _ _).ops

@[simp] theorem State.goTo_nextOp (s : State) (m : Mask) (pc : Pc) : (s.goTo m pc).nextOp = s.nextOp :=
  (State.goTo_frame s _ _).nextOp

@[simp] theorem State.goTo_tokens (s : State) (m : Mask) (pc : Pc) : (s.goTo m pc).tokens = s.tokens :=
  (State.goTo_frame s _ _).tokens

@[simp] theorem State.goTo_sys (s : State) (m : Mask) (pc : Pc) : (s.goTo m pc).sys = s.sys :=
  (State.goTo_frame s _ _).sys

@[simp] theorem State.goTo_queues (s : State) (m : Mask) (pc : Pc) : (s.goTo m pc).queues = s.queues :=
  (State.goTo_frame s _ _).queues

@[simp] theorem State.goTo_host (s : State) (m : Mask) (pc : Pc) : (s.goTo m pc).host = s.host :=
  (State.goTo_frame s _ _).host

@[simp] theorem State.goTo_nic (s : State) (m : Mask) (pc : Pc) : (s.goTo m pc).nic = s.nic :=
  (State.goTo_frame s _ _).nic

@[simp] theorem State.goTo_clock (s : State) (m : Mask) (pc : Pc) : (s.goTo m pc).clock = s.clock :=
  (State.goTo_frame s _ _).clock

@[simp] theorem State.goTo_issues (s : State) (m : Mask) (pc : Pc) : (s.goTo m pc).issues = s.issues :=
  (State.goTo_frame s _ _).issues

@[simp] theorem State.goTo_freeCtr (s : State) (m : Mask) (pc : Pc) : (s.goTo m pc).freeCtr = s.freeCtr :=
  (State.goTo_frame s _ _).freeCtr

@[simp] theorem State.goTo_fuse (s : State) (m : Mask) (pc : Pc) : (s.goTo m pc).fuse = s.fuse :=
  (State.goTo_frame s _ _).fuse

@[simp] theorem State.goTo_turns (s : State) (m : Mask) (pc : Pc) : (s.goTo m pc).turns = s.turns :=
  (State.goTo_frame s _ _).turns

theorem State.goTo_gang_frame (s : State) (m : Mask) (pc : Pc) :
    (s.goTo m pc).gang =
      { s.gang with strands := (s.goTo m pc).gang.strands, handler := (s.goTo m pc).gang.handler, hold := (s.goTo m pc).gang.hold } := by
  unfold State.goTo
  split <;> rfl

@[simp] theorem State.goTo_gang_id (s : State) (m : Mask) (pc : Pc) : (s.goTo m pc).gang.id = s.gang.id :=
  by rw [State.goTo_gang_frame]

@[simp] theorem State.goTo_gang_crewId (s : State) (m : Mask) (pc : Pc) : (s.goTo m pc).gang.crewId = s.gang.crewId :=
  by rw [State.goTo_gang_frame]

@[simp] theorem State.goTo_gang_idx (s : State) (m : Mask) (pc : Pc) : (s.goTo m pc).gang.idx = s.gang.idx :=
  by rw [State.goTo_gang_frame]

@[simp] theorem State.goTo_gang_slot (s : State) (m : Mask) (pc : Pc) : (s.goTo m pc).gang.slot = s.gang.slot :=
  by rw [State.goTo_gang_frame]

@[simp] theorem State.goTo_gang_active (s : State) (m : Mask) (pc : Pc) : (s.goTo m pc).gang.active = s.gang.active :=
  by rw [State.goTo_gang_frame]

@[simp] theorem State.goTo_gang_v (s : State) (m : Mask) (pc : Pc) : (s.goTo m pc).gang.v = s.gang.v :=
  by rw [State.goTo_gang_frame]

@[simp] theorem State.goTo_gang_s (s : State) (m : Mask) (pc : Pc) : (s.goTo m pc).gang.s = s.gang.s :=
  by rw [State.goTo_gang_frame]

@[simp] theorem State.goTo_gang_stags (s : State) (m : Mask) (pc : Pc) : (s.goTo m pc).gang.stags = s.gang.stags :=
  by rw [State.goTo_gang_frame]

@[simp] theorem State.goTo_gang_p (s : State) (m : Mask) (pc : Pc) : (s.goTo m pc).gang.p = s.gang.p :=
  by rw [State.goTo_gang_frame]

@[simp] theorem State.goTo_gang_g (s : State) (m : Mask) (pc : Pc) : (s.goTo m pc).gang.g = s.gang.g :=
  by rw [State.goTo_gang_frame]

@[simp] theorem State.goTo_gang_rnd (s : State) (m : Mask) (pc : Pc) : (s.goTo m pc).gang.rnd = s.gang.rnd :=
  by rw [State.goTo_gang_frame]

@[simp] theorem State.goTo_gang_urnd (s : State) (m : Mask) (pc : Pc) : (s.goTo m pc).gang.urnd = s.gang.urnd :=
  by rw [State.goTo_gang_frame]

@[simp] theorem State.goTo_gang_fpstat (s : State) (m : Mask) (pc : Pc) : (s.goTo m pc).gang.fpstat = s.gang.fpstat :=
  by rw [State.goTo_gang_frame]

@[simp] theorem State.goTo_gang_smask (s : State) (m : Mask) (pc : Pc) : (s.goTo m pc).gang.smask = s.gang.smask :=
  by rw [State.goTo_gang_frame]

@[simp] theorem State.goTo_gang_spass (s : State) (m : Mask) (pc : Pc) : (s.goTo m pc).gang.spass = s.gang.spass :=
  by rw [State.goTo_gang_frame]

@[simp] theorem State.goTo_gang_myph (s : State) (m : Mask) (pc : Pc) : (s.goTo m pc).gang.myph = s.gang.myph :=
  by rw [State.goTo_gang_frame]

@[simp] theorem State.goTo_gang_trapCause (s : State) (m : Mask) (pc : Pc) : (s.goTo m pc).gang.trapCause = s.gang.trapCause :=
  by rw [State.goTo_gang_frame]

@[simp] theorem State.goTo_gang_trapPc (s : State) (m : Mask) (pc : Pc) : (s.goTo m pc).gang.trapPc = s.gang.trapPc :=
  by rw [State.goTo_gang_frame]

@[simp] theorem State.goTo_gang_trapInfo (s : State) (m : Mask) (pc : Pc) : (s.goTo m pc).gang.trapInfo = s.gang.trapInfo :=
  by rw [State.goTo_gang_frame]

@[simp] theorem State.goTo_gang_trapRun (s : State) (m : Mask) (pc : Pc) : (s.goTo m pc).gang.trapRun = s.gang.trapRun :=
  by rw [State.goTo_gang_frame]

@[simp] theorem State.goTo_gang_priv (s : State) (m : Mask) (pc : Pc) : (s.goTo m pc).gang.priv = s.gang.priv :=
  by rw [State.goTo_gang_frame]

@[simp] theorem State.goTo_gang_suspended (s : State) (m : Mask) (pc : Pc) : (s.goTo m pc).gang.suspended = s.gang.suspended :=
  by rw [State.goTo_gang_frame]

@[simp] theorem State.goTo_gang_shadows (s : State) (m : Mask) (pc : Pc) : (s.goTo m pc).gang.shadows = s.gang.shadows :=
  by rw [State.goTo_gang_frame]

@[simp] theorem State.goTo_gang_marks (s : State) (m : Mask) (pc : Pc) : (s.goTo m pc).gang.marks = s.gang.marks :=
  by rw [State.goTo_gang_frame]

@[simp] theorem State.goTo_gang_pair (s : State) (m : Mask) (pc : Pc) : (s.goTo m pc).gang.pair = s.gang.pair :=
  by rw [State.goTo_gang_frame]

@[simp] theorem State.goTo_gang_groups (s : State) (m : Mask) (pc : Pc) : (s.goTo m pc).gang.groups = s.gang.groups :=
  by rw [State.goTo_gang_frame]

@[simp] theorem State.goTo_gang_ej (s : State) (m : Mask) (pc : Pc) : (s.goTo m pc).gang.ej = s.gang.ej :=
  by rw [State.goTo_gang_frame]

@[simp] theorem State.goTo_gang_handleIds (s : State) (m : Mask) (pc : Pc) : (s.goTo m pc).gang.handleIds = s.gang.handleIds :=
  by rw [State.goTo_gang_frame]

@[simp] theorem State.goTo_gang_arrival (s : State) (m : Mask) (pc : Pc) : (s.goTo m pc).gang.arrival = s.gang.arrival :=
  by rw [State.goTo_gang_frame]

@[simp] theorem State.goTo_gang_lastIssue (s : State) (m : Mask) (pc : Pc) : (s.goTo m pc).gang.lastIssue = s.gang.lastIssue :=
  by rw [State.goTo_gang_frame]

@[simp] theorem State.goTo_gang_sldsel (s : State) (m : Mask) (pc : Pc) : (s.goTo m pc).gang.sldsel = s.gang.sldsel :=
  by rw [State.goTo_gang_frame]

@[simp] theorem State.goTo_gang_discard (s : State) (m : Mask) (pc : Pc) : (s.goTo m pc).gang.discard = s.gang.discard :=
  by rw [State.goTo_gang_frame]

@[simp] theorem State.goTo_gang_discarded (s : State) (m : Mask) (pc : Pc) : (s.goTo m pc).gang.discarded = s.gang.discarded :=
  by rw [State.goTo_gang_frame]

@[simp] theorem State.goTo_gang_quick (s : State) (m : Mask) (pc : Pc) : (s.goTo m pc).gang.quick = s.gang.quick :=
  by rw [State.goTo_gang_frame]

@[simp] theorem State.goTo_gang_nextIssue (s : State) (m : Mask) (pc : Pc) : (s.goTo m pc).gang.nextIssue = s.gang.nextIssue :=
  by rw [State.goTo_gang_frame]

@[simp] theorem State.goTo_gang_since (s : State) (m : Mask) (pc : Pc) : (s.goTo m pc).gang.since = s.gang.since :=
  by rw [State.goTo_gang_frame]

@[simp] theorem State.goTo_gang_alone (s : State) (m : Mask) (pc : Pc) : (s.goTo m pc).gang.alone = s.gang.alone :=
  by rw [State.goTo_gang_frame]

@[simp] theorem State.goTo_gang_unchecked (s : State) (m : Mask) (pc : Pc) : (s.goTo m pc).gang.unchecked = s.gang.unchecked :=
  by rw [State.goTo_gang_frame]

@[simp] theorem State.goTo_gang_pushSince (s : State) (m : Mask) (pc : Pc) : (s.goTo m pc).gang.pushSince = s.gang.pushSince :=
  by rw [State.goTo_gang_frame]

@[simp] theorem State.goTo_gang_located (s : State) (m : Mask) (pc : Pc) : (s.goTo m pc).gang.located = s.gang.located :=
  by rw [State.goTo_gang_frame]

@[simp] theorem State.goTo_gang_left (s : State) (m : Mask) (pc : Pc) : (s.goTo m pc).gang.left = s.gang.left :=
  by rw [State.goTo_gang_frame]

/-! ### advance -/

theorem State.advance_frame (s : State) : s.onlyGang (s.advance) := State.goTo_frame s _ _

@[simp] theorem State.advance_run (s : State) : (s.advance).run = s.run :=
  (State.advance_frame s).run

@[simp] theorem State.advance_ipc (s : State) : (s.advance).ipc = s.ipc :=
  (State.advance_frame s).ipc

@[simp] theorem State.advance_crew (s : State) : (s.advance).crew = s.crew :=
  (State.advance_frame s).crew

@[simp] theorem State.advance_gangs (s : State) : (s.advance).gangs = s.gangs :=
  (State.advance_frame s).gangs

@[simp] theorem State.advance_crews (s : State) : (s.advance).crews = s.crews :=
  (State.advance_frame s).crews

@[simp] theorem State.advance_saved (s : State) : (s.advance).saved = s.saved :=
  (State.advance_frame s).saved

@[simp] theorem State.advance_launches (s : State) : (s.advance).launches = s.launches :=
  (State.advance_frame s).launches

@[simp] theorem State.advance_nextCrew (s : State) : (s.advance).nextCrew = s.nextCrew :=
  (State.advance_frame s).nextCrew

@[simp] theorem State.advance_ops (s : State) : (s.advance).ops = s.ops :=
  (State.advance_frame s).ops

@[simp] theorem State.advance_nextOp (s : State) : (s.advance).nextOp = s.nextOp :=
  (State.advance_frame s).nextOp

@[simp] theorem State.advance_tokens (s : State) : (s.advance).tokens = s.tokens :=
  (State.advance_frame s).tokens

@[simp] theorem State.advance_sys (s : State) : (s.advance).sys = s.sys :=
  (State.advance_frame s).sys

@[simp] theorem State.advance_queues (s : State) : (s.advance).queues = s.queues :=
  (State.advance_frame s).queues

@[simp] theorem State.advance_host (s : State) : (s.advance).host = s.host :=
  (State.advance_frame s).host

@[simp] theorem State.advance_nic (s : State) : (s.advance).nic = s.nic :=
  (State.advance_frame s).nic

@[simp] theorem State.advance_clock (s : State) : (s.advance).clock = s.clock :=
  (State.advance_frame s).clock

@[simp] theorem State.advance_issues (s : State) : (s.advance).issues = s.issues :=
  (State.advance_frame s).issues

@[simp] theorem State.advance_freeCtr (s : State) : (s.advance).freeCtr = s.freeCtr :=
  (State.advance_frame s).freeCtr

@[simp] theorem State.advance_fuse (s : State) : (s.advance).fuse = s.fuse :=
  (State.advance_frame s).fuse

@[simp] theorem State.advance_turns (s : State) : (s.advance).turns = s.turns :=
  (State.advance_frame s).turns

theorem State.advance_gang_frame (s : State) :
    (s.advance).gang =
      { s.gang with strands := (s.advance).gang.strands, handler := (s.advance).gang.handler, hold := (s.advance).gang.hold } := State.goTo_gang_frame s _ _

@[simp] theorem State.advance_gang_id (s : State) : (s.advance).gang.id = s.gang.id :=
  by rw [State.advance_gang_frame]

@[simp] theorem State.advance_gang_crewId (s : State) : (s.advance).gang.crewId = s.gang.crewId :=
  by rw [State.advance_gang_frame]

@[simp] theorem State.advance_gang_idx (s : State) : (s.advance).gang.idx = s.gang.idx :=
  by rw [State.advance_gang_frame]

@[simp] theorem State.advance_gang_slot (s : State) : (s.advance).gang.slot = s.gang.slot :=
  by rw [State.advance_gang_frame]

@[simp] theorem State.advance_gang_active (s : State) : (s.advance).gang.active = s.gang.active :=
  by rw [State.advance_gang_frame]

@[simp] theorem State.advance_gang_v (s : State) : (s.advance).gang.v = s.gang.v :=
  by rw [State.advance_gang_frame]

@[simp] theorem State.advance_gang_s (s : State) : (s.advance).gang.s = s.gang.s :=
  by rw [State.advance_gang_frame]

@[simp] theorem State.advance_gang_stags (s : State) : (s.advance).gang.stags = s.gang.stags :=
  by rw [State.advance_gang_frame]

@[simp] theorem State.advance_gang_p (s : State) : (s.advance).gang.p = s.gang.p :=
  by rw [State.advance_gang_frame]

@[simp] theorem State.advance_gang_g (s : State) : (s.advance).gang.g = s.gang.g :=
  by rw [State.advance_gang_frame]

@[simp] theorem State.advance_gang_rnd (s : State) : (s.advance).gang.rnd = s.gang.rnd :=
  by rw [State.advance_gang_frame]

@[simp] theorem State.advance_gang_urnd (s : State) : (s.advance).gang.urnd = s.gang.urnd :=
  by rw [State.advance_gang_frame]

@[simp] theorem State.advance_gang_fpstat (s : State) : (s.advance).gang.fpstat = s.gang.fpstat :=
  by rw [State.advance_gang_frame]

@[simp] theorem State.advance_gang_smask (s : State) : (s.advance).gang.smask = s.gang.smask :=
  by rw [State.advance_gang_frame]

@[simp] theorem State.advance_gang_spass (s : State) : (s.advance).gang.spass = s.gang.spass :=
  by rw [State.advance_gang_frame]

@[simp] theorem State.advance_gang_myph (s : State) : (s.advance).gang.myph = s.gang.myph :=
  by rw [State.advance_gang_frame]

@[simp] theorem State.advance_gang_trapCause (s : State) : (s.advance).gang.trapCause = s.gang.trapCause :=
  by rw [State.advance_gang_frame]

@[simp] theorem State.advance_gang_trapPc (s : State) : (s.advance).gang.trapPc = s.gang.trapPc :=
  by rw [State.advance_gang_frame]

@[simp] theorem State.advance_gang_trapInfo (s : State) : (s.advance).gang.trapInfo = s.gang.trapInfo :=
  by rw [State.advance_gang_frame]

@[simp] theorem State.advance_gang_trapRun (s : State) : (s.advance).gang.trapRun = s.gang.trapRun :=
  by rw [State.advance_gang_frame]

@[simp] theorem State.advance_gang_priv (s : State) : (s.advance).gang.priv = s.gang.priv :=
  by rw [State.advance_gang_frame]

@[simp] theorem State.advance_gang_suspended (s : State) : (s.advance).gang.suspended = s.gang.suspended :=
  by rw [State.advance_gang_frame]

@[simp] theorem State.advance_gang_shadows (s : State) : (s.advance).gang.shadows = s.gang.shadows :=
  by rw [State.advance_gang_frame]

@[simp] theorem State.advance_gang_marks (s : State) : (s.advance).gang.marks = s.gang.marks :=
  by rw [State.advance_gang_frame]

@[simp] theorem State.advance_gang_pair (s : State) : (s.advance).gang.pair = s.gang.pair :=
  by rw [State.advance_gang_frame]

@[simp] theorem State.advance_gang_groups (s : State) : (s.advance).gang.groups = s.gang.groups :=
  by rw [State.advance_gang_frame]

@[simp] theorem State.advance_gang_ej (s : State) : (s.advance).gang.ej = s.gang.ej :=
  by rw [State.advance_gang_frame]

@[simp] theorem State.advance_gang_handleIds (s : State) : (s.advance).gang.handleIds = s.gang.handleIds :=
  by rw [State.advance_gang_frame]

@[simp] theorem State.advance_gang_arrival (s : State) : (s.advance).gang.arrival = s.gang.arrival :=
  by rw [State.advance_gang_frame]

@[simp] theorem State.advance_gang_lastIssue (s : State) : (s.advance).gang.lastIssue = s.gang.lastIssue :=
  by rw [State.advance_gang_frame]

@[simp] theorem State.advance_gang_sldsel (s : State) : (s.advance).gang.sldsel = s.gang.sldsel :=
  by rw [State.advance_gang_frame]

@[simp] theorem State.advance_gang_discard (s : State) : (s.advance).gang.discard = s.gang.discard :=
  by rw [State.advance_gang_frame]

@[simp] theorem State.advance_gang_discarded (s : State) : (s.advance).gang.discarded = s.gang.discarded :=
  by rw [State.advance_gang_frame]

@[simp] theorem State.advance_gang_quick (s : State) : (s.advance).gang.quick = s.gang.quick :=
  by rw [State.advance_gang_frame]

@[simp] theorem State.advance_gang_nextIssue (s : State) : (s.advance).gang.nextIssue = s.gang.nextIssue :=
  by rw [State.advance_gang_frame]

@[simp] theorem State.advance_gang_since (s : State) : (s.advance).gang.since = s.gang.since :=
  by rw [State.advance_gang_frame]

@[simp] theorem State.advance_gang_alone (s : State) : (s.advance).gang.alone = s.gang.alone :=
  by rw [State.advance_gang_frame]

@[simp] theorem State.advance_gang_unchecked (s : State) : (s.advance).gang.unchecked = s.gang.unchecked :=
  by rw [State.advance_gang_frame]

@[simp] theorem State.advance_gang_pushSince (s : State) : (s.advance).gang.pushSince = s.gang.pushSince :=
  by rw [State.advance_gang_frame]

@[simp] theorem State.advance_gang_located (s : State) : (s.advance).gang.located = s.gang.located :=
  by rw [State.advance_gang_frame]

@[simp] theorem State.advance_gang_left (s : State) : (s.advance).gang.left = s.gang.left :=
  by rw [State.advance_gang_frame]

/-! ### wait -/

theorem State.wait_frame (s : State) (why : HoldWhy) : s.onlyGang (s.wait why) := rfl

@[simp] theorem State.wait_run (s : State) (why : HoldWhy) : (s.wait why).run = s.run :=
  (State.wait_frame s _).run

@[simp] theorem State.wait_ipc (s : State) (why : HoldWhy) : (s.wait why).ipc = s.ipc :=
  (State.wait_frame s _).ipc

@[simp] theorem State.wait_crew (s : State) (why : HoldWhy) : (s.wait why).crew = s.crew :=
  (State.wait_frame s _).crew

@[simp] theorem State.wait_gangs (s : State) (why : HoldWhy) : (s.wait why).gangs = s.gangs :=
  (State.wait_frame s _).gangs

@[simp] theorem State.wait_crews (s : State) (why : HoldWhy) : (s.wait why).crews = s.crews :=
  (State.wait_frame s _).crews

@[simp] theorem State.wait_saved (s : State) (why : HoldWhy) : (s.wait why).saved = s.saved :=
  (State.wait_frame s _).saved

@[simp] theorem State.wait_launches (s : State) (why : HoldWhy) : (s.wait why).launches = s.launches :=
  (State.wait_frame s _).launches

@[simp] theorem State.wait_nextCrew (s : State) (why : HoldWhy) : (s.wait why).nextCrew = s.nextCrew :=
  (State.wait_frame s _).nextCrew

@[simp] theorem State.wait_ops (s : State) (why : HoldWhy) : (s.wait why).ops = s.ops :=
  (State.wait_frame s _).ops

@[simp] theorem State.wait_nextOp (s : State) (why : HoldWhy) : (s.wait why).nextOp = s.nextOp :=
  (State.wait_frame s _).nextOp

@[simp] theorem State.wait_tokens (s : State) (why : HoldWhy) : (s.wait why).tokens = s.tokens :=
  (State.wait_frame s _).tokens

@[simp] theorem State.wait_sys (s : State) (why : HoldWhy) : (s.wait why).sys = s.sys :=
  (State.wait_frame s _).sys

@[simp] theorem State.wait_queues (s : State) (why : HoldWhy) : (s.wait why).queues = s.queues :=
  (State.wait_frame s _).queues

@[simp] theorem State.wait_host (s : State) (why : HoldWhy) : (s.wait why).host = s.host :=
  (State.wait_frame s _).host

@[simp] theorem State.wait_nic (s : State) (why : HoldWhy) : (s.wait why).nic = s.nic :=
  (State.wait_frame s _).nic

@[simp] theorem State.wait_clock (s : State) (why : HoldWhy) : (s.wait why).clock = s.clock :=
  (State.wait_frame s _).clock

@[simp] theorem State.wait_issues (s : State) (why : HoldWhy) : (s.wait why).issues = s.issues :=
  (State.wait_frame s _).issues

@[simp] theorem State.wait_freeCtr (s : State) (why : HoldWhy) : (s.wait why).freeCtr = s.freeCtr :=
  (State.wait_frame s _).freeCtr

@[simp] theorem State.wait_fuse (s : State) (why : HoldWhy) : (s.wait why).fuse = s.fuse :=
  (State.wait_frame s _).fuse

@[simp] theorem State.wait_turns (s : State) (why : HoldWhy) : (s.wait why).turns = s.turns :=
  (State.wait_frame s _).turns

theorem State.wait_gang_frame (s : State) (why : HoldWhy) :
    (s.wait why).gang =
      { s.gang with hold := (s.wait why).gang.hold, pair := (s.wait why).gang.pair,
                    since := (s.wait why).gang.since } := rfl

@[simp] theorem State.wait_gang_id (s : State) (why : HoldWhy) : (s.wait why).gang.id = s.gang.id :=
  by rw [State.wait_gang_frame]

@[simp] theorem State.wait_gang_crewId (s : State) (why : HoldWhy) : (s.wait why).gang.crewId = s.gang.crewId :=
  by rw [State.wait_gang_frame]

@[simp] theorem State.wait_gang_idx (s : State) (why : HoldWhy) : (s.wait why).gang.idx = s.gang.idx :=
  by rw [State.wait_gang_frame]

@[simp] theorem State.wait_gang_slot (s : State) (why : HoldWhy) : (s.wait why).gang.slot = s.gang.slot :=
  by rw [State.wait_gang_frame]

@[simp] theorem State.wait_gang_active (s : State) (why : HoldWhy) : (s.wait why).gang.active = s.gang.active :=
  by rw [State.wait_gang_frame]

@[simp] theorem State.wait_gang_v (s : State) (why : HoldWhy) : (s.wait why).gang.v = s.gang.v :=
  by rw [State.wait_gang_frame]

@[simp] theorem State.wait_gang_s (s : State) (why : HoldWhy) : (s.wait why).gang.s = s.gang.s :=
  by rw [State.wait_gang_frame]

@[simp] theorem State.wait_gang_stags (s : State) (why : HoldWhy) : (s.wait why).gang.stags = s.gang.stags :=
  by rw [State.wait_gang_frame]

@[simp] theorem State.wait_gang_p (s : State) (why : HoldWhy) : (s.wait why).gang.p = s.gang.p :=
  by rw [State.wait_gang_frame]

@[simp] theorem State.wait_gang_g (s : State) (why : HoldWhy) : (s.wait why).gang.g = s.gang.g :=
  by rw [State.wait_gang_frame]

@[simp] theorem State.wait_gang_strands (s : State) (why : HoldWhy) : (s.wait why).gang.strands = s.gang.strands :=
  by rw [State.wait_gang_frame]

@[simp] theorem State.wait_gang_rnd (s : State) (why : HoldWhy) : (s.wait why).gang.rnd = s.gang.rnd :=
  by rw [State.wait_gang_frame]

@[simp] theorem State.wait_gang_urnd (s : State) (why : HoldWhy) : (s.wait why).gang.urnd = s.gang.urnd :=
  by rw [State.wait_gang_frame]

@[simp] theorem State.wait_gang_fpstat (s : State) (why : HoldWhy) : (s.wait why).gang.fpstat = s.gang.fpstat :=
  by rw [State.wait_gang_frame]

@[simp] theorem State.wait_gang_smask (s : State) (why : HoldWhy) : (s.wait why).gang.smask = s.gang.smask :=
  by rw [State.wait_gang_frame]

@[simp] theorem State.wait_gang_spass (s : State) (why : HoldWhy) : (s.wait why).gang.spass = s.gang.spass :=
  by rw [State.wait_gang_frame]

@[simp] theorem State.wait_gang_myph (s : State) (why : HoldWhy) : (s.wait why).gang.myph = s.gang.myph :=
  by rw [State.wait_gang_frame]

@[simp] theorem State.wait_gang_trapCause (s : State) (why : HoldWhy) : (s.wait why).gang.trapCause = s.gang.trapCause :=
  by rw [State.wait_gang_frame]

@[simp] theorem State.wait_gang_trapPc (s : State) (why : HoldWhy) : (s.wait why).gang.trapPc = s.gang.trapPc :=
  by rw [State.wait_gang_frame]

@[simp] theorem State.wait_gang_trapInfo (s : State) (why : HoldWhy) : (s.wait why).gang.trapInfo = s.gang.trapInfo :=
  by rw [State.wait_gang_frame]

@[simp] theorem State.wait_gang_trapRun (s : State) (why : HoldWhy) : (s.wait why).gang.trapRun = s.gang.trapRun :=
  by rw [State.wait_gang_frame]

@[simp] theorem State.wait_gang_priv (s : State) (why : HoldWhy) : (s.wait why).gang.priv = s.gang.priv :=
  by rw [State.wait_gang_frame]

@[simp] theorem State.wait_gang_handler (s : State) (why : HoldWhy) : (s.wait why).gang.handler = s.gang.handler :=
  by rw [State.wait_gang_frame]

@[simp] theorem State.wait_gang_suspended (s : State) (why : HoldWhy) : (s.wait why).gang.suspended = s.gang.suspended :=
  by rw [State.wait_gang_frame]

@[simp] theorem State.wait_gang_shadows (s : State) (why : HoldWhy) : (s.wait why).gang.shadows = s.gang.shadows :=
  by rw [State.wait_gang_frame]

@[simp] theorem State.wait_gang_marks (s : State) (why : HoldWhy) : (s.wait why).gang.marks = s.gang.marks :=
  by rw [State.wait_gang_frame]

@[simp] theorem State.wait_gang_groups (s : State) (why : HoldWhy) : (s.wait why).gang.groups = s.gang.groups :=
  by rw [State.wait_gang_frame]

@[simp] theorem State.wait_gang_ej (s : State) (why : HoldWhy) : (s.wait why).gang.ej = s.gang.ej :=
  by rw [State.wait_gang_frame]

@[simp] theorem State.wait_gang_handleIds (s : State) (why : HoldWhy) : (s.wait why).gang.handleIds = s.gang.handleIds :=
  by rw [State.wait_gang_frame]

@[simp] theorem State.wait_gang_arrival (s : State) (why : HoldWhy) : (s.wait why).gang.arrival = s.gang.arrival :=
  by rw [State.wait_gang_frame]

@[simp] theorem State.wait_gang_lastIssue (s : State) (why : HoldWhy) : (s.wait why).gang.lastIssue = s.gang.lastIssue :=
  by rw [State.wait_gang_frame]

@[simp] theorem State.wait_gang_sldsel (s : State) (why : HoldWhy) : (s.wait why).gang.sldsel = s.gang.sldsel :=
  by rw [State.wait_gang_frame]

@[simp] theorem State.wait_gang_discard (s : State) (why : HoldWhy) : (s.wait why).gang.discard = s.gang.discard :=
  by rw [State.wait_gang_frame]

@[simp] theorem State.wait_gang_discarded (s : State) (why : HoldWhy) : (s.wait why).gang.discarded = s.gang.discarded :=
  by rw [State.wait_gang_frame]

@[simp] theorem State.wait_gang_quick (s : State) (why : HoldWhy) : (s.wait why).gang.quick = s.gang.quick :=
  by rw [State.wait_gang_frame]

@[simp] theorem State.wait_gang_nextIssue (s : State) (why : HoldWhy) : (s.wait why).gang.nextIssue = s.gang.nextIssue :=
  by rw [State.wait_gang_frame]

@[simp] theorem State.wait_gang_alone (s : State) (why : HoldWhy) : (s.wait why).gang.alone = s.gang.alone :=
  by rw [State.wait_gang_frame]

@[simp] theorem State.wait_gang_unchecked (s : State) (why : HoldWhy) : (s.wait why).gang.unchecked = s.gang.unchecked :=
  by rw [State.wait_gang_frame]

@[simp] theorem State.wait_gang_pushSince (s : State) (why : HoldWhy) : (s.wait why).gang.pushSince = s.gang.pushSince :=
  by rw [State.wait_gang_frame]

@[simp] theorem State.wait_gang_located (s : State) (why : HoldWhy) : (s.wait why).gang.located = s.gang.located :=
  by rw [State.wait_gang_frame]

@[simp] theorem State.wait_gang_left (s : State) (why : HoldWhy) : (s.wait why).gang.left = s.gang.left :=
  by rw [State.wait_gang_frame]

end Sys2Proof.Machine
end

