-- ==== Sys2Proof/Laws/Table.lean ====
section
/-! SUPPORT. The laws of the sparse tables: reading what was written, that a write leaves other keys alone, and that a
write keeps the canonical form. -/

namespace Sys2Proof

theorem Sparse.get_drop_same {α : Type} (d : α) (m : Sparse α) (k : Nat) : Sparse.get d (Sparse.drop m k) k = d := by
  induction m with
  | nil => rfl
  | cons e t ih =>
      obtain ⟨a, v⟩ := e
      by_cases h : a = k <;> simp [Sparse.drop, Sparse.get, h, ih]

theorem Sparse.get_drop_other {α : Type} (d : α) (m : Sparse α) (k j : Nat) (h : j ≠ k) :
    Sparse.get d (Sparse.drop m k) j = Sparse.get d m j := by
  induction m with
  | nil => rfl
  | cons e t ih => grind [Sparse.get, Sparse.drop]

theorem Sparse.get_insert_other {α : Type} (d : α) (m : Sparse α) (k j : Nat) (v : α) (h : j ≠ k) :
    Sparse.get d (Sparse.insert m k v) j = Sparse.get d m j := by
  induction m with
  | nil => simp [Sparse.insert, Sparse.get, Ne.symm h]
  | cons e t ih => grind [Sparse.get, Sparse.insert]

theorem Sparse.get_insert_drop {α : Type} (d : α) (m : Sparse α) (k : Nat) (v : α) :
    Sparse.get d (Sparse.insert (Sparse.drop m k) k v) k = v := by
  induction m with
  | nil => simp [Sparse.drop, Sparse.insert, Sparse.get]
  | cons e t ih =>
      obtain ⟨a, w⟩ := e
      by_cases ha : a = k
      · simp [Sparse.drop, ha, ih]
      · by_cases hk : k < a <;> simp [Sparse.drop, ha, Sparse.insert, hk, Sparse.get, ih]

/-- A key reads what was written to it. -/
@[simp] theorem Sparse.get_put_same {α : Type} [DecidableEq α] (d : α) (m : Sparse α) (k : Nat) (v : α) :
    Sparse.get d (Sparse.put d m k v) k = v := by
  by_cases h : v = d
  · simp [Sparse.put, h, Sparse.get_drop_same]
  · simp [Sparse.put, h, Sparse.get_insert_drop]

/-- A write leaves every other key alone. -/
theorem Sparse.get_put_other {α : Type} [DecidableEq α] (d : α) (m : Sparse α) (k j : Nat) (v : α) (h : j ≠ k) :
    Sparse.get d (Sparse.put d m k v) j = Sparse.get d m j := by
  by_cases hv : v = d
  · simp [Sparse.put, hv, Sparse.get_drop_other d m k j h]
  · simp [Sparse.put, hv, Sparse.get_insert_other d _ k j v h, Sparse.get_drop_other d m k j h]

/-- What a key reads after a write. -/
theorem Sparse.get_put {α : Type} [DecidableEq α] (d : α) (m : Sparse α) (k j : Nat) (v : α) :
    Sparse.get d (Sparse.put d m k v) j = if j = k then v else Sparse.get d m j := by
  split
  · next h => subst h; exact Sparse.get_put_same d m j v
  · next h => exact Sparse.get_put_other d m k j v h

/-! ### The canonical form -/

/-- Every key of the list is greater than `k`. -/
def Sparse.above {α : Type} (k : Nat) (m : Sparse α) : Prop := ∀ e ∈ m, k < e.1

theorem Sparse.rising_cons {α : Type} (k : Nat) (v : α) (m : Sparse α) :
    Sparse.rising ((k, v) :: m) = true ↔ Sparse.above k m ∧ Sparse.rising m = true := by
  induction m generalizing k v with
  | nil => simp [Sparse.rising, Sparse.above]
  | cons e t ih =>
      obtain ⟨b, w⟩ := e
      have := ih b w
      simp only [Sparse.rising, Bool.and_eq_true, decide_eq_true_eq, Sparse.above, List.mem_cons, forall_eq_or_imp] at *
      grind

theorem Sparse.mem_drop {α : Type} (m : Sparse α) (k : Nat) (e : Nat × α) :
    e ∈ Sparse.drop m k ↔ e ∈ m ∧ e.1 ≠ k := by
  induction m with
  | nil => simp [Sparse.drop]
  | cons x t ih => grind [Sparse.drop]

theorem Sparse.mem_insert {α : Type} (m : Sparse α) (k : Nat) (v : α) (e : Nat × α) :
    e ∈ Sparse.insert m k v ↔ e = (k, v) ∨ e ∈ m := by
  induction m with
  | nil => simp [Sparse.insert]
  | cons x t ih => grind [Sparse.insert]

theorem Sparse.rising_drop {α : Type} (m : Sparse α) (k : Nat) (h : Sparse.rising m = true) :
    Sparse.rising (Sparse.drop m k) = true := by
  induction m with
  | nil => rfl
  | cons x t ih =>
      obtain ⟨a, v⟩ := x
      rw [Sparse.rising_cons] at h
      by_cases ha : a = k
      · simp [Sparse.drop, ha, ih h.2]
      · simp only [Sparse.drop, ha, if_false, Sparse.rising_cons]
        exact ⟨fun e he => h.1 e ((Sparse.mem_drop t k e).1 he).1, ih h.2⟩

theorem Sparse.rising_insert {α : Type} (m : Sparse α) (k : Nat) (v : α) (h : Sparse.rising m = true)
    (hk : ∀ e ∈ m, e.1 ≠ k) : Sparse.rising (Sparse.insert m k v) = true := by
  induction m with
  | nil => rfl
  | cons x t ih =>
      obtain ⟨a, w⟩ := x
      have h' := (Sparse.rising_cons a w t).1 h
      by_cases ha : k < a
      · simp only [Sparse.insert, ha, if_true]
        exact (Sparse.rising_cons k v _).2 ⟨fun e he => by
          rcases List.mem_cons.1 he with rfl | he
          · exact ha
          · exact Nat.lt_trans ha (h'.1 e he), h⟩
      · simp only [Sparse.insert, ha, if_false]
        refine (Sparse.rising_cons a w _).2 ⟨fun e he => ?_, ih h'.2 fun e he => hk e (List.mem_cons_of_mem _ he)⟩
        rcases (Sparse.mem_insert t k v e).1 he with rfl | he
        · have := hk (a, w) (List.mem_cons_self ..)
          simp only at this ⊢; omega
        · exact h'.1 e he

/-- A write keeps the canonical form. -/
theorem Sparse.wf_put {α : Type} [DecidableEq α] (d : α) (m : Sparse α) (k : Nat) (v : α) (h : Sparse.wf d m = true) :
    Sparse.wf d (Sparse.put d m k v) = true := by
  simp only [Sparse.wf, Bool.and_eq_true, List.all_eq_true, decide_eq_true_eq] at h ⊢
  unfold Sparse.put
  split
  · exact ⟨Sparse.rising_drop m k h.1, fun e he => h.2 e ((Sparse.mem_drop m k e).1 he).1⟩
  · next hv =>
    refine ⟨Sparse.rising_insert _ k v (Sparse.rising_drop m k h.1) fun e he => ((Sparse.mem_drop m k e).1 he).2,
      fun e he => ?_⟩
    rcases (Sparse.mem_insert _ k v e).1 he with rfl | he
    · exact hv
    · exact h.2 e ((Sparse.mem_drop m k e).1 he).1

end Sys2Proof
end

