-- ==== Sys2Proof/Laws/Arith.lean ====
section
/-! SUPPORT. What an arithmetic instruction does, once for all of them: the lanes' values, the registers they reach and
everything that stays. -/

namespace Sys2Proof.Machine

/-! ### Lanes -/

theorem mask_list_nodup (m : Mask) : (Mask.list m).Nodup := List.Nodup.filter _ List.nodup_range

theorem mem_mask_list (m : Mask) (i : Nat) : i ∈ Mask.list m ↔ i < 32 ∧ m.getLsbD i = true := by
  simp [Mask.list]

theorem State.lanes_nodup (s : State) (uni : Bool) (h : Hdr) : (s.lanes uni h).Nodup := by
  unfold State.lanes
  split
  · simp
  · exact mask_list_nodup _

theorem State.lanes_uniform (s : State) (uni : Bool) (h : Hdr) (hu : uni = true) : s.lanes uni h = [0] := by
  simp [State.lanes, hu]

/-- One strand's rounding state stays when another's is set. -/
theorem State.roundState_set_other (s : State) (i j : Nat) (x : Word) (h : j ≠ i) :
    (s.setRoundState false i x).roundState false j = s.roundState false j := by
  simp [State.setRoundState, State.roundState, Sparse.get_put_other _ _ _ _ _ h]

/-- Every lane is evaluated with its own rounding state as it was before. -/
theorem State.evalLanes_vals (uni : Bool) (f : Nat → Word → Lane) (l : List Nat) (hl : l.Nodup)
    (hu : uni = true → l.length ≤ 1) (s : State) :
    (s.evalLanes uni f l).1 = l.map fun i => (i, (f i (s.roundState uni i)).1) := by
  induction l generalizing s with
  | nil => rfl
  | cons i t ih =>
      simp only [State.evalLanes, List.map_cons, List.cons.injEq, true_and]
      rw [ih (List.nodup_cons.1 hl).2 fun h => by have := hu h; simp at this; simp [this]]
      apply List.map_congr_left
      intro j hj
      have hji : j ≠ i := fun e => (List.nodup_cons.1 hl).1 (e ▸ hj)
      cases uni with
      | false => rw [State.roundState_set_other _ _ _ _ hji]
      | true =>
          have := hu rfl
          simp only [List.length_cons] at this
          have : t = [] := List.eq_nil_of_length_eq_zero (by omega)
          simp [this] at hj

/-- Only rounding states change while lanes are evaluated. -/
theorem State.evalLanes_gang (uni : Bool) (f : Nat → Word → Lane) (l : List Nat) (s : State) :
    (s.evalLanes uni f l).2.2 =
      { s with gang := { s.gang with rnd := (s.evalLanes uni f l).2.2.gang.rnd,
                                     urnd := (s.evalLanes uni f l).2.2.gang.urnd } } := by
  induction l generalizing s with
  | nil => rfl
  | cons i t ih =>
      simp only [State.evalLanes]
      rw [ih (s.setRoundState uni i (f i (s.roundState uni i)).2.2)]
      have := State.setRoundState_frame s uni i (f i (s.roundState uni i)).2.2
      unfold State.onlyGang at this
      rw [this, State.setRoundState_gang_frame]

/-! ### Writes read back -/

/-- Writing cells of a table at keys without repeats: a written key reads its value. -/
theorem Sparse.get_foldl_put_mem {α : Type} [DecidableEq α] (d : α) (key : Nat → Nat) (l : List (Nat × α)) (m : Sparse α)
    (hk : (l.map fun e => key e.1).Nodup) (e : Nat × α) (he : e ∈ l) :
    Sparse.get d (l.foldl (fun m e => Sparse.put d m (key e.1) e.2) m) (key e.1) = e.2 := by
  induction l generalizing m with
  | nil => simp at he
  | cons x t ih =>
      simp only [List.map_cons, List.nodup_cons] at hk
      simp only [List.foldl_cons]
      rcases List.mem_cons.1 he with rfl | he
      · have : ∀ (l : List (Nat × α)) (m : Sparse α), key e.1 ∉ l.map (fun e => key e.1) →
            Sparse.get d (l.foldl (fun m e => Sparse.put d m (key e.1) e.2) m) (key e.1) = Sparse.get d m (key e.1) := by
          intro l
          induction l with
          | nil => intro m _; rfl
          | cons y u ihu =>
              intro m hn
              simp only [List.map_cons, List.mem_cons, not_or] at hn
              simp only [List.foldl_cons]
              rw [ihu _ hn.2, Sparse.get_put_other _ _ _ _ _ hn.1]
        rw [this t _ hk.1, Sparse.get_put_same]
      · exact ih _ hk.2 he

/-- A key that is not written reads as before. -/
theorem Sparse.get_foldl_put_not_mem {α : Type} [DecidableEq α] (d : α) (key : Nat → Nat) (l : List (Nat × α))
    (m : Sparse α) (k : Nat) (hk : k ∉ l.map fun e => key e.1) :
    Sparse.get d (l.foldl (fun m e => Sparse.put d m (key e.1) e.2) m) k = Sparse.get d m k := by
  induction l generalizing m with
  | nil => rfl
  | cons x t ih =>
      simp only [List.map_cons, List.mem_cons, not_or] at hk
      simp only [List.foldl_cons]
      rw [ih _ hk.2, Sparse.get_put_other _ _ _ _ _ hk.1]

theorem State.writeV_v (s : State) (lat n : Nat) (vals : List (Nat × Word)) :
    (s.writeV lat n vals).gang.v = vals.foldl (fun m e => Sparse.put 0 m (e.1 * 128 + n) e.2) s.gang.v := by
  unfold State.writeV State.shadow
  dsimp only
  split <;> rfl

/-- The cell of a strand that a vector write names. -/
theorem State.writeV_get_mem (s : State) (lat n : Nat) (vals : List (Nat × Word)) (hv : (vals.map Prod.fst).Nodup)
    (e : Nat × Word) (he : e ∈ vals) : (s.writeV lat n vals).gang.v.get 0 (e.1 * 128 + n) = e.2 := by
  rw [State.writeV_v]
  refine Sparse.get_foldl_put_mem 0 (fun i => i * 128 + n) vals _ ?_ e he
  have : (vals.map fun e => e.1 * 128 + n) = (vals.map Prod.fst).map fun i => i * 128 + n := by simp
  rw [this]
  exact hv.map fun a b h => by
    have h' : a * 128 + n = b * 128 + n := h
    omega

/-- A cell that a vector write does not name. -/
theorem State.writeV_get_not_mem (s : State) (lat n : Nat) (vals : List (Nat × Word)) (k : Nat)
    (hk : k ∉ vals.map fun e => e.1 * 128 + n) : (s.writeV lat n vals).gang.v.get 0 k = s.gang.v.get 0 k := by
  rw [State.writeV_v]
  exact Sparse.get_foldl_put_not_mem 0 (fun i => i * 128 + n) vals _ k hk

/-- A vector write by lanes, read at one of them. -/
theorem State.writeV_lane (s : State) (lat n : Nat) (lanes : List Nat) (f : Nat → Word) (hn : lanes.Nodup) (i : Nat)
    (hi : i ∈ lanes) : (s.writeV lat n (lanes.map fun i => (i, f i))).gang.v.get 0 (i * 128 + n) = f i :=
  State.writeV_get_mem s lat n _ (by rw [List.map_map]; exact (List.map_id' lanes).symm ▸ hn) (i, f i)
    (List.mem_map.2 ⟨i, hi, rfl⟩)

/-- The same, read elsewhere. -/
theorem State.writeV_other (s : State) (lat n : Nat) (lanes : List Nat) (f : Nat → Word) (k : Nat)
    (hk : ∀ i ∈ lanes, k ≠ i * 128 + n) : (s.writeV lat n (lanes.map fun i => (i, f i))).gang.v.get 0 k = s.gang.v.get 0 k := by
  refine State.writeV_get_not_mem s lat n _ k ?_
  simp only [List.map_map, List.mem_map, Function.comp, not_exists, not_and]
  exact fun i hi e => hk i hi e.symm

/-- The bit of a number in a mask of a list. -/
theorem getLsbD_one_shift (a i : Nat) (hi : i < 32) : (BitVec.ofNat 32 (1 <<< a)).getLsbD i = decide (i = a) := by
  rw [BitVec.getLsbD_ofNat]
  rw [Nat.shiftLeft_eq, Nat.one_mul]
  by_cases h : i = a
  · subst h; simp [hi, Nat.testBit_two_pow_self]
  · simp [h, Nat.testBit_two_pow_of_ne (fun e => h e.symm)]

theorem maskOf_getLsbD (l : List Nat) (i : Nat) (hi : i < 32) : (maskOf l).getLsbD i = decide (i ∈ l) := by
  induction l with
  | nil => simp [maskOf]
  | cons a t ih =>
      rw [maskOf, BitVec.getLsbD_or, ih, show (1 <<< a : Mask) = BitVec.ofNat 32 (1 <<< a) from rfl,
        getLsbD_one_shift a i hi]
      simp [List.mem_cons, Bool.decide_or]

theorem State.writeP_bit (s : State) (lat n : Nat) (written bits : Mask) (i : Nat) :
    ((s.writeP lat n written bits).gang.p.get 0 n).getLsbD i =
      if written.getLsbD i then bits.getLsbD i else (s.gang.p.get 0 n).getLsbD i := by
  have : (s.writeP lat n written bits).gang.p =
      Sparse.put 0 s.gang.p n ((s.gang.p.get 0 n &&& ~~~written) ||| (bits &&& written)) := by
    unfold State.writeP State.shadow
    dsimp only
    split <;> rfl
  rw [this, Sparse.get_put_same]
  by_cases hi : i < 32
  · rw [BitVec.getLsbD_or, BitVec.getLsbD_and, BitVec.getLsbD_and, BitVec.getLsbD_not]
    cases written.getLsbD i <;> simp only [hi, decide_true, Bool.not_false, Bool.not_true, Bool.and_true, Bool.and_false,
      Bool.or_false, Bool.false_or, if_true, Bool.false_eq_true, if_false]
  · simp [BitVec.getLsbD_of_ge _ _ (Nat.le_of_not_lt hi)]

theorem State.writeP_other (s : State) (lat n : Nat) (written bits : Mask) (k : Nat) (h : k ≠ n) :
    (s.writeP lat n written bits).gang.p.get 0 k = s.gang.p.get 0 k := by
  have : (s.writeP lat n written bits).gang.p =
      Sparse.put 0 s.gang.p n ((s.gang.p.get 0 n &&& ~~~written) ||| (bits &&& written)) := by
    unfold State.writeP State.shadow
    dsimp only
    split <;> rfl
  rw [this, Sparse.get_put_other _ _ _ _ _ h]

theorem State.writeSBits_s (s : State) (lat n : Nat) (x : Dword) :
    (s.writeSBits lat n x).gang.s = Sparse.put 0 s.gang.s n x := by
  unfold State.writeSBits State.shadow
  dsimp only
  split <;> rfl

theorem State.writeTag_stags (s : State) (lat k : Nat) (on : Bool) :
    (s.writeTag lat k on).gang.stags =
      if on then s.gang.stags ||| (1 <<< k : BitVec 32) else s.gang.stags &&& ~~~(1 <<< k : BitVec 32) := by
  unfold State.writeTag
  simp only [State.shadow_gang_stags]

theorem State.writeS_s (s : State) (lat n : Nat) (x : Dword) :
    (s.writeS lat n x).gang.s = Sparse.put 0 s.gang.s n x := by
  unfold State.writeS; simp [State.writeSBits_s]

theorem State.writeS_stags (s : State) (lat n : Nat) (x : Dword) :
    (s.writeS lat n x).gang.stags = s.gang.stags &&& ~~~(1 <<< (n / 2) : BitVec 32) := by
  unfold State.writeS; simp [State.writeTag_stags]

/-- The tag of a pair whose register is written, and those of the others. -/
theorem State.writeS_tag (s : State) (lat n : Nat) (x : Dword) (k : Nat) :
    (s.writeS lat n x).gang.stags.getLsbD k = (decide (k ≠ n / 2) && s.gang.stags.getLsbD k) := by
  rw [State.writeS_stags, BitVec.getLsbD_and, BitVec.getLsbD_not]
  by_cases hk : k < 32
  · rw [show (1 <<< (n / 2) : BitVec 32) = BitVec.ofNat 32 (1 <<< (n / 2)) from rfl, getLsbD_one_shift _ _ hk]
    by_cases h : k = n / 2 <;> simp [h, hk]
  · simp [BitVec.getLsbD_of_ge _ _ (Nat.le_of_not_lt hk)]

/-! ### The destination -/

/-- What `result` leaves in the destination. -/
theorem State.result_received (s : State) (d : Sel) (w : Nat) (sx : Bool) (lat : Option Nat) (lanes : List Nat)
    (r : Nat → Nat) (hn : lanes.Nodup) (hs : d.isScalar = true → lanes = [0])
    (hp : ∀ n, d = .v n → w = 64 → n.toNat % 2 = 0) :
    (s.result d w sx lat (lanes.map fun i => (i, r i))).Received d w sx lanes r := by
  cases d with
  | v n =>
      intro i hi
      simp only [State.result, List.map_map, Function.comp_def]
      by_cases h : w = 64
      · have hp := hp n rfl h
        simp only [h, if_true]
        have hne : ∀ j ∈ lanes, i * 128 + n.toNat ≠ j * 128 + (n.toNat + 1) := fun j _ => by omega
        split <;> (try simp only [State.markQuick_gang_v]) <;>
          exact ⟨by rw [State.writeV_other _ _ _ _ _ _ hne, State.writeV_lane _ _ _ _ _ hn i hi],
            State.writeV_lane _ _ _ _ _ hn i hi⟩
      · simp only [h, if_false]
        split <;> (try simp only [State.markQuick_gang_v]) <;> exact State.writeV_lane _ _ _ _ _ hn i hi
  | s n =>
      have hs := hs rfl
      subst hs
      simp only [State.result, List.map_cons, List.map_nil, State.Received]
      split <;> simp [State.writeS_s, State.writeS_tag]
  | p n =>
      intro i hi hlt
      simp only [State.result, List.map_map, Function.comp_def, List.map_id']
      rw [State.writeP_bit, maskOf_getLsbD _ _ hlt, maskOf_getLsbD _ _ hlt]
      simp only [hi, decide_true, if_true]
      congr 1
      simp only [List.mem_map, List.mem_filter, decide_eq_true_eq, ne_eq, eq_iff_iff]
      constructor
      · rintro ⟨e, ⟨⟨j, _, rfl⟩, hr⟩, rfl⟩; exact hr
      · exact fun hr => ⟨(i, r i), ⟨⟨i, hi, rfl⟩, hr⟩, rfl⟩
  | _ => trivial

/-! ### Everything else -/

/-- Of two states only these registers of the gang in focus differ. -/
def State.RegistersOnly (s t : State) : Prop :=
  t = { s with gang := { s.gang with
    v := t.gang.v, s := t.gang.s, stags := t.gang.stags, p := t.gang.p, g := t.gang.g, handleIds := t.gang.handleIds,
    rnd := t.gang.rnd, urnd := t.gang.urnd, fpstat := t.gang.fpstat, shadows := t.gang.shadows, marks := t.gang.marks,
    quick := t.gang.quick } }

theorem State.RegistersOnly.refl (s : State) : s.RegistersOnly s := rfl

theorem State.RegistersOnly.trans {s t u : State} (h : s.RegistersOnly t) (h' : t.RegistersOnly u) :
    s.RegistersOnly u := by
  unfold State.RegistersOnly at *; rw [h', h]

/-- A change of registers commutes with going on. -/
theorem State.RegistersOnly.advance {s t : State} (h : s.RegistersOnly t) : s.RegisterOnly t.advance := by
  unfold State.RegistersOnly at h
  unfold State.RegisterOnly
  rw [h]
  unfold State.advance State.goTo
  cases hh : s.gang.handler <;> simp only [Gang.mapStrands]

theorem State.writeV_registersOnly (s : State) (lat n : Nat) (vals : List (Nat × Word)) :
    s.RegistersOnly (s.writeV lat n vals) := by
  unfold State.RegistersOnly State.writeV State.shadow
  dsimp only
  split <;> rfl

theorem State.writeS_registersOnly (s : State) (lat n : Nat) (x : Dword) : s.RegistersOnly (s.writeS lat n x) := by
  have h1 : s.RegistersOnly (s.writeSBits lat n x) := by
    unfold State.RegistersOnly State.writeSBits State.shadow
    dsimp only
    split <;> rfl
  have h2 : (s.writeSBits lat n x).RegistersOnly ((s.writeSBits lat n x).writeTag lat (n / 2) false) := by
    unfold State.RegistersOnly State.writeTag State.shadow
    dsimp only
    split <;> rfl
  exact h1.trans h2

theorem State.writeP_registersOnly (s : State) (lat n : Nat) (written bits : Mask) :
    s.RegistersOnly (s.writeP lat n written bits) := by
  unfold State.RegistersOnly State.writeP State.shadow
  dsimp only
  split <;> rfl

theorem State.mark_registersOnly (s : State) (r : RegName) : s.RegistersOnly (s.mark r) := by
  unfold State.RegistersOnly State.mark
  split <;> rfl

theorem State.markQuick_registersOnly (s : State) (r : RegName) : s.RegistersOnly (s.markQuick r) := by
  unfold State.RegistersOnly State.markQuick
  split <;> rfl

theorem State.raise_registersOnly (s : State) (f : BitVec 8) : s.RegistersOnly (s.raise f) := by
  unfold State.RegistersOnly State.raise
  split <;> rfl

theorem State.evalLanes_registersOnly (uni : Bool) (f : Nat → Word → Lane) (l : List Nat) (s : State) :
    s.RegistersOnly (s.evalLanes uni f l).2.2 := by
  unfold State.RegistersOnly
  rw [State.evalLanes_gang]

theorem State.result_registersOnly (s : State) (d : Sel) (w : Nat) (sx : Bool) (lat : Option Nat)
    (vals : List (Nat × Nat)) : s.RegistersOnly (s.result d w sx lat vals) := by
  cases d with
  | v n =>
      simp only [State.result]
      split
      · split
        · exact (((State.writeV_registersOnly _ _ _ _).trans (State.writeV_registersOnly _ _ _ _)).trans
            (State.markQuick_registersOnly _ _)).trans (State.markQuick_registersOnly _ _)
        · exact (State.writeV_registersOnly _ _ _ _).trans (State.writeV_registersOnly _ _ _ _)
      · split
        · exact (State.writeV_registersOnly _ _ _ _).trans (State.markQuick_registersOnly _ _)
        · exact State.writeV_registersOnly _ _ _ _
  | s n =>
      simp only [State.result]
      split
      · exact .refl s
      · split
        · exact (State.writeS_registersOnly _ _ _ _).trans (State.markQuick_registersOnly _ _)
        · exact State.writeS_registersOnly _ _ _ _
  | p n => exact State.writeP_registersOnly _ _ _ _ _
  | _ => exact .refl s

/-- Of the registers only those that `d` names may read differently, in place or through the results in flight. -/
theorem State.KeptRegisters.refl (s : State) (d : Sel) (w : Nat) (lanes : List Nat) : s.KeptRegisters s d w lanes :=
  ⟨fun _ _ => rfl, fun _ _ _ _ => rfl, fun _ _ => ⟨rfl, rfl⟩, fun _ _ => ⟨rfl, rfl⟩, fun _ _ _ => ⟨rfl, rfl⟩,
    rfl, fun _ => rfl⟩

theorem State.KeptRegisters.trans {s t u : State} {d : Sel} {w : Nat} {lanes : List Nat} (h : s.KeptRegisters t d w lanes)
    (h' : t.KeptRegisters u d w lanes) : s.KeptRegisters u d w lanes := by
  obtain ⟨a1, a2, a3, a4, a5, a6, a7⟩ := h
  obtain ⟨b1, b2, b3, b4, b5, b6, b7⟩ := h'
  exact ⟨fun k hk => (b1 k hk).trans (a1 k hk), fun i n h hk => (b2 i n h hk).trans (a2 i n h hk),
    fun k hk => ⟨(b3 k hk).1.trans (a3 k hk).1, (b3 k hk).2.trans (a3 k hk).2⟩,
    fun k hk => ⟨(b4 k hk).1.trans (a4 k hk).1, (b4 k hk).2.trans (a4 k hk).2⟩,
    fun k i hk => ⟨(b5 k i hk).1.trans (a5 k i hk).1, (b5 k i hk).2.trans (a5 k i hk).2⟩, b6.trans a6,
    fun n => (b7 n).trans (a7 n)⟩

/-- Equal registers, results in flight and clock: every read is the same. -/
theorem State.KeptRegisters.same {s t : State} (d : Sel) (w : Nat) (lanes : List Nat) (hv : t.gang.v = s.gang.v)
    (hs : t.gang.s = s.gang.s) (ht : t.gang.stags = s.gang.stags) (hp : t.gang.p = s.gang.p) (hg : t.gang.g = s.gang.g)
    (hsh : t.gang.shadows = s.gang.shadows) (hc : t.clock = s.clock) : s.KeptRegisters t d w lanes := by
  unfold State.KeptRegisters State.readV State.readS State.readTag State.readPBit State.readG
  simp [hv, hs, ht, hp, hg, hsh, hc]

theorem earlyV_skip (n strand t : Nat) (x : Shadow) (l : List Shadow) (cur : Word)
    (h : ∀ n' wr old, x.old = .v n' wr old → n' = n → wr.getLsbD strand = false) :
    earlyV n strand t (x :: l) cur = earlyV n strand t l cur := by
  cases hx : x.old with
  | v n' wr old =>
      by_cases hn : n' = n
      · simp [earlyV, hx, hn, h n' wr old hx hn]
      · simp [earlyV, hx, hn]
  | _ => simp [earlyV, hx]

theorem earlyS_skip (n t : Nat) (x : Shadow) (l : List Shadow) (cur : Dword) (h : ∀ n' old, x.old = .s n' old → n' ≠ n) :
    earlyS n t (x :: l) cur = earlyS n t l cur := by
  cases hx : x.old with
  | s n' old => simp [earlyS, hx, h n' old hx]
  | _ => simp [earlyS, hx]

theorem earlyTag_skip (n t : Nat) (x : Shadow) (l : List Shadow) (cur : Bool)
    (h : ∀ n' old, x.old = .tag n' old → n' ≠ n) : earlyTag n t (x :: l) cur = earlyTag n t l cur := by
  cases hx : x.old with
  | tag n' old => simp [earlyTag, hx, h n' old hx]
  | _ => simp [earlyTag, hx]

theorem earlyP_skip (n strand t : Nat) (x : Shadow) (l : List Shadow) (cur : Bool)
    (h : ∀ n' wr old, x.old = .p n' wr old → n' = n → wr.getLsbD strand = false) :
    earlyP n strand t (x :: l) cur = earlyP n strand t l cur := by
  cases hx : x.old with
  | p n' wr old =>
      by_cases hn : n' = n
      · simp [earlyP, hx, hn, h n' wr old hx hn]
      · simp [earlyP, hx, hn]
  | _ => simp [earlyP, hx]

theorem earlyG_skip (n t : Nat) (x : Shadow) (l : List Shadow) (cur : Part) (h : ∀ n' old, x.old = .g n' old → n' ≠ n) :
    earlyG n t (x :: l) cur = earlyG n t l cur := by
  cases hx : x.old with
  | g n' old => simp [earlyG, hx, h n' old hx]
  | _ => simp [earlyG, hx]

/-- A shadow leaves the reads alone that its register does not answer. -/
theorem State.readV_shadow (s : State) (lat : Nat) (o : OldValue) (i n : Nat)
    (h : ∀ n' wr old, o = .v n' wr old → n' = n → wr.getLsbD i = false) : (s.shadow lat o).readV i n = s.readV i n := by
  unfold State.readV State.shadow
  split
  · rfl
  · exact earlyV_skip _ _ _ _ _ _ h
theorem State.readS_shadow (s : State) (lat : Nat) (o : OldValue) (n : Nat) (h : ∀ n' old, o = .s n' old → n' ≠ n) :
    (s.shadow lat o).readS n = s.readS n := by
  unfold State.readS State.shadow
  split
  · rfl
  · exact earlyS_skip _ _ _ _ _ h
theorem State.readTag_shadow (s : State) (lat : Nat) (o : OldValue) (n : Nat)
    (h : ∀ n' old, o = .tag n' old → n' ≠ n / 2) : (s.shadow lat o).readTag n = s.readTag n := by
  unfold State.readTag State.shadow
  split
  · rfl
  · exact earlyTag_skip _ _ _ _ _ h
theorem State.readPBit_shadow (s : State) (lat : Nat) (o : OldValue) (i n : Nat)
    (h : ∀ n' wr old, o = .p n' wr old → n' = n → wr.getLsbD i = false) : (s.shadow lat o).readPBit n i = s.readPBit n i := by
  unfold State.readPBit State.shadow
  split
  · rfl
  · dsimp only
    rw [earlyP_skip _ _ _ _ _ _ h]
theorem State.readG_shadow (s : State) (lat : Nat) (o : OldValue) (n : Nat) (h : ∀ n' old, o = .g n' old → n' ≠ n) :
    (s.shadow lat o).readG n = s.readG n := by
  unfold State.readG State.shadow
  split
  · rfl
  · exact earlyG_skip _ _ _ _ _ h

/-- A write to a vector register keeps every other cell. -/
theorem State.writeV_kept (s : State) (lat n : Nat) (d : Sel) (w : Nat) (lanes : List Nat) (f : Nat → Word)
    (hd : ∀ i ∈ lanes, i * 128 + n ∈ destCells d w lanes) (hn : n < 128) :
    s.KeptRegisters (s.writeV lat n (lanes.map fun i => (i, f i))) d w lanes := by
  generalize hval : lanes.map (fun i => (i, f i)) = vals
  have hlane : vals.map Prod.fst = lanes := by rw [← hval]; simp [Function.comp_def]
  have heq : s.writeV lat n vals = { s.shadow lat (.v n (maskOf (vals.map Prod.fst))
      (vals.foldl (fun m e => Sparse.put 0 m e.1 (s.gang.v.get 0 (e.1 * 128 + n))) [])) with
      gang := { (s.shadow lat (.v n (maskOf (vals.map Prod.fst))
      (vals.foldl (fun m e => Sparse.put 0 m e.1 (s.gang.v.get 0 (e.1 * 128 + n))) []))).gang with
        v := vals.foldl (fun m e => Sparse.put 0 m (e.1 * 128 + n) e.2) s.gang.v } } := by
    unfold State.writeV State.shadow; dsimp only; split <;> rfl
  refine ⟨fun k hk => ?_, fun i m hm hk => ?_, fun k _ => ?_, fun k _ => ?_, fun k i _ => ?_, by simp, fun k => ?_⟩
  · rw [← hval]; exact State.writeV_other _ _ _ _ _ _ fun i hi e => hk (e ▸ hd i hi)
  · have hi : m = n → i ∉ lanes := fun e hi => hk (e ▸ hd i hi)
    have h1 := s.readV_shadow lat (.v n (maskOf (vals.map Prod.fst))
      (vals.foldl (fun m e => Sparse.put 0 m e.1 (s.gang.v.get 0 (e.1 * 128 + n))) [])) i m (by
        intro n' wr old e hnm
        injection e with e1 e2 e3
        subst e1; subst e2
        rw [hlane]
        by_cases h32 : i < 32
        · rw [maskOf_getLsbD _ _ h32]; simp [hi hnm.symm]
        · exact BitVec.getLsbD_of_ge _ _ (Nat.le_of_not_lt h32))
    rw [← h1, heq]
    unfold State.readV
    dsimp only
    congr 1
    rw [State.shadow_gang_v]
    have := State.writeV_get_not_mem s lat n vals (i * 128 + m) (by
      rw [← hval]
      simp only [List.map_map, List.mem_map, Function.comp, not_exists, not_and]
      intro j hj e
      have : m = n := by omega
      have : i = j := by omega
      exact hi ‹m = n› (this ▸ hj))
    rw [State.writeV_v] at this
    exact this
  · refine ⟨by simp, ?_⟩
    rw [← s.readS_shadow lat (.v n (maskOf (vals.map Prod.fst))
      (vals.foldl (fun m e => Sparse.put 0 m e.1 (s.gang.v.get 0 (e.1 * 128 + n))) [])) k (by intro _ _ e; simp at e), heq]
    rfl
  · refine ⟨by simp, ?_⟩
    rw [← s.readTag_shadow lat (.v n (maskOf (vals.map Prod.fst))
      (vals.foldl (fun m e => Sparse.put 0 m e.1 (s.gang.v.get 0 (e.1 * 128 + n))) [])) k (by intro _ _ e; simp at e), heq]
    rfl
  · refine ⟨by simp, ?_⟩
    rw [← s.readPBit_shadow lat (.v n (maskOf (vals.map Prod.fst))
      (vals.foldl (fun m e => Sparse.put 0 m e.1 (s.gang.v.get 0 (e.1 * 128 + n))) [])) i k (by intro _ _ _ e; simp at e), heq]
    rfl
  · rw [← s.readG_shadow lat (.v n (maskOf (vals.map Prod.fst))
      (vals.foldl (fun m e => Sparse.put 0 m e.1 (s.gang.v.get 0 (e.1 * 128 + n))) [])) k (by intro _ _ e; simp at e), heq]
    rfl

theorem State.writeSBits_kept (s : State) (lat : Nat) (n : BitVec 6) (w : Nat) (lanes : List Nat) (x : Dword) :
    s.KeptRegisters (s.writeSBits lat n.toNat x) (.s n) w lanes := by
  have heq : s.writeSBits lat n.toNat x = { s.shadow lat (.s n.toNat (s.gang.s.get 0 n.toNat)) with
      gang := { (s.shadow lat (.s n.toNat (s.gang.s.get 0 n.toNat))).gang with
        s := Sparse.put 0 s.gang.s n.toNat x, handleIds := Sparse.put none s.gang.handleIds n.toNat none } } := by
    unfold State.writeSBits State.shadow; dsimp only; split <;> rfl
  refine ⟨by simp, fun i m _ _ => ?_, fun k hk => ?_, fun k _ => ?_, fun k i _ => ?_, by simp, fun k => ?_⟩
  · rw [← s.readV_shadow lat (.s n.toNat (s.gang.s.get 0 n.toNat)) i m (by intro _ _ _ e; simp at e), heq]
    rfl
  · have hk := hk n rfl
    refine ⟨by rw [State.writeSBits_s, Sparse.get_put_other _ _ _ _ _ hk], ?_⟩
    rw [← s.readS_shadow lat (.s n.toNat (s.gang.s.get 0 n.toNat)) k (by
      intro n' _ e; injection e with e1 _; subst e1; exact fun h => hk h.symm), heq]
    unfold State.readS
    dsimp only
    rw [Sparse.get_put_other _ _ _ _ _ hk, State.shadow_gang_s]
  · refine ⟨by simp, ?_⟩
    rw [← s.readTag_shadow lat (.s n.toNat (s.gang.s.get 0 n.toNat)) k (by intro _ _ e; simp at e), heq]
    rfl
  · refine ⟨by simp, ?_⟩
    rw [← s.readPBit_shadow lat (.s n.toNat (s.gang.s.get 0 n.toNat)) i k (by intro _ _ _ e; simp at e), heq]
    rfl
  · rw [← s.readG_shadow lat (.s n.toNat (s.gang.s.get 0 n.toNat)) k (by intro _ _ e; simp at e), heq]
    rfl

theorem State.writeTag_kept (s : State) (lat : Nat) (n : BitVec 6) (w : Nat) (lanes : List Nat) (on : Bool) :
    s.KeptRegisters (s.writeTag lat (n.toNat / 2) on) (.s n) w lanes := by
  have heq : s.writeTag lat (n.toNat / 2) on =
      { s.shadow lat (.tag (n.toNat / 2) (s.gang.stags.getLsbD (n.toNat / 2))) with
        gang := { (s.shadow lat (.tag (n.toNat / 2) (s.gang.stags.getLsbD (n.toNat / 2)))).gang with
          stags := if on then s.gang.stags ||| (1 <<< (n.toNat / 2) : BitVec 32)
            else s.gang.stags &&& ~~~(1 <<< (n.toNat / 2) : BitVec 32) } } := by
    unfold State.writeTag State.shadow; dsimp only; split <;> rfl
  have hbit : ∀ k, k ≠ n.toNat / 2 → (if on then s.gang.stags ||| (1 <<< (n.toNat / 2) : BitVec 32)
      else s.gang.stags &&& ~~~(1 <<< (n.toNat / 2) : BitVec 32)).getLsbD k = s.gang.stags.getLsbD k := by
    intro k hk
    by_cases h32 : k < 32
    · have := getLsbD_one_shift (n.toNat / 2) k h32
      rw [show BitVec.ofNat 32 (1 <<< (n.toNat / 2)) = (1 <<< (n.toNat / 2) : BitVec 32) from rfl] at this
      cases on
      · simp only [Bool.false_eq_true, if_false, BitVec.getLsbD_and, BitVec.getLsbD_not, this, hk, decide_false, h32,
          decide_true, Bool.not_false, Bool.and_true]
      · simp only [if_true, BitVec.getLsbD_or, this, hk, decide_false, Bool.or_false]
    · rw [BitVec.getLsbD_of_ge _ _ (Nat.le_of_not_lt h32), BitVec.getLsbD_of_ge _ _ (Nat.le_of_not_lt h32)]
  refine ⟨by simp, fun i m _ _ => ?_, fun k _ => ?_, fun k hk => ?_, fun k i _ => ?_, by simp, fun k => ?_⟩
  · rw [← s.readV_shadow lat (.tag (n.toNat / 2) (s.gang.stags.getLsbD (n.toNat / 2))) i m (by intro _ _ _ e; simp at e), heq]
    rfl
  · refine ⟨by simp, ?_⟩
    rw [← s.readS_shadow lat (.tag (n.toNat / 2) (s.gang.stags.getLsbD (n.toNat / 2))) k (by intro _ _ e; simp at e), heq]
    rfl
  · have hk := hk n rfl
    refine ⟨by rw [State.writeTag_stags]; exact hbit _ hk, ?_⟩
    rw [← s.readTag_shadow lat (.tag (n.toNat / 2) (s.gang.stags.getLsbD (n.toNat / 2))) k (by
      intro n' _ e; injection e with e1 _; subst e1; exact fun h => hk h.symm), heq]
    unfold State.readTag
    dsimp only
    rw [hbit _ hk, State.shadow_gang_stags]
  · refine ⟨by simp, ?_⟩
    rw [← s.readPBit_shadow lat (.tag (n.toNat / 2) (s.gang.stags.getLsbD (n.toNat / 2))) i k (by
      intro _ _ _ e; simp at e), heq]
    rfl
  · rw [← s.readG_shadow lat (.tag (n.toNat / 2) (s.gang.stags.getLsbD (n.toNat / 2))) k (by intro _ _ e; simp at e), heq]
    rfl

theorem State.writeS_kept (s : State) (lat : Nat) (n : BitVec 6) (w : Nat) (lanes : List Nat) (x : Dword) :
    s.KeptRegisters (s.writeS lat n.toNat x) (.s n) w lanes :=
  (s.writeSBits_kept lat n w lanes x).trans (State.writeTag_kept _ lat n w lanes false)

theorem State.writeP_kept (s : State) (lat : Nat) (n : BitVec 3) (w : Nat) (lanes : List Nat) (written bits : Mask)
    (hw : ∀ i, written.getLsbD i = true → i ∈ lanes) :
    s.KeptRegisters (s.writeP lat n.toNat written bits) (.p n) w lanes := by
  have heq : s.writeP lat n.toNat written bits =
      { s.shadow lat (.p n.toNat written (s.gang.p.get 0 n.toNat)) with
        gang := { (s.shadow lat (.p n.toNat written (s.gang.p.get 0 n.toNat))).gang with
          p := Sparse.put 0 s.gang.p n.toNat ((s.gang.p.get 0 n.toNat &&& ~~~written) ||| (bits &&& written)) } } := by
    unfold State.writeP State.shadow; dsimp only; split <;> rfl
  refine ⟨by simp, fun i m _ _ => ?_, fun k _ => ?_, fun k _ => ?_, fun k i hk => ?_, by simp, fun k => ?_⟩
  · rw [← s.readV_shadow lat (.p n.toNat written (s.gang.p.get 0 n.toNat)) i m (by intro _ _ _ e; simp at e), heq]
    rfl
  · refine ⟨by simp, ?_⟩
    rw [← s.readS_shadow lat (.p n.toNat written (s.gang.p.get 0 n.toNat)) k (by intro _ _ e; simp at e), heq]
    rfl
  · refine ⟨by simp, ?_⟩
    rw [← s.readTag_shadow lat (.p n.toNat written (s.gang.p.get 0 n.toNat)) k (by intro _ _ e; simp at e), heq]
    rfl
  · have hbit : ((s.writeP lat n.toNat written bits).gang.p.get 0 k).getLsbD i = (s.gang.p.get 0 k).getLsbD i := by
      by_cases hkn : k = n.toNat
      · subst hkn
        have hi : written.getLsbD i = false := by
          by_contra h
          exact hk n rfl rfl (hw i (by simpa using h))
        rw [State.writeP_bit, hi]; simp
      · rw [State.writeP_other _ _ _ _ _ _ hkn]
    refine ⟨hbit, ?_⟩
    rw [← s.readPBit_shadow lat (.p n.toNat written (s.gang.p.get 0 n.toNat)) i k (by
      intro n' wr _ e hnk
      injection e with e1 e2 _
      subst e1; subst e2
      by_contra h
      exact hk n rfl hnk.symm (hw i (by simpa using h)))]
    unfold State.readPBit
    rw [hbit, State.shadow_gang_p, heq]
  · rw [← s.readG_shadow lat (.p n.toNat written (s.gang.p.get 0 n.toNat)) k (by intro _ _ e; simp at e), heq]
    rfl

theorem State.markQuick_kept (s : State) (r : RegName) (d : Sel) (w : Nat) (lanes : List Nat) :
    s.KeptRegisters (s.markQuick r) d w lanes :=
  .same _ _ _ (by simp) (by simp) (by simp) (by simp) (by simp) (by simp) (by unfold State.markQuick; split <;> rfl)

theorem State.result_kept (s : State) (d : Sel) (w : Nat) (sx : Bool) (lat : Option Nat) (lanes : List Nat)
    (r : Nat → Nat) (hp : evenPair d w) :
    s.KeptRegisters (s.result d w sx lat (lanes.map fun i => (i, r i))) d w lanes := by
  cases d with
  | v n =>
      have hp := hp n rfl
      have hlt := n.isLt
      simp only [State.result, List.map_map, Function.comp_def]
      by_cases h : w = 64
      · have hp := hp h
        simp only [h, if_true]
        have h1 := s.writeV_kept (lat.getD 0) n.toNat (.v n) 64 lanes (fun i => BitVec.ofNat 32 (r i))
          (fun i hi => by simp only [destCells, List.mem_flatMap]; exact ⟨i, hi, by simp⟩) (by omega)
        have h2 := (s.writeV (lat.getD 0) n.toNat (lanes.map fun i => (i, BitVec.ofNat 32 (r i)))).writeV_kept
          (lat.getD 0) (n.toNat + 1) (.v n) 64 lanes (fun i => BitVec.ofNat 32 (r i / 2 ^ 32))
          (fun i hi => by simp only [destCells, List.mem_flatMap]; exact ⟨i, hi, by simp⟩) (by omega)
        split
        · exact ((h1.trans h2).trans (State.markQuick_kept _ _ _ _ _)).trans (State.markQuick_kept _ _ _ _ _)
        · exact h1.trans h2
      · simp only [h, if_false]
        have h1 := s.writeV_kept (lat.getD 0) n.toNat (.v n) w lanes (fun i => BitVec.ofNat 32 (extend w 32 sx (r i)))
          (fun i hi => by simp only [destCells, List.mem_flatMap]; exact ⟨i, hi, by simp [h]⟩) (by omega)
        split
        · exact h1.trans (State.markQuick_kept _ _ _ _ _)
        · exact h1
  | s n =>
      simp only [State.result]
      cases lanes with
      | nil => exact .refl _ _ _ _
      | cons a t =>
          simp only [List.map_cons]
          split
          · exact (State.writeS_kept _ _ _ _ _ _).trans (State.markQuick_kept _ _ _ _ _)
          · exact State.writeS_kept _ _ _ _ _ _
  | p n =>
      simp only [State.result]
      refine State.writeP_kept _ _ _ _ _ _ _ fun i hi => ?_
      by_cases h32 : i < 32
      · rw [maskOf_getLsbD _ _ h32] at hi
        simpa [Function.comp_def] using hi
      · rw [BitVec.getLsbD_of_ge _ _ (Nat.le_of_not_lt h32)] at hi
        simp at hi
  | _ => exact .refl _ _ _ _

/-! ### An arithmetic instruction -/

theorem State.evalLanes_gang_kept (uni : Bool) (f : Nat → Word → Lane) (l : List Nat) (s : State) :
    (s.evalLanes uni f l).2.2.gang.v = s.gang.v ∧ (s.evalLanes uni f l).2.2.gang.s = s.gang.s ∧
    (s.evalLanes uni f l).2.2.gang.stags = s.gang.stags ∧ (s.evalLanes uni f l).2.2.gang.p = s.gang.p ∧
    (s.evalLanes uni f l).2.2.gang.g = s.gang.g ∧ (s.evalLanes uni f l).2.2.gang.fpstat = s.gang.fpstat ∧
    (s.evalLanes uni f l).2.2.gang.handler = s.gang.handler := by
  rw [State.evalLanes_gang]; exact ⟨rfl, rfl, rfl, rfl, rfl, rfl, rfl⟩

theorem State.result_fpstat (s : State) (d : Sel) (w : Nat) (sx : Bool) (lat : Option Nat) (vals : List (Nat × Nat)) :
    (s.result d w sx lat vals).gang.fpstat = s.gang.fpstat ∧
    (s.result d w sx lat vals).gang.handler = s.gang.handler := by
  cases d with
  | v n => simp only [State.result]; split <;> split <;> simp
  | s n =>
      simp only [State.result]
      split
      · simp
      · split <;> simp
  | p n => simp [State.result]
  | _ => exact ⟨rfl, rfl⟩

/-- Values, flags and rounding states of lanes evaluated together. -/
theorem State.evalLanes_flags (uni : Bool) (f : Nat → Word → Lane) (l : List Nat) (hl : l.Nodup)
    (hu : uni = true → l.length ≤ 1) (s : State) :
    (s.evalLanes uni f l).2.1 = l.foldr (fun j a => (f j (s.roundState uni j)).2.1 ||| a) 0 := by
  induction l generalizing s with
  | nil => rfl
  | cons i t ih =>
      simp only [State.evalLanes, List.foldr_cons]
      rw [ih (List.nodup_cons.1 hl).2 fun h => by have := hu h; simp at this; simp [this]]
      congr 1
      cases uni with
      | true =>
          have := hu rfl
          simp only [List.length_cons] at this
          have : t = [] := List.eq_nil_of_length_eq_zero (by omega)
          simp [this]
      | false =>
          have hni := (List.nodup_cons.1 hl).1
          clear ih hl hu
          induction t with
          | nil => rfl
          | cons j u ih =>
              simp only [List.mem_cons, not_or] at hni
              simp only [List.foldr_cons]
              rw [ih hni.2, State.roundState_set_other _ _ _ _ (Ne.symm hni.1)]

/-- The rounding states after lanes have been evaluated (R75). -/
theorem State.evalLanes_states (uni : Bool) (f : Nat → Word → Lane) (l : List Nat) (hl : l.Nodup)
    (hu : uni = true → l.length ≤ 1) (s : State) :
    s.RoundStates (s.evalLanes uni f l).2.2 uni l fun j => (f j (s.roundState uni j)).2.2 := by
  induction l generalizing s with
  | nil => exact ⟨fun _ h => by simp at h, fun _ => rfl, fun _ => ⟨rfl, fun _ _ => rfl⟩⟩
  | cons i t ih =>
      obtain ⟨h1, h2, h3⟩ := ih (List.nodup_cons.1 hl).2 (fun h => by have := hu h; simp at this; simp [this])
        (s.setRoundState uni i (f i (s.roundState uni i)).2.2)
      simp only [State.evalLanes]
      cases uni with
      | true =>
          have := hu rfl
          simp only [List.length_cons] at this
          have : t = [] := List.eq_nil_of_length_eq_zero (by omega)
          subst this
          refine ⟨fun j hj => ?_, fun _ => rfl, fun h => by simp at h⟩
          simp only [List.mem_singleton] at hj
          subst hj; rfl
      | false =>
          have hni := (List.nodup_cons.1 hl).1
          refine ⟨fun j hj => ?_, fun h => by simp at h, fun _ => ⟨(h3 rfl).1, fun j hj => ?_⟩⟩
          · rcases List.mem_cons.1 hj with rfl | hj
            · rw [State.roundState, if_neg (by simp), (h3 rfl).2 j hni]
              simp [State.setRoundState, Sparse.get_put_same]
            · have hji : j ≠ i := fun e => hni (e ▸ hj)
              rw [h1 j hj]
              dsimp only
              rw [State.roundState_set_other _ _ _ _ hji]
          · simp only [List.mem_cons, not_or] at hj
            rw [(h3 rfl).2 j hj.2]
            simp [State.setRoundState, Sparse.get_put_other _ _ _ _ _ hj.1]

theorem State.raise_kept (s : State) (f : BitVec 8) (d : Sel) (w : Nat) (lanes : List Nat) :
    s.KeptRegisters (s.raise f) d w lanes :=
  .same _ _ _ (by simp) (by simp) (by simp) (by simp) (by simp) (by simp) (by unfold State.raise; split <;> rfl)

theorem State.advance_kept (s : State) (d : Sel) (w : Nat) (lanes : List Nat) : s.KeptRegisters s.advance d w lanes :=
  .same _ _ _ (by simp) (by simp) (by simp) (by simp) (by simp) (by unfold State.advance State.goTo; cases s.gang.handler <;> rfl)
    (by unfold State.advance State.goTo; cases s.gang.handler <;> rfl)

theorem State.RoundStates.after {s t u : State} {uni : Bool} {lanes : List Nat} {r : Nat → Word}
    (h : s.RoundStates t uni lanes r) (hr : u.gang.rnd = t.gang.rnd) (hu : u.gang.urnd = t.gang.urnd) :
    s.RoundStates u uni lanes r := by
  unfold State.RoundStates State.roundState at *
  rw [hr, hu]; exact h

theorem State.result_rounding (s : State) (d : Sel) (w : Nat) (sx : Bool) (lat : Option Nat) (vals : List (Nat × Nat)) :
    (s.result d w sx lat vals).gang.rnd = s.gang.rnd ∧ (s.result d w sx lat vals).gang.urnd = s.gang.urnd := by
  cases d with
  | v n => simp only [State.result]; split <;> split <;> simp
  | s n =>
      simp only [State.result]
      split
      · simp
      · split <;> simp
  | p n => simp [State.result]
  | _ => exact ⟨rfl, rfl⟩

/-- An arithmetic instruction gone on to the next PC: what D holds, what stays, which flags FPSTAT gains, the rounding
states after. -/
theorem State.arith_spec (s : State) (d : Sel) (h : Hdr) (w : Nat) (sx : Bool) (lat : Option Nat) (f : Nat → Word → Lane)
    (hp : evenPair d w) :
    let lanes := s.lanes d.isScalar h
    let r j := f j (s.roundState d.isScalar j)
    let t := (s.arith d h w sx lat f).advance
    t.Received d w sx lanes (fun j => (r j).1) ∧ s.KeptRegisters t d w lanes ∧ s.RegisterOnly t ∧
    s.Flagged t (lanes.foldr (fun j a => (r j).2.1 ||| a) 0) ∧ s.RoundStates t d.isScalar lanes fun j => (r j).2.2 := by
  have hn := s.lanes_nodup d.isScalar h
  have hs : d.isScalar = true → s.lanes d.isScalar h = [0] := s.lanes_uniform _ _
  have hu : d.isScalar = true → (s.lanes d.isScalar h).length ≤ 1 := fun e => by simp [hs e]
  have hvals := State.evalLanes_vals d.isScalar f (s.lanes d.isScalar h) hn hu s
  have hflags := State.evalLanes_flags d.isScalar f (s.lanes d.isScalar h) hn hu s
  have hstates := State.evalLanes_states d.isScalar f (s.lanes d.isScalar h) hn hu s
  have ht := State.evalLanes_registersOnly d.isScalar f (s.lanes d.isScalar h) s
  have hk := State.evalLanes_gang_kept d.isScalar f (s.lanes d.isScalar h) s
  have hsame := State.evalLanes_gang d.isScalar f (s.lanes d.isScalar h) s
  generalize hL : s.lanes d.isScalar h = lanes at *
  intro lanes' r t
  generalize hE : s.evalLanes d.isScalar f lanes = ev at *
  obtain ⟨vals, flags, u⟩ := ev
  simp only at hvals hflags hstates ht hk hsame
  subst hvals
  obtain ⟨hv, hss, hst, hpp, hg, hf, hh⟩ := hk
  have harith : s.arith d h w sx lat f = (u.result d w sx lat
      (lanes.map fun i => (i, (f i (s.roundState d.isScalar i)).1))).raise flags := by
    unfold State.arith; simp only [hL, hE]
  have hfp := u.result_fpstat d w sx lat (lanes.map fun i => (i, (f i (s.roundState d.isScalar i)).1))
  have hrn := u.result_rounding d w sx lat (lanes.map fun i => (i, (f i (s.roundState d.isScalar i)).1))
  refine ⟨?_, ?_, ?_, ?_, ?_⟩ <;> simp only [t, lanes', r, harith]
  · have := u.result_received d w sx lat lanes (fun i => (f i (s.roundState d.isScalar i)).1) hn hs hp
    revert this
    cases d <;> simp [State.Received]
  · have h0 : s.KeptRegisters u d w lanes := .same _ _ _ hv hss hst hpp hg (by rw [hsame]) (by rw [hsame])
    exact ((h0.trans (u.result_kept d w sx lat lanes (fun i => (f i (s.roundState d.isScalar i)).1) hp)).trans
      (State.raise_kept _ _ _ _ _)).trans (State.advance_kept _ _ _ _)
  · exact ((ht.trans (State.result_registersOnly _ _ _ _ _ _)).trans (State.raise_registersOnly _ _)).advance
  · unfold State.Flagged State.inHandler
    simp only [State.advance_gang_fpstat]
    unfold State.raise State.inHandler
    rw [hfp.2, hh, ← hflags]
    split <;> simp [hfp.1, hf]
  · exact hstates.after (by simp [hrn.1]) (by simp [hrn.2])

/-- The meaning of an arithmetic instruction completes at every PC but the last of the address space. -/
theorem State.sequential_completes (s : State) (o : Op) (f : State → State) (hf : s.flows = true) :
    s.sequential { op := o } f = .next (f s).advance := by
  unfold State.sequential State.barred
  cases s.gang.ej <;> simp [hf]

theorem State.advance_sameMemory {s t : State} (h : s.RegisterOnly t) : s.SameMemory t := by
  intro a
  rw [h]
  simp

/-- An instruction whose meaning is lanes of arithmetic completes with their values. -/
theorem delivers_arith {i : Instr} {s : State} {o : Op} {d : Sel} {h : Hdr} {w : Nat} {sx : Bool} {lat : Option Nat}
    {f : State → Nat → Word → Lane} {g : Nat → Word → Lane}
    (hx : exec i s = s.sequential { op := o } fun s => s.arith d h w sx lat (f s))
    (hflow : s.flows = true) (hp : evenPair d w) (hr : f s = g) : Delivers i s d h w sx g := by
  obtain ⟨h1, h2, h3, h4, h5⟩ := s.arith_spec d h w sx lat (f s) hp
  rw [← hr]
  exact ⟨(s.arith d h w sx lat (f s)).advance, by rw [hx, State.sequential_completes _ _ _ hflow], h1, h2, h3,
    State.advance_sameMemory h3, h4, h5⟩

end Sys2Proof.Machine
end

