-- ==== Sys2Proof/Laws/Access.lean ====
section
/-! SUPPORT. What the memory system's operations leave alone: an access of the gang in focus changes the memory system, its
crew's scratch and counters, and the access registers of its gang, and nothing else. -/

namespace Sys2Proof.Machine

theorem State.Touches.refl (s : State) : s.Touches s := ⟨rfl, fun _ => rfl⟩

theorem State.Touches.crewId {s t : State} (h : s.Touches t) : t.crew.id = s.crew.id := by rw [h.1]
theorem State.Touches.ej {s t : State} (h : s.Touches t) : t.gang.ej = s.gang.ej := by rw [h.1]

theorem State.Touches.trans {s t u : State} (h : s.Touches t) (h' : t.Touches u) : s.Touches u := by
  refine ⟨?_, fun e => ?_⟩
  · have h1 := h.1
    have h2 := h'.1
    rw [h2, h1]
  · rw [h'.2 (by rw [h.ej]; exact e), h.2 e]

/-- A change of the memory system alone. -/
theorem State.Touches.sys (s : State) (y : Sys) : s.Touches { s with sys := y } := ⟨rfl, fun _ => rfl⟩

theorem State.touches_updCrew (s : State) (id : Nat) (f : Crew → Crew) (hid : id = s.crew.id)
    (hf : f s.crew =
      { s.crew with
        locates := (f s.crew).locates, demotes := (f s.crew).demotes, scratch := (f s.crew).scratch,
        scratchTags := (f s.crew).scratchTags,
        unfenced := (f s.crew).unfenced }) : s.Touches (s.updCrew id f) := by
  unfold State.updCrew
  rw [if_pos hid.symm]
  exact ⟨by dsimp only; rw [← hf], fun _ => rfl⟩

theorem State.touches_countLocate (s : State) (w : Who) (n : Nat) (hw : w.crew = s.crew.id) :
    s.Touches (s.countLocate w n) := by
  unfold State.countLocate
  split
  · exact .refl s
  · refine s.touches_updCrew _ _ hw ?_
    rfl

theorem State.touches_countDemote (s : State) (w : Who) (n : Nat) (hw : w.crew = s.crew.id) :
    s.Touches (s.countDemote w n) := by
  unfold State.countDemote
  split
  · exact .refl s
  · refine s.touches_updCrew _ _ hw ?_
    rfl

/-- A choice between two changes. -/
theorem State.Touches.ite {s t u : State} {c : Prop} [Decidable c] (ht : s.Touches t) (hu : s.Touches u) :
    s.Touches (if c then t else u) := by split <;> assumption

theorem State.touches_dirRead (s : State) (w : Who) (l : Leaf) (policy va : Nat) (m : BitVec 128) (hw : w.crew = s.crew.id) :
    s.Touches (s.dirRead w l policy va m) := by
  unfold State.dirRead
  dsimp only
  split
  · exact .sys _ _
  · split
    · exact .sys _ _
    · split
      · generalize hu : (if ParkUnit.served w _ _ ≤ 2 then s else _ : State) = u
        have h1 : s.Touches u := by rw [← hu]; exact .ite (.refl s) (.sys _ _)
        exact .ite (h1.trans (u.touches_countDemote w 1 (by rw [h1.crewId, hw]))) h1
      · exact (State.Touches.sys s _).trans (State.touches_countLocate _ w 1 hw)

theorem State.touches_dirWrite (s : State) (w : Who) (l : Leaf) (policy va : Nat) (m : BitVec 128) (hw : w.crew = s.crew.id) :
    s.Touches (s.dirWrite w l policy va m) := by
  unfold State.dirWrite
  dsimp only
  split
  · exact .sys _ _
  · exact .ite (.sys _ _) ((State.Touches.sys s _).trans (State.touches_countLocate _ w 1 hw))

theorem State.touches_writeBack (s : State) (w : Who) (l : L1Line) (hw : w.crew = s.crew.id) :
    s.Touches (s.writeBack w l) := by
  unfold State.writeBack
  split
  · exact .refl s
  · split
    · exact .sys _ _
    · exact (s.touches_dirWrite { w with asid := l.asid } l.leaf 0 (l.line * 128) l.dirty hw).trans (.sys _ _)

theorem State.touches_l1Trim (s : State) (w : Who) (c line ways : Nat) (hw : w.crew = s.crew.id) :
    s.Touches (s.l1Trim w c line ways) := by
  unfold State.l1Trim
  dsimp only
  split
  · exact .refl s
  · split
    · exact .refl s
    · exact (s.touches_writeBack { w with core := c, eject := false, engine := false } _ hw).trans (.sys _ _)

theorem State.touches_l1Room (s : State) (w : Who) (line : Nat) (hw : w.crew = s.crew.id) :
    s.Touches (s.l1Room w line) := s.touches_l1Trim w _ _ _ hw

theorem State.touches_l1Expel (s : State) (w : Who) (c : Nat) (asid : Asid) (line : Nat) (hw : w.crew = s.crew.id) :
    s.Touches (s.l1Expel w c asid line) := by
  unfold State.l1Expel
  split
  · exact .refl s
  · exact (s.touches_writeBack { w with core := c, eject := false, engine := false } _ hw).trans (.sys _ _)

theorem State.touches_foldl {α : Type} (f : State → α → State) (c : Nat)
    (hf : ∀ (s : State) x, s.crew.id = c → s.Touches (f s x)) (l : List α) (s : State) (hs : s.crew.id = c) :
    s.Touches (l.foldl f s) := by
  induction l generalizing s with
  | nil => exact .refl s
  | cons x t ih =>
      have h1 := hf s x hs
      exact h1.trans (ih _ (by rw [h1.crewId, hs]))

theorem State.touches_l1Release (s : State) (w : Who) (hw : w.crew = s.crew.id) : s.Touches (s.l1Release w) := by
  unfold State.l1Release
  exact (State.touches_foldl _ s.crew.id (fun t x ht => t.touches_writeBack w x (by rw [hw, ht])) _ s rfl).trans (.sys _ _)

theorem State.touches_release (s : State) (w : Who) (scope : Nat) (hw : w.crew = s.crew.id) :
    s.Touches (s.release w scope) := by
  unfold State.release
  dsimp only
  generalize hu : (ite ((s.cacheScope w scope && !w.engine) = true) _ s : State) = u
  have h1 : s.Touches u := by rw [← hu]; exact .ite (s.touches_l1Release { w with eject := false } hw) (.refl s)
  exact .ite (h1.trans (.sys _ _)) h1

theorem State.touches_acquire (s : State) (w : Who) (scope : Nat) : s.Touches (s.acquire w scope) := by
  unfold State.acquire
  dsimp only
  generalize hu : (ite (scope = 6) _ s : State) = u
  have h1 : s.Touches u := by rw [← hu]; exact .ite (.sys _ _) (.refl s)
  exact .ite (h1.trans (.sys _ _)) h1

theorem State.touches_viaHome (s : State) (w : Who) (acc : Access) (va : Nat) (r : Leaf × State)
    (h : s.viaHome w acc va = .ok r) : s.Touches r.2 := by
  unfold State.viaHome at h
  split at h
  · simp at h
  · dsimp only at h
    split at h
    · simp only [Except.ok.injEq] at h; exact h ▸ .sys _ _
    · split at h
      · simp only [Except.ok.injEq] at h; exact h ▸ .sys _ _
      · split at h
        · simp at h
        · split at h
          · simp at h
          · simp only [Except.ok.injEq] at h; exact h ▸ .sys _ _

theorem State.touches_page (s : State) (w : Who) (acc : Access) (va : Nat) (r : Leaf × State)
    (h : s.page w acc va = .ok r) : s.Touches r.2 := by
  unfold State.page at h
  split at h
  · exact s.touches_viaHome w acc va r h
  · split at h
    · simp only [Except.ok.injEq] at h; exact h ▸ .refl s
    · split at h
      · simp at h
      · next l' t ht =>
          have h1 := s.touches_viaHome w acc va _ ht
          simp only [Except.ok.injEq] at h
          exact h ▸ .ite (h1.trans (.sys _ _)) h1

/-- A leaf is a page whose memory gives its bytes (R107). -/
theorem State.leaf_page (s : State) (w : Who) (acc : Access) (va n : Nat) (r : Leaf × State)
    (h : s.leaf w acc va n = .ok r) : s.page w acc va = .ok r := by
  unfold State.leaf at h
  split at h
  · simp at h
  · next l t ht =>
      split at h
      · simp at h
      · rw [ht, ← h]

theorem State.touches_leaf (s : State) (w : Who) (acc : Access) (va n : Nat) (l : Leaf) (t : State)
    (h : s.leaf w acc va n = .ok (l, t)) : s.Touches t := s.touches_page w acc va (l, t) (s.leaf_page w acc va n (l, t) h)

theorem State.touches_leaves (s : State) (w : Who) (acc : Access) (parts : List (Nat × Nat))
    (r : List (Nat × Nat × Leaf)) (t : State) (h : s.leaves w acc parts = .ok (r, t)) : s.Touches t := by
  induction parts generalizing s r with
  | nil => simp only [State.leaves, Except.ok.injEq, Prod.mk.injEq] at h; rw [← h.2]; exact .refl s
  | cons p rest ih =>
      simp only [State.leaves] at h
      split at h
      · simp at h
      · next l s1 h1 =>
          split at h
          · simp at h
          · next ls s2 h2 =>
              simp only [Except.ok.injEq, Prod.mk.injEq] at h
              obtain ⟨-, rfl⟩ := h
              exact (s.touches_leaf w acc p.1 p.2 l s1 h1).trans (ih s1 ls h2)

theorem State.touches_readyLanes (s : State) (w : Who) (acc : Access) (ts : List (Nat × Target))
    (r : List (Nat × Ready)) (t : State) (h : s.readyLanes w acc ts = .ok (r, t)) : s.Touches t := by
  induction ts generalizing s r with
  | nil => simp only [State.readyLanes, Except.ok.injEq, Prod.mk.injEq] at h; rw [← h.2]; exact .refl s
  | cons p rest ih =>
      obtain ⟨i, q⟩ := p
      simp only [State.readyLanes] at h
      split at h
      · simp at h
      · next x s1 h1 =>
          have ht1 : s.Touches s1 := by
            split at h1
            · simp only [Except.ok.injEq, Prod.mk.injEq] at h1; rw [← h1.2]; exact .refl s
            · split at h1
              · simp at h1
              · next ls s2 h2 =>
                  simp only [Except.ok.injEq, Prod.mk.injEq] at h1
                  rw [← h1.2]
                  exact s.touches_leaves w acc _ ls s2 h2
          split at h
          · simp at h
          · next rs s2 h2 =>
              simp only [Except.ok.injEq, Prod.mk.injEq] at h
              obtain ⟨-, rfl⟩ := h
              exact ht1.trans (ih s1 rs h2)

theorem State.touches_peerRead (s : State) (peer addr n : Nat) : s.Touches (s.peerRead peer addr n).2 := by
  unfold State.peerRead
  dsimp only
  split
  · exact .refl s
  · split
    · exact .refl s
    · exact .sys _ _

theorem State.touches_readPart (s : State) (w : Who) (l : Leaf) (policy va n : Nat) (hw : w.crew = s.crew.id) :
    s.Touches (s.readPart w l policy va n).2 := by
  have hd := s.touches_dirRead w l policy va (byteMask (va % 128) n) hw
  unfold State.readPart
  dsimp only
  split
  · split
    · exact s.touches_peerRead _ _ _
    · exact .refl s
  · split
    · exact hd
    · split
      · split
        · exact .sys _ _
        · split <;> exact hd.trans (.sys _ _)
      · split
        · exact .refl s
        · split
          · exact hd
          · exact (hd.trans (State.touches_l1Room _ w _ (by rw [hd.crewId, hw]))).trans (.sys _ _)

theorem State.touches_readParts (s : State) (w : Who) (policy : Nat) (parts : List (Nat × Nat × Leaf))
    (hw : w.crew = s.crew.id) : s.Touches (s.readParts w policy parts).2 := by
  induction parts generalizing s with
  | nil => exact .refl s
  | cons p rest ih =>
      obtain ⟨va, n, l⟩ := p
      simp only [State.readParts]
      have h := s.touches_readPart w l policy va n hw
      exact h.trans (ih _ (by rw [h.crewId, hw]))

theorem State.touches_updGang (s : State) (f : Gang → Gang)
    (hf : ∀ g, f g = { g with smask := (f g).smask, spass := (f g).spass, located := (f g).located }) :
    s.Touches (s.updGang s.logGang f) := by
  unfold State.updGang
  by_cases h : s.gang.id = s.logGang
  · rw [if_pos h]
    exact ⟨by dsimp only; rw [← hf], fun _ => rfl⟩
  · rw [if_neg h]
    split
    · exact .refl s
    · refine ⟨rfl, fun e => ?_⟩
      simp [State.logGang, e] at h

theorem State.touches_noteOff (s : State) (i : Nat) (r : OffReason) : s.Touches (s.noteOff i r) := by
  unfold State.noteOff
  exact s.touches_updGang _ fun _ => rfl

theorem State.touches_countPasses (s : State) (size : Nat) (lanes : List (Nat × Nat × Nat)) :
    s.Touches (s.countPasses size lanes) := by
  unfold State.countPasses
  dsimp only
  split
  · exact .refl s
  · exact s.touches_updGang _ fun _ => rfl

theorem State.touches_loadLanes (s : State) (w : Who) (policy size : Nat) (rs : List (Nat × Ready))
    (hw : w.crew = s.crew.id) : s.Touches (s.loadLanes w policy size rs).2 := by
  induction rs generalizing s with
  | nil => exact .refl s
  | cons p rest ih =>
      obtain ⟨i, r⟩ := p
      simp only [State.loadLanes]
      have h : ∀ q : Loaded × State, s.Touches q.2 → s.Touches (q.2.loadLanes w policy size rest).2 :=
        fun q hq => hq.trans (ih _ (by rw [hq.crewId, hw]))
      split
      · exact h (_, _) (s.touches_readParts w policy _ hw)
      · split
        · exact h (_, _) (s.touches_noteOff _ _)
        · exact h (_, s) (.refl s)

/-! ### Addresses -/

/-- A chain of steps that may stop: what holds of every step holds of the chain. -/
theorem foldlM_ok {α β ε : Type} (P : β → β → Prop) (hr : ∀ b, P b b) (ht : ∀ a b c, P a b → P b c → P a c)
    (f : β → α → Except ε β) (hf : ∀ b x c, f b x = .ok c → P b c) (l : List α) (b c : β)
    (h : l.foldlM f b = .ok c) : P b c := by
  induction l generalizing b with
  | nil =>
      simp only [List.foldlM_nil, pure, Except.pure, Except.ok.injEq] at h
      exact h ▸ hr b
  | cons x t ih =>
      simp only [List.foldlM_cons, bind, Except.bind] at h
      split at h
      · simp at h
      · next d hd => exact ht _ _ _ (hf b x d hd) (ih d h)

theorem State.touches_homeLeaf (s : State) (w : Who) (acc : Access) (va : Nat) (r : Leaf × State)
    (h : s.homeLeaf w acc va = .ok r) : s.Touches r.2 := by
  unfold State.homeLeaf at h
  split at h
  · simp at h
  · split at h
    · simp at h
    · next q hq =>
        simp only [Except.ok.injEq] at h
        exact h ▸ s.touches_leaf _ _ _ _ q.1 q.2 hq

theorem State.touches_unitRead (s : State) (w : Who) (va n : Nat) (r : List Byte × State)
    (h : s.unitRead w va n = .ok r) : s.Touches r.2 := by
  unfold State.unitRead at h
  refine foldlM_ok (fun a b : List Byte × State => a.2.Touches b.2) (fun b => .refl b.2) (fun _ _ _ => .trans) _ ?_ _ _ _ h
  intro b x c hc
  split at hc
  · simp at hc
  · next l u hl =>
      simp only [Except.ok.injEq] at hc
      exact hc ▸ State.touches_homeLeaf _ _ _ _ _ hl

theorem State.touches_readHeader (s : State) (w : Who) (va : Nat) (r : ListHdr × State)
    (h : s.readHeader w va = .ok r) : s.Touches r.2 := by
  unfold State.readHeader at h
  split at h
  · simp at h
  · next b u hb =>
      dsimp only at h
      split at h
      · simp at h
      · simp only [Except.ok.injEq] at h
        exact h ▸ s.touches_unitRead w va 64 _ hb

theorem State.touches_readPieces (s : State) (w : Who) (va : Nat) (hd : ListHdr) (r : List Piece × State)
    (h : s.readPieces w va hd = .ok r) : s.Touches r.2 := by
  unfold State.readPieces at h
  refine foldlM_ok (fun a b : List Piece × State => a.2.Touches b.2) (fun b => .refl b.2) (fun _ _ _ => .trans) _ ?_ _ _ _ h
  intro b x c hc
  unfold readPiece at hc
  split at hc
  · simp at hc
  · next l u hl =>
      split at hc
      · simp at hc
      · simp only [Except.ok.injEq] at hc
        exact hc ▸ State.touches_unitRead _ _ _ _ _ hl

theorem State.touches_readList (s : State) (w : Who) (va : Nat) (r : (ListHdr × List Piece) × State)
    (h : s.readList w va = .ok r) : s.Touches r.2 := by
  unfold State.readList at h
  split at h
  · simp at h
  · next hd u hu =>
      split at h
      · simp at h
      · next l v hv =>
          simp only [Except.ok.injEq] at h
          exact h ▸ (s.touches_readHeader w va _ hu).trans (State.touches_readPieces _ _ _ _ _ hv)

theorem State.touches_resolve (s : State) (w : Who) (c : Cap) (x n : Nat) (r : List (Nat × Nat) × State)
    (h : s.resolve w c x n = .ok r) : s.Touches r.2 := by
  unfold State.resolve at h
  split at h
  · simp at h
  · next hd l u hu =>
      split at h
      · simp at h
      · split at h
        · simp at h
        · simp only [Except.ok.injEq] at h
          exact h ▸ s.touches_readList w _ _ hu

theorem State.touches_oneTarget (s : State) (m : Addr) (i va : Nat) (r : Target × State)
    (h : s.oneTarget m i va = .ok r) : r.2 = s := by
  unfold State.oneTarget at h
  split at h
  · simp at h
  · split at h
    · simp at h
    · split at h <;> (simp only [Except.ok.injEq] at h; rw [← h])

theorem State.touches_capTarget (s : State) (w : Who) (m : Addr) (i : Nat) (r : Target × State)
    (h : s.capTarget w m i = .ok r) : s.Touches r.2 := by
  unfold State.capTarget at h
  dsimp only at h
  generalize s.capOf m.a = q at h
  obtain ⟨c, tag⟩ := q
  dsimp only at h
  generalize (if m.fields then c.check tag [.linear, .tile, .stitch] m.need 1 i
    else c.checkKind tag [.linear, .tile, .stitch] 1 i) = k at h
  split at h
  · simp at h
  · split at h
    · simp at h
    · split at h
      · split at h
        · simp at h
        · rw [s.touches_oneTarget m i _ r h]; exact .refl s
      · split at h
        · simp at h
        · next parts u hu =>
            have := s.touches_resolve w c _ _ _ hu
            split at h
            · simp at h
            · split at h
              · simp at h
              · split at h
                · simp at h
                · simp only [Except.ok.injEq] at h
                  exact h ▸ this
      · split at h
        · simp at h
        · rw [s.touches_oneTarget m i _ r h]; exact .refl s

theorem State.touches_target (s : State) (w : Who) (m : Addr) (i : Nat) (r : Target × State)
    (h : s.target w m i = .ok r) : s.Touches r.2 := by
  unfold State.target at h
  split at h
  · exact s.touches_capTarget w m i r h
  · dsimp only at h
    split at h
    · rw [s.touches_oneTarget m i _ r h]; exact .refl s
    · split at h
      · simp at h
      · split at h
        · simp at h
        · rw [s.touches_oneTarget m i _ r h]; exact .refl s
    · split at h
      · simp at h
      · simp only [Except.ok.injEq] at h
        exact h ▸ .refl s

theorem State.touches_targetsOf (s : State) (w : Who) (m : Addr) (lanes : List Nat) (r : List (Nat × Target) × State)
    (h : s.targetsOf w m lanes = .ok r) : s.Touches r.2 := by
  induction lanes generalizing s r with
  | nil => simp only [State.targetsOf, Except.ok.injEq] at h; exact h ▸ .refl s
  | cons i rest ih =>
      simp only [State.targetsOf] at h
      split at h
      · simp at h
      · next t u hu =>
          split at h
          · simp at h
          · next ts v hv =>
              simp only [Except.ok.injEq] at h
              exact h ▸ (s.touches_target w m i _ hu).trans (ih u (ts, v) hv)

/-- Computing the targets of an access changes only what translating a list's header and pieces does. -/
theorem State.touches_targets (s : State) (w : Who) (m : Addr) (lanes : List Nat) (r : List (Nat × Target) × State)
    (h : s.targets w m lanes = .ok r) : s.Touches r.2 := by
  unfold State.targets at h
  split at h
  · split at h <;> simp at h
  · exact s.touches_targetsOf w m lanes r h

/-! ### Stores -/

theorem State.touches_storeParts (s : State) (w : Who) (acc : Access) (fills : Bool) (i : Nat) (parts : List (Nat × Nat))
    (data : List Byte) : s.Touches (s.storeParts w acc fills i parts data).2 := by
  induction parts generalizing s data with
  | nil => exact .refl s
  | cons p rest ih =>
      obtain ⟨va, n⟩ := p
      simp only [State.storeParts]
      split
      · exact ih _ _
      · split
        · exact ih _ _
        · next l u hu =>
            split
            · exact ih _ _
            · exact (s.touches_leaf w acc va _ l u hu).trans (ih _ _)

theorem State.touches_storeItems (s : State) (w : Who) (acc : Access) (fills : Bool) (data : Nat → List Byte)
    (ts : List (Nat × Target)) : s.Touches (s.storeItems w acc fills data ts).2 := by
  induction ts generalizing s with
  | nil => exact .refl s
  | cons p rest ih =>
      obtain ⟨i, t⟩ := p
      simp only [State.storeItems]
      split
      · exact ih _
      · exact (s.touches_storeParts w acc fills i _ _).trans (ih _)

theorem aperture_memory (pa : Nat) (h : isMemory pa = true) : aperture pa = none := by
  unfold isMemory at h
  unfold aperture
  simp only [decide_eq_true_eq] at h
  rw [if_neg (by simp; omega)]

theorem HostSide.peerOf_memory (x : HostSide) (pa : Nat) (h : isMemory pa = true) : x.peerOf pa = none := by
  unfold HostSide.peerOf; rw [aperture_memory pa h]

theorem State.touches_writeThrough (s : State) (w : Who) (l : Leaf) (policy va : Nat) (data : List Byte) (tag : Bool)
    (hw : w.crew = s.crew.id) : s.Touches (s.writeThrough w l policy va data tag) := by
  unfold State.writeThrough
  exact (s.touches_dirWrite w l policy va _ hw).trans (.sys _ _)

theorem State.touches_parkLine (s : State) (w : Who) (asid : Asid) (line pa : Nat) (bind : Bool) (p : Parked)
    (hw : w.crew = s.crew.id) : s.Touches (s.parkLine w asid line pa bind p) := by
  unfold State.parkLine
  dsimp only
  split
  · exact .sys _ _
  · next u _ =>
      cases u with
      | l1 c =>
          have h1 := s.touches_l1Expel w c asid line hw
          exact (h1.trans (.sys _ _)).trans (State.touches_l1Trim _ w c _ _ (hw.trans h1.crewId.symm))
      | _ => exact .sys _ _

theorem State.touches_cleanCopy (s : State) (w : Who) (l : Leaf) (policy line : Nat) (u : ParkUnit)
    (hw : w.crew = s.crew.id) : s.Touches (s.cleanCopy w l policy line u) := by
  unfold State.cleanCopy
  cases u with
  | l1 n =>
      have h1 := s.touches_l1Expel w n w.asid line hw
      exact (h1.trans (State.touches_l1Trim _ w n line _ (by rw [h1.crewId, hw]))).trans (.sys _ _)
  | _ => exact .sys _ _

theorem State.touches_parkStore (s : State) (w : Who) (l : Leaf) (policy va : Nat) (set : BitVec 16) (r : Readers)
    (hw : w.crew = s.crew.id) : s.Touches (s.parkStore w l policy va set r) := by
  unfold State.parkStore
  dsimp only
  split
  · split
    · exact (State.Touches.sys s _).trans (State.touches_cleanCopy _ w l policy _ _ hw)
    · exact .sys _ _
  · split
    · split
      · exact .sys _ _
      · exact s.touches_parkLine w _ _ _ _ _ hw
    · exact (State.Touches.sys s _).trans (State.touches_parkLine _ w _ _ _ _ _ hw)

/-- A store to one line of memory. -/
theorem State.touches_writePart (s : State) (w : Who) (l : Leaf) (policy : Nat) (set : BitVec 16) (r : Readers) (va : Nat)
    (data : List Byte) (tag : Bool) (hw : w.crew = s.crew.id) (hm : isMemory (l.addr va) = true) :
    s.Touches (s.writePart w l policy set r va data tag) := by
  unfold State.writePart
  dsimp only
  rw [s.host.peerOf_memory _ hm]
  simp only [hm, Bool.not_true, Bool.false_eq_true, if_false]
  have hx := s.touches_l1Expel w w.core w.asid (va / 128) hw
  split
  · generalize hu : (ite (w.noL1 = true) s _ : State) = u
    have h1 : s.Touches u := by rw [← hu]; exact .ite (.refl s) hx
    have h2 : s.Touches (u.setWrite w l va data tag) := h1.trans (.sys _ _)
    exact h2.trans (State.touches_parkStore _ w l policy va set r (by rw [h2.crewId, hw]))
  · split
    · exact s.touches_writeThrough w l policy va data tag hw
    · split
      · exact hx.trans (State.touches_writeThrough _ w l policy va data tag (by rw [hx.crewId, hw]))
      · split
        · exact (s.touches_l1Room w _ hw).trans (.sys _ _)
        · exact .sys _ _

theorem State.touches_performStores (s : State) (w : Who) (policy : Nat) (set : BitVec 16) (r : Readers)
    (tag : Option Bool) (items : List StoreItem) (hw : w.crew = s.crew.id) (hp : ∀ x ∈ items, x.plain = true) :
    s.Touches (s.performStores w policy set r tag items) := by
  induction items generalizing s with
  | nil => exact .refl s
  | cons x rest ih =>
      simp only [State.performStores]
      have hrest : ∀ u : State, s.Touches u → s.Touches (u.performStores w policy set r tag rest) := fun u hu =>
        hu.trans (ih u (by rw [hu.crewId, hw]) fun y hy => hp y (List.mem_cons_of_mem _ hy))
      have hx := hp x (List.mem_cons_self ..)
      cases x with
      | memory i va b l => exact hrest _ (s.touches_writePart w l policy set r va b _ hw hx)
      | logged => exact hrest _ (.refl s)
      | scratch i off b =>
          dsimp only
          split
          · exact hrest _ (s.touches_noteOff _ _)
          · exact hrest _ ⟨rfl, fun _ => rfl⟩

/-! ### Completion -/

/-- An instruction whose effect may trap or wait completes when its effect says so. -/
theorem State.attempt_completes (s : State) (o : Op) (f : State → State × Bool) (hf : s.flows = true) :
    s.attempt { op := o } f = .next (if (f s).2 then (f s).1.advance else (f s).1) := by
  unfold State.attempt State.barred
  cases s.gang.ej <;> simp [hf]

/-- An access followed by writes of registers, gone on to the next PC. -/
theorem State.Touches.accessOnly {s u v : State} (h : s.Touches u)
    (hv : v = { u with gang := { u.gang with
      v := v.gang.v, s := v.gang.s, stags := v.gang.stags, handleIds := v.gang.handleIds, shadows := v.gang.shadows,
      marks := v.gang.marks, located := v.gang.located } }) : s.AccessOnly v.advance := by
  obtain ⟨h1, h2⟩ := h
  refine ⟨?_, fun e => ?_⟩
  · rw [hv, h1]
    unfold State.advance State.goTo
    cases hh : s.gang.handler <;> simp only [Gang.mapStrands]
  · rw [State.advance_gangs, hv]; exact h2 e

theorem State.Touches.sameRegisters {s u : State} (h : s.Touches u) : s.SameRegisters u.advance := by
  obtain ⟨h1, _⟩ := h
  unfold State.SameRegisters
  simp only [State.advance_gang_v, State.advance_gang_s, State.advance_gang_stags, State.advance_gang_p,
    State.advance_gang_g]
  rw [h1]
  refine ⟨rfl, rfl, rfl, rfl, rfl, ?_⟩
  unfold State.advance State.goTo
  cases hh : s.gang.handler <;> simp only [Gang.mapStrands]

end Sys2Proof.Machine
end

