-- ==== Sys2Proof/Laws/Decode.lean ====
section
/-! SUPPORT. The codes of selectors, types and sizes, the fields of a word and the operand structures go both ways. -/

namespace Sys2Proof

theorem Ty.ofCodeD_code (t : Ty) : Ty.ofCodeD t.code = t := by cases t <;> rfl

theorem Size.ofCodeD_code (z : Size) : Size.ofCodeD z.code = z := by cases z <;> rfl

set_option maxRecDepth 20000 in
theorem Sel.ofCode_v : ∀ n : BitVec 7, Sel.ofCode (Sel.v n).code = some (.v n) := by decide
set_option maxRecDepth 20000 in
theorem Sel.ofCode_s : ∀ n : BitVec 6, Sel.ofCode (Sel.s n).code = some (.s n) := by decide
theorem Sel.ofCode_p : ∀ n : BitVec 3, Sel.ofCode (Sel.p n).code = some (.p n) := by decide
theorem Sel.ofCode_g : ∀ n : BitVec 2, Sel.ofCode (Sel.g n).code = some (.g n) := by decide

/-- The code of a selector names it. -/
theorem Sel.ofCode_code (s : Sel) : Sel.ofCode s.code = some s := by
  cases s with
  | v n => exact ofCode_v n
  | s n => exact ofCode_s n
  | p n => exact ofCode_p n
  | g n => exact ofCode_g n
  | sp k => cases k <;> decide
  | imm => rfl
  | none => rfl

theorem Sel.ofCodeD_code (s : Sel) : Sel.ofCodeD s.code = s := by simp [Sel.ofCodeD, Sel.ofCode_code]

set_option maxRecDepth 16000 in
theorem Sel.all_codes : ∀ b : BitVec 8, ((Sel.ofCode b).all fun s => s.code = b) = true := by decide

/-- A value that names an operand is its code. -/
theorem Sel.code_ofCode {b : BitVec 8} {s : Sel} (h : Sel.ofCode b = some s) : s.code = b := by
  have := Sel.all_codes b
  rw [h] at this
  simpa using this

/-- The assigned opcodes are read back. -/
theorem Op.ofCode_code (o : Op) : Op.ofCode o.code = some o := by cases o <;> rfl

/-- The parts of a word are its fields. -/
theorem Fields.ofWord_toWord (f : Fields) : Fields.ofWord f.toWord = f := by
  cases f
  simp only [Fields.ofWord, Fields.toWord, Fields.mk.injEq]
  refine ⟨?_, ?_, ?_, ?_, ?_, ?_, ?_, ?_, ?_, ?_, ?_⟩
  on_goal 3 => (repeat rw [BitVec.getLsbD_append]); simp
  all_goals
    apply BitVec.eq_of_getLsbD_eq; intro i hi
    rw [BitVec.getLsbD_extractLsb']
    repeat rw [BitVec.getLsbD_append]
    interval_cases i <;> simp

/-- Neighbouring parts of a value joined are one part. -/
theorem extract_join {w : Nat} (x : BitVec w) (lo m n : Nat) :
    x.extractLsb' (lo + n) m ++ x.extractLsb' lo n = x.extractLsb' lo (m + n) := by
  apply BitVec.eq_of_getLsbD_eq
  intro i hi
  rw [BitVec.getLsbD_append]
  simp only [BitVec.getLsbD_extractLsb', hi, decide_true, Bool.true_and]
  by_cases h : i < n
  · simp [h]
  · simp [h, show i - n < m by omega, show lo + n + (i - n) = lo + i by omega]

/-- A word is the word of its fields. -/
theorem Fields.toWord_ofWord (w : InstrWord) : (Fields.ofWord w).toWord = w := by
  have k : BitVec.ofBool (w.getLsbD 83) = w.extractLsb' 83 1 := by
    apply BitVec.eq_of_getLsbD_eq
    intro i hi
    obtain rfl : i = 0 := by omega
    simp
  simp only [Fields.ofWord, Fields.toWord, k]
  rw [extract_join w 84 8 4, extract_join w 83 12 1, extract_join w 80 13 3, extract_join w 72 16 8, extract_join w 64 24 8,
    extract_join w 56 32 8, extract_join w 48 40 8, extract_join w 40 48 8, extract_join w 32 56 8, extract_join w 0 64 32]
  simp

/-- The type and the variant of the typed layout. -/
theorem Ty.of_typed (t : Ty) (v : BitVec 3) : Ty.ofCodeD ((t.code ++ v).extractLsb' 3 5) = t := by
  have e : (t.code ++ v).extractLsb' 3 5 = t.code := by
    apply BitVec.eq_of_getLsbD_eq; intro i hi
    rw [BitVec.getLsbD_extractLsb', BitVec.getLsbD_append]
    simp [hi]
  rw [e, Ty.ofCodeD_code]

/-- Each operand structure is read back from its fields. -/
theorem Fields.typed_fields (o : Op) (x : Typed) : (x.fields o).typed = x := by
  obtain ⟨h, t, v, d, a, b, c, r, sat, na, nb, aa, ab, imm⟩ := x
  simp only [Fields.typed, Typed.fields, Fields.hdr, Typed.mk.injEq, Sel.ofCodeD_code, Ty.of_typed, true_and, and_true]
  refine ⟨?_, ?_, ?_, ?_, ?_, ?_, ?_⟩
  case refine_1 =>
    apply BitVec.eq_of_getLsbD_eq; intro i hi
    rw [BitVec.getLsbD_extractLsb', BitVec.getLsbD_append]
    simp [hi]
  case refine_2 =>
    apply BitVec.eq_of_getLsbD_eq; intro i hi
    rw [BitVec.getLsbD_extractLsb']
    repeat rw [BitVec.getLsbD_append]
    interval_cases i <;> simp
  all_goals (repeat rw [BitVec.getLsbD_append]); simp

theorem Fields.conv_fields (o : Op) (x : Conv) : (x.fields o).conv = x := by
  obtain ⟨h, t, u, v, d, a, b, r, sat, imm⟩ := x
  simp only [Fields.conv, Conv.fields, Fields.hdr, Conv.mk.injEq, Sel.ofCodeD_code, Ty.of_typed, true_and, and_true]
  have e : (0#3 ++ u.code).extractLsb' 0 5 = u.code := by cases u <;> rfl
  rw [e, Ty.ofCodeD_code]
  refine ⟨rfl, ?_, ?_, ?_⟩
  case refine_1 =>
    apply BitVec.eq_of_getLsbD_eq; intro i hi
    rw [BitVec.getLsbD_extractLsb', BitVec.getLsbD_append]
    simp [hi]
  case refine_2 =>
    apply BitVec.eq_of_getLsbD_eq; intro i hi
    rw [BitVec.getLsbD_extractLsb']
    repeat rw [BitVec.getLsbD_append]
    interval_cases i <;> simp
  all_goals (repeat rw [BitVec.getLsbD_append]); simp

/-- The scope, order and policy of the memory layout. -/
theorem memory_layout (sc : BitVec 3) (o : BitVec 2) (p : BitVec 3) :
    (sc ++ o ++ p).extractLsb' 5 3 = sc ∧ (sc ++ o ++ p).extractLsb' 3 2 = o ∧ (sc ++ o ++ p).extractLsb' 0 3 = p := by
  refine ⟨?_, ?_, ?_⟩
  all_goals
    apply BitVec.eq_of_getLsbD_eq; intro i hi
    rw [BitVec.getLsbD_extractLsb']
    repeat rw [BitVec.getLsbD_append]
    interval_cases i <;> simp

/-- The halves of IMM. -/
theorem imm_halves (a b : BitVec 16) : (a ++ b).extractLsb' 16 16 = a ∧ (a ++ b).extractLsb' 0 16 = b := by
  refine ⟨?_, ?_⟩
  all_goals
    apply BitVec.eq_of_getLsbD_eq; intro i hi
    rw [BitVec.getLsbD_extractLsb', BitVec.getLsbD_append]
    simp [hi]

theorem Fields.memOp_fields (o : Op) (x : MemOp) : (x.fields o).memOp = x := by
  obtain ⟨h, z, capb, x73, sc, od, po, d, a, b, c, rs, off⟩ := x
  simp only [Fields.memOp, MemOp.fields, Fields.hdr, MemOp.mk.injEq, Sel.ofCodeD_code, memory_layout, imm_halves, true_and, and_true]
  refine ⟨?_, ?_, ?_⟩ <;>
    (revert capb x73; cases z <;> decide)

theorem Fields.atomOp_fields (o : Op) (x : AtomOp) : (x.fields o).atomOp = x := by
  obtain ⟨h, z, op, capb, sc, od, po, d, a, b, c, off⟩ := x
  simp only [Fields.atomOp, AtomOp.fields, Fields.hdr, AtomOp.mk.injEq, Sel.ofCodeD_code, memory_layout, imm_halves, true_and, and_true]
  refine ⟨?_, ?_, ?_⟩ <;>
    (revert capb op; cases z <;> decide)

theorem Fields.chkOp_fields (o : Op) (x : ChkOp) : (x.fields o).chkOp = x := by
  obtain ⟨h, z, perms, d, a, b, off⟩ := x
  simp only [Fields.chkOp, ChkOp.fields, Fields.hdr, ChkOp.mk.injEq, Sel.ofCodeD_code, imm_halves, true_and, and_true]
  refine ⟨?_, ?_⟩ <;> (revert perms; cases z <;> decide)

theorem Fields.fun_fields (o : Op) (x : Fun) : (x.fields o).fun = x := by
  cases x
  simp only [Fields.fun, Fun.fields, Fields.hdr, Sel.ofCodeD_code]

theorem Fields.brxOp_fields (o : Op) (x : BrxOp) : (x.fields o).brxOp = x := by
  obtain ⟨h, d, a, b, sl, imm⟩ := x
  have e : d.extractLsb' 8 8 ++ d.extractLsb' 0 8 = d := by
    rw [extract_join d 0 8 8]
    simp
  have e2 : (sl ++ 0#5).extractLsb' 5 3 = sl := by
    apply BitVec.eq_of_getLsbD_eq; intro i hi
    rw [BitVec.getLsbD_extractLsb', BitVec.getLsbD_append]
    simp [hi]
  simp only [Fields.brxOp, BrxOp.fields, Fields.hdr, Sel.ofCodeD_code, e, e2]

end Sys2Proof
end

