-- ==== Sys2Proof/Laws/Memory.lean ====
section
/-! SUPPORT. Memory: reads after writes, the canonical form, and that an access changes no byte but those it stores and
those an L1 writes back. -/

namespace Sys2Proof.Machine

/-! ### Bytes -/

theorem Sys.byte_setByte (y : Sys) (pa : Nat) (b : Byte) (a : Nat) :
    (y.setByte pa b).byte a = if a = pa then b else y.byte a := by
  unfold Sys.byte Sys.setByte
  dsimp only
  split
  · next h => subst h; exact Sparse.get_put_same ..
  · next h => exact Sparse.get_put_other _ _ _ _ _ h

/-- A byte after a run of bytes is written. -/
theorem Sys.byte_setBytes (y : Sys) (pa : Nat) (l : List Byte) (a : Nat) :
    (y.setBytes pa l).byte a = if pa ≤ a ∧ a < pa + l.length then l.getD (a - pa) 0 else y.byte a := by
  induction l generalizing y pa with
  | nil => simp [Sys.setBytes]
  | cons b t ih =>
      simp only [Sys.setBytes]
      rw [ih, Sys.byte_setByte]
      simp only [List.length_cons]
      by_cases h : a = pa
      · subst h; simp
      · by_cases h2 : pa + 1 ≤ a ∧ a < pa + 1 + t.length
        · rw [if_pos h2, if_pos (by omega)]
          obtain ⟨k, hk⟩ : ∃ k, a - pa = k + 1 := ⟨a - pa - 1, by omega⟩
          rw [hk, show a - (pa + 1) = k by omega]; simp
        · rw [if_neg h2, if_neg h, if_neg (by omega)]

theorem Sys.bytes_length (y : Sys) (pa n : Nat) : (y.bytes pa n).length = n := by
  induction n generalizing pa with
  | zero => rfl
  | succ n ih => simp [Sys.bytes, ih]

theorem Sys.bytes_getD (y : Sys) (pa n i : Nat) (hi : i < n) : (y.bytes pa n).getD i 0 = y.byte (pa + i) := by
  induction n generalizing pa i with
  | zero => omega
  | succ n ih =>
      cases i with
      | zero => simp [Sys.bytes]
      | succ i => simp only [Sys.bytes, List.getD_cons_succ]; rw [ih (pa + 1) i (by omega)]; congr 1; omega

/-- What is read back is what was written. -/
theorem Sys.bytes_setBytes (y : Sys) (pa : Nat) (l : List Byte) : (y.setBytes pa l).bytes pa l.length = l := by
  apply List.ext_getElem
  · rw [Sys.bytes_length]
  · intro i h1 h2
    have := Sys.bytes_getD (y.setBytes pa l) pa l.length i h2
    rw [Sys.byte_setBytes, if_pos (by omega), Nat.add_sub_cancel_left] at this
    rw [← List.getD_eq_getElem (d := 0) _ h1, ← List.getD_eq_getElem (d := 0) _ h2]
    exact this

theorem Sys.setBytes_cores (y : Sys) (pa : Nat) (l : List Byte) : (y.setBytes pa l).cores = y.cores := by
  induction l generalizing y pa with
  | nil => rfl
  | cons b t ih => simp only [Sys.setBytes]; rw [ih]; rfl

/-! ### The canonical form -/

theorem Sys.wf_setByte (y : Sys) (pa : Nat) (b : Byte) (h : Memory.wf y.mem = true) :
    Memory.wf (y.setByte pa b).mem = true := Sparse.wf_put _ _ _ _ h

theorem Sys.wf_setBytes (y : Sys) (pa : Nat) (l : List Byte) (h : Memory.wf y.mem = true) :
    Memory.wf (y.setBytes pa l).mem = true := by
  induction l generalizing y pa with
  | nil => exact h
  | cons b t ih => exact ih _ _ (y.wf_setByte pa b h)

theorem reset_wf : Memory.wf State.reset.sys.mem = true := rfl

/-! ### Masked bytes -/

theorem foldl_setByte_cores (y : Sys) (pa : Nat) (d : BitVec 1024) (l : List Nat) :
    (l.foldl (fun (y : Sys) i => y.setByte (pa + i) (lineByte d i)) y).cores = y.cores := by
  induction l generalizing y with
  | nil => rfl
  | cons i t ih => simp only [List.foldl_cons]; rw [ih]; rfl

theorem foldl_setByte_byte (y : Sys) (pa : Nat) (d : BitVec 1024) (l : List Nat) (a : Nat) :
    (l.foldl (fun (y : Sys) i => y.setByte (pa + i) (lineByte d i)) y).byte a = y.byte a ∨
    ∃ i ∈ l, a = pa + i ∧ (l.foldl (fun (y : Sys) i => y.setByte (pa + i) (lineByte d i)) y).byte a = lineByte d i := by
  induction l generalizing y with
  | nil => exact .inl rfl
  | cons i t ih =>
      simp only [List.foldl_cons]
      rcases ih (y.setByte (pa + i) (lineByte d i)) with h | ⟨j, hj, ha, hb⟩
      · rw [Sys.byte_setByte] at h
        split at h
        · next e => exact .inr ⟨i, List.mem_cons_self .., e, h⟩
        · exact .inl h
      · exact .inr ⟨j, List.mem_cons_of_mem _ hj, ha, hb⟩

theorem foldl_setTag (y : Sys) (pa : Nat) (tags : BitVec 8) (l : List Nat) :
    (l.foldl (fun (y : Sys) g => if tags.getLsbD g then y.setTag (pa + 16 * g) true else y) y).mem = y.mem ∧
    (l.foldl (fun (y : Sys) g => if tags.getLsbD g then y.setTag (pa + 16 * g) true else y) y).cores = y.cores := by
  induction l generalizing y with
  | nil => exact ⟨rfl, rfl⟩
  | cons g t ih =>
      simp only [List.foldl_cons]
      obtain ⟨h1, h2⟩ := ih (if tags.getLsbD g then y.setTag (pa + 16 * g) true else y)
      rw [h1, h2]
      split <;> exact ⟨rfl, rfl⟩

theorem mem_bitList (n x i : Nat) : i ∈ bitList n x ↔ i < n ∧ x.testBit i = true := by
  unfold bitList
  simp [Nat.testBit_eq_decide_div_mod_eq]

/-- A masked write changes bytes of the mask only, each to the line's byte. -/
theorem Sys.writeMasked_byte (y : Sys) (pa : Nat) (d : BitVec 1024) (m : BitVec 128) (tags : BitVec 8) (a : Nat) :
    (y.writeMasked pa d m tags).byte a = y.byte a ∨
    ∃ i, i < 128 ∧ m.getLsbD i = true ∧ a = pa + i ∧ (y.writeMasked pa d m tags).byte a = lineByte d i := by
  have hb : ∀ z : Sys, z.mem = ((bitList 128 m.toNat).foldl (fun (y : Sys) i => y.setByte (pa + i) (lineByte d i)) y).mem →
      z.byte a = ((bitList 128 m.toNat).foldl (fun (y : Sys) i => y.setByte (pa + i) (lineByte d i)) y).byte a := by
    intro z hz; unfold Sys.byte; rw [hz]
  have h := hb (y.writeMasked pa d m tags) (foldl_setTag _ pa tags _).1
  rw [h]
  rcases foldl_setByte_byte y pa d (bitList 128 m.toNat) a with h1 | ⟨i, hi, h2, h3⟩
  · exact .inl h1
  · rw [mem_bitList] at hi
    exact .inr ⟨i, hi.1, by rw [BitVec.getLsbD]; exact hi.2, h2, h3⟩

theorem Sys.writeMasked_cores (y : Sys) (pa : Nat) (d : BitVec 1024) (m : BitVec 128) (tags : BitVec 8) :
    (y.writeMasked pa d m tags).cores = y.cores := by
  unfold Sys.writeMasked
  dsimp only
  rw [(foldl_setTag _ pa tags _).2, foldl_setByte_cores]

/-! ### What an access leaves alone -/

/-- Memory keeps every byte outside `stored` or takes it from an L1 that held it dirty, and no L1 gains dirty bytes
outside `stored`. -/
def Sys.Flows (stored : Nat → Prop) (y z : Sys) : Prop :=
  (∀ a, ¬stored a → z.byte a = y.byte a ∨ y.Dirty a (z.byte a)) ∧ ∀ a b, z.Dirty a b → y.Dirty a b ∨ stored a

theorem Sys.Flows.refl (st : Nat → Prop) (y : Sys) : Sys.Flows st y y := ⟨fun _ _ => .inl rfl, fun _ _ h => .inl h⟩

theorem Sys.Flows.trans {st : Nat → Prop} {x y z : Sys} (h : Sys.Flows st x y) (h' : Sys.Flows st y z) :
    Sys.Flows st x z := by
  refine ⟨fun a ha => ?_, fun a b hd => ?_⟩
  · rcases h'.1 a ha with e | d
    · rw [e]; exact h.1 a ha
    · rcases h.2 a _ d with d' | s
      · exact .inr d'
      · exact absurd s ha
  · rcases h'.2 a b hd with d | s
    · exact h.2 a b d
    · exact .inr s

/-- Equal memory and equal L1s. -/
def Sys.Same (y z : Sys) : Prop := z.mem = y.mem ∧ ∀ c, (z.core c).l1 = (y.core c).l1

theorem Sys.Same.refl (y : Sys) : Sys.Same y y := ⟨rfl, fun _ => rfl⟩
theorem Sys.Same.trans {x y z : Sys} (h : Sys.Same x y) (h' : Sys.Same y z) : Sys.Same x z :=
  ⟨h'.1.trans h.1, fun c => (h'.2 c).trans (h.2 c)⟩
theorem Sys.Same.cores {y z : Sys} (hm : z.mem = y.mem) (hc : z.cores = y.cores) : Sys.Same y z :=
  ⟨hm, fun c => by unfold Sys.core; rw [hc]⟩
theorem Sys.Same.dir {y z : Sys} (h : Sys.Same y z) (d : Sparse DirEntry) : Sys.Same y { z with dir := d } :=
  h.trans (.cores rfl rfl)
theorem Sys.Same.flows (st : Nat → Prop) {y z : Sys} (h : Sys.Same y z) : Sys.Flows st y z := by
  refine ⟨fun a _ => .inl (by unfold Sys.byte; rw [h.1]), fun a b hd => .inl ?_⟩
  unfold Sys.Dirty at *
  simp only [h.2] at hd
  exact hd
theorem Sys.Same.ite {y z u : Sys} {c : Prop} [Decidable c] (hz : Sys.Same y z) (hu : Sys.Same y u) :
    Sys.Same y (if c then z else u) := by split <;> assumption

/-- What holds of every step of a fold holds of the fold. -/
theorem foldl_same {α β : Type} (g : β → Sys) (f : β → α → β) (hf : ∀ b x, Sys.Same (g b) (g (f b x))) (l : List α) (b : β) :
    Sys.Same (g b) (g (l.foldl f b)) := by
  induction l generalizing b with
  | nil => exact .refl _
  | cons x t ih => exact (hf b x).trans (ih _)

theorem Sys.core_updCore (y : Sys) (c : Nat) (f : Core → Core) (c' : Nat) :
    (y.updCore c f).core c' = if c' = c then f (y.core c) else y.core c' := by
  unfold Sys.updCore Sys.core Sparse.upd
  dsimp only
  split
  · next h => subst h; exact Sparse.get_put_same ..
  · next h => exact Sparse.get_put_other _ _ _ _ _ h

/-- Equal memory, and every line of a core's new L1 is dirty where an old one was, with its bytes, or where bytes are
stored. -/
theorem Sys.Flows.l1 (st : Nat → Prop) (y : Sys) (c : Nat) (f : Core → Core)
    (h : ∀ x ∈ (f (y.core c)).l1, ∀ i, i < 128 → x.dirty.getLsbD i = true →
      y.Dirty (x.pa + i) (lineByte x.data i) ∨ st (x.pa + i)) : Sys.Flows st y (y.updCore c f) := by
  refine ⟨fun a _ => .inl rfl, fun a b hd => ?_⟩
  obtain ⟨c', x, hx, i, hi, hb, ha, hv⟩ := hd
  rw [Sys.core_updCore] at hx
  split at hx
  · rw [ha, hv]; exact h x hx i hi hb
  · exact .inl ⟨c', x, hx, i, hi, hb, ha, hv⟩

theorem Sys.flows_l1Drop (st : Nat → Prop) (y : Sys) (c : Nat) (asid : Asid) (line : Nat) :
    Sys.Flows st y (y.l1Drop c asid line) := by
  refine .l1 st y c _ fun x hx i hi hb => .inl ⟨c, x, (List.mem_filter.1 hx).1, i, hi, hb, rfl, rfl⟩

theorem Sys.flows_l1Put (st : Nat → Prop) (y : Sys) (c : Nat) (l : L1Line)
    (h : ∀ i, i < 128 → l.dirty.getLsbD i = true → y.Dirty (l.pa + i) (lineByte l.data i) ∨ st (l.pa + i)) :
    Sys.Flows st y (y.l1Put c l) := by
  unfold Sys.l1Put Sys.l1Drop
  rw [show ∀ f g : Core → Core, (y.updCore c f).updCore c g = (y.updCore c f).updCore c g from fun _ _ => rfl]
  have h1 := Sys.flows_l1Drop st y c l.asid l.line
  unfold Sys.l1Drop at h1
  refine ⟨fun a ha => .inl rfl, fun a b hd => ?_⟩
  obtain ⟨c', x, hx, i, hi, hb, ha, hv⟩ := hd
  rw [Sys.core_updCore] at hx
  split at hx
  · rcases List.mem_cons.1 hx with rfl | hx
    · rw [ha, hv]; exact h i hi hb
    · exact h1.2 a b ⟨c, x, hx, i, hi, hb, ha, hv⟩
  · exact h1.2 a b ⟨c', x, hx, i, hi, hb, ha, hv⟩

/-! ### The directory changes no byte and no L1 -/

theorem Sys.same_setEntry (y : Sys) (asid : Asid) (line : Nat) (e : DirEntry) : Sys.Same y (y.setEntry asid line e) :=
  .cores rfl rfl

/-- A write to a line with an error may add to a side log (R107). -/
theorem Sys.same_logBad (y : Sys) (w : Who) (asid : Asid) (pa : Nat) (lanes : List LogLane) :
    Sys.Same y (y.logBad w asid pa lanes) := by
  unfold Sys.logBad
  split
  · refine ⟨rfl, fun c => ?_⟩
    rw [Sys.core_updCore]
    split
    · next h => subst h; rfl
    · rfl
  · exact .refl y

theorem Sys.same_toMemory (y : Sys) (w : Who) (key : Nat) (m : BitVec 128) : Sys.Same y (y.toMemory w key m) := by
  unfold Sys.toMemory
  exact (y.same_logBad ..).dir _

theorem Sys.same_makeWay (y : Sys) (evict : Nat → Sys → Sys) (he : ∀ k z, Sys.Same z (evict k z)) (cache line : Nat) :
    Sys.Same y (y.makeWay evict cache line) := by
  unfold Sys.makeWay
  dsimp only
  split
  · exact .refl y
  · split
    · exact .refl y
    · exact he _ _

theorem Sys.same_fillWith (y : Sys) (evict : Nat → Sys → Sys) (he : ∀ k z, Sys.Same z (evict k z)) (cache key pa : Nat)
    (c : Copy) : Sys.Same y (y.fillWith evict cache key pa c) := by
  unfold Sys.fillWith
  exact (Sys.Same.ite (.refl y) (y.same_makeWay evict he _ _)).trans (.cores rfl rfl)

theorem Sys.same_evictSlice (y : Sys) (w : Who) (die key : Nat) : Sys.Same y (y.evictSlice w die key) := by
  unfold Sys.evictSlice
  exact (Sys.Same.ite (y.same_toMemory ..) (.refl y)).dir _

theorem Sys.same_fillSlice (y : Sys) (w : Who) (die key pa : Nat) (c : Copy) : Sys.Same y (y.fillSlice w die key pa c) :=
  y.same_fillWith _ (fun _ z => z.same_evictSlice ..) _ _ _ _

theorem Sys.same_evictCluster (y : Sys) (w : Who) (k key : Nat) : Sys.Same y (y.evictCluster w k key) := by
  unfold Sys.evictCluster
  dsimp only
  split
  · exact (y.same_fillSlice ..).dir _
  · exact .cores rfl rfl

theorem Sys.same_fillCluster (y : Sys) (w : Who) (k key pa : Nat) (c : Copy) : Sys.Same y (y.fillCluster w k key pa c) :=
  y.same_fillWith _ (fun _ z => z.same_evictCluster ..) _ _ _ _

theorem Sys.same_gather (y : Sys) (w : Who) (key : Nat) : Sys.Same y (y.gather w key) := by
  unfold Sys.gather
  dsimp only
  split
  · exact .refl y
  · exact (y.same_fillSlice ..).dir _

theorem Sys.same_settle (y : Sys) (w : Who) (key : Nat) : Sys.Same y (y.settle w key) := by
  unfold Sys.settle
  dsimp only
  split
  · exact .refl y
  · exact (Sys.Same.cores rfl rfl).trans (Sys.same_fillSlice _ ..)

theorem Sys.same_dropV (y : Sys) (w : Who) (k : Nat) : Sys.Same y (y.dropV w k) :=
  foldl_same id _ (fun z _ => z.same_evictCluster ..) _ y

theorem State.sys_countLocate (s : State) (w : Who) (n : Nat) : (s.countLocate w n).sys = s.sys := by
  unfold State.countLocate State.updCrew
  split <;> (try split) <;> (try split) <;> rfl

theorem State.sys_countDemote (s : State) (w : Who) (n : Nat) : (s.countDemote w n).sys = s.sys := by
  unfold State.countDemote State.updCrew
  split <;> (try split) <;> (try split) <;> rfl

theorem State.same_dirRead (s : State) (w : Who) (l : Leaf) (policy va : Nat) (m : BitVec 128) :
    Sys.Same s.sys (s.dirRead w l policy va m).sys := by
  have near : ∀ y : Sys, Sys.Same y (if policy = 4 then y else
      y.fillCluster w w.cluster (dirKey w.asid (va / 128)) (l.line va) { rights := l.rights, keep := keepOf policy }) :=
    fun y => .ite (.refl y) (y.same_fillCluster ..)
  unfold State.dirRead
  dsimp only
  split
  · exact s.sys.same_fillCluster ..
  · split
    · exact ((s.sys.same_setEntry ..).trans (Sys.same_fillSlice _ ..)).trans (near _)
    · split
      · split <;> split <;> (try rw [State.sys_countDemote]) <;> first | exact .refl _ | exact near _
      · rw [State.sys_countLocate]; exact near _

theorem State.same_dirWrite (s : State) (w : Who) (l : Leaf) (policy va : Nat) (m : BitVec 128) :
    Sys.Same s.sys (s.dirWrite w l policy va m).sys := by
  unfold State.dirWrite
  dsimp only
  split
  · refine Sys.Same.trans (Sys.Same.ite ?_ ?_) (Sys.same_setEntry _ ..)
    · exact ((s.sys.same_gather ..).trans (Sys.same_fillSlice _ ..)).trans (Sys.same_setEntry _ ..)
    · exact ((s.sys.same_setEntry ..).trans (.ite (.refl _) (Sys.same_fillSlice _ ..))).trans (Sys.same_fillCluster _ ..)
  · split
    · exact s.sys.same_setEntry ..
    · rw [State.sys_countLocate]; exact s.sys.same_setEntry ..

theorem Sys.same_dirHome (y : Sys) (w : Who) (l : Leaf) (va : Nat) (m : BitVec 128) : Sys.Same y (y.dirHome w l va m) := by
  unfold Sys.dirHome
  dsimp only
  split
  · exact ((y.same_gather ..).trans (Sys.same_fillSlice _ ..)).trans (Sys.same_setEntry _ ..)
  · exact y.same_setEntry ..

theorem Sys.same_install (y : Sys) (w : Who) (key pa : Nat) (p : Parked) : Sys.Same y (y.install w key pa p) := by
  unfold Sys.install
  dsimp only
  generalize hz : List.foldl _ _ (p.place.stores (keyHome key)) = z
  have h1 : Sys.Same y z := by
    rw [← hz]
    refine Sys.Same.trans (Sys.Same.dir (.refl y) _) (foldl_same (fun z => z) _ (fun z c => ?_) _ _)
    split
    · exact .refl z
    · split
      · exact z.same_makeWay _ (fun _ u => u.same_evictCluster ..) _ _
      · exact z.same_makeWay _ (fun _ u => u.same_evictSlice ..) _ _
  have h2 := h1.trans (Sys.Same.cores (z := { z with
    dir := Sparse.put {} z.dir key { (Sparse.get {} z.dir key : DirEntry) with
      parked := some { p with age := z.parkSeq }
      pa := if (Sparse.get {} z.dir key : DirEntry).pa = 0 then pa else (Sparse.get {} z.dir key : DirEntry).pa }
    parkSeq := z.parkSeq + 1 }) rfl rfl)
  exact .ite (h2.trans (Sys.same_fillSlice _ ..)) h2

/-- Making a place free changes the directory alone, when a demotion does. -/
theorem Sys.same_free (demote : Sys → Nat → Nat → Parked → Sys) (hd : ∀ y st k q, Sys.Same y (demote y st k q))
    (next : Sys → Option (Option (Nat × Parked))) (store : Nat) (l : List Nat) (a : Sys × Option Bool) :
    Sys.Same a.1 (l.foldl (fun (a : Sys × Option Bool) _ =>
      match a.2 with
      | some _ => a
      | none =>
          match next a.1 with
          | none => (a.1, some true)
          | some none => (a.1, some false)
          | some (some (k, q)) => (demote a.1 store k q, none)) a).1 := by
  refine foldl_same Prod.fst _ (fun b _ => ?_) l a
  split
  · exact .refl _
  · split
    · exact .refl _
    · exact .refl _
    · exact hd ..

/-- Parking a line changes the directory alone. -/
theorem Sys.same_place (fuel : Nat) (y : Sys) (w : Who) (key pa : Nat) (bind : Bool) (p : Parked) :
    Sys.Same y (y.place w fuel key pa bind p) := by
  induction fuel generalizing y key pa bind p with
  | zero => exact (y.same_install ..).trans (Sys.same_settle _ ..)
  | succ fuel ih =>
      have hd : ∀ (y : Sys) (store k : Nat) (q : Parked), Sys.Same y
          (match q.place with
            | .replicas m => y.dropReplica k q m (store - 2000)
            | u =>
                match u.outward (keyHome k) with
                | none => y.settle w k
                | some o => y.place w fuel k (y.dir.get {} k).pa true { q with place := o }) := by
        intro y store k q
        split
        · exact .cores rfl rfl
        · split
          · exact y.same_settle ..
          · exact ih ..
      have hf := fun (y : Sys) (store : Nat) => Sys.same_free (fun y store k q =>
          match q.place with
            | .replicas m => y.dropReplica k q m (store - 2000)
            | u =>
                match u.outward (keyHome k) with
                | none => y.settle w k
                | some o => y.place w fuel k (y.dir.get {} k).pa true { q with place := o }) hd
        (fun y => y.demand (keyAsid key) (keyLine key) p.set store) store (List.range (y.dir.length + 2)) (y, none)
      rw [Sys.place]
      dsimp only
      split
      · refine Sys.Same.trans ?_ (Sys.same_install _ ..)
        exact foldl_same (fun a : Sys × List Nat => a.1) _ (fun a d => hf a.1 (sliceOf d)) _ (y, [])
      · split
        · exact (hf y _).trans (Sys.same_install _ ..)
        · split
          · exact ((hf y _).trans (Sys.same_install _ ..)).trans (Sys.same_settle _ ..)
          · exact (hf y _).trans (ih ..)

theorem State.flows_dirRead (st : Nat → Prop) (s : State) (w : Who) (l : Leaf) (policy va : Nat) (m : BitVec 128) :
    Sys.Flows st s.sys (s.dirRead w l policy va m).sys := (s.same_dirRead ..).flows st
theorem State.flows_dirWrite (st : Nat → Prop) (s : State) (w : Who) (l : Leaf) (policy va : Nat) (m : BitVec 128) :
    Sys.Flows st s.sys (s.dirWrite w l policy va m).sys := (s.same_dirWrite ..).flows st

theorem Sys.same_l1 {y z : Sys} (h : Sys.Same y z) {a : Nat} {b : Byte} : z.Dirty a b ↔ y.Dirty a b := by
  unfold Sys.Dirty; simp only [h.2]

/-- A line of some L1 goes back to memory. -/
theorem State.flows_writeBack (st : Nat → Prop) (s : State) (w : Who) (l : L1Line)
    (hl : ∀ i, i < 128 → l.dirty.getLsbD i = true → s.sys.Dirty (l.pa + i) (lineByte l.data i)) :
    Sys.Flows st s.sys (s.writeBack w l).sys := by
  unfold State.writeBack
  split
  · exact .refl st _
  · split
    · exact (s.sys.same_logBad ..).flows st
    · dsimp only
      have hd := s.same_dirWrite { w with asid := l.asid } l.leaf 0 (l.line * 128) l.dirty
      generalize (s.dirWrite { w with asid := l.asid } l.leaf 0 (l.line * 128) l.dirty) = u at hd
      refine ⟨fun a _ => ?_, fun a b h => .inl ?_⟩
      · rcases u.sys.writeMasked_byte l.pa l.data l.dirty l.tags a with h | ⟨i, hi, hb, ha, hv⟩
        · left; rw [h]; unfold Sys.byte; rw [hd.1]
        · right; rw [hv, ha]; exact hl i hi hb
      · refine (Sys.same_l1 hd).1 ?_
        unfold Sys.Dirty Sys.core at *
        rw [Sys.writeMasked_cores] at h
        exact h

theorem Sys.dirty_of_mem (y : Sys) (c : Nat) (x : L1Line) (hx : x ∈ (y.core c).l1) (i : Nat) (hi : i < 128)
    (hb : x.dirty.getLsbD i = true) : y.Dirty (x.pa + i) (lineByte x.data i) := ⟨c, x, hx, i, hi, hb, rfl, rfl⟩

theorem victim_mem (set : Nat) (l : List L1Line) (v : L1Line) (h : victim set l = some v) : v ∈ l := by
  unfold victim at h
  dsimp only at h
  split at h
  · simp at h
  · have := List.mem_of_getLast? h
    exact (List.mem_filter.1 (List.mem_filter.1 this).1).1

theorem State.flows_l1Trim (st : Nat → Prop) (s : State) (w : Who) (c line ways : Nat) :
    Sys.Flows st s.sys (s.l1Trim w c line ways).sys := by
  unfold State.l1Trim
  dsimp only
  split
  · exact .refl st _
  · split
    · exact .refl st _
    · next v hv =>
        exact (s.flows_writeBack st _ v fun i hi hb => s.sys.dirty_of_mem _ v (victim_mem _ _ _ hv) i hi hb).trans
          (Sys.flows_l1Drop st _ _ _ _)

theorem State.flows_l1Room (st : Nat → Prop) (s : State) (w : Who) (line : Nat) :
    Sys.Flows st s.sys (s.l1Room w line).sys := s.flows_l1Trim st w _ _ _

theorem Sys.l1Find_mem (y : Sys) (c : Nat) (asid : Asid) (line : Nat) (x : L1Line) (h : y.l1Find c asid line = some x) :
    x ∈ (y.core c).l1 := List.mem_of_find?_eq_some h

theorem State.flows_l1Expel (st : Nat → Prop) (s : State) (w : Who) (c : Nat) (asid : Asid) (line : Nat) :
    Sys.Flows st s.sys (s.l1Expel w c asid line).sys := by
  unfold State.l1Expel
  split
  · exact .refl st _
  · next x hx =>
      exact (s.flows_writeBack st _ x fun i hi hb => s.sys.dirty_of_mem _ x (s.sys.l1Find_mem _ _ _ x hx) i hi hb).trans
        (Sys.flows_l1Drop st _ _ _ _)

/-! ### Lines -/

theorem fromBytes_testBit (l : List Byte) (k r : Nat) (hr : r < 8) :
    (fromBytes l).testBit (8 * k + r) = (l.getD k 0).getLsbD r := by
  induction l generalizing k with
  | nil => simp [fromBytes]
  | cons b t ih =>
      have hb : b.toNat < 2 ^ 8 := b.isLt
      rw [fromBytes, show b.toNat + 256 * fromBytes t = 2 ^ 8 * fromBytes t + b.toNat by omega,
        Nat.testBit_two_pow_mul_add _ hb]
      cases k with
      | zero => simp [hr, BitVec.getLsbD]
      | succ k =>
          rw [if_neg (by omega), show 8 * (k + 1) + r - 8 = 8 * k + r by omega, ih k]
          simp

theorem fromBytes_lt (l : List Byte) : fromBytes l < 2 ^ (8 * l.length) := by
  induction l with
  | nil => simp [fromBytes]
  | cons b t ih =>
      have hb := b.isLt
      rw [fromBytes, List.length_cons, show 8 * (t.length + 1) = 8 + 8 * t.length by omega, Nat.pow_add]
      omega

/-- A byte of a line after bytes are written into it. -/
theorem lineByte_lineWrite (d : BitVec 1024) (off : Nat) (b : List Byte) (i : Nat) (hi : i < 128) :
    lineByte (lineWrite d off b) i = if off ≤ i ∧ i < off + b.length then b.getD (i - off) 0 else lineByte d i := by
  apply BitVec.eq_of_getLsbD_eq
  intro r hr
  have hj : 8 * i + r < 1024 := by omega
  have hm : (BitVec.ofNat 1024 ((2 ^ (8 * b.length) - 1) * 2 ^ (8 * off))).getLsbD (8 * i + r) =
      decide (off ≤ i ∧ i < off + b.length) := by
    rw [BitVec.getLsbD_ofNat, Nat.testBit_mul_two_pow, Nat.testBit_two_pow_sub_one]
    simp only [hj, decide_true, Bool.true_and, ← Bool.decide_and]
    congr 1
    simp only [eq_iff_iff]
    omega
  have hn : (BitVec.ofNat 1024 (fromBytes b * 2 ^ (8 * off))).getLsbD (8 * i + r) =
      (decide (off ≤ i) && (b.getD (i - off) 0).getLsbD r) := by
    rw [BitVec.getLsbD_ofNat, Nat.testBit_mul_two_pow]
    simp only [hj, decide_true, Bool.true_and]
    by_cases h : off ≤ i
    · rw [show 8 * i + r - 8 * off = 8 * (i - off) + r by omega, fromBytes_testBit _ _ _ hr]
      simp [h]; omega
    · have : ¬8 * off ≤ 8 * i + r := by omega
      simp [h, this]
  unfold lineByte lineWrite
  rw [BitVec.getLsbD_extractLsb', BitVec.getLsbD_or, BitVec.getLsbD_and, BitVec.getLsbD_not, hm, hn]
  by_cases h : off ≤ i ∧ i < off + b.length
  · simp [h, hr]
  · rw [if_neg h, BitVec.getLsbD_extractLsb']
    by_cases h1 : off ≤ i
    · have h2 : b.length ≤ i - off := by omega
      have h3 : ¬i < off + b.length := by omega
      simp [h1, hj, hr, h3, List.getElem?_eq_none h2]
    · simp [h1, hj, hr]

/-- Bytes of one line written one by one over another. -/
theorem lineByte_overlay (x : BitVec 1024) (l : List Nat) (d : BitVec 1024) (i : Nat) (hi : i < 128)
    (hl : ∀ j ∈ l, j < 128) :
    lineByte (l.foldl (fun (d : BitVec 1024) j => lineWrite d j [lineByte x j]) d) i =
      if i ∈ l then lineByte x i else lineByte d i := by
  induction l generalizing d with
  | nil => simp
  | cons j t ih =>
      simp only [List.foldl_cons]
      rw [ih _ fun k hk => hl k (List.mem_cons_of_mem _ hk)]
      by_cases h : i ∈ t
      · simp [h]
      · rw [if_neg h, lineByte_lineWrite _ _ _ _ hi]
        by_cases hij : i = j
        · subst hij; simp
        · rw [if_neg (by simp; omega), if_neg (by simp [h, hij])]

theorem State.same_peerRead (s : State) (peer addr n : Nat) : Sys.Same s.sys (s.peerRead peer addr n).2.sys := by
  unfold State.peerRead
  dsimp only
  split
  · exact .refl _
  · split
    · exact .refl _
    · exact .cores rfl rfl

theorem State.flows_readPart (st : Nat → Prop) (s : State) (w : Who) (l : Leaf) (policy va n : Nat) :
    Sys.Flows st s.sys (s.readPart w l policy va n).2.sys := by
  have hd := s.flows_dirRead st w l policy va (byteMask (va % 128) n)
  have hc := s.same_dirRead w l policy va (byteMask (va % 128) n)
  unfold State.readPart
  dsimp only
  split
  · split
    · exact (s.same_peerRead ..).flows st
    · exact .refl st _
  · split
    · exact hd
    · split
      · next x hx =>
          have hmem := s.sys.l1Find_mem _ _ _ x hx
          have hdirty := fun i hi hb => (Sys.same_l1 hc).2 (s.sys.dirty_of_mem _ x hmem i hi hb)
          split
          · exact Sys.flows_l1Put st _ _ _ fun i hi hb => .inl (s.sys.dirty_of_mem _ x hmem i hi hb)
          · split
            · refine hd.trans ?_
              unfold Sys.l1Stale
              split
              · exact Sys.flows_l1Drop st _ _ _ _
              · exact Sys.flows_l1Put st _ _ _ fun i hi hb => .inl (hdirty i hi hb)
            · refine hd.trans (Sys.flows_l1Put st _ _ _ fun i hi hb => .inl ?_)
              dsimp only at hb ⊢
              have hin : i ∈ bitList 128 x.dirty.toNat := by
                rw [mem_bitList]; exact ⟨hi, by rw [BitVec.getLsbD] at hb; exact hb⟩
              rw [lineByte_overlay _ _ _ _ hi (fun j hj => ((mem_bitList _ _ _).1 hj).1), if_pos hin]
              exact hdirty i hi hb
      · split
        · exact .refl st _
        · split
          · exact hd
          · refine (hd.trans (State.flows_l1Room st _ w _)).trans (Sys.flows_l1Put st _ _ _ fun i hi hb => ?_)
            simp at hb

theorem Sys.same_translate (y : Sys) (asid : Asid) (va : Nat) (acc : Access) (priv : Bool)
    (r : Leaf × Sys) (h : y.translate asid va acc priv = .ok r) : Sys.Same y r.2 := by
  unfold Sys.translate at h
  split at h
  · split at h
    · simp at h
    · simp only [Except.ok.injEq] at h; exact h ▸ .refl y
  · unfold Sys.walkFill at h
    split at h
    · simp at h
    · split at h
      · simp at h
      · split at h
        · simp at h
        · next z hz =>
            simp only [Except.ok.injEq] at h
            subst h
            have this : z.mem = y.mem ∧ z.cores = y.cores := by
              unfold Sys.recordFill at hz
              dsimp only at hz
              split at hz
              · simp only [Except.ok.injEq] at hz; exact hz ▸ ⟨rfl, rfl⟩
              · split at hz
                · split at hz
                  · simp at hz
                  · simp only [Except.ok.injEq] at hz; exact hz ▸ ⟨rfl, rfl⟩
                · split at hz
                  · simp at hz
                  · simp only [Except.ok.injEq] at hz; exact hz ▸ ⟨rfl, rfl⟩
            exact .cores this.1 this.2

theorem State.same_viaHome (s : State) (w : Who) (acc : Access) (va : Nat) (r : Leaf × State)
    (h : s.viaHome w acc va = .ok r) : Sys.Same s.sys r.2.sys := by
  unfold State.viaHome at h
  split at h
  · simp at h
  · next l y hy =>
      have hf := s.sys.same_translate _ _ _ _ _ hy
      dsimp only at h
      split at h
      · simp only [Except.ok.injEq] at h; exact h ▸ hf
      · split at h
        · simp only [Except.ok.injEq] at h; exact h ▸ hf
        · split at h
          · simp at h
          · split at h
            · simp at h
            · simp only [Except.ok.injEq] at h; exact h ▸ hf

theorem State.same_page (s : State) (w : Who) (acc : Access) (va : Nat) (r : Leaf × State)
    (h : s.page w acc va = .ok r) : Sys.Same s.sys r.2.sys := by
  unfold State.page at h
  split at h
  · exact s.same_viaHome w acc va r h
  · split at h
    · simp only [Except.ok.injEq] at h; exact h ▸ .refl _
    · split at h
      · simp at h
      · next l' t ht =>
          have h1 := s.same_viaHome w acc va _ ht
          simp only [Except.ok.injEq] at h
          subst h
          dsimp only
          split
          · exact h1.trans (Sys.same_setEntry _ ..)
          · exact h1

theorem State.same_leaf (s : State) (w : Who) (acc : Access) (va n : Nat) (r : Leaf × State)
    (h : s.leaf w acc va n = .ok r) : Sys.Same s.sys r.2.sys := s.same_page w acc va r (s.leaf_page w acc va n r h)

theorem State.flows_leaf (st : Nat → Prop) (s : State) (w : Who) (acc : Access) (va n : Nat) (r : Leaf × State)
    (h : s.leaf w acc va n = .ok r) : Sys.Flows st s.sys r.2.sys := (s.same_leaf w acc va n r h).flows st

theorem State.flows_leaves (st : Nat → Prop) (s : State) (w : Who) (acc : Access) (parts : List (Nat × Nat))
    (r : List (Nat × Nat × Leaf)) (t : State) (h : s.leaves w acc parts = .ok (r, t)) : Sys.Flows st s.sys t.sys := by
  induction parts generalizing s r with
  | nil => simp only [State.leaves, Except.ok.injEq, Prod.mk.injEq] at h; rw [← h.2]; exact .refl st _
  | cons p rest ih =>
      simp only [State.leaves] at h
      split at h
      · simp at h
      · next l s1 h1 =>
          split at h
          · simp at h
          · next ls s2 h2 =>
              simp only [Except.ok.injEq, Prod.mk.injEq] at h
              obtain ⟨-, rfl⟩ := h
              exact (s.flows_leaf st w acc p.1 p.2 (l, s1) h1).trans (ih s1 ls h2)

theorem State.flows_readyLanes (st : Nat → Prop) (s : State) (w : Who) (acc : Access) (ts : List (Nat × Target))
    (r : List (Nat × Ready)) (t : State) (h : s.readyLanes w acc ts = .ok (r, t)) : Sys.Flows st s.sys t.sys := by
  induction ts generalizing s r with
  | nil => simp only [State.readyLanes, Except.ok.injEq, Prod.mk.injEq] at h; rw [← h.2]; exact .refl st _
  | cons p rest ih =>
      obtain ⟨i, q⟩ := p
      simp only [State.readyLanes] at h
      split at h
      · simp at h
      · next x s1 h1 =>
          have ht1 : Sys.Flows st s.sys s1.sys := by
            split at h1
            · simp only [Except.ok.injEq, Prod.mk.injEq] at h1; rw [← h1.2]; exact .refl st _
            · split at h1
              · simp at h1
              · next ls s2 h2 =>
                  simp only [Except.ok.injEq, Prod.mk.injEq] at h1
                  rw [← h1.2]
                  exact s.flows_leaves st w acc _ ls s2 h2
          split at h
          · simp at h
          · next rs s2 h2 =>
              simp only [Except.ok.injEq, Prod.mk.injEq] at h
              obtain ⟨-, rfl⟩ := h
              exact ht1.trans (ih s1 rs h2)

theorem State.flows_readParts (st : Nat → Prop) (s : State) (w : Who) (policy : Nat) (parts : List (Nat × Nat × Leaf)) :
    Sys.Flows st s.sys (s.readParts w policy parts).2.sys := by
  induction parts generalizing s with
  | nil => exact .refl st _
  | cons p rest ih =>
      obtain ⟨va, n, l⟩ := p
      simp only [State.readParts]
      exact (s.flows_readPart st w l policy va n).trans (ih _)

theorem State.updGang_sys (s : State) (id : Nat) (f : Gang → Gang) : (s.updGang id f).sys = s.sys := by
  unfold State.updGang; split <;> (try split) <;> rfl

theorem State.flows_loadLanes (st : Nat → Prop) (s : State) (w : Who) (policy size : Nat) (rs : List (Nat × Ready)) :
    Sys.Flows st s.sys (s.loadLanes w policy size rs).2.sys := by
  induction rs generalizing s with
  | nil => exact .refl st _
  | cons p rest ih =>
      obtain ⟨i, r⟩ := p
      simp only [State.loadLanes]
      have h : ∀ q : Loaded × State, Sys.Flows st s.sys q.2.sys →
          Sys.Flows st s.sys (q.2.loadLanes w policy size rest).2.sys := fun q hq => hq.trans (ih _)
      split
      · exact h (_, _) (s.flows_readParts st w policy _)
      · split
        · exact h (_, _) (by unfold State.noteOff; rw [State.updGang_sys]; exact .refl st _)
        · exact h (_, s) (.refl st _)

theorem State.flows_acquire (st : Nat → Prop) (s : State) (w : Who) (scope : Nat) :
    Sys.Flows st s.sys (s.acquire w scope).sys := by
  unfold State.acquire
  dsimp only
  generalize hu : (ite (scope = 6) _ s : State) = u
  have h1 : Sys.Flows st s.sys u.sys := by
    rw [← hu]; split
    · exact (Sys.Same.cores rfl rfl).flows st
    · exact .refl st _
  split
  · refine h1.trans (Sys.Flows.l1 st _ _ _ fun x hx i hi hb => .inl ?_)
    obtain ⟨y, hy, rfl⟩ := List.mem_map.1 hx
    exact u.sys.dirty_of_mem _ y (List.mem_filter.1 hy).1 i hi hb
  · exact h1

/-! ### Stores -/

/-- Every L1 line of a core in the second state stood in the first. -/
def Sys.FewerLines (c : Nat) (y z : Sys) : Prop :=
  ∀ x ∈ (z.core c).l1, ∃ x' ∈ (y.core c).l1, x'.asid = x.asid ∧ x'.line = x.line ∧ x'.pa = x.pa

theorem Sys.FewerLines.refl (c : Nat) (y : Sys) : Sys.FewerLines c y y := fun x hx => ⟨x, hx, rfl, rfl, rfl⟩
theorem Sys.FewerLines.trans {c : Nat} {x y z : Sys} (h : Sys.FewerLines c x y) (h' : Sys.FewerLines c y z) :
    Sys.FewerLines c x z := fun a ha => by
  obtain ⟨b, hb, e1, e2, e3⟩ := h' a ha
  obtain ⟨d, hd, f1, f2, f3⟩ := h b hb
  exact ⟨d, hd, f1.trans e1, f2.trans e2, f3.trans e3⟩
theorem Sys.Same.fewer (c : Nat) {y z : Sys} (h : Sys.Same y z) : Sys.FewerLines c y z := by
  intro x hx
  rw [h.2] at hx
  exact ⟨x, hx, rfl, rfl, rfl⟩

theorem State.writeBack_l1 (s : State) (w : Who) (l : L1Line) (c : Nat) :
    ((s.writeBack w l).sys.core c).l1 = (s.sys.core c).l1 := by
  unfold State.writeBack
  split
  · rfl
  · split
    · exact (s.sys.same_logBad ..).2 c
    · dsimp only
      rw [← (s.same_dirWrite { w with asid := l.asid } l.leaf 0 (l.line * 128) l.dirty).2 c]
      unfold Sys.core
      rw [Sys.writeMasked_cores]

theorem Sys.fewer_l1Drop (c' : Nat) (y : Sys) (c : Nat) (asid : Asid) (line : Nat) :
    Sys.FewerLines c' y (y.l1Drop c asid line) := by
  intro x hx
  unfold Sys.l1Drop at hx
  rw [Sys.core_updCore] at hx
  split at hx
  · next h => subst h; exact ⟨x, (List.mem_filter.1 hx).1, rfl, rfl, rfl⟩
  · exact ⟨x, hx, rfl, rfl, rfl⟩

theorem State.fewer_writeBack (c : Nat) (s : State) (w : Who) (l : L1Line) :
    Sys.FewerLines c s.sys (s.writeBack w l).sys := by
  intro x hx
  rw [s.writeBack_l1] at hx
  exact ⟨x, hx, rfl, rfl, rfl⟩

theorem State.fewer_l1Expel (c' : Nat) (s : State) (w : Who) (c : Nat) (asid : Asid) (line : Nat) :
    Sys.FewerLines c' s.sys (s.l1Expel w c asid line).sys := by
  unfold State.l1Expel
  split
  · exact .refl _ _
  · exact (s.fewer_writeBack c' _ _).trans (Sys.fewer_l1Drop _ _ _ _ _)

theorem State.fewer_l1Trim (c' : Nat) (s : State) (w : Who) (c line ways : Nat) :
    Sys.FewerLines c' s.sys (s.l1Trim w c line ways).sys := by
  unfold State.l1Trim
  dsimp only
  split
  · exact .refl _ _
  · split
    · exact .refl _ _
    · exact (s.fewer_writeBack c' _ _).trans (Sys.fewer_l1Drop _ _ _ _ _)

theorem State.fewer_l1Room (c' : Nat) (s : State) (w : Who) (line : Nat) :
    Sys.FewerLines c' s.sys (s.l1Room w line).sys := s.fewer_l1Trim c' w _ _ _

theorem Sys.flows_setBytes (st : Nat → Prop) (y : Sys) (pa : Nat) (l : List Byte)
    (h : ∀ a, pa ≤ a → a < pa + l.length → st a) : Sys.Flows st y (y.setBytes pa l) := by
  refine ⟨fun a ha => .inl ?_, fun a b hd => .inl ?_⟩
  · rw [Sys.byte_setBytes, if_neg]
    rintro ⟨h1, h2⟩
    exact ha (h a h1 h2)
  · unfold Sys.Dirty Sys.core at *
    rw [Sys.setBytes_cores] at hd
    exact hd

theorem Sys.cores_putBytes (y : Sys) (pa : Nat) (data : List Byte) (tag : Bool) : (y.putBytes pa data tag).cores = y.cores := by
  unfold Sys.putBytes
  dsimp only
  split <;> exact Sys.setBytes_cores _ _ _

theorem Sys.flows_putBytes (st : Nat → Prop) (y : Sys) (pa : Nat) (data : List Byte) (tag : Bool)
    (h : ∀ a, pa ≤ a → a < pa + data.length → st a) : Sys.Flows st y (y.putBytes pa data tag) := by
  have h1 := Sys.flows_setBytes st y pa data h
  unfold Sys.putBytes
  dsimp only
  split
  · exact h1.trans ((Sys.Same.cores rfl rfl).flows st)
  · exact h1

theorem Sys.fewer_putBytes (c : Nat) (y : Sys) (pa : Nat) (data : List Byte) (tag : Bool) :
    Sys.FewerLines c y (y.putBytes pa data tag) := fun x hx => by
  unfold Sys.core at hx
  rw [Sys.cores_putBytes] at hx
  exact ⟨x, hx, rfl, rfl, rfl⟩

theorem State.flows_writeThrough (st : Nat → Prop) (s : State) (w : Who) (l : Leaf) (policy va : Nat) (data : List Byte)
    (tag : Bool) (h : ∀ a, l.addr va ≤ a → a < l.addr va + data.length → st a) :
    Sys.Flows st s.sys (s.writeThrough w l policy va data tag).sys :=
  (s.flows_dirWrite st w l policy va _).trans (Sys.flows_putBytes st _ _ _ _ h)

theorem State.fewer_writeThrough (c : Nat) (s : State) (w : Who) (l : Leaf) (policy va : Nat) (data : List Byte) (tag : Bool) :
    Sys.FewerLines c s.sys (s.writeThrough w l policy va data tag).sys :=
  ((s.same_dirWrite w l policy va _).fewer c).trans (Sys.fewer_putBytes c _ _ _ _)

theorem State.flows_setWrite (st : Nat → Prop) (s : State) (w : Who) (l : Leaf) (va : Nat) (data : List Byte) (tag : Bool)
    (h : ∀ a, l.addr va ≤ a → a < l.addr va + data.length → st a) :
    Sys.Flows st s.sys (s.setWrite w l va data tag).sys :=
  ((s.sys.same_dirHome w l va _).flows st).trans (Sys.flows_putBytes st _ _ _ _ h)

theorem State.fewer_setWrite (c : Nat) (s : State) (w : Who) (l : Leaf) (va : Nat) (data : List Byte) (tag : Bool) :
    Sys.FewerLines c s.sys (s.setWrite w l va data tag).sys :=
  ((s.sys.same_dirHome w l va _).fewer c).trans (Sys.fewer_putBytes c _ _ _ _)

/-- Parking a line changes no byte but those an L1 writes back, and no L1 gains a line. -/
theorem State.parkLine_flows (st : Nat → Prop) (c : Nat) (s : State) (w : Who) (asid : Asid) (line pa : Nat) (bind : Bool)
    (p : Parked) : Sys.Flows st s.sys (s.parkLine w asid line pa bind p).sys ∧
      Sys.FewerLines c s.sys (s.parkLine w asid line pa bind p).sys := by
  have hp : ∀ (y : Sys) (q : Parked), Sys.Same y ((y.gather w (dirKey asid line)).place w placeFuel (dirKey asid line) pa bind q) :=
    fun y q => (y.same_gather ..).trans (Sys.same_place _ _ ..)
  unfold State.parkLine
  dsimp only
  split
  · exact ⟨(s.sys.same_settle ..).flows st, (s.sys.same_settle ..).fewer c⟩
  · next u _ =>
      cases u with
      | l1 n =>
          exact ⟨((s.flows_l1Expel st w n asid line).trans ((hp _ _).flows st)).trans (State.flows_l1Trim st _ w n _ _),
            ((s.fewer_l1Expel c w n asid line).trans ((hp _ _).fewer c)).trans (State.fewer_l1Trim c _ w n _ _)⟩
      | _ => exact ⟨(hp _ _).flows st, (hp _ _).fewer c⟩

/-- A clean copy changes no byte but those an L1 writes back, and an L1 gains at most that line. -/
theorem State.cleanCopy_flows (st : Nat → Prop) (c : Nat) (s : State) (w : Who) (l : Leaf) (policy line : Nat) (u : ParkUnit) :
    Sys.Flows st s.sys (s.cleanCopy w l policy line u).sys ∧
    ∀ x ∈ ((s.cleanCopy w l policy line u).sys.core c).l1,
      (∃ x' ∈ (s.sys.core c).l1, x'.asid = x.asid ∧ x'.line = x.line ∧ x'.pa = x.pa) ∨
      (x.asid = w.asid ∧ x.line = line ∧ x.pa = l.addr (line * 128)) := by
  unfold State.cleanCopy
  cases u with
  | l1 n =>
      dsimp only
      have hf := (s.flows_l1Expel st w n w.asid line).trans (State.flows_l1Trim st _ w n line (Config.l1Ways - 1))
      have hl := (s.fewer_l1Expel c w n w.asid line).trans (State.fewer_l1Trim c _ w n line (Config.l1Ways - 1))
      refine ⟨hf.trans (Sys.flows_l1Put st _ _ _ fun i hi hb => ?_), fun x hx => ?_⟩
      · simp at hb
      · unfold Sys.l1Put at hx
        rw [Sys.core_updCore] at hx
        split at hx
        · next h =>
            subst h
            rcases List.mem_cons.1 hx with rfl | hx
            · exact .inr ⟨rfl, rfl, rfl⟩
            · exact .inl ((hl.trans (Sys.fewer_l1Drop _ _ _ _ _)) x hx)
        · exact .inl ((hl.trans (Sys.fewer_l1Drop _ _ _ _ _)) x hx)
  | cluster k =>
      exact ⟨(Sys.same_fillCluster _ ..).flows st, fun x hx => .inl ((Sys.same_fillCluster _ ..).fewer c x hx)⟩
  | _ =>
      have h := fun (d : List Nat) (f : Sys → Nat → Sys) (hf : ∀ y n, Sys.Same y (f y n)) =>
        foldl_same (fun y : Sys => y) f hf d s.sys
      exact ⟨(h _ _ fun y n => y.same_fillSlice ..).flows st,
        fun x hx => .inl ((h _ _ fun y n => y.same_fillSlice ..).fewer c x hx)⟩

theorem State.parkStore_flows (st : Nat → Prop) (c : Nat) (s : State) (w : Who) (l : Leaf) (policy va : Nat) (set : BitVec 16)
    (r : Readers) : Sys.Flows st s.sys (s.parkStore w l policy va set r).sys ∧
    ∀ x ∈ ((s.parkStore w l policy va set r).sys.core c).l1,
      (∃ x' ∈ (s.sys.core c).l1, x'.asid = x.asid ∧ x'.line = x.line ∧ x'.pa = x.pa) ∨
      (x.asid = w.asid ∧ x.line = va / 128 ∧ x.pa = l.addr (va / 128 * 128)) := by
  unfold State.parkStore
  dsimp only
  split
  · next copy =>
      have h1 := (s.sys.same_gather w (dirKey w.asid (va / 128))).trans (Sys.same_settle _ w (dirKey w.asid (va / 128)))
      have hs := (h1.trans (Sys.same_setEntry _ w.asid (va / 128) { (Sys.entry ((s.sys.gather w (dirKey w.asid (va / 128))).settle
        w (dirKey w.asid (va / 128))) w.asid (va / 128)) with reservation := none })).trans
        (Sys.same_toMemory _ w (dirKey w.asid (va / 128)) (BitVec.allOnes 128))
      cases copy with
      | none => exact ⟨hs.flows st, fun x hx => .inl (hs.fewer c x hx)⟩
      | some u =>
          obtain ⟨h1, h2⟩ := State.cleanCopy_flows st c { s with sys := _ } w l policy (va / 128) u
          exact ⟨(hs.flows st).trans h1, fun x hx => by
            rcases h2 x hx with ⟨x', hx', e⟩ | h
            · obtain ⟨x2, hx2, f1, f2, f3⟩ := hs.fewer c x' hx'
              exact .inl ⟨x2, hx2, f1.trans e.1, f2.trans e.2.1, f3.trans e.2.2⟩
            · exact .inr h⟩
  · split
    · split
      · exact ⟨(s.sys.same_setEntry ..).flows st, fun x hx => .inl ((s.sys.same_setEntry ..).fewer c x hx)⟩
      · obtain ⟨h1, h2⟩ := s.parkLine_flows st c w w.asid (va / 128) (l.line va) true _
        exact ⟨h1, fun x hx => .inl (h2 x hx)⟩
    · obtain ⟨h1, h2⟩ := State.parkLine_flows st c { s with sys := _ } w w.asid (va / 128) (l.line va) true _
      exact ⟨((s.sys.same_setEntry ..).flows st).trans h1,
        fun x hx => .inl ((((s.sys.same_setEntry ..).fewer c).trans h2) x hx)⟩

theorem Leaf.addr_lineStart (l : Leaf) (va : Nat) : l.addr (va / 128 * 128) + va % 128 = l.addr va := by
  unfold Leaf.addr
  omega

theorem Leaf.addr_line (l : Leaf) (va : Nat) : va % 128 ≤ l.addr va := by
  unfold Leaf.addr
  have : va % 128 ≤ va % 65536 := by
    have : va % 65536 % 128 = va % 128 := Nat.mod_mod_of_dvd _ (by decide)
    rw [← this]; exact Nat.mod_le _ _
  omega

theorem byteMask_getLsbD (off n i : Nat) (h : (byteMask off n).getLsbD i = true) : off ≤ i ∧ i < off + n := by
  unfold byteMask at h
  rw [BitVec.getLsbD_ofNat, Nat.testBit_mul_two_pow, Nat.testBit_two_pow_sub_one] at h
  simp at h
  omega

/-- One part of a store: bytes change at its homes only, and every L1 line of the core stood there or is of its line. -/
theorem State.writePart_flows (st : Nat → Prop) (s : State) (w : Who) (l : Leaf) (policy : Nat) (set : BitVec 16)
    (r : Readers) (va : Nat) (data : List Byte) (tag : Bool) (hm : isMemory (l.addr va) = true)
    (hst : ∀ base, base + va % 128 = l.addr va ∨
      (∃ x ∈ (s.sys.core w.core).l1, x.asid = w.asid ∧ x.line = va / 128 ∧ x.pa = base) →
      ∀ a, base + va % 128 ≤ a → a < base + va % 128 + data.length → st a) :
    Sys.Flows st s.sys (s.writePart w l policy set r va data tag).sys ∧
    ∀ x ∈ ((s.writePart w l policy set r va data tag).sys.core w.core).l1,
      (∃ x' ∈ (s.sys.core w.core).l1, x'.asid = x.asid ∧ x'.line = x.line ∧ x'.pa = x.pa) ∨
      (x.asid = w.asid ∧ x.line = va / 128 ∧ x.pa + va % 128 = l.addr va) := by
  have hline := l.addr_line va
  have hthrough : ∀ a, l.addr va ≤ a → a < l.addr va + data.length → st a := fun a h1 h2 =>
    hst (l.addr va - va % 128) (.inl (by omega)) a (by omega) (by omega)
  have hxp := s.flows_l1Expel st w w.core w.asid (va / 128)
  have hxf := s.fewer_l1Expel w.core w w.core w.asid (va / 128)
  unfold State.writePart
  dsimp only
  rw [s.host.peerOf_memory _ hm]
  simp only [hm, Bool.not_true, Bool.false_eq_true, if_false]
  split
  · generalize hu : (ite (w.noL1 = true) s _ : State) = u
    have h1 : Sys.Flows st s.sys u.sys ∧ Sys.FewerLines w.core s.sys u.sys := by
      rw [← hu]; split
      · exact ⟨.refl st _, .refl _ _⟩
      · exact ⟨hxp, hxf⟩
    obtain ⟨h2, h3⟩ := State.parkStore_flows st w.core (u.setWrite w l va data tag) w l policy va set r
    refine ⟨(h1.1.trans (State.flows_setWrite st u w l va data tag hthrough)).trans h2, fun x hx => ?_⟩
    rcases h3 x hx with ⟨x', hx', e1, e2, e3⟩ | ⟨e1, e2, e3⟩
    · obtain ⟨x2, hx2, f1, f2, f3⟩ := (h1.2.trans (State.fewer_setWrite w.core u w l va data tag)) x' hx'
      exact .inl ⟨x2, hx2, f1.trans e1, f2.trans e2, f3.trans e3⟩
    · exact .inr ⟨e1, e2, by rw [e3, l.addr_lineStart]⟩
  · split
    · exact ⟨s.flows_writeThrough st w l policy va data tag hthrough,
        fun x hx => .inl (s.fewer_writeThrough w.core w l policy va data tag x hx)⟩
    · split
      · exact ⟨hxp.trans (State.flows_writeThrough st _ w l policy va data tag hthrough),
          fun x hx => .inl ((hxf.trans (State.fewer_writeThrough w.core _ w l policy va data tag)) x hx)⟩
      · set u := (if (s.sys.l1Find w.core w.asid (va / 128)).isNone = true then s.l1Room w (va / 128) else s) with hu
        have huf : Sys.Flows st s.sys u.sys := by
          rw [hu]; split
          · exact s.flows_l1Room st w _
          · exact .refl st _
        have hul : Sys.FewerLines w.core s.sys u.sys := by
          rw [hu]; split
          · exact s.fewer_l1Room w.core w _
          · exact .refl _ _
        set x0 := ((u.sys.l1Find w.core w.asid (va / 128)).getD
          { asid := w.asid, line := va / 128, pa := l.addr va - va % 128, data := 0, valid := 0, dirty := 0, tags := 0,
            rights := l.rights, keep := keepOf policy }) with hx0
        have hcase : (x0 ∈ (u.sys.core w.core).l1 ∧ x0.asid = w.asid ∧ x0.line = va / 128) ∨
            (x0.asid = w.asid ∧ x0.line = va / 128 ∧ x0.pa = l.addr va - va % 128 ∧ x0.dirty = 0) := by
          rw [hx0]
          cases hf : u.sys.l1Find w.core w.asid (va / 128) with
          | none => right; exact ⟨rfl, rfl, rfl, rfl⟩
          | some y =>
              left
              refine ⟨u.sys.l1Find_mem _ _ _ y hf, ?_⟩
              have := List.find?_some hf
              simpa using this
        have hhome : ∀ a, x0.pa + va % 128 ≤ a → a < x0.pa + va % 128 + data.length → st a := by
          rcases hcase with ⟨hin, ha, hl⟩ | ⟨_, _, hp, _⟩
          · obtain ⟨x', hx', e1, e2, e3⟩ := hul x0 hin
            exact hst x0.pa (.inr ⟨x', hx', e1.trans ha, e2.trans hl, e3⟩)
          · rw [hp]; exact hst _ (.inl (by omega))
        refine ⟨huf.trans (Sys.flows_l1Put st _ _ _ fun i hi hb => ?_), fun x hx => ?_⟩
        · dsimp only at hb ⊢
          rw [lineByte_lineWrite _ _ _ _ hi]
          by_cases hin : va % 128 ≤ i ∧ i < va % 128 + data.length
          · right; exact hhome _ (by omega) (by omega)
          · left
            rw [if_neg hin]
            rw [BitVec.getLsbD_or, Bool.or_eq_true] at hb
            rcases hb with hb | hb
            · rcases hcase with ⟨hmem, _⟩ | ⟨_, _, _, hz⟩
              · exact u.sys.dirty_of_mem _ x0 hmem i hi hb
              · rw [hz] at hb; simp at hb
            · exact absurd (byteMask_getLsbD _ _ _ hb) hin
        · unfold Sys.l1Put at hx
          rw [Sys.core_updCore, if_pos rfl] at hx
          rcases List.mem_cons.1 hx with rfl | hx
          · dsimp only
            rcases hcase with ⟨hin, ha, hl⟩ | ⟨ha, hl, hp, _⟩
            · left; exact hul x0 hin
            · right; exact ⟨ha, hl, by rw [hp]; omega⟩
          · left
            exact (hul.trans (Sys.fewer_l1Drop w.core _ _ _ _)) x hx

theorem State.flows_performStores (s0 s : State) (w : Who) (all items : List StoreItem) (policy : Nat) (set : BitVec 16)
    (r : Readers) (tag : Option Bool) (hsub : ∀ x ∈ items, x ∈ all) (hp : ∀ x ∈ items, x.plain = true)
    (hl : ∀ x ∈ (s.sys.core w.core).l1, x.asid = w.asid → s0.homes w all x.line x.pa) :
    Sys.Flows (s0.storedBytes w all) s.sys (s.performStores w policy set r tag items).sys := by
  induction items generalizing s with
  | nil => exact .refl _ _
  | cons x rest ih =>
      simp only [State.performStores]
      have hrest := fun (u : State) hu => ih u (fun y hy => hsub y (List.mem_cons_of_mem _ hy))
        (fun y hy => hp y (List.mem_cons_of_mem _ hy)) hu
      have hx := hp x (List.mem_cons_self ..)
      have hin := hsub x (List.mem_cons_self ..)
      cases x with
      | memory i va b l =>
          dsimp only
          obtain ⟨h1, h2⟩ := s.writePart_flows (s0.storedBytes w all) w l policy set r va b
            (tag = some true && wholeGranule va b.length) hx (by
              intro base hbase a ha1 ha2
              refine ⟨i, va, b, l, base, hin, ?_, ha1, ha2⟩
              rcases hbase with h | ⟨x, hx, e1, e2, e3⟩
              · exact .inr ⟨i, va, b, l, hin, rfl, h⟩
              · have := hl x hx e1
                rw [e2, e3] at this; exact this)
          refine h1.trans (hrest _ fun y hy hya => ?_)
          rcases h2 y hy with ⟨z, hz, e1, e2, e3⟩ | ⟨_, e2, e3⟩
          · have := hl z hz (e1.trans hya)
            rw [e2, e3] at this; exact this
          · exact .inr ⟨i, va, b, l, hin, e2.symm, e3⟩
      | logged => exact hrest _ hl
      | scratch i off b =>
          dsimp only
          split
          · have hs : (s.noteOff i ‹_›).sys = s.sys := by unfold State.noteOff; rw [State.updGang_sys]
            have := hrest (s.noteOff i ‹_›) (by rw [hs]; exact hl)
            rw [hs] at this; exact this
          · exact hrest _ hl

/-! ### Targets -/

theorem State.same_homeLeaf (s : State) (w : Who) (acc : Access) (va : Nat) (r : Leaf × State)
    (h : s.homeLeaf w acc va = .ok r) : Sys.Same s.sys r.2.sys := by
  unfold State.homeLeaf at h
  split at h
  · simp at h
  · split at h
    · simp at h
    · next q hq =>
        simp only [Except.ok.injEq] at h
        exact h ▸ s.same_leaf _ _ _ _ q hq

theorem State.same_unitRead (s : State) (w : Who) (va n : Nat) (r : List Byte × State)
    (h : s.unitRead w va n = .ok r) : Sys.Same s.sys r.2.sys := by
  unfold State.unitRead at h
  refine foldlM_ok (fun a b : List Byte × State => Sys.Same a.2.sys b.2.sys) (fun b => .refl b.2.sys) (fun _ _ _ => .trans) _ ?_ _ _ _ h
  intro b x c hc
  split at hc
  · simp at hc
  · next l u hl =>
      simp only [Except.ok.injEq] at hc
      exact hc ▸ State.same_homeLeaf _ _ _ _ _ hl

theorem State.same_readHeader (s : State) (w : Who) (va : Nat) (r : ListHdr × State)
    (h : s.readHeader w va = .ok r) : Sys.Same s.sys r.2.sys := by
  unfold State.readHeader at h
  split at h
  · simp at h
  · next b u hb =>
      dsimp only at h
      split at h
      · simp at h
      · simp only [Except.ok.injEq] at h
        exact h ▸ s.same_unitRead w va 64 _ hb

theorem State.same_readPieces (s : State) (w : Who) (va : Nat) (hd : ListHdr) (r : List Piece × State)
    (h : s.readPieces w va hd = .ok r) : Sys.Same s.sys r.2.sys := by
  unfold State.readPieces at h
  refine foldlM_ok (fun a b : List Piece × State => Sys.Same a.2.sys b.2.sys) (fun b => .refl b.2.sys) (fun _ _ _ => .trans) _ ?_ _ _ _ h
  intro b x c hc
  unfold readPiece at hc
  split at hc
  · simp at hc
  · next l u hl =>
      split at hc
      · simp at hc
      · simp only [Except.ok.injEq] at hc
        exact hc ▸ State.same_unitRead _ _ _ _ _ hl

theorem State.same_readList (s : State) (w : Who) (va : Nat) (r : (ListHdr × List Piece) × State)
    (h : s.readList w va = .ok r) : Sys.Same s.sys r.2.sys := by
  unfold State.readList at h
  split at h
  · simp at h
  · next hd u hu =>
      split at h
      · simp at h
      · next l v hv =>
          simp only [Except.ok.injEq] at h
          exact h ▸ (s.same_readHeader w va _ hu).trans (State.same_readPieces _ _ _ _ _ hv)

theorem State.same_resolve (s : State) (w : Who) (c : Cap) (x n : Nat) (r : List (Nat × Nat) × State)
    (h : s.resolve w c x n = .ok r) : Sys.Same s.sys r.2.sys := by
  unfold State.resolve at h
  split at h
  · simp at h
  · next hd l u hu =>
      split at h
      · simp at h
      · split at h
        · simp at h
        · simp only [Except.ok.injEq] at h
          exact h ▸ s.same_readList w _ _ hu

theorem State.same_capTarget (s : State) (w : Who) (m : Addr) (i : Nat) (r : Target × State)
    (h : s.capTarget w m i = .ok r) : Sys.Same s.sys r.2.sys := by
  unfold State.capTarget at h
  dsimp only at h
  generalize s.capOf m.a = q at h
  obtain ⟨c, tag⟩ := q
  dsimp only at h
  generalize (if m.fields then c.check tag [.linear, .tile, .stitch] m.need 1 i
    else c.checkKind tag [.linear, .tile, .stitch] 1 i) = k at h
  split at h
  · simp at h
  · split at h
    · simp at h
    · split at h
      · split at h
        · simp at h
        · rw [s.touches_oneTarget m i _ r h]; exact .refl s.sys
      · split at h
        · simp at h
        · next parts u hu =>
            have := s.same_resolve w c _ _ _ hu
            split at h
            · simp at h
            · split at h
              · simp at h
              · split at h
                · simp at h
                · simp only [Except.ok.injEq] at h
                  exact h ▸ this
      · split at h
        · simp at h
        · rw [s.touches_oneTarget m i _ r h]; exact .refl s.sys

theorem State.same_target (s : State) (w : Who) (m : Addr) (i : Nat) (r : Target × State)
    (h : s.target w m i = .ok r) : Sys.Same s.sys r.2.sys := by
  unfold State.target at h
  split at h
  · exact s.same_capTarget w m i r h
  · dsimp only at h
    split at h
    · rw [s.touches_oneTarget m i _ r h]; exact .refl s.sys
    · split at h
      · simp at h
      · split at h
        · simp at h
        · rw [s.touches_oneTarget m i _ r h]; exact .refl s.sys
    · split at h
      · simp at h
      · simp only [Except.ok.injEq] at h
        exact h ▸ .refl s.sys

theorem State.same_targetsOf (s : State) (w : Who) (m : Addr) (lanes : List Nat) (r : List (Nat × Target) × State)
    (h : s.targetsOf w m lanes = .ok r) : Sys.Same s.sys r.2.sys := by
  induction lanes generalizing s r with
  | nil => simp only [State.targetsOf, Except.ok.injEq] at h; exact h ▸ .refl s.sys
  | cons i rest ih =>
      simp only [State.targetsOf] at h
      split at h
      · simp at h
      · next t u hu =>
          split at h
          · simp at h
          · next ts v hv =>
              simp only [Except.ok.injEq] at h
              exact h ▸ (s.same_target w m i _ hu).trans (ih u (ts, v) hv)

/-- Computing the targets of an access changes no byte of memory and no L1. -/
theorem State.same_targets (s : State) (w : Who) (m : Addr) (lanes : List Nat) (r : List (Nat × Target) × State)
    (h : s.targets w m lanes = .ok r) : Sys.Same s.sys r.2.sys := by
  unfold State.targets at h
  split at h
  · split at h <;> simp at h
  · exact s.same_targetsOf w m lanes r h

theorem State.same_storeParts (s : State) (w : Who) (acc : Access) (fills : Bool) (i : Nat) (parts : List (Nat × Nat))
    (data : List Byte) : Sys.Same s.sys (s.storeParts w acc fills i parts data).2.sys := by
  induction parts generalizing s data with
  | nil => exact .refl s.sys
  | cons p rest ih =>
      obtain ⟨va, n⟩ := p
      simp only [State.storeParts]
      split
      · exact ih _ _
      · split
        · exact ih _ _
        · next l u hu =>
            split
            · exact ih _ _
            · exact (s.same_leaf w acc va _ (l, u) hu).trans (ih _ _)

theorem State.same_storeItems (s : State) (w : Who) (acc : Access) (fills : Bool) (data : Nat → List Byte)
    (ts : List (Nat × Target)) : Sys.Same s.sys (s.storeItems w acc fills data ts).2.sys := by
  induction ts generalizing s with
  | nil => exact .refl s.sys
  | cons p rest ih =>
      obtain ⟨i, t⟩ := p
      simp only [State.storeItems]
      split
      · exact ih _
      · exact (s.same_storeParts w acc fills i _ _).trans (ih _)

/-! ### Releases -/

theorem State.writeBacks_flow (st : Nat → Prop) (c : Nat) (w : Who) (ls : List L1Line) (s : State)
    (h : ∀ x ∈ ls, x ∈ (s.sys.core c).l1) :
    Sys.Flows st s.sys (ls.foldl (fun (s : State) l => s.writeBack w l) s).sys ∧
    ∀ k, ((ls.foldl (fun (s : State) l => s.writeBack w l) s).sys.core k).l1 = (s.sys.core k).l1 := by
  induction ls generalizing s with
  | nil => exact ⟨.refl st _, fun _ => rfl⟩
  | cons x t ih =>
      simp only [List.foldl_cons]
      have hx := h x (List.mem_cons_self ..)
      have h1 := s.flows_writeBack st w x fun i hi hb => s.sys.dirty_of_mem c x hx i hi hb
      obtain ⟨h2, h3⟩ := ih (s.writeBack w x) fun y hy => by
        rw [s.writeBack_l1]; exact h y (List.mem_cons_of_mem _ hy)
      exact ⟨h1.trans h2, fun k => (h3 k).trans (s.writeBack_l1 w x k)⟩

theorem State.flows_l1Release (st : Nat → Prop) (s : State) (w : Who) : Sys.Flows st s.sys (s.l1Release w).sys := by
  unfold State.l1Release
  dsimp only
  obtain ⟨h1, _⟩ := s.writeBacks_flow st w.core w (s.sys.core w.core).l1 fun x hx => hx
  refine h1.trans (Sys.Flows.l1 st _ _ _ fun x hx i hi hb => ?_)
  obtain ⟨y, _, rfl⟩ := List.mem_map.1 hx
  simp at hb

theorem State.fewer_l1Release (c : Nat) (s : State) (w : Who) : Sys.FewerLines c s.sys (s.l1Release w).sys := by
  unfold State.l1Release
  dsimp only
  obtain ⟨_, h2⟩ := s.writeBacks_flow (fun _ => True) w.core w (s.sys.core w.core).l1 fun x hx => hx
  intro x hx
  rw [Sys.core_updCore] at hx
  split at hx
  · next h =>
      subst h
      obtain ⟨y, hy, rfl⟩ := List.mem_map.1 hx
      rw [h2] at hy
      exact ⟨y, hy, rfl, rfl, rfl⟩
  · rw [h2] at hx
    exact ⟨x, hx, rfl, rfl, rfl⟩

theorem State.flows_release (st : Nat → Prop) (s : State) (w : Who) (scope : Nat) :
    Sys.Flows st s.sys (s.release w scope).sys := by
  unfold State.release
  dsimp only
  generalize hu : (ite ((s.cacheScope w scope && !w.engine) = true) _ s : State) = u
  have h1 : Sys.Flows st s.sys u.sys := by
    rw [← hu]; split
    · exact s.flows_l1Release st { w with eject := false }
    · exact .refl st _
  split
  · exact h1.trans ((u.sys.same_dropV ..).flows st)
  · exact h1

theorem State.fewer_release (c : Nat) (s : State) (w : Who) (scope : Nat) :
    Sys.FewerLines c s.sys (s.release w scope).sys := by
  unfold State.release
  dsimp only
  generalize hu : (ite ((s.cacheScope w scope && !w.engine) = true) _ s : State) = u
  have h1 : Sys.FewerLines c s.sys u.sys := by
    rw [← hu]; split
    · exact s.fewer_l1Release c { w with eject := false }
    · exact .refl _ _
  split
  · exact h1.trans ((u.sys.same_dropV ..).fewer c)
  · exact h1

/-- No page is logged by a store all of whose parts are performed at once. -/
theorem loggedPages_plain (l : List StoreItem) (h : ∀ y ∈ l, y.plain = true) : loggedPages l = [] := by
  unfold loggedPages
  rw [List.filterMap_eq_nil_iff.2 fun y hy => by have := h y hy; cases y <;> simp_all [StoreItem.plain]]
  rfl

end Sys2Proof.Machine
end

