-- ==== Sys2Proof/Laws/Finding.lean ====
section
/-! SUPPORT. What the premises `State.Finds` and `State.FindsAll` of the statements give: the unit at the home finds its page
and every part of its access, and the state stays as it is. -/

namespace Sys2Proof.Machine

/-- A translation is that of the whole 64 KiB unit (R95). -/
theorem Sys.mtlbFind_unit (y : Sys) (asid : Asid) {va vb : Nat} (h : va / 65536 = vb / 65536) :
    y.mtlbFind asid va = y.mtlbFind asid vb := by
  simp only [Sys.mtlbFind, translationHome, homeDie, h]
  rfl

theorem aperture_of_memory {pa : Nat} (h : isMemory pa = true) : aperture pa = none := by
  have : pa < Config.memTop := by simpa [isMemory] using h
  simp [aperture, Nat.not_le.mpr this]

theorem HostSide.peerOf_of_memory (x : HostSide) {pa : Nat} (h : isMemory pa = true) : x.peerOf pa = none := by
  simp [HostSide.peerOf, aperture_of_memory h]

theorem State.Finds.viaHome {s : State} {w : Who} {acc : Access} {va pa : Nat} (h : s.Finds w acc va pa) :
    ∃ l, s.viaHome w acc va = .ok (l, s) ∧ l.addr va = pa ∧ l.rights.lacks acc w.priv = none := by
  obtain ⟨⟨t, ht, hr, rfl⟩, hm, -, -⟩ := h
  exact ⟨t.leaf va, by simp [State.viaHome, Sys.translate, ht, hr, aperture_of_memory hm], rfl, hr⟩

theorem State.Finds.page {s : State} {w : Who} {acc : Access} {va pa : Nat} (h : s.Finds w acc va pa) :
    ∃ l, s.page w acc va = .ok (l, s) ∧ l.addr va = pa := by
  cases hl : s.sys.reached w va with
  | none =>
      obtain ⟨l, h1, h2, -⟩ := h.viaHome
      exact ⟨l, by simp [State.page, hl, h1], h2⟩
  | some l =>
      obtain ⟨h1, h2⟩ := h.2.2.2 l hl
      exact ⟨l, by simp [State.page, hl, h2], h1⟩

theorem State.Finds.leaf {s : State} {w : Who} {acc : Access} {va pa : Nat} (h : s.Finds w acc va pa) (n : Nat) :
    ∃ l, s.leaf w acc va n = .ok (l, s) ∧ l.addr va = pa := by
  obtain ⟨l, h1, h2⟩ := h.page
  have hb : s.sys.isBad pa = false := h.2.2.1
  exact ⟨l, by simp [State.leaf, h1, State.meetsError, h2, hb], h2⟩

theorem State.Finds.homeLeaf {s : State} {w : Who} {acc : Access} {va pa : Nat} (h : s.Finds w acc va pa)
    (he : w.engine = true) (ho : va < Config.ownTop) :
    ∃ l, s.homeLeaf w acc va = .ok (l, s) ∧ l.addr va = pa := by
  obtain ⟨l, h1, h2⟩ := h.leaf (128 - va % 128)
  have hw : { w with engine := true } = w := by cases w; simp_all
  exact ⟨l, by simp [State.homeLeaf, Nat.not_le.mpr ho, hw, h1], h2⟩

/-- The parts of an access lie in it, and are as long together as the fuel allows. -/
theorem mem_chunks {gran fuel va n : Nat} {p : Nat × Nat} (hg : 0 < gran) (h : p ∈ chunks gran fuel va n) :
    va ≤ p.1 ∧ 0 < p.2 ∧ p.1 + p.2 ≤ va + n := by
  induction fuel generalizing va n with
  | zero => simp [chunks] at h
  | succ fuel ih =>
      have := Nat.mod_lt va hg
      simp only [chunks] at h
      split at h
      · simp at h
      · rcases List.mem_cons.mp h with rfl | h
        · simp; omega
        · have := ih h
          omega

theorem chunks_sum {gran fuel va n : Nat} (hg : 0 < gran) (h : n ≤ gran - va % gran + fuel * gran) :
    ((chunks gran (fuel + 1) va n).map Prod.snd).sum = n := by
  induction fuel generalizing va n with
  | zero =>
      simp only [chunks]
      split
      · simp [*]
      · simp at h ⊢; omega
  | succ fuel ih =>
      have hv := Nat.mod_lt va hg
      rw [chunks]
      split
      · simp [*]
      · rw [List.map_cons, List.sum_cons, ih]
        · dsimp only; omega
        · by_cases hn : n ≤ gran - va % gran
          · rw [Nat.min_eq_left hn]; omega
          · rw [Nat.min_eq_right (by omega)]
            have : (va + (gran - va % gran)) % gran = 0 := by
              have hd := Nat.div_add_mod va gran
              have : va + (gran - va % gran) = gran * (va / gran + 1) := by rw [Nat.mul_add]; omega
              rw [this, Nat.mul_mod_right]
            rw [this]
            have : (fuel + 1) * gran = fuel * gran + gran := by ring
            omega

theorem splitParts_sum {gran : Nat} (va n : Nat) (hg : 0 < gran) : ((splitParts gran va n).map Prod.snd).sum = n := by
  refine chunks_sum hg ?_
  have h1 := Nat.div_add_mod n gran
  have h2 := Nat.mod_lt n hg
  have : (n / gran + 1) * gran = gran * (n / gran) + gran := by ring
  omega

/-- A loop whose steps all succeed in the state they started in. -/
theorem foldlM_stays {α β ε : Type} {f : β → α → Except ε β} {b : β} {l : List α} (h : ∀ a ∈ l, f b a = .ok b) :
    l.foldlM f b = .ok b := by
  induction l with
  | nil => rfl
  | cons a l ih =>
      rw [List.foldlM_cons, h a (by simp)]
      exact ih fun x hx => h x (by simp [hx])

theorem State.FindsAll.unitCheck {s : State} {w : Who} {va n : Nat} (h : s.FindsAll w .store va n) (he : w.engine = true) :
    s.unitCheck w va n = .ok s := by
  refine foldlM_stays fun p hp => ?_
  obtain ⟨h1, h2, h3⟩ := mem_chunks (by decide) hp
  obtain ⟨ho, pa, hf⟩ := h p.1 h1 (by omega)
  obtain ⟨l, hl, -⟩ := hf.homeLeaf he ho
  simp [hl]

theorem State.homeRead_length (s : State) (l : Leaf) (va n : Nat) (h : isMemory (l.addr va) = true) :
    (s.homeRead l va n).length = n := by
  simp [State.homeRead, HostSide.peerOf_of_memory _ h, h, Sys.bytes_length]

theorem State.FindsAll.unitRead {s : State} {w : Who} {va n : Nat} (h : s.FindsAll w .load va n) (he : w.engine = true) :
    ∃ b, s.unitRead w va n = .ok (b, s) ∧ b.length = n := by
  have key : ∀ (l : List (Nat × Nat)) (b : List Byte), (∀ p ∈ l, va ≤ p.1 ∧ p.1 < va + n) →
      ∃ c, l.foldlM (fun (a : List Byte × State) p =>
        match a.2.homeLeaf w .load p.1 with
        | .error e => (.error e : Except Stop (List Byte × State))
        | .ok (l, s) => .ok (a.1 ++ s.homeRead l p.1 p.2, s)) (b, s) = .ok (c, s) ∧
        c.length = b.length + (l.map Prod.snd).sum := by
    intro l
    induction l with
    | nil => intro b _; exact ⟨b, rfl, by simp⟩
    | cons p l ih =>
        intro b hp
        obtain ⟨h1, h2⟩ := hp p (by simp)
        obtain ⟨ho, pa, hf⟩ := h p.1 h1 h2
        obtain ⟨lf, hl, ha⟩ := hf.homeLeaf he ho
        obtain ⟨c, hc, hlen⟩ := ih (b ++ s.homeRead lf p.1 p.2) fun q hq => hp q (by simp [hq])
        refine ⟨c, ?_, ?_⟩
        · rw [List.foldlM_cons, hl]; exact hc
        · rw [hlen, List.length_append, State.homeRead_length _ _ _ _ (ha ▸ hf.2.1)]
          simp; omega
  obtain ⟨c, hc, hlen⟩ := key (splitParts 128 va n) [] fun p hp => by
    have := mem_chunks (by decide) hp
    omega
  exact ⟨c, hc, by rw [hlen, splitParts_sum _ _ (by decide)]; simp⟩

/-- An access within one part is that part. -/
theorem splitParts_one {gran va n : Nat} (hn : 0 < n) (h : va % gran + n ≤ gran) : splitParts gran va n = [(va, n)] := by
  have hm : min n (gran - va % gran) = n := Nat.min_eq_left (by omega)
  simp [splitParts, chunks, Nat.pos_iff_ne_zero.mp hn, hm]

/-- A read within a line that is found. -/
theorem State.Finds.unitRead {s : State} {w : Who} {va pa n : Nat} (h : s.Finds w .load va pa) (he : w.engine = true)
    (ho : va < Config.ownTop) (hn : 0 < n) (hl : va % 128 + n ≤ 128) : s.unitRead w va n = .ok (s.sys.bytes pa n, s) := by
  obtain ⟨l, h1, h2⟩ := h.homeLeaf he ho
  have hm : isMemory pa = true := h.2.1
  have hr : s.homeRead l va n = s.sys.bytes pa n := by
    simp [State.homeRead, h2, HostSide.peerOf_of_memory _ hm, hm]
  simp [State.unitRead, splitParts_one hn hl, h1, hr, pure, Except.pure, bind, Except.bind]

theorem State.FindsHeader.readHeader {s : State} {w : Who} {va pa : Nat} {h : ListHdr} (hf : s.FindsHeader w va pa h)
    (he : w.engine = true) : s.readHeader w va = .ok (h, s) := by
  obtain ⟨hv, ho, hp, rfl, hk, hu, h0, h1, hz⟩ := hf
  have hb : bitsAt (fromBytes (s.sys.bytes pa 64)) 185 7 = 0 := hz
  simp [State.readHeader, hp.unitRead he ho (n := 64) (by decide) (by omega), Nat.not_lt.mpr hk, Nat.not_lt.mpr hu, h0, h1, hb]

theorem State.FindsEntries.readPieces {s : State} {w : Who} {va : Nat} {h : ListHdr} {pa : Nat → Nat} {l : List Piece}
    (hf : s.FindsEntries w h pa l) (he : w.engine = true) (ha : h.arr % 32 = 0) : s.readPieces w va h = .ok (l, s) := by
  obtain ⟨rfl, hf⟩ := hf
  have key : ∀ (ns : List Nat) (a : List Piece), (∀ i ∈ ns, i < h.used) →
      ns.foldlM (readPiece w va h.arr) (a, s) =
        .ok (a ++ ns.map fun i => Piece.ofBytes (s.sys.bytes (pa i) 32), s) := by
    intro ns
    induction ns with
    | nil => intro a _; simp [pure, Except.pure]
    | cons i ns ih =>
        intro a hi
        obtain ⟨ho, hp, hz⟩ := hf i (hi i (by simp))
        have hb : bitsAt (fromBytes (s.sys.bytes (pa i) 32)) 224 32 = 0 := by
          rw [bitsAt, hz, Nat.zero_mod]
        have : readPiece w va h.arr (a, s) i = .ok (a ++ [Piece.ofBytes (s.sys.bytes (pa i) 32)], s) := by
          simp [readPiece, hp.unitRead he ho (n := 32) (by decide) (by omega), hb]
        rw [List.foldlM_cons, this]
        refine (ih _ fun j hj => hi j (by simp [hj])).trans ?_
        simp
  simpa [State.readPieces] using key (List.range h.used) [] fun i hi => List.mem_range.mp hi

/-- A translation gives a unit of 64 KiB a frame of memory, no cache holds a line, and the memory is sound. -/
def State.findsUnit (s : State) (w : Who) (acc : Access) (va frame : Nat) : Bool :=
  s.sys.dir.isEmpty && s.sys.bad.isEmpty && w.noL1 && decide (frame + 65536 ≤ Config.memTop) &&
    match s.sys.mtlbFind w.asid va with
    | some t => (t.rights.lacks acc w.priv).isNone && decide (t.pa + (va / 65536 - t.vpn) * 65536 = frame)
    | none => false

/-- Every byte of it is found. -/
theorem State.Finds.of_unit {s : State} {w : Who} {acc : Access} {va frame : Nat} (h : s.findsUnit w acc va frame = true)
    {a pa : Nat} (hu : a / 65536 = va / 65536) (hp : pa = frame + a % 65536) : s.Finds w acc a pa := by
  unfold State.findsUnit at h
  split at h
  · next t ht =>
    simp only [Bool.and_eq_true, List.isEmpty_iff, decide_eq_true_eq, Option.isNone_iff_eq_none] at h
    obtain ⟨⟨⟨⟨hd, hb⟩, hw⟩, ho⟩, hr, rfl⟩ := h
    have hm : a % 65536 < 65536 := Nat.mod_lt _ (by decide)
    refine ⟨⟨t, by rw [Sys.mtlbFind_unit _ _ hu, ht], hr, by rw [hp, Leaf.addr, Tlb.leaf, hu]⟩, ?_, by simp [Sys.isBad, hb], ?_⟩
    · simp only [isMemory, decide_eq_true_eq]; omega
    · intro l hl
      simp [Sys.reached, hw, Sys.entry, hd, Sparse.get, DirEntry.found, DirEntry.copy] at hl
  · simp at h

theorem State.FindsAll.of_unit {s : State} {w : Who} {acc : Access} {va n frame : Nat}
    (h : s.findsUnit w acc va frame = true) (ho : va < Config.ownTop) (hn : va % 65536 + n ≤ 65536) : s.FindsAll w acc va n := by
  intro a h1 h2
  have hu : a / 65536 = va / 65536 := by omega
  exact ⟨by simp only [Config.ownTop] at ho ⊢; omega, _, .of_unit h hu rfl⟩

end Sys2Proof.Machine
end

