-- ==== Sys2Proof/Laws/Integer.lean ====
section
/-! SUPPORT. The integer results of Flags.lean as operations on bit patterns (R54, R70, R215-R221). -/

namespace Sys2Proof

theorem Ty.bits_pos (t : Ty) : 0 < t.bits := by cases t <;> decide

theorem Typed.width_pos (x : Typed) : 0 < x.width := by
  unfold Typed.width
  split
  · split <;> omega
  · exact Ty.bits_pos _

theorem Typed.width_le (x : Typed) : x.width ≤ 64 := by
  unfold Typed.width
  split
  · split <;> omega
  · cases x.ty <;> decide

end Sys2Proof

namespace Sys2Proof.Machine

/-- An operand is a pattern of its width. -/
theorem State.src_lt (s : State) (w : Nat) (hw : 0 < w) (hw' : w ≤ 64) (sx : Bool) (sel : Sel) (imm : Word) (i : Nat) :
    s.src w sx sel imm i < 2 ^ w := by
  have hp : 0 < 2 ^ w := Nat.two_pow_pos w
  cases sel with
  | v n =>
      simp only [State.src]
      split
      · next h =>
          subst h
          have h1 := (s.readV i n.toNat).isLt
          have h2 := (s.readV i (n.toNat + 1)).isLt
          omega
      · exact Nat.mod_lt _ hp
  | s n => exact Nat.mod_lt _ hp
  | p n =>
      simp only [State.src]
      have : 1 < 2 ^ w := Nat.one_lt_two_pow (by omega)
      split <;> omega
  | sp k => exact Nat.mod_lt _ hp
  | imm =>
      simp only [State.src]
      split
      · next h =>
          simp only [Bool.and_eq_true, decide_eq_true_eq] at h
          simp only [h.1, sextNat, sextNat.wrapMod]
          have : (0 : Int) ≤ signed 32 imm.toNat % (2 ^ 64 : Nat) := Int.emod_nonneg _ (by decide)
          have : signed 32 imm.toNat % (2 ^ 64 : Nat) < (2 ^ 64 : Nat) := Int.emod_lt_of_pos _ (by decide)
          omega
      · exact Nat.mod_lt _ hp
  | g n => simp [State.src, hp]
  | none => simp [State.src, hp]

theorem signed_eq_toInt (w n : Nat) : signed w n = (BitVec.ofNat w n).toInt := by
  unfold signed
  rw [BitVec.toInt_eq_toNat_cond, BitVec.toNat_ofNat]
  simp only [ge_iff_le]
  split <;> split <;> first | rfl | (push_cast; omega)

theorem tyInt'_eq (t : Ty) (w n : Nat) : tyInt' t w n = asInt t (BitVec.ofNat w n) := by
  unfold tyInt' asInt
  split
  · exact signed_eq_toInt w n
  · simp

theorem wrapInt_eq (w : Nat) (z : Int) : wrapInt w z = (BitVec.ofInt w z).toNat := by
  rw [BitVec.toNat_ofInt, wrapInt]

theorem clampInt_eq (t : Ty) (w : Nat) (sat : Bool) (z : Int) :
    clampInt t w sat z = ((narrowed t w sat z).1.toNat, (narrowed t w sat z).2) := by
  unfold clampInt narrowed leastOf greatestOf
  cases sat <;> simp [wrapInt_eq]

/-- Absolute value and negation as operations on patterns (R54). -/
theorem intMods_eq (t : Ty) (w : Nat) (ab ng : Bool) (n : Nat) (hw : 0 < w) (hn : n < 2 ^ w) :
    intMods t w ab ng n = (operand t ab ng (BitVec.ofNat w n)).toNat := by
  unfold intMods operand
  have h2 : 2 ^ w = 2 * 2 ^ (w - 1) := by rw [← Nat.pow_succ', Nat.succ_eq_add_one, Nat.sub_add_cancel hw]
  have habs : (if ab && t.isSigned && decide (2 * n ≥ 2 ^ w) then 2 ^ w - n else n) =
      (if ab && t.isSigned then (BitVec.ofNat w n).abs else BitVec.ofNat w n).toNat := by
    cases hb : (ab && t.isSigned)
    · simp [Nat.mod_eq_of_lt hn]
    · simp only [Bool.true_and, decide_eq_true_eq, ge_iff_le, if_true]
      rw [BitVec.toNat_abs, BitVec.msb_eq_decide, BitVec.toNat_ofNat, Nat.mod_eq_of_lt hn]
      by_cases h : 2 ^ w ≤ 2 * n
      · have : 2 ^ (w - 1) ≤ n := by omega
        simp [h, this]
      · have : ¬2 ^ (w - 1) ≤ n := by omega
        simp [h, this]
  dsimp only
  rw [habs]
  cases ng
  · rfl
  · simp [BitVec.toNat_neg]

/-- The operands of `intOp`. -/
theorem State.intMods_a (s : State) (x : Typed) (i : Nat) :
    intMods x.ty x.width x.absa x.nega (s.srcA x i) = (s.opA x i).toNat :=
  intMods_eq _ _ _ _ _ x.width_pos (s.src_lt _ x.width_pos x.width_le _ _ _ _)
theorem State.intMods_b (s : State) (x : Typed) (i : Nat) :
    intMods x.ty x.width x.absb x.negb (s.srcB x i) = (s.opB x i).toNat :=
  intMods_eq _ _ _ _ _ x.width_pos (s.src_lt _ x.width_pos x.width_le _ _ _ _)
theorem State.srcC_eq (s : State) (x : Typed) (i : Nat) : s.srcC x i = (s.opC x i).toNat := by
  rw [State.opC, BitVec.toNat_ofNat]
  exact (Nat.mod_eq_of_lt (s.src_lt _ x.width_pos x.width_le _ _ _ _)).symm

/-- An integer instruction completes with its operation on the operand patterns. -/
theorem delivers_int {i : Instr} {s : State} {o : Op} {x : Typed} {lat : Option Nat}
    {f : Nat → Nat → Nat → Nat × BitVec 8} {r : Nat → BitVec x.width × BitVec 8}
    (hx : exec i s = s.sequential { op := o } fun s => s.intOp x lat f) (hflow : s.flows = true)
    (hp : evenPair x.d x.width)
    (hr : ∀ i, f (s.opA x i).toNat (s.opB x i).toNat (s.opC x i).toNat = ((r i).1.toNat, (r i).2)) : DeliversInt i s x r := by
  refine delivers_arith (f := fun s i st => plainLane (f (intMods x.ty x.width x.absa x.nega (s.srcA x i))
    (intMods x.ty x.width x.absb x.negb (s.srcB x i)) (s.srcC x i)) st) hx hflow hp ?_
  funext i st
  simp only [plainLane, State.intMods_a, State.intMods_b, State.srcC_eq, hr]

end Sys2Proof.Machine
end

