-- ==== Sys2Proof/Laws/Operations.lean ====
section
/-! SUPPORT. What the updates of engine operations and of the side logs leave alone: one lemma per field and update, and what
returning entries to the logs can do. -/

namespace Sys2Proof.Machine

/-! ### rowsWritten -/

@[simp] theorem State.rowsWritten_run (s : State) (core first count : Nat) : (s.rowsWritten core first count).run = s.run := rfl
@[simp] theorem State.rowsWritten_ipc (s : State) (core first count : Nat) : (s.rowsWritten core first count).ipc = s.ipc := rfl
@[simp] theorem State.rowsWritten_gang (s : State) (core first count : Nat) : (s.rowsWritten core first count).gang = s.gang := rfl
@[simp] theorem State.rowsWritten_crew (s : State) (core first count : Nat) : (s.rowsWritten core first count).crew = s.crew := rfl
@[simp] theorem State.rowsWritten_gangs (s : State) (core first count : Nat) : (s.rowsWritten core first count).gangs = s.gangs := rfl
@[simp] theorem State.rowsWritten_crews (s : State) (core first count : Nat) : (s.rowsWritten core first count).crews = s.crews := rfl
@[simp] theorem State.rowsWritten_saved (s : State) (core first count : Nat) : (s.rowsWritten core first count).saved = s.saved := rfl
@[simp] theorem State.rowsWritten_launches (s : State) (core first count : Nat) : (s.rowsWritten core first count).launches = s.launches := rfl
@[simp] theorem State.rowsWritten_nextCrew (s : State) (core first count : Nat) : (s.rowsWritten core first count).nextCrew = s.nextCrew := rfl
@[simp] theorem State.rowsWritten_nextOp (s : State) (core first count : Nat) : (s.rowsWritten core first count).nextOp = s.nextOp := rfl
@[simp] theorem State.rowsWritten_tokens (s : State) (core first count : Nat) : (s.rowsWritten core first count).tokens = s.tokens := rfl
@[simp] theorem State.rowsWritten_sys (s : State) (core first count : Nat) : (s.rowsWritten core first count).sys = s.sys := rfl
@[simp] theorem State.rowsWritten_queues (s : State) (core first count : Nat) : (s.rowsWritten core first count).queues = s.queues := rfl
@[simp] theorem State.rowsWritten_host (s : State) (core first count : Nat) : (s.rowsWritten core first count).host = s.host := rfl
@[simp] theorem State.rowsWritten_nic (s : State) (core first count : Nat) : (s.rowsWritten core first count).nic = s.nic := rfl
@[simp] theorem State.rowsWritten_clock (s : State) (core first count : Nat) : (s.rowsWritten core first count).clock = s.clock := rfl
@[simp] theorem State.rowsWritten_issues (s : State) (core first count : Nat) : (s.rowsWritten core first count).issues = s.issues := rfl
@[simp] theorem State.rowsWritten_freeCtr (s : State) (core first count : Nat) : (s.rowsWritten core first count).freeCtr = s.freeCtr := rfl
@[simp] theorem State.rowsWritten_fuse (s : State) (core first count : Nat) : (s.rowsWritten core first count).fuse = s.fuse := rfl
@[simp] theorem State.rowsWritten_turns (s : State) (core first count : Nat) : (s.rowsWritten core first count).turns = s.turns := rfl

/-! ### settleHolds -/

@[simp] theorem State.settleHolds_run (s : State) (asid : Asid) (va : Nat) (h : ListHdr) : (s.settleHolds asid va h).run = s.run := rfl
@[simp] theorem State.settleHolds_ipc (s : State) (asid : Asid) (va : Nat) (h : ListHdr) : (s.settleHolds asid va h).ipc = s.ipc := rfl
@[simp] theorem State.settleHolds_gang (s : State) (asid : Asid) (va : Nat) (h : ListHdr) : (s.settleHolds asid va h).gang = s.gang := rfl
@[simp] theorem State.settleHolds_crew (s : State) (asid : Asid) (va : Nat) (h : ListHdr) : (s.settleHolds asid va h).crew = s.crew := rfl
@[simp] theorem State.settleHolds_gangs (s : State) (asid : Asid) (va : Nat) (h : ListHdr) : (s.settleHolds asid va h).gangs = s.gangs := rfl
@[simp] theorem State.settleHolds_crews (s : State) (asid : Asid) (va : Nat) (h : ListHdr) : (s.settleHolds asid va h).crews = s.crews := rfl
@[simp] theorem State.settleHolds_saved (s : State) (asid : Asid) (va : Nat) (h : ListHdr) : (s.settleHolds asid va h).saved = s.saved := rfl
@[simp] theorem State.settleHolds_launches (s : State) (asid : Asid) (va : Nat) (h : ListHdr) : (s.settleHolds asid va h).launches = s.launches := rfl
@[simp] theorem State.settleHolds_nextCrew (s : State) (asid : Asid) (va : Nat) (h : ListHdr) : (s.settleHolds asid va h).nextCrew = s.nextCrew := rfl
@[simp] theorem State.settleHolds_nextOp (s : State) (asid : Asid) (va : Nat) (h : ListHdr) : (s.settleHolds asid va h).nextOp = s.nextOp := rfl
@[simp] theorem State.settleHolds_tokens (s : State) (asid : Asid) (va : Nat) (h : ListHdr) : (s.settleHolds asid va h).tokens = s.tokens := rfl
@[simp] theorem State.settleHolds_sys (s : State) (asid : Asid) (va : Nat) (h : ListHdr) : (s.settleHolds asid va h).sys = s.sys := rfl
@[simp] theorem State.settleHolds_queues (s : State) (asid : Asid) (va : Nat) (h : ListHdr) : (s.settleHolds asid va h).queues = s.queues := rfl
@[simp] theorem State.settleHolds_host (s : State) (asid : Asid) (va : Nat) (h : ListHdr) : (s.settleHolds asid va h).host = s.host := rfl
@[simp] theorem State.settleHolds_nic (s : State) (asid : Asid) (va : Nat) (h : ListHdr) : (s.settleHolds asid va h).nic = s.nic := rfl
@[simp] theorem State.settleHolds_clock (s : State) (asid : Asid) (va : Nat) (h : ListHdr) : (s.settleHolds asid va h).clock = s.clock := rfl
@[simp] theorem State.settleHolds_issues (s : State) (asid : Asid) (va : Nat) (h : ListHdr) : (s.settleHolds asid va h).issues = s.issues := rfl
@[simp] theorem State.settleHolds_freeCtr (s : State) (asid : Asid) (va : Nat) (h : ListHdr) : (s.settleHolds asid va h).freeCtr = s.freeCtr := rfl
@[simp] theorem State.settleHolds_fuse (s : State) (asid : Asid) (va : Nat) (h : ListHdr) : (s.settleHolds asid va h).fuse = s.fuse := rfl
@[simp] theorem State.settleHolds_turns (s : State) (asid : Asid) (va : Nat) (h : ListHdr) : (s.settleHolds asid va h).turns = s.turns := rfl

/-! ### The side logs -/

/-- An entry that enters a log changes the side logs alone. -/
theorem State.logAppend_frame (s : State) (core : Nat) (e : LogEntry) :
    s.logAppend core e = { s with sys := (s.logAppend core e).sys } := rfl

/-- Returning entries changes the side logs alone. -/
theorem State.returnEntries_frame (l : List LogEntry) (s : State) :
    (s.returnEntries l).2 = { s with sys := (s.returnEntries l).2.sys } := by
  induction l generalizing s with
  | nil => rfl
  | cons e l ih =>
    unfold State.returnEntries
    split
    · exact ih s
    · rw [ih]; rfl

/-- What is given back is a part of what was to be returned, in its order. -/
theorem State.returnEntries_sublist (l : List LogEntry) (s : State) : (s.returnEntries l).1.Sublist l := by
  induction l generalizing s with
  | nil => exact .slnil
  | cons e l ih =>
    unfold State.returnEntries
    split
    · exact (ih s).cons_cons e
    · exact (ih _).cons e

/-- A store's entries enter the logs, or the gang holds with those that found no room. -/
theorem State.enterLog_cases (s : State) (l : List LogEntry) :
    ((s.returnEntries l).1 = [] ∧ s.enterLog l = ((s.returnEntries l).2, true)) ∨
    ((s.returnEntries l).1 ≠ [] ∧
      s.enterLog l = ((s.returnEntries l).2.wait (.logRoom (s.returnEntries l).1), false)) := by
  unfold State.enterLog
  cases h : (s.returnEntries l).1 with
  | nil => exact .inl ⟨rfl, by simp [h]⟩
  | cons e r => exact .inr ⟨by simp, by simp [h]⟩

end Sys2Proof.Machine
end

