-- ==== Sys2Proof/Laws/Rounding.lean ====
section
/-! SUPPORT. The exact values behind the floating-point results: sums, products and quotients as real numbers
(R66, R73, R222). -/

namespace Sys2Proof

theorem pow_sub_mul_zpow {x e : ℤ} (h : x ≤ e) : ((2 ^ (e - x).toNat : ℕ) : ℝ) * 2 ^ x = 2 ^ e := by
  push_cast
  rw [← zpow_natCast, Int.toNat_of_nonneg (by omega), ← zpow_add₀ (by norm_num)]
  congr 1; omega

/-- A value read at a smaller exponent is the same real. -/
theorem FVal.at_real (v : FVal) (x : ℤ) (hx : x ≤ v.exp) (hv : v.isNan = false) (hi : v.isInf = false) :
    ((v.at x : ℤ) : ℝ) * 2 ^ x = v.real := by
  cases v with
  | nan b => simp [FVal.isNan] at hv
  | inf n => simp [FVal.isInf] at hi
  | num n m e =>
      simp only [FVal.exp] at hx
      have := pow_sub_mul_zpow hx
      simp only [FVal.at, FVal.real]
      cases n <;> simp <;> rw [mul_assoc] <;> congr 1 <;> simpa using this

theorem Mag.holds_exact (m : ℕ) (e : ℤ) : Mag.Holds { m := m, e := e } ((m : ℝ) * 2 ^ e) := by
  refine ⟨le_refl _, ?_, by simp, by simp⟩
  have : (0:ℝ) < 2 ^ e := by positivity
  nlinarith

/-- The exact sum of one or two finite values. -/
theorem exactSum_real (vs : List FVal) (h : ∀ v ∈ vs, v.isNan = false ∧ v.isInf = false) :
    (((exactSum vs).1 : ℤ) : ℝ) * 2 ^ (exactSum vs).2 = (vs.map FVal.real).sum := by
  unfold exactSum
  dsimp only
  generalize hx : vs.foldl (fun a v => min a v.exp) 0 = x
  have hle : ∀ (l : List FVal) (a : ℤ), l.foldl (fun a v => min a v.exp) a ≤ a ∧ ∀ v ∈ l, l.foldl (fun a v => min a v.exp) a ≤ v.exp := by
    intro l
    induction l with
    | nil => simp
    | cons v t ih =>
        intro a
        obtain ⟨h1, h2⟩ := ih (min a v.exp)
        refine ⟨by simp only [List.foldl_cons]; omega, fun w hw => ?_⟩
        rcases List.mem_cons.1 hw with rfl | hw
        · simp only [List.foldl_cons]; omega
        · simp only [List.foldl_cons]; exact h2 w hw
  have hmin : ∀ v ∈ vs, x ≤ v.exp := fun v hv => hx ▸ (hle vs 0).2 v hv
  clear hx hle
  have : ∀ (a : ℤ), ((vs.foldl (fun a v => a + v.at x) a : ℤ) : ℝ) * 2 ^ x = (a : ℝ) * 2 ^ x + (vs.map FVal.real).sum := by
    induction vs with
    | nil => simp
    | cons v t ih =>
        intro a
        simp only [List.foldl_cons, List.map_cons, List.sum_cons]
        rw [ih (fun w hw => h w (List.mem_cons_of_mem _ hw)) (fun w hw => hmin w (List.mem_cons_of_mem _ hw))]
        have hv := v.at_real x (hmin v (List.mem_cons_self ..)) (h v (List.mem_cons_self ..)).1 (h v (List.mem_cons_self ..)).2
        push_cast
        rw [← hv]; ring
  simpa using this 0

theorem FloatFmt.sum_round (f : FloatFmt) (mode : ℕ) (sat : Bool) (vs : List FVal) (st : Word)
    (h : ∀ v ∈ vs, v.isNan = false ∧ v.isInf = false) (hq : (vs.map FVal.real).sum ≠ 0) :
    f.RoundOf mode sat (vs.map FVal.real).sum st (f.sum mode sat vs st) := by
  have hs := exactSum_real vs h
  unfold FloatFmt.sum
  generalize exactSum vs = p at *
  obtain ⟨n, x⟩ := p
  dsimp only at *
  have hp : (0:ℝ) < 2 ^ x := by positivity
  have hn : n ≠ 0 := by rintro rfl; simp at hs; exact hq hs.symm
  rw [if_neg hn, ← hs]
  refine ⟨{ m := n.natAbs, e := x }, decide (n < 0), ?_, ?_, rfl⟩
  · have := Mag.holds_exact n.natAbs x
    rw [abs_mul, abs_of_pos hp]
    convert this using 2
    rw [← Int.cast_abs, Int.abs_eq_natAbs]; simp
  · rw [decide_eq_true_eq, mul_neg_iff]
    constructor
    · intro h; right; exact ⟨by exact_mod_cast h, hp⟩
    · rintro (⟨_, h⟩ | ⟨h, _⟩)
      · linarith
      · exact_mod_cast h

theorem FVal.real_eq_zero (v : FVal) (hn : v.isNan = false) (hi : v.isInf = false) : v.real = 0 ↔ v.isZero = true := by
  cases v with
  | nan b => simp [FVal.isNan] at hn
  | inf n => simp [FVal.isInf] at hi
  | num n m e =>
      have hp : (2:ℝ) ^ e ≠ 0 := by positivity
      cases n <;> simp [FVal.real, FVal.isZero, hp]

theorem FloatFmt.sum_zero (f : FloatFmt) (mode : ℕ) (sat : Bool) (vs : List FVal) (st : Word)
    (h : ∀ v ∈ vs, v.isNan = false ∧ v.isInf = false) (hq : (vs.map FVal.real).sum = 0) :
    f.sum mode sat vs st = f.zero mode (zeroSumNeg mode vs) st := by
  have hs := exactSum_real vs h
  unfold FloatFmt.sum
  generalize exactSum vs = p at *
  obtain ⟨n, x⟩ := p
  dsimp only at *
  have hp : (2:ℝ) ^ x ≠ 0 := by positivity
  rw [hq] at hs
  have hn : n = 0 := by
    rcases mul_eq_zero.1 hs with h | h
    · exact_mod_cast h
    · exact absurd h hp
  rw [if_pos hn]
  simp [FloatFmt.round, FloatFmt.zero]

/-- FADD's result meets its specification. -/
theorem FloatFmt.add_isSum (f : FloatFmt) (mode : ℕ) (sat : Bool) (a b : FVal) (st : Word) :
    f.IsSum mode sat a b st (f.add mode sat a b st) := by
  unfold FloatFmt.IsSum FloatFmt.add
  by_cases h1 : a.isNan ∨ b.isNan
  · rw [if_pos h1, if_pos (by simpa using h1)]; rfl
  · have h1' : ¬(a.isNan || b.isNan) = true := by simpa using h1
    rw [if_neg h1, if_neg h1']
    simp only [not_or, Bool.not_eq_true] at h1
    by_cases h2 : a.isInf ∧ b.isInf ∧ a.neg ≠ b.neg
    · have h2' : (a.isInf && b.isInf && a.neg != b.neg) = true := by simpa [and_assoc] using h2
      rw [if_pos h2, if_pos h2']
    · have h2' : ¬(a.isInf && b.isInf && a.neg != b.neg) = true := by simpa [and_assoc] using h2
      rw [if_neg h2, if_neg h2']
      by_cases h3 : a.isInf
      · simp [h3]
      · by_cases h4 : b.isInf
        · simp [h3, h4]
        · simp only [Bool.not_eq_true] at h3 h4
          have hfin : ∀ v ∈ [a, b], v.isNan = false ∧ v.isInf = false := by
            intro v hv; simp at hv; rcases hv with rfl | rfl <;> simp_all
          have hsum : ([a, b].map FVal.real).sum = a.real + b.real := by simp
          simp only [h3, h4, Bool.false_eq_true, or_self, if_false]
          by_cases hq : a.real + b.real = 0
          · rw [if_neg (by simpa using hq), FloatFmt.sum_zero _ _ _ _ _ hfin (by rw [hsum, hq])]
            congr 1
            have ha := a.real_eq_zero h1.1 h3
            have hb := b.real_eq_zero h1.2 h4
            unfold zeroSumNeg
            by_cases hz : a.isZero = true
            · have hzb : b.isZero = true := hb.1 (by rw [ha.2 hz] at hq; simpa using hq)
              cases hna : a.neg <;> cases hnb : b.neg <;> simp [hz, hzb, hna, hnb]
            · simp [hz]
          · rw [if_pos hq]
            have := FloatFmt.sum_round f mode sat [a, b] st hfin (by rw [hsum]; exact hq)
            rwa [hsum] at this

theorem FVal.times_real (a b : FVal) : (a.times b).real = if a.isNan ∨ b.isNan ∨ a.isInf ∨ b.isInf then 0 else a.real * b.real := by
  cases a <;> cases b <;> simp [FVal.times, FVal.real, FVal.isNan, FVal.isInf]
  next n m e n' m' e' =>
    rw [zpow_add₀ (by norm_num)]
    cases n <;> cases n' <;> simp <;> ring


theorem FVal.times_isNan (a b : FVal) : (a.times b).isNan = false := by cases a <;> cases b <;> rfl
theorem FVal.times_isInf (a b : FVal) : (a.times b).isInf = false := by cases a <;> cases b <;> rfl

/-- FMUL's result meets its specification. -/
theorem FloatFmt.mul_isProduct (f : FloatFmt) (mode : ℕ) (sat : Bool) (a b : FVal) (st : Word) :
    f.IsProduct mode sat a b st (f.mul mode sat a b st) := by
  unfold FloatFmt.IsProduct FloatFmt.mul
  by_cases h1 : a.isNan ∨ b.isNan
  · have h1' : (a.isNan || b.isNan) = true := by simpa using h1
    rw [if_pos h1, if_pos h1']; rfl
  · have h1' : ¬(a.isNan || b.isNan) = true := by simpa using h1
    rw [if_neg h1, if_neg h1']
    simp only [not_or, Bool.not_eq_true] at h1
    by_cases h2 : (a.isZero = true ∧ b.isInf = true) ∨ (a.isInf = true ∧ b.isZero = true)
    · have h2' : zeroTimesInf a b = true := by simpa [zeroTimesInf] using h2
      rw [if_pos h2, if_pos h2']
    · have h2' : ¬zeroTimesInf a b = true := by simpa [zeroTimesInf] using h2
      rw [if_neg h2, if_neg h2']
      by_cases h3 : a.isInf = true ∨ b.isInf = true
      · have h3' : (a.isInf || b.isInf) = true := by simpa using h3
        rw [if_pos h3, if_pos h3']
      · have h3' : ¬(a.isInf || b.isInf) = true := by simpa using h3
        rw [if_neg h3, if_neg h3']
        simp only [not_or, Bool.not_eq_true] at h3
        have hfin : ∀ v ∈ [a.times b], v.isNan = false ∧ v.isInf = false := by
          intro v hv; simp at hv; subst hv; exact ⟨FVal.times_isNan _ _, FVal.times_isInf _ _⟩
        have hsum : ([a.times b].map FVal.real).sum = a.real * b.real := by
          simp [FVal.times_real, h1, h3]
        by_cases hq : a.real * b.real = 0
        · rw [if_neg (not_not.2 hq), FloatFmt.sum_zero _ _ _ _ _ hfin (by rw [hsum, hq])]
          congr 1
          have hz := (a.times b).real_eq_zero (FVal.times_isNan _ _) (FVal.times_isInf _ _)
          have hz' : (a.times b).isZero = true := hz.1 (by simpa [hq] using hsum)
          have hn : (a.times b).neg = (a.neg != b.neg) := by
            cases a <;> cases b <;> simp_all [FVal.times, FVal.neg, FVal.isNan, FVal.isInf]
          unfold zeroSumNeg
          simp [hz', hn]
          cases a.neg <;> cases b.neg <;> rfl
        · rw [if_pos hq]
          have := FloatFmt.sum_round f mode sat [a.times b] st hfin (by rw [hsum]; exact hq)
          rwa [hsum] at this

theorem bitLength_lt (n : ℕ) : n < 2 ^ bitLength n := by
  unfold bitLength
  split
  · next h => subst h; simp
  · exact Nat.lt_log2_self
theorem bitLength_le (n : ℕ) (h : n ≠ 0) : 2 ^ (bitLength n - 1) ≤ n := by
  unfold bitLength; rw [if_neg h]; simpa using Nat.log2_self_le h

/-- A quotient's magnitude stands for the real quotient. -/
theorem quotient_holds (n d : ℕ) (e : ℤ) (hn : n ≠ 0) (hd : d ≠ 0) : (quotient n d e).Holds ((n : ℝ) / d * 2 ^ e) := by
  unfold quotient
  generalize hk : 90 + bitLength d - min (90 + bitLength d) (bitLength n) = k
  dsimp only
  have hd' : (0:ℝ) < d := by exact_mod_cast Nat.pos_of_ne_zero hd
  have hke : (0:ℝ) < 2 ^ (e - k) := by positivity
  have hq : (n : ℝ) / d * 2 ^ e = ((n * 2 ^ k : ℕ) : ℝ) / d * 2 ^ (e - k) := by
    rw [zpow_sub₀ (by norm_num), zpow_natCast]; push_cast; field_simp
  rw [hq]
  have hdm := Nat.div_add_mod (n * 2 ^ k) d
  generalize hN : n * 2 ^ k = N at *
  have hlt := Nat.mod_lt N (Nat.pos_of_ne_zero hd)
  have hNr : (N : ℝ) = d * (N / d : ℕ) + (N % d : ℕ) := by exact_mod_cast hdm.symm
  have hr0 : (0:ℝ) ≤ (N % d : ℕ) := by positivity
  have hr1 : ((N % d : ℕ):ℝ) < d := by exact_mod_cast hlt
  have hdiv : (N : ℝ) / d = (N / d : ℕ) + (N % d : ℕ) / d := by rw [hNr]; field_simp
  refine ⟨?_, ?_, ?_, ?_⟩
  · dsimp only
    apply mul_le_mul_of_nonneg_right _ hke.le
    rw [hdiv]; have : (0:ℝ) ≤ (N % d : ℕ) / d := by positivity
    linarith
  · dsimp only
    apply mul_lt_mul_of_pos_right _ hke
    rw [hdiv]; have : ((N % d : ℕ):ℝ) / d < 1 := by rw [div_lt_one hd']; exact hr1
    linarith
  · dsimp only
    rw [decide_eq_true_eq]
    constructor
    · intro h h2
      have h2 := mul_right_cancel₀ hke.ne' h2
      rw [hdiv] at h2
      have : ((N % d : ℕ):ℝ) / d = 0 := by linarith
      rw [div_eq_zero_iff] at this
      rcases this with h3 | h3
      · exact h (by exact_mod_cast h3)
      · exact hd'.ne' h3
    · intro h h2
      apply h
      rw [hdiv, h2]; simp
  · intro _
    dsimp only
    rw [Nat.le_div_iff_mul_le (Nat.pos_of_ne_zero hd)]
    have h1 := bitLength_lt d
    have h2 := bitLength_le n hn
    rw [← hN]
    have hbn : 1 ≤ bitLength n := by unfold bitLength; rw [if_neg hn]; omega
    calc 2 ^ 64 * d ≤ 2 ^ 64 * 2 ^ bitLength d := Nat.mul_le_mul_left _ h1.le
      _ = 2 ^ (64 + bitLength d) := by rw [pow_add]
      _ ≤ 2 ^ (bitLength n - 1 + k) := Nat.pow_le_pow_right (by norm_num) (by omega)
      _ = 2 ^ (bitLength n - 1) * 2 ^ k := by rw [pow_add]
      _ ≤ n * 2 ^ k := Nat.mul_le_mul_right _ h2
end Sys2Proof
end

