-- ==== Sys2Proof/Tests/Slice0.lean ====
section
/-! SUPPORT. Tests: words of every instruction written out from the spec's encodings, ill-formed terms that the check
refuses, small steps with results from the spec's tables and worked examples, and states that meet the hypotheses of the
statements. -/

namespace Sys2Proof.Machine

set_option maxRecDepth 100000
set_option exponentiation.threshold 5000

/-! ### Decoding -/

/-- No guard, STALL 0. -/
def h7 : Hdr := ⟨0, false, 7⟩

/-- An instruction of the typed layout with MOD 0, and of the function layout. -/
def typed (ty : Ty) (var : BitVec 3) (d a b c : Sel) (imm : Word) : Typed :=
  ⟨h7, ty, var, d, a, b, c, 0, false, false, false, false, false, imm⟩
def func (fn : BitVec 8) (d a b c : Sel) (md : BitVec 8) (imm : Word) : Fun := ⟨h7, fn, d, a, b, c, md, imm⟩

/-- Every word decodes to its instruction, which is well formed and has that word. -/
def reads (l : List (InstrWord × Instr)) : Bool :=
  l.all fun e => decide (decode 128 e.1 = .ok e.2) && e.2.wellFormed && decide (encode e.2 = some e.1)

/-- The integer group: fields of each word as R216 give them. -/
theorem test_words_integer1 : reads [
    (0x010718010203FF0000000000, .iadd (typed .i32 0 (.v 1) (.v 2) (.v 3) .none 0)),
    (0x020718010203FF0000000000, .isub (typed .i32 0 (.v 1) (.v 2) (.v 3) .none 0)),
    (0x030718010203FF0000000000, .imul (typed .i32 0 (.v 1) (.v 2) (.v 3) .none 0)),
    (0x080718010203FF0000000000, .imin (typed .i32 0 (.v 1) (.v 2) (.v 3) .none 0)),
    (0x090718010203FF0000000000, .imax (typed .i32 0 (.v 1) (.v 2) (.v 3) .none 0)),
    (0x0E0718010203FF0000000000, .shl (typed .i32 0 (.v 1) (.v 2) (.v 3) .none 0)),
    (0x0F0718010203FF0000000000, .shr (typed .i32 0 (.v 1) (.v 2) (.v 3) .none 0)),
    (0x100718010203FF0000000000, .sar (typed .i32 0 (.v 1) (.v 2) (.v 3) .none 0))] = true := by decide

theorem test_words_integer2 : reads [
    (0x040738010203FF0000000000, .imulh (typed .n32 0 (.v 1) (.v 2) (.v 3) .none 0)),
    (0x060738010203FF0000000000, .idiv (typed .n32 0 (.v 1) (.v 2) (.v 3) .none 0)),
    (0x070738010203FF0000000000, .irem (typed .n32 0 (.v 1) (.v 2) (.v 3) .none 0)),
    (0x110738010203FF0000000000, .rot (typed .n32 0 (.v 1) (.v 2) (.v 3) .none 0)),
    (0x120738010203FF0000000000, .bfx (typed .n32 0 (.v 1) (.v 2) (.v 3) .none 0)),
    (0x0A07008586F0FF000000FFFF, .and (typed .untyped 0 (.s 5) (.s 6) .imm .none 65535)),
    (0x0B07008586F0FF000000FFFF, .or (typed .untyped 0 (.s 5) (.s 6) .imm .none 65535)),
    (0x0C07008586F0FF000000FFFF, .xor (typed .untyped 0 (.s 5) (.s 6) .imm .none 65535))] = true := by decide

theorem test_words_integer3 : reads [
    (0x0D07008586F0FF000000FFFF, .andn (typed .untyped 0 (.s 5) (.s 6) .imm .none 65535)),
    (0x050720020406080000000000, .imad (typed .i64 0 (.v 2) (.v 4) (.v 6) (.v 8) 0)),
    (0x130718010203040000000000, .bfi (typed .i32 0 (.v 1) (.v 2) (.v 3) (.v 4) 0)),
    (0x1407400204FFFF0000000000, .popc (typed .n64 0 (.v 2) (.v 4) .none .none 0)),
    (0x1507400204FFFF0000000000, .clz (typed .n64 0 (.v 2) (.v 4) .none .none 0)),
    (0x1607400204FFFF0000000000, .brev (typed .n64 0 (.v 2) (.v 4) .none .none 0)),
    (0x17071AC102F0FF0000000009, .icmp (typed .i32 2 (.p 1) (.v 2) .imm .none 9)),
    (0x180700010203C20000000000, .sel (typed .untyped 0 (.v 1) (.v 2) (.v 3) (.p 2) 0))] = true := by decide

theorem test_words_integer4 : reads [
    (0x19070001E0FFFF0000000000, .mov (typed .untyped 0 (.v 1) (.sp .strand) .none .none 0)),
    (0x1A0722088403FF0000000000, .lea (typed .i64 2 (.v 8) (.s 4) (.v 3) .none 0)),
    (0x1B0701010203040000000000, .prmt (typed .untyped 1 (.v 1) (.v 2) (.v 3) (.v 4) 0)),
    (0x1C0700C2C0C1C300000000EA, .plop (typed .untyped 0 (.p 2) (.p 0) (.p 1) (.p 3) 234)),
    (0x1D071B010203040000000000, .idot4 (typed .i32 3 (.v 1) (.v 2) (.v 3) (.v 4) 0)),
    (0x1E07080102FFFF0000000000, .iabs (typed .i8 0 (.v 1) (.v 2) .none .none 0))] = true := by decide

/-- The floats group: fields of each word as R222, R228-R231; FFMA and MXPACK are the spec's worked words give them. -/
theorem test_words_floats1 : reads [
    (0x200748010203FF0000000000, .fadd (typed .f32 0 (.v 1) (.v 2) (.v 3) .none 0)),
    (0x210748010203FF0000000000, .fsub (typed .f32 0 (.v 1) (.v 2) (.v 3) .none 0)),
    (0x220748010203FF0000000000, .fmul (typed .f32 0 (.v 1) (.v 2) (.v 3) .none 0)),
    (0x240748010203FF0000000000, .fmin (typed .f32 0 (.v 1) (.v 2) (.v 3) .none 0)),
    (0x250748010203FF0000000000, .fmax (typed .f32 0 (.v 1) (.v 2) (.v 3) .none 0)),
    (0x2D0748010203FF0000000000, .fdiv (typed .f32 0 (.v 1) (.v 2) (.v 3) .none 0)),
    (0x2E0748010203FF0000000000, .fscale (typed .f32 0 (.v 1) (.v 2) (.v 3) .none 0)),
    (0x26074EC00102FF0000000000, .fcmp (typed .f32 6 (.p 0) (.v 1) (.v 2) .none 0))] = true := by decide

theorem test_words_floats2 : reads [
    (0x2707800102FFFF0000000000, .fclass (typed .e2m1 0 (.v 1) (.v 2) .none .none 0)),
    (0x2807480102FFFF0000000000, .frcp (typed .f32 0 (.v 1) (.v 2) .none .none 0)),
    (0x2907480102FFFF0000000000, .frsq (typed .f32 0 (.v 1) (.v 2) .none .none 0)),
    (0x2A07480102FFFF0000000000, .fsqrt (typed .f32 0 (.v 1) (.v 2) .none .none 0)),
    (0x2B07480102FFFF0000000000, .fexp2 (typed .f32 0 (.v 1) (.v 2) .none .none 0)),
    (0x2C07480102FFFF0000000000, .flog2 (typed .f32 0 (.v 1) (.v 2) .none .none 0)),
    (0x2F07590102FFFF0000000000, .fround (typed .bf16 1 (.v 1) (.v 2) .none .none 0)),
    (0x300750010203FF0000000000, .hadd2 (typed .f16 0 (.v 1) (.v 2) (.v 3) .none 0))] = true := by decide

theorem test_words_floats3 : reads [
    (0x310750010203FF0000000000, .hmul2 (typed .f16 0 (.v 1) (.v 2) (.v 3) .none 0)),
    (0x320750010203040000000000, .hfma2 (typed .f16 0 (.v 1) (.v 2) (.v 3) (.v 4) 0)),
    (0x230B48060708062800000000, .ffma ⟨⟨0, true, 3⟩, .f32, 0, .v 6, .v 7, .v 8, .v 6, 1, false, true, false, false, false, 0⟩),
    (0x4007510102FF098000000000, .cvt ⟨h7, .f16, .f32, 1, .v 1, .v 2, .none, 4, false, 0⟩),
    (0x4107180102FF093000000000, .cvti ⟨h7, .i32, .f32, 0, .v 1, .v 2, .none, 1, true, 0⟩),
    (0x4207882800FF090000000000, .mxpack ⟨h7, .mx8, .f32, 0, .v 40, .v 0, .none, 0, false, 0⟩),
    (0x4307480040FF110000000000, .mxunpack ⟨h7, .f32, .mx8, 0, .v 0, .v 64, .none, 0, false, 0⟩),
    (0x4407A84000F009003F000000, .ternq ⟨h7, .t2, .f32, 0, .v 64, .v 0, .imm, 0, false, 0x3F000000⟩)] = true := by decide

/-- The memory group: fields of each word as R136-R146; ST, STP and LDS are the spec's worked words give them. -/
theorem test_words_memory1 : reads [
    (0x500740048402FF6800000005, .ld ⟨h7, .s4, false, false, 3, 1, 0, .v 4, .s 4, .v 2, .none, 0, 5⟩),
    (0x510741FF880302705F020002, .st ⟨h7, .s4, true, false, 3, 2, 0, .none, .s 8, .v 3, .v 2, 0x5F02, 2⟩),
    (0x5207808A84FFFF0000000001, .ldc ⟨h7, .s16, false, false, 0, 0, 0, .s 10, .s 4, .none, .none, 0, 1⟩),
    (0x530780FF84FF8A0000000001, .stc ⟨h7, .s16, false, false, 0, 0, 0, .none, .s 4, .none, .s 10, 0, 1⟩),
    (0x540722048402FF040000FFFF, .ldp ⟨h7, .s2, false, true, 0, 0, 4, .v 4, .s 4, .v 2, .none, 0, 0xFFFF⟩),
    (0x550740FF80FF02005F0C0040, .stp ⟨h7, .s4, false, false, 0, 0, 0, .none, .s 0, .none, .v 2, 0x5F0C, 0x40⟩),
    (0x56076004FF02FF0000000000, .lds ⟨h7, .s8, false, false, 0, 0, 0, .v 4, .none, .v 2, .none, 0, 0⟩),
    (0x570700FFFF02030000000000, .sts ⟨h7, .s1, false, false, 0, 0, 0, .none, .none, .v 2, .v 3, 0, 0⟩)] = true := by decide

theorem test_words_memory2 : reads [
    (0x5807008A84FFFF005F020000, .park ⟨h7, 0, .s 10, .s 4, .none, .none, 0, 0x5F020000⟩),
    (0x590700FF84FFFF0000000000, .unpark ⟨h7, 0, .none, .s 4, .none, .none, 0, 0⟩),
    (0x5A07008A84FFFF0060030000, .revise ⟨h7, 0, .s 10, .s 4, .none, .none, 0, 0x60030000⟩),
    (0x5B0740FF8402FF0200000003, .prefetch ⟨h7, .s4, false, false, 0, 0, 2, .none, .s 4, .v 2, .none, 0, 3⟩),
    (0x5C0740FF8402FF0000000003, .flush ⟨h7, .s4, false, false, 0, 0, 0, .none, .s 4, .v 2, .none, 0, 3⟩),
    (0x5D0742FF8402FF0000000003, .inval ⟨h7, .s4, false, true, 0, 0, 0, .none, .s 4, .v 2, .none, 0, 3⟩)] = true := by decide

/-- The capabilities group: fields of each word as R148-R155 give them. -/
theorem test_words_capabilities1 : reads [
    (0x6007008486FFFF0000000000, .capset (func 0 (.s 4) (.s 6) .none .none 0 0)),
    (0x610700848688890000000000, .capnarrowRange (func 0 (.s 4) (.s 6) (.s 8) (.s 9) 0 0)),
    (0x6107018486FFFF000000000F, .capnarrowPerm (func 1 (.s 4) (.s 6) .none .none 0 0xF)),
    (0x610702848688890000000000, .capnarrowSubtile (func 2 (.s 4) (.s 6) (.s 8) (.s 9) 0 0)),
    (0x610703848688FF0000000000, .capnarrowVersion (func 3 (.s 4) (.s 6) (.s 8) .none 0 0)),
    (0x6107048486FFFF0000000014, .capnarrowRetype (func 4 (.s 4) (.s 6) .none .none 0 0x14)),
    (0x62070A8386FFFF0000000000, .capget (func 10 (.s 3) (.s 6) .none .none 0 0)),
    (0x630743C28604FF0000000001, .capchk ⟨h7, .s4, 3, .p 2, .s 6, .v 4, 1⟩)] = true := by decide

theorem test_words_capabilities2 : reads [
    (0x6407008486FFFF0000000000, .capmov (func 0 (.s 4) (.s 6) .none .none 0 0)),
    (0x6507008386FFFF0000000000, .seal (func 0 (.s 3) (.s 6) .none .none 0 0)),
    (0x6507018386FFFF0000000000, .sealOpen (func 1 (.s 3) (.s 6) .none .none 0 0)),
    (0x660700FF86FFFF0000000000, .reseal (func 0 .none (.s 6) .none .none 0 0))] = true := by decide

/-- The atomics group: fields of each word as R173-R183, R289, R352; ATOM, RED and FENCE are the spec's worked words give them. -/
theorem test_words_atomics1 : reads [
    (0x7007410A8C0209B800000000, .atom ⟨h7, .s4, 0, true, 5, 3, 0, .v 10, .s 12, .v 2, .v 9, 0⟩),
    (0x710140FF818A029000000020, .red ⟨⟨0, false, 1⟩, .s4, 0, false, 4, 2, 0, .none, .s 1, .s 10, .v 2, 0x20⟩),
    (0x720760048402080000000001, .cas ⟨h7, .s8, 0, false, 0, 0, 0, .v 4, .s 4, .v 2, .v 8, 1⟩),
    (0x73075A04FF02080000000001, .atoms ⟨h7, .s4, 13, false, 0, 0, 0, .v 4, .none, .v 2, .v 8, 1⟩),
    (0x74074004FF02080000000001, .cass ⟨h7, .s4, 0, false, 0, 0, 0, .v 4, .none, .v 2, .v 8, 1⟩),
    (0x7507008AFFFFFFD000000000, .fence (func 0 (.s 10) .none .none .none 0xD0 0)),
    (0x750701FFFFFFFFB800000000, .fenceSc (func 1 .none .none .none .none 0xB8 0)),
    (0x760700FFFFFFFF0000000003, .barSync (func 0 .none .none .none .none 0 3))] = true := by decide

theorem test_words_atomics2 : reads [
    (0x760701FF84FFFF0000000000, .barArrive (func 1 .none (.s 4) .none .none 0 0)),
    (0x760702FFFFFFFF000000005F, .barWait (func 2 .none .none .none .none 0 0x5F)),
    (0x770700FFFFFFFF0000020003, .barset (func 0 .none .none .none .none 0 0x20003)),
    (0x78070183F0FFFF0000000041, .waith (func 1 (.s 3) .imm .none .none 0 0x41)),
    (0x7907008384FFFF0000000000, .testh (func 0 (.s 3) (.s 4) .none .none 0 0)),
    (0x7A0700FF84FFFF0000000000, .cancelh (func 0 .none (.s 4) .none .none 0 0))] = true := by decide

/-- The control group: fields of each word as R312-R324; BRX is the spec's worked word give them. -/
theorem test_words_control1 : reads [
    (0x800200FFFFFFFF0000000013, .bra ⟨⟨0, false, 2⟩, 0, .none, .none, .none, .none, 0, 0x13⟩),
    (0x81020000080F036000000010, .brx ⟨⟨0, false, 2⟩, 3, .v 8, .v 15, 3, 0x10⟩),
    (0x820700FFFFFFFF0000000000, .join (func 0 .none .none .none .none 0 0)),
    (0x83070008FFFFFF0000000010, .call (func 0 (.v 8) .none .none .none 0 0x10)),
    (0x840700FF08FFFF0000000000, .ret (func 0 .none (.v 8) .none .none 0 0)),
    (0x850700FF84FFFF0000000000, .jmpr (func 0 .none (.s 4) .none .none 0 0)),
    (0x86070084FFFFFF00FFFFFFF8, .loop (func 0 (.s 4) .none .none .none 0 0xFFFFFFF8)),
    (0x870700FFFFFFFF0000000000, .exit (func 0 .none .none .none .none 0 0))] = true := by decide

theorem test_words_control2 : reads [
    (0x880700FFFFFFFF0000000000, .yield (func 0 .none .none .none .none 0 0)),
    (0x89F700FFFFFFFF0000000000, .nop ⟨⟨15, false, 7⟩, 0, .none, .none, .none, .none, 0, 0⟩)] = true := by decide

/-- The collectives group: fields of each word as R265-R271; SHFL is the spec's worked word give them. -/
theorem test_words_collectives1 : reads [
    (0x9007030504F0C90000000001, .shfl (typed .untyped 3 (.v 5) (.v 4) .imm (.g 1) 1)),
    (0x910704C1C2F0C90000000004, .vote (typed .untyped 4 (.p 1) (.p 2) .imm (.g 1) 4)),
    (0x92070084C2FFFF0000000000, .ballot (typed .untyped 0 (.s 4) (.p 2) .none .none 0)),
    (0x9307180604FFC90000000000, .redux (typed .i32 0 (.v 6) (.v 4) .none (.g 1) 0)),
    (0x94074A0604FFC90000000001, .scan (typed .f32 2 (.v 6) (.v 4) .none (.g 1) 1)),
    (0x950701C9F0FFFF0000000008, .part (typed .untyped 1 (.g 1) .imm .none .none 8)),
    (0x9607400604FFC90000000000, .matchI (typed .n64 0 (.v 6) (.v 4) .none (.g 1) 0)),
    (0x970700C1FFFFC90000000000, .elect (typed .untyped 0 (.p 1) .none .none (.g 1) 0))] = true := by decide

theorem test_words_collectives2 : reads [
    (0x980700FFFFFFFF0000000000, .prioTake (typed .untyped 0 .none .none .none .none 0)),
    (0x980701FF84FFFF0000000000, .prioPass (typed .untyped 1 .none (.s 4) .none .none 0)),
    (0x980702FFFFFFFF0000000000, .prioDrop (typed .untyped 2 .none .none .none .none 0)),
    (0x990749080405C90000000000, .smxstep (typed .f32 1 (.v 8) (.v 4) (.v 5) (.g 1) 0))] = true := by decide

/-- The matrix group: fields of each word as R246-R256; MXRUN is the spec's worked word give them. -/
theorem test_words_matrix1 : reads [
    (0xA007008C8486FF2000000123, .mxloadw (func 0 (.s 12) (.s 4) (.s 6) .none 0x20 0x123)),
    (0xA10700FFFFFFFF0000000000, .mxswap (func 0 .none .none .none .none 0 0)),
    (0xA207008C94FFFF0000000000, .mxrun (func 0 (.s 12) (.s 20) .none .none 0 0)),
    (0xA30700FFFFFFFF0000000000, .mxfence (func 0 .none .none .none .none 0 0)),
    (0xA407498C8483FF305F020000, .mxdrain ⟨h7, .f32, 1, .s 12, .s 4, .s 3, .none, 1, true, false, false, false, false, 0x5F020000⟩),
    (0xA4071A08FF83840000000000, .mxdrainR (typed .i32 2 (.v 8) .none (.s 3) (.s 4) 0)),
    (0xA50700FF84FFFF0000000000, .mxzero (func 0 .none (.s 4) .none .none 0 0)),
    (0xA6070083FFFFFF0000000000, .mxstat (func 0 (.s 3) .none .none .none 0 0))] = true := by decide

theorem test_words_matrix2 : reads [
    (0xA6070183FFFFFF0000000000, .mxstatFlagsclr (func 1 (.s 3) .none .none .none 0 0))] = true := by decide

/-- The stitch group: fields of each word as R190-R209, R272; COPY and GATHER are the spec's worked words give them. -/
theorem test_words_stitch1 : reads [
    (0xB007008A8488FF0020000000, .copy (func 0 (.s 10) (.s 4) (.s 8) .none 0 0x20000000)),
    (0xB10601FF86078A000000959A, .gather ⟨⟨0, false, 6⟩, 1, .none, .s 6, .v 7, .s 10, 0, 0x959A⟩),
    (0xB20700FF86078A005F02FF9A, .scatter (func 0 .none (.s 6) (.v 7) (.s 10) 0 0x5F02FF9A)),
    (0xB30700848688830000000000, .slistInit (func 0 (.s 4) (.s 6) (.s 8) (.s 3) 0 0)),
    (0xB307128386FFFF0000000000, .slistStat (func 0x12 (.s 3) (.s 6) .none .none 0 0)),
    (0xB407808A8683880000000009, .spliceIns (func 0x80 (.s 10) (.s 6) (.s 3) (.s 8) 0 9)),
    (0xB407018A8683850000000000, .spliceRemove (func 1 (.s 10) (.s 6) (.s 3) (.s 5) 0 0)),
    (0xB407028A8683FF0000000000, .spliceTrunc (func 2 (.s 10) (.s 6) (.s 3) .none 0 0))] = true := by decide

theorem test_words_stitch2 : reads [
    (0xB507008486FFFF0000000000, .pin (func 0 (.s 4) (.s 6) .none .none 0 0)),
    (0xB507018486FFFF0000000000, .pinVer (func 1 (.s 4) (.s 6) .none .none 0 0)),
    (0xB60700FF86FFFF0000000000, .unpin (func 0 .none (.s 6) .none .none 0 0)),
    (0xB70703838685FF0000000000, .slook (func 3 (.s 3) (.s 6) (.s 5) .none 0 0)),
    (0xB80700838688FF0000000000, .reclaim (func 0 (.s 3) (.s 6) (.s 8) .none 0 0)),
    (0xB907018A868883005F020000, .topk (func 1 (.s 10) (.s 6) (.s 8) (.s 3) 0 0x5F020000))] = true := by decide

/-- The queues group: fields of each word as R344-R350; QPOP is the spec's worked word give them. -/
theorem test_words_queues1 : reads [
    (0xC00700C19485960000000400, .qpush (func 0 (.p 1) (.s 20) (.s 5) (.s 22) 0 0x400)),
    (0xC10701C194FF9600FCC00400, .qpop (func 1 (.p 1) (.s 20) .none (.s 22) 0 0xFCC00400)),
    (0xC20700C19485960000000000, .qsteal (func 0 (.p 1) (.s 20) (.s 5) (.s 22) 0 0)),
    (0xC3070483FF85FF0000000000, .qstat (func 4 (.s 3) .none (.s 5) .none 0 0)),
    (0xC40700FF8685FF0000000000, .qbindBind (func 0 .none (.s 6) (.s 5) .none 0 0)),
    (0xC40701FF8685FF0000000000, .qbindUnbind (func 1 .none (.s 6) (.s 5) .none 0 0)),
    (0xC40702FFFF85FF0000000000, .qbindClose (func 2 .none .none (.s 5) .none 0 0)),
    (0xC40703FFFF85FF0000000000, .qbindOpen (func 3 .none .none (.s 5) .none 0 0))] = true := by decide

/-- The system group: fields of each word as R366-R378; TRAP is the spec's worked word give them. -/
theorem test_words_system1 : reads [
    (0xD00700FF84FFFF0000000002, .trap (func 0 .none (.s 4) .none .none 0 2)),
    (0xD10700FFFFFFFF0000ABCDEF, .brk (func 0 .none .none .none .none 0 0xABCDEF)),
    (0xD2070083FFFFFF0000000103, .mfsr (func 0 (.s 3) .none .none .none 0 0x103)),
    (0xD30700FF84FFFF0000000001, .mtsr (func 0 .none (.s 4) .none .none 0 1)),
    (0xD30700FF84FFFF0000000103, .mtsrParkctl (func 0 .none (.s 4) .none .none 0 0x103)),
    (0xD40700FFFFFFFF0000000000, .rft (func 0 .none .none .none .none 0 0)),
    (0xD50700FF04FFFF0000000000, .srseed (func 0 .none (.v 4) .none .none 0 0)),
    (0xD50701FF84FFFF0000000000, .srseedG (func 1 .none (.s 4) .none .none 0 0))] = true := by decide

theorem test_words_system2 : reads [
    (0xD60700838586FF0000000000, .ctxsave (func 0 (.s 3) (.s 5) (.s 6) .none 0 0)),
    (0xD707008386FFFF0000000000, .ctxload (func 0 (.s 3) (.s 6) .none .none 0 0)),
    (0xD807008385FFFF0000000000, .tlbinvRange (func 0 (.s 3) (.s 5) .none .none 0 0)),
    (0xD807018385FFFF0000000000, .tlbinvAsid (func 1 (.s 3) (.s 5) .none .none 0 0)),
    (0xD8070283FFFFFF0000000000, .tlbinvAll (func 2 (.s 3) .none .none .none 0 0)),
    (0xD807038385FFFF0000000000, .tlbinvSplinter (func 3 (.s 3) (.s 5) .none .none 0 0)),
    (0xD90700FF85FFFF0000000000, .haltWait (func 0 .none (.s 5) .none .none 0 0)),
    (0xD90701FFFFFFFF0000000000, .haltKill (func 1 .none .none .none .none 0 0))] = true := by decide

/-! ### Terms the checks refuse -/

/-- Not well formed, and its word is refused at the field bit given. -/
def refusedBits (l : List (Nat × Instr)) : Bool :=
  l.all fun e => !e.2.wellFormed && decide ((encode e.2).map (decode 128) = some (.error (.illegalField e.1)))

/-- Not well formed, and its word is refused for the field and selector given. -/
def refusedOperands (l : List (BitVec 2 × BitVec 8 × Instr)) : Bool :=
  l.all fun e => !e.2.2.wellFormed &&
    decide ((encode e.2.2).map (decode 128) = some (.error (.illegalOperand e.1 e.2.1)))

/-- A memory operand with no order and no scope. -/
def memory (sz : Size) (d a b c : Sel) : MemOp := ⟨h7, sz, false, false, 0, 0, 0, d, a, b, c, 0, 0⟩

/-- A name that its own operands contradict, and an event, which has no word (R10). -/
theorem test_refuses_name : [Instr.capnarrowRange (func 1 (.s 8) (.s 10) .none .none 0 3),
    .mtsrParkctl (func 0 .none (.s 4) .none .none 0 1), .atom ⟨h7, .s4, 15, false, 0, 0, 0, .v 1, .s 4, .none, .v 2, 0⟩,
    .boostRecompute].all (fun i => !i.wellFormed) = true := by decide

/-- Guards: the complement of p7 (R43), a guarded uniform instruction (R48), a guarded once instruction (R142). -/
theorem test_refuses_guard : refusedBits [
    (80, .iadd (Typed.mk ⟨0, true, 7⟩ .i32 0 (.v 1) (.v 2) (.v 3) .none 0 false false false false false 0)),
    (80, .iadd (Typed.mk ⟨0, false, 2⟩ .i32 0 (.s 1) (.s 2) (.s 3) .none 0 false false false false false 0)),
    (80, .park ⟨⟨0, false, 1⟩, 0, .none, .s 6, .none, .none, 0, 0x20000000⟩)] = true := by decide

/-- FN: a type the instruction does not take, a variant, a second type, a size, a sub-function (R49, R51, R64). -/
theorem test_refuses_fn : refusedBits [
    (75, .fadd (typed .i32 0 (.v 1) (.v 2) (.v 3) .none 0)),
    (72, .icmp (typed .i32 6 (.p 1) (.v 2) (.v 3) .none 0)),
    (72, .redux (typed .f32 3 (.v 1) (.v 2) .none .none 0)),
    (40, .cvt ⟨h7, .f32, .mx8, 0, .v 1, .v 2, .none, 0, false, 0⟩),
    (77, .ldc (memory .s8 (.s 2) (.s 4) .none .none)),
    (73, .ld { memory .s4 (.v 2) (.s 4) .none .none with x73 := true }),
    (72, .seal (func 2 .none (.s 6) .none .none 0 0))] = true := by decide

/-- MOD: rounding, saturation and negation an entry does not take (R54); SCOPE 7, a scope without an order, an order
the access cannot have, a policy (R52); bits of the function layout (R55). -/
theorem test_refuses_mod : refusedBits [
    (37, .fadd (Typed.mk h7 .f32 0 (.v 1) (.v 2) (.v 3) .none 5 false false false false false 0)),
    (36, .imin (Typed.mk h7 .i32 0 (.v 1) (.v 2) (.v 3) .none 0 true false false false false 0)),
    (34, .iabs (Typed.mk h7 .i32 0 (.v 1) (.v 2) .none .none 0 false false true false false 0)),
    (37, .ld { memory .s4 (.v 2) (.s 4) .none .none with scope := 7, order := 1 }),
    (35, .ld { memory .s4 (.v 2) (.s 4) .none .none with scope := 2 }),
    (35, .st { memory .s4 .none (.s 4) .none (.v 2) with order := 1 }),
    (32, .ld { memory .s4 (.v 2) (.s 4) .none .none with policy := 5 }),
    (33, .bra (func 0 .none .none .none .none 2 4))] = true := by decide

/-- IMM: bits an entry does not use, a value outside its set, a queue spec's cluster (R53, R260, R342). -/
theorem test_refuses_imm : refusedBits [
    (16, .ld { memory .s4 (.v 2) (.s 4) .none .none with rset := 1 }),
    (3, .iadd (typed .i32 0 (.v 1) (.v 2) (.v 3) .none 8)),
    (0, .part (typed .untyped 0 (.g 1) .imm .none .none 12)),
    (26, .qbindClose (func 2 .none .none .none .none 0 0xC0000000))] = true := by decide

/-- Operands: the immediate as destination, a second immediate, an operand that must be 0xFF, p7 as destination, an odd
capability, a reserved kind, a vector source of a uniform instruction, an odd 64-bit pair, a span past v127 (R44, R46,
R48, R133, R214). -/
theorem test_refuses_operands : refusedOperands [
    (0, 0xF0, .iadd (typed .i32 0 .imm (.v 2) (.v 3) .none 0)),
    (2, 0xF0, .iadd (typed .i32 0 (.v 1) .imm .imm .none 0)),
    (3, 0x04, .iadd (typed .i32 0 (.v 1) (.v 2) (.v 3) (.v 4) 0)),
    (0, 0xC7, .icmp (typed .i32 0 (.p 7) (.v 2) (.v 3) .none 0)),
    (1, 0x87, .capget (func 0 (.s 3) (.s 7) .none .none 0 0)),
    (1, 0xC8, .iadd (typed .i32 0 (.v 1) (.g 0) (.v 3) .none 0)),
    (1, 0x02, .iadd (typed .i32 0 (.s 1) (.v 2) (.s 3) .none 0)),
    (2, 0x05, .iadd (typed .i64 0 (.v 2) (.v 4) (.v 5) .none 0)),
    (0, 0x7F, .iadd (typed .i64 0 (.v 127) (.v 4) (.v 6) .none 0)),
    (0, 0x7E, .smxstep (typed .f32 0 (.v 126) (.v 4) (.v 6) .none 0)),
    (2, 0x2A, .brx ⟨h7, 4, .v 10, .v 42, 1, 8⟩)] = true := by decide

/-- A vector register past the crew's count (R44). -/
theorem test_refuses_vregs : (Instr.iadd (typed .i32 0 (.v 8) (.v 2) (.v 3) .none 0)).wellFormedIn 8 = false ∧
    (Instr.iadd (typed .i32 0 (.v 7) (.v 2) (.v 3) .none 0)).wellFormedIn 8 = true := by decide

/-- The all-zero word and a reserved opcode (R63). -/
theorem test_refuses_opcode : decode 128 0 = .error .zeroWord ∧
    decode 128 0xFF07000000000000000000FF = .error .illegalOpcode := by decide

/-! ### Small steps: expected values from the spec's tables and worked examples -/

/-- A translation of one page of 64 KiB, in the MTLB of its home. -/
def tlbAt (vpn pa : Nat) (rights : Rights) : Tlb :=
  { link := translationHome (vpn * 65536), asid := 1, vpn := vpn, pa := pa, rights := rights }

/-- Gang 0 of a crew of one gang at 0x100000, with these strands in the run. -/
def solo (run : Mask) : State :=
  { State.reset with
    run := run, ipc := 0x100000, gang := { newGang 1 0 32 0x100000 true with active := true, rnd := [], urnd := 0 },
    crew := { placedCrew 1 with scratchSize := 65536, ar := 64 }, nextCrew := 2,
    sys := { State.reset.sys with
      ctxs := [(1, { asid := 1 })],
      mtlb := [tlbAt 32 0x200000 ⟨true, true, true, false⟩] } }

def State.withV (s : State) (l : List (Nat × Nat × Word)) : State :=
  { s with gang := { s.gang with v := l.foldl (fun m e => Sparse.put 0 m (e.1 * 128 + e.2.1) e.2.2) s.gang.v } }
def State.withS (s : State) (l : List (Nat × Dword)) : State :=
  { s with gang := { s.gang with s := l.foldl (fun m e => Sparse.put 0 m e.1 e.2) s.gang.s } }
/-- A tagged capability in a pair. -/
def State.withCap (s : State) (n : Nat) (q : Quad) : State :=
  let t := s.withS [(n, q.setWidth 64), (n + 1, q.extractLsb' 64 64)]
  { t with gang := { t.gang with stags := t.gang.stags ||| (1 <<< (n / 2)) } }
def State.withP (s : State) (l : List (Nat × Mask)) : State :=
  { s with gang := { s.gang with p := l.foldl (fun m e => Sparse.put 0 m e.1 e.2) s.gang.p } }

/-- The next state, if there is one. -/
def nextOf (o : Out) : Option State :=
  match o with
  | .next t => some t
  | _ => none
/-- A vector register and FPSTAT after an instruction. -/
def vAfter (i : Instr) (s : State) (strand n : Nat) : Option (Word × BitVec 8) :=
  (nextOf (exec i s)).map fun t => (t.gang.v.get 0 (strand * 128 + n), t.gang.fpstat)
def sAfter (i : Instr) (s : State) (n : Nat) : Option Dword := (nextOf (exec i s)).map fun t => t.gang.s.get 0 n
def causeAfter (i : Instr) (s : State) : Option (BitVec 9 × Dword × Dword) :=
  (nextOf (exec i s)).map fun t => (t.gang.trapCause, t.gang.trapInfo, t.gang.trapPc)

/-- Strand 0 with these words in v2, v3 and v4. -/
def regs3 (a b c : Word) : State := (solo 1).withV [(0, 2, a), (0, 3, b), (0, 4, c)]
/-- v1 from v2 and v3; from v2, v3 and v4; from v2. -/
def two (t : Ty) (var : BitVec 3) (sat : Bool) : Typed :=
  ⟨h7, t, var, .v 1, .v 2, .v 3, .none, 0, sat, false, false, false, false, 0⟩
def three (t : Ty) (var : BitVec 3) : Typed := typed t var (.v 1) (.v 2) (.v 3) (.v 4) 0
def one (t : Ty) (var : BitVec 3) : Typed := typed t var (.v 1) (.v 2) .none .none 0

/-! Integer group: R216-R221 and their examples. -/

theorem test_iadd : vAfter (.iadd (two .i32 0 false)) (regs3 0x7FFFFFFF 1 0) 0 1 = some (0x80000000, 0) ∧
    vAfter (.iadd (two .i32 0 true)) (regs3 0x7FFFFFFF 1 0) 0 1 = some (0x7FFFFFFF, 0x20) := by decide
theorem test_isub : vAfter (.isub (two .n32 0 true)) (regs3 0 1 0) 0 1 = some (0, 0x20) := by decide
theorem test_imulh : vAfter (.imulh (two .n32 0 false)) (regs3 0xFFFFFFFF 2 0) 0 1 = some (1, 0) ∧
    vAfter (.imulh (two .i32 0 false)) (regs3 0xFFFFFFFF 2 0) 0 1 = some (0xFFFFFFFF, 0) := by decide
theorem test_imad : vAfter (.imad (three .i32 0)) (regs3 0xFFFFFFFF 3 10) 0 1 = some (7, 0) := by decide
theorem test_idiv : vAfter (.idiv (two .i32 0 false)) (regs3 0x80000000 0xFFFFFFFF 0) 0 1 = some (0x80000000, 0) ∧
    vAfter (.idiv (two .i32 0 true)) (regs3 0x80000000 0xFFFFFFFF 0) 0 1 = some (0x7FFFFFFF, 0x20) := by decide
theorem test_idiv_zero : vAfter (.idiv (two .i32 0 false)) (regs3 5 0 0) 0 1 = some (0x7FFFFFFF, 0) ∧
    vAfter (.idiv (two .n32 0 false)) (regs3 5 0 0) 0 1 = some (0xFFFFFFFF, 0) := by decide
theorem test_irem : vAfter (.irem (two .i32 0 false)) (regs3 0xFFFFFFF9 2 0) 0 1 = some (0xFFFFFFFF, 0) ∧
    vAfter (.irem (two .i32 0 false)) (regs3 0xFFFFFFF9 0 0) 0 1 = some (0xFFFFFFF9, 0) := by decide
theorem test_shl : vAfter (.shl (two .i32 0 false)) (regs3 1 31 0) 0 1 = some (0x80000000, 0) ∧
    vAfter (.shl (two .i32 0 false)) (regs3 1 32 0) 0 1 = some (0, 0) := by decide
theorem test_sar : vAfter (.sar (two .i32 0 false)) (regs3 0x80000000 40 0) 0 1 = some (0xFFFFFFFF, 0) := by decide
theorem test_rot : vAfter (.rot (two .n32 1 false)) (regs3 1 33 0) 0 1 = some (0x80000000, 0) := by decide
theorem test_bfx : vAfter (.bfx (two .i32 0 false)) (regs3 0xF00 0x0408 0) 0 1 = some (0xFFFFFFFF, 0) ∧
    vAfter (.bfx (two .n32 0 false)) (regs3 0xF00 0x0408 0) 0 1 = some (0xF, 0) := by decide
theorem test_bfi : vAfter (.bfi (three .n32 0)) (regs3 0x5 0x0810 0xFFFFFFFF) 0 1 = some (0xFF05FFFF, 0) := by decide
theorem test_clz : vAfter (.clz (one .n32 0)) (regs3 0 0 0) 0 1 = some (32, 0) := by decide
theorem test_plop : (nextOf (exec (.plop (typed .untyped 0 (.p 2) (.p 0) (.p 1) (.p 3) 0xEA))
    ((solo 0xFF).withP [(0, 0xF0), (1, 0xCC), (3, 0xAA)]))).map (fun t => t.gang.p.get 0 2) = some 0xEA := by decide
theorem test_prmt : vAfter (.prmt (three .untyped 0)) (regs3 0x44332211 0x88776655 0x0123) 0 1 = some (0x11223344, 0) ∧
    vAfter (.prmt (three .untyped 0)) (regs3 0x44332211 0x88776655 0x8810) 0 1 = some (0x2211, 0) := by decide
theorem test_prmt_funnel : vAfter (.prmt (three .untyped 1)) (regs3 0x44332211 0x88776655 1) 0 1 = some (0x55443322, 0) ∧
    vAfter (.prmt (three .untyped 1)) (regs3 0x44332211 0x88776655 7) 0 1 = some (0x33221188, 0) := by decide
theorem test_lea : (nextOf (exec (.lea (typed .i64 2 (.v 8) (.s 4) (.v 3) .none 0))
    (((solo 1).withS [(4, 0x100000000)]).withV [(0, 3, 0xFFFFFFFF)]))).map
      (fun t => (t.gang.v.get 0 9, t.gang.v.get 0 8)) = some (0, 0xFFFFFFFC) := by decide
theorem test_idot4 : vAfter (.idot4 (three .i32 1)) (regs3 0x000000FF 0x000000FF 0) 0 1 = some (0xFFFFFF01, 0) := by decide

/-! Floating point: R222-R226 and their tables. -/

theorem test_ffma : vAfter (.ffma (three .f32 0)) (regs3 0x7F800000 0 0x7FC00000) 0 1 = some (0x7FC00000, 0x10) := by decide
theorem test_fadd : vAfter (.fadd (two .f32 0 false)) (regs3 0x3F800000 0x33800000 0) 0 1 = some (0x3F800000, 1) := by decide
theorem test_fdiv : vAfter (.fdiv (two .f32 0 false)) (regs3 0xBF800000 0 0) 0 1 = some (0xFF800000, 8) := by decide
theorem test_fmin : vAfter (.fmin (two .f32 0 false)) (regs3 0 0x80000000 0) 0 1 = some (0x80000000, 0) ∧
    vAfter (.fmax (two .f32 0 false)) (regs3 0x7F800001 0x40000000 0) 0 1 = some (0x40000000, 0x10) := by decide
theorem test_fclass : vAfter (.fclass (one .e4m3 0)) (regs3 0x7F 0 0) 0 1 = some (0x200, 0) := by decide
theorem test_frcp : vAfter (.frcp (one .f32 0)) (regs3 0x80000000 0 0) 0 1 = some (0xFF800000, 8) := by decide
theorem test_frsq : vAfter (.frsq (one .f32 0)) (regs3 0x40800000 0 0) 0 1 = some (0x3F000000, 0) := by decide
theorem test_fsqrt : vAfter (.fsqrt (one .f32 0)) (regs3 0x80000000 0 0) 0 1 = some (0x80000000, 0) := by decide
theorem test_fexp2 : vAfter (.fexp2 (one .f32 0)) (regs3 0xC3150000 0 0) 0 1 = some (1, 0) := by decide
theorem test_flog2 : vAfter (.flog2 (one .f32 0)) (regs3 0x3F800000 0 0) 0 1 = some (0, 0) := by decide
theorem test_fround : vAfter (.fround (one .f32 0)) (regs3 0xBE99999A 0 0) 0 1 = some (0x80000000, 0) := by decide
theorem test_fscale : vAfter (.fscale (two .f32 0 false)) (regs3 0x3F800000 0xFFFFFF6B 0) 0 1 = some (1, 0) := by decide
theorem test_hadd2 : vAfter (.hadd2 (two .f16 0 false)) (regs3 0x3C003C00 0x40003C00 0) 0 1 = some (0x42004000, 0) := by decide

/-! Conversions: the worked conversions, the packed block and the expanded element. -/

/-- CVT.E4M3.F32 of v2 in a mode. -/
def toE4m3 (rnd : BitVec 3) : Instr := .cvt ⟨h7, .e4m3, .f32, 0, .v 1, .v 2, .none, rnd, false, 0⟩
theorem test_cvt_tie : vAfter (toE4m3 0) (regs3 0x3BA00000 0 0) 0 1 = some (0x02, 3) ∧
    vAfter (toE4m3 3) (regs3 0x3BA00000 0 0) 0 1 = some (0x03, 3) := by decide
theorem test_cvt_stochastic : (nextOf (exec (toE4m3 4) { regs3 0x3BA00000 0 0 with
    gang := { (regs3 0x3BA00000 0 0).gang with rnd := [(0, 1)] } })).map
      (fun t => (t.gang.v.get 0 1, t.gang.rnd.get 0 0)) = some (2, 0x42021) := by decide
theorem test_cvt_saturates : vAfter (toE4m3 0) (regs3 0x43FA0000 0 0) 0 1 = some (0x7E, 0x25) ∧
    vAfter (toE4m3 0) (regs3 0xFF800000 0 0) 0 1 = some (0xFE, 0x24) := by decide
theorem test_cvti : vAfter (.cvti ⟨h7, .n32, .i8, 0, .v 1, .v 2, .none, 0, false, 0⟩) (regs3 0xFB 0 0) 0 1 =
    some (0xFFFFFFFB, 0) ∧
    vAfter (.cvti ⟨h7, .n32, .i8, 0, .v 1, .v 2, .none, 0, true, 0⟩) (regs3 0xFB 0 0) 0 1 = some (0, 0x20) := by decide
theorem test_cvti_range : vAfter (.cvti ⟨h7, .i8, .f32, 0, .v 1, .v 2, .none, 0, false, 0⟩) (regs3 0x43FA0000 0 0) 0 1 =
    some (127, 0x10) := by decide
theorem test_mxpack : (nextOf (exec (.mxpack ⟨h7, .mx8, .f32, 0, .v 40, .v 0, .none, 0, false, 0⟩)
    ((solo 1).withV [(0, 0, 0x43960000), (0, 1, 0xBA83126F), (0, 2, 0x3FC00000)]))).map
      (fun t => (t.gang.v.get 0 40, t.gang.v.get 0 48, t.gang.fpstat)) = some (0x003C8179, 0x7F, 3) := by decide
theorem test_mxunpack : (nextOf (exec (.mxunpack ⟨h7, .bf16, .mx6b, 0, .v 40, .v 2, .none, 0, false, 0⟩)
    ((solo 1).withV [(0, 2, 0x1F), (0, 8, 0x85)]))).map (fun t => t.gang.v.get 0 40) = some 0x44E0 := by decide
theorem test_ternq : (nextOf (exec (.ternq ⟨h7, .t2, .f32, 0, .v 40, .v 0, .imm, 0, false, 0x3F800000⟩)
    ((solo 1).withV [(0, 0, 0x40000000), (0, 1, 0xC0000000), (0, 2, 0x3F800000)]))).map
      (fun t => t.gang.v.get 0 40) = some 0xD := by decide

/-! Memory: a store and what a load reads, scratch, atomics in ascending strand order (R171). -/

theorem test_st_ld : ((nextOf (exec (.st (memory .s4 .none (.s 4) .none (.v 2)))
      (((solo 1).withS [(4, 0x200010)]).withV [(0, 2, 0xDDCCBBAA)]))).bind fun t =>
    (nextOf (exec (.ld (memory .s2 (.v 1) (.s 4) .none .none)) t)).map fun u => u.gang.v.get 0 1) = some 0xBBAA := by decide
theorem test_st_misaligned : causeAfter (.st { memory .s4 .none (.s 4) .none (.v 2) with order := 2 }) ((solo 1).withS [(4, 0x200012)]) =
    some (0x2C, 0x200012, 0x100000) := by decide
theorem test_ld_untranslated : (nextOf (exec (.ld (memory .s4 (.v 1) (.s 4) .none .none)) ((solo 1).withS [(4, 0x400000)]))).map
    (fun t => (t.gang.hold.isSome, t.sys.faults.map fun f => f.page)) = some (true, [0x40]) := by decide
theorem test_sts : (nextOf (exec (.sts (memory .s4 .none .none (.v 2) (.v 3))) ((solo 3).withV
    [(0, 2, 4), (0, 3, 0x11223344), (1, 2, 0x40000), (1, 3, 5)]))).map
      (fun t => (fromBytes (t.crew.scratchRead 16 4), t.gang.smask.toNat % 2 ^ 32)) = some (0x11223344, 2) := by decide
theorem test_atoms : (nextOf (exec (.atoms ⟨h7, .s4, 0, false, 0, 0, 0, .v 10, .none, .v 2, .v 9, 0⟩)
    { (solo 0x229).withV [(0, 9, 1), (3, 9, 2), (5, 9, 3), (9, 9, 4)] with
      crew := { (solo 0).crew with scratch := [(0, 100)] } })).map
      (fun t => ([0, 3, 5, 9].map fun i => t.gang.v.get 0 (i * 128 + 10), fromBytes (t.crew.scratchRead 0 4))) =
    some ([100, 101, 103, 106], 110) := by decide
theorem test_atomic_fadd : atomicStep 9 32 0x3F800000 0x33800000 = 0x3F800000 := by decide

/-! Capabilities: the stream tile of the matrix engine's worked example. -/

theorem test_capget : [4, 5, 6, 7].map (fun f => sAfter (.capget (func f (.s 3) (.s 4) .none .none 0 0))
    ((solo 1).withCap 4 0x214000020008000011FFFFFF00001000) 3) =
      [some 0x01FFFFFF00001000, some 8, some 64, some 1] := by decide

/-! Collectives: the subgroup with gaps, and rows of the SMXSTEP table (R271). -/

/-- PART.BLK 8 in g1; strand 5 has exited; strand i holds v4 = 10 + i; p1 is 1 in strand 6. -/
def gaps : State :=
  let s := (solo 0xFFFFFFDF).withV ((List.range 32).map fun i => (i, 4, BitVec.ofNat 32 (10 + i)))
  { s.withP [(1, 0x40)] with
    gang := { (s.withP [(1, 0x40)]).gang with
      g := [(1, ⟨false, 8⟩)], strands := s.gang.strands.map fun e => if e.1 = 5 then (5, { e.2 with st := .done }) else e } }
theorem test_shfl_mirror : (nextOf (exec (.shfl (typed .untyped 3 (.v 5) (.v 4) .imm (.g 1) 1)) gaps)).map
    (fun t => [4, 6, 7].map fun i => t.gang.v.get 0 (i * 128 + 5)) = some [0, 17, 16] := by decide
theorem test_redux : (nextOf (exec (.redux (Typed.mk ⟨0, true, 1⟩ .i32 0 (.v 6) (.v 4) .none (.g 1) 0 false false false false false 0))
    gaps)).map (fun t => [0, 7, 6].map fun i => t.gang.v.get 0 (i * 128 + 6)) = some [77, 77, 0] := by decide
theorem test_scan : (nextOf (exec (.scan (Typed.mk ⟨0, true, 1⟩ .i32 0 (.v 7) (.v 4) .none (.g 1) 0 false false false false false 0))
    gaps)).map (fun t => [0, 1, 2, 3, 4, 7].map fun i => t.gang.v.get 0 (i * 128 + 7)) =
      some [10, 21, 33, 46, 60, 77] := by decide
theorem test_smxstep : (nextOf (exec (.smxstep (typed .f32 0 (.v 10) (.v 2) (.v 3) .none 0)) (regs3 0x40400000 0x40A00000 0))).map
    (fun t => [10, 11, 12].map fun n => t.gang.v.get 0 n) = some [0x40A00000, 0x3E800000, 0x40A00000] := by decide
theorem test_smxstep_small : (nextOf (exec (.smxstep (typed .f32 0 (.v 10) (.v 2) (.v 3) .none 0)) (regs3 0xC3480000 0 0))).map
    (fun t => ([10, 11, 12].map fun n => t.gang.v.get 0 n, t.gang.fpstat)) = some ([0, 0, 0], 3) := by decide

/-! The matrix engine's groups, the scarab's ranking. -/

/-- 256 and then `n` values of 2^-6 in the second group of K = 64. -/
def groupsRow (n : Nat) : List Nat := 0x78 :: List.replicate 31 0 ++ List.replicate n 8 ++ List.replicate (32 - n) 0
theorem test_group_rounding : (runFloat 4 4 true ⟨groupsRow 32, [some 0, some 0], 0⟩ ⟨groupsRow 32, [some 0, some 0], oneF32⟩ 0) =
    (0x47800001, 0) ∧ (runFloat 4 4 true ⟨groupsRow 16, [some 0, some 0], 0⟩ ⟨groupsRow 16, [some 0, some 0], oneF32⟩ 0) =
    (0x47800000, 1) := by decide
theorem test_topk_order : (ranking ([0x3F000000, 0x7FC00000, 0x40400000, 0x7F800000, 0x40400000, 0xFF800000, 0x40000000, 0x80000000,
    0, 0x40F00000, 0x40400000, 0x3F800000].map (Ty.floatFmt .f32).unpack)).map Prod.fst =
      [3, 9, 2, 4, 10, 6, 11, 0, 7, 8, 5, 1] := by decide

/-! Control, traps, system registers, the host. -/

theorem test_bra : (nextOf (exec (.bra (Fun.mk ⟨0, false, 1⟩ 0 .none .none .none .none 0 0xFFFFFFFA)) ((solo 3).withP [(1, 2)]))).map
    (fun t => (t.gang.strand 0).pc.toNat * 2 ^ 64 + (t.gang.strand 1).pc.toNat) = some (0x100001 * 2 ^ 64 + 0xFFFC2) := by decide
theorem test_loop : (nextOf (exec (.loop (func 0 (.s 3) .none .none .none 0 8)) ((solo 1).withS [(3, 2)]))).map
    (fun t => ((t.gang.strand 0).pc, t.gang.s.get 0 3)) = some (0x100040, 1) ∧
    (nextOf (exec (.loop (func 0 (.s 3) .none .none .none 0 8)) ((solo 1).withS [(3, 1)]))).map
    (fun t => ((t.gang.strand 0).pc, t.gang.s.get 0 3)) = some (0x100001, 0) := by decide
theorem test_exit : (nextOf (exec (.exit (Fun.mk ⟨0, false, 1⟩ 0 .none .none .none .none 0 0)) ((solo 3).withP [(1, 2)]))).map
    (fun t => ((t.gang.strand 0).st, (t.gang.strand 1).st)) = some (.ready, .done) := by decide
theorem test_trap : causeAfter (.trap (func 0 .none (.s 4) .none .none 0 2)) ((solo 1).withS [(4, 0x77)]) =
    some (0xA2, 0x77, 0x100001) := by decide
theorem test_brk : causeAfter (.brk (func 0 .none .none .none .none 0 0xABCDEF)) (solo 1) =
    some (0x08, 0xABCDEF, 0x100000) := by decide
theorem test_srseed : (nextOf (exec (.srseed (func 0 .none (.v 4) .none .none 0 0)) (solo 1))).map
    (fun t => t.gang.rnd.get 0 0) = some 1 := by decide
theorem test_illegal_opcode : causeAfter (.illegalOpcodeIssue 0xFF0700000000000000000000) (solo 1) =
    some (0x01, 0xFF070000, 0x100000) := by decide
theorem test_privileged : causeAfter (.rft (func 0 .none .none .none .none 0 0))
    { solo 1 with gang := { (solo 1).gang with priv := false } } = some (0x06, 0xD4, 0x100000) := by decide
theorem test_hsem : ((nextOf (exec (.hsemClaim .portB) State.reset)).bind fun t => (nextOf (exec (.hsemClaim .portA) t)).map
    fun u => u.host.owner) = some 2 := by decide
/-- The host feeds queue 5 of cluster 14: TAIL 104 with HEAD 100 and LOGCAP 5 is applied, 0x1000 is not. -/
theorem test_taildb : ([104, 0x1000].map fun v => (nextOf (exec (.taildb 14 5 v) { State.reset with
    queues := [(14 * 16 + 5, { bound := true, logcap := 5, flags := 0x10, head := 100, tail := 100 })] })).map
      fun t => (t.queues.get {} (14 * 16 + 5)).tail) = [some 104, some 100] := by decide

/-- A placed instruction is the first to run: NOP, then the slot that follows. -/
theorem test_step_nop : (nextOf (Machine.step (State.reset.withFetchWord 96 0x890700FFFFFFFF0000000000))).map
    (fun t => (t.gang.strand 0).pc) = some 0x100001 := by decide

/-! ### States that meet the hypotheses of the statements -/

/-- An attempt succeeds with a value that passes a test. -/
def gets {ε α : Type} (e : Except ε α) (p : α → Bool) : Bool :=
  match e with
  | .ok x => p x
  | .error _ => false

/-- A 64-bit instruction on even pairs, and a 32-bit one. -/
def wide : Typed := typed .i64 0 (.v 2) (.v 4) (.v 6) (.v 8) 0

theorem even_of_width {d : Sel} {w : Nat} (h : w ≠ 64) : evenPair d w := fun _ _ h' => absurd h' h

theorem wide_even : evenPair wide.d wide.width := by
  intro n h _
  have : n = 2 := by simpa [wide, typed, eq_comm] using h
  subst this
  decide

/-- Every PC but the last slot of the address space flows on. -/
theorem witness_flows : (solo 1).flows = true ∧ State.flows { solo 1 with ipc := 0x01FFFFFFFFFFFFC3 } = true ∧
    State.flows { solo 1 with ipc := 0x01FFFFFFFFFFFFC4 } = false := by decide

theorem witness_IntegerArithmetic : (solo 1).flows = true ∧ evenPair wide.d wide.width ∧
    evenPair (three .i32 0).d (three .i32 0).width ∧ (three .i32 0).ty = .i32 :=
  ⟨rfl, wide_even, even_of_width (by decide), rfl⟩

theorem witness_LogicAndFields : (solo 1).flows = true ∧ evenPair wide.d wide.width := ⟨rfl, wide_even⟩

/-- PLOP's sources are predicates or none. -/
theorem witness_ComparesAndMoves : (solo 1).flows = true ∧ evenPair wide.d wide.width ∧
    ∀ q ∈ [Sel.p 7, .p 0, .none], q = .none ∨ ∃ n, q = .p n :=
  ⟨rfl, wide_even, by simp⟩

theorem witness_FloatOperations : ((one .f32 0).ty = .f32 ∧ (one .f16 0).ty = .f16 ∧ (one .bf16 0).ty = .bf16) ∧
    (solo 1).flows = true ∧ (one .f32 0).rnd.toNat ≤ SR := by decide

theorem witness_FloatOrder : (∀ t ∈ tyFloat, t.isFloat = true) ∧ (solo 1).flows = true := by decide

/-- One ulp above 1 in E4M3 at every mode, and a number past the largest E4M3 value. -/
theorem witness_RoundingModes : (Ty.e4m3.isFloat = true ∧ RNE ≤ SR ∧ SR ≤ SR) ∧
    ((0 : ℝ) < 1 ∧ Mag.Holds ⟨1, 0, false⟩ 1) ∧ ((0 : ℝ) < 1024 ∧ Mag.Holds ⟨1024, 0, false⟩ 1024) ∧
    (Ty.e4m3.floatFmt.round RNE false false ⟨1, 0, false⟩ 0).flags &&& flagOF = 0 ∧
    (Ty.e4m3.floatFmt.round RNE false false ⟨1024, 0, false⟩ 0).flags &&& flagOF ≠ 0 :=
  ⟨by decide, by norm_num [Mag.Holds], by norm_num [Mag.Holds], by decide, by decide⟩

/-- Plain, .PK and .UPK conversions in stochastic rounding. -/
theorem witness_Conversions : (solo 1).flows = true ∧
    (∀ v ∈ [(0 : BitVec 3), 1, 2], let x : Conv := ⟨h7, .e4m3, .f32, v, .v 1, .v 2, .none, 4, false, 0⟩
      x.rnd.toNat ≤ SR ∧ evenPair x.d x.dt.bits ∧ (x.var = 0 ∨ x.var = 1 ∨ x.var = 2)) :=
  ⟨rfl, fun v hv => ⟨(by decide : (4 : BitVec 3).toNat ≤ SR), even_of_width (by decide : Ty.e4m3.bits ≠ 64), by simpa using hv⟩⟩

/-- Blocks that end at v127. -/
theorem witness_BlockFormats :
    (let x : Conv := ⟨h7, .mx8, .f32, 0, .v 119, .v 0, .none, 0, false, 0⟩
     (solo 1).flows = true ∧ x.d = .v 119 ∧ x.a = .v 0 ∧ x.dt = .mx8 ∧ x.st = .f32 ∧ (119 : BitVec 7).toNat + mxPayload x.dt < 128) ∧
    (let x : Conv := ⟨h7, .f32, .mx4, 0, .v 96, .v 0, .none, 0, false, 0⟩
     x.d = .v 96 ∧ x.a = .v 0 ∧ x.st = .mx4 ∧ x.dt = .f32 ∧ (96 : BitVec 7).toNat + mxSources x.dt ≤ 128) ∧
    (let x : Conv := ⟨h7, .t2, .bf16, 0, .v 40, .v 0, .imm, 0, false, 0⟩
     x.a = .v 0 ∧ x.st = .bf16) := by decide

/-! Memory. -/

/-- `solo` with its private window open and translated, and a crew in a context with a handler. -/
def home (run : Mask) : State :=
  let s := solo run
  { s with sys := { s.sys with
      ctxs := [(1, { asid := 1, privhw := 0x10000, trapvec := 0x100801 })],
      mtlb := s.sys.mtlb ++ [tlbAt 0x1FE00000000 0x300000 ⟨true, true, true, false⟩] } }

/-- The premises of a load, by form. -/
def mayLoad (x : MemOp) (f : Instr × AddrSpace) (s : State) : Bool :=
  gets (s.targets s.who (memAddr x x.size.bytes pRead f.2 (orderAlign x.order x.size.bytes)) (s.lanes x.d.isScalar x.hdr)) fun a =>
    (s.loggedPage a.1).isNone && gets (a.2.readyLanes s.who .load a.1) fun b => (b.2.locate s.who a.1).isNone

/-- Of LDC: the lane is ready, in memory or in scratch. -/
def mayLoadCap (x : MemOp) (memory : Bool) (s : State) : Bool :=
  gets (s.targets s.who (memAddr x 16 pRead .any 16) [0]) fun a =>
    (s.loggedPage a.1).isNone && gets (a.2.readyLanes s.who .load a.1) fun b => (b.2.locate s.who a.1).isNone &&
      match b.1 with
      | [(0, .memory _)] => memory
      | [(0, .scratch _)] => !memory
      | _ => false

/-- LD from memory with an acquire, LDP from the private window, LDS; LDC from the private window and from scratch. -/
theorem witness_LoadsFromMemory :
    (let x := { memory .s4 (.v 127) (.s 4) .none .none with order := 1, scope := 5 }
     let s := (home 3).withS [(4, 0x200010)]
     s.flows = true ∧ (127 : BitVec 7).toNat + loadCount x.d x.size.bytes ≤ 128 ∧ mayLoad x (.ld x, .any) s = true) ∧
    (let x := memory .s16 (.v 4) .none .none .none
     mayLoad x (.ldp x, .priv) (home 3) = true ∧ mayLoad x (.lds x, .scratch) (home 3) = true) ∧
    (let x := memory .s16 (.s 62) (.s 4) .none .none
     (62 : BitVec 6).toNat % 2 = 0 ∧ mayLoadCap x true ((home 1).withS [(4, 0x01FE000000000010)]) = true ∧
     mayLoadCap x false ((home 1).withS [(4, 0x01FFFFFF00000010)]) = true) := by decide

/-- A store needs rights that go with its L1's own copy (a set, a policy that passes the L1, an agent without one). -/
def storeFills (x : MemOp) (s : State) : Bool := s.sys.readers s.who x.rset ≠ .none || 3 ≤ x.policy.toNat || s.who.noL1

/-- The premises of a store, by form. -/
def mayStore (x : MemOp) (f : Instr × AddrSpace) (s : State) : Bool :=
  let uni := !isVector x.b && !isVector x.c
  gets (s.targets s.who (memAddr x x.size.bytes (storeNeeds x.rset) f.2 (orderAlign x.order x.size.bytes)) (s.lanes uni x.hdr)) fun a =>
    (a.2.movedPage a.1).isNone &&
      (a.2.storeItems s.who .store (storeFills x a.2) (fun i => s.storeData x.c x.size.bytes i) a.1).1.all StoreItem.plain &&
      !a.2.logBlocked (s.actsFor uni x.hdr)

/-- The items of an STC to a page that no core its gang has left has logged. -/
def capItems (x : MemOp) (s : State) : List StoreItem :=
  match s.targets s.who (memAddr x 16 (storeNeeds x.rset) .any 16) [0] with
  | .ok a =>
      if (a.2.movedPage a.1).isNone then
        (a.2.storeItems s.who .store (storeFills x a.2) (fun i => s.storeData x.c 16 i) a.1).1
      else []
  | .error _ => []

/-- An ejected strand of gang 33. -/
def ejected (s : State) : State :=
  { s with gang := { s.gang with ej := some { parent := 33, strand := 0, slot := 0, live := none, rejoin := 0x100040,
                                              awaits := [], cause := none } } }

/-- ST to memory with a release, STP, STS; STC to scratch, and of an ejected strand to the private window. -/
theorem witness_StoresToMemory :
    (let x := { memory .s4 .none (.s 4) .none (.v 2) with order := 2, scope := 6 }
     mayStore x (.st x, .any) ((home 3).withS [(4, 0x20FFFC)]) = true) ∧
    (let x := memory .s16 .none .none .none (.v 4)
     mayStore x (.stp x, .priv) (home 3) = true ∧ mayStore x (.sts x, .scratch) (home 3) = true) ∧
    (let x := memory .s16 .none (.s 4) .none (.s 6)
     let s := (home 1).withS [(4, 0x01FFFFFF00000010)]
     let e := ejected ((home 1).withS [(4, 0x01FE000000000010)])
     (capItems x s = [.scratch 0 0x10 (s.storeData x.c 16 0)] ∧ s.laneOff 0x10 16 = none) ∧
     (capItems x e).map (fun y => match y with
       | .memory 0 va _ l => decide (l.addr va % 16 = 0 ∧ isMemory (l.addr va) = true)
       | _ => false) = [true] ∧ x.rset = 0 ∧ e.gang.ej.isSome = true) := by decide

/-- An L1 line of core 0 that holds VA line 0x4000 of ASID 1. -/
def lineOf : L1Line := { asid := 1, line := 0x4000, pa := 0x200000, data := 0, valid := BitVec.allOnes 128, dirty := 1, tags := 0,
                         rights := ⟨true, true, true, false⟩, keep := 1 }
def cached (s : State) : State := { s with sys := s.sys.updCore 0 fun c => { c with l1 := [lineOf] } }

/-- Lanes inside the allocation, at its end, outside it and in a pending window; an access of the last bytes of a line, its
own L1 holding it or not, parked or not. -/
theorem witness_ScratchAndOwnStores :
    (let x := memory .s4 (.v 1) .none (.v 2) .none
     let s := (solo 7).withV [(0, 2, 16383), (1, 2, 16384), (2, 2, 1)]
     let s := { s with ops := [{ id := 0, kind := .swap, crewId := 1, gangId := 0, gangIdx := 0, asid := 1, priv := true, core := 0,
                                 handle := none, window := some (4, 7) }] }
     s.flows = true ∧ s.gang.ej = none ∧ x.capb = false ∧ x.order = 0 ∧ (1 : BitVec 7).toNat + loadCount x.d x.size.bytes ≤ 128 ∧
     s.laneOff 65532 4 = none ∧ s.laneOff 65536 4 = some .oor ∧ s.laneOff 4 4 = some .win) ∧
    (let l : Leaf := { pa := 0x200000, rights := ⟨true, true, true, false⟩ }
     isMemory (l.addr 0x20007C) = true ∧ 0x20007C % 128 + 4 ≤ 128 ∧ (cached (solo 1)).sys.l1Find 0 1 (0x20007C / 128) = some lineOf ∧
     (solo 1).sys.l1Find 0 1 (0x20007C / 128) = none) := by decide

/-! Capabilities. -/

/-- LINEAR of raw bytes with these permissions, base and length. -/
def linearCap (perms : BitVec 4) (base len : Nat) : Quad :=
  BitVec.ofNat 128 (2 ^ 124 + perms.toNat * 2 ^ 120 + len * 2 ^ 57 + base)
/-- TILE2D of E4M3 in scratch at 0x1000: 8 rows of 64, pitch 1 (the worked stream tile). -/
def tileCap : Quad := 0x214000020008000011FFFFFF00001000
/-- STITCH of version 1 with all permissions. -/
def stitchCap (base : Nat) : Quad := BitVec.ofNat 128 (3 * 2 ^ 124 + 15 * 2 ^ 120 + 2 ^ 57 + base)

/-- A LINEAR capability of 16 bytes: untagged, no kind, bad fields, no permission, the first byte out of bounds, all inside
their window; one in the range between the windows, and one whose access crosses the end of its window. -/
theorem witness_CapabilityChecks :
    (let x := { memory .s4 (.v 1) (.s 4) .none .none with capb := true, off := 4 }
     let good := linearCap 15 0x200000 16
     let inside (q : Quad) : Bool := (((solo 1).withCap 4 q).capAddress (Cap.ofQuad (((solo 1).withCap 4 q).readPair 4)) x.b x.off 4 0).all
       fun va => (windowOf va).1 ≠ .reserved && va + 4 ≤ (windowOf va).2
     let access (base : Nat) : Nat := wrapInt 64 (((linearCap 15 base 16).toNat % 2 ^ 57 : Int) + 0 * 4 + dispOf x.off 4)
     let at' (q : Quad) := Cap.ofQuad (((solo 1).withCap 4 q).readPair 4)
     (solo 1).flows = true ∧ x.capb = true ∧ x.a = .s 4 ∧ (solo 1).lanes x.d.isScalar x.hdr = [0] ∧
     (solo 1).columnMissing (at' good) x.b = false ∧ (solo 1).readTag 4 = false ∧ ((solo 1).withCap 4 good).readTag 4 = true ∧
     (at' 0).kind = none ∧ ((at' (good + 2 ^ 110)).kind ≠ none ∧ (at' (good + 2 ^ 110)).fieldsOk = false) ∧
     ((at' (linearCap 2 0x200000 16)).fieldsOk = true ∧ pRead &&& ~~~(at' (linearCap 2 0x200000 16)).perms ≠ 0) ∧
     ((at' good).kind = some .linear ∧ (at' good).fieldsOk = true ∧ pRead &&& ~~~(at' good).perms = 0 ∧
      ((at' good).len : Int) < signed 64 (wrapInt 64 (0 * 4 + dispOf x.off 4)) + 4) ∧
     ([0, good, good + 2 ^ 110, linearCap 2 0x200000 16].all inside) = true ∧
     (∀ b ∈ [Config.ownTop, Config.ownBase - 18], (at' (linearCap 15 b 16)).kind = some .linear ∧
       (at' (linearCap 15 b 16)).base = (linearCap 15 b 16).toNat % 2 ^ 57) ∧
     (windowOf (access Config.ownTop)).1 = .reserved ∧
     ((windowOf (access (Config.ownBase - 18))).1 ≠ .reserved ∧
      (windowOf (access (Config.ownBase - 18))).2 < access (Config.ownBase - 18) + 4)) ∧
    (let s := ((solo 1).withCap 4 (linearCap 15 0x200000 16)).withS [(6, 8), (7, 9), (8, 0)]
     let c := Cap.ofQuad (s.readPair 4)
     (s.readTag 4 = true ∧ c.kind = some .linear ∧ c.fieldsOk = true ∧ c.bs = false ∧
      c.len < (s.scalar (.s 6)).toNat + (s.scalar (.s 7)).toNat)) ∧
    (let s := ((solo 1).withCap 4 (stitchCap 0x200000)).withS [(6, 0)]
     let c := Cap.ofQuad (s.readPair 4)
     c.kind = some .stitch ∧ c.fieldsOk = true ∧ (s.scalar (.s 6)).toNat < c.ver ∧
     2 ^ 32 ≤ ((s.withS [(6, 0x100000000)]).scalar (.s 6)).toNat) ∧
    (let s := ((solo 1).withCap 4 tileCap).withS [(6, 0x100000), (7, 0x4000008)]
     let c := Cap.ofQuad (s.readPair 4)
     let b := (s.scalar (.s 6)).toNat
     let l := (s.scalar (.s 7)).toNat
     c.kind = some .tile ∧ c.fieldsOk = true ∧ b < 2 ^ 40 ∧ l < 2 ^ 40 ∧ b / 2 ^ 20 * c.bits % 8 = 0 ∧ c.bs = false ∧
      c.cols < b / 2 ^ 20 + l / 2 ^ 20) ∧
    (let s := (solo 1).withCap 4 (linearCap 15 0x200000 16 + 2 ^ 116)
     let c := Cap.ofQuad (s.readPair 4)
     c.kind = some .linear ∧ c.fieldsOk = true ∧ c.fmt ≠ 0 ∧ (0 : Word).getLsbD 5 = false) ∧
    (Sel.s 3).isScalar = true := by decide

/-- Each derivation at its limit: the whole range, the last sub-tile, the same version, a retype to a tile. -/
theorem witness_CapabilityDerivation :
    (let s := ((solo 1).withCap 4 (linearCap 15 0x200000 1024)).withS [(6, 0), (7, 1024)]
     let c := Cap.ofQuad (s.readPair 4)
     s.flows = true ∧ (10 : BitVec 6).toNat % 2 = 0 ∧ s.gang.priv = true ∧ s.readTag 4 = true ∧ c.kind = some .linear ∧
     c.fieldsOk = true ∧ c.bs = false ∧ (s.scalar (.s 6)).toNat + (s.scalar (.s 7)).toNat ≤ c.len ∧
     c.base + (s.scalar (.s 6)).toNat < 2 ^ 57 ∧ c.fmt = 0 ∧ (12 : Word).toNat % 64 < 13) ∧
    (let s := ((solo 1).withCap 4 (stitchCap 0x200000)).withS [(6, 1)]
     let c := Cap.ofQuad (s.readPair 4)
     s.readTag 4 = true ∧ c.kind = some .stitch ∧ c.fieldsOk = true ∧ c.ver ≤ (s.scalar (.s 6)).toNat ∧
     (s.scalar (.s 6)).toNat < 2 ^ 32) ∧
    (let s := ((solo 1).withCap 4 tileCap).withS [(6, 0x3F00007), (7, 0x100001)]
     let c := Cap.ofQuad (s.readPair 4)
     let b := (s.scalar (.s 6)).toNat
     let l := (s.scalar (.s 7)).toNat
     c.kind = some .tile ∧ c.fieldsOk = true ∧ b < 2 ^ 40 ∧ l < 2 ^ 40 ∧ 0 < l % 2 ^ 20 ∧ 0 < l / 2 ^ 20 ∧
     b % 2 ^ 20 + l % 2 ^ 20 ≤ c.rows ∧ b / 2 ^ 20 + l / 2 ^ 20 ≤ c.cols ∧ b / 2 ^ 20 * c.bits % 8 = 0 ∧ c.bs = false ∧
     c.bits ≠ 6) ∧
    (let s := ((solo 1).withCap 4 (linearCap 15 0x200000 512)).withS [(6, 0x4000008), (7, 1)]
     let c := Cap.ofQuad (s.readPair 4)
     let b := (s.scalar (.s 6)).toNat
     let l := (s.scalar (.s 7)).toNat
     c.fmt = 0 ∧ c.bs = false ∧ b < 2 ^ 40 ∧ l < 2 ^ 16 ∧ (36 : Word).toNat % 64 = 32 + (36 : Word).toNat % 16 ∧
     (36 : Word).toNat % 16 < 13 ∧ fmtBits ((36 : Word).toNat % 16) ≠ 6 ∧ 0 < b % 2 ^ 20 ∧ 0 < b / 2 ^ 20 ∧
     (b / 2 ^ 20 * fmtBits 4 + 7) / 8 ≤ l * 64 ∧ (b % 2 ^ 20 - 1) * l * 64 + (b / 2 ^ 20 * fmtBits 4 + 7) / 8 ≤ c.len) := by decide

/-- Another gang of the crew of `solo`: gang `idx` with these strands. -/
def other (idx : Nat) : Gang := { newGang 1 idx 1024 0x100000 true with rnd := [], urnd := 0 }
def State.withGang (s : State) (g : Gang) : State := { s with gangs := Sparse.put {} s.gangs g.id g }
def State.withHold (s : State) (why : HoldWhy) : State := { s with gang := { s.gang with hold := some ⟨why, s.ipc, s.run⟩ } }

/-- A logged store of the gang to 0x200010. -/
def logged : LogEntry :=
  { asid := 1, page := 0x20, crewId := 1, gangId := 1056, strands := 1, crewNumber := 0, exitRec := 0, lanes := [{ strand := 0, va := 0x200010, data := [1, 2, 3, 4], tag := none }],
    size := 4, op := none, rset := 0, scope := 0, order := 0, pc := 0x100000, priv := true, core := 0, eject := false }
def withLog (l : List LogEntry) (s : State) : State := { s with sys := s.sys.updCore 0 fun c => { c with log := l } }

/-- `State.Numbered` as a test. -/
def numbered (s : State) : Bool :=
  s.gang.id ≠ 0 && s.crew.id ≠ 0 && s.crew.id = s.gang.crewId && s.gangs.all (fun e => e.2.id = e.1 && e.1 ≠ s.gang.id && e.1 ≠ 0) &&
    decide ((s.gangs.map Prod.fst).Pairwise (· < ·)) && s.crews.all (fun e => e.2.id = e.1 && e.1 ≠ s.crew.id && e.1 ≠ 0) &&
    decide ((s.crews.map Prod.fst).Pairwise (· < ·))

theorem numbered_iff (s : State) : numbered s = true ↔ s.Numbered := by
  simp [numbered, State.Numbered, and_assoc]

/-- A 128-byte line parked in the core's L1 by PARK. -/
def parkOne : Fun := func 0 .none (.s 4) .none .none 0 0x20000000
def parkState : State := (solo 1).withCap 4 (linearCap 15 0x200000 128)
def parkedState : State := (nextOf (exec (.park parkOne) parkState)).getD State.reset

/-- A line not parked, of memory or of a peer, then parked and reserved by this set, then revised under another; FLUSH and INVAL of it. -/
theorem witness_PlacementOfLines :
    (let s := parkState
     let c := Cap.ofQuad (s.readPair 4)
     let r := s.sys.readers s.who (Fun.rset parkOne)
     s.flows = true ∧ parkOne.a = .s 4 ∧ c.check (s.readTag 4) [.linear, .tile] pPark 1 0 = none ∧ c.lines = [0x4000] ∧
     c.lines.length < 2 ^ 32 ∧ s.sys.parked 1 0x4000 = none ∧ r.unit = some (.l1 0) ∧
     gets (s.leaf { s.who with engine := true } .load (0x4000 * 128)) (fun r => isMemory (r.1.addr (0x4000 * 128))) = true ∧
     (let p : State := { s with
        host := { s.host with peermap := [(0, 0x8001)] },
        sys := { s.sys with mtlb := [tlbAt 32 Config.memTop ⟨true, true, true, false⟩] } }
      p.sys.parked 1 0x4000 = none ∧ (p.sys.readers p.who (Fun.rset parkOne)).unit ≠ none ∧
      gets (p.leaf { p.who with engine := true } .load (0x4000 * 128)) (fun r => !isMemory (r.1.addr (0x4000 * 128))) = true) ∧
     (∀ store ∈ (ParkUnit.l1 0).stores (homeDie (0x4000 * 128)), s.sys.demand s.crew.asid 0x4000 (Fun.rset parkOne) store = none)) ∧
    (let s := parkedState
     let r := s.sys.readers s.who (Fun.rset parkOne)
     let move : BitVec 16 := 0xA000
     s.flows = true ∧ (s.sys.parked 1 0x4000).any (fun p => p.set = Fun.rset parkOne && p.readers = r && p.reserved &&
       p.set ≠ move && r.unit = some p.place) = true ∧
     (let e := s.sys.entry 1 0x4000
      let d : State := { s with sys := s.sys.setEntry 1 0x4000 { e with parked := e.parked.map fun p => { p with place := .dieL2 0 } } }
      (d.sys.parked 1 0x4000).any (fun p => p.set = Fun.rset parkOne && p.readers = d.sys.readers d.who (Fun.rset parkOne) &&
        r.unit ≠ some p.place) = true ∧ r.unit = some (.l1 0) ∧
      ∀ store ∈ (ParkUnit.l1 0).stores (homeDie (0x4000 * 128)),
        d.sys.demand d.crew.asid 0x4000 (Fun.rset parkOne) store = none) ∧
     (s.sys.readers s.who move).unit = some .home ∧
     (∀ store ∈ ParkUnit.home.stores (homeDie (0x4000 * 128)), s.sys.demand s.crew.asid 0x4000 move store = none) ∧
     (s.sys.readers s.who 0xC000).unit = none) ∧
    (let x : MemOp := { memory .s4 .none (.s 4) .none .none with capb := true, x73 := true }
     let s := parkState
     let here (s : State) : State :=
       { s with sys := s.sys.setEntry 1 0x4000 { copies := [(ccOf s.cluster, {})], pa := 0x200000, owner := some (0, 1) } }
     gets (s.prefetchTargets s.who (memAddr x 4 pRead .any 0) (s.active x.hdr)) (fun _ => true) = true ∧
     ([s, here s].all fun s => gets (s.targets s.who ⟨4, true, x.a, x.b, x.off, 0, .any, 0, false⟩ (s.active x.hdr))
       fun ts => targetLines ts.1 = [0x4000] && (s.loggedLine (s.guard x.hdr) [0x4000]).isNone &&
         (s.sys.parked 1 0x4000).isNone) = true ∧ ((here s).sys.entry 1 0x4000).holds (ccOf s.cluster) = true) := by decide

/-- One frame of 64 KiB, at a seal version that wraps. -/
theorem witness_Seals :
    let s := (solo 1).withCap 4 (linearCap 15 0x200000 65536)
    let s : State := { s with sys := { s.sys with seals := [(32, 0xFFFFFF)] } }
    let c := Cap.ofQuad (s.readPair 4)
    s.flows = true ∧ c.check (s.readTag 4) [.linear, .tile] pSeal 1 0 = none ∧ c.base % 65536 = 0 ∧ c.footprint % 65536 = 0 ∧
    s.logBlocked s.run = false ∧ gets (s.frames s.who c.pages) (fun r => r.1 = [32] && r.2.sys.seals.get 0 32 = 0xFFFFFF) = true := by
  decide

/-- The premises of an atomic, in memory or in scratch. -/
def mayAtomic (x : AtomOp) (space : AddrSpace) (scratch : Bool) (s : State) : Bool :=
  let n := x.size.bytes
  let m : Addr := { size := n, capb := x.capb, a := x.a, b := x.b, off := x.off, need := pRead ||| pWrite, space := space, align := n }
  gets (s.targets s.who m (s.lanes x.d.isScalar x.hdr)) fun a =>
    (s.loggedPage a.1).isNone && !a.2.logBlocked (s.actsFor x.d.isScalar x.hdr) &&
      gets (a.2.readyLanes s.who .atomic a.1) fun b => b.1.all fun r => match r.2 with
        | .memory [(va, k, l)] => !scratch && k = n && isMemory (l.addr va)
        | .scratch off => scratch && (s.laneOff off n).isNone
        | _ => false

/-- Two lanes on one word of memory, with acquire and release; two on the last word of the allocation. -/
theorem witness_AtomicAccesses :
    (let x : AtomOp := ⟨h7, .s4, 0, false, 6, 3, 0, .v 127, .s 4, .none, .v 9, 0⟩
     (solo 3).flows = true ∧ (127 : BitVec 7).toNat + loadCount x.d x.size.bytes ≤ 128 ∧
     mayAtomic x .any false ((solo 3).withS [(4, 0x20FFFC)]) = true ∧ (∀ l ∈ ((solo 3).sys.core 0).l1, l.dirty = 0) ∧
     (.atom x, AddrSpace.any) ∈ (atomForms (solo 3) x).map (fun f => (f.1, f.2.1))) ∧
    (let x : AtomOp := ⟨h7, .s8, 0, false, 0, 0, 0, .none, .s 4, .none, .v 8, 0⟩
     mayAtomic x .scratch true ((solo 3).withS [(4, 65528)]) = true) := by decide

/-- Operands at the ends of their range; both NaN, one NaN, -0 below +0, and -1 below 1. -/
theorem witness_AtomicOperations :
    (0 < 2 ^ 32 ∧ 2 ^ 64 - 1 < 2 ^ 64) ∧
    (let f := Ty.f32.floatFmt
     (f.unpack 0x7FC00000).isNan = true ∧ (f.unpack 0x7F800001).isNan = true ∧ (f.unpack 0).isNan = false ∧
     (f.unpack 0x80000000).isZero = true ∧ (f.unpack 0).isZero = true ∧ (f.unpack 0x80000000).neg = true ∧
     (f.unpack 0).neg = false ∧ f.unpack 0xBF800000 = .num true 8388608 (-23) ∧ f.unpack 0x3F800000 = .num false 8388608 (-23)) ∧
    (FVal.num true 8388608 (-23)).ereal < (FVal.num false 8388608 (-23)).ereal := by
  refine ⟨by decide, by decide, ?_⟩
  simp only [FVal.ereal, FVal.real, EReal.coe_lt_coe_iff]
  norm_num

/-- A fence of every order at system scope, at once and held, of a gang and of an ejected strand. -/
theorem witness_Fences :
    let x : Fun := func 0 (.s 10) .none .none .none 0xD8 0
    let s := solo 1
    let t := s.withHold (.fence x true)
    s.flows = true ∧ s.actsFor x.d.isScalar x.hdr ≠ 0 ∧ s.logBlocked (s.actsFor x.d.isScalar x.hdr) = false ∧ (∀ n, x.d ≠ .v n) ∧
    fenceScope x = 6 ∧ 2 ≤ fenceOrder x ∧ s.sys.retraining = false ∧ x.d.isScalar = true ∧ s.gang.ej = none ∧
    ((ejected t).focus 1056).gang.ej.isSome = true ∧ ((ejected t).focus 1056).gang.hold = some ⟨.fence x true, t.ipc, t.run⟩ ∧
    (t.focus 1056).gang.hold = some ⟨.fence x true, t.ipc, t.run⟩ ∧
    ((t.focus 1056).atHold ⟨.fence x true, t.ipc, t.run⟩).logBlocked
      (((t.focus 1056).atHold ⟨.fence x true, t.ipc, t.run⟩).actsFor x.d.isScalar x.hdr) = false := by decide

/-- Barrier 95 of a whole gang: the last arrival, a wait that is over, SYNC held at its PC, and a new count of 1023. -/
theorem witness_Barriers :
    (let x : Fun := func 0 .none .none .none .none 0 95
     let s := solo 0xFFFFFFFF
     let k := s.crew.barriers.get {} (s.barrierNo x)
     let open' : State := { s with gang := s.gang.setMyph 95 true }
     let here := open'.withHold (.barrier 95)
     s.flows = true ∧ s.inHandler = false ∧ s.gang.ej = none ∧ s.barrierNo x = 95 ∧ 95 < s.crew.nbar ∧ s.run ≠ 0 ∧
     (Part.touched {} s.run &&& s.gang.inState StrandState.away = 0 ∧ Part.touched {} s.run &&& s.gang.live &&& ~~~s.run = 0) ∧
     s.logBlocked s.run = false ∧ (withLog [logged] s).logBlocked s.run = true ∧
     k.arrived + 1 = k.count ∧ s.gang.hold = none ∧ s.gang.myph.getLsbD 95 = k.phase ∧
     open'.gang.myph.getLsbD 95 ≠ k.phase ∧ here.gang.hold = some ⟨.barrier 95, here.ipc, here.run⟩ ∧
     (s.withHold (.passed 95)).gang.hold = some ⟨.passed 95, s.ipc, s.run⟩ ∧
     (let w := s.withGang { other 4 with hold := some ⟨.barrier 95, 0x100000, 1⟩ }
      (w.findGang (other 4).id).id = (other 4).id ∧ (w.findGang (other 4).id).crewId = w.crew.id ∧ (other 4).id ≠ w.gang.id ∧
      (w.findGang (other 4).id).hold = some ⟨.barrier 95, 0x100000, 1⟩)) ∧
    (let x : Fun := func 0 .none .none .none .none 0 0x3FF005F
     let s := solo 0xFFFFFFFF
     s.argOrImm x.b (bitsAt x.imm.toNat 16 10) = 1023 ∧ s.barrierNo x = 95 ∧ (s.crew.barriers.get {} 95).arrived = 0 ∧
     s.barrierAwaited 95 = false) := by decide

/-- Handle id 0x40: pending, then done; an older handle of the same id, which is over; a register without a handle; a wait
that a CANCELH or the end of the operation has ended. -/
theorem witness_Handles :
    let e : HandleEntry := { serial := 5, used := true, pending := true, gang := 1056, reg := 8 }
    let at' (e : HandleEntry) : State :=
      { solo 1 with crew := { (solo 1).crew with handles := [(0, e)] }, gang := { (solo 1).gang with handleIds := [(8, some ⟨0, 5⟩), (9, some ⟨0, 1⟩)] } }
    let s := at' e
    let t := at' { e with pending := false, status := 7 }
    s.flows = true ∧ s.gang.ej = none ∧ s.finishedHere = none ∧ s.argOrImm .imm 0x40 % 256 = 64 ∧
    ((s.crew.handles.get {} 0).used = true ∧ (s.crew.handles.get {} 0).serial % 4 = 64 / 64 ∧ (Handle.mk 0 5).id = 64 ∧
     (Handle.mk 0 1).id = 64) ∧
    (s.gang.handleIds.get none 8 = some ⟨0, 5⟩ ∧ (s.crew.handles.get {} 0).pending = true ∧ (s.crew.handles.get {} 0).serial = 5) ∧
    (s.gang.handleIds.get none 9 = some ⟨0, 1⟩ ∧ (s.crew.handles.get {} 0).serial ≠ 1) ∧
    ((t.crew.handles.get {} 0).pending = false ∧ t.gang.handleIds.get none 8 = some ⟨0, 5⟩) ∧
    s.gang.handleIds.get none 10 = none ∧ (s.withHold (.finished 7)).finishedHere = some 7 := by decide

/-- A code line at 0x100000 whose slot 1 is a target (the placed line with TGT set), read from the core's buffer. -/
def coded (run : Mask) : State :=
  let line := sealLine (fun i => if i < 2 then 0x890700FFFFFFFF0000000000 else 0) 3 0
  { solo run with sys := (solo run).sys.updCore 0 fun c => { c with ibuf := [{ asid := 1, line := 0x4000, data := line }] } }

/-- Branches to a good and to a bad target; BRX of one of three strands, of none and by an ejected one; JOIN with nobody missing, with one missing, and its
wait over. -/
theorem witness_BranchesAndDivergence :
    (let s := coded 7
     s.run ≠ 0 ∧ s.flows = true ∧ s.targetOk 0x100000 = true ∧ s.targetOk 0x100007 = false) ∧
    (let s := (coded 7).withP [(1, 1)]
     let x : BrxOp := ⟨⟨0, false, 1⟩, 0, .v 8, .v 15, 0, 0⟩
     s.inHandler = false ∧ s.gang.ej = none ∧ s.targetOk (directTarget s.ipc x.imm) = true ∧ s.targetOk (rejoinPc s.ipc x) = true ∧
     Mask.count (s.guard x.hdr) = 1 ∧ Mask.count s.run = 3 ∧ 1 ≤ min 8 s.crew.ejectMax.toNat ∧ 1 ≤ s.freeSlots.length ∧
     s.gang.groups.length < 4) ∧
    (let s := coded 7
     let x : BrxOp := ⟨⟨0, false, 1⟩, 0, .v 8, .v 15, 0, 0⟩
     let y : Fun := func 0 .none .none .none .none 0 0
     ([s, ejected s].all fun s => s.flows && s.targetOk (directTarget s.ipc x.imm) && s.targetOk (rejoinPc s.ipc x)) = true ∧
     { y with hdr := x.hdr }.imm = x.imm ∧ Mask.count (s.guard x.hdr) = 0 ∧ (ejected s).gang.ej.isSome = true) ∧
    (let g : Group := { rejoin := 0x100000, members := 3, expires := none, expired := false }
     let all : State := { solo 3 with gang := { (solo 3).gang with groups := [g] } }
     let away : State := { all with gang := all.gang.mapStrands 2 fun x => { x with st := .ej } }
     let late : State := { all with gang := { (all.gang.mapStrands 2 fun x => { x with st := .ej }) with
       groups := [{ g with expired := true }] } }
     let busy := withLog [logged] all
     (all.joinIdle = false ∧ all.gang.missing all.ipc = 0 ∧ all.logBlocked all.run = false ∧ busy.logBlocked busy.run = true) ∧
     ({ away with crew := { away.crew with rejoinWait := 0 } } : State).crew.rejoinWait = 0 ∧ (away.joinIdle = false ∧ away.gang.missing away.ipc ≠ 0 ∧
     away.gang.waitOver away.ipc = false ∧ away.crew.rejoinWait ≠ 0) ∧ late.gang.waitOver late.ipc = true ∧
     (ejected all).joinIdle = true) := by decide

/-- An active gang and a ready pending one of its slot; a strand out, and one on its way back, of a gang. -/
theorem witness_ExitsAndHandOvers :
    (let s := (coded 1).withGang (other 4)
     s.flows = true ∧ s.inHandler = false ∧ s.gang.ej = none ∧ (∀ e ∈ s.gangs, e.2.id ≠ s.gang.id) ∧ s.joinIdle = false ∧
     s.gang.active = true ∧ s.gang.id ≠ 0 ∧ (s.firstReady s.core s.gang.slot).any (fun g => g.id = (other 4).id && g.id ≠ s.gang.id) = true ∧
     (s.findGang (other 4).id).id = (other 4).id ∧ (solo 1).firstReady 0 0 = none) ∧
    (let e : Ejection := { parent := 1056, strand := 3, slot := 0, live := some (8, 15), rejoin := 0x100040, awaits := [], cause := none }
     let child (st : StrandState) (pc : Pc) : Gang :=
       { id := 1060, crewId := 1, ej := some e, strands := [(3, { pc := pc, age := 0, st := st })] }
     let s := (solo 1).withGang (child .out 0x100040)
     let t := (solo 1).withGang (child .back 0x100040)
     let u := (solo 1).withGang { child .back 0x100040 with ej := some { e with cause := some (0x2C, 0, 0x100000) } }
     (∀ x ∈ [s, t, u], numbered x = true) ∧ e.parent ≠ 1060 ∧ (e.lands ≤ s.clock ∧ e.marks = []) ∧
     (t.handbackReady e = true ∧ u.handbackReady { e with cause := some (0x2C, 0, 0x100000) } = true) ∧
     (let busy := u.withHold (.completion 3 (func 1 .none .none .none .none 0 0) 0 false)
      busy.handbackReady { e with cause := some (0x2C, 0, 0x100000) } = false) ∧
     (let coming := (coded 1).withGang (child .back 0x100040)
      coming.crew.rejoinWait ≠ 0 ∧ coming.joinAt 0x100000 = false) ∧
     (s.findGang 1060).id = 1060 ∧ (s.findGang 1060).ej = some e ∧ e.strand < 32 ∧ (s.findGang 1056).id = 1056 ∧
     ((s.findGang 1060).strand 3).st = .out ∧ e.awaits = [] ∧ s.liveOwed e = false ∧ ((t.findGang 1060).strand 3).st = .back ∧
     ((home 1).trap 0x21 0).gang.handler.isSome = true ∧ (t.findGang 1056).handler = none ∧
     (u.findGang 1060).ej.any (fun e => e.cause.isSome) = true ∧ (u.findGang 1056).handler = none ∧
     (u.findGang 1056).suspended = .no ∧ (u.findGang 1056).ej = none) := by decide

/-- Subgroups of 8 all present; a live member elsewhere. -/
theorem witness_ExchangesInSubgroups :
    (let s := gaps
     s.flows = true ∧ s.inHandler = false ∧ s.gang.ej = none ∧ s.run ≠ 0 ∧
     ((s.group (.g 1)).touched s.run &&& s.gang.inState StrandState.away = 0 ∧
      (s.group (.g 1)).touched s.run &&& s.gang.live &&& ~~~s.run = 0)) ∧
    (let s := solo 1
     (s.group .none).touched s.run &&& s.gang.inState StrandState.away = 0 ∧
      (s.group .none).touched s.run &&& s.gang.live &&& ~~~s.run ≠ 0) := by decide

theorem witness_Reductions :
    let s := gaps
    s.flows = true ∧ s.inHandler = false ∧ s.gang.ej = none ∧ (Sel.v 6).isScalar = false ∧ evenPair (.v 6) Ty.f32.bits ∧
    (∀ t ∈ [Ty.i32, .n32, .i64, .n64, .f32], t ≠ .untyped) ∧
    ((s.group (.g 1)).touched s.run &&& s.gang.inState StrandState.away = 0 ∧
     (s.group (.g 1)).touched s.run &&& s.gang.live &&& ~~~s.run = 0) :=
  ⟨by decide, by decide, by decide, by decide, even_of_width (by decide), by decide, by decide⟩

/-- The token free, held by this gang with a live and without a live target, held by a gang of another crew. -/
theorem witness_PartitionsAndPriority :
    let held (id : Nat) (s : State) : State := { s with sys := s.sys.updCore 0 fun c => { c with prio := [(0, id)] } }
    let s := (solo 1).withGang (other 4)
    let foreign := (solo 1).withGang { other 4 with crewId := 2 }
    s.flows = true ∧ s.inHandler = false ∧ s.gang.ej = none ∧ (s.sys.core 0).prio.get 0 s.gang.slot = 0 ∧
    ((held 1056 s).sys.core 0).prio.get 0 s.gang.slot = s.gang.id ∧ (other 4).live ≠ 0 ∧ (other 4).slot = s.gang.slot ∧
    (other 4) ∈ s.gangsOf s.crew.id ∧ (other 4).ej = none ∧ (other 4).idx = 4 ∧
    (∀ h ∈ s.gangsOf s.crew.id, h.ej = none → h.idx = 4 → h = other 4) ∧ (∀ g ∈ (solo 1).gangsOf 1, g.idx = 4 → g.live = 0) ∧
    (foreign.findGang (other 4).id).crewId ≠ foreign.crew.id := by decide

/-- Subgroups of a .RED form present; the last group of three registers. -/
theorem witness_SoftmaxStep :
    let s := gaps
    s.flows = true ∧ (125 : BitVec 7).toNat + 3 ≤ 128 ∧ s.inHandler = false ∧ s.gang.ej = none ∧
    ((s.group (.g 1)).touched s.run &&& s.gang.inState StrandState.away = 0 ∧
     (s.group (.g 1)).touched s.run &&& s.gang.live &&& ~~~s.run = 0) := by decide

/-! Engines. -/

/-- TILE2D with all permissions but seal. -/
def tile (fmt pitch cols rows base : Nat) : Quad :=
  BitVec.ofNat 128 (2 * 2 ^ 124 + 7 * 2 ^ 120 + fmt * 2 ^ 116 + pitch * 2 ^ 97 + cols * 2 ^ 77 + rows * 2 ^ 57 + base)
/-- LINEAR with all permissions but seal and a format. -/
def vector (fmt base len : Nat) : Quad := linearCap 7 base len + BitVec.ofNat 128 (fmt * 2 ^ 116)
/-- First bytes of scratch and of the page at 0x200000. -/
def inScratch (off : Nat) : Nat := 0x01FFFFFF00000000 + off

/-- The operand checks of an engine pass. -/
def soundCap (s : State) (c : Cap × Bool) (kinds : List CapKind) (perms : BitVec 4) (field : Nat) : Bool :=
  c.1.reservedCause.isNone && (s.engineCheck c.1 c.2 ⟨kinds, perms, field⟩).isNone

/-- A 4096-entry TOPK, a COPY of 128 bytes and one from a list whose header's page is not mapped, GATHER and SCATTER of the
last row. -/
theorem witness_CopyIssue :
    (let s := ((solo 1).withCap 8 (vector 4 0x200000 128)).withCap 10 (vector 4 0x201000 128)
     let a := s.capOf (.s 8)
     let b := s.capOf (.s 10)
     s.flows = true ∧ s.gang.ej = none ∧ s.logBlocked (BitVec.allOnes 32) = false ∧
     soundCap s a [.linear, .tile, .stitch] (destPerms a.1 0x2000) 1 = true ∧
     soundCap s b [.linear, .tile, .stitch] pRead 2 = true ∧ s.versionCheck a.1 = none ∧ s.versionCheck b.1 = none ∧
     (let far := (s.withCap 12 (stitchCap 0x400000)).capOf (.s 12)
      soundCap s far [.linear, .tile, .stitch] pRead 2 = true ∧ s.versionCheck far.1 = none ∧ s.unproven far.1 = [(0x400000, 1)]) ∧
     a.1.wholeElements = some 128 ∧ a.1.wholeElements = b.1.wholeElements ∧ a.1.fmt = b.1.fmt ∧ a.1.bs = b.1.bs) ∧
    (let s := ((solo 1).withCap 8 (tile 4 2 128 4 (inScratch 0))).withCap 12 (tile 4 2 128 64 0x200000)
     let s := s.withS [(5, 3)]
     let x : Fun := ⟨h7, 0, .none, .s 8, .v 7, .s 12, 0, 0x859A⟩
     let sc := s.capOf (.s 8)
     let mc := s.capOf (.s 12)
     (soundCap s sc [.tile] pWrite 1 = true ∧ soundCap s mc [.tile, .stitch] pRead 3 = true ∧
      soundCap s sc [.tile] pRead 3 = true ∧ soundCap s mc [.tile, .stitch] (destPerms mc.1 0) 1 = true) ∧
     sc.1.inScratch = true ∧ mc.1.inScratch = false ∧ s.versionCheck mc.1 = none ∧ sc.1.fmt = mc.1.fmt ∧ sc.1.bs = mc.1.bs ∧
     sc.1.rb + sc.1.sb = mc.1.rb + mc.1.sb ∧ sc.1.rb % 128 = 0 ∧ sc.1.ring = false ∧
     s.rowOrigin x + (s.active x.hdr).length ≤ sc.1.rows) ∧
    (let s := ((solo 1).withCap 8 (vector 0 (inScratch 0) 16384)).withCap 10 (vector 1 0x201000 40)
     let s := s.withS [(12, 4096)]
     let a := s.capOf (.s 8)
     let b := s.capOf (.s 10)
     let sp := (s.scalar (.s 12)).toNat
     soundCap s a [.linear] (destPerms a.1 0) 1 = true ∧ soundCap s b [.linear] pRead 2 = true ∧
     a.1.fmt = 0 ∧ a.1.bs = false ∧ 4 * (sp % 2 ^ 13) ≤ a.1.len ∧ b.1.fmt = 1 ∧ 0 < b.1.elements ∧ b.1.elements ≤ 2 ^ 20 ∧
     b.1.len * 8 % b.1.bits = 0 ∧ sp = sp % 2 ^ 13 + 2 ^ 16 * (sp / 2 ^ 16 % 2 ^ 5) ∧ sp % 2 ^ 13 ≤ 4096) := by decide

/-- A parameter block at offset 0x200: the worked run, with K the whole depth. -/
def blockBytes : List Byte := toBytes 16 (tile 4 1 64 8 (inScratch 0x1000)).toNat ++ [1, 0, 0, 0, 64] ++ List.replicate 43 0
def withBlock (s : State) : State :=
  { s with crew := { s.crew.scratchWrite 0x200 blockBytes false with scratchTags := [0x20] } }

/-- A row word in a scalar register within the accumulator rows of the crew. -/
def rowsFit (s : State) (n : Nat) : Bool :=
  let d := (s.readS n).toNat
  d / 2 ^ 21 % 2 ^ 11 = 0 && 0 < d / 2 ^ 10 % 2 ^ 11 && d / 2 ^ 10 % 2 ^ 11 ≤ 1024 && d % 2 ^ 10 + d / 2 ^ 10 % 2 ^ 11 ≤ s.crew.ar

/-- A weight tile of full size with a 64-point transform, column scales and barrier 95; a run; a drain of 64 rows, one row to
registers; a plane word. -/
theorem witness_MatrixCommands :
    (let s := ((solo 1).withCap 8 (tile 4 2 128 128 (inScratch 0))).withCap 10 (vector 1 0x201000 512)
     let w := s.capOf (.s 8)
     let c := s.capOf (.s 10)
     s.flows = true ∧ s.gang.ej = none ∧ s.inHandler = false ∧ 0 < s.crew.qshare ∧ s.logBlocked (BitVec.allOnes 32) = false ∧
     soundCap s w [.tile] pRead 1 = true ∧ soundCap s c [.linear] pRead 2 = true ∧ c.1.fmt = 1 ∧
     c.1.bs = false ∧ c.1.len = 512 ∧ (w.1.fmt, w.1.bs) ∈ weightFormats ∧ w.1.rows ≤ 128 ∧ w.1.cols ≤ 128 ∧
     (2 < 3 ∧ w.1.cols % (16 * 2 ^ 2) = 0 ∧ w.1.bs = false ∧ w.1.fmt = 4) ∧ (95 + 128) % 128 < 96 ∧ 95 < s.crew.nbar) ∧
    (let s := withBlock (solo 1)
     let b := Block.ofBytes (s.crew.scratchRead 0x200 64)
     let st := Cap.ofQuad b.stream
     (0x200 % 64 = 0 ∧ 0x200 + 64 ≤ s.crew.scratchSize ∧ s.windows s.crew.id = [] ∧ s.crew.scratchTags.contains (0x200 / 16) = true) ∧
     soundCap s (st, true) [.tile] pRead 1 = true ∧ st.inScratch = true ∧ 0 < b.rows ∧ b.rows ≤ 1024 ∧
     b.row0 + b.rows ≤ st.rows ∧ 0 < b.k ∧ b.k ≤ st.cols ∧ b.k ≤ 128 ∧ b.mode < 32 ∧ b.had = false ∧ b.hn = 0 ∧ b.hexp = 0 ∧
     b.barrier % 128 < 96 ∧ b.barrier / 128 % 2 = 0 ∧ (∀ n ∈ b.rest, n = 0) ∧ b.accRow + b.rows ≤ s.crew.ar ∧ (st.fmt, st.bs) ∈ streamFormats) ∧
    (let s := ((solo 1).withCap 8 (vector 1 0x200000 32768)).withS [(3, 0x3F80000000010000), (4, 0x3F8000000000043F), (5, 0x10000)]
     let a := s.capOf (.s 8)
     (rowsFit s 3 = true ∧ rowsFit s 4 = true ∧ rowsFit s 5 = true ∧ (s.scalar (.s 5)).toNat / 2 ^ 32 = 0) ∧
     (s.scalar (.s 4)).toNat / 2 ^ 10 % 2 ^ 11 = 1 ∧ Ty.f32.isFloat = true ∧
     soundCap s a [.linear, .tile] (destPerms a.1 0x2000) 1 = true ∧ fmtTy a.1.fmt = .f32 ∧ a.1.bs = false ∧
     a.1.wholeElements = some ((s.scalar (.s 3)).toNat / 2 ^ 10 % 2 ^ 11 * 128)) ∧
    (∀ o ∈ (solo 1).ops, o.streams = false) := by decide

/-- An operation of the crew of `solo`. -/
def work (id : Nat) (kind : OpKind) (phase : Phase) : EngineOp :=
  { id := id, kind := kind, crewId := 1, gangId := 1056, gangIdx := 0, asid := 1, priv := true, core := 0, handle := some 0, phase := phase }
/-- With operations, whose handle is entry 0. -/
def State.withOps (s : State) (l : List EngineOp) : State :=
  { s with ops := l, nextOp := 9,
           crew := { s.crew with handles := [(0, { used := true, pending := true, gang := 1056, reg := 8 })] } }

/-- A queued copy behind a started one; copies in memory and in scratch; a gather and a scatter of a row and of a bad index;
a cancelled copy. -/
theorem witness_CopyEngines :
    (let mem (a b : Nat) : OpKind := .copy (vector 4 a 128) (vector 4 b 128) 0 false 0
     let queued := work 1 (mem 0x200000 0x201000) .queued
     let s := (solo 1).withOps [work 0 .swap .queued, queued]
     (s.ops = [work 0 .swap .queued] ++ queued :: [] ∧ queued.kind.isCopy = true ∧ queued.core / 4 = 0 ∧
      (∀ p ∈ [work 0 .swap .queued], ¬(p.kind.isCopy = true))) ∧
     (let o := work 1 (mem 0x200000 0x201000) .started
      let s := (solo 1).withOps [o]
      s.findOp 1 = some o ∧ o.cancel = false ∧ (Cap.ofQuad (vector 4 0x201000 128)).len * 8 % 8 = 0 ∧
      gets (s.engRead o.who 0x201000 128) (fun r => gets (r.2.engWrite o.who 0 0x200000 r.1) fun _ => true) = true) ∧
     (windowOf (Cap.ofQuad (vector 4 (inScratch 0) 128)).base).1 = .scratch) ∧
    (let sc := tile 4 2 128 4 (inScratch 0)
     let mc := tile 4 2 128 64 0x200000
     let o := work 1 (.gather sc mc [(3, 63)] false) .started
     let s := (solo 1).withOps [o]
     let c := Cap.ofQuad sc
     let m := Cap.ofQuad mc
     o.crewId = s.crew.id ∧ (windowOf (c.base + 3 * c.pitch * 64)).1 = .scratch ∧ m.kind = some .tile ∧ c.rb % 128 = 0 ∧
     m.ring = false ∧ m.rows ≤ 64 ∧ 63 < m.rows ∧
     gets (s.engRead o.who (m.rowAddr 63) (c.rb + c.sb)) (fun _ => true) = true ∧
     gets (s.engRead o.who (c.base + 3 * c.pitch * 64) (c.rb + c.sb)) (fun r =>
       gets (r.2.engWrite o.who 0 (m.rowAddr 63) (swizzle false 3 c.rb r.1)) fun _ => true) = true) ∧
    (let src := Cap.ofQuad (vector 4 0x201000 2)
     let dst := Cap.ofQuad (vector 11 0x200000 8)
     src.bs = false ∧ 3 < 4 ∧ 0 < src.fmt ∧ src.fmt < 13 ∧ 0 < dst.fmt ∧ dst.fmt < 12 ∧ ∀ c ∈ [0, 255], c < 2 ^ src.bits) := by decide

/-- TOPK queued, then started over eight scores; entries with a value, with a NaN, and one that stays empty. -/
theorem witness_TopkRanking :
    (let k : OpKind := .topk (vector 0 0x200000 16) (vector 1 0x201000 32) 4 0 0 0
     let o := work 1 k .queued
     let t := work 1 k .started
     let s := (solo 1).withOps [o]
     (s.ops = [] ++ o :: [] ∧ k.isTopk = true ∧ o.core / 4 = 0 ∧ ∀ p ∈ s.ops, p.phase ≠ .started) ∧
     ((solo 1).withOps [t]).findOp 1 = some t ∧ t.cancel = false ∧
     gets (((solo 1).withOps [t]).readElements t.who (Cap.ofQuad (vector 1 0x201000 32))) (fun r =>
       gets (r.2.engWrite t.who 0 0x200000 (topkEntries 0 4 0
         ((ranking (r.1.1.map (Ty.floatFmt .f32).unpack)).take 4)).1) fun _ => true) = true) ∧
    (let half := Ty.f16.floatFmt.unpack 0x3C00
     let nan := Ty.f32.floatFmt.unpack 0xFFFFFFFF
     let top : List Ranked := [(2 ^ 32 - 1, half), (7, nan)]
     (∀ e ∈ top, e.1 < 2 ^ 32) ∧ top.length ≤ 3 ∧ top[0]? = some (2 ^ 32 - 1, half) ∧ top[1]? = some (7, nan) ∧ top[2]? = none ∧
     0x3C00 < 2 ^ Ty.f16.bits ∧ 0xFFFFFFFF < 2 ^ Ty.f32.bits ∧ half.isNan = false ∧ nan.isNan = true) := by decide

/-- The planes of core 0. -/
def withPlanes (a b : Plane) (s : State) : State := { s with sys := s.sys.updCore 0 fun c => { c with active := a, shadow := b } }

/-- A load, a swap and a zeroing that may dispatch; a load in work; a loaded plane; an engine that arrives at barrier 95. -/
theorem witness_WeightPlanes :
    (let q := tile 4 1 4 2 (inScratch 0)
     let l := work 1 (.loadw q none false 0 0) .queued
     let z := work 1 (.zero 0 64) .queued
     let w := work 1 .swap .queued
     (((solo 1).withOps [l]).findOp 1 = some l ∧ ((solo 1).withOps [l]).mayDispatch l = true) ∧
     ((solo 1).withOps [w]).mayDispatch w = true ∧ ((solo 1).withOps [z]).mayDispatch z = true ∧
     (let o := work 1 (.loadw q none false 0 0) .started
      let s := withPlanes {} { loading := true, owner := 1, fmt := ⟨4, false⟩, kw := 4 } ((solo 1).withOps [o])
      (s.sys.core 0).shadow.loading = true ∧ (s.sys.core 0).shadow.owner = o.crewId ∧ (Cap.ofQuad q).cols ≤ 256 ∧
      s.mayRead o = true ∧ (∀ e ∈ (s.findCrew 1).unfenced, ∀ x ∈ e.2, x.1 < o.fence) ∧
      (∀ j, j < 2 → (windowOf ((Cap.ofQuad q).base + j * (Cap.ofQuad q).pitch * 64)).1 = .scratch)) ∧
     ((withPlanes {} { full := true, owner := 1 } (solo 1)).sys.core 0).shadow.full = true ∧
     (let o := { work 1 (.loadw q none false 0 0) .started with barrier := some 95 }
      let s := withPlanes {} { loading := true, owner := 1, fmt := ⟨4, false⟩, kw := 4 } ((solo 1).withOps [o])
      o.arrived = false ∧ s.mayRead o = true ∧ o.kind.isRun = false ∧ ((s.perform o).findOp 1).any (fun p => p.phase = .written) = true ∧
      (s.findCrew 1).id = 1)) := by decide

/-- The token of cluster 0 held. -/
def holding (s : State) : State := { s with tokens := [{ die := 0, place := 0, held := true, since := 0 }] }
/-- A run of one row of K = 4 in scratch at 0x1000, against an E4M3 or an INT8 plane of the crew. -/
def runOp (fmt : Nat) (phase : Phase) : EngineOp :=
  work 1 (.mxrun (tile fmt 1 64 8 (inScratch 0x1000)) 1 7 4 0 true false false 0 0) phase
def planeOf (fmt : Nat) : Plane := { full := true, owner := 1, fmt := ⟨fmt, false⟩, kw := 4 }

/-- A run without weights and with them, and started with its token: float and integer. -/
theorem witness_MatrixRuns :
    (let o := runOp 4 .queued
     let s := (solo 1).withOps [o]
     let t := withPlanes (planeOf 4) {} s
     s.findOp 1 = some o ∧ o.cancel = false ∧ s.mayDispatch o = true ∧ (s.sys.core 0).active.full = false ∧
     (t.sys.core 0).active.full = true ∧ (t.sys.core 0).active.owner = o.crewId ∧ pairMode ⟨4, false⟩ ⟨4, false⟩ ≠ none ∧ 4 ≤ 128) ∧
    (let o := runOp 4 .started
     let s := holding (withPlanes (planeOf 4) {} ((solo 1).withOps [o]))
     let a := (s.crew.activation (Cap.ofQuad (tile 4 1 64 8 (inScratch 0x1000))) 7 4 false false 0 0 0).codes
     o.phase = .started ∧ s.tokenHere (o.core / 4) = true ∧ s.mayRead o = true ∧ s.rowsSettled o = true ∧
     (∀ e ∈ (s.findCrew 1).unfenced, ∀ x ∈ e.2, x.1 < o.fence) ∧ 4 ≤ 256 ∧ 4 ≤ (Cap.ofQuad (tile 4 1 64 8 (inScratch 0x1000))).cols ∧
     (s.sys.core 0).accMode.get .none 0 = .none ∧
     (∀ i, i < 4 → ((Ty.floatFmt .e4m3).unpack (a.getD i 0)).isNan = false ∧ ((Ty.floatFmt .e4m3).unpack (a.getD i 0)).isInf = false ∧
       ((Ty.floatFmt .e4m3).unpack ((s.sys.core 0).active.codes.get 0 i).toNat).isNan = false) ∧
     ((Ty.floatFmt .f32).unpack ((s.sys.core 0).active.colScales.get 0x3F800000 127).toNat).isInf = false) ∧
    ((planeOf 9).fmt = ⟨9, false⟩ ∧ (Cap.ofQuad (tile 9 1 64 8 (inScratch 0x1000))).fmt = 9) := by decide

/-- A run without ACC whose only products are zeros: of unlike signs, and of like signs. -/
theorem witness_MatrixRunZeros :
    (let f := Ty.e4m3.floatFmt
     f.unpack 0 = .num false 0 (-9) ∧ f.unpack 0x80 = .num true 0 (-9) ∧ Ty.f32.floatFmt.unpack 0x3F800000 = .num false 8388608 (-23)) ∧
    ((FVal.num false 0 (-9)).real * (FVal.num true 0 (-9)).real = 0 ∧ (FVal.num false 0 (-9)).neg ≠ (FVal.num true 0 (-9)).neg) ∧
    (FVal.num false 8388608 (-23)).real ≠ 0 ∧ (FVal.num false 8388608 (-23)).neg = false := by
  refine ⟨by decide, ⟨by simp [FVal.real], by decide⟩, ?_, rfl⟩
  simp only [FVal.real]
  norm_num

/-- A run that arrives at barrier 95. -/
theorem witness_RunArrives :
    (let o := { (runOp 9 .started) with barrier := some 95 }
     let s := holding (withPlanes (planeOf 9) {} ((solo 1).withOps [o]))
     o.kind.isRun = true ∧ s.mayRead o = true ∧ s.tokenHere (o.core / 4) = true ∧ s.rowsSettled o = true ∧
     ((s.perform o).findOp 1).any (fun p => p.phase = .written) = true ∧ (s.findCrew o.crewId).id = 1) := by decide

/-- A drain of two rows to memory and one of a row to registers v124-v127 that may dispatch, and one that is written. -/
theorem witness_MatrixDrains :
    (let q := vector 1 0x200000 1024
     let o := work 1 (.drain q .f32 true 3 false 0 2 0x3F800000 none 0) .queued
     let r := work 1 (.drainR 124 .f32 true 3 false 0 0x3F800000 none) .queued
     let s := (solo 1).withOps [o]
     let t := (solo 1).withOps [r]
     s.findOp 1 = some o ∧ o.cancel = false ∧ s.mayDispatch o = true ∧ t.mayDispatch r = true ∧ 124 + 4 ≤ 128 ∧
     (o.rows = none ∧ r.rows = none) ∧
     (t.findGang r.gangId).id = r.gangId ∧ r.gangId ≠ 0 ∧ o.kind.isDrain = true ∧
     gets (s.writeElements o.who 0 (Cap.ofQuad q) (List.replicate 256 0) []) (fun _ => true) = true) := by decide

/-! Stitched lists and splices. -/

/-- A list at 0x200000 with its array at 0x200040. -/
def withList (h : ListHdr) (l : List Piece) (s : State) : State :=
  { s with sys := (s.sys.setBytes 0x200000 h.toBytes).setBytes 0x200040 (l.flatMap Piece.toBytes) }
/-- Version 2 of two pieces of 64 and 32 bytes; slot 0 pins version 1 once; a dead piece before them. -/
def hdr2 : ListHdr := ⟨2, 2, 96, 0x200040, 2, 3, (1, 1) :: List.replicate 7 (0, 0)⟩
def pieces2 : List Piece :=
  [⟨0x201000, 16, 7, 0, 1, 0⟩, ⟨0x201100, 64, 8, 1, neverDies, 0⟩, ⟨0x202000, 32, 9, 2, neverDies, 0⟩]
def listed : State := (withList hdr2 pieces2 (solo 1)).withCap 4 (stitchCap 0x200000)

/-- SLIST.INIT of an empty list with 2^20 entries; a header and a list read at versions 1 and 2; all slots full; slot 0 pinned;
RECLAIM with its descriptor to scratch and to memory. -/
theorem witness_StitchedLists :
    (let s := ((solo 1).withCap 4 (linearCap 15 0x200000 64)).withCap 6 (linearCap 15 0x210000 33554432)
     let s := s.withS [(8, 20)]
     let c := s.capOf (.s 4)
     let a := s.capOf (.s 6)
     let h : ListHdr := ⟨1, 0, 0, a.1.base, 20, 0, List.replicate 8 (0, 0)⟩
     s.flows = true ∧ s.gang.ej = none ∧ (Sel.s 2).isScalar = true ∧ (2 : BitVec 7).toNat % 2 = 0 ∧ (s.scalar (.s 8)).toNat = 20 ∧
     soundCap s c [.linear] 3 1 = true ∧ soundCap s a [.linear] 3 2 = true ∧ s.splicing c.1.base = false ∧
     s.logBlocked (BitVec.allOnes 32) = false ∧ c.1.base % 64 = 0 ∧ 64 ≤ c.1.len ∧ a.1.base % 64 = 0 ∧ 32 * 2 ^ 20 ≤ a.1.len ∧
     gets ((s.release s.who 5).saveHeader s.unitWho c.1.base h) (fun _ => true) = true) ∧
    (let s := listed
     let c := s.capOf (.s 4)
     let w := s.unitWho
     c.1.check c.2 [.stitch] 15 1 0 = none ∧ c.1.ver = 1 ∧ s.splicing c.1.base = false ∧
     gets (s.readHeader w c.1.base) (fun r => r.1 = hdr2) = true ∧
     gets (s.readList w c.1.base) (fun r => r.1 = (hdr2, pieces2) && r.2.reachable s.crew.asid c.1.base r.1.1 c.1.ver) = true ∧
     (pieces2.filter fun p => p.aliveAt 1).map (fun p => p.len) = [64] ∧
     hdr2.pinSlot 2 = some 1 ∧ hdr2.pinSlot 1 = some 0 ∧ ({ hdr2 with pins := List.replicate 8 (15, 1) } : ListHdr).pinSlot 1 = none ∧
     gets (s.readHeader w c.1.base) (fun r => gets (r.2.saveHeader w c.1.base (r.1.setPin 1 (1, 2))) fun _ => true) = true ∧
     (0 < (hdr2.pins.getD 0 (0, 0)).1 ∧ (hdr2.pins.getD 0 (0, 0)).2 = c.1.ver) ∧
     gets (s.readHeader w c.1.base) (fun r =>
       gets ((r.2.settleHolds s.crew.asid c.1.base r.1).saveHeader w c.1.base (r.1.setPin 0 (0, 1))) fun _ => true) = true) ∧
    (let s := (listed.withCap 6 (linearCap 15 (inScratch 0x40) 16)).withCap 8 (linearCap 15 0x203000 16)
     let w := s.unitWho
     let m := s.capOf (.s 8)
     let r := reclaim 1 1 pieces2
     soundCap s (s.capOf (.s 6)) [.linear] pWrite 2 = true ∧ soundCap s m [.linear] pWrite 2 = true ∧ (s.capOf (.s 6)).1.inScratch = true ∧ m.1.inScratch = false ∧
     r.gone = pieces2.take 1 ∧ (reclaim 0 1 pieces2).gone = [] ∧
     gets (s.readList w 0x200000) (fun q => 1 ∈ q.2.liveVersions 1 0x200000 hdr2 && (q.2.liveVersions 1 0x200000 hdr2).all (1 ≤ ·) &&
       gets (q.2.unitCheck w m.1.base (goneBytes r.gone).length) fun u =>
         gets (u.saveList w 0x200000 { hdr2 with used := r.kept.length } r.kept) fun _ => true) = true) ∧
    ((∀ p ∈ pieces2, p.birth ≤ 2 ∧ p.death ≠ 3) ∧ 2 + 1 < neverDies ∧ 64 ∈ boundaries (versionLength 2 pieces2) (placed 2 0 pieces2) ∧
     96 ∈ boundaries (versionLength 2 pieces2) (placed 2 0 pieces2) ∧
     hdr2.version < 2 ^ 32 ∧ hdr2.count < 2 ^ 32 ∧ hdr2.length < 2 ^ 64 ∧ hdr2.arr < 2 ^ 57 ∧ hdr2.arr % 64 = 0 ∧ hdr2.k < 64 ∧
     hdr2.used < 2 ^ 32 ∧ hdr2.pins.length = 8 ∧ ∀ p ∈ hdr2.pins, p.1 < 16 ∧ p.2 < 2 ^ 32) := by decide

/-- An empty list to be made at 0x200000; the list of `listed` with its pages at hand, and descriptors to memory. -/
theorem witness_ListsComplete :
    (let s := ((solo 1).withCap 4 (linearCap 15 0x200000 64)).withCap 6 (linearCap 15 0x210000 33554432)
     let c := s.capOf (.s 4)
     let o := s.capOf (.s 6)
     (c.1.reservedCause = none ∧ o.1.reservedCause = none ∧ s.engineCheck c.1 c.2 ⟨[.linear], 3, 1⟩ = none ∧
      s.engineCheck o.1 o.2 ⟨[.linear], 3, 2⟩ = none ∧ s.splicing c.1.base = false ∧ o.1.base % 64 = 0) ∧
     s.FindsAll s.unitWho .store c.1.base 64) ∧
    (let s := listed.withCap 8 (linearCap 15 0x203000 16)
     let c := s.capOf (.s 4)
     let o := s.capOf (.s 8)
     let w := s.unitWho
     (s.splicing c.1.base = false ∧ c.1.check c.2 [.stitch] 15 1 0 = none ∧ s.logBlocked (BitVec.allOnes 32) = false ∧
      o.1.reservedCause = none ∧ s.engineCheck o.1 o.2 ⟨[.linear], pWrite, 2⟩ = none ∧
      1 ∈ s.liveVersions s.crew.asid c.1.base hdr2 ∧ c.1.ver = 1 ∧ (hdr2.pins.getD 1 (0, 0)).1 = 0 ∧
      (hdr2.pins.getD 0 (0, 0)) = (1, 1)) ∧
     s.FindsHeader w c.1.base 0x200000 hdr2 ∧ s.FindsEntries w hdr2 (fun i => 0x200040 + 32 * i) pieces2 ∧
     s.FindsAll w .store c.1.base 64 ∧ s.FindsAll w .store hdr2.arr (32 * hdr2.used) ∧ s.FindsAll w .store o.1.base o.1.len) := by
  have load : (listed.withCap 8 (linearCap 15 0x203000 16)).findsUnit (listed.withCap 8 (linearCap 15 0x203000 16)).unitWho .load
      0x200000 0x200000 = true := by decide
  have all (s : State) (va n : Nat) (h : s.findsUnit s.unitWho .store va 0x200000 = true) := State.FindsAll.of_unit (n := n) h
  refine ⟨⟨by decide, all _ _ _ (by decide) (by decide) (by decide)⟩, by decide, ?_, ⟨by decide, fun i hi => ?_⟩,
    all _ _ _ (by decide) (by decide) (by decide), all _ _ _ (by decide) (by decide) (by decide),
    all _ _ _ (by decide) (by decide) (by decide)⟩
  · exact ⟨by decide, by decide, .of_unit load (by decide) (by decide), by decide, by decide, by decide, by decide, by decide, by decide⟩
  · have : i < 3 := hi
    interval_cases i <;> exact ⟨by decide, .of_unit load (by decide) (by decide), by decide⟩

/-- A splice of a list at 0x200000. -/
def spliceOp (fn : Nat) (b c : Dword) (cp : Option Quad) (expect : Option Word) : EngineOp :=
  work 1 (.splice fn (stitchCap 0x200000) b c cp expect) .queued
/-- What a splice read, tested. -/
def splices (o : EngineOp) (h : ListHdr) (p : ListHdr → List Piece → State → Bool) : Bool :=
  let s := (withList h pieces2 (solo 1)).withOps [o]
  gets ((s.opRelease o 5).readHeader o.who 0x200000) fun r =>
    gets (r.2.readPieces o.who 0x200000 r.1) fun q => p r.1 q.1 q.2

/-- An insertion that queues with 65536 bytes of descriptors, with 16; a removal of nothing; a conflict; a bad
boundary; the last version; a full list; a removal, a truncation inside a piece and an insertion that save; a descriptor of a
piece without bytes. -/
theorem witness_Splices :
    (let s := (listed.withCap 6 (linearCap 15 0x204000 16)).withCap 8 (linearCap 15 0x200000 65536)
     let c := s.capOf (.s 4)
     let p := s.capOf (.s 6)
     let q := s.capOf (.s 8)
     s.flows = true ∧ s.gang.ej = none ∧ s.logBlocked (BitVec.allOnes 32) = false ∧ c.1.check c.2 [.stitch] pWrite 1 0 = none ∧
     (soundCap s p [.linear] pRead 3 = true ∧ p.1.len % 16 = 0 ∧ 0 < p.1.len) ∧
     (soundCap s q [.linear] pRead 3 = true ∧ q.1.len % 16 = 0 ∧ q.1.len ≤ 65536) ∧
     s.scalar (.s 10) ≤ s.scalar (.s 10)) ∧
    (let s := solo 1
     let x := spliceOp 1 64 64 none none
     (s.withOps [x]).findOp 1 = some x ∧ x.phase = .queued ∧ (s.withOps [x]).spliceAhead x = false ∧ x.cancel = false ∧ { x with cancel := true }.cancel = true) ∧
    (splices (spliceOp 2 0 0 none (some 1)) hdr2 (fun h _ _ => 1 ≠ h.version) = true ∧
     splices (spliceOp 1 64 64 none none) hdr2 (fun h l _ => h.length = versionLength 2 l) = true ∧
     splices (spliceOp 1 1 64 none none) hdr2 (fun h l _ => !(boundaries h.length (placed h.version 0 l)).contains 1) = true ∧
     splices (spliceOp 2 64 0 none none) { hdr2 with version := 0xFFFFFFFE } (fun h _ _ => h.version = 0xFFFFFFFE) = true ∧
     splices (spliceOp 2 65 0 none none) { hdr2 with k := 2, used := 4 } (fun h l _ =>
       straddles 65 (placed h.version 0 l) && 2 ^ h.k < h.used + 1) = true ∧
     splices (spliceOp 1 64 96 none none) hdr2 (fun h l u =>
       gets ((u.settleHolds 1 0x200000 h).saveList (spliceOp 1 64 96 none none).who 0x200000 h (removeRange 3 64 96 (placed 2 0 l))) fun _ => true) = true ∧
     splices (spliceOp 2 65 0 none none) hdr2 (fun h l u => 65 < h.length &&
       gets ((u.settleHolds 1 0x200000 h).saveList (spliceOp 2 65 0 none none).who 0x200000 h (truncateAt 3 65 (placed 2 0 l))) fun _ => true) = true) ∧
    (let d := linearCap 15 0x200100 16
     let o := spliceOp 0 64 0 (some d) none
     splices o hdr2 (fun _ _ u => gets (u.descriptors o.who (Cap.ofQuad d)) fun r =>
       (newPieces 3 r.1).any fun p => p.len = 0) = true ∧
     (let s : State := (withList hdr2 pieces2 (solo 1)).withOps [o]
      let s := { s with sys := s.sys.setBytes 0x200100 (toBytes 8 0x205000 ++ toBytes 4 48 ++ toBytes 4 5) }
      gets ((s.opRelease o 5).readHeader o.who 0x200000) (fun r => gets (r.2.readPieces o.who 0x200000 r.1) fun q =>
        gets (q.2.descriptors o.who (Cap.ofQuad d)) fun t =>
          (newPieces 3 t.1).all (fun p => p.len ≠ 0 && ((windowOf p.base).1 = .global || (windowOf p.base).1 = .priv)) &&
          gets ((t.2.settleHolds 1 0x200000 r.1).saveList o.who 0x200000 r.1 (insertAt 64 (newPieces 3 t.1) (placed 2 0 q.1))) fun _ => true) = true)) := by decide

/-- A copy from a version that its list, whose header could not be read at issue, does not hold any more. -/
theorem witness_UnprovenVersion :
    let o := { work 1 (.copy (vector 4 0x204000 128) (stitchCap 0x200000) 0 false 0) .started with
      holds := [(0x200000, 7)], unproven := [(0x200000, 7)] }
    let s := listed.withOps [o]
    s.findOp 1 = some o ∧ o.kind.isCopy = true ∧ o.cancel = false ∧
    gets (s.readHeader o.who 0x200000) (fun r => !r.2.reachable o.asid 0x200000 r.1 7) = true := by decide

/-- A splice on the firmware path that its canceller came too late for; another operation that is cancelled there, and one
whose fault is still with the driver. -/
theorem witness_FirmwareCancel :
    (let x : EngineOp := { spliceOp 1 64 96 none none with phase := .firmware, cancel := true }
     let s := (withList hdr2 pieces2 (solo 1)).withOps [x]
     s.findOp 1 = some x ∧ x.kind.isMatrix = false ∧ x.kind.isSplice = true ∧ x.unproven = [] ∧ gets (s.opWork x) (fun _ => true) = true) ∧
    (let c (p : Phase) : EngineOp := { work 1 (.copy (vector 4 0x200000 128) (vector 4 0x201000 128) 0 false 0) p with cancel := true }
     (c .firmware).kind.isSplice = false ∧ ([Phase.firmware, .faulted].all fun p => ((solo 1).withOps [c p]).findOp 1 = some (c p)) = true) := by
  decide

/-! Queues. -/

/-- A bound queue of ASID 1 with its ring of 4 items at 0x200000. -/
def ring (flags : BitVec 8) (head tail : Word) : Queue :=
  { bound := true, ring := 0x200000, logcap := 2, flags := flags, asid := 1, head := head, tail := tail, crec := 0x204000 }
def State.withQ (s : State) (q : Queue) : State := { s with queues := [(0, q)] }
/-- Queue 0 of the issuing cluster, items from scratch offset 64 on; status to s3, mask to p1. -/
def queueFun (fn : BitVec 8) : Fun := func fn (.p 1) .none .none (.s 3) 0 0xFC000040

/-- No gang waits at a queue. -/
def noneWaits (s : State) (key : Nat) : Bool :=
  s.crew.id = s.gang.crewId && s.gang.live ≠ 0 &&
    s.allGangs.all fun g => !(g.blockedPop.any fun w => w.1 = key) && !(g.blockedPush.any fun w => w.1 = key)

/-- The conditions of a transfer but the queue's. -/
def mayMove (x : Fun) (o : Op) (s : State) : Bool :=
  s.flows && noneWaits s 0 && (s.barred (queueLimits o x)).isNone && (s.specBit x).isNone && s.queueKey (s.queueSpec x) = 0 && s.usable (s.queue 0) &&
    s.itemBase x % 64 = 0 && s.itemBase x + 64 * Mask.count s.run ≤ s.crew.scratchSize && (s.windows s.crew.id).isEmpty

/-- A push of two with room for one around the end of the pointers, blocking and not, and with a completion record; pops of an
item from a queue with one and from one closed; a steal; a spec of cluster 48, of a queue unbound, misaligned and
beyond the allocation; waits served and timed out. -/
theorem witness_QueueItems :
    (let x := queueFun 0
     let b := queueFun 1
     let s := (solo 3).withQ (ring 0 0xFFFFFFFE 1)
     let t : State := { s with crew := { s.crew with qwaitMax := 5 } }
     let r := (solo 3).withQ (ring 3 0xFFFFFFFE 1)
     transferRegisters x ∧ mayMove x .qpush s = true ∧ (s.queue 0).space = 1 ∧ s.portBlocked (s.queue 0) = false ∧
     s.logBlocked s.run = false ∧ t.gang.pushSince = none ∧
     (let u : State := { t with gang := { t.gang with pushSince := some 0 }, clock := 5 }
      mayMove b .qpush u = true ∧ u.logBlocked u.run = false ∧ 0 + u.crew.qwaitMax.toNat ≤ u.clock) ∧
     (mayMove b .qpush t = true ∧ b.fn.getLsbD 0 = true ∧ t.crew.qwaitMax ≠ 0 ∧ (t.queue 0).space < 2) ∧
     gets (s.ringCheck s.unitWho (s.queue 0) 1) (fun _ => true) = true ∧
     (mayMove x .qpush r = true ∧ (r.queue 0).hostPorts ≠ 0 ∧ gets (r.ringCheck r.unitWho (r.queue 0) 1) (fun u =>
        gets (State.recordWrite ((u.release r.who (r.queue 0).pushScope).ringWrite r.unitWho (r.queue 0) 64 1) r.unitWho
          ((r.queue 0).crec.toNat + 32 * ((r.queue 0).tail.toNat % (r.queue 0).capacity))
          (r.completionBytes (r.queue 0) 0 1)) fun _ => true) = true)) ∧
    ((solo 3).host.linkA = true ∧ (solo 3).host.linkB = true) ∧
    (let x := queueFun 0
     let b := queueFun 1
     let s := (solo 3).withQ (ring 4 0xFFFFFFFF 0)
     let e := (solo 3).withQ (ring 0 0 0)
     let c := (solo 3).withQ (ring 8 0 0)
     (mayMove x .qpop s = true ∧ mayMove x .qsteal s = true ∧ (s.queue 0).count = 1 ∧ (s.queue 0).steals = true ∧
      gets ([(s.queue 0).slot 0xFFFFFFFF].foldlM (readItem s.unitWho) ([], s)) (fun r => r.1.length = 1) = true) ∧
     (mayMove x .qsteal e = true ∧ (e.queue 0).steals = false ∧ mayMove b .qpop e = true ∧ b.fn.getLsbD 0 = true ∧
      (e.queue 0).count = 0 ∧ (e.queue 0).closed = false) ∧
     (mayMove b .qpop c = true ∧ (c.queue 0).closed = true ∧ c.crew.retq = false) ∧
     (let w : State := (c.withHold (.qpop b 0 5)).focus 1056
      w.firstBlocked Gang.blockedPop 0 = some 1056 ∧ (w.queue 0).closed = true ∧ b.fn.getLsbD 0 = true ∧
      ({ w with crew := { w.crew with retq := true } } : State).firstBlocked Gang.blockedPop 0 = some 1056)) ∧
    (let at' (spec base : Nat) : Fun := func 0 .none .none .none .none 0 (BitVec.ofNat 32 (spec * 2 ^ 22 + base))
     let s := (solo 3).withQ (ring 4 0 1)
     (solo 3).barred (queueLimits .qpush (at' 0x300 0)) = none ∧ (solo 3).queueSpec (at' 0x300 0) / 16 = 48 ∧
     (s.queueSpec (at' 0x3F1 0) / 16 = 0x3F ∧ (s.queue (s.queueKey 0x3F1)).bound = false) ∧
     (s.queueSpec (at' 0 1) / 16 < 48 ∧ s.itemBase (at' 0 1) % 64 ≠ 0 ∧ (s.queue (s.queueKey 0)).bound = true) ∧
     (s.itemBase (at' 0 65472) % 64 = 0 ∧ s.crew.scratchSize < s.itemBase (at' 0 65472) + 64 * Mask.count s.run ∧
      s.windows s.crew.id = [])) ∧
    (let pop := ((solo 3).withQ (ring 0 0 1)).withHold (.qpop (queueFun 1) 0 5)
     let push := ((solo 3).withQ (ring 0 0 1)).withHold (.qpush (queueFun 1) 0 5)
     let late : State := { (((solo 3).withQ (ring 0 0 3)).withHold (.qpush (queueFun 1) 0 5)) with clock := 2 ^ 40 }
     let held (s : State) : State := (s.focus 1056).atHold ⟨(s.gang.hold.getD ⟨.retry, 0, 0⟩).why, s.ipc, s.run⟩
     (∀ s ∈ [pop, push, late], (s.focus 1056).gang.hold = s.gang.hold ∧ s.gang.hold.isSome = true) ∧
     (pop.focus 1056).firstBlocked Gang.blockedPop 0 = some 1056 ∧ (held pop).itemBase (queueFun 1) % 64 = 0 ∧
     (nextOf (exec (.qpop (queueFun 1)) (held pop))).isSome = true ∧
     (push.focus 1056).firstBlocked Gang.blockedPush 0 = some 1056 ∧ 2 ≤ ((push.focus 1056).queue 0).space ∧
     (held push).itemBase (queueFun 1) % 64 = 0 ∧ (nextOf (exec (.qpush (queueFun 1)) (held push))).isSome = true ∧
     (push.focus 1056).firstBlocked Gang.blockedPush 1 ≠ some 1056 ∧
     (5 + (late.focus 1056).crew.qwaitMax.toNat ≤ (late.focus 1056).clock ∧ (late.focus 1056).portBlocked (late.queue 0) = false ∧
      gets ((held late).ringCheck (held late).unitWho (late.queue 0) 1) (fun _ => true) = true)) := by
  refine ⟨⟨⟨.inr ⟨3, rfl⟩, .inr ⟨1, rfl, by decide⟩⟩, ?_⟩, by decide⟩
  decide

/-- Blocked gangs that are served, and one whose wait ends, with the ring at hand. -/
theorem witness_WaitsEnd :
    let x := queueFun 1
    let pop := ((solo 3).withQ (ring 0 0 1)).withHold (.qpop x 0 5)
    let push := ((solo 3).withQ (ring 0 0 1)).withHold (.qpush x 0 5)
    let late : State := { (((solo 3).withQ (ring 0 0 3)).withHold (.qpush x 0 5)) with clock := 2 ^ 40 }
    let held (s : State) : State := (s.focus 1056).atHold ⟨(s.gang.hold.getD ⟨.retry, 0, 0⟩).why, s.ipc, s.run⟩
    transferRegisters x ∧
    ((pop.focus 1056).firstBlocked Gang.blockedPop 0 = some 1056 ∧ (pop.queue 0).count ≠ 0 ∧
      ∀ n, n < 1 → (held pop).FindsAll (held pop).unitWho .load ((pop.queue 0).slot ((pop.queue 0).head + BitVec.ofNat 32 n)) 64) ∧
    ((push.focus 1056).firstBlocked Gang.blockedPush 0 = some 1056 ∧ 2 ≤ (push.queue 0).space ∧ (push.queue 0).hostPorts = 0 ∧
      push.portBlocked (push.queue 0) = false ∧
      ∀ n, n < 2 → (held push).FindsAll (held push).unitWho .store ((push.queue 0).slot ((push.queue 0).tail + BitVec.ofNat 32 n)) 64) ∧
    (5 + late.crew.qwaitMax.toNat ≤ late.clock ∧ (late.queue 0).space = 1 ∧
      ∀ n, n < 1 → (held late).FindsAll (held late).unitWho .store ((late.queue 0).slot ((late.queue 0).tail + BitVec.ofNat 32 n)) 64) := by
  refine ⟨⟨.inr ⟨3, rfl⟩, .inr ⟨1, rfl, by decide⟩⟩, ⟨by decide, by decide, fun n hn => ?_⟩,
    ⟨by decide, by decide, by decide, by decide, fun n hn => ?_⟩, by decide, by decide, fun n hn => ?_⟩ <;>
  interval_cases n <;> exact .of_unit (frame := 0x200000) (by decide) (by decide) (by decide)

/-- QSTAT; a descriptor of QBIND.BIND at 0x200020 with a capacity of 2^16, one with 2^17, one with a misaligned ring; a queue to unbind, to close and to open; waiting
gangs; pointers that move and that do not; a peer's item. -/
theorem witness_QueueControl :
    (let x : Fun := func 0 (.s 3) .none .none .none 0 0xFC200020
     let s : State := { solo 1 with sys := (solo 1).sys.setBytes 0x200028 ([16, 0x1F, 1, 0, 2, 3] : List Byte) }
     let s := s.withS [(4, 0x200020)]
     let x : Fun := { x with a := .s 4, imm := 0xFC000000 }
     s.flows = true ∧ s.gang.ej = none ∧ s.specBit x = none ∧ s.queueKey (s.queueSpec x) = 0 ∧ (s.queue 0).bound = false ∧
     s.gang.priv = true ∧ s.usable (s.queue 0) = false ∧
     gets (s.targets s.who (descAddr x) [0]) (fun a => (s.loggedPage a.1).isNone && gets (a.2.readyLanes s.who .load a.1) fun b =>
       (b.2.locate s.who a.1).isNone &&
         (let d := (b.2.loadLanes s.who 0 32 b.1).1.flatMap fun y => y.data
          d.length = 32 && fromBytes ((d.drop 8).take 1) = 16 && fromBytes (d.take 8) % (64 * 2 ^ 16) = 0)) = true ∧
     (∀ b ∈ [([17, 0x1F, 1, 0, 2, 3] : List Byte), [2, 0x1F, 1, 0, 2, 3]],
       let w : State := { solo 1 with sys := ((solo 1).sys.setBytes 0x200028 b).setBytes 0x200020 [64] }
       let s := w.withS [(4, 0x200020)]
       gets (s.targets s.who (descAddr x) [0]) (fun a => (s.loggedPage a.1).isNone && gets (a.2.readyLanes s.who .load a.1) fun c =>
         (c.2.locate s.who a.1).isNone &&
           (let d := (c.2.loadLanes s.who 0 32 c.1).1.flatMap fun y => y.data
            d.length = 32 && (16 < fromBytes ((d.drop 8).take 1) ||
              fromBytes (d.take 8) % (64 * 2 ^ fromBytes ((d.drop 8).take 1)) ≠ 0))) = true) ∧
     (let t := s.withQ (ring 0 0 1)
      (t.queue 0).bound = true ∧ t.usable (t.queue 0) = true ∧ x.d.isScalar = true ∧ noneWaits t 0 = true ∧ t.allGangs = [t.gang] ∧ t.gang.hold = none ∧
      gets (t.target t.who (descAddr x) 0) (fun a => gets (a.2.writeDesc a.1 (t.queue 0)) fun _ => true) = true)) ∧
    (transferRegisters (queueFun 1) ∧
     (let w := (solo 3).withHold (.qpop (queueFun 1) 0 5)
      (w.focus 1056).gang.hold.isSome = true)) ∧
    (let s := ((solo 1).withQ (ring 16 0xFFFFFFFF 1)).served 0
     let q := s.queue 0
     ((solo 1).gang.blockedPop = none ∧ (solo 1).gang.blockedPush = none ∧ (solo 1).allGangs = [(solo 1).gang]) ∧
     (q.bound = true ∧ (3 : Word) ≠ q.tail ∧ (3 - q.head).toNat ≤ 2 ^ q.logcap) ∧ ¬((4 - q.head).toNat ≤ 2 ^ q.logcap) ∧
     ((1 : Word) ≠ q.head ∧ (1 - q.head).toNat ≤ (q.tail - q.head).toNat) ∧ ¬((2 - q.head).toNat ≤ (q.tail - q.head).toNat) ∧
     ((s.queue 767).bound = false ∧ 767 = 47 * 16 + 15) ∧
     q.peer = true ∧ q.space ≠ 0 ∧ gets (s.unitCheck (queueWho 0 q) (q.slot q.tail) 64) (fun _ => true) = true ∧
     s.FindsAll (queueWho 0 q) .store (q.slot q.tail) 64) := by
  refine ⟨by decide, ⟨⟨.inr ⟨3, rfl⟩, .inr ⟨1, rfl, by decide⟩⟩, by decide⟩, by decide, by decide, by decide, by decide, by decide,
    by decide, by decide, by decide, by decide, .of_unit (frame := 0x200000) (by decide) (by decide) (by decide)⟩

/-! Tokens, the driver, traps, system registers, contexts. -/

/-- A token where a cluster waits, where it passes on, held by a cluster that streams, by one that does not, at its end. -/
theorem witness_PowerTokens :
    (let run := runOp 4 .started
     let toks (l : List Token) (ops : List EngineOp) (clock : Nat) : State :=
       { solo 1 with tokens := l, ops := ops, clock := clock, host := { (solo 1).host with powercfg := 0x9991 } }
     let here := toks [⟨0, 0, false, 0⟩] [run] 0
     let pass := toks [⟨0, 11, false, 0⟩] [run] 0
     let kept := toks [⟨0, 0, true, 0⟩] [run] 2048
     let idle := toks [⟨0, 0, true, 0⟩] [] 2048
     let wanted := toks [⟨0, 0, true, 0⟩] [run, { run with id := 2, core := 4 }] 2048
     (∀ s ∈ [here, pass, kept, idle, wanted], (s.tokens.filter fun t => t.die = 0).length =
       max 1 (min 12 (s.host.powercfg.toNat % 16))) ∧
     (here.dieWaits 0 = true ∧ here.wantsToken 0 = true) ∧ (pass.dieWaits 0 = true ∧ pass.wantsToken 11 = false) ∧
     idle.dieWaits 0 = false ∧ idle.streaming 0 = false ∧ kept.streaming 0 = true ∧ kept.dieWaits 0 = false ∧
     wanted.dieWaits 0 = true ∧ 0 + 2048 ≤ wanted.clock ∧ here.tokens[0]? = some ⟨0, 0, false, 0⟩) ∧
    (let s : State := { solo 1 with host := { (solo 1).host with owner := 2 } }
     s.host.linkUp .portB = true ∧ s.host.owner = ownerOf .portB ∧ s.host.owner ≠ ownerOf .portA ∧
     (∀ d, d < 4 → (0x1234 : BitVec 16).toNat / 16 ^ d % 16 ≤ (0x9999 : BitVec 16).toNat / 16 ^ d % 16)) := by decide

/-- A record of page 0x40 with a waiter. -/
def openTo (w : Waiter) (s : State) : State :=
  { s with sys := { s.sys with faults := [⟨3, 1, 0x40, 0x400000, 0x21, 0, [w]⟩] } }
/-- A gang, an operation and a log that wait on the record; operations on the firmware path. -/
theorem witness_DriverAnswers :
    (let g := openTo (.gang 1056 0x21 0x400000) ((solo 1).withHold (.fault 3))
     let o := openTo (.op 1 0x21) ((solo 1).withOps [work 1 .swap .faulted])
     let l := openTo (.log 0) (withLog [{ logged with page := 0x40 }] (solo 1))
     numbered g = true ∧ numbered o = true ∧ numbered l = true ∧
     (∀ s ∈ [g, o, l], (s.sys.faults.find? fun f => f.id = 3).isSome = true) ∧ (g.findGang 1056).hold = g.gang.hold ∧
     (o.findOp 1).any (fun x => x.phase = .faulted) = true ∧ (l.allGangs.map fun g => g.hold) = [none] ∧ l.host.ctxdbRest = none ∧
     (l.findGang 1056).id = 1056) ∧
    (let x : EngineOp := work 1 (.copy (vector 4 0x200000 128) (vector 4 0x201000 128) 0 false 0) .firmware
     let s := (solo 1).withOps [x]
     s.findOp 1 = some x ∧ x.kind.isMatrix = false ∧ x.phase = .firmware ∧ x.cancel = false ∧ x.unproven = [] ∧
     gets (s.opWork x) (fun _ => true) = true ∧ { x with cancel := true }.cancel = true) := by decide

/-- A gang with a handler, none, and in its handler. -/
theorem witness_TrapEntry :
    (let s := home 7
     (s.gang.ej = none ∧ s.gang.handler = none ∧ (s.sys.ctxD s.crew.asid).trapvec.getLsbD 0 = true) ∧ s.flows = true ∧
     Op.ofCode ((0xFF000000 * 2 ^ 64 : InstrWord).extractLsb' 88 8) = none ∧ (0xFF000000 * 2 ^ 64 : InstrWord) ≠ 0) ∧
    ((solo 1).gang.ej = none ∧ (solo 1).gang.handler = none ∧ ((solo 1).sys.ctxD 1).trapvec.getLsbD 0 = false) ∧
    (let s := (home 1).trap 0x21 0
     s.gang.ej = none ∧ s.inHandler = true ∧ numbered s = true ∧ s.crew.ended = .running) := by decide

/-- A handler, none, a fresh trap; gangs suspended in a handler and outside. -/
theorem witness_ReturnsAndHalts :
    (let s := (home 7).trap 0x21 0
     let b := (s.gang.handler).getD ⟨0, [], 0, [], [], none⟩
     s.gang.priv = true ∧ s.gang.ej = none ∧ s.gang.handler = some b ∧
     (∀ e ∈ s.crew.handles, e.2.inHandler = false ∨ e.2.reg < 56 ∨ e.2.reg = 64) ∧ s.crew.id = s.gang.crewId ∧
     b.tags &&& 0x0FFFFFFF = 0 ∧ s.inHandler = true) ∧
    (let s := home 7
     s.gang.handler = none ∧ s.flows = true ∧ (s.gang.ej = none ∧ (s.sys.ctxD s.crew.asid).trapvec.getLsbD 0 = true) ∧
     s.run &&& ~~~s.gang.live = 0 ∧ s.ipc.toNat < 2 ^ 57 ∧ s.crew.handles = [] ∧ s.inHandler = false ∧ numbered s = true ∧
     s.crew.ended = .running ∧ s.loggedStrands s.logGang = 0 ∧ (withLog [logged] s).loggedStrands s.logGang ≠ 0) ∧
    (let in' := solo 1
     let at' (x : Suspended) : State := { in' with gang := { in'.gang with suspended := x } }
     (in'.crewNumbered 1 0).isSome = true ∧ numbered in' = true ∧
     ∀ x ∈ [Suspended.no, .inHandler, .outside],
       (((at' x).gangsOf 1).find? fun g => g.ej.isNone && g.idx = 0).any (fun g => g.suspended = x) = true) := by decide

/-- Registers that read, write and are refused; PARKCTL with a table at 0x200000 in memory of the context. -/
theorem witness_SystemAccess :
    (let s := solo 1
     let x (n : Nat) : Fun := func 0 (.s 3) (.s 4) .none .none 0 (BitVec.ofNat 32 n)
     s.flows = true ∧ s.gang.priv = true ∧ s.gang.ej = none ∧ (s.sys.ctx s.crew.asid).isSome = true ∧
     SysReg.ofNumber ((x 0xFFF).imm.toNat % 2 ^ 12) = none ∧ (x 0).d.isScalar = true ∧
     (SysReg.ofNumber 0x20 = some .softerr ∧ SysReg.readOnly .softerr = true) ∧
     (SysReg.ofNumber 0x105 = some .trapvec ∧ SysReg.readOnly .trapvec = false) ∧ SysReg.ofNumber 0x103 = some .parkctl) ∧
    (let v : Dword := (2 : Dword) &&& SysReg.mask .parkctl
     let s := home 1
     v.getLsbD 1 = true ∧ s.pageLogged s.core s.crew.asid (tableVa v / 65536) = false ∧
     (withLog [{ logged with page := tableVa v / 65536 }] s).pageLogged s.core s.crew.asid (tableVa v / 65536) = true ∧
     gets (s.readTable s.who v) (fun r => (r.2.sys.ctx 1).isSome) = true) ∧
    ({ solo 1 with gang := { (solo 1).gang with priv := false } } : State).gang.priv = false ∧
    (SysReg.ofNumber 0x212 = some .sldpc ∧ SysReg.isPriv .sldpc = true) := by decide

/-! Translations, context records, gangs, lines, logs. -/

/-- The context of `solo` with a table: 1 GiB at 1 GiB as a large page, 2 MiB at 2 GiB, 64 KiB at 2 GiB + 2 MiB. -/
def paged (run : Mask) : State :=
  let s := solo run
  let entry (y : Sys) (at' n : Nat) : Sys := y.setBytes at' (toBytes 8 n)
  let y := { s.sys with ctxs := [(1, { asid := 1, ptroot := 0x400000 })] }
  let y := entry (entry (entry y 0x400000 0x401001) 0x401000 0x402001) 0x402008 0x4000003F
  { s with sys := entry (entry (entry (entry y 0x402010 0x403001) 0x403000 0x1F) 0x403008 0x404001) 0x404000 0x50001F }
/-- A descriptor at 0x200000. -/
def withDescr (vpn count template area : Nat) (s : State) : State :=
  let b := toBytes 2 0 ++ toBytes 6 vpn ++ toBytes 4 1 ++ toBytes 4 count ++ toBytes 8 template ++ toBytes 8 area
  ({ s with sys := s.sys.setBytes 0x200000 b }).withS [(4, 0x200000)]
/-- A descriptor that reads, tested. -/
def describes (n : Nat) (s : State) (p : TlbDesc → State → Bool) : Bool :=
  let s := s.release s.who 5
  gets (s.targets s.who ⟨n, false, .s 4, .none, 0, 0, .any, 0, true⟩ [0]) fun a => (s.loggedPage a.1).isNone &&
    gets (a.2.readyLanes s.who .load a.1) fun b => (b.2.locate s.who a.1).isNone &&
      (let l := b.2.loadLanes s.who 0 n b.1
       p (TlbDesc.ofBytes 0x200000 (l.1.flatMap fun y => y.data)) l.2)
/-- The large leaf of a descriptor. -/
def largeLeaf (d : TlbDesc) (u : State) : Option BigLeaf :=
  u.sys.bigLeaf (d.vpn * 65536) 4 0 ((u.sys.ctxD d.asid).ptroot.toNat / 4096 % 2 ^ 30 * 4096)

/-- Good and malformed descriptors of both sizes; misaligned ones; a splinter of no large page, past the address
space, past its page's end, without an aligned area and of the last unit of 1 GiB and of 2 MiB. -/
theorem witness_Invalidation :
    ((paged 1).flows = true ∧ (paged 1).gang.priv = true ∧ (paged 1).gang.ej = none ∧ (Sel.s 3).isScalar = true ∧
     (paged 1).logBlocked (BitVec.allOnes 32) = false ∧ 0x200008 % 16 ≠ 0 ∧ 0x200010 % 32 ≠ 0) ∧
    describes 16 (withDescr 1 1 0 0 (paged 1)) (fun d _ => !d.malformed) = true ∧
    describes 16 (withDescr 1 0 0 0 (paged 1)) (fun d _ => d.malformed) = true ∧
    describes 32 (withDescr 1 1 0 1 (paged 1)) (fun d _ => d.malformed) = true ∧
    describes 32 (withDescr 1 1 0 0 (paged 1)) (fun d u => !d.malformed && (largeLeaf d u).isNone) = true ∧
    describes 32 (withDescr 0x801F 2 0 0 (paged 1)) (fun d u => !d.malformed && (largeLeaf d u).any fun l =>
      l.level = 3 && 0x8000 + 32 < d.vpn + d.count) = true ∧
    describes 32 (withDescr 0x7FFF 1 0 256 (paged 1)) (fun d u => !d.malformed && (largeLeaf d u).any fun l =>
      l.level = 2 && d.area % 4096 ≠ 0 && d.vpn + d.count ≤ 0x4000 + 16384) = true ∧
    describes 32 (withDescr (2 ^ 41 + 0x7FFF) 1 0 0x500000 (paged 1)) (fun d _ => !d.malformed && 2 ^ 41 ≤ d.vpn) = true ∧
    describes 32 (withDescr 0x7FFF 1 0 0x500000 (paged 1)) (fun d u => !d.malformed && d.vpn < 2 ^ 41 && (largeLeaf d u).any fun l =>
      d.area % 4096 = 0 && d.area + d.areaNeed l.level 0x4000 ≤ Config.memTop && d.vpn + d.count ≤ 0x4000 + 16384) = true ∧
    describes 32 (withDescr 0x801F 1 0 0x500000 (paged 1)) (fun d u => !d.malformed && (largeLeaf d u).any fun l =>
      l.level = 3 && d.area + d.areaNeed l.level 0x8000 ≤ Config.memTop && d.vpn + d.count ≤ 0x8000 + 32) = true := by decide

/-- A context with one logged store, and the first page of its private window. -/
def ctx2 : Context := { asid := 2, ptroot := 0x400000 }
def recorded : State :=
  let s := solo 1
  { s with sys := { s.sys with
      ctxs := [(1, { asid := 1 }), (2, ctx2)],
      mtlb := s.sys.mtlb ++ [{ tlbAt 0x1FE00000000 0x310000 ⟨true, true, true, false⟩ with asid := 2 }] } }

/-- A record of `ctx2` in memory at 0x200000. -/
def stored (s : State) : State := { s with sys := s.sys.setBytes 0x200000 (ctx2.record []) }
/-- `recorded` without the context, with its record at 0x200000. -/
def absent : State := stored { recorded with sys := { recorded.sys with ctxs := [(1, { asid := 1 })] } }

theorem record_sound : headOk ((ctx2.record []).take 256) 256 = true ∧ digestOk (ctx2.record []) = true ∧
    (ctx2.record []).length = 256 := by decide

/-- The record is what the device finds in memory. -/
theorem record_found (s : State) (h : s.sys.bytes 0x200000 256 = ctx2.record []) : s.hostRecord 0x200000 = some (ctx2.record []) := by
  obtain ⟨h1, h2, h3⟩ := record_sound
  have hs : recordSizeField (ctx2.record []) = 256 := by decide
  have ht : headOk (ctx2.record []) (Config.memTop - 0x200000) = true := by decide
  simp [State.hostRecord, h, ht, hs, h2, show ¬Config.memTop < 0x200000 + 256 by decide]

theorem absent_record : absent.hostRecord 0x200000 = some (ctx2.record []) :=
  record_found _ (by
    have := Sys.bytes_setBytes { recorded.sys with ctxs := [(1, { asid := 1 })] } 0x200000 (ctx2.record [])
    rwa [record_sound.2.2] at this)

/-- A save of a context in use, of none, of one whose record fits exactly and of one whose does not; a load of a bad record
and one that may be installed; an installation; a load that the host asked for, of a bad record, of a context that is here,
one whose entries wait for room. -/
theorem witness_ContextRecords :
    (let s := ((withLog [{ logged with asid := 2, gangId := 2112 }] recorded).withCap 6 (linearCap 15 0x200000 1280)).withS [(4, 2)]
     let c := s.capOf (.s 6)
     let v := (s.release s.who 5).invalidate s.who fun a _ => a = 2
     let short := (s.withCap 6 (linearCap 15 0x200000 1279)).capOf (.s 6)
     s.flows = true ∧ s.gang.priv = true ∧ s.gang.ej = none ∧ s.gang.hold = none ∧ s.allGangs = [s.gang] ∧ s.host.deferred = [] ∧
     s.host.ctxdbRest = none ∧ s.logBlocked (BitVec.allOnes 32) = false ∧
     ([c, short].all fun c => c.1.reservedCause.isNone && (s.engineCheck c.1 c.2 ⟨[.linear], pWrite, 2⟩).isNone) = true ∧
     s.ctxInUse 1 = true ∧ (s.ctxInUse 3 = false ∧ s.sys.ctx 3 = none) ∧ (s.ctxInUse 2 = false ∧ s.sys.ctx 2 = some ctx2) ∧
     256 + 1024 * (v.sys.entriesOf 2).length = 1280 ∧ c.1.len = 1280 ∧ short.1.len < 1280 ∧
     gets (v.systemWrite c.1 (ctx2.record (v.sys.entriesOf 2))) (fun _ => true) = true ∧
     s.engineCheck c.1 c.2 ⟨[.linear], pRead, 1⟩ = none ∧ gets (s.readRecord c.1) (fun r => r.1 = none) = true) ∧
    (let s := absent.withCap 6 (linearCap 15 0x200000 256)
     let c := s.capOf (.s 6)
     gets (s.readRecord c.1) (fun r => r.1.any fun b => (r.2.sys.ctx (Context.ofRecord b).asid).isNone && r.2.sys.ctxs.length < 64 &&
       gets (r.2.install r.2.core b) fun v => (v.returnEntries (recordLog 2 b)).1.isEmpty) = true) ∧
    (let r := ctx2.record []
     gets (absent.install 0 r) (fun u => (u.sys.ctx 2).isSome) = true ∧ absent.sys.ctx (Context.ofRecord r).asid = none ∧
     ((stored recorded).sys.ctx (Context.ofRecord r).asid).isSome = true ∧ absent.sys.ctxs.length < 64 ∧
     absent.host.ctxdbRest = none ∧
     (let full := withLog (List.replicate 256 logged) absent
      let waiting : State := { full with host := { full.host with ctxdb := [0x200000], ctxdbRest := some [logged] } }
      waiting.host.ctxdbRest = some [logged] ∧ (waiting.returnEntries [logged]).1 = [logged] ∧
      (absent.returnEntries [logged]).1 = [])) ∧
    (ctx2.ptroot &&& SysReg.mask .ptroot = ctx2.ptroot ∧ ctx2.privhw &&& SysReg.mask .privhw = ctx2.privhw ∧
     ctx2.caproots &&& SysReg.mask .caproots = ctx2.caproots ∧ ctx2.parkctl &&& SysReg.mask .parkctl = ctx2.parkctl ∧
     ctx2.parkquota &&& SysReg.mask .parkquota = ctx2.parkquota ∧ ctx2.trapvec &&& SysReg.mask .trapvec = ctx2.trapvec) ∧
    (logged.toBytes.length = 1024 ∧
     ({ solo 1 with host := { (solo 1).host with owner := 1, ctxdb := [0x200000] } } : State).hostRecord 0x200000 = none ∧
     (1 : BitVec 2) = ownerOf .portA ∧ (0x200001 : Dword).toNat % 4 = 1 ∧ (0x200002 : Dword).toNat % 4 ≠ 1) := by decide

/-- A good record the host asked for, with room for its context and its table at hand. -/
theorem witness_HostLoads :
    let s : State := { absent with host := { absent.host with ctxdb := [0x200000] } }
    s.host.ctxdbRest = none ∧ s.hostRecord 0x200000 = some (ctx2.record []) ∧ s.sys.ctx (Context.ofRecord (ctx2.record [])).asid = none ∧
    s.sys.ctxs.length < 64 ∧ (∀ k, (s.sys.core k).log.length + recordEntries (ctx2.record []) ≤ Config.sideLogEntries) ∧
    s.FindsAll { core := 0, engine := true, crew := 0, asid := (Context.ofRecord (ctx2.record [])).asid, priv := true } .load
      (tableVa (Context.ofRecord (ctx2.record [])).parkctl) 512 := by
  have hr : recordEntries (ctx2.record []) = 0 := by decide
  have hc : absent.sys.cores = [] := by decide
  refine ⟨rfl, absent_record, by decide, by decide, fun k => ?_, State.FindsAll.of_unit (frame := 0x310000) (by decide) (by decide) (by decide)⟩
  simp [hr, Sys.core, hc, Sparse.get, Config.sideLogEntries]

/-- A gang with results in flight and an expired wait; a swap. -/
theorem witness_GangEvents :
    (let s := solo 1
     numbered s = true ∧ (s.findGang 1056).id = 1056 ∧ s.gang.id = 1056 ∧ (∀ f ∈ s.gang.shadows, f.due ≤ s.clock)) ∧
    (let s := ({ solo 1 with gang := { (solo 1).gang with hold := some ⟨.barrier 0, 0x100000, 1⟩, nextIssue := 0 } }).withGang
       (other 4)
     numbered s = true ∧ (s.longestWaiting 0 0).map (fun g => g.id) = some 1056 ∧
     (s.firstReady 0 0).map (fun g => g.id) = some (other 4).id) := by decide

/-- An attempt fails with a reason that passes a test. -/
def failsWith {ε α : Type} (e : Except ε α) (p : ε → Bool) : Bool :=
  match e with
  | .ok _ => false
  | .error x => p x

/-- The line at 0x200000 has an uncorrectable error. -/
def broken (s : State) : State := { s with sys := { s.sys with bad := [moduleLine 0x200000] } }

/-- A line at hand, one of the own window, one to be fetched; a walk that fills, one that faults, one refused; a log entry
whose page translates, one whose page does not, one whose line has an error. -/
theorem witness_LinesAndLogs :
    (let s := { coded 1 with gang := { (coded 1).gang with nextIssue := 0 } }
     ((s.focus 1056).nextIssue.any (fun r => ((s.focus 1056).heldLine r.1).isSome) = true)) ∧
    (let at' (pc : Pc) : State :=
       let s := paged 1
       ({ s with gang := s.gang.mapStrands 0xFFFFFFFF fun x => { x with pc := pc } } : State).focus 1056
     let fetched := at' 0x80000000
     let u : State := { fetched.unhold.settle with run := 0xFFFFFFFF, ipc := 0x80000000 }
     ((at' (BitVec.ofNat 64 Config.ownBase)).nextIssue.any fun r => Config.ownBase ≤ pcLine r.1 &&
       ((at' (BitVec.ofNat 64 Config.ownBase)).heldLine r.1).isNone) = true ∧
     fetched.nextIssue.any (fun r => r.1 = 0x80000000 && r.2.1 = 0xFFFFFFFF && pcLine r.1 < Config.ownBase && (fetched.heldLine r.1).isNone) = true ∧
     gets (u.leaf { u.who with engine := true } .fetch (pcLine 0x80000000)) (fun l =>
       let line : CodeLine := BitVec.ofNat 512 (fromBytes (l.2.homeRead l.1 (pcLine 0x80000000) 64))
       line = 0 && (l.2.unlabelled line).isNone) = true ∧ parityOk 0 = true ∧ parityOk 1 = false) ∧
    (let s := paged 1
     let t : State := { s with sys := s.sys.setBytes 0x400000 (toBytes 8 0x41) }
     (s.sys.ctx 1).isSome = true ∧ s.sys.mtlbFind 1 0x80000000 = none ∧ s.sys.mtlbFind 1 0x100000000 = none ∧
     gets (s.sys.walkFill 1 0x80000000 .load true) (fun _ => true) = true ∧
     failsWith (s.sys.walkFill 1 0x100000000 .load true) (fun f => !f.refused) = true ∧
     failsWith (t.sys.walkFill 1 0x100000000 .load true) (fun f => f.refused) = true) ∧
    (let s := withLog [logged] (solo 1)
     let t := withLog [{ logged with page := 0x40, lanes := [{ strand := 0, va := 0x400010, data := [1], tag := none }] }] (solo 1)
     s.replayable 0 = some logged ∧ s.gang.hold = none ∧ s.allGangs = [s.gang] ∧ (solo 1).replayable 0 = none ∧ s.sys.bad = [] ∧
     s.host.deferred = [] ∧
     gets (s.replayLeaves logged logged.lanes) (fun r => (r.2.replayBad logged r.1).isNone && r.1.all fun p =>
       p.2.all fun q => q.1 = 0x200010 && q.2.1 = 4 && isMemory (q.2.2.addr q.1)) = true ∧
     (t.replayable 0).any (fun e => failsWith (t.replayLeaves e e.lanes) fun x => match x with
       | .fault _ _ f => !f.ofStore.refused
       | .trap _ => false) = true ∧
     logged.op = none ∧ logged.rset = 0 ∧ logged.lanes.length = 1 ∧ 0x200010 % 128 + 4 ≤ 128 ∧
     (broken s).replayable 0 = some logged ∧
     gets ((broken s).replayLeaves logged logged.lanes) (fun r => (r.2.replayBad logged r.1).isSome) = true) := by decide

/-- A load whose L1 lacks the line, and one whose L1 holds bytes but not these; a write-back to a sound line and to one
with an error. -/
theorem witness_MemoryErrors :
    (let x := memory .s4 (.v 1) (.s 4) .none .none
     let s := broken ((solo 1).withS [(4, 0x20007C)])
     let partly : State := { s with sys := s.sys.updCore 0 fun c => { c with l1 := [{ lineOf with valid := 1 }] } }
     s.flows = true ∧ 0x20007C % 128 + 4 ≤ 128 ∧ ([s, partly].all fun s => (s.loggedPage [(0, .memory [(0x20007C, 4)])]).isNone &&
       gets (s.targets s.who (memAddr x 4 pRead .any (orderAlign x.order 4)) (s.lanes x.d.isScalar x.hdr)) fun r =>
         r.1 = [(0, .memory [(0x20007C, 4)])] && !(r.2.sys.entry s.who.asid (0x20007C / 128)).held &&
         gets (r.2.page s.who .load 0x20007C) fun l => r.2.sys.bad.contains (moduleLine (l.1.addr 0x20007C))) = true ∧
     s.sys.l1Find 0 1 0x4000 = none ∧
     (partly.sys.l1Find 0 1 0x4000).any (fun c => byteMask (0x20007C % 128) 4 &&& ~~~c.valid ≠ 0) = true) ∧
    (let s := solo 1
     lineOf.dirty ≠ 0 ∧ lineOf.line < 2 ^ 57 ∧ moduleLine lineOf.pa ∉ s.sys.bad ∧ moduleLine lineOf.pa ∈ (broken s).sys.bad ∧
     ((broken s).sys.entry lineOf.asid lineOf.line).held = false) := by decide

/-! Launches, the host, links, resets, issue. -/

/-- A launch record: `crews` crews of one gang of 32 strands on cluster 0, context 1. -/
def launchRec (crews cls scratch : Nat) : Nat :=
  0x100000 + 0x200000 * 2 ^ 64 + 2 ^ 128 + 2 ^ 320 + 2 ^ 368 + 2 ^ 384 + scratch * 2 ^ 416 + 32 * 2 ^ 448 + 2 ^ 496 +
    crews * 2 ^ 504 + 8 * 2 ^ 512 + 2 ^ 528 + cls * 2 ^ 536
def launched (lid crews cls scratch : Nat) : Launch :=
  { lid := lid, tag := 5, seq := 0, r := LaunchRec.ofNat (launchRec crews cls scratch), effCls := cls, placed := 0, live := 0,
    exitsDue := 0 }
/-- The crew of `solo` waits in QPOP.B. -/
def waiting : State := (solo 0xFFFFFFFF).withHold (.qpop (queueFun 1) 0 5)

/-- Classes at their limit; a cohort that is next, one that is not; one that needs the only victim's place; a saved crew that
fits and one that does not. -/
theorem witness_PlacementAndBoosts :
    (let s := { waiting with launches := [launched 0 1 3 128] }
     (∀ e ∈ s.everyCrew, e.1.cls ≤ 3) ∧ (∀ l ∈ s.launches, l.r.cls ≤ 3)) ∧
    (let s := { solo 1 with launches := [launched 254 1 0 128], nextCrew := 2 }
     s.nextPlacement.any (fun r => r.1.lid = 254 && r.1.r.gangs ≤ 32) = true ∧ s.crew.id < s.nextCrew ∧
     s.gang.id < s.nextCrew * 1056 ∧ (solo 1).nextPlacement.isNone = true) ∧
    (let s := { waiting with launches := [launched 0 4 3 262144] }
     let l := launched 0 4 3 262144
     (s.waitingLaunches.find? fun l => l.lid = 0) = some l ∧ (s.placeCohort l).isNone = true ∧ s.victims l = [s.crew] ∧
     (s.makeRoom l [s.crew]).isSome = true ∧ numbered s = true) ∧
    (let p : SavedCrew := ⟨{ placedCrew 7 with scratchSize := 262144 }, [newGang 7 0 32 0x100000 true]⟩
     let s := { solo 1 with saved := [p] }
     let full : State := { s with crews := [1, 2, 3].map fun k => (k + 10, { placedCrew (k + 10) with core := k, scratchSize := 1 }) }
     (s.saved.find? fun p => p.crew.id = 7 && p.crew.ended = .running) = some p ∧
     (s.coreFor 0 0 p.crew.need).isSome = true ∧ (full.coreFor 0 0 p.crew.need).isNone = true ∧ s.crew.id ≠ 7 ∧
     (∀ g ∈ p.gangs, g.id ≠ s.gang.id ∧ g.id ≠ 0) ∧ (p.gangs.map fun g => g.id).Nodup) := by decide

/-- A cohort of one crew and a free core; one whose only victim is the blocked crew of its cluster, every core of it too full;
a saved crew whose cluster is free. -/
theorem witness_PlacesTaken :
    (let l := launched 0 1 3 128
     let s := { solo 1 with launches := [l], crew := { placedCrew 1 with core := 4 } }
     l.placed < l.r.cohorts ∧ l.effCls ≤ 3 ∧ l.r.crews = 1 ∧ (s.sys.ctx l.r.asid).isSome = true ∧ l.r.clmask.getLsbD 0 = true ∧
     l.r.gangs ≤ 32 ∧ l.r.vregs ≤ 128 ∧ l.r.scratch ≤ 262144 ∧ l.r.nbar ≤ 96 ∧ l.r.qshare ≤ 8 ∧ ∀ c ∈ s.allCrews, c.core ≠ 0) ∧
    (let l : Launch := { launched 0 1 3 128 with r := { LaunchRec.ofNat (launchRec 1 3 128) with vregs := 128 } }
     let full (k core : Nat) : Nat × Crew :=
       (k, { placedCrew k with core := core, gangs := 32, vregs := 128, effCls := 3, cls := 3 })
     let s : State := { waiting with
       launches := [l], crew := { waiting.crew with gangs := 32, vregs := 128 }, crews := [full 11 1, full 12 2, full 13 3] }
     let c := s.crew
     (∀ j, j < 48 → l.r.clmask.getLsbD j = true → j = 0) ∧ c ∈ s.allCrews ∧ c.core / 4 = 0 ∧ c.effCls < l.effCls ∧
     (s.preemptible c).isSome = true ∧ (∀ d ∈ s.allCrews, d.core / 4 = 0 → d ≠ c → d.core ≠ c.core ∧ l.effCls ≤ d.effCls) ∧
     (∀ j, j < 4 → ∃ d ∈ s.allCrews, d.core = j ∧ 4096 < d.gangs * d.vregs + l.r.gangs * l.r.vregs) ∧ numbered s = true) ∧
    (let p : SavedCrew := ⟨{ placedCrew 7 with core := 191 }, [newGang 7 0 32 0x100000 true]⟩
     let s := { solo 1 with saved := [p] }
     (s.saved.find? fun p => p.crew.id = 7 && p.crew.ended = .running) = some p ∧ s.crew.id ≠ 7 ∧
     (∀ g ∈ p.gangs, g.id ≠ s.gang.id ∧ g.id ≠ 0) ∧ (∀ c ∈ s.allCrews, c.core / 4 ≠ p.crew.core / 4) ∧
     p.crew.gangs ≤ 32 ∧ p.crew.vregs ≤ 128 ∧ p.crew.scratchSize ≤ 262144 ∧ p.crew.nbar ≤ 96 ∧ p.crew.qshare ≤ 8) := by decide

/-- A sound record, one with byte 127 set; the lowest free id; a crew that may retire beside another of its launch; one
that may not; launches that end and that go on. -/
theorem witness_LaunchesAndRetirement :
    (let bell : Dword := 0x5000000000200000
     let s : State := { solo 1 with sys := (solo 1).sys.setNum 0x200000 128 (launchRec 1 0 128), launches := [launched 0 1 0 128] }
     let n := s.sys.num (bell.toNat / 128 % 2 ^ 35 * 128) 128
     s.host.bootHalted = false ∧ launchOffends n = [] ∧ launchOffends (n + 2 ^ 1023) = [127] ∧
     (∀ l ∈ s.launches, l.lid ≠ 1) ∧ (∀ k, k < 1 → ∃ l ∈ s.launches, l.lid = k)) ∧
    (let s := solo 1
     let t : State := { s with
       gang := { s.gang with left := true, active := false, strands := s.gang.strands.map fun e => (e.1, { e.2 with st := .done }) },
       crew := { s.crew with exitRec := 0x200000, ended := .exited },
       launches := [{ launched 0 1 0 128 with placed := 1, live := 2, exitsDue := 2 }] }
     numbered s = true ∧ numbered t = true ∧ s.allCrews = [s.crew] ∧ s.mayRetire s.crew = false ∧ t.allCrews = [t.crew] ∧
     t.mayRetire t.crew = true ∧ t.crew.lid = 0 ∧ (t.launches.map fun l => l.lid).Nodup ∧
     gets (((t.release { core := 0, crew := 1, asid := 1, priv := true } 6).vacate t.crew).recordWrite
       { core := 0, engine := true, crew := 0, asid := 1, priv := true } 0x200000 (exitBytes t.crew (t.gangsOf 1)))
       (fun _ => true) = true) ∧
    (let l := launched 0 1 0 128
     let ended := { l with placed := l.r.cohorts }
     (ended.placed = ended.r.cohorts ∧ ended.live = 0 ∧ ended.exitsDue = 0) ∧ l.placed ≠ l.r.cohorts) ∧
    (0 < 2 ^ 24 ∧ (15 : Nat) < 16 ∧ (31 : Nat) < 32) := by decide

/-- The last bytes of memory and the first beyond it; frames that port 3 reaches and that its table denies it. -/
theorem witness_HostMemory :
    (let s : State := { solo 1 with sys := { (solo 1).sys with portDenied := [3 * 2 ^ 32 + 0x20] } }
     3 * 2 ^ 32 + 0x1FFFFF / 65536 ∉ s.sys.portDenied ∧ 3 * 2 ^ 32 + 0x200000 / 65536 ∈ s.sys.portDenied) ∧
    ((Config.memTop - 4) + [1, 2, 3, (4 : Byte)].length ≤ Config.memTop) ∧
    Config.memTop < (Config.memTop - 3) + [1, 2, 3, (4 : Byte)].length := by decide

/-- A free and a held HSEM; a read of the last queue's words; a ring that is disabled and one with room. -/
theorem witness_RegistersAndRings :
    (let s : State := { solo 1 with turns := [.barRead 0x12FF8 8] }
     s.gang.pair = false ∧ s.fuse = 0 ∧ 0x12FF8 = 0x10000 + 16 * 767 + 8) ∧
    (let s : State := { solo 1 with host := { (solo 1).host with owner := 1 } }
     (solo 1).host.linkUp .portA = true ∧ (solo 1).host.owner = 0 ∧ s.host.owner = ownerOf .portA ∧ s.host.owner ≠ ownerOf .portB) ∧
    ((0x200005 : Dword).toNat % 32 < 6 ∧ 16 < (0x200011 : Dword).toNat % 32 ∧
     6 ≤ (0x200006 : Dword).toNat % 32 ∧ (0x200010 : Dword).toNat % 32 ≤ 16) := by decide

/-- Port 15 up, retraining and past its time; port 16 does not exist. -/
theorem witness_PortRetraining :
    let s : State := { solo 1 with clock := 1350000, sys := { (solo 1).sys with links := [(15, .retraining 0)] } }
    s.sys.link 15 = .retraining 0 ∧ 0 + 1350000 ≤ s.clock ∧ (solo 1).clock < 0 + 1350000 ∧ (solo 1).sys.link 15 = .up ∧
    15 < 16 ∧ 16 ≤ 16 := by decide

/-- Pair 4095 without and with a work entry, whose completion goes to a PEER queue, also after a refused fault; pages that
translate, that do not, and one that no driver can mend. -/
theorem witness_Network :
    let q : QueuePair := { asid := 1, ring := 0x200000, log := 2, tail := 5, next := 4, cq := 0 }
    let s : State := { (solo 1).withQ { ring 16 0 0 with ring := 0x201000 } with nic := [(4095, q)] }
    let s : State := { s with sys := s.sys.setBytes 0x200008 (toBytes 8 0x202000 ++ List.replicate 12 0 ++ toBytes 4 64) }
    let who : Who := { core := 0, engine := true, crew := 0, asid := q.asid, priv := false }
    let u : State := { s with sys := { s.sys with mtlb := [tlbAt 32 0x200000 ⟨true, true, true, false⟩] } }
    (4095 < 4096 ∧ 4096 ≤ 4096) ∧ s.nic.get {} 4095 = q ∧ q.next ≠ q.tail ∧ ((solo 1).nic.get {} 0).next = ((solo 1).nic.get {} 0).tail ∧
    gets (u.leaf who .nic 0x200000) (fun r =>
      let entry := fromBytes (r.2.homeRead r.1 0x200000 64)
      (match r.2.nicPages q (entry / 2 ^ 64 % 2 ^ 64) (entry / 2 ^ 224 % 2 ^ 32) with
        | .ok v => (v.outsidePush 0 0 7).isSome
        | .error _ => false)) = true ∧
    failsWith (s.leaf who .nic 0x400000) (fun f => !f.refused) = true ∧
    (let t : State := { s with
       sys := (({ s.sys with ctxs := [(1, { asid := 1, ptroot := 0x400000 })] } : Sys).setBytes 0x400000 (toBytes 8 0x41)) }
     failsWith (t.leaf who .nic 0x600000) (fun f => f.refused) = true) ∧
    (s.sys.faults.all fun r => !r.waiters.contains (.nic 4095 none)) = true ∧
    ({ q with refused := true }.refused = true ∧ (s.outsidePush 0 0 7).isSome = true) ∧
    gets (u.unitCheck who 0x202000 64) (fun _ => true) = true ∧ gets (u.unitCheck who 0x400000 64) (fun _ => true) = false ∧
    (match u.nicPages q 0x202000 64 with
      | .ok v => gets (v.unitRead who 0x202000 64) fun _ => true
      | .error _ => false) = true := by decide

/-- The same pair where the NIC finds everything; a range of an inbound request that it finds. -/
theorem witness_NetworkCompletes :
    let q : QueuePair := { asid := 1, ring := 0x200000, log := 2, tail := 5, next := 4, cq := 0 }
    let s : State := { (solo 1).withQ { ring 16 0 0 with ring := 0x201000 } with nic := [(4095, q)] }
    let s : State := { s with sys := s.sys.setBytes 0x200008 (toBytes 8 0x202000 ++ List.replicate 12 0 ++ toBytes 4 64) }
    let who : Who := { core := 0, engine := true, crew := 0, asid := q.asid, priv := false }
    let entry := fromBytes (s.sys.bytes 0x200000 64)
    let k := s.queue q.cq
    s.nic.get {} 4095 = q ∧ q.next ≠ q.tail ∧ q.refused = false ∧ s.Finds who .nic 0x200000 0x200000 ∧
    (entry / 2 ^ 64 % 2 ^ 64 = 0x202000 ∧ entry / 2 ^ 224 % 2 ^ 32 = 64) ∧ s.FindsAll who .nic 0x202000 64 ∧
    (q.cq < 768 ∧ k.bound = true ∧ k.peer = true ∧ k.space ≠ 0) ∧
    (s.allGangs = [s.gang] ∧ s.gang.blockedPop = none ∧ s.gang.blockedPush = none) ∧
    s.FindsAll (queueWho (q.cq / 16) k) .store (k.slot k.tail) 64 ∧ s.FindsAll who .store 0x202000 64 := by
  refine ⟨by decide, by decide, rfl, .of_unit (va := 0x200000) (frame := 0x200000) (by decide) (by decide) (by decide), by decide, ?_, by decide, by decide, ?_, ?_⟩ <;>
    exact .of_unit (frame := 0x200000) (by decide) (by decide) (by decide)

/-- An owner, one running crew with its exit record's page at hand, and no crew. -/
theorem witness_ResetsAndBoot :
    (let s : State := { solo 1 with host := { (solo 1).host with owner := 1 }, crew := { (solo 1).crew with exitRec := 0x200000 } }
     s.host.linkUp .portA = true ∧ s.host.owner = ownerOf .portA ∧ numbered s = true ∧
     (∀ g ∈ s.allGangs, ∃ c ∈ s.allCrews, c.id = g.crewId) ∧ s.allCrews = [s.crew] ∧ s.saved = [] ∧
     s.crew.ended = .running ∧ ringSize s.host.eventq = none ∧
     (let c := s.crew
      let k := (s.killCrew c.id (s.trappedCause c.id)).dropOps
      let d := k.findCrew c.id
      let v := (k.release { core := c.core, crew := c.id, asid := c.asid, priv := c.priv } 6).vacate d
      gets (v.recordWrite { core := c.core, engine := true, crew := 0, asid := c.asid, priv := true }
        (c.exitRec + BitVec.ofNat 64 (512 * c.number)).toNat (exitBytes d (k.gangsOf c.id))) (fun _ => true) = true)) ∧
    (State.reset.allCrews = [] ∧ State.reset.saved = []) := by decide

/-- What stands where the next step issues. -/
def atFirst (w : InstrWord) (p : State → InstrWord → Pc → Mask → Bool) : Bool :=
  let s := State.reset.withFetchWord 96 w.toNat
  let s0 : State := { s with turns := [] }
  let t := s0.focus 1056
  match t.nextIssue with
  | some (pc, run, _) =>
      let u := t.atRun pc run
      ((s0.chooseIn (s0.readyGangs.filter fun y => s0.place y = s0.place (s0.findGang 1056))).any fun x =>
        x.id = 1056 && (s0.partner x).isNone) &&
      s.turns = [.issue 1056] && !s.gang.pair && s.fuse = 0 && u.gang.discarded.isEmpty && pcOk pc && (u.unlabelled 0).isSome = false &&
        match u.heldLine pc with
        | some line => lineBits line = [] && (u.unlabelled line).isNone && p u (slotWord line (pcSlot pc)) pc run
        | none => false
  | none => false

/-- Two gangs of a crew at the same word with other strands: the slot chooses the first, and they fuse. -/
theorem witness_Fused :
    let s := State.reset.withFetchWord 96 0x010718010203FF0000000000
    let at1 (k : Nat) : Sparse Strand := [(k, { pc := BitVec.ofNat 64 placedLine, age := 0, st := .ready })]
    let other : Gang := { newGang 1 1 64 0 true with active := true, strands := at1 3 }
    let s0 : State := { s with
      turns := [], gangs := [(1056, { s.findGang 1056 with strands := at1 1 }), (1089, other)] }
    (s0.chooseIn (s0.readyGangs.filter fun y => s0.place y = s0.place (s0.findGang 1056))).any (fun x =>
      x.id = 1056 && (s0.partner x).any fun h => h.id = 1089) = true := by decide

/-- NOP; CAPCHK of a tile at row s63, which leaves no register for the column; a reserved opcode; a word with a bad field and one with a bad operand; a word that needs privilege in a gang that
has it; an operand still in flight. -/
theorem witness_StepRunsDecoded :
    atFirst 0x890700FFFFFFFF0000000000 (fun u w _ _ =>
      let f := Fields.ofWord w
      match Op.ofCode f.op, decode u.crew.vregs w with
      | some o, .ok _ => !o.privileged f && u.specField o f = [] && (u.earlyRead o f).isNone && (o.check u.crew.vregs f).isNone &&
          !(u.prepared w false false).gang.pair && !u.columnBad o f
      | _, _ => false) = true ∧
    atFirst 0x630743C286BFFF0000000000 (fun u w _ _ =>
      let t : State := { u with gang := { u.gang with s := [(6, (tileCap >>> 0).setWidth 64), (7, (tileCap >>> 64).setWidth 64)] } }
      (Op.ofCode (Fields.ofWord w).op).any fun o => (o.check u.crew.vregs (Fields.ofWord w)).isNone &&
        !o.privileged (Fields.ofWord w) && t.columnBad o (Fields.ofWord w)) = true ∧
    atFirst 0xFF0700FFFFFFFF0000000000 (fun _ w _ _ => (Op.ofCode (Fields.ofWord w).op).isNone) = true ∧
    atFirst 0x890F00FFFFFFFF0000000000 (fun u w _ _ =>
      (Op.ofCode (Fields.ofWord w).op).any fun o => match o.check u.crew.vregs (Fields.ofWord w) with
        | some (.illegalField _) => true
        | _ => false) = true ∧
    atFirst 0x0107180102FFFF0000000000 (fun u w _ _ =>
      (Op.ofCode (Fields.ofWord w).op).any fun o => match o.check u.crew.vregs (Fields.ofWord w) with
        | some (.illegalOperand _ _) => true
        | _ => false) = true ∧
    atFirst 0xD40700FFFFFFFF0000000000 (fun u w _ _ =>
      (Op.ofCode (Fields.ofWord w).op).any fun o => o.privileged (Fields.ofWord w) && u.gang.priv) = true ∧
    atFirst 0x010718010203FF0000000000 (fun u w _ _ =>
      let late : State := { u with gang := { u.gang with shadows := [⟨9, .v 2 1 []⟩] }, crew := { u.crew with crewctl := true } }
      (Op.ofCode (Fields.ofWord w).op).any fun o => (o.check u.crew.vregs (Fields.ofWord w)).isNone &&
        late.crew.crewctl && late.earlyRead o (Fields.ofWord w) = some 2) = true := by decide

/-- A run of three, the oldest at its limit; reads before and after the latency. -/
theorem witness_IssueAndResults :
    (let s := solo 7
     s.gang.handler = none ∧ s.gang.ej = none ∧ 32 ≤ s.crew.ageMax.toNat ∧ s.chosen.isSome = true ∧
     (31 : Nat) < 32 ∧ (∀ i, i < 32 → (s.gang.strand i).st = .ready)) ∧
    ((solo 7).flows = true ∧ (two .i32 0 false).width ≠ 64 ∧ ((3 : Nat) < 4 ∧ ¬((4 : Nat) < 4))) := by decide

/-- The MXPACK of the spec's example, well formed, and its word. -/
theorem witness_EncodeDecode :
    (Instr.mxpack ⟨h7, .mx8, .f32, 0, .v 40, .v 0, .none, 0, false, 0⟩).wellFormedIn 128 = true ∧
    decode 128 0x4207882800FF090000000000 = .ok (.mxpack ⟨h7, .mx8, .f32, 0, .v 40, .v 0, .none, 0, false, 0⟩) := by decide

/-- The first step after reset, and one that stores. -/
theorem witness_MemoryCanonical : Memory.wf State.reset.sys.mem = true ∧ (nextOf (Machine.step State.reset)).isSome = true ∧
    (nextOf (Machine.step (State.reset.withFetchWord 96 0x890700FFFFFFFF0000000000))).isSome = true := by decide

end Sys2Proof.Machine
end

section
/-! SUPPORT. The registers a host reads and writes, and the rings of driver records (R381-R384). -/

namespace Sys2Proof.Machine

/-! ### The bytes of a number -/

@[simp] theorem toBytes_length (n x : Nat) : (toBytes n x).length = n := by
  induction n generalizing x with
  | zero => rfl
  | succ n ih => rw [toBytes, List.length_cons, ih]

theorem fromBytes_toBytes (n x : Nat) : fromBytes (toBytes n x) = x % 2 ^ (8 * n) := by
  induction n generalizing x with
  | zero => simp [toBytes, fromBytes, Nat.mod_one]
  | succ n ih =>
      rw [toBytes, fromBytes, ih, BitVec.toNat_ofNat, show 8 * (n + 1) = 8 + 8 * n by omega, Nat.pow_add]
      exact (Nat.mod_mul ..).symm

theorem toBytes_eq_map_range (n x : Nat) :
    toBytes n x = (List.range n).map fun k => BitVec.ofNat 8 (x / 2 ^ (8 * k)) := by
  induction n generalizing x with
  | zero => rfl
  | succ n ih =>
      rw [toBytes, ih, List.range_succ_eq_map, List.map_cons, List.map_map]
      congr 1
      · simp
      · refine List.map_congr_left fun k _ => ?_
        rw [Function.comp_apply, Nat.div_div_eq_div_mul, show 8 * k.succ = 8 + 8 * k by omega, Nat.pow_add]

theorem Sys.byte_setNum_outside (y : Sys) (pa n x a : Nat) (h : a < pa ∨ pa + n ≤ a) :
    (y.setNum pa n x).byte a = y.byte a := by
  rw [Sys.setNum, Sys.byte_setBytes, toBytes_length, if_neg (by omega)]

theorem Sys.num_setNum (y : Sys) (pa n : Nat) (r : BitVec (8 * n)) : (y.setNum pa n r.toNat).num pa n = r.toNat := by
  have h := y.bytes_setBytes pa (toBytes n r.toNat)
  rw [toBytes_length] at h
  rw [Sys.num, Sys.setNum, h, fromBytes_toBytes, Nat.mod_eq_of_lt r.isLt]

theorem Sys.bytes_congr {y z : Sys} {pa n : Nat} (h : ∀ a, pa ≤ a → a < pa + n → z.byte a = y.byte a) :
    z.bytes pa n = y.bytes pa n := by
  induction n generalizing pa with
  | zero => rfl
  | succ n ih =>
      rw [Sys.bytes, Sys.bytes, h pa (by omega) (by omega), ih fun a h1 h2 => h a (by omega) (by omega)]

theorem Sys.num_congr {y z : Sys} {pa n : Nat} (h : ∀ a, pa ≤ a → a < pa + n → z.byte a = y.byte a) :
    z.num pa n = y.num pa n := congrArg fromBytes (Sys.bytes_congr h)

/-! ### A ring's size and slots -/

theorem ringSize_disabled {reg : Dword} (h : reg.toNat % 32 < 6 ∨ 16 < reg.toNat % 32) : ringSize reg = none := by
  have : ¬(6 ≤ reg.toNat % 32 ∧ reg.toNat % 32 ≤ 16) := by omega
  simpa [ringSize, bitsAt] using this

theorem ringSize_enabled {reg : Dword} (h : 6 ≤ reg.toNat % 32) (h' : reg.toNat % 32 ≤ 16) :
    ringSize reg = some (2 ^ (reg.toNat % 32)) := by
  simp [ringSize, bitsAt, h, h']

/-- Two entries of a ring share no byte. -/
theorem ringSlot_disjoint (reg : Dword) {n a b : Nat} (h : a % n ≠ b % n) :
    ringSlot reg n a + 64 ≤ ringSlot reg n b ∨ ringSlot reg n b + 64 ≤ ringSlot reg n a := by
  unfold ringSlot
  omega

/-- Fewer entries on than the ring holds lies another entry. -/
theorem mod_ne_add_mod {n t j : Nat} (h0 : 0 < j) (hj : j < n) : t % n ≠ (t + j) % n := by
  intro h
  have hz : 0 ≡ j [MOD n] := Nat.ModEq.add_left_cancel' t h
  rw [Nat.ModEq, Nat.zero_mod, Nat.mod_eq_of_lt hj] at hz
  omega

/-- The wrap of TAIL at 2^32 is no jump in a ring, whose size divides 2^32. -/
theorem ringSlot_succ (reg : Dword) {log : Nat} (hl : log ≤ 16) (tail : Word) (j : Nat) :
    ringSlot reg (2 ^ log) ((tail + 1).toNat + j) = ringSlot reg (2 ^ log) (tail.toNat + (j + 1)) := by
  have hd : 2 ^ log ∣ 2 ^ 32 := Nat.pow_dvd_pow 2 (by omega)
  have h : ((tail + 1).toNat + j) % 2 ^ log = (tail.toNat + (j + 1)) % 2 ^ log := by
    rw [BitVec.toNat_add, Nat.add_mod, Nat.mod_mod_of_dvd _ hd, ← Nat.add_mod]
    rw [show (1 : Word).toNat = 1 from rfl, Nat.add_assoc, Nat.add_comm 1 j]
  unfold ringSlot
  rw [h]

/-! ### How many records a ring takes -/

/-- How many of the waiting records go to a ring of 2^log entries. -/
def ringTakes (log : Nat) (head tail : Word) (waiting : Nat) : Nat := min waiting (2 ^ log - (tail - head).toNat)

theorem ringTakes_full {log : Nat} {head tail : Word} (h : ¬(tail - head).toNat < 2 ^ log) (n : Nat) :
    ringTakes log head tail n = 0 := by
  rw [ringTakes, Nat.sub_eq_zero_of_le (Nat.le_of_not_lt h), Nat.min_zero]

theorem ringTakes_succ {log : Nat} (hl : log ≤ 16) {head tail : Word} (h : (tail - head).toNat < 2 ^ log) (n : Nat) :
    ringTakes log head tail (n + 1) = ringTakes log head (tail + 1) n + 1 := by
  have hp : 2 ^ log ≤ 2 ^ 16 := Nat.pow_le_pow_right (by omega) hl
  have hs : (tail + 1 - head).toNat = (tail - head).toNat + 1 := by
    generalize 2 ^ log = m at *
    bv_omega
  unfold ringTakes
  rw [hs]
  omega

theorem ringTakes_le (log : Nat) (head tail : Word) (n : Nat) : ringTakes log head tail n ≤ 2 ^ log :=
  (Nat.min_le_right ..).trans (Nat.sub_le ..)

/-! ### The records a ring takes -/

theorem drainInto_tail_waiting (reg : Dword) {log : Nat} (hl : log ≤ 16) (head : Word) (y : Sys) (tail : Word)
    (wait : List Record) :
    (drainInto reg (2 ^ log) head y tail wait).2 =
      (tail + BitVec.ofNat 32 (ringTakes log head tail wait.length),
       wait.drop (ringTakes log head tail wait.length)) := by
  induction wait generalizing y tail with
  | nil => simp [drainInto, ringTakes]
  | cons r rest ih =>
      rw [drainInto, List.length_cons]
      by_cases room : (tail - head).toNat < 2 ^ log
      · rw [if_pos room, ih, ringTakes_succ hl room, List.drop_succ_cons, BitVec.add_assoc, Nat.add_comm _ 1,
          BitVec.ofNat_add]
        rfl
      · rw [if_neg room, ringTakes_full room]
        simp

/-- Draining writes the slots of the records it takes and no other byte. -/
theorem drainInto_byte (reg : Dword) {log : Nat} (hl : log ≤ 16) (head : Word) (y : Sys) (tail : Word)
    (wait : List Record) (a : Nat)
    (ha : ∀ j, j < ringTakes log head tail wait.length →
      a < ringSlot reg (2 ^ log) (tail.toNat + j) ∨ ringSlot reg (2 ^ log) (tail.toNat + j) + 64 ≤ a) :
    (drainInto reg (2 ^ log) head y tail wait).1.byte a = y.byte a := by
  induction wait generalizing y tail with
  | nil => rfl
  | cons r rest ih =>
      rw [drainInto]
      split
      · next room =>
          rw [List.length_cons, ringTakes_succ hl room] at ha
          rw [ih, Sys.byte_setNum_outside _ _ _ _ _ (by simpa using ha 0 (by omega))]
          intro j hj
          rw [ringSlot_succ reg hl]
          exact ha (j + 1) (by omega)
      · rfl

/-- The slot a record was just written to keeps it while the records behind it are drained. -/
theorem drainInto_keeps_slot (reg : Dword) {log : Nat} (hl : log ≤ 16) {head tail : Word}
    (room : (tail - head).toNat < 2 ^ log) (y : Sys) (rest : List Record) :
    (drainInto reg (2 ^ log) head y (tail + 1) rest).1.num (ringSlot reg (2 ^ log) tail.toNat) 64 =
      y.num (ringSlot reg (2 ^ log) tail.toNat) 64 := by
  refine Sys.num_congr fun a h1 h2 => drainInto_byte reg hl head y _ rest a fun i hi => ?_
  have takes := ringTakes_succ hl room rest.length
  have most := ringTakes_le log head tail (rest.length + 1)
  have apart := ringSlot_disjoint reg (mod_ne_add_mod (n := 2 ^ log) (t := tail.toNat) (j := i + 1) (by omega) (by omega))
  rw [ringSlot_succ reg hl]
  omega

/-- Each record taken stands in the slot of its index. -/
theorem drainInto_record (reg : Dword) {log : Nat} (hl : log ≤ 16) (head : Word) (y : Sys) (tail : Word)
    (wait : List Record) (j : Nat) (r : Record) (hj : j < ringTakes log head tail wait.length)
    (hr : wait[j]? = some r) :
    (drainInto reg (2 ^ log) head y tail wait).1.num (ringSlot reg (2 ^ log) (tail.toNat + j)) 64 = r.toNat := by
  induction wait generalizing y tail j with
  | nil => simp at hr
  | cons r0 rest ih =>
      by_cases room : (tail - head).toNat < 2 ^ log
      · rw [drainInto, if_pos room]
        rw [List.length_cons, ringTakes_succ hl room] at hj
        cases j with
        | zero =>
            obtain rfl : r0 = r := by simpa using hr
            rw [Nat.add_zero, drainInto_keeps_slot reg hl room]
            exact y.num_setNum _ 64 r0
        | succ j =>
            rw [← ringSlot_succ reg hl]
            exact ih _ _ _ (by omega) (by simpa using hr)
      · rw [ringTakes_full room] at hj
        omega

/-! ### The writes that let the device drain a ring -/

/-- What `Claims.DriverRings` asks of an event that drains a ring of driver records: `set` puts the new tail and the records
still waiting into the host side. -/
def State.Drained (s : State) (i : Instr) (reg : Dword) (head tail : Word) (wait : List Record)
    (set : Word → List Record → HostSide) : Prop :=
  let log := reg.toNat % 32
  let k := ringTakes log head tail wait.length
  let slot (j : Nat) := ringSlot reg (2 ^ log) (tail.toNat + j)
  (log < 6 ∨ 16 < log → exec i s = .next { s with host := set tail wait }) ∧
  (6 ≤ log → log ≤ 16 → ∃ y, exec i s = .next { s with host := set (tail + BitVec.ofNat 32 k) (wait.drop k), sys := y } ∧
    (∀ j r, j < k → wait[j]? = some r → y.num (slot j) 64 = r.toNat) ∧
    ∀ a, (∀ j, j < k → a < slot j ∨ slot j + 64 ≤ a) → y.byte a = s.sys.byte a)

/-- An event drains a ring when it leaves a disabled one alone and otherwise stores what `drainInto` gives. -/
theorem State.Drained.of_drainInto {s : State} {i : Instr} {reg : Dword} {head tail : Word} {wait : List Record}
    {set : Word → List Record → HostSide}
    (off : ringSize reg = none → exec i s = .next { s with host := set tail wait })
    (on : ∀ n, ringSize reg = some n → exec i s = .next { s with
      host := set (drainInto reg n head s.sys tail wait).2.1 (drainInto reg n head s.sys tail wait).2.2,
      sys := (drainInto reg n head s.sys tail wait).1 }) : s.Drained i reg head tail wait set := by
  refine ⟨fun h => off (ringSize_disabled h), fun h6 h16 => ?_⟩
  refine ⟨(drainInto reg _ head s.sys tail wait).1, ?_,
    fun j r => drainInto_record reg h16 head s.sys tail wait j r,
    fun a => drainInto_byte reg h16 head s.sys tail wait a⟩
  rw [on _ (ringSize_enabled h6 h16), drainInto_tail_waiting reg h16]

theorem State.drainRing_fault_disabled {s : State} (h : ringSize s.host.faultq = none) : s.drainRing .fault = s := by
  simp [State.drainRing, h]

theorem State.drainRing_event_disabled {s : State} (h : ringSize s.host.eventq = none) : s.drainRing .event = s := by
  simp [State.drainRing, h]

theorem State.drainRing_fault {s : State} {n : Nat} (h : ringSize s.host.faultq = some n) :
    s.drainRing .fault =
      let d := drainInto s.host.faultq n s.host.faultHead s.sys s.host.faultTail s.host.waitingFaults
      { s with sys := d.1, host := { s.host with faultTail := d.2.1, waitingFaults := d.2.2 } } := by
  simp [State.drainRing, h]

theorem State.drainRing_event {s : State} {n : Nat} (h : ringSize s.host.eventq = some n) :
    s.drainRing .event =
      let d := drainInto s.host.eventq n s.host.eventHead s.sys s.host.eventTail s.host.waitingEvents
      { s with sys := d.1, host := { s.host with eventTail := d.2.1, waitingEvents := d.2.2 } } := by
  simp [State.drainRing, h]

/-- Any event that puts the host side to `h` and then drains the fault ring. -/
theorem State.drained_faults {s : State} {i : Instr} {h : HostSide}
    (hi : exec i s = .next (({ s with host := h } : State).drainRing .fault)) :
    s.Drained i h.faultq h.faultHead h.faultTail h.waitingFaults
      (fun t w => { h with faultTail := t, waitingFaults := w }) := by
  refine .of_drainInto (fun off => ?_) fun n on => ?_
  · rw [hi, State.drainRing_fault_disabled off]
  · rw [hi, State.drainRing_fault on]

/-- Any event that puts the host side to `h` and then drains the event ring. -/
theorem State.drained_events {s : State} {i : Instr} {h : HostSide}
    (hi : exec i s = .next (({ s with host := h } : State).drainRing .event)) :
    s.Drained i h.eventq h.eventHead h.eventTail h.waitingEvents
      (fun t w => { h with eventTail := t, waitingEvents := w }) := by
  refine .of_drainInto (fun off => ?_) fun n on => ?_
  · rw [hi, State.drainRing_event_disabled off]
  · rw [hi, State.drainRing_event on]

/-! ### The fields of the registers -/

theorem getLsbD_ringMask : ∀ b, b < 64 → ringMask.getLsbD b = decide (b < 5 ∨ 12 ≤ b ∧ b < 42) := by decide

/-- What FAULTQ and EVENTQ keep of a value: the base of the ring and its LOG (R381). -/
def ringFields (v : Dword) : Dword := BitVec.ofNat 64 (v.toNat / 4096 % 2 ^ 30 * 4096 + v.toNat % 32)

theorem and_ringMask (v : Dword) : v &&& ringMask = ringFields v := by
  refine BitVec.eq_of_getLsbD_eq fun b hb => ?_
  have low : v.toNat % 2 ^ 5 < 2 ^ 12 := by omega
  rw [BitVec.getLsbD_and, getLsbD_ringMask b hb, ringFields, BitVec.getLsbD_ofNat,
    show v.toNat / 4096 % 2 ^ 30 * 4096 + v.toNat % 32 = 2 ^ 12 * (v.toNat / 2 ^ 12 % 2 ^ 30) + v.toNat % 2 ^ 5 by omega,
    Nat.testBit_two_pow_mul_add _ low]
  by_cases h : b < 12
  · have kept : (b < 5 ∨ 12 ≤ b ∧ b < 42) ↔ b < 5 := by omega
    rw [if_pos h, Nat.testBit_mod_two_pow, decide_eq_true hb, Bool.true_and, Bool.and_comm]
    simp only [kept, BitVec.getLsbD]
  · have kept : (b < 5 ∨ 12 ≤ b ∧ b < 42) ↔ b - 12 < 30 := by omega
    rw [if_neg h, Nat.testBit_mod_two_pow, Nat.testBit_div_two_pow, Nat.sub_add_cancel (Nat.le_of_not_lt h),
      decide_eq_true hb, Bool.true_and, Bool.and_comm]
    simp only [kept, BitVec.getLsbD]

theorem exec_faultqEventqWrite_fault (value : Dword) (s : State) :
    exec (.faultqEventqWrite .fault value) s =
      .next (({ s with host := { s.host with faultq := ringFields value } } : State).drainRing .fault) := by
  rw [← and_ringMask]
  rfl

theorem exec_faultqEventqWrite_event (value : Dword) (s : State) :
    exec (.faultqEventqWrite .event value) s =
      .next (({ s with host := { s.host with eventq := ringFields value } } : State).drainRing .event) := by
  rw [← and_ringMask]
  rfl

theorem getLsbD_peermapMask : ∀ b, b < 64 → peermapMask.getLsbD b = decide (b < 10 ∨ b = 15 ∨ (30 ≤ b ∧ b < 57)) := by
  decide

/-- PEERMAP k keeps the fields of what is written to it, and the other registers what they held (R381). -/
theorem peermap_put (m : Sparse Dword) (k : Nat) (value : Dword) :
    (∀ b, ((Sparse.put 0 m k (value &&& peermapMask)).get 0 k).getLsbD b =
      (value.getLsbD b && decide (b < 10 ∨ b = 15 ∨ (30 ≤ b ∧ b < 57)))) ∧
    ∀ j, j ≠ k → (Sparse.put 0 m k (value &&& peermapMask)).get 0 j = m.get 0 j := by
  refine ⟨fun b => ?_, fun j hj => Sparse.get_put_other _ _ _ _ _ hj⟩
  rw [Sparse.get_put_same, BitVec.getLsbD_and]
  by_cases hb : b < 64
  · rw [getLsbD_peermapMask b hb]
  · rw [BitVec.getLsbD_of_ge value b (by omega), Bool.false_and, Bool.false_and]

theorem getLsbD_gangctlMask :
    ∀ b, b < 64 → (0xDFFFFFFFFFFFFF : Dword).getLsbD b = decide (b < 53 ∨ b = 54 ∨ b = 55) := by decide

/-! ### HSEM and the writes it guards -/

theorem exec_hsemClaim (port : Port) (s : State) :
    exec (.hsemClaim port) s = .next (if s.host.linkUp port = true ∧ s.host.owner = 0 then
      { s with host := { s.host with owner := ownerOf port, gen := s.host.gen + 1 } } else s) := by
  show execHsemClaim port s = _
  simp [execHsemClaim]

theorem exec_hsemRelease (port : Port) (s : State) :
    exec (.hsemRelease port) s = .next (if s.host.linkUp port = true ∧ s.host.owner = ownerOf port then
      { s with host := { s.host with owner := 0 } } else s) := by
  show execHsemRelease port s = _
  simp [execHsemRelease, State.dropHsem, ite_and]

theorem State.guarded_eq (s : State) (port : Port) (f : State → State) :
    s.guarded port f = if s.host.linkUp port = true ∧ s.host.owner = ownerOf port then f s else s := by
  simp [State.guarded, HostSide.owns, ownerOf]

theorem exec_bar0RegisterWrite_peermap (port : Port) (k : Nat) (value : Dword) (s : State) :
    exec (.bar0RegisterWrite port (.peermap k) value) s =
      .next (if k < 15 ∧ s.host.linkUp port = true ∧ s.host.owner = ownerOf port then
        { s with host := { s.host with peermap := Sparse.put 0 s.host.peermap k (value &&& peermapMask) } } else s) := by
  show execBar0RegisterWrite port (.peermap k) value s = _
  simp [execBar0RegisterWrite, State.guarded_eq, ite_and]

theorem exec_bar0RegisterWrite_firmwareUpdate (port : Port) (value : Dword) (s : State) :
    exec (.bar0RegisterWrite port .firmwareUpdate value) s =
      .next (if s.host.linkUp port = true ∧ s.host.owner = ownerOf port then
        { s with host := { s.host with fwMailbox := value } } else s) := by
  show execBar0RegisterWrite port .firmwareUpdate value s = _
  simp [execBar0RegisterWrite, State.guarded_eq]

/-! ### A host's read of BAR0 -/

theorem step_barRead {s : State} {off n : Nat} {rest : List Turn} (hp : s.gang.pair = false) (hf : s.fuse = 0)
    (ht : s.turns = .barRead off n :: rest) : step s = .next (({ s with turns := rest } : State).barRead off n) := by
  simp [step, State.move, hp, hf, ht]

/-- The bytes a read of BAR0 returns. -/
def State.barBytes (s : State) (off n : Nat) : List Byte := (s.barRead off n).host.lastRead

@[simp] theorem State.barBytes_length (s : State) (off n : Nat) : (s.barBytes off n).length = n := by
  simp [State.barBytes, State.barRead]

/-- An aligned read of eight bytes returns the word of its offset. -/
theorem State.fromBytes_barBytes (s : State) {off x : Nat} (h : off % 8 = 0) (hx : s.barWord off = x) (fits : x < 2 ^ 64) :
    fromBytes (s.barBytes off 8) = x := by
  have hb : s.barBytes off 8 = toBytes 8 (s.barWord off) := by
    rw [toBytes_eq_map_range]
    refine List.map_congr_left fun k hk => ?_
    have hk := List.mem_range.1 hk
    show BitVec.ofNat 8 (s.barWord ((off + k) / 8 * 8) / 2 ^ (8 * ((off + k) % 8))) = _
    rw [show (off + k) / 8 * 8 = off by omega, show (off + k) % 8 = k by omega]
  rw [hb, fromBytes_toBytes, hx, Nat.mod_eq_of_lt fits]

theorem headTail_lt (tail head : Word) : tail.toNat * 2 ^ 32 + head.toNat < 2 ^ 64 := by
  have := tail.isLt
  have := head.isLt
  omega

theorem genOwner_lt (gen : BitVec 16) (owner : BitVec 2) : gen.toNat * 2 ^ 16 + owner.toNat < 2 ^ 64 := by
  have := gen.isLt
  have := owner.isLt
  omega

theorem State.barWord_queue (s : State) {q : Nat} (hq : q < 768) :
    s.barWord (0x10000 + 16 * q + 8) = (s.queue q).tail.toNat * 2 ^ 32 + (s.queue q).head.toNat := by
  have he : queueExists (q / 16) (q % 16) = true := by
    have : q / 16 < 48 ∧ q % 16 < 16 := by omega
    simp [queueExists, Config.dies, Config.clustersPerDie, Config.queuesPerCluster, this]
  have hi : (0x10000 + 16 * q + 8 - 0x10000) / 16 = q := by omega
  have ho : (0x10000 + 16 * q + 8) % 16 = 8 := by omega
  simp only [State.barWord, if_neg (show ¬0x10000 + 16 * q + 8 < 0x10000 by omega), hi, he, ho, decide_true, Bool.and_self,
    if_true]

/-! ### The obligation -/

theorem hostRegisters : Claims.HostRegisters := by
  intro port value k s
  refine ⟨fun up free => ?_, fun h => ?_, fun up mine => ?_, fun h => ?_, fun up mine hk => ?_, fun h => ?_, ?_,
    fun up mine => ?_, fun h => ?_, rfl, fun off n rest hp hf ht => ?_⟩
  · rw [exec_hsemClaim, if_pos ⟨up, free⟩]
  · rw [exec_hsemClaim, if_neg (not_and_or.2 h)]
  · rw [exec_hsemRelease, if_pos ⟨up, mine⟩]
  · rw [exec_hsemRelease, if_neg (not_and_or.2 h)]
  · exact ⟨_, by rw [exec_bar0RegisterWrite_peermap, if_pos ⟨hk, up, mine⟩], peermap_put s.host.peermap k value⟩
  · have barred : ¬(k < 15 ∧ s.host.linkUp port = true ∧ s.host.owner = ownerOf port) := fun ⟨hk, up, mine⟩ =>
      h.elim (· up) (·.elim (· mine) (Nat.not_le_of_lt hk))
    rw [exec_bar0RegisterWrite_peermap, if_neg barred]
  · refine ⟨_, rfl, fun b hb => ?_⟩
    rw [BitVec.getLsbD_and, getLsbD_gangctlMask b hb]
  · rw [exec_bar0RegisterWrite_firmwareUpdate, if_pos ⟨up, mine⟩]
  · rw [exec_bar0RegisterWrite_firmwareUpdate, if_neg (not_and_or.2 h)]
  · refine ⟨s.barBytes off n, step_barRead hp hf ht, s.barBytes_length off n, ?_, ?_, ?_, fun q hq => ?_⟩
    · rintro rfl rfl
      exact s.fromBytes_barBytes rfl rfl (genOwner_lt ..)
    · rintro rfl rfl
      exact s.fromBytes_barBytes rfl rfl (headTail_lt ..)
    · rintro rfl rfl
      exact s.fromBytes_barBytes rfl rfl (headTail_lt ..)
    · rintro rfl rfl
      exact s.fromBytes_barBytes (by omega) (s.barWord_queue hq) (headTail_lt ..)

theorem driverRings : Claims.DriverRings := by
  intro head value s
  exact ⟨s.drained_faults (h := { s.host with faultHead := head }) rfl,
    s.drained_events (h := { s.host with eventHead := head }) rfl,
    s.drained_faults (exec_faultqEventqWrite_fault value s),
    s.drained_events (exec_faultqEventqWrite_event value s)⟩

/-- Settles O49: the registers by their case equations, the rings by induction on the records that wait. -/
theorem registersAndRings : Obligations.RegistersAndRings := ⟨hostRegisters, driverRings⟩

end Sys2Proof.Machine
end

section
/-! SUPPORT. The least and the greatest number of a list, and the resident gangs: which gangs a numbered state holds and what
an update of one changes. -/

namespace Sys2Proof

/-! ### The least and the greatest number -/

theorem minList_eq_none {l : List Nat} : minList l = none ↔ l = [] := by
  cases l with
  | nil => simp [minList]
  | cons a l => cases h : minList l <;> simp [minList, h]

theorem minList_spec {l : List Nat} {m : Nat} (h : minList l = some m) : m ∈ l ∧ ∀ a ∈ l, m ≤ a := by
  induction l generalizing m with
  | nil => simp [minList] at h
  | cons a l ih =>
      cases hl : minList l with
      | none =>
          obtain rfl := minList_eq_none.1 hl
          obtain rfl : a = m := by simpa [minList] using h
          simp
      | some b =>
          obtain rfl : min a b = m := by simpa [minList, hl] using h
          obtain ⟨mem, least⟩ := ih hl
          refine ⟨?_, fun c hc => ?_⟩
          · rcases Nat.le_total a b with hab | hab <;> simp [hab, mem]
          · rcases List.mem_cons.1 hc with rfl | hc
            · exact Nat.min_le_left ..
            · exact (Nat.min_le_right ..).trans (least c hc)

theorem maxList_cons (a : Nat) (l : List Nat) : maxList (a :: l) = max a (maxList l) := by
  rw [maxList, List.foldl_cons, Nat.max_comm 0 a, List.foldl_assoc]
  rfl

theorem le_maxList {l : List Nat} {a : Nat} (h : a ∈ l) : a ≤ maxList l := by
  induction l with
  | nil => simp at h
  | cons b l ih =>
      rw [maxList_cons]
      rcases List.mem_cons.1 h with rfl | h
      · exact Nat.le_max_left ..
      · exact (ih h).trans (Nat.le_max_right ..)

theorem maxList_mem {l : List Nat} (h : l ≠ []) : maxList l ∈ l := by
  induction l with
  | nil => exact absurd rfl h
  | cons a l ih =>
      rw [maxList_cons]
      cases l with
      | nil => simp [maxList]
      | cons b l =>
          rcases Nat.le_total a (maxList (b :: l)) with hle | hle
          · rw [Nat.max_eq_right hle]
            exact List.mem_cons_of_mem a (ih (by simp))
          · rw [Nat.max_eq_left hle]
            exact List.mem_cons_self ..

/-! ### The entries of a table -/

theorem Sparse.get_eq_or_mem {α : Type} (d : α) (m : Sparse α) (k : Nat) :
    Sparse.get d m k = d ∨ (k, Sparse.get d m k) ∈ m := by
  induction m with
  | nil => exact .inl rfl
  | cons e m ih =>
      obtain ⟨a, v⟩ := e
      by_cases h : a = k
      · simp [Sparse.get, h]
      · simpa [Sparse.get, h, Ne.symm h] using ih

theorem Sparse.get_of_mem {α : Type} (d : α) {m : Sparse α} (h : (m.map Prod.fst).Pairwise (· < ·))
    {e : Nat × α} (he : e ∈ m) : Sparse.get d m e.1 = e.2 := by
  induction m with
  | nil => simp at he
  | cons x m ih =>
      obtain ⟨first, rest⟩ := List.pairwise_cons.1 h
      rcases List.mem_cons.1 he with rfl | he
      · simp [Sparse.get]
      · have apart : x.1 ≠ e.1 := Nat.ne_of_lt (first e.1 (List.mem_map_of_mem he))
        simp [Sparse.get, apart, ih rest he]

theorem Sparse.get_upd {α : Type} [DecidableEq α] (d : α) (m : Sparse α) (k : Nat) (f : α → α) (j : Nat) :
    Sparse.get d (Sparse.upd d m k f) j = if j = k then f (Sparse.get d m j) else Sparse.get d m j := by
  rw [Sparse.upd, Sparse.get_put]
  split
  · next h => rw [h]
  · rfl

end Sys2Proof

namespace Sys2Proof.Machine

/-! ### The gangs of a numbered state -/

theorem State.Numbered.findGang_cases {s : State} (hs : s.Numbered) (k : Nat) :
    s.findGang k = {} ∨ (k ≠ 0 ∧ (s.findGang k).id = k) := by
  obtain ⟨focus, -, -, others, -⟩ := hs
  unfold State.findGang
  split
  · next h => exact .inr ⟨h ▸ focus, h⟩
  · refine (Sparse.get_eq_or_mem {} s.gangs k).imp_right fun mem => ?_
    obtain ⟨own, -, nonzero⟩ := others _ mem
    exact ⟨nonzero, own⟩

theorem State.Numbered.mem_allGangs {s : State} (hs : s.Numbered) (x : Gang) :
    x ∈ s.allGangs ↔ x.id ≠ 0 ∧ s.findGang x.id = x := by
  obtain ⟨focus, -, -, others, rising, -⟩ := hs
  simp only [State.allGangs, if_neg focus, List.mem_map, Sparse.mem_insert]
  constructor
  · rintro ⟨e, rfl | he, rfl⟩
    · exact ⟨focus, if_pos rfl⟩
    · obtain ⟨own, apart, nonzero⟩ := others e he
      rw [own]
      exact ⟨nonzero, (if_neg (Ne.symm apart)).trans (Sparse.get_of_mem {} rising he)⟩
  · rintro ⟨nonzero, found⟩
    rw [State.findGang] at found
    split at found
    · exact ⟨_, .inl rfl, found⟩
    · rcases Sparse.get_eq_or_mem {} s.gangs x.id with vacant | mem
      · rw [← found, vacant] at nonzero
        exact absurd rfl nonzero
      · exact ⟨_, .inr mem, found⟩

/-! ### Updates of gangs -/

/-- The two states differ in their gangs alone. -/
def State.GangsOnly (s t : State) : Prop := t = { s with gang := t.gang, gangs := t.gangs }

theorem State.GangsOnly.refl (s : State) : s.GangsOnly s := rfl

theorem State.GangsOnly.trans {s t u : State} (h : s.GangsOnly t) (h' : t.GangsOnly u) : s.GangsOnly u := by
  unfold State.GangsOnly at *
  rw [h', h]

theorem State.GangsOnly.sys {s t : State} (h : s.GangsOnly t) : t.sys = s.sys := by rw [h]
theorem State.GangsOnly.crew {s t : State} (h : s.GangsOnly t) : t.crew = s.crew := by rw [h]
theorem State.GangsOnly.ops {s t : State} (h : s.GangsOnly t) : t.ops = s.ops := by rw [h]

theorem State.updGang_gangsOnly (s : State) (id : Nat) (f : Gang → Gang) : s.GangsOnly (s.updGang id f) := by
  unfold State.updGang State.GangsOnly
  split
  · rfl
  · split <;> rfl

/-- A gang of this number is resident. -/
def State.Resident (s : State) (id : Nat) : Prop := id ≠ 0 ∧ (s.findGang id).id = id

theorem State.Numbered.resident {s : State} (hs : s.Numbered) {x : Gang} (hx : x ∈ s.allGangs) : s.Resident x.id := by
  obtain ⟨nonzero, found⟩ := (hs.mem_allGangs x).1 hx
  exact ⟨nonzero, by rw [found]⟩

theorem State.Numbered.of_mem_slotGangs {s : State} (hs : s.Numbered) {core slot : Nat} {x : Gang}
    (hx : x ∈ s.slotGangs core slot) : s.Resident x.id ∧ s.findGang x.id = x :=
  have mem := List.mem_of_mem_filter hx
  ⟨hs.resident mem, ((hs.mem_allGangs x).1 mem).2⟩

/-- A function keeps the number of every gang. -/
def keepsId (f : Gang → Gang) : Prop := ∀ x, (f x).id = x.id

theorem State.findGang_updGang {s : State} {id : Nat} (hid : s.Resident id) {f : Gang → Gang} (hf : keepsId f) (k : Nat) :
    (s.updGang id f).findGang k = if k = id then f (s.findGang k) else s.findGang k := by
  obtain ⟨nonzero, own⟩ := hid
  unfold State.updGang
  unfold State.findGang at own ⊢
  by_cases focus : s.gang.id = id
  · rw [if_pos focus]
    by_cases hk : k = id
    · simp [hf s.gang, focus, hk]
    · simp [hf s.gang, focus, hk, Ne.symm hk]
  · rw [if_neg focus] at own
    have present : ¬(s.gangs.get {} id).id = 0 := by rwa [own]
    rw [if_neg focus, if_neg present]
    by_cases hk : k = id
    · simp [Sparse.get_upd, focus, hk]
    · simp [Sparse.get_upd, hk]

theorem State.resident_updGang {s : State} {id : Nat} (hid : s.Resident id) {f : Gang → Gang} (hf : keepsId f) (k : Nat) :
    (s.updGang id f).Resident k ↔ s.Resident k := by
  simp only [State.Resident, State.findGang_updGang hid hf]
  split
  · rw [hf]
  · rfl

theorem State.foldl_updGang_gangsOnly (f : Gang → Gang) (l : List Gang) (s : State) :
    s.GangsOnly (l.foldl (fun s x => s.updGang x.id f) s) := by
  induction l generalizing s with
  | nil => exact .refl s
  | cons x l ih => exact (s.updGang_gangsOnly x.id f).trans (ih _)

/-- The same update of several gangs, of one perhaps more than once. -/
theorem State.findGang_foldl_updGang {f : Gang → Gang} (hf : keepsId f) (twice : ∀ x, f (f x) = f x)
    {l : List Gang} {s : State} (hl : ∀ x ∈ l, s.Resident x.id) (k : Nat) :
    (l.foldl (fun s x => s.updGang x.id f) s).findGang k =
      if k ∈ l.map (fun x => x.id) then f (s.findGang k) else s.findGang k := by
  induction l generalizing s with
  | nil => simp
  | cons x l ih =>
      obtain ⟨hx, hl⟩ := List.forall_mem_cons.1 hl
      rw [List.foldl_cons, ih fun y hy => (State.resident_updGang hx hf y.id).2 (hl y hy), State.findGang_updGang hx hf,
        List.map_cons]
      by_cases hk : k = x.id
      · simp [hk, twice]
      · simp [hk]

end Sys2Proof.Machine
end

section
/-! SUPPORT. Events of a gang: results in flight, results that land, the end of a rejoin wait and swaps (R35, R58, R319, R332). -/

namespace Sys2Proof.Machine

/-! ### Results in flight -/

/-- What a register shows at cycle `t` where `hit` says which old value of it a result in flight hides: the common form of
`earlyV`, `earlyS`, `earlyTag`, `earlyP` and `earlyG`. -/
def earlyBy {α : Type} (hit : OldValue → Option α) (t : Nat) : List Shadow → α → α
  | [], cur => cur
  | x :: l, cur =>
      match hit x.old with
      | some old => if x.due ≤ t then cur else earlyBy hit t l old
      | none => earlyBy hit t l cur

/-- The old value of v `n` of a strand. -/
def OldValue.ofV (n strand : Nat) : OldValue → Option Word
  | .v n' written old => if n' = n && written.getLsbD strand then some (old.get 0 strand) else none
  | _ => none

/-- The old value of s `n`. -/
def OldValue.ofS (n : Nat) : OldValue → Option Dword
  | .s n' old => if n' = n then some old else none
  | _ => none

/-- The old tag of a pair. -/
def OldValue.ofTag (k : Nat) : OldValue → Option Bool
  | .tag k' old => if k' = k then some old else none
  | _ => none

/-- The old bit of p `n` of a strand. -/
def OldValue.ofP (n strand : Nat) : OldValue → Option Bool
  | .p n' written old => if n' = n && written.getLsbD strand then some (old.getLsbD strand) else none
  | _ => none

/-- The old value of g `n`. -/
def OldValue.ofG (n : Nat) : OldValue → Option Part
  | .g n' old => if n' = n then some old else none
  | _ => none

theorem earlyV_eq (n strand t : Nat) (l : List Shadow) (cur : Word) :
    earlyV n strand t l cur = earlyBy (OldValue.ofV n strand) t l cur := by
  induction l generalizing cur with
  | nil => rfl
  | cons x l ih => cases hx : x.old <;> simp only [earlyV, earlyBy, OldValue.ofV, hx, ih]; split <;> rfl

theorem earlyS_eq (n t : Nat) (l : List Shadow) (cur : Dword) : earlyS n t l cur = earlyBy (OldValue.ofS n) t l cur := by
  induction l generalizing cur with
  | nil => rfl
  | cons x l ih => cases hx : x.old <;> simp only [earlyS, earlyBy, OldValue.ofS, hx, ih]; split <;> rfl

theorem earlyTag_eq (k t : Nat) (l : List Shadow) (cur : Bool) : earlyTag k t l cur = earlyBy (OldValue.ofTag k) t l cur := by
  induction l generalizing cur with
  | nil => rfl
  | cons x l ih => cases hx : x.old <;> simp only [earlyTag, earlyBy, OldValue.ofTag, hx, ih]; split <;> rfl

theorem earlyP_eq (n strand t : Nat) (l : List Shadow) (cur : Bool) :
    earlyP n strand t l cur = earlyBy (OldValue.ofP n strand) t l cur := by
  induction l generalizing cur with
  | nil => rfl
  | cons x l ih => cases hx : x.old <;> simp only [earlyP, earlyBy, OldValue.ofP, hx, ih]; split <;> rfl

theorem earlyG_eq (n t : Nat) (l : List Shadow) (cur : Part) : earlyG n t l cur = earlyBy (OldValue.ofG n) t l cur := by
  induction l generalizing cur with
  | nil => rfl
  | cons x l ih => cases hx : x.old <;> simp only [earlyG, earlyBy, OldValue.ofG, hx, ih]; split <;> rfl

/-- What pruning drops hides nothing: those results have been delivered. -/
theorem earlyBy_prune {α : Type} (hit : OldValue → Option α) (t : Nat) (l : List Shadow) (cur : α) :
    earlyBy hit t (pruneShadows t l) cur = earlyBy hit t l cur := by
  induction l generalizing cur with
  | nil => rfl
  | cons x l ih =>
      rw [pruneShadows]
      split
      · next h =>
          obtain ⟨none_left, due⟩ : pruneShadows t l = [] ∧ x.due ≤ t := by simpa using h
          have rest : earlyBy hit t l cur = cur := by rw [← ih, none_left]; rfl
          cases hx : hit x.old <;> simp [earlyBy, hx, due, rest]
      · cases hx : hit x.old <;> simp [earlyBy, hx, ih]

theorem pruneShadows_eq_nil {t : Nat} {l : List Shadow} (h : ∀ x ∈ l, x.due ≤ t) : pruneShadows t l = [] := by
  induction l with
  | nil => rfl
  | cons x l ih =>
      obtain ⟨due, rest⟩ := List.forall_mem_cons.1 h
      simp [pruneShadows, ih rest, due]

/-- The gang without the results in flight that no read can meet again. -/
def Gang.prune (t : Nat) (x : Gang) : Gang := { x with shadows := pruneShadows t x.shadows }

theorem Gang.keepsId_prune (t : Nat) : keepsId (Gang.prune t) := fun _ => rfl

theorem exec_fixedResultDelivery (g : Nat) (s : State) :
    exec (.fixedResultDelivery g) s = .next (s.updGang g (.prune s.clock)) := rfl

/-- Pruning the gang in focus changes no read of a register. -/
theorem State.reads_prune (s : State) :
    let t : State := { s with gang := s.gang.prune s.clock }
    (∀ i n, t.readV i n = s.readV i n) ∧
    (∀ n, t.readS n = s.readS n ∧ t.readTag n = s.readTag n ∧ t.readG n = s.readG n) ∧
    ∀ n i, t.readPBit n i = s.readPBit n i := by
  simp only [State.readV, State.readS, State.readTag, State.readG, State.readPBit, Gang.prune, earlyV_eq, earlyS_eq, earlyTag_eq,
    earlyG_eq, earlyP_eq, earlyBy_prune, implies_true, and_self]

/-! ### Results that land -/

/-- An ejected strand's gang whose hand-over waits for no result. -/
def Gang.landEjected (x : Gang) : Gang := { x with ej := x.ej.map fun e => { e with marks := [] } }

/-- The gang without marks on the scoreboard. -/
def Gang.unmark (x : Gang) : Gang := { x with marks := [], quick := [] }

/-- The gang is an ejected strand of gang `g`. -/
def Gang.ejectedFrom (g : Nat) (x : Gang) : Bool := x.ej.any fun e => e.parent = g

/-- The gangs with a strand of `g` land: the first half of `State.landVariable`. -/
def State.landEjected (s : State) (g : Nat) : State :=
  (s.allGangs.filter (Gang.ejectedFrom g)).foldl (fun s x => s.updGang x.id .landEjected) s

theorem Gang.keepsId_landEjected : keepsId Gang.landEjected := fun _ => rfl
theorem Gang.keepsId_unmark : keepsId Gang.unmark := fun _ => rfl

theorem exec_variableResultLands (g : Nat) (s : State) :
    exec (.variableResultLands g) s = .next ((s.landEjected g).updGang g .unmark) := rfl

theorem Gang.landEjected_twice (x : Gang) : x.landEjected.landEjected = x.landEjected := by
  cases h : x.ej <;> simp [Gang.landEjected, h]

theorem State.Numbered.findGang_landEjected {s : State} (hs : s.Numbered) (g k : Nat) :
    (s.landEjected g).findGang k =
      if (s.findGang k).ejectedFrom g = true then (s.findGang k).landEjected else s.findGang k := by
  rw [State.landEjected, State.findGang_foldl_updGang Gang.keepsId_landEjected Gang.landEjected_twice
    fun x hx => hs.resident (List.mem_of_mem_filter hx)]
  refine if_congr ?_ rfl rfl
  simp only [List.mem_map, List.mem_filter, hs.mem_allGangs]
  constructor
  · rintro ⟨x, ⟨⟨-, found⟩, ejected⟩, rfl⟩
    rwa [found]
  · intro ejected
    rcases hs.findGang_cases k with vacant | ⟨nonzero, own⟩
    · rw [vacant] at ejected
      exact absurd ejected Bool.false_ne_true
    · exact ⟨_, ⟨⟨own.symm ▸ nonzero, by rw [own]⟩, ejected⟩, own⟩

theorem State.landEjected_gangsOnly (s : State) (g : Nat) : s.GangsOnly (s.landEjected g) :=
  State.foldl_updGang_gangsOnly _ _ s

theorem State.Numbered.resident_landEjected {s : State} (hs : s.Numbered) {g : Nat} (hg : s.Resident g) :
    (s.landEjected g).Resident g := by
  refine ⟨hg.1, ?_⟩
  rw [hs.findGang_landEjected]
  split <;> exact hg.2

/-! ### The end of a rejoin wait -/

/-- A group, with its index, after the timer of group `grp` was looked at (R319). -/
def Group.expireAt (grp t : Nat) (e : Group × Nat) : Group :=
  if e.2 = grp && e.1.expires.any (fun c => c ≤ t) then { e.1 with expired := true } else e.1

/-- The gang after the timer of group `grp` was looked at. -/
def Gang.expireAt (grp t : Nat) (x : Gang) : Gang :=
  { x with groups := (x.groups.zip (List.range x.groups.length)).map (Group.expireAt grp t) }

theorem Gang.keepsId_expireAt (grp t : Nat) : keepsId (Gang.expireAt grp t) := fun _ => rfl

theorem exec_rejoinwaitExpiry (g grp : Nat) (s : State) :
    exec (.rejoinwaitExpiry g grp) s = .next (s.updGang g (.expireAt grp s.clock)) := rfl

theorem Gang.expireAt_length (grp t : Nat) (x : Gang) : (x.expireAt grp t).groups.length = x.groups.length := by
  simp [Gang.expireAt]

theorem Group.expireAt_eq (grp t k : Nat) (r : Group) :
    ∃ e : Bool, Group.expireAt grp t (r, k) = { r with expired := e } ∧
      (e = true ↔ r.expired = true ∨ (k = grp ∧ ∃ c, r.expires = some c ∧ c ≤ t)) := by
  by_cases ends : k = grp ∧ ∃ c, r.expires = some c ∧ c ≤ t
  · refine ⟨true, ?_, by simp [ends]⟩
    obtain ⟨rfl, c, hc, due⟩ := ends
    simp [Group.expireAt, hc, due]
  · refine ⟨r.expired, ?_, by simp [ends]⟩
    have : ¬(k = grp && r.expires.any fun c => c ≤ t) = true := by simpa [Option.any_eq_true] using ends
    exact if_neg this

theorem Gang.expireAt_group (grp t : Nat) (x : Gang) {k : Nat} {r : Group} (hr : x.groups[k]? = some r) :
    (x.expireAt grp t).groups[k]? = some (Group.expireAt grp t (r, k)) := by
  have hk : k < x.groups.length := (List.getElem?_eq_some_iff.1 hr).1
  have pair : (x.groups.zip (List.range x.groups.length))[k]? = some (r, k) :=
    List.getElem?_zip_eq_some.2 ⟨hr, List.getElem?_range hk⟩
  rw [Gang.expireAt, List.getElem?_map, pair]
  rfl

/-! ### Swaps -/

theorem exec_gangSwap (slot : Nat) (s : State) :
    exec (.gangSwap slot) s = .next (match s.longestWaiting (slot / 4) (slot % 4), s.firstReady (slot / 4) (slot % 4) with
      | some out, some new => s.swap (slot / 4) (slot % 4) out.id new.id
      | _, _ => s) := rfl

theorem State.longestWaiting_mem {s : State} {core slot : Nat} {x : Gang} (h : s.longestWaiting core slot = some x) :
    x ∈ s.slotGangs core slot := by
  unfold State.longestWaiting at h
  dsimp only at h
  split at h
  · cases h
  · split at h
    · cases h
    · exact List.mem_of_mem_filter (List.mem_of_mem_filter (List.mem_of_find?_eq_some h))

theorem State.firstReady_mem {s : State} {core slot : Nat} {x : Gang} (h : s.firstReady core slot = some x) :
    x ∈ s.slotGangs core slot := by
  obtain ⟨a, -, found⟩ := List.mem_filterMap.1 (List.mem_of_find?_eq_some h)
  exact List.mem_of_mem_filter (List.mem_of_find?_eq_some found)

/-- The arrival after all those of a slot. -/
def State.tail (s : State) (core slot : Nat) : Nat := maxList ((s.slotGangs core slot).map fun x => x.arrival) + 1

theorem State.arrival_lt_tail (s : State) {core slot : Nat} {x : Gang} (h : x ∈ s.slotGangs core slot) :
    x.arrival < s.tail core slot :=
  Nat.lt_succ_of_le (le_maxList (List.mem_map.2 ⟨x, h, rfl⟩))

/-- A gang that leaves the active set for the tail of the pending one. -/
def Gang.stepBack (tail : Nat) (x : Gang) : Gang := { x with active := false, arrival := tail }

/-- A gang that enters the active set: it may issue 2 cycles later. -/
def Gang.stepIn (t : Nat) (x : Gang) : Gang := { x with active := true, nextIssue := max x.nextIssue (t + 2) }

theorem Gang.keepsId_stepBack (tail : Nat) : keepsId (Gang.stepBack tail) := fun _ => rfl
theorem Gang.keepsId_stepIn (t : Nat) : keepsId (Gang.stepIn t) := fun _ => rfl

theorem State.swap_eq (s : State) (core slot out new : Nat) :
    s.swap core slot out new = (s.updGang out (.stepBack (s.tail core slot))).updGang new (.stepIn s.clock) := rfl

theorem State.findGang_swap {s : State} {out new : Nat} (hout : s.Resident out) (hnew : s.Resident new) (apart : out ≠ new)
    (core slot k : Nat) :
    (s.swap core slot out new).findGang k =
      if k = out then (s.findGang k).stepBack (s.tail core slot)
      else if k = new then (s.findGang k).stepIn s.clock else s.findGang k := by
  rw [State.swap_eq, State.findGang_updGang ((State.resident_updGang hout (Gang.keepsId_stepBack _) new).2 hnew)
      (Gang.keepsId_stepIn _),
    State.findGang_updGang hout (Gang.keepsId_stepBack _)]
  by_cases hk : k = out
  · rw [if_neg (hk ▸ apart), if_pos hk, if_pos hk]
  · rw [if_neg hk, if_neg hk]

theorem State.swap_gangsOnly (s : State) (core slot out new : Nat) : s.GangsOnly (s.swap core slot out new) :=
  (s.updGang_gangsOnly _ _).trans (State.updGang_gangsOnly _ _ _)

/-! ### The obligation -/

/-- Settles O43: each event is an update of gangs, and pruning drops delivered results only. -/
theorem gangEvents : Obligations.GangEvents := by
  intro s hs
  refine ⟨fun g own nonzero => ?_, fun slot => ⟨fun out new hout hnew apart => ?_, fun h => ?_⟩⟩
  · have hg : s.Resident g := ⟨nonzero, own⟩
    refine ⟨?_, ?_, pruneShadows_eq_nil, fun focus t ht => ?_, fun grp => ?_⟩
    · have only := s.updGang_gangsOnly g (.prune s.clock)
      have found := State.findGang_updGang hg (Gang.keepsId_prune s.clock)
      exact ⟨_, exec_fixedResultDelivery g s, by rw [found, if_pos rfl]; rfl, only.sys, only.crew, only.ops,
        fun k hk => by rw [found, if_neg hk]⟩
    · have only := (s.landEjected_gangsOnly g).trans (State.updGang_gangsOnly _ g .unmark)
      refine ⟨_, exec_variableResultLands g s, only.sys, only.crew, only.ops, fun k => ?_⟩
      rw [State.findGang_updGang (hs.resident_landEjected hg) Gang.keepsId_unmark, hs.findGang_landEjected]
      rfl
    · rw [exec_fixedResultDelivery, State.updGang, if_pos focus] at ht
      obtain rfl := Host.Outcome.next.inj ht
      exact s.reads_prune
    · have found := State.findGang_updGang hg (Gang.keepsId_expireAt grp s.clock) g
      rw [if_pos rfl] at found
      refine ⟨_, exec_rejoinwaitExpiry g grp s, by rw [found]; rfl, by rw [found, Gang.expireAt_length], fun k r hr => ?_⟩
      obtain ⟨e, eq, iff⟩ := Group.expireAt_eq grp s.clock k r
      exact ⟨e, by rw [found, Gang.expireAt_group grp s.clock _ hr, eq], iff⟩
  · obtain ⟨outHere, outFound⟩ := hs.of_mem_slotGangs (State.longestWaiting_mem hout)
    obtain ⟨newHere, newFound⟩ := hs.of_mem_slotGangs (State.firstReady_mem hnew)
    have found := State.findGang_swap outHere newHere apart (slot / 4) (slot % 4)
    have foundOut := found out.id
    rw [if_pos rfl, outFound] at foundOut
    refine ⟨_, by rw [exec_gangSwap, hout, hnew], (s.swap_gangsOnly ..).sys, by rw [foundOut]; rfl, fun x hx => ?_, ?_,
      fun k hk hk' => by rw [found, if_neg hk, if_neg hk']⟩
    · rw [foundOut]
      exact s.arrival_lt_tail hx
    · rw [found, if_neg (Ne.symm apart), if_pos rfl, newFound]
      rfl
  · rw [exec_gangSwap]
    rcases h with h | h
    · rw [h]
    · rw [h]
      cases s.longestWaiting (slot / 4) (slot % 4) <;> rfl

end Sys2Proof.Machine
end

section
/-! SUPPORT. Which run a gang issues (R310), and from which cycle on a fixed-latency result is read (R35, R57). -/

namespace Sys2Proof.Machine

/-! ### The run -/

/-- The READY strands of a gang. -/
def Gang.ready (g : Gang) : List Nat := (List.range 32).filter fun i => (g.strand i).st = .ready

/-- The greatest age of a READY strand. -/
def Gang.oldestAge (g : Gang) : Nat := maxList (g.ready.map fun i => (g.strand i).age)

/-- The strands whose smallest PC a run takes: the oldest once they reach the limit, else every READY one. -/
def State.runPool (s : State) : List Nat :=
  if s.crew.ageLimit ≤ s.gang.oldestAge then s.gang.ready.filter fun i => (s.gang.strand i).age = s.gang.oldestAge
  else s.gang.ready

theorem Gang.mem_ready (g : Gang) (i : Nat) : i ∈ g.ready ↔ i < 32 ∧ (g.strand i).st = .ready := by
  simp [Gang.ready]

theorem Gang.age_le_oldestAge (g : Gang) {i : Nat} (h : i ∈ g.ready) : (g.strand i).age ≤ g.oldestAge :=
  le_maxList (List.mem_map.2 ⟨i, h, rfl⟩)

theorem Gang.exists_oldest (g : Gang) (h : g.ready ≠ []) : ∃ o ∈ g.ready, (g.strand o).age = g.oldestAge :=
  List.mem_map.1 (maxList_mem (by simpa using h))

theorem State.mem_runPool (s : State) (i : Nat) :
    i ∈ s.runPool ↔ i ∈ s.gang.ready ∧ (s.crew.ageLimit ≤ s.gang.oldestAge → (s.gang.strand i).age = s.gang.oldestAge) := by
  unfold State.runPool
  split
  · next h => simp [h]
  · next h => simp [h]

theorem State.runPool_eq_nil (s : State) : s.runPool = [] ↔ s.gang.ready = [] := by
  refine ⟨fun h => by_contra fun nonempty => ?_, fun h => ?_⟩
  · obtain ⟨o, ho, oldest⟩ := s.gang.exists_oldest nonempty
    have : o ∈ s.runPool := (s.mem_runPool o).2 ⟨ho, fun _ => oldest⟩
    simp [h] at this
  · simp [State.runPool, h]

/-- Outside a handler and on no marionette the run is the READY strands at the smallest PC of the pool. -/
theorem State.chosen_eq {s : State} (hh : s.gang.handler = none) (he : s.gang.ej = none) :
    s.chosen = (minList (s.runPool.map fun i => (s.gang.strand i).pc.toNat)).map fun p =>
      (BitVec.ofNat 64 p, maskOf (s.gang.ready.filter fun i => (s.gang.strand i).pc.toNat = p)) := by
  simp only [State.chosen, hh, he, Option.isSome_none, Bool.false_and, Bool.or_false]
  show (match minList (s.runPool.map fun i => (s.gang.strand i).pc.toNat) with
    | none => none
    | some p => _) = _
  cases minList (s.runPool.map fun i => (s.gang.strand i).pc.toNat) <;> rfl

theorem State.chosen_eq_none {s : State} (hh : s.gang.handler = none) (he : s.gang.ej = none) :
    s.chosen = none ↔ ∀ i, i ∉ s.gang.ready := by
  rw [s.chosen_eq hh he, Option.map_eq_none_iff, minList_eq_none, List.map_eq_nil_iff, s.runPool_eq_nil,
    List.eq_nil_iff_forall_not_mem]

theorem State.chosen_eq_some {s : State} (hh : s.gang.handler = none) (he : s.gang.ej = none) {p : Pc} {run : Mask}
    (h : s.chosen = some (p, run)) :
    (∀ i, i < 32 → (run.getLsbD i = true ↔ i ∈ s.gang.ready ∧ (s.gang.strand i).pc = p)) ∧
    (∃ i ∈ s.runPool, (s.gang.strand i).pc = p) ∧ ∀ i ∈ s.runPool, p.toNat ≤ (s.gang.strand i).pc.toNat := by
  rw [s.chosen_eq hh he, Option.map_eq_some_iff] at h
  obtain ⟨m, hm, eq⟩ := h
  obtain ⟨mem, least⟩ := minList_spec hm
  obtain ⟨k, hk, rfl⟩ := List.mem_map.1 mem
  obtain ⟨rfl, rfl⟩ : (s.gang.strand k).pc = p ∧ _ = run := by simpa using eq
  refine ⟨fun i hi => ?_, ⟨k, hk, rfl⟩, fun i hi => least _ (List.mem_map.2 ⟨i, hi, rfl⟩)⟩
  simp [maskOf_getLsbD _ i hi, BitVec.toNat_inj]

/-! ### The ages -/

theorem Sparse.get_foldl_upd {α : Type} [DecidableEq α] (d : α) (f : α → α) {l : List Nat} (hl : l.Nodup)
    (m : Sparse α) (k : Nat) :
    Sparse.get d (l.foldl (fun m i => Sparse.upd d m i f) m) k =
      if k ∈ l then f (Sparse.get d m k) else Sparse.get d m k := by
  induction l generalizing m with
  | nil => simp
  | cons a l ih =>
      obtain ⟨fresh, hl⟩ := List.nodup_cons.1 hl
      rw [List.foldl_cons, ih hl, Sparse.get_upd]
      by_cases hk : k = a
      · simp [hk, fresh]
      · simp [hk]

theorem Gang.strand_mapStrands (g : Gang) (m : Mask) (f : Strand → Strand) {i : Nat} (hi : i < 32) :
    (g.mapStrands m f).strand i = if m.getLsbD i then f (g.strand i) else g.strand i := by
  unfold Gang.mapStrands Gang.strand
  rw [Sparse.get_foldl_upd {} f (mask_list_nodup m)]
  simp [mem_mask_list, hi]

theorem Gang.inState_getLsbD (g : Gang) (p : StrandState → Bool) {i : Nat} (hi : i < 32) :
    (g.inState p).getLsbD i = p (g.strand i).st := by
  rw [Gang.inState, maskOf_getLsbD _ i hi]
  simp [hi]

theorem Gang.strand_aged (g : Gang) (run : Mask) {i : Nat} (hi : i < 32) :
    (g.aged run).strand i = { g.strand i with
      age := if run.getLsbD i then 0
        else if (g.strand i).st = .ready then min ((g.strand i).age + 1) 255 else (g.strand i).age } := by
  rw [Gang.aged, Gang.strand_mapStrands _ _ _ hi, Gang.strand_mapStrands _ _ _ hi, Gang.inState_getLsbD _ _ hi]
  by_cases inRun : run.getLsbD i = true
  · by_cases ready : (g.strand i).st = .ready <;> simp [inRun, ready]
  · by_cases ready : (g.strand i).st = .ready <;> simp [inRun, ready]

theorem runChoice : Claims.RunChoice := by
  intro s hh he limit
  have ageLimit : s.crew.ageLimit = s.crew.ageMax.toNat - 31 := by
    rw [Crew.ageLimit, Nat.max_eq_right limit]
  refine ⟨?_, fun p run h => ?_, fun run i hi => s.gang.strand_aged run hi⟩
  · simp only [← s.gang.mem_ready]
    exact s.chosen_eq_none hh he
  · simp only [← s.gang.mem_ready]
    obtain ⟨inRun, ⟨k, hk, atPc⟩, least⟩ := s.chosen_eq_some hh he h
    obtain ⟨o, ho, oldest⟩ := s.gang.exists_oldest (List.ne_nil_of_mem ((s.mem_runPool k).1 hk).1)
    have pool (i : Nat) : i ∈ s.runPool ↔ i ∈ s.gang.ready ∧
        (s.crew.ageMax.toNat ≤ (s.gang.strand o).age + 31 → (s.gang.strand i).age = (s.gang.strand o).age) := by
      rw [s.mem_runPool, ageLimit, oldest, Nat.sub_le_iff_le_add]
    refine ⟨inRun, o, ho, fun i hi => oldest ▸ s.gang.age_le_oldestAge hi, ⟨k, (pool k).1 hk, atPc⟩, fun i hi => ?_⟩
    exact least i ((pool i).2 hi)

/-! ### Early reads -/

/-- What a step to `t` with a result of this latency lets an issue `later` cycles on read: before the latency is over what the
register then reads without the step, from then on what it holds. A scalar register takes 2 cycles. -/
def State.ReadFrom (s t : State) (d : Sel) (lanes : List Nat) (latency later : Nat) : Prop :=
  (∀ n, d = .v n → ∀ j ∈ lanes, ({ t with clock := s.clock + later } : State).readV j n.toNat =
    if later < latency then ({ s with clock := s.clock + later } : State).readV j n.toNat
    else t.gang.v.get 0 (j * 128 + n.toNat)) ∧
  ∀ n, d = .s n → ({ t with clock := s.clock + later } : State).readS n.toNat =
    if later < 2 then ({ s with clock := s.clock + later } : State).readS n.toNat else t.gang.s.get 0 n.toNat

theorem State.shadow_gang_shadows {s : State} (he : s.gang.ej = none) {lat : Nat} (hl : lat ≠ 0) (o : OldValue) :
    (s.shadow lat o).gang.shadows = ⟨s.clock + lat, o⟩ :: s.gang.shadows := by
  simp [State.shadow, he, hl]

theorem State.writeV_gang_shadows {s : State} (he : s.gang.ej = none) {lat : Nat} (hl : lat ≠ 0) (n : Nat)
    (vals : List (Nat × Word)) :
    (s.writeV lat n vals).gang.shadows = ⟨s.clock + lat, .v n (maskOf (vals.map Prod.fst))
      (vals.foldl (fun m e => Sparse.put 0 m e.1 (s.gang.v.get 0 (e.1 * 128 + n))) [])⟩ :: s.gang.shadows :=
  State.shadow_gang_shadows he hl _

theorem State.writeSBits_gang_shadows {s : State} (he : s.gang.ej = none) {lat : Nat} (hl : lat ≠ 0) (n : Nat) (x : Dword) :
    (s.writeSBits lat n x).gang.shadows = ⟨s.clock + lat, .s n (s.gang.s.get 0 n)⟩ :: s.gang.shadows :=
  State.shadow_gang_shadows he hl _

theorem State.writeTag_gang_shadows {s : State} (he : s.gang.ej = none) {lat : Nat} (hl : lat ≠ 0) (k : Nat) (on : Bool) :
    (s.writeTag lat k on).gang.shadows = ⟨s.clock + lat, .tag k (s.gang.stags.getLsbD k)⟩ :: s.gang.shadows :=
  State.shadow_gang_shadows he hl _

/-- The old values that a write of some lanes hides, at one of them. -/
theorem Sparse.get_foldl_put_lane {α β : Type} [DecidableEq α] (d : α) (f : Nat → α) (vals : List (Nat × β)) {j : Nat}
    (hn : (vals.map Prod.fst).Nodup) (hj : j ∈ vals.map Prod.fst) (m : Sparse α) :
    Sparse.get d (vals.foldl (fun m e => Sparse.put d m e.1 (f e.1)) m) j = f j := by
  have := Sparse.get_foldl_put_mem d id (vals.map fun e => (e.1, f e.1)) m (by simpa [Function.comp_def] using hn) (j, f j)
    (by simpa using hj)
  simpa [List.foldl_map] using this

theorem State.writeV_readFrom {s : State} (he : s.gang.ej = none) {lat : Nat} (hl : lat ≠ 0) (n : Nat)
    {vals : List (Nat × Word)} (hn : (vals.map Prod.fst).Nodup) {j : Nat} (hj : j ∈ vals.map Prod.fst) (hj32 : j < 32)
    (later : Nat) :
    ({ s.writeV lat n vals with clock := s.clock + later } : State).readV j n =
      if later < lat then ({ s with clock := s.clock + later } : State).readV j n
      else (s.writeV lat n vals).gang.v.get 0 (j * 128 + n) := by
  have written : (maskOf (vals.map Prod.fst)).getLsbD j = true := by simpa [maskOf_getLsbD _ j hj32] using hj
  have old := Sparse.get_foldl_put_lane 0 (fun i => s.gang.v.get 0 (i * 128 + n)) vals hn hj []
  simp only [State.readV, State.writeV_gang_shadows he hl, earlyV, decide_true, written, Bool.and_self, if_true, old,
    Nat.add_le_add_iff_left]
  by_cases early : later < lat
  · rw [if_neg (Nat.not_le.2 early), if_pos early]
  · rw [if_pos (Nat.le_of_not_lt early), if_neg early]

theorem State.writeS_readFrom {s : State} (he : s.gang.ej = none) {lat : Nat} (hl : lat ≠ 0) (n : Nat) (x : Dword) (later : Nat) :
    ({ s.writeS lat n x with clock := s.clock + later } : State).readS n =
      if later < lat then ({ s with clock := s.clock + later } : State).readS n else (s.writeS lat n x).gang.s.get 0 n := by
  have tag := State.writeTag_gang_shadows (s := s.writeSBits lat n x) (by simpa using he) hl (n / 2) false
  rw [← State.writeS, State.writeSBits_gang_shadows he hl, State.writeSBits_clock] at tag
  simp only [State.readS, tag, earlyS, if_true, Nat.add_le_add_iff_left]
  by_cases early : later < lat
  · rw [if_neg (Nat.not_le.2 early), if_pos early]
  · rw [if_pos (Nat.le_of_not_lt early), if_neg early]

/-- What a result of at most 32 bits, or a scalar one, lets later issues read. -/
theorem State.result_readFrom {s : State} (he : s.gang.ej = none) (d : Sel) {w : Nat} (hw : w ≠ 64) (sx : Bool) {lat : Nat}
    (hl : lat ≠ 0) {lanes : List Nat} (r : Nat → Nat) (hn : lanes.Nodup) (h32 : ∀ j ∈ lanes, j < 32)
    (hs : d.isScalar = true → lanes = [0]) (later : Nat) :
    s.ReadFrom (s.result d w sx (some lat) (lanes.map fun i => (i, r i))) d lanes lat later := by
  refine ⟨?_, ?_⟩
  · rintro n rfl j hj
    simp only [State.result, if_neg hw, Option.getD_some, reduceCtorEq, if_false]
    exact State.writeV_readFrom he hl _ (by simpa [Function.comp_def] using hn) (by simpa using hj) (h32 j hj) later
  · rintro n rfl
    simp only [State.result, hs rfl, List.map_cons, reduceCtorEq, if_false]
    exact State.writeS_readFrom he (by decide) _ _ later

theorem State.ReadFrom.congr {s t u : State} {d : Sel} {lanes : List Nat} {latency later : Nat}
    (h : s.ReadFrom t d lanes latency later) (hsh : u.gang.shadows = t.gang.shadows) (hv : u.gang.v = t.gang.v)
    (hs : u.gang.s = t.gang.s) : s.ReadFrom u d lanes latency later := by
  simpa only [State.ReadFrom, State.readV, State.readS, hsh, hv, hs] using h

theorem State.mem_lanes_lt {s : State} {uni : Bool} {h : Hdr} {j : Nat} (hj : j ∈ s.lanes uni h) : j < 32 := by
  unfold State.lanes at hj
  split at hj
  · obtain rfl := List.mem_singleton.1 hj
    decide
  · exact ((mem_mask_list _ j).1 hj).1

/-- What an arithmetic instruction gone on to the next PC lets later issues read. -/
theorem State.arith_readFrom {s : State} (he : s.gang.ej = none) (d : Sel) (h : Hdr) {w : Nat} (hw : w ≠ 64) (sx : Bool)
    {lat : Nat} (hl : lat ≠ 0) (f : Nat → Word → Lane) (later : Nat) :
    s.ReadFrom (s.arith d h w sx (some lat) f).advance d (s.lanes d.isScalar h) lat later := by
  have hn := s.lanes_nodup d.isScalar h
  have hs := s.lanes_uniform d.isScalar h
  have hu : d.isScalar = true → (s.lanes d.isScalar h).length ≤ 1 := fun e => by simp [hs e]
  have vals := State.evalLanes_vals d.isScalar f _ hn hu s
  have rounding := State.evalLanes_gang d.isScalar f (s.lanes d.isScalar h) s
  simp only [State.arith]
  generalize s.evalLanes d.isScalar f (s.lanes d.isScalar h) = ev at vals rounding
  obtain ⟨l, flags, u⟩ := ev
  dsimp only at vals rounding
  obtain rfl := vals
  refine State.ReadFrom.congr (t := u.result d w sx (some lat) _) ?_
    ((State.advance_gang_shadows _).trans (State.raise_gang_shadows _ flags))
    ((State.advance_gang_v _).trans (State.raise_gang_v _ flags)) ((State.advance_gang_s _).trans (State.raise_gang_s _ flags))
  rw [rounding]
  exact State.result_readFrom (s := { s with gang := { s.gang with rnd := u.gang.rnd, urnd := u.gang.urnd } }) he d hw sx hl
    (fun i => (f i (s.roundState d.isScalar i)).1) hn (fun _ => State.mem_lanes_lt) hs later

/-- What `Claims.EarlyReads` asks of an instruction with destination `d`. -/
def State.Delivered (s : State) (i : Instr) (d : Sel) (h : Hdr) (latency later : Nat) : Prop :=
  ∃ t, exec i s = .next t ∧ s.ReadFrom t d (s.active h) latency later

theorem State.delivered_arith {i : Instr} {s : State} {o : Op} {d : Sel} {h : Hdr} {w : Nat} {sx : Bool} {lat : Nat}
    {f : State → Nat → Word → Lane} (hx : exec i s = s.sequential { op := o } fun s => s.arith d h w sx (some lat) (f s))
    (hflow : s.flows = true) (he : s.gang.ej = none) (hw : w ≠ 64) (hl : lat ≠ 0) (later : Nat) :
    s.Delivered i d h lat later := by
  obtain ⟨vector, scalar⟩ := s.arith_readFrom he d h hw sx hl (f s) later
  refine ⟨_, hx.trans (s.sequential_completes o _ hflow), fun n hd j hj => vector n hd j ?_, scalar⟩
  rwa [hd]

theorem Typed.bits_ne {x : Typed} (h : x.width ≠ 64) : x.ty.bits ≠ 64 := by
  cases hty : x.ty <;> simp_all [Typed.width, Ty.bits]

theorem earlyReads : Claims.EarlyReads := by
  intro x s later hflow he hw
  have int {i : Instr} {o : Op} {lat : Nat} {f : Nat → Nat → Nat → Nat × BitVec 8} (hl : lat ≠ 0)
      (hx : exec i s = s.sequential { op := o } fun s => s.intOp x (some lat) f) : s.Delivered i x.d x.hdr lat later :=
    State.delivered_arith hx hflow he hw hl later
  have float {i : Instr} {o : Op} {f : FloatFmt → Nat → Nat → Nat → Word → Lane}
      (hx : exec i s = s.sequential { op := o } fun s => s.floatOp x (some 6) f) : s.Delivered i x.d x.hdr 6 later :=
    State.delivered_arith hx hflow he (Typed.bits_ne hw) (by decide) later
  exact ⟨int (by decide) rfl, int (by decide) rfl, int (by decide) rfl, int (by decide) rfl, int (by decide) rfl,
    int (by decide) rfl, int (by decide) rfl, float rfl, float rfl, float rfl⟩

/-- Settles O54: the pool of the run, and the shadow that each result of an arithmetic instruction leaves. -/
theorem issueAndResults : Obligations.IssueAndResults := ⟨runChoice, earlyReads⟩

end Sys2Proof.Machine
end

section
/-! SUPPORT. Rounding to units (R73): the units a mode chooses for a real number, and that `roundUnits` chooses them. -/

namespace Sys2Proof

/-! ### Rounding to units -/

/-- The number of units that a mode chooses for a magnitude of `w` units, and whether it is inexact (R73). -/
structure RoundsTo (mode : Nat) (neg : Bool) (w : ℝ) (u : Units) : Prop where
  near : |(u.t : ℝ) - w| < 1
  inexact : u.inexact = true ↔ (u.t : ℝ) ≠ w
  nearest : mode = RNE → |(u.t : ℝ) - w| ≤ 1 / 2 ∧ (|(u.t : ℝ) - w| = 1 / 2 → u.t % 2 = 0)
  below : mode = RZ ∨ (mode = RD ∧ neg = false) ∨ (mode = RU ∧ neg = true) → (u.t : ℝ) ≤ w
  above : (mode = RD ∧ neg = true) ∨ (mode = RU ∧ neg = false) → w ≤ u.t

/-- Units that are the magnitude itself. -/
theorem RoundsTo.exact {mode : Nat} {neg : Bool} {w : ℝ} {u : Units} (ht : (u.t : ℝ) = w) (hi : u.inexact = false) :
    RoundsTo mode neg w u where
  near := by simp [ht]
  inexact := by simp [ht, hi]
  nearest := fun _ => by simp only [ht, sub_self, abs_zero]; norm_num
  below := fun _ => ht.le
  above := fun _ => ht.ge

/-- Units rounded down from a magnitude strictly between them and the next. -/
theorem RoundsTo.down {mode : Nat} {neg : Bool} {w : ℝ} {u : Units} (h0 : (u.t : ℝ) < w) (h1 : w < u.t + 1)
    (hi : u.inexact = true) (hn : mode = RNE → w - u.t ≤ 1 / 2 ∧ (w - u.t = 1 / 2 → u.t % 2 = 0))
    (hm : ¬((mode = RD ∧ neg = true) ∨ (mode = RU ∧ neg = false))) : RoundsTo mode neg w u where
  near := by rw [abs_lt]; constructor <;> linarith
  inexact := iff_of_true hi h0.ne
  nearest := fun e => by rw [abs_sub_comm, abs_of_pos (by linarith)]; exact hn e
  below := fun _ => h0.le
  above := fun h => absurd h hm

/-- Units rounded up from a magnitude strictly between them and the ones before. -/
theorem RoundsTo.up {mode : Nat} {neg : Bool} {w : ℝ} {u : Units} (h0 : w < u.t) (h1 : (u.t : ℝ) < w + 1)
    (hi : u.inexact = true) (hn : mode = RNE → u.t - w ≤ 1 / 2 ∧ (u.t - w = 1 / 2 → u.t % 2 = 0))
    (hm : ¬(mode = RZ ∨ (mode = RD ∧ neg = false) ∨ (mode = RU ∧ neg = true))) : RoundsTo mode neg w u where
  near := by rw [abs_lt]; constructor <;> linarith
  inexact := iff_of_true hi h0.ne'
  nearest := fun e => by rw [abs_of_pos (by linarith)]; exact hn e
  below := fun h => absurd h hm
  above := fun _ => h0.le

/-- Whether `roundUnits` takes the next unit: `t` whole units of 2^sh, a remainder, more below it or not (R73, R74). -/
def roundsUp (mode : Nat) (neg : Bool) (sh t rem : Nat) (sticky : Bool) (st : Word) : Bool :=
  if mode = RNE then sh ≠ 0 && (rem > 2 ^ (sh - 1) || (rem = 2 ^ (sh - 1) && (sticky || t % 2 = 1)))
  else if mode = RD then neg && (rem ≠ 0 || sticky)
  else if mode = RU then !neg && (rem ≠ 0 || sticky)
  else if mode = SR then (if sh ≥ 32 then rem / 2 ^ (sh - 32) else rem * 2 ^ (32 - sh)) + st.toNat ≥ 2 ^ 32
  else false

theorem ite_succ (b : Bool) (t : Nat) : (if b = true then t + 1 else t) = t + b.toNat := by cases b <;> rfl

theorem roundUnits_shift (mode : Nat) (neg : Bool) (x : Mag) {q : ℤ} (st : Word) (h : x.e < q) {sh : Nat}
    (hs : (q - x.e).toNat = sh) :
    (roundUnits mode neg x q st).t =
        x.m / 2 ^ sh + (roundsUp mode neg sh (x.m / 2 ^ sh) (x.m % 2 ^ sh) x.sticky st).toNat ∧
      (roundUnits mode neg x q st).inexact = (x.m % 2 ^ sh ≠ 0 || x.sticky) := by
  have hq : ¬x.e ≥ q := by omega
  simp only [roundUnits, hs, hq, if_false, roundsUp]
  exact ⟨ite_succ _ _, trivial⟩

theorem roundUnits_whole (mode : Nat) (neg : Bool) (x : Mag) {q : ℤ} (st : Word) (h : q ≤ x.e) (hx : x.sticky = false) :
    (roundUnits mode neg x q st).t = x.m * 2 ^ (x.e - q).toNat ∧ (roundUnits mode neg x q st).inexact = false := by
  have hs : (q - x.e).toNat = 0 := by omega
  have hst := st.isLt
  have hq : x.e ≥ q := h
  simp [roundUnits, hs, hq, hx, hst]

/-- Nothing remains: no mode takes the next unit. -/
theorem roundsUp_exact (mode : Nat) (neg : Bool) (sh t : Nat) (st : Word) : roundsUp mode neg sh t 0 false st = false := by
  have := st.isLt
  have h2 := Nat.two_pow_pos (sh - 1)
  simp [roundsUp, this, h2.ne]

theorem roundsUp_rz (neg : Bool) (sh t rem : Nat) (sticky : Bool) (st : Word) :
    roundsUp RZ neg sh t rem sticky st = false := by
  simp [roundsUp]

theorem roundsUp_rd (neg : Bool) (sh t rem : Nat) (sticky : Bool) (st : Word) :
    roundsUp RD neg sh t rem sticky st = (neg && (rem ≠ 0 || sticky)) := by
  simp [roundsUp]

theorem roundsUp_ru (neg : Bool) (sh t rem : Nat) (sticky : Bool) (st : Word) :
    roundsUp RU neg sh t rem sticky st = (!neg && (rem ≠ 0 || sticky)) := by
  simp [roundsUp]

theorem roundsUp_rne (neg : Bool) {sh : Nat} (h : sh ≠ 0) (t rem : Nat) (sticky : Bool) (st : Word) :
    roundsUp RNE neg sh t rem sticky st = true ↔
      2 ^ (sh - 1) < rem ∨ (rem = 2 ^ (sh - 1) ∧ (sticky = true ∨ t % 2 = 1)) := by
  simp [roundsUp, h]

/-- The remainder against half a unit, where it decides rounding to nearest even. -/
theorem roundsUp_nearest (neg : Bool) {sh : Nat} (h : sh ≠ 0) (t rem : Nat) {sticky : Bool} (st : Word) {d : ℝ} (h0 : 0 ≤ d)
    (h1 : d < 1) (hd : sticky = true ↔ d ≠ 0) :
    if roundsUp RNE neg sh t rem sticky st = true
    then 1 / 2 ≤ ((rem : ℝ) + d) / 2 ^ sh ∧ (((rem : ℝ) + d) / 2 ^ sh = 1 / 2 → t % 2 = 1)
    else ((rem : ℝ) + d) / 2 ^ sh ≤ 1 / 2 ∧ (((rem : ℝ) + d) / 2 ^ sh = 1 / 2 → t % 2 = 0) := by
  simp only [roundsUp_rne neg h]
  obtain ⟨k, rfl⟩ := Nat.exists_eq_succ_of_ne_zero h
  have hp : (0:ℝ) < 2 ^ k := by positivity
  have half : ((rem : ℝ) + d) / 2 ^ (k + 1) = ((rem : ℝ) + d) / 2 ^ k * (1 / 2) := by rw [pow_succ]; field_simp
  have hle : 1 / 2 ≤ ((rem : ℝ) + d) / 2 ^ k * (1 / 2) ↔ (2:ℝ) ^ k ≤ rem + d := by
    rw [← one_le_div hp]; constructor <;> intro <;> linarith
  have hge : ((rem : ℝ) + d) / 2 ^ k * (1 / 2) ≤ 1 / 2 ↔ (rem + d : ℝ) ≤ 2 ^ k := by
    rw [← div_le_one hp]; constructor <;> intro <;> linarith
  have heq : ((rem : ℝ) + d) / 2 ^ k * (1 / 2) = 1 / 2 ↔ (rem + d : ℝ) = 2 ^ k := by
    rw [le_antisymm_iff, hle, hge, ← le_antisymm_iff]
  simp only [Nat.succ_eq_add_one, Nat.add_sub_cancel, half, hle, hge, heq]
  rcases lt_trichotomy rem (2 ^ k) with hr | rfl | hr
  · have : (rem : ℝ) + 1 ≤ 2 ^ k := by exact_mod_cast hr
    rw [if_neg (by omega)]
    exact ⟨by linarith, fun e => by linarith⟩
  · push_cast
    by_cases hs : sticky = true
    · rw [if_pos (by simp [hs])]
      exact ⟨by linarith, fun e => absurd (by linarith) (hd.1 hs)⟩
    · have : d = 0 := by simpa [hs] using hd
      split
      · exact ⟨by linarith, fun _ => by simp_all⟩
      · exact ⟨by linarith, fun _ => by simp_all⟩
  · have : (2:ℝ) ^ k + 1 ≤ rem := by exact_mod_cast hr
    rw [if_pos (by omega)]
    exact ⟨by linarith, fun e => by linarith⟩

/-- A magnitude in units of 2^q, where the bits below them are `sh`: whole units, and a remainder with what lies below it. -/
theorem Mag.Holds.units {x : Mag} {r : ℝ} (h : x.Holds r) {q : ℤ} {sh : Nat} (hq : q = x.e + sh) :
    ∃ d : ℝ, r / 2 ^ q = (x.m / 2 ^ sh : ℕ) + ((x.m % 2 ^ sh : ℕ) + d) / 2 ^ sh ∧ 0 ≤ d ∧ d < 1 ∧ (x.sticky = true ↔ d ≠ 0) := by
  obtain ⟨lo, hi, hs, -⟩ := h
  have he : (0:ℝ) < 2 ^ x.e := by positivity
  have hp : (0:ℝ) < 2 ^ sh := by positivity
  have hm : (x.m : ℝ) = 2 ^ sh * (x.m / 2 ^ sh : ℕ) + (x.m % 2 ^ sh : ℕ) := by exact_mod_cast (Nat.div_add_mod x.m (2 ^ sh)).symm
  refine ⟨r / 2 ^ x.e - x.m, ?_, ?_, ?_, ?_⟩
  · have e : ((x.m % 2 ^ sh : ℕ) : ℝ) + (r / 2 ^ x.e - x.m) = r / 2 ^ x.e - 2 ^ sh * (x.m / 2 ^ sh : ℕ) := by rw [hm]; ring
    rw [e, hq, zpow_add₀ (by norm_num), zpow_natCast]
    field_simp
    ring
  · rw [sub_nonneg, le_div_iff₀ he]; exact lo
  · rw [sub_lt_iff_lt_add', div_lt_iff₀ he]; exact hi
  · rw [hs, not_iff_not, sub_eq_zero, div_eq_iff he.ne']

/-- `roundUnits` chooses the units of its mode (R73); a magnitude with bits lost is finer than the units. -/
theorem roundUnits_roundsTo (mode : Nat) (neg : Bool) {x : Mag} {r : ℝ} (h : x.Holds r) {q : ℤ}
    (hx : x.sticky = true → x.e < q) (st : Word) : RoundsTo mode neg (r / 2 ^ q) (roundUnits mode neg x q st) := by
  rcases le_or_gt q x.e with hq | hq
  · have hs : x.sticky = false := by
      by_contra hs
      have := hx (by simpa using hs)
      omega
    obtain ⟨ht, hi⟩ := roundUnits_whole mode neg x st hq hs
    refine .exact ?_ hi
    have hr : r = x.m * 2 ^ x.e := by
      by_contra hr
      simpa [hs] using h.2.2.1.2 hr
    rw [ht, hr, eq_div_iff (by positivity), Nat.cast_mul, mul_assoc, pow_sub_mul_zpow hq]
  · obtain ⟨ht, hi⟩ := roundUnits_shift mode neg x st hq rfl
    generalize hsh : (q - x.e).toNat = sh at ht hi
    have hsh0 : sh ≠ 0 := by omega
    obtain ⟨d, hw, hd0, hd1, hds⟩ := h.units (q := q) (sh := sh) (by omega)
    generalize roundUnits mode neg x q st = u at *
    have hrem := Nat.mod_lt x.m (Nat.two_pow_pos sh)
    generalize x.m / 2 ^ sh = n, x.m % 2 ^ sh = rem at *
    rw [hw]
    have hp : (0:ℝ) < 2 ^ sh := by positivity
    have hlt : ((rem : ℝ) + d) / 2 ^ sh < 1 := by
      rw [div_lt_one hp]
      have : (rem : ℝ) + 1 ≤ 2 ^ sh := by exact_mod_cast hrem
      linarith
    by_cases hex : rem = 0 ∧ x.sticky = false
    · obtain ⟨rfl, hs⟩ := hex
      have hd : d = 0 := by simpa [hs] using hds
      rw [hs, roundsUp_exact] at ht
      exact .exact (by simp [ht, hd]) (by simpa [hs] using hi)
    · have hpos : 0 < ((rem : ℝ) + d) / 2 ^ sh := by
        refine div_pos ?_ hp
        by_cases hr : rem = 0
        · have : d ≠ 0 := hds.1 (by simpa [hr] using hex)
          have := lt_of_le_of_ne hd0 this.symm
          positivity
        · have : (1:ℝ) ≤ rem := by exact_mod_cast Nat.one_le_iff_ne_zero.2 hr
          linarith
      have hi' : u.inexact = true := by
        rw [hi]
        by_cases hr : rem = 0 <;> simp_all
      have hn := roundsUp_nearest neg hsh0 n rem st hd0 hd1 hds
      generalize ((rem : ℝ) + d) / 2 ^ sh = frac at *
      cases hup : roundsUp mode neg sh n rem x.sticky st with
      | true =>
        rw [hup] at ht
        refine .up (by simp [ht]; linarith) (by simp [ht]; linarith) hi' ?_ ?_
        · rintro rfl
          rw [if_pos hup] at hn
          simp only [ht, Bool.toNat_true, Nat.cast_add, Nat.cast_one]
          exact ⟨by linarith, fun e => by have := hn.2 (by linarith); omega⟩
        · rintro (rfl | ⟨rfl, rfl⟩ | ⟨rfl, rfl⟩) <;> simp [roundsUp] at hup
      | false =>
        rw [hup] at ht
        refine .down (by simp [ht]; linarith) (by simp [ht]; linarith) hi' ?_ ?_
        · rintro rfl
          rw [if_neg (by simp [hup])] at hn
          simpa [ht] using hn
        · rintro (⟨rfl, rfl⟩ | ⟨rfl, rfl⟩) <;> simp [roundsUp_rd, roundsUp_ru] at hup <;> exact hex hup

/-- What lies at or outside the two neighbouring units of a magnitude is no nearer to it than the units chosen (R73). -/
theorem RoundsTo.neighbour {mode : Nat} {neg : Bool} {w : ℝ} {u : Units} (h : RoundsTo mode neg w u) {y : ℝ}
    (hy : ∀ n : ℕ, (n : ℝ) ≤ w → w < n + 1 → y ≤ n ∨ n + 1 ≤ y) (hw : 0 ≤ w) :
    ¬(u.t < y ∧ y ≤ w) ∧ ¬(w ≤ y ∧ y < u.t) ∧
      (mode = RNE → |u.t - w| ≤ |y - w| ∧ (|u.t - w| = |y - w| → y = u.t ∨ u.t % 2 = 0)) := by
  obtain ⟨lo, hi⟩ := abs_lt.1 h.near
  rcases le_or_gt (u.t : ℝ) w with ht | ht
  · have hy := hy u.t ht (by linarith)
    refine ⟨fun ⟨h1, h2⟩ => ?_, fun ⟨h1, h2⟩ => by linarith, fun e => ?_⟩
    · rcases hy with hy | hy <;> linarith
    · obtain ⟨near, tie⟩ := h.nearest e
      rw [abs_sub_comm, abs_of_nonneg (by linarith)] at near tie ⊢
      rcases hy with hy | hy
      · rw [abs_sub_comm, abs_of_nonneg (by linarith)]
        exact ⟨by linarith, fun e => .inl (by linarith)⟩
      · rw [abs_of_nonneg (by linarith)]
        exact ⟨by linarith, fun e => .inr (tie (by linarith))⟩
  · obtain ⟨n, hn⟩ : ∃ n, u.t = n + 1 := Nat.exists_eq_succ_of_ne_zero fun e => by rw [e] at ht; simp at ht; linarith
    have hc : (u.t : ℝ) = n + 1 := by rw [hn]; push_cast; rfl
    have hy := hy n (by linarith) (by linarith)
    rw [← hc] at hy
    refine ⟨fun ⟨h1, h2⟩ => by linarith, fun ⟨h1, h2⟩ => ?_, fun e => ?_⟩
    · rcases hy with hy | hy <;> linarith
    · obtain ⟨near, tie⟩ := h.nearest e
      rw [abs_of_pos (by linarith)] at near tie ⊢
      rcases hy with hy | hy
      · rw [abs_sub_comm, abs_of_nonneg (by linarith)]
        exact ⟨by linarith, fun e => .inr (tie (by linarith))⟩
      · rw [abs_of_nonneg (by linarith)]
        exact ⟨by linarith, fun e => .inl (by linarith)⟩

/-! ### The patterns of a format (R65, R66) -/

/-- The magnitude of a pattern, in units of the least subnormal number of the format. -/
def FloatFmt.steps (f : FloatFmt) (p : Nat) : Nat :=
  if p / 2 ^ f.m = 0 then p else (2 ^ f.m + p % 2 ^ f.m) * 2 ^ (p / 2 ^ f.m - 1)

/-- `t` units of 2^k: what the patterns from the start of a binade up to that of the next stand for. -/
theorem FloatFmt.steps_eq (f : FloatFmt) {k t : Nat} (ht : t ≤ 2 ^ (f.m + 1)) (hk : k = 0 ∨ 2 ^ f.m ≤ t) :
    f.steps (k * 2 ^ f.m + t) = t * 2 ^ k := by
  have hp := Nat.two_pow_pos f.m
  unfold FloatFmt.steps
  rw [pow_succ] at ht
  generalize hM : 2 ^ f.m = M at *
  rcases lt_trichotomy t M with h | rfl | h
  · obtain rfl : k = 0 := hk.resolve_right (by omega)
    simp [Nat.div_eq_of_lt h]
  · have : k * t + t = t * (k + 1) := by ring
    simp [this, hp.ne']
  · rcases Nat.lt_or_ge t (2 * M) with h2 | h2
    · have hd : (k * M + t) / M = k + 1 := by
        have e : (k + 1) * M = k * M + M := by ring
        rw [Nat.div_eq_iff hp]; omega
      have hr : (k * M + t) % M = t - M := by
        have := Nat.div_add_mod (k * M + t) M
        rw [hd] at this
        have e : M * (k + 1) = k * M + M := by ring
        omega
      rw [hd, hr, if_neg (by omega)]
      simp only [Nat.add_sub_cancel]
      congr 1; omega
    · obtain rfl : t = 2 * M := by omega
      have : k * M + 2 * M = M * (k + 2) := by ring
      rw [this, Nat.mul_div_cancel_left _ hp, Nat.mul_mod_right, if_neg (by omega), show k + 2 - 1 = k + 1 by omega, pow_succ]
      ring

/-- Greater patterns are greater numbers. -/
theorem FloatFmt.steps_strictMono (f : FloatFmt) : StrictMono f.steps := by
  refine strictMono_nat_of_lt_succ fun p => ?_
  have hp := Nat.two_pow_pos f.m
  have hs : 2 ^ (f.m + 1) = 2 ^ f.m + 2 ^ f.m := by rw [pow_succ]; ring
  have hlt := Nat.mod_lt p hp
  have hdm := Nat.div_add_mod' p (2 ^ f.m)
  rcases Nat.eq_zero_or_pos (p / 2 ^ f.m) with h | h
  · rw [h] at hdm
    have h1 := f.steps_eq (k := 0) (t := p) (by omega) (.inl rfl)
    have h2 := f.steps_eq (k := 0) (t := p + 1) (by omega) (.inl rfl)
    simp only [zero_mul, zero_add, pow_zero, mul_one] at h1 h2
    omega
  · obtain ⟨k, hk⟩ := Nat.exists_eq_succ_of_ne_zero h.ne'
    rw [hk, Nat.succ_eq_add_one, add_mul, one_mul] at hdm
    have h1 := f.steps_eq (k := k) (t := 2 ^ f.m + p % 2 ^ f.m) (by omega) (.inr (by omega))
    have h2 := f.steps_eq (k := k) (t := 2 ^ f.m + p % 2 ^ f.m + 1) (by omega) (.inr (by omega))
    rw [show p = k * 2 ^ f.m + (2 ^ f.m + p % 2 ^ f.m) by omega, h1, add_assoc, h2]
    exact Nat.mul_lt_mul_of_pos_right (Nat.lt_succ_self _) (Nat.two_pow_pos k)

/-- No pattern stands for a number between two neighbouring units of 2^k. -/
theorem FloatFmt.steps_apart (f : FloatFmt) {k n : Nat} (hn : n + 1 ≤ 2 ^ (f.m + 1)) (hk : k = 0 ∨ 2 ^ f.m ≤ n) (p : Nat) :
    f.steps p ≤ n * 2 ^ k ∨ (n + 1) * 2 ^ k ≤ f.steps p := by
  rw [← f.steps_eq (by omega : n ≤ _) hk, ← f.steps_eq hn (hk.imp_right (by omega)), f.steps_strictMono.le_iff_le,
    f.steps_strictMono.le_iff_le]
  omega

/-- The units of the binade `k`: those of the first binade are the least subnormal number. -/
noncomputable def FloatFmt.unit (f : FloatFmt) (k : Nat) : ℝ := 2 ^ ((k : ℤ) + 1 - f.bias - f.m)

theorem FloatFmt.unit_pos (f : FloatFmt) (k : Nat) : 0 < f.unit k := by unfold FloatFmt.unit; positivity

theorem FloatFmt.unit_eq (f : FloatFmt) (k : Nat) : f.unit k = 2 ^ k * f.unit 0 := by
  unfold FloatFmt.unit
  rw [← zpow_natCast, ← zpow_add₀ (by norm_num)]
  congr 1; push_cast; ring

/-- A pattern that is no infinity or NaN of its format. -/
def FloatFmt.Finite (f : FloatFmt) (p : Nat) : Prop :=
  p < 2 ^ f.signBit ∧ (f.kind = .ieee → p / 2 ^ f.m ≠ 2 ^ f.e - 1) ∧
    (f.kind = .e4m3 → ¬(p / 2 ^ f.m = 2 ^ f.e - 1 ∧ p % 2 ^ f.m = 7))

/-- The patterns up to the largest finite one are finite (R65). -/
theorem Ty.finite_of_le_maxBits (ty : Ty) {p : Nat} (h : p ≤ ty.floatFmt.maxBits) : ty.floatFmt.Finite p := by
  cases ty <;>
    simp only [Ty.floatFmt, FloatFmt.maxBits, FloatFmt.infBits, FloatFmt.Finite, FloatFmt.signBit] at h ⊢ <;>
    simp <;> omega

/-- The real number of a finite pattern without its sign. -/
theorem FloatFmt.Finite.real {f : FloatFmt} {p : Nat} (h : f.Finite p) (k : Nat) :
    (f.unpack p).real = f.steps p / 2 ^ k * f.unit k := by
  obtain ⟨hlt, hi, he⟩ := h
  have hs : p / 2 ^ f.signBit = 0 := Nat.div_eq_of_lt hlt
  have hx : p / 2 ^ f.m % 2 ^ f.e = p / 2 ^ f.m := by
    refine Nat.mod_eq_of_lt (Nat.div_lt_of_lt_mul ?_)
    rwa [← pow_add, add_comm]
  rw [f.unit_eq, ← mul_assoc, div_mul_cancel₀ _ (by positivity)]
  simp only [FloatFmt.unpack, FloatFmt.steps, hs, hx]
  rw [if_neg (by simpa using hi), if_neg (by simpa using he)]
  by_cases h0 : p / 2 ^ f.m = 0
  · have : p % 2 ^ f.m = p := Nat.mod_eq_of_lt (by have := Nat.div_eq_zero_iff.1 h0; have := Nat.two_pow_pos f.m; omega)
    simp [h0, FVal.real, FloatFmt.unit, this]
  · obtain ⟨j, hj⟩ := Nat.exists_eq_succ_of_ne_zero h0
    have he : (2:ℝ) ^ ((j : ℤ) + 1 - f.bias - f.m) = 2 ^ j * f.unit 0 := f.unit_eq j
    simp only [hj, Nat.succ_eq_add_one, Nat.add_one_ne_zero, if_false, FVal.real, Nat.add_sub_cancel]
    push_cast
    rw [he]
    simp
    ring

/-! ### Rounding to a format (R73, R76, R79) -/

/-- The leading bit of a nonzero magnitude. -/
theorem Mag.Holds.top {x : Mag} {q : ℝ} (h : x.Holds q) (h0 : 0 < q) :
    x.m ≠ 0 ∧ (2:ℝ) ^ (x.e + bitLength x.m - 1) ≤ q ∧ q < 2 ^ (x.e + bitLength x.m) ∧ (x.sticky = true → 64 < bitLength x.m) := by
  obtain ⟨lo, hi, hs, h64⟩ := h
  have hm : x.m ≠ 0 := by
    intro hm
    by_cases hx : x.sticky = true
    · have := h64 hx; omega
    · have : q = 0 := by simpa [hm] using fun h => hx (hs.2 h)
      exact h0.ne' this
  have hp : (0:ℝ) < 2 ^ x.e := by positivity
  have hle := bitLength_le x.m hm
  have hlt := bitLength_lt x.m
  have hb : bitLength x.m ≠ 0 := by unfold bitLength; simp [hm]
  refine ⟨hm, ?_, ?_, fun hx => ?_⟩
  · refine le_trans ?_ lo
    rw [show x.e + (bitLength x.m : ℤ) - 1 = ((bitLength x.m - 1 : ℕ) : ℤ) + x.e by omega, zpow_add₀ (by norm_num), zpow_natCast]
    exact mul_le_mul_of_nonneg_right (by exact_mod_cast hle) hp.le
  · refine lt_of_lt_of_le hi ?_
    rw [add_comm x.e, zpow_add₀ (by norm_num), zpow_natCast]
    exact mul_le_mul_of_nonneg_right (by exact_mod_cast hlt) hp.le
  · exact (Nat.pow_lt_pow_iff_right (by norm_num)).1 ((h64 hx).trans_lt hlt)

/-- Flags, an overflow to infinity, and the pattern that a format gives a magnitude rounded to `t` units of the binade `k`. -/
def FloatFmt.place (f : FloatFmt) (mode : Nat) (sat neg : Bool) (k : Nat) (u : Units) (small : Bool) : FRes :=
  if k * 2 ^ f.m + u.t > f.maxBits then
    if f.kind = .ieee && f.m ≠ 2 && !sat && (mode = RNE || mode = SR || (mode = RU && !neg) || (mode = RD && neg)) then
      { bits := f.signed neg f.infBits, flags := flagOF ||| flagNX, st := u.st }
    else { bits := f.signed neg f.maxBits, flags := flagOF ||| flagNX ||| flagSATF, st := u.st }
  else
    { bits := f.signed neg (k * 2 ^ f.m + u.t), flags := flagIf u.inexact flagNX ||| flagIf (u.inexact && small) flagUF, st := u.st }

/-- A magnitude lies in a binade, or below the normal numbers in the first. -/
structure FloatFmt.InBinade (f : FloatFmt) (q : ℝ) (k : Nat) : Prop where
  lo : k = 0 ∨ (2 : ℝ) ^ f.m ≤ q / f.unit k
  hi : q / f.unit k < 2 ^ (f.m + 1)

/-- `round` of a positive magnitude: the binade, the units, the pattern (R73, R76). -/
theorem FloatFmt.round_place (f : FloatFmt) (hf : f.m < 64) (mode : Nat) (sat neg : Bool) {x : Mag} {q : ℝ} (st : Word)
    (h : x.Holds q) (h0 : 0 < q) :
    ∃ (k : Nat) (u : Units) (small : Bool), f.round mode sat neg x st = f.place mode sat neg k u small ∧
      RoundsTo mode neg (q / f.unit k) u ∧ f.InBinade q k ∧ (small = true ↔ q < 2 ^ (1 - (f.bias : ℤ))) := by
  obtain ⟨hm, lo, hi, hs⟩ := h.top h0
  generalize hT : x.e + (bitLength x.m : ℤ) - 1 = top at lo
  have hi : q < 2 ^ (top + 1) := by rwa [show top + 1 = x.e + bitLength x.m by omega]
  obtain ⟨k, hk⟩ : ∃ k : ℕ, max top (1 - (f.bias : ℤ)) = k + 1 - f.bias :=
    ⟨(max top (1 - (f.bias : ℤ)) + f.bias - 1).toNat, by omega⟩
  have hq : max top (1 - (f.bias : ℤ)) - f.m = (k : ℤ) + 1 - f.bias - f.m := by omega
  refine ⟨k, roundUnits mode neg x ((k : ℤ) + 1 - f.bias - f.m) st, decide (top < 1 - (f.bias : ℤ)), ?_, ?_, ⟨?_, ?_⟩, ?_⟩
  · have hb : ((k : ℤ) + 1 - f.bias - f.m + f.m + f.bias - 1).toNat = k := by omega
    simp only [FloatFmt.round, hT, hq, hb]
    rw [if_neg (by simp [hm])]
    rfl
  · refine roundUnits_roundsTo mode neg h (fun hx => ?_) st
    have := hs hx
    omega
  · by_cases hk0 : k = 0
    · exact .inl hk0
    · refine .inr ?_
      rw [le_div_iff₀ (f.unit_pos k), FloatFmt.unit, ← zpow_natCast, ← zpow_add₀ (by norm_num),
        show (f.m : ℤ) + (k + 1 - f.bias - f.m) = top by omega]
      exact lo
  · rw [div_lt_iff₀ (f.unit_pos k), FloatFmt.unit, ← zpow_natCast, ← zpow_add₀ (by norm_num)]
    refine hi.trans_le (zpow_le_zpow_right₀ (by norm_num) ?_)
    push_cast; omega
  · rw [decide_eq_true_eq]
    refine ⟨fun ht => hi.trans_le (zpow_le_zpow_right₀ (by norm_num) (by omega)), fun hlt => ?_⟩
    by_contra ht
    exact absurd (hlt.trans_le (zpow_le_zpow_right₀ (by norm_num) (not_lt.1 ht))) (not_lt.2 lo)

/-- No pattern lies between the two units around a magnitude in its binade. -/
theorem FloatFmt.InBinade.apart {f : FloatFmt} {q : ℝ} {k : Nat} (hb : f.InBinade q k) (p n : Nat)
    (hn : (n : ℝ) ≤ q / f.unit k) (hn' : q / f.unit k < n + 1) :
    (f.steps p / 2 ^ k : ℝ) ≤ n ∨ (n : ℝ) + 1 ≤ f.steps p / 2 ^ k := by
  have hp : (0:ℝ) < 2 ^ k := by positivity
  rw [div_le_iff₀ hp, le_div_iff₀ hp]
  have h1 : n + 1 ≤ 2 ^ (f.m + 1) := by
    have : (n : ℝ) < (2 ^ (f.m + 1) : ℕ) := by push_cast; linarith [hb.hi]
    exact_mod_cast this
  have h2 : k = 0 ∨ 2 ^ f.m ≤ n := hb.lo.imp_right fun h => by
    have : ((2 ^ f.m : ℕ) : ℝ) < (n + 1 : ℕ) := by push_cast; linarith
    exact Nat.lt_succ_iff.1 (by exact_mod_cast this)
  exact_mod_cast f.steps_apart h1 h2 p

section
variable {f : FloatFmt} {mode k : Nat} {neg : Bool} {q : ℝ} {u : Units}

/-- The pattern of the rounded number: its units lie in the range of the binade, whose upper end is the next one's start. -/
theorem FloatFmt.InBinade.steps (hb : f.InBinade q k) (hr : RoundsTo mode neg (q / f.unit k) u) :
    f.steps (k * 2 ^ f.m + u.t) = u.t * 2 ^ k := by
  obtain ⟨lo, hi⟩ := abs_lt.1 hr.near
  refine f.steps_eq ?_ (hb.lo.imp_right fun h => ?_)
  · have : (u.t : ℝ) < (2 ^ (f.m + 1) + 1 : ℕ) := by push_cast; linarith [hb.hi]
    exact Nat.lt_succ_iff.1 (by exact_mod_cast this)
  · have : ((2 ^ f.m : ℕ) : ℝ) < (u.t + 1 : ℕ) := by push_cast; linarith
    exact Nat.lt_succ_iff.1 (by exact_mod_cast this)

/-- The rounded number in units of its binade. -/
theorem FloatFmt.InBinade.units (hb : f.InBinade q k) (hr : RoundsTo mode neg (q / f.unit k) u) :
    (f.steps (k * 2 ^ f.m + u.t) / 2 ^ k : ℝ) = u.t := by
  rw [hb.steps hr]
  push_cast
  field_simp

end

/-- The flags of a result in range: NX where it is inexact, UF where the number is small too. -/
theorem flags_inRange (inexact small : Bool) :
    let fl := flagIf inexact flagNX ||| flagIf (inexact && small) flagUF
    fl &&& flagOF = 0 ∧ (fl &&& flagNX ≠ 0 ↔ inexact = true) ∧ (fl &&& flagUF ≠ 0 ↔ inexact = true ∧ small = true) := by
  cases inexact <;> cases small <;> decide

section
variable {f : FloatFmt} {mode k : Nat} {neg : Bool} {q : ℝ} {u : Units}

/-- Over its largest finite pattern the format has only smaller numbers than the magnitude (R73, R79). -/
theorem FloatFmt.InBinade.overflow (hb : f.InBinade q k) (hr : RoundsTo mode neg (q / f.unit k) u) (h0 : 0 < q)
    (hover : f.maxBits < k * 2 ^ f.m + u.t) : f.steps f.maxBits / 2 ^ k * f.unit k < q := by
  have hc := f.unit_pos k
  obtain ⟨-, above, -⟩ := hr.neighbour (hb.apart f.maxBits) (by positivity)
  have hlt : (f.steps f.maxBits / 2 ^ k : ℝ) < u.t := by
    rw [← hb.units hr]
    exact div_lt_div_of_pos_right (by exact_mod_cast f.steps_strictMono hover) (by positivity)
  rw [← lt_div_iff₀ hc]
  exact not_le.1 fun h => above ⟨h, hlt⟩

end

theorem abs_mul_sub_mul {a b c : ℝ} (hc : 0 < c) : |a * c - b * c| = |a - b| * c := by
  rw [← sub_mul, abs_mul, abs_of_pos hc]

/-- Settles O6: the magnitude is rounded to units of its binade, which are patterns next to one another. -/
theorem roundingModes : Obligations.RoundingModes := by
  intro ty mode sat neg x q st hty hmode h0 hx f r value
  have hm : 1 ≤ f.m ∧ f.m < 64 ∧ (f.m = 2 → f.kind = .ieee → ty = .e5m2) ∧ (ty = .e5m2 → f.m = 2) := by
    cases ty <;> simp [f, Ty.floatFmt]
  obtain ⟨hm1, hm64, he5, he5'⟩ := hm
  obtain ⟨k, u, small, hplace, hr, hb, hsmall⟩ := f.round_place hm64 mode sat neg st hx h0
  have hc := f.unit_pos k
  have hv : ∀ p, p ≤ f.maxBits → value p = f.steps p / 2 ^ k * f.unit k := fun p hp => (ty.finite_of_le_maxBits hp).real k
  by_cases hover : k * 2 ^ f.m + u.t ≤ f.maxBits
  · have hres : r = _ := hplace.trans (if_neg (not_lt.2 hover))
    obtain ⟨hof, hnx, huf⟩ := flags_inRange u.inexact small
    generalize flagIf u.inexact flagNX ||| flagIf (u.inexact && small) flagUF = fl at *
    rw [hres, if_pos hof]
    have hvp := hv _ hover
    rw [hb.units hr] at hvp
    obtain ⟨w, rfl⟩ : ∃ w, q = w * f.unit k := ⟨q / f.unit k, (div_mul_cancel₀ _ hc.ne').symm⟩
    have hu := hb.units hr
    have hnear := fun p => hr.neighbour (hb.apart p) (by positivity)
    simp only [mul_div_cancel_right₀ _ hc.ne'] at hr hnear
    simp only [hnx, huf, hr.inexact, hsmall]
    refine ⟨_, hover, rfl, fun p hp => ?_, fun h => ?_, fun h => ?_, fun h p hp => ?_, ?_, ?_⟩
    · simp only [hvp, hv p hp, mul_lt_mul_iff_of_pos_right hc, mul_le_mul_iff_of_pos_right hc]
      exact ⟨(hnear p).1, (hnear p).2.1⟩
    · rw [hvp]; exact mul_le_mul_of_nonneg_right (hr.below h) hc.le
    · rw [hvp]; exact mul_le_mul_of_nonneg_right (hr.above h) hc.le
    · obtain ⟨near, tie⟩ := (hnear p).2.2 h
      simp only [hvp, hv p hp, abs_mul_sub_mul hc]
      refine ⟨mul_le_mul_of_nonneg_right near hc.le, fun e => (tie (mul_right_cancel₀ hc.ne' e)).imp (fun e => ?_) fun e => ?_⟩
      · rw [← hu, div_left_inj' (by positivity)] at e
        exact f.steps_strictMono.injective (by exact_mod_cast e)
      · obtain ⟨j, hj⟩ := Nat.exists_eq_succ_of_ne_zero (by omega : f.m ≠ 0)
        rw [hj, Nat.succ_eq_add_one, pow_succ, ← mul_assoc]
        omega
    · rw [hvp, Ne, Ne, mul_left_inj' hc.ne']
    · rw [hvp, Ne, Ne, mul_left_inj' hc.ne']
  · have hlt : value f.maxBits < q := by
      rw [hv _ le_rfl]
      exact hb.overflow hr h0 (not_le.1 hover)
    have hres : r = _ := hplace.trans (if_pos (not_le.1 hover))
    have hto : (f.kind = .ieee && f.m ≠ 2 && !sat &&
        (mode = RNE || mode = SR || (mode = RU && !neg) || (mode = RD && neg))) = true ↔
        f.kind = .ieee ∧ ty ≠ .e5m2 ∧ sat = false ∧
          (mode = RNE ∨ mode = SR ∨ (mode = RU ∧ neg = false) ∨ (mode = RD ∧ neg = true)) := by
      simp
      tauto
    rw [hres]
    by_cases h : (f.kind = .ieee ∧ ty ≠ .e5m2 ∧ sat = false ∧
          (mode = RNE ∨ mode = SR ∨ (mode = RU ∧ neg = false) ∨ (mode = RD ∧ neg = true)))
    · rw [if_pos (hto.2 h), if_neg (by dsimp only; decide), if_pos h]
      exact ⟨hlt, by dsimp only; decide, rfl, by dsimp only; decide⟩
    · rw [if_neg (fun e => h (hto.1 e)), if_neg (by dsimp only; decide), if_neg h]
      exact ⟨hlt, by dsimp only; decide, rfl, by dsimp only; decide⟩

end Sys2Proof
end

section
/-! SUPPORT. Conversions between number formats (R70, R71, R77, R78): what `convertElement` gives for every pair of types. -/

namespace Sys2Proof

/-! ### Integers -/

/-- The clamp of a type changes exactly the numbers outside it (R78). -/
theorem Ty.minInt_le_maxInt (t : Ty) : t.minInt ≤ t.maxInt := by cases t <;> decide

theorem Ty.clamp_ne (t : Ty) (n : ℤ) : max t.minInt (min t.maxInt n) ≠ n ↔ n < t.minInt ∨ t.maxInt < n := by
  have := t.minInt_le_maxInt
  omega

/-- An integer element is the integer its pattern stands for (R70). -/
theorem Ty.toInt_eq_asInt (t : Ty) (x : Nat) : t.toInt x = Machine.asInt t (BitVec.ofNat t.bits x) := by
  unfold Ty.toInt Machine.asInt
  cases t.isSigned
  · simp
  · have hp : 2 ^ t.bits = 2 * 2 ^ (t.bits - 1) := by
      rw [← pow_succ', Nat.sub_add_cancel t.bits_pos]
    simp only [Bool.true_and, decide_eq_true_eq, if_true, BitVec.toInt_eq_toNat_cond, BitVec.toNat_ofNat]
    split <;> split <;> omega

/-- An integer rounded, or wrapped or clamped into a type (R78). -/
theorem Source.convert_int (n : ℤ) (dt : Ty) (mode : Nat) (sat : Bool) (st : Word) :
    dt.IsConvertedInt mode sat n st ((Source.i n).convert dt mode sat st) := by
  unfold Ty.IsConvertedInt Source.convert
  dsimp only
  split
  · split
    · next h => subst h; rfl
    · next h =>
      refine ⟨{ m := n.natAbs, e := 0 }, decide (n < 0), ?_, by simp, rfl⟩
      have := Mag.holds_exact n.natAbs 0
      rwa [zpow_zero, mul_one, Nat.cast_natAbs, Int.cast_abs] at this
  · unfold Ty.fromInt
    cases sat
    · simp [Machine.wrapInt_eq]
    · simp only [flagIf, decide_eq_true_eq, dt.clamp_ne, Machine.wrapInt_eq, if_true, and_self]

/-! ### Floating point to floating point -/

/-- A finite nonzero value is a sign and an exact magnitude. -/
theorem FloatFmt.round_num (f : FloatFmt) (mode : Nat) (sat neg : Bool) {m : Nat} (hm : m ≠ 0) (e : ℤ) (st : Word) :
    f.RoundOf mode sat (FVal.num neg m e).real st (f.round mode sat neg { m := m, e := e } st) := by
  have hp : (0:ℝ) < m * 2 ^ e := by
    have : (0:ℝ) < m := by exact_mod_cast Nat.pos_of_ne_zero hm
    positivity
  refine ⟨{ m := m, e := e }, neg, ?_, ?_, rfl⟩
  · have := Mag.holds_exact m e
    cases neg <;> simpa [FVal.real, abs_of_pos hp, abs_neg] using this
  · cases neg <;> simp [FVal.real] <;> linarith

/-- A float value in another float format (R77, R78). -/
theorem FloatFmt.convert_isConverted (f : FloatFmt) (mode : Nat) (sat : Bool) (v : FVal) (st : Word) :
    f.IsConverted mode sat v st (f.convert mode sat v st) := by
  cases v with
  | nan sig =>
    unfold FloatFmt.IsConverted FloatFmt.convert FloatFmt.special FloatFmt.IsSpecial
    simp only [FVal.isNan, true_or, if_true]
    cases hk : f.kind <;> simp [FloatFmt.nanBits, hk, flagIf]
  | inf neg =>
    unfold FloatFmt.IsConverted FloatFmt.convert FloatFmt.special FloatFmt.IsSpecial
    simp only [FVal.isInf, or_true, if_true]
    cases hk : f.kind <;> cases sat <;> simp
  | num neg m e =>
    unfold FloatFmt.IsConverted FloatFmt.convert
    simp only [FVal.isNan, FVal.isInf, FVal.isZero, Bool.false_eq_true, or_self, if_false, decide_eq_true_eq]
    split
    · next h => subst h; rfl
    · next h => exact f.round_num mode sat neg h e st

/-! ### Floating point to integers -/

/-- The units a mode chooses for a magnitude are, with its sign, the integral value it chooses (R73, R226). -/
theorem RoundsTo.integral {mode : Nat} {neg : Bool} {w : ℝ} {u : Units} (h : RoundsTo mode neg w u) (hw : 0 ≤ w) :
    Integral mode (if neg then -w else w) (if neg then -(u.t : ℤ) else u.t) := by
  obtain ⟨lo, hi⟩ := abs_lt.1 h.near
  have hdist : |((if neg then -(u.t : ℤ) else u.t : ℤ) : ℝ) - (if neg then -w else w)| = |(u.t : ℝ) - w| := by
    cases neg
    · simp
    · simp only [if_true]; push_cast; rw [← abs_neg]; congr 1; ring
  refine ⟨fun e => ?_, fun e => ?_, fun e => ?_, fun e => ?_, fun _ => ?_⟩
  · rw [hdist]
    refine ⟨(h.nearest e).1, fun tie => ?_⟩
    have := (h.nearest e).2 tie
    cases neg <;> simp <;> omega
  · rw [hdist]
    have hb := h.below (.inl e)
    refine ⟨?_, h.near, ?_⟩
    · cases neg <;> simpa [abs_of_nonneg hw] using hb
    · cases neg <;> simp <;> positivity
  · rw [eq_comm, Int.floor_eq_iff]
    cases neg
    · have := h.below (.inr (.inl ⟨e, rfl⟩)); simp; constructor <;> linarith
    · have := h.above (.inl ⟨e, rfl⟩); simp; constructor <;> linarith
  · rw [eq_comm, Int.ceil_eq_iff]
    cases neg
    · have := h.above (.inr ⟨e, rfl⟩); simp; constructor <;> linarith
    · have := h.below (.inr (.inr ⟨e, rfl⟩)); simp; constructor <;> linarith
  · rw [hdist]; exact h.near

/-- A float value in an integer type (R78). -/
theorem Ty.fromFloat_isConvertedFloat (t : Ty) (mode : Nat) (v : FVal) (st : Word) :
    t.IsConvertedFloat mode v (t.fromFloat mode v st) := by
  cases v with
  | nan sig => simp [Ty.IsConvertedFloat, Ty.fromFloat, FVal.isNan]
  | inf neg =>
    rw [Ty.IsConvertedFloat, if_neg (by simp [FVal.isNan]),
      if_pos (show (FVal.inf neg).isInf = true from rfl)]
    exact ⟨Machine.wrapInt_eq _ _, rfl⟩
  | num neg m e =>
    have hr := roundUnits_roundsTo mode neg (Mag.holds_exact m e) (q := 0) (by simp) st
    rw [zpow_zero, div_one] at hr
    have hi := hr.integral (by positivity)
    have hinex : (roundUnits mode neg { m := m, e := e } 0 st).inexact = true ↔
        ((if neg then -((roundUnits mode neg { m := m, e := e } 0 st).t : ℤ)
          else (roundUnits mode neg { m := m, e := e } 0 st).t : ℤ) : ℝ) ≠ (FVal.num neg m e).real := by
      rw [hr.inexact]
      cases neg <;> simp [FVal.real]
    have hreal : (FVal.num neg m e).real = if neg then -((m : ℝ) * 2 ^ e) else m * 2 ^ e := by
      cases neg <;> simp [FVal.real]
    have hle := t.minInt_le_maxInt
    rw [← hreal] at hi
    unfold Ty.IsConvertedFloat Ty.fromFloat
    simp only [FVal.isNan, FVal.isInf, Bool.false_eq_true, if_false]
    refine ⟨_, hi, ?_⟩
    generalize roundUnits mode neg { m := m, e := e } 0 st = u at *
    generalize (if neg = true then -(u.t : ℤ) else u.t) = z at *
    by_cases hlo : z < t.minInt
    · simp [hlo, Machine.wrapInt_eq, show min t.maxInt z = z by omega, show max t.minInt z = t.minInt by omega]
    · by_cases hhi : t.maxInt < z
      · simp [hlo, hhi, Machine.wrapInt_eq, show min t.maxInt z = t.maxInt by omega, show max t.minInt t.maxInt = t.maxInt by omega]
      · have hc : max t.minInt (min t.maxInt z) = z := by omega
        simp [hlo, hhi, Machine.wrapInt_eq, hc, flagIf, hinex]

/-! ### Elements -/

/-- The ternary codes (R71): 1, -1, and 0 with TERN for 0b10. -/
theorem Ty.source_t2 (x : Nat) : Ty.source .t2 x =
    (.i (if x % 4 = 1 then 1 else if x % 4 = 3 then -1 else 0), if x % 4 = 2 then flagTERN else 0) := by
  have : x % 4 < 4 := Nat.mod_lt _ (by decide)
  unfold Ty.source
  generalize x % 4 = c at *
  interval_cases c <;> rfl

theorem convertElement_t2 (dt : Ty) (mode : Nat) (sat : Bool) (x : Nat) (rs : Word) :
    let q := (Source.i (if x % 4 = 1 then 1 else if x % 4 = 3 then -1 else 0)).convert dt mode sat rs
    convertElement dt .t2 mode sat x rs = { q with flags := if x % 4 = 2 then q.flags ||| flagTERN else q.flags } := by
  unfold convertElement
  rw [Ty.source_t2]
  by_cases h : x % 4 = 2 <;> simp [h]

theorem convertElement_float (dt : Ty) {st : Ty} (h : st.isFloat = true) (mode : Nat) (sat : Bool) (x : Nat) (rs : Word) :
    convertElement dt st mode sat x rs = (Source.f (st.floatFmt.unpack (x % 2 ^ st.bits))).convert dt mode sat rs := by
  have ht : st ≠ .t2 := by rintro rfl; exact absurd h (by decide)
  simp [convertElement, Ty.source, ht, h]

theorem convertElement_int (dt : Ty) {st : Ty} (ht : st ≠ .t2) (h : ¬st.isFloat = true) (mode : Nat) (sat : Bool) (x : Nat)
    (rs : Word) : convertElement dt st mode sat x rs = (Source.i (st.toInt x)).convert dt mode sat rs := by
  simp [convertElement, Ty.source, ht, h]

/-- Every element is converted as its types say (R71, R78). -/
theorem convertElement_isConversion (dt st : Ty) (mode : Nat) (sat : Bool) (x : Nat) (rs : Word) :
    IsConversion dt st mode sat x rs (convertElement dt st mode sat x rs) := by
  unfold IsConversion
  split
  · next ht =>
    subst ht
    exact ⟨_, convertElement_t2 dt mode sat x rs, Source.convert_int _ dt mode sat rs⟩
  · next ht =>
    split
    · next hf =>
      rw [convertElement_float dt hf, Source.convert]
      split
      · exact dt.floatFmt.convert_isConverted mode sat _ rs
      · exact dt.fromFloat_isConvertedFloat mode _ rs
    · next hf =>
      rw [convertElement_int dt ht hf, ← st.toInt_eq_asInt]
      exact Source.convert_int _ dt mode sat rs

end Sys2Proof

namespace Sys2Proof.Machine

/-! ### CVT and CVTI (R228) -/

/-- Packed lanes are the elements one after another. -/
theorem packLane_eq_elements (dt st : Ty) (mode : Nat) (sat : Bool) (src : Nat → Nat) (n i : Nat) (r : Word) :
    packLane dt st mode sat src n i r = elements dt.bits (fun k => convertElement dt st mode sat (src k)) n i r := by
  induction n generalizing i r with
  | zero => rfl
  | succ n ih => simp only [packLane, elements, ih]

/-- A conversion by its variant completes with the elements converted, from the state it starts in. -/
theorem delivers_convertOp {i : Instr} {s : State} {o : Op} {x : Conv}
    (hx : exec i s = s.sequential { op := o } fun s => s.convertOp x) (hflow : s.flows = true) :
    (x.var ≠ 1 → x.var ≠ 2 → evenPair x.d x.dt.bits → Delivers i s x.d x.hdr x.dt.bits x.dt.isSigned fun j st =>
      (convertElement x.dt x.st x.rnd.toNat x.sat (s.src x.st.bits (x.st = .i64) x.a x.imm j) st).lane) ∧
    (x.var = 1 → Delivers i s x.d x.hdr 32 false fun j st =>
      elements x.dt.bits (fun k => convertElement x.dt x.st x.rnd.toNat x.sat (s.groupWord x.a j k)) (pkCount x.dt) 0 st) ∧
    (x.var = 2 → evenPair x.d x.dt.bits → Delivers i s x.d x.hdr x.dt.bits false fun j st =>
      (convertElement x.dt x.st x.rnd.toNat x.sat (bitsAt (s.src 32 false x.a x.imm j)
        (s.src 32 false x.b x.imm j % pkCount x.st * x.st.bits) x.st.bits) st).lane) := by
  refine ⟨fun h1 h2 he => ?_, fun h1 => ?_, fun h2 he => ?_⟩
  · simp only [State.convertOp, if_neg h1, if_neg h2] at hx
    exact delivers_arith hx hflow he rfl
  · simp only [State.convertOp, if_pos h1, packLane_eq_elements] at hx
    exact delivers_arith hx hflow (fun _ _ h => absurd h (by decide)) rfl
  · simp only [State.convertOp, if_pos h2, if_neg (by rw [h2]; decide : ¬x.var = 1)] at hx
    exact delivers_arith hx hflow he rfl

theorem exec_cvt (x : Conv) (s : State) : exec (.cvt x) s = s.sequential { op := .cvt } fun s => s.convertOp x := rfl
theorem exec_cvti (x : Conv) (s : State) : exec (.cvti x) s = s.sequential { op := .cvti } fun s => s.convertOp x := rfl

/-- Settles O7: both instructions convert by variant, and every element is converted as its types say. -/
theorem conversions : Obligations.Conversions := by
  intro x s hflow hrnd he group picked plain one i hi
  obtain ⟨o, hx⟩ : ∃ o, exec i s = s.sequential { op := o } fun s => s.convertOp x := by
    rcases hi with rfl | rfl
    · exact ⟨_, exec_cvt x s⟩
    · exact ⟨_, exec_cvti x s⟩
  obtain ⟨hplain, hpacked, hpicked⟩ := delivers_convertOp hx hflow
  refine ⟨fun h => ?_, fun h => ?_, fun h => ?_⟩
  · exact ⟨fun j => convertElement x.dt x.st x.rnd.toNat x.sat (plain j),
      hplain (by rw [h]; decide) (by rw [h]; decide) he, fun j => convertElement_isConversion _ _ _ _ _⟩
  · exact ⟨fun j k => convertElement x.dt x.st x.rnd.toNat x.sat (group j k), hpacked h,
      fun j k => convertElement_isConversion _ _ _ _ _⟩
  · exact ⟨fun j => convertElement x.dt x.st x.rnd.toNat x.sat (picked j), hpicked h he,
      fun j => convertElement_isConversion _ _ _ _ _⟩

end Sys2Proof.Machine
end

section
/-! SUPPORT. What an engine's accesses leave alone (R158, R187): operations, gangs, and the handles of every crew. The crew of an
operation need not be the one in focus. -/

namespace Sys2Proof

theorem Sparse.mem_put {α : Type} [DecidableEq α] {d : α} {m : Sparse α} {k : Nat} {v : α} {e : Nat × α}
    (h : e ∈ Sparse.put d m k v) : e = (k, v) ∨ e ∈ m := by
  unfold Sparse.put at h
  split at h
  · exact .inr ((Sparse.mem_drop m k e).1 h).1
  · exact ((Sparse.mem_insert _ k v e).1 h).imp id fun h => ((Sparse.mem_drop m k e).1 h).1

end Sys2Proof

namespace Sys2Proof.Machine

/-! ### Updates of crews -/

theorem State.findCrew_updCrew (s : State) (id : Nat) {f : Crew → Crew} (hf : ∀ c, (f c).id = c.id) (k : Nat) :
    (s.updCrew id f).findCrew k = f (s.findCrew k) ∧ k = id ∨ (s.updCrew id f).findCrew k = s.findCrew k := by
  unfold State.updCrew State.findCrew
  by_cases focus : s.crew.id = id
  · by_cases hk : id = k
    · simp [focus, hf, hk]
    · simp [focus, hf, hk]
  · simp only [if_neg focus]
    split
    · exact .inr rfl
    · by_cases hk : k = id
      · simp [hk, focus, Sparse.get_upd]
      · simp [hk, Sparse.get_upd]

/-- A crew that is resident takes its update. -/
theorem State.findCrew_updCrew_self (s : State) {id : Nat} {f : Crew → Crew} (hf : ∀ c, (f c).id = c.id) (h0 : id ≠ 0)
    (hid : (s.findCrew id).id = id) : (s.updCrew id f).findCrew id = f (s.findCrew id) := by
  unfold State.findCrew at hid
  unfold State.updCrew
  by_cases focus : s.crew.id = id
  · simp [State.findCrew, focus, hf]
  · rw [if_neg focus] at hid
    rw [if_neg focus, if_neg (by rwa [hid])]
    simp [State.findCrew, focus, Sparse.get_upd]

/-! ### Accesses -/

/-- The crew in focus is on its core, and no crew of the table is new or on another core. -/
structure State.SamePlaces (s t : State) : Prop where
  focus : t.crew.core = s.crew.core
  others : ∀ e ∈ t.crews, ∃ d ∈ s.crews, d.1 = e.1 ∧ d.2.core = e.2.core

theorem State.SamePlaces.refl (s : State) : s.SamePlaces s := ⟨rfl, fun e he => ⟨e, he, rfl, rfl⟩⟩

theorem State.SamePlaces.trans {s t u : State} (h : s.SamePlaces t) (h' : t.SamePlaces u) : s.SamePlaces u := by
  refine ⟨h'.focus.trans h.focus, fun e he => ?_⟩
  obtain ⟨d, hd, key, core⟩ := h'.others e he
  obtain ⟨c, hc, key', core'⟩ := h.others d hd
  exact ⟨c, hc, key'.trans key, core'.trans core⟩

theorem State.samePlaces_updCrew (s : State) (id : Nat) {f : Crew → Crew} (hc : ∀ c, (f c).core = c.core) :
    s.SamePlaces (s.updCrew id f) := by
  unfold State.updCrew
  split
  · exact ⟨hc _, (State.SamePlaces.refl s).others⟩
  · split
    · exact .refl s
    · next present =>
      refine ⟨rfl, fun e he => ?_⟩
      rcases Sparse.mem_put he with rfl | he
      · rcases Sparse.get_eq_or_mem {} s.crews id with none | mem
        · exact absurd (congrArg Crew.id none) present
        · exact ⟨_, mem, rfl, (hc _).symm⟩
      · exact ⟨e, he, rfl, rfl⟩

/-- The accesses of an engine change the memory system, the host's and the network's side, and of crews no number, no place and no
handle. -/
structure State.Worked (s t : State) : Prop where
  ops : t.ops = s.ops
  gang : t.gang = s.gang
  gangs : t.gangs = s.gangs
  crews : ∀ k, (t.findCrew k).id = (s.findCrew k).id ∧ (t.findCrew k).handles = (s.findCrew k).handles
  crewId : t.crew.id = s.crew.id
  saved : t.saved = s.saved
  launches : t.launches = s.launches
  places : s.SamePlaces t

theorem State.Worked.refl (s : State) : s.Worked s := ⟨rfl, rfl, rfl, fun _ => ⟨rfl, rfl⟩, rfl, rfl, rfl, .refl s⟩

theorem State.Worked.trans {s t u : State} (h : s.Worked t) (h' : t.Worked u) : s.Worked u :=
  ⟨h'.ops.trans h.ops, h'.gang.trans h.gang, h'.gangs.trans h.gangs,
    fun k => ⟨(h'.crews k).1.trans (h.crews k).1, (h'.crews k).2.trans (h.crews k).2⟩, h'.crewId.trans h.crewId,
    h'.saved.trans h.saved, h'.launches.trans h.launches, h.places.trans h'.places⟩

/-- What a state agrees on with another but for the memory system, the host's and the network's side. -/
theorem State.Worked.of_eq {s t : State} (ops : t.ops = s.ops) (gang : t.gang = s.gang) (gangs : t.gangs = s.gangs)
    (crew : t.crew = s.crew) (crews : t.crews = s.crews) (saved : t.saved = s.saved) (launches : t.launches = s.launches) :
    s.Worked t :=
  have same : ∀ k, t.findCrew k = s.findCrew k := fun k => by unfold State.findCrew; rw [crew, crews]
  ⟨ops, gang, gangs, fun k => by rw [same]; exact ⟨rfl, rfl⟩, by rw [crew], saved, launches, by rw [crew],
    fun e he => ⟨e, crews ▸ he, rfl, rfl⟩⟩

theorem State.Worked.sys (s : State) (y : Sys) : s.Worked { s with sys := y } := .of_eq rfl rfl rfl rfl rfl rfl rfl

theorem State.Worked.ite {s t u : State} {c : Prop} [Decidable c] (ht : s.Worked t) (hu : s.Worked u) :
    s.Worked (if c then t else u) := by split <;> assumption

theorem State.worked_updCrew (s : State) (id : Nat) {f : Crew → Crew} (hid : ∀ c, (f c).id = c.id)
    (hh : ∀ c, (f c).handles = c.handles) (hc : ∀ c, (f c).core = c.core) : s.Worked (s.updCrew id f) := by
  refine ⟨?_, ?_, ?_, fun k => ?_, ?_, ?_, ?_, s.samePlaces_updCrew id hc⟩
  case refine_4 =>
    rcases s.findCrew_updCrew id hid k with ⟨h, -⟩ | h
    · rw [h, hid, hh]; exact ⟨rfl, rfl⟩
    · rw [h]; exact ⟨rfl, rfl⟩
  case refine_5 =>
    unfold State.updCrew
    split
    · exact hid _
    · split <;> rfl
  all_goals unfold State.updCrew; split <;> (try split) <;> rfl

theorem State.worked_foldl {α : Type} {f : State → α → State} (hf : ∀ (s : State) x, s.Worked (f s x)) (l : List α) (s : State) :
    s.Worked (l.foldl f s) := by
  induction l generalizing s with
  | nil => exact .refl s
  | cons x l ih => exact (hf s x).trans (ih _)

theorem State.worked_countLocate (s : State) (w : Who) (n : Nat) : s.Worked (s.countLocate w n) := by
  unfold State.countLocate
  exact .ite (.refl s) (s.worked_updCrew _ (fun _ => rfl) (fun _ => rfl) fun _ => rfl)

theorem State.worked_countDemote (s : State) (w : Who) (n : Nat) : s.Worked (s.countDemote w n) := by
  unfold State.countDemote
  exact .ite (.refl s) (s.worked_updCrew _ (fun _ => rfl) (fun _ => rfl) fun _ => rfl)

theorem State.worked_dirRead (s : State) (w : Who) (l : Leaf) (policy va : Nat) (m : BitVec 128) :
    s.Worked (s.dirRead w l policy va m) := by
  unfold State.dirRead
  dsimp only
  split
  · exact .sys _ _
  · split
    · exact .sys _ _
    · refine .ite ?_ ((State.Worked.sys s _).trans (State.worked_countLocate _ w 1))
      have h : ∀ u : State, s.Worked u → ∀ c : Prop, ∀ _ : Decidable c, s.Worked (if c then u.countDemote w 1 else u) :=
        fun u hu c _ => .ite (hu.trans (u.worked_countDemote w 1)) hu
      exact h _ (.ite (.refl s) (.sys _ _)) _ _

theorem State.worked_dirWrite (s : State) (w : Who) (l : Leaf) (policy va : Nat) (m : BitVec 128) :
    s.Worked (s.dirWrite w l policy va m) := by
  unfold State.dirWrite
  dsimp only
  split
  · exact .sys _ _
  · exact .ite (.sys _ _) ((State.Worked.sys s _).trans (State.worked_countLocate _ w 1))

theorem State.worked_writeBack (s : State) (w : Who) (l : L1Line) : s.Worked (s.writeBack w l) := by
  unfold State.writeBack
  exact .ite (.refl s) (.ite (.sys _ _) ((s.worked_dirWrite ..).trans (.sys _ _)))

theorem State.worked_l1Trim (s : State) (w : Who) (c line ways : Nat) : s.Worked (s.l1Trim w c line ways) := by
  unfold State.l1Trim
  dsimp only
  split
  · exact .refl s
  · split
    · exact .refl s
    · exact (s.worked_writeBack ..).trans (.sys _ _)

theorem State.worked_l1Expel (s : State) (w : Who) (c : Nat) (asid : Asid) (line : Nat) : s.Worked (s.l1Expel w c asid line) := by
  unfold State.l1Expel
  split
  · exact .refl s
  · exact (s.worked_writeBack ..).trans (.sys _ _)

theorem State.worked_l1Release (s : State) (w : Who) : s.Worked (s.l1Release w) := by
  unfold State.l1Release
  exact (State.worked_foldl (fun t x => t.worked_writeBack w x) _ s).trans (.sys _ _)

theorem State.worked_release (s : State) (w : Who) (scope : Nat) : s.Worked (s.release w scope) := by
  unfold State.release
  have h : ∀ u : State, s.Worked u → s.Worked (if 4 ≤ scope then { u with sys := u.sys.dropV w w.cluster } else u) :=
    fun u hu => .ite (hu.trans (.sys _ _)) hu
  exact h _ (.ite (s.worked_l1Release _) (.refl s))

/-- Translations change the memory system alone. -/
theorem State.worked_leaf {s t : State} {w : Who} {acc : Access} {va n : Nat} {l : Leaf} (h : s.leaf w acc va n = .ok (l, t)) :
    s.Worked t := by
  have via : ∀ {r : Leaf × State}, s.viaHome w acc va = .ok r → s.Worked r.2 := by
    intro r h
    unfold State.viaHome at h
    split at h
    · simp at h
    · dsimp only at h
      split at h
      · simp only [Except.ok.injEq] at h; exact h ▸ .sys _ _
      · split at h
        · simp only [Except.ok.injEq] at h; exact h ▸ .sys _ _
        · split at h
          · simp at h
          · split at h
            · simp at h
            · simp only [Except.ok.injEq] at h; exact h ▸ .sys _ _
  have hp := s.leaf_page w acc va n (l, t) h
  unfold State.page at hp
  split at hp
  · exact via hp
  · split at hp
    · simp only [Except.ok.injEq, Prod.mk.injEq] at hp; exact hp.2 ▸ .refl s
    · split at hp
      · simp at hp
      · next hv =>
        simp only [Except.ok.injEq, Prod.mk.injEq] at hp
        exact hp.2 ▸ .ite ((via hv).trans (.sys _ _)) (via hv)

theorem State.worked_peerRead (s : State) (peer addr n : Nat) : s.Worked (s.peerRead peer addr n).2 := by
  unfold State.peerRead
  dsimp only
  split
  · exact .refl s
  · split
    · exact .refl s
    · exact .sys _ _

/-- An engine reads past the L1s. -/
theorem State.worked_readPart (s : State) {w : Who} (hw : w.noL1 = true) (l : Leaf) (policy va n : Nat) :
    s.Worked (s.readPart w l policy va n).2 := by
  unfold State.readPart
  dsimp only
  split
  · split
    · exact s.worked_peerRead _ _ _
    · exact .refl s
  · rw [if_pos hw]
    exact s.worked_dirRead ..

theorem State.worked_parkLine (s : State) (w : Who) (asid : Asid) (line pa : Nat) (bind : Bool) (p : Parked) :
    s.Worked (s.parkLine w asid line pa bind p) := by
  unfold State.parkLine
  dsimp only
  split
  · exact .sys _ _
  · next u _ =>
    cases u with
    | l1 c => exact ((s.worked_l1Expel ..).trans (.sys _ _)).trans (State.worked_l1Trim ..)
    | _ => exact .sys _ _

theorem State.worked_cleanCopy (s : State) (w : Who) (l : Leaf) (policy line : Nat) (u : ParkUnit) :
    s.Worked (s.cleanCopy w l policy line u) := by
  unfold State.cleanCopy
  cases u with
  | l1 n => exact ((s.worked_l1Expel ..).trans (State.worked_l1Trim ..)).trans (.sys _ _)
  | _ => exact .sys _ _

theorem State.worked_parkStore (s : State) (w : Who) (l : Leaf) (policy va : Nat) (set : BitVec 16) (r : Readers) :
    s.Worked (s.parkStore w l policy va set r) := by
  unfold State.parkStore
  dsimp only
  split
  · split
    · exact (State.Worked.sys s _).trans (State.worked_cleanCopy ..)
    · exact .sys _ _
  · split
    · exact .ite (.sys _ _) (s.worked_parkLine ..)
    · exact (State.Worked.sys s _).trans (State.worked_parkLine ..)

/-- A record for the driver enters its ring or waits for room. -/
theorem State.worked_event (s : State) (e : Event) : s.Worked (s.event e) := by
  unfold State.event State.pushRecord State.drainRing
  dsimp only
  split <;> exact .of_eq rfl rfl rfl rfl rfl rfl rfl

theorem State.worked_peerWrite (s : State) (asid : Asid) (peer addr : Nat) (data : List Byte) :
    s.Worked (s.peerWrite asid peer addr data) := by
  unfold State.peerWrite
  dsimp only
  split
  · exact .sys _ _
  · exact .sys _ _
  · exact (State.Worked.sys s _).trans (State.worked_event ..)

/-- An engine writes past the L1s. -/
theorem State.worked_writePart (s : State) {w : Who} (hw : w.noL1 = true) (l : Leaf) (policy : Nat) (set : BitVec 16) (r : Readers)
    (va : Nat) (data : List Byte) (tag : Bool) : s.Worked (s.writePart w l policy set r va data tag) := by
  unfold State.writePart
  simp only [hw, if_true, Bool.true_or]
  split
  · exact s.worked_peerWrite ..
  · refine .ite ?_ (.ite ?_ ?_)
    · unfold State.nicStore
      exact .ite (.of_eq rfl rfl rfl rfl rfl rfl rfl) (.refl s)
    · exact (State.Worked.sys s _).trans (State.worked_parkStore ..)
    · exact (s.worked_dirWrite ..).trans (.sys _ _)

theorem EngineOp.who_noL1 (o : EngineOp) : o.who.noL1 = true := rfl

theorem State.worked_engRead {s t : State} {w : Who} (hw : w.noL1 = true) {va n : Nat} {b : List Byte}
    (h : s.engRead w va n = .ok (b, t)) : s.Worked t := by
  unfold State.engRead at h
  split at h
  · simp only [Except.ok.injEq, Prod.mk.injEq] at h; exact h.2 ▸ .refl s
  · refine foldlM_ok (fun a b : List Byte × State => a.2.Worked b.2) (fun b => .refl b.2) (fun _ _ _ => .trans) _ ?_ _ _ _ h
    intro a p c hc
    unfold engReadPart at hc
    split at hc
    · simp at hc
    · next hl =>
      simp only [Except.ok.injEq] at hc
      exact hc ▸ (State.worked_leaf hl).trans (State.worked_readPart _ hw ..)

theorem State.worked_engWrite {s t : State} {w : Who} (hw : w.noL1 = true) {set : BitVec 16} {va : Nat} {data : List Byte}
    (h : s.engWrite w set va data = .ok t) : s.Worked t := by
  unfold State.engWrite at h
  split at h
  · simp only [Except.ok.injEq] at h
    exact h ▸ s.worked_updCrew _ (fun _ => rfl) (fun _ => rfl) fun _ => rfl
  · split at h
    · simp at h
    · next u hu =>
      simp only [Except.ok.injEq] at h
      have h1 := foldlM_ok (fun a b : List Byte × State => a.2.Worked b.2) (fun b => .refl b.2) (fun _ _ _ => .trans) _ (by
        intro a p c hc
        unfold engWritePart at hc
        split at hc
        · simp at hc
        · next hl =>
          split at hc
          · simp at hc
          · simp only [Except.ok.injEq] at hc
            exact hc ▸ (State.worked_leaf hl).trans (State.worked_writePart _ hw ..)) _ _ _ hu
      exact h ▸ h1.trans (.sys _ _)

/-! ### The end of an operation (R178) -/

/-- Of two states the operations are the same, and every crew and gang has its number and every crew its handles. -/
structure State.KeepsHandles (s t : State) : Prop where
  ops : t.ops = s.ops
  crews : ∀ k, (t.findCrew k).id = (s.findCrew k).id ∧ (t.findCrew k).handles = (s.findCrew k).handles
  gangs : ∀ k, (t.findGang k).id = (s.findGang k).id

theorem State.Worked.keepsHandles {s t : State} (h : s.Worked t) : s.KeepsHandles t :=
  ⟨h.ops, h.crews, fun k => by unfold State.findGang; rw [h.gang, h.gangs]⟩

/-- An update of a gang keeps every number. -/
theorem State.updGang_ids (s : State) (id : Nat) {f : Gang → Gang} (hf : keepsId f) (k : Nat) :
    ((s.updGang id f).findGang k).id = (s.findGang k).id := by
  unfold State.updGang State.findGang
  by_cases focus : s.gang.id = id
  · by_cases hk : id = k <;> simp [focus, hf s.gang, hk]
  · rw [if_neg focus]
    split
    · rfl
    · by_cases hk : k = id
      · simp [hk, focus, Sparse.get_upd, hf _]
      · simp [hk, Sparse.get_upd]

theorem Gang.keepsId_endWait (h : Handle) (x : Dword) : keepsId fun g => g.endWait h x := fun _ => rfl
theorem Gang.writeHandle_id (g : Gang) (reg : Nat) (inHandler : Bool) (x : Dword) : (g.writeHandle reg inHandler x).id = g.id := by
  unfold Gang.writeHandle
  split
  · split <;> rfl
  · rfl
theorem Gang.keepsId_carry (entry reg : Nat) (x : Dword) : keepsId fun g => g.carry entry reg x := by
  intro g
  dsimp only
  unfold Gang.carry
  split
  · split
    · exact g.writeHandle_id ..
    · rfl
  · rfl

/-- A register that is not banked receives a handle's status word. -/
theorem Gang.writeHandle_s (g : Gang) {reg : Nat} (h : reg < 56) (inHandler : Bool) (x : Dword) :
    (g.writeHandle reg inHandler x).s.get 0 reg = x := by
  have : ¬56 ≤ reg := by omega
  unfold Gang.writeHandle
  cases g.handler <;> simp [this, Sparse.get_put_same]

/-- Two states that differ in their gangs alone, which keep their numbers. -/
def State.SameGangIds (s t : State) : Prop := s.GangsOnly t ∧ ∀ k, (t.findGang k).id = (s.findGang k).id

theorem State.SameGangIds.refl (s : State) : s.SameGangIds s := ⟨.refl s, fun _ => rfl⟩
theorem State.SameGangIds.trans {s t u : State} (h : s.SameGangIds t) (h' : t.SameGangIds u) : s.SameGangIds u :=
  ⟨h.1.trans h'.1, fun k => (h'.2 k).trans (h.2 k)⟩
theorem State.sameGangIds_updGang (s : State) (id : Nat) {f : Gang → Gang} (hf : keepsId f) : s.SameGangIds (s.updGang id f) :=
  ⟨s.updGang_gangsOnly id f, s.updGang_ids id hf⟩
theorem State.sameGangIds_foldl {α : Type} {f : State → α → State} (hf : ∀ (s : State) x, s.SameGangIds (f s x)) (l : List α)
    (s : State) : s.SameGangIds (l.foldl f s) := by
  induction l generalizing s with
  | nil => exact .refl s
  | cons x l ih => exact (hf s x).trans (ih _)

/-- A handle's entry is over with its status word (R178). -/
def Crew.endHandle (entry : Nat) (e : HandleEntry) (status : Dword) (c : Crew) : Crew :=
  { c with handles := Sparse.put {} c.handles entry { e with pending := false, status := status },
           freeHandles := c.freeHandles ++ [entry] }

/-- Ends the waits of a crew's gangs on a handle and carries its word to the strands a marionette took (R181, R316). -/
def State.tellGangs (s : State) (crew entry : Nat) (e : HandleEntry) (status : Dword) : State :=
  let s := (s.gangsOf crew).foldl (fun (s : State) g => s.updGang g.id fun g => g.endWait ⟨entry, e.serial⟩ status) s
  (s.gangsOf crew).foldl (fun (s : State) g =>
    if g.ej.any fun j => j.parent = e.gang then s.updGang g.id fun g => g.carry entry e.reg status else s) s

/-- The handle's register receives the word. -/
def State.writeHandleReg (s : State) (e : HandleEntry) (status : Dword) : State :=
  if e.reg < 64 then s.updGang e.gang fun g => (g.writeHandle e.reg e.inHandler status).landS e.reg else s

theorem State.completeHandle_pending {s : State} {crew entry : Nat} {status : Dword} {e : HandleEntry}
    (he : (s.findCrew crew).handles.get {} entry = e) (hp : e.pending = true) :
    s.completeHandle crew entry status =
      ((s.updCrew crew (Crew.endHandle entry e status)).tellGangs crew entry e status).writeHandleReg e status := by
  subst he
  unfold State.completeHandle
  dsimp only
  rw [if_neg (by rw [hp]; decide)]
  rfl

theorem State.completeHandle_idle {s : State} {crew entry : Nat} {status : Dword}
    (hp : ((s.findCrew crew).handles.get {} entry).pending = false) : s.completeHandle crew entry status = s := by
  unfold State.completeHandle
  exact if_pos (by rw [hp]; decide)

theorem State.sameGangIds_tellGangs (s : State) (crew entry : Nat) (e : HandleEntry) (status : Dword) :
    s.SameGangIds (s.tellGangs crew entry e status) := by
  refine (State.sameGangIds_foldl (fun s x => ?_) _ s).trans (State.sameGangIds_foldl (fun s x => ?_) _ _)
  · exact s.sameGangIds_updGang _ (Gang.keepsId_endWait _ _)
  · split
    · exact s.sameGangIds_updGang _ (Gang.keepsId_carry _ _ _)
    · exact .refl s

theorem State.sameGangIds_writeHandleReg (s : State) (e : HandleEntry) (status : Dword) :
    s.SameGangIds (s.writeHandleReg e status) := by
  unfold State.writeHandleReg
  split
  · exact s.sameGangIds_updGang _ fun g => g.writeHandle_id ..
  · exact .refl s

theorem State.SameGangIds.findCrew {s t : State} (h : s.SameGangIds t) (k : Nat) : t.findCrew k = s.findCrew k := by
  rw [h.1]; rfl

/-- Everything but crews and gangs stays while a handle is completed. -/
theorem State.completeHandle_frame (s : State) (crew entry : Nat) (status : Dword) :
    s.completeHandle crew entry status = { s with
      crew := (s.completeHandle crew entry status).crew, crews := (s.completeHandle crew entry status).crews,
      gang := (s.completeHandle crew entry status).gang, gangs := (s.completeHandle crew entry status).gangs } := by
  cases hp : ((s.findCrew crew).handles.get {} entry).pending with
  | false => rw [State.completeHandle_idle hp]
  | true =>
    rw [State.completeHandle_pending rfl hp]
    generalize (s.findCrew crew).handles.get {} entry = e
    have h := (State.sameGangIds_tellGangs (s.updCrew crew (Crew.endHandle entry e status)) crew entry e status).trans
      (State.sameGangIds_writeHandleReg _ e status)
    rw [h.1]
    unfold State.updCrew
    split <;> (try split) <;> rfl

/-- The scratch of every crew stays. -/
theorem State.completeHandle_scratch (s : State) (crew entry : Nat) (status : Dword) (k : Nat) :
    ((s.completeHandle crew entry status).findCrew k).scratch = (s.findCrew k).scratch := by
  cases hp : ((s.findCrew crew).handles.get {} entry).pending with
  | false => rw [State.completeHandle_idle hp]
  | true =>
    rw [State.completeHandle_pending rfl hp]
    generalize (s.findCrew crew).handles.get {} entry = e
    have h := (State.sameGangIds_tellGangs (s.updCrew crew (Crew.endHandle entry e status)) crew entry e status).trans
      (State.sameGangIds_writeHandleReg _ e status)
    rw [h.findCrew]
    rcases s.findCrew_updCrew crew (f := Crew.endHandle entry e status) (fun _ => rfl) k with ⟨h, -⟩ | h <;> rw [h]
    rfl

theorem State.completeHandle_crew_scratch (s : State) (crew entry : Nat) (status : Dword) :
    (s.completeHandle crew entry status).crew.scratch = s.crew.scratch := by
  cases hp : ((s.findCrew crew).handles.get {} entry).pending with
  | false => rw [State.completeHandle_idle hp]
  | true =>
    rw [State.completeHandle_pending rfl hp]
    generalize (s.findCrew crew).handles.get {} entry = e
    have h := (State.sameGangIds_tellGangs (s.updCrew crew (Crew.endHandle entry e status)) crew entry e status).trans
      (State.sameGangIds_writeHandleReg _ e status)
    rw [h.1.crew]
    unfold State.updCrew
    split <;> (try split) <;> rfl

/-- The entry of a resident crew's handle holds the word, and so does the register of its gang (R178). -/
theorem State.completeHandle_word {s : State} {crew entry : Nat} {status : Dword} {e : HandleEntry}
    (he : (s.findCrew crew).handles.get {} entry = e) (hp : e.pending = true) (h0 : crew ≠ 0) (hid : (s.findCrew crew).id = crew) :
    ((s.completeHandle crew entry status).findCrew crew).handles.get {} entry = { e with pending := false, status := status } ∧
      (e.reg < 56 → s.Resident e.gang → ((s.completeHandle crew entry status).findGang e.gang).s.get 0 e.reg = status) := by
  rw [State.completeHandle_pending he hp]
  have h := State.sameGangIds_tellGangs (s.updCrew crew (Crew.endHandle entry e status)) crew entry e status
  refine ⟨?_, fun hr hg => ?_⟩
  · rw [(h.trans (State.sameGangIds_writeHandleReg _ e status)).findCrew,
      s.findCrew_updCrew_self (f := Crew.endHandle entry e status) (fun _ => rfl) h0 hid]
    exact Sparse.get_put_same ..
  · have hids : (s.updCrew crew (Crew.endHandle entry e status)).findGang e.gang = s.findGang e.gang := by
      unfold State.updCrew
      split <;> (try split) <;> rfl
    have hkeep : keepsId fun g => (g.writeHandle e.reg e.inHandler status).landS e.reg := fun g => g.writeHandle_id ..
    have hres : ((s.updCrew crew (Crew.endHandle entry e status)).tellGangs crew entry e status).Resident e.gang :=
      ⟨hg.1, by rw [h.2, hids]; exact hg.2⟩
    generalize (s.updCrew crew (Crew.endHandle entry e status)).tellGangs crew entry e status = u at hres
    rw [State.writeHandleReg, if_pos (by omega), State.findGang_updGang hres hkeep, if_pos rfl]
    exact Gang.writeHandle_s _ hr _ _

/-- The status word: CODE, FLAGS and RESULT in their places (R178). -/
theorem statusWord_eq (code : BitVec 16) (flags : BitVec 8) (result : Nat) :
    statusWord code flags (BitVec.ofNat 32 result) =
      BitVec.ofNat 64 (code.toNat + 2 ^ 16 * flags.toNat + 2 ^ 32 * (result % 2 ^ 32)) := by
  apply BitVec.eq_of_toNat_eq
  have h1 := code.isLt
  have h2 := flags.isLt
  have h3 : result % 2 ^ 32 < 2 ^ 32 := Nat.mod_lt _ (by decide)
  simp only [statusWord, BitVec.toNat_append, BitVec.toNat_ofNat, Nat.shiftLeft_eq]
  rw [Nat.zero_mod, Nat.or_zero, ← Nat.shiftLeft_eq _ 16, ← Nat.shiftLeft_eq _ 8, ← Nat.shiftLeft_add_eq_or_of_lt h2,
    ← Nat.shiftLeft_add_eq_or_of_lt h1, Nat.shiftLeft_eq, Nat.shiftLeft_eq]
  omega

/-- The engines without an operation. -/
def State.withoutOp (s : State) (id : Nat) : State := { s with ops := s.ops.filter fun x => x.id ≠ id }

section
variable {s u : State} {o : EngineOp} {code : BitVec 16} {flags : BitVec 8} {result : Nat}

theorem State.finishOp_silent (h : o.handle = none) :
    u.finishOp o code flags result = (u.endMatrix o (code = 0) flags).withoutOp o.id := by
  unfold State.finishOp; rw [h]; rfl

theorem State.finishOp_handle {n : Nat} (h : o.handle = some n) : u.finishOp o code flags result =
    ((u.endMatrix o (code = 0) flags).withoutOp o.id).completeHandle o.crewId n
      (statusWord code flags (BitVec.ofNat 32 result)) := by
  unfold State.finishOp; rw [h]; rfl

/-- The end of an operation changes its crew's handles and its gangs, besides what the matrix engine does (R178). -/
theorem State.finishOp_frame : u.finishOp o code flags result = { (u.endMatrix o (code = 0) flags).withoutOp o.id with
    crew := (u.finishOp o code flags result).crew, crews := (u.finishOp o code flags result).crews,
    gang := (u.finishOp o code flags result).gang, gangs := (u.finishOp o code flags result).gangs } := by
  cases h : o.handle with
  | none => rw [State.finishOp_silent h]
  | some n => rw [State.finishOp_handle h]; exact State.completeHandle_frame ..

theorem State.finishOp_scratch (k : Nat) :
    ((u.finishOp o code flags result).findCrew k).scratch = ((u.endMatrix o (code = 0) flags).findCrew k).scratch := by
  cases h : o.handle with
  | none => rw [State.finishOp_silent h]; rfl
  | some n => rw [State.finishOp_handle h, State.completeHandle_scratch]; rfl

theorem State.finishOp_crew_scratch :
    (u.finishOp o code flags result).crew.scratch = (u.endMatrix o (code = 0) flags).crew.scratch := by
  cases h : o.handle with
  | none => rw [State.finishOp_silent h]; rfl
  | some n => rw [State.finishOp_handle h, State.completeHandle_crew_scratch]; rfl

/-- An operation that is over is reported, whatever kept operations, numbers and handles before its end (R178). -/
theorem State.reported_finishOp (h : s.KeepsHandles (u.endMatrix o (code = 0) flags)) :
    s.Reported (u.finishOp o code flags result) o code flags result := by
  obtain ⟨hops, hcrews, hgangs⟩ := h
  refine ⟨fun x => ?_, fun n hn => ?_⟩
  · rw [State.finishOp_frame]
    simp only [State.withoutOp, List.mem_filter, hops, decide_eq_true_eq, ne_eq]
  · dsimp only
    rw [State.finishOp_handle hn, ← statusWord_eq]
    intro hp hid h0
    obtain ⟨hh, hs⟩ := State.completeHandle_word (s := (u.endMatrix o (code = 0) flags).withoutOp o.id) (crew := o.crewId)
      (entry := n) (status := statusWord code flags (BitVec.ofNat 32 result)) rfl
      ((congrArg (fun t => (Sparse.get {} t n).pending) (hcrews o.crewId).2).trans hp) h0 ((hcrews _).1.trans hid)
    have he : ((u.endMatrix o (code = 0) flags).withoutOp o.id |>.findCrew o.crewId).handles.get {} n =
      (s.findCrew o.crewId).handles.get {} n := congrArg (fun t => Sparse.get {} t n) (hcrews o.crewId).2
    rw [he] at hh hs
    exact ⟨hh, fun hr hg hg0 => hs hr ⟨hg0, (hgangs _).trans hg⟩⟩

end

end Sys2Proof.Machine
end

section
/-! SUPPORT. The copy engine (R185-R195): the bytes an engine reads and writes, the rows and elements an operation moves, and how
it ends. -/

namespace Sys2Proof.Machine

/-! ### Bytes of an engine -/

theorem State.readPart_length (s : State) {w : Who} (hw : w.noL1 = true) (l : Leaf) (policy va n : Nat) :
    (s.readPart w l policy va n).1.length = n := by
  unfold State.readPart
  dsimp only
  split
  · split
    · unfold State.peerRead
      dsimp only
      split
      · simp
      · split <;> simp [State.peerBytes]
    · simp
  · rw [if_pos hw]
    exact Sys.bytes_length ..

/-- An engine reads as many bytes as it asks for. -/
theorem State.engRead_length {s t : State} {w : Who} (hw : w.noL1 = true) {va n : Nat} {b : List Byte}
    (h : s.engRead w va n = .ok (b, t)) : b.length = n := by
  unfold State.engRead at h
  split at h
  · simp only [Except.ok.injEq, Prod.mk.injEq] at h
    rw [← h.1]
    simp [Crew.scratchRead]
  · have key : ∀ (l : List (Nat × Nat)) (a c : List Byte × State), l.foldlM (engReadPart w) a = .ok c →
        c.1.length = a.1.length + (l.map Prod.snd).sum := by
      intro l
      induction l with
      | nil =>
        intro a c hc
        simp only [List.foldlM_nil, pure, Except.pure, Except.ok.injEq] at hc
        simp [hc]
      | cons p l ih =>
        intro a c hc
        rw [List.foldlM_cons] at hc
        cases hp : engReadPart w a p with
        | error e => rw [hp] at hc; cases hc
        | ok d =>
          rw [hp] at hc
          have hd : d.1.length = a.1.length + p.2 := by
            unfold engReadPart at hp
            split at hp
            · cases hp
            · simp only [Except.ok.injEq] at hp
              rw [← hp, List.length_append, State.readPart_length _ hw]
          rw [ih d c hc, hd]
          simp; omega
    have := key _ _ _ h
    rwa [splitParts_sum _ _ (by decide), List.length_nil, Nat.zero_add] at this

/-- Nothing is read. -/
theorem State.engRead_zero (s : State) (w : Who) (va : Nat) : s.engRead w va 0 = .ok ([], s) := by
  unfold State.engRead
  split <;> rfl

/-- Nothing is written: at most the words of scratch that were never touched are noted. -/
theorem State.engWrite_nil (s : State) (w : Who) (set : BitVec 16) (va : Nat) :
    ∃ t, s.engWrite w set va [] = .ok t ∧ t.sys = s.sys ∧ t.crew.scratch = s.crew.scratch ∧ s.Worked t := by
  unfold State.engWrite
  split
  · refine ⟨_, rfl, ?_, ?_, s.worked_updCrew _ (fun _ => rfl) (fun _ => rfl) fun _ => rfl⟩ <;>
      unfold State.updCrew <;> split <;> (try split) <;> rfl
  · exact ⟨_, rfl, rfl, rfl, .sys _ _⟩

/-- Scratch after bytes are written to it. -/
theorem Crew.scratchWrite_get (c : Crew) (off : Nat) (data : List Byte) (tag : Bool) {k : Nat} (hk : k < data.length) :
    (c.scratchWrite off data tag).scratch.get 0 (off + k) = data[k] := by
  have hkeys : ((List.range data.length).zip data).map (fun e => off + e.1) = (List.range data.length).map fun i => off + i := by
    calc ((List.range data.length).zip data).map (fun e => off + e.1)
        = (((List.range data.length).zip data).map Prod.fst).map (off + ·) := by rw [List.map_map]; rfl
      _ = (List.range data.length).map (off + ·) := by rw [List.map_fst_zip (by simp)]
  have hmem : (k, data[k]) ∈ (List.range data.length).zip data := by
    rw [List.mem_iff_getElem]
    exact ⟨k, by simpa using hk, by simp⟩
  exact Sparse.get_foldl_put_mem 0 (fun i => off + i) _ c.scratch
    (by rw [hkeys]; exact List.nodup_range.map fun a b h => by simpa using h) _ hmem

/-- An engine writes the scratch of the crew in focus. -/
theorem State.engWrite_scratch {s : State} {w : Who} {set : BitVec 16} {va : Nat} {data : List Byte}
    (hs : (windowOf va).1 = .scratch) (hw : w.crew = s.crew.id) :
    ∃ t, s.engWrite w set va data = .ok t ∧ t.sys = s.sys ∧
      ∀ k (hk : k < data.length), t.crew.scratch.get 0 (va - Config.scratchBase + k) = data[k] := by
  refine ⟨_, if_pos hs, ?_, fun k hk => ?_⟩ <;> unfold State.updCrew <;> rw [if_pos hw.symm]
  exact Crew.scratchWrite_get _ _ _ _ hk

/-! ### Elements -/

/-- The bytes of a list's number are the list. -/
theorem toBytes_fromBytes (b : List Byte) : toBytes b.length (fromBytes b) = b := by
  induction b with
  | nil => rfl
  | cons x t ih =>
    have hx := x.isLt
    rw [List.length_cons, fromBytes, toBytes, show (x.toNat + 256 * fromBytes t) / 256 = fromBytes t by omega, ih]
    congr 1
    apply BitVec.eq_of_toNat_eq
    rw [BitVec.toNat_ofNat]
    omega

/-- Elements unpacked and packed again are the bits they came from. -/
theorem packCodes_bitsAt (bits n x : Nat) :
    packCodes bits ((List.range n).map fun k => bitsAt x (k * bits) bits) = x % 2 ^ (n * bits) := by
  induction n generalizing x with
  | zero => simp [packCodes, Nat.mod_one]
  | succ n ih =>
    rw [List.range_succ_eq_map, List.map_cons, List.map_map, packCodes]
    have : (fun k => bitsAt x (k * bits) bits) ∘ Nat.succ = fun k => bitsAt (x / 2 ^ bits) (k * bits) bits := by
      funext k
      simp only [Function.comp, bitsAt, Nat.succ_eq_add_one]
      rw [Nat.div_div_eq_div_mul, ← pow_add]
      congr 3; ring
    rw [this, ih, bitsAt, Nat.zero_mul, pow_zero, Nat.div_one, Nat.mod_mod, show (n + 1) * bits = bits + n * bits by ring, pow_add]
    exact (Nat.mod_mul ..).symm

theorem fmtBits_pos (f : Nat) : 0 < fmtBits f := by unfold fmtBits; split <;> decide

/-- Whole elements in whole bytes are packed into the bytes they came from. -/
theorem State.packedBytes_unpackCodes (s : State) (w : Who) (va bits n : Nat) (b : List Byte) (h : n * bits = 8 * b.length) :
    s.packedBytes w va bits (unpackCodes bits n b) = b := by
  unfold State.packedBytes unpackCodes
  simp only [List.length_map, List.length_range, h]
  rw [if_pos (by omega), packCodes_bitsAt, h, Nat.mod_eq_of_lt (fromBytes_lt b), ceilDiv,
    show (8 * b.length + 8 - 1) / 8 = b.length by omega]
  exact toBytes_fromBytes b

/-! ### COPY between operands of one format (R190) -/

theorem Cap.bits_pos (c : Cap) : 0 < c.bits := fmtBits_pos _

/-- The one run of a LINEAR operand without block scales. -/
theorem Cap.spans_linear {c : Cap} (hk : c.kind = some .linear) (hb : c.bs = false) :
    c.spans = [{ va := c.base, count := c.elements, scaleVa := c.base + c.len, scales := 0 }] := by
  simp [Cap.spans, hk, Cap.linearScales, hb]

theorem Cap.elements_bits {c : Cap} (h : c.len * 8 % c.bits = 0) : c.elements * c.bits = 8 * c.len := by
  rw [Cap.elements, Nat.div_mul_cancel (Nat.dvd_of_mod_eq_zero h), Nat.mul_comm]

theorem ceilDiv_bytes {n bits len : Nat} (h : n * bits = 8 * len) : ceilDiv (n * bits) 8 = len := by
  rw [h, ceilDiv]; omega

/-- A LINEAR operand's bytes are read as its elements (R89). -/
theorem State.readElements_linear {s t : State} {w : Who} {c : Cap} {b : List Byte} (hk : c.kind = some .linear)
    (hbs : c.bs = false) (hl : c.len * 8 % c.bits = 0) (h : s.engRead w c.base c.len = .ok (b, t)) :
    s.readElements w c = .ok ((unpackCodes c.bits c.elements b, []), t) := by
  unfold State.readElements
  rw [if_neg (by simp [hk]), Cap.spans_linear hk hbs]
  simp only [List.foldlM_cons, List.foldlM_nil, readSpan, ceilDiv_bytes (Cap.elements_bits hl), h, State.engRead_zero]
  rfl

theorem State.countElements_linear (s : State) (w : Who) {c : Cap} (hk : c.kind = some .linear) :
    s.countElements w c = .ok (c.elements, s) := by
  simp [State.countElements, hk]

theorem Cap.remainder_linear {c : Cap} (hk : c.kind = some .linear) (hl : c.len * 8 % c.bits = 0) : c.remainder = false := by
  simp [Cap.remainder, Cap.wholeElements, hk, hl]

/-- Elements are written to a LINEAR operand as their bytes (R89, R190). -/
theorem State.writeElements_linear {s t : State} {w : Who} {set : BitVec 16} {c : Cap} {b : List Byte}
    (hk : c.kind = some .linear) (hbs : c.bs = false) (hl : c.len * 8 % c.bits = 0) (hb : b.length = c.len)
    (h : s.engWrite w set c.base b = .ok t) :
    ∃ u, s.writeElements w set c (unpackCodes c.bits c.elements b) [] = .ok u ∧ u.sys = t.sys ∧ u.crew.scratch = t.crew.scratch ∧
      t.Worked u := by
  obtain ⟨u, hu, hkeep⟩ := t.engWrite_nil w set (c.base + c.len)
  refine ⟨u, ?_, hkeep⟩
  unfold State.writeElements
  have htake : (unpackCodes c.bits c.elements b).take c.elements = unpackCodes c.bits c.elements b :=
    List.take_of_length_le (by simp [unpackCodes])
  rw [if_neg (by simp [hk]), Cap.spans_linear hk hbs]
  simp only [List.foldlM_cons, List.foldlM_nil, writeSpan, htake,
    State.packedBytes_unpackCodes _ _ _ _ _ _ (hb ▸ Cap.elements_bits hl), h, List.take_nil, List.map_nil, hu]
  rfl

/-- COPY between LINEAR operands of one format and length moves the bytes (R190). -/
theorem State.copyData_linear {s t u : State} {w : Who} {dst src : Cap} {rnd : Nat} {sat : Bool} {set : BitVec 16} {b : List Byte}
    (hd : dst.kind = some .linear) (hs : src.kind = some .linear) (hf : dst.fmt = src.fmt) (hdb : dst.bs = false)
    (hsb : src.bs = false) (hlen : dst.len = src.len) (hl : src.len * 8 % src.bits = 0)
    (hr : s.engRead w src.base src.len = .ok (b, t)) (hb : b.length = src.len) (hw : t.engWrite w set dst.base b = .ok u) :
    ∃ v, s.copyData w dst src rnd sat set = .ok ({}, v) ∧ v.sys = u.sys ∧ v.crew.scratch = u.crew.scratch ∧ u.Worked v := by
  have hbits : dst.bits = src.bits := congrArg fmtBits hf
  have hel : dst.elements = src.elements := by unfold Cap.elements; rw [hbits, hlen]
  have hdl : dst.len * 8 % dst.bits = 0 := by rw [hlen, hbits, hl]
  obtain ⟨v, hv, hkeep⟩ := State.writeElements_linear hd hdb hdl (hlen ▸ hb) hw
  refine ⟨v, ?_, hkeep⟩
  have hn : (unpackCodes src.bits src.elements b).length = src.elements := by simp [unpackCodes]
  rw [hbits, hel] at hv
  simp [State.copyData, State.readElements_linear hs hsb hl hr, State.countElements_linear _ _ hd, hn, hel,
    Cap.remainder_linear hd hdl, Cap.remainder_linear hs hl, hf, hdb, hsb, hv]

/-! ### Rows (R194, R195) -/

/-- A chunk number below a multiple of 8 stays below it when its low three bits are exchanged. -/
theorem xor_lt_of_mod_eight {c n r : Nat} (hc : c < n) (hn : n % 8 = 0) (hr : r < 8) : c ^^^ r < n := by
  have h1 : (c ^^^ r) / 8 = c / 8 := by
    have := Nat.xor_div_two_pow (a := c) (b := r) (n := 3)
    simpa [Nat.div_eq_of_lt hr] using this
  omega

/-- Pieces of one length put one after another. -/
theorem length_flatMap_range {α : Type} {f : Nat → List α} {n m : Nat} (h : ∀ i, i < n → (f i).length = m) :
    ((List.range n).flatMap f).length = n * m := by
  induction n with
  | zero => simp
  | succ n ih =>
    rw [List.range_succ, List.flatMap_append, List.length_append, ih fun i hi => h i (by omega)]
    simp [h n (by omega), Nat.succ_mul]

theorem getElem?_flatMap_range {α : Type} {f : Nat → List α} {n m : Nat} (h : ∀ i, i < n → (f i).length = m) {k : Nat}
    (hk : k < n * m) : ((List.range n).flatMap f)[k]? = (f (k / m))[k % m]? := by
  induction n with
  | zero => omega
  | succ n ih =>
    have hlen := length_flatMap_range (f := f) (n := n) fun i hi => h i (by omega)
    rw [List.range_succ, List.flatMap_append]
    rcases Nat.lt_or_ge k (n * m) with hlt | hge
    · rw [List.getElem?_append_left (by omega), ih (fun i hi => h i (by omega)) hlt]
    · rw [Nat.succ_mul] at hk
      have hd : k / m = n := by
        rw [Nat.div_eq_iff (by omega)]
        omega
      have hr : k % m = k - n * m := by
        have := Nat.div_add_mod k m
        rw [hd, Nat.mul_comm] at this
        omega
      rw [List.getElem?_append_right (by omega), hlen, hd, hr]
      simp

section
variable {nosw : Bool} {row rb : Nat} {b : List Byte} (h : nosw = true ∨ rb % 128 = 0) (hb : rb ≤ b.length)
include h hb

/-- Each chunk of a payload of whole swizzle groups is 16 bytes of it. -/
theorem swizzle_chunk_length {c : Nat} (hn : nosw = false) (hc : c < rb / 16) :
    ((b.drop (16 * (c ^^^ (row % 8)))).take 16).length = 16 := by
  have h0 : rb % 128 = 0 := h.resolve_left (by simp [hn])
  have := xor_lt_of_mod_eight (r := row % 8) hc (by omega) (by omega)
  rw [List.length_take, List.length_drop]
  omega

theorem swizzle_length : (swizzle nosw row rb b).length = b.length := by
  cases hn : nosw with
  | true => rfl
  | false =>
    have h0 : rb % 128 = 0 := h.resolve_left (by simp [hn])
    rw [swizzle, if_neg Bool.false_ne_true, List.length_append,
      length_flatMap_range fun c hc => swizzle_chunk_length h hb hn hc, List.length_drop]
    omega

/-- Byte `k` of a swizzled row: payload chunks change places, the rest stays (R195). -/
theorem swizzle_getElem? (k : Nat) : (swizzle nosw row rb b)[k]? =
    b[if nosw = true ∨ rb ≤ k then k else 16 * (k / 16 ^^^ (row % 8)) + k % 16]? := by
  cases hn : nosw with
  | true => simp [swizzle]
  | false =>
    have h0 : rb % 128 = 0 := h.resolve_left (by simp [hn])
    have hlen := length_flatMap_range fun c hc => swizzle_chunk_length (row := row) h hb hn hc
    rw [swizzle, if_neg Bool.false_ne_true]
    by_cases hk : rb ≤ k
    · rw [if_pos (.inr hk), List.getElem?_append_right (by omega), List.getElem?_drop, hlen]
      congr 1; omega
    · rw [if_neg (by simp [hk]), List.getElem?_append_left (by omega),
        getElem?_flatMap_range (fun c hc => swizzle_chunk_length h hb hn hc) (by omega),
        List.getElem?_take, List.getElem?_drop, if_pos (by omega)]

end

section
variable {s t u : State} {w : Who} {sc mc : Cap} {row idx : Nat} {nosw : Bool} {set : BitVec 16} {b : List Byte}

/-- A TILE2D has a row it holds, or any row when its rows go round (R194). -/
theorem rowValid_tile (hm : mc.kind = some .tile) (size len : Nat) :
    rowValid mc size len idx = true ↔ mc.ring = true ∨ idx < mc.rows := by
  simp [rowValid, hm]

theorem not_rowValid_tile (hm : mc.kind = some .tile) (hr : mc.ring = false) (hi : mc.rows ≤ idx) (size len : Nat) :
    ¬rowValid mc size len idx = true := by
  rw [rowValid_tile hm]; simp [hr]; omega

/-- A GATHER of one row that its memory side has (R195). -/
theorem State.gatherData_row (hm : mc.kind = some .tile) (hv : mc.ring = true ∨ idx < mc.rows)
    (hr : s.engRead w (mc.rowAddr idx) (sc.rb + sc.sb) = .ok (b, t))
    (hw : t.engWrite w 0 (sc.base + row * sc.pitch * 64) (swizzle nosw row sc.rb b) = .ok u) :
    s.gatherData w sc mc [(row, idx)] nosw = .ok (rowsResult 0, u) := by
  have h : gatherRow w sc mc nosw 0 (0, s) (row, idx) = .ok (0, u) := by
    simp only [gatherRow, (rowValid_tile hm _ _).2 hv, if_true, State.readRow, hm, Option.some.injEq, reduceCtorEq, if_false, hr, hw]
  simp [State.gatherData, State.sideLength, hm, h, bind, Except.bind, pure, Except.pure]

/-- A GATHER of a row that its memory side lacks writes zeros and counts it (R195). -/
theorem State.gatherData_noRow (hm : mc.kind = some .tile) (hr : mc.ring = false) (hi : mc.rows ≤ idx)
    (hw : s.engWrite w 0 (sc.base + row * sc.pitch * 64) (swizzle nosw row sc.rb (List.replicate (sc.rb + sc.sb) 0)) = .ok u) :
    s.gatherData w sc mc [(row, idx)] nosw = .ok (rowsResult 1, u) := by
  have h : gatherRow w sc mc nosw 0 (0, s) (row, idx) = .ok (1, u) := by
    simp only [gatherRow, if_neg (not_rowValid_tile hm hr hi _ _), hw]
  simp [State.gatherData, State.sideLength, hm, h, bind, Except.bind, pure, Except.pure]

/-- A SCATTER of one row that its memory side has (R195). -/
theorem State.scatterData_row (hm : mc.kind = some .tile) (hv : mc.ring = true ∨ idx < mc.rows)
    (hr : s.engRead w (sc.base + row * sc.pitch * 64) (sc.rb + sc.sb) = .ok (b, t))
    (hw : t.engWrite w set (mc.rowAddr idx) (swizzle nosw row sc.rb b) = .ok u) :
    s.scatterData w mc sc [(row, idx)] nosw set = .ok (rowsResult 0, u) := by
  simp [State.scatterData, State.sideLength, hm, scatterRow, (rowValid_tile hm _ _).2 hv, State.writeRow, hr, hw, bind, Except.bind,
    pure, Except.pure]

/-- A SCATTER to a row that its memory side lacks writes nothing and counts it (R195). -/
theorem State.scatterData_noRow (hm : mc.kind = some .tile) (hr : mc.ring = false) (hi : mc.rows ≤ idx) :
    s.scatterData w mc sc [(row, idx)] nosw set = .ok (rowsResult 1, s) := by
  simp [State.scatterData, State.sideLength, hm, scatterRow, not_rowValid_tile hm hr hi, bind, Except.bind, pure, Except.pure]

end

/-! ### The end of an operation (R178, R183) -/

theorem exec_copyOpComplete {s : State} {op : Nat} {o : EngineOp} (hf : s.findOp op = some o) (hk : o.kind.isCopy = true)
    (hp : o.phase = .started) : exec (.copyOpComplete op) s = .next (s.complete o State.copyWork) := by
  show execCopyOpComplete op s = _
  simp [execCopyOpComplete, hf, hk, EngineOp.inWork, hp]

theorem State.endMatrix_other (u : State) {o : EngineOp} (h : o.kind.isMatrix = false) (good : Bool) (flags : BitVec 8) :
    u.endMatrix o good flags = u := by
  simp [State.endMatrix, h]

theorem OpKind.isMatrix_of_isCopy : ∀ {k : OpKind}, k.isCopy = true → k.isMatrix = false
  | .copy .., _ | .gather .., _ | .scatter .., _ => rfl

theorem OpKind.isSplice_of_isCopy : ∀ {k : OpKind}, k.isCopy = true → k.isSplice = false
  | .copy .., _ | .gather .., _ | .scatter .., _ => rfl

/-- An operation found by its number has it. -/
theorem State.findOp_id {s : State} {op : Nat} {o : EngineOp} (h : s.findOp op = some o) : o.id = op := by
  simpa using List.find?_some h

section
variable {s : State} {op : Nat} {o : EngineOp} (hf : s.findOp op = some o) (hk : o.kind.isCopy = true) (hp : o.phase = .started)
include hf hk hp

/-- A cancelled operation ends with CANCELLED and has done nothing (R183). -/
theorem copyOp_cancelled (hc : o.cancel = true) : exec (.copyOpComplete op) s = .next (s.finishOp o 1 0 0) := by
  rw [exec_copyOpComplete hf hk hp, State.complete, if_pos (by simp [hc, OpKind.isSplice_of_isCopy hk])]
  rfl

/-- A version that issue could not check, and that the list does not reach, ends the operation (R192). -/
theorem copyOp_unreachable (hc : o.cancel = false) {h : Dword × Nat} {x : ListHdr} {s1 : State} (hu : o.unproven = [h])
    (hr : s.readHeader o.who h.1.toNat = .ok (x, s1)) (hn : s1.reachable o.asid h.1.toNat x h.2 = false) :
    exec (.copyOpComplete op) s = .next (s.finishOp o 0x0189 0 0) := by
  have hprove : s.prove o = .error (engineStop (versionStop x h.2)) := by
    rw [State.prove, State.findOp_id hf, hf, Option.getD_some, hu, List.foldlM_cons, hr]
    simp [hn, bind, Except.bind]
  rw [exec_copyOpComplete hf hk hp, State.complete, if_neg (by simp [hc]), hprove]
  rfl

/-- An operation whose versions are known ends with what it did (R178). -/
theorem copyOp_done (hc : o.cancel = false) (hu : o.unproven = []) {x : OpResult} {u : State} (hw : s.copyWork o = .ok (x, u)) :
    exec (.copyOpComplete op) s = .next (u.finishOp o x.code x.flags x.result) := by
  have hprove : s.prove o = .ok s := by
    rw [State.prove, State.findOp_id hf, hf, Option.getD_some, hu]
    rfl
  rw [exec_copyOpComplete hf hk hp, State.complete, if_neg (by simp [hc]), hprove]
  simp [hw, State.endOp]

end

/-- After accesses that keep operations, numbers and handles, an operation that no matrix engine runs is reported; the memory
system and scratch are as the accesses left them. -/
theorem State.Worked.ends {s u : State} {o : EngineOp} (h : s.Worked u) (hk : o.kind.isMatrix = false) (code : BitVec 16)
    (flags : BitVec 8) (result : Nat) :
    s.Reported (u.finishOp o code flags result) o code flags result ∧ (u.finishOp o code flags result).sys = u.sys ∧
      (∀ k, ((u.finishOp o code flags result).findCrew k).scratch = (u.findCrew k).scratch) ∧
      (u.finishOp o code flags result).crew.scratch = u.crew.scratch := by
  have he := u.endMatrix_other hk (code = 0) flags
  refine ⟨State.reported_finishOp (by rw [he]; exact h.keepsHandles), ?_, fun k => ?_, ?_⟩
  · rw [State.finishOp_frame, he]; rfl
  · rw [State.finishOp_scratch, he]
  · rw [State.finishOp_crew_scratch, he]

/-! ### The start of an operation (R185, R186) -/

theorem exec_copyOpStart (cluster : Nat) (s : State) : exec (.copyOpStart cluster) s =
    .next (match s.nextCopy cluster with
      | some o => (s.opRelease o 3).updOp o.id fun o => { o with phase := .started }
      | none => s) := rfl

/-- The oldest queued operation of an engine with a free place is its next (R185). -/
theorem State.nextCopy_eq {s : State} {cluster : Nat} {o : EngineOp} {before after : List EngineOp}
    (hops : s.ops = before ++ o :: after) (hk : o.kind.isCopy = true) (hc : o.core / 4 = cluster) (hq : o.phase = .queued)
    (hb : ∀ p ∈ before, p.kind.isCopy = true ∧ p.core / 4 = cluster → p.phase ≠ .queued)
    (hfree : (s.ops.filter fun p => p.kind.isCopy && p.core / 4 = cluster && p.phase = .started).length < 4) :
    s.nextCopy cluster = some o := by
  unfold State.nextCopy
  dsimp only
  rw [if_pos, List.find?_filter, hops, List.find?_append, List.find?_eq_none.2, Option.none_or, List.find?_cons_of_pos]
  · simp [hk, hc, hq]
  · intro p hp
    have := hb p hp
    simp only [Bool.and_eq_true, decide_eq_true_eq]
    exact fun ⟨hm, hq⟩ => this hm hq
  · rw [List.filter_filter]
    convert hfree using 4
    · exact Bool.and_comm _ _
    · rfl

/-- A release leaves the L1 of its core without dirty bytes (R110). -/
theorem State.l1Release_clean (s : State) (w : Who) : ∀ l ∈ ((s.l1Release w).sys.core w.core).l1, l.dirty = 0 := by
  intro l hl
  unfold State.l1Release at hl
  dsimp only at hl
  rw [Sys.core_updCore, if_pos rfl] at hl
  obtain ⟨x, -, rfl⟩ := List.mem_map.1 hl
  rfl

/-- The release of an operation writes its core's L1 back (R186). -/
theorem State.opRelease_eq (s : State) (o : EngineOp) : s.opRelease o 3 = s.l1Release { o.who with engine := false } := by
  simp [State.opRelease, State.release, State.cacheScope, EngineOp.who]

theorem State.keptMemory_of_flows {s t : State} {st : Nat → Prop} (h : Sys.Flows st s.sys t.sys) : s.KeptMemory t st := h.1

theorem copyOpStarts {cluster : Nat} {s : State} {o : EngineOp} (hn : s.nextCopy cluster = some o) :
    ∃ t, exec (.copyOpStart cluster) s = .next t ∧ s.KeptMemory t (fun _ => False) ∧ t.gang = s.gang ∧ t.gangs = s.gangs ∧
      t.ops = s.ops.map (fun p => if p.id = o.id then { p with phase := .started } else p) ∧
      ∀ l ∈ (t.sys.core o.core).l1, l.dirty = 0 := by
  have hw := s.worked_l1Release { o.who with engine := false }
  refine ⟨(s.l1Release { o.who with engine := false }).updOp o.id fun o => { o with phase := .started }, ?_,
    State.keptMemory_of_flows (s.flows_l1Release _ _), hw.gang, hw.gangs, ?_, s.l1Release_clean { o.who with engine := false }⟩
  · rw [exec_copyOpStart, hn, ← s.opRelease_eq]
  · exact congrArg (List.map _) hw.ops

/-! ### COPY, GATHER and SCATTER complete -/

theorem State.copyWork_copy {s : State} {o : EngineOp} {d r : Quad} {rnd : Nat} {sat : Bool} {set : BitVec 16}
    (h : o.kind = .copy d r rnd sat set) : s.copyWork o = s.copyData o.who (Cap.ofQuad d) (Cap.ofQuad r) rnd sat set := by
  simp [State.copyWork, h]

theorem State.copyWork_gather {s : State} {o : EngineOp} {d r : Quad} {rows : List (Nat × Nat)} {nosw : Bool}
    (h : o.kind = .gather d r rows nosw) : s.copyWork o = s.gatherData o.who (Cap.ofQuad d) (Cap.ofQuad r) rows nosw := by
  simp [State.copyWork, h]

theorem State.copyWork_scatter {s : State} {o : EngineOp} {d r : Quad} {rows : List (Nat × Nat)} {nosw : Bool} {set : BitVec 16}
    (h : o.kind = .scatter d r rows nosw set) :
    s.copyWork o = s.scatterData o.who (Cap.ofQuad d) (Cap.ofQuad r) rows nosw set := by
  simp [State.copyWork, h]

theorem engRead_scratch {s : State} {w : Who} {va n : Nat} (h : (windowOf va).1 = .scratch) (hw : w.crew = s.crew.id) :
    s.engRead w va n = .ok (s.crew.scratchRead (va - Config.scratchBase) n, s) := by
  rw [State.engRead, if_pos h, State.findCrew, if_pos hw.symm]

/-- What a copy-engine operation that is over leaves: its report, the memory system of its accesses, and their scratch. -/
theorem copyOp_ends {s : State} {op : Nat} {o : EngineOp} (hf : s.findOp op = some o) (hk : o.kind.isCopy = true)
    (hp : o.phase = .started) (hc : o.cancel = false) (hu : o.unproven = []) {x : OpResult} {u : State}
    (hw : s.copyWork o = .ok (x, u)) (hs : s.Worked u) {y : Sys} (hy : u.sys = y) {p : State → Prop}
    (hpost : ∀ t : State, t.crew.scratch = u.crew.scratch → p t) :
    ∃ t, exec (.copyOpComplete op) s = .next t ∧ s.Reported t o x.code x.flags x.result ∧ t.sys = y ∧ p t := by
  obtain ⟨h1, h2, -, h4⟩ := hs.ends (OpKind.isMatrix_of_isCopy hk) x.code x.flags x.result
  exact ⟨_, copyOp_done hf hk hp hc hu hw, h1, h2.trans hy, hpost _ h4⟩

/-- The scratch that bytes written to it leave, byte by byte. -/
theorem State.engWrite_scratch_bytes {s : State} {w : Who} {set : BitVec 16} {va n : Nat} {data : List Byte}
    (hs : (windowOf va).1 = .scratch) (hw : w.crew = s.crew.id) (hn : data.length = n) :
    ∃ t, s.engWrite w set va data = .ok t ∧ t.sys = s.sys ∧
      ∀ k, k < n → some (t.crew.scratch.get 0 (va - Config.scratchBase + k)) = data[k]? := by
  obtain ⟨t, h1, h2, h3⟩ := State.engWrite_scratch (set := set) (data := data) hs hw
  refine ⟨t, h1, h2, fun k hk => ?_⟩
  rw [h3 k (by omega), List.getElem?_eq_getElem]

theorem copyEngineWork : Claims.CopyEngineWork := by
  constructor
  · intro cluster s o before after hops mine hm hq hb hfree
    exact copyOpStarts (State.nextCopy_eq hops hm.1 hm.2 hq hb hfree)
  intro op s o hf hk hp ends off
  have hnoL1 := o.who_noL1
  refine ⟨fun hc => ?_, fun hc h x s1 hu hr hn => ?_, ?_, ?_, ?_⟩
  · obtain ⟨h1, h2, h3, -⟩ := (State.Worked.refl s).ends (OpKind.isMatrix_of_isCopy hk) 1 0 0
    exact ⟨_, copyOp_cancelled hf hk hp hc, h1, h2, h3 _⟩
  · obtain ⟨h1, h2, -⟩ := (State.Worked.refl s).ends (OpKind.isMatrix_of_isCopy hk) 0x0189 0 0
    exact ⟨_, copyOp_unreachable hf hk hp hc hu hr hn, h1, h2, trivial⟩
  · intro hc hu d r rnd sat set hkind dst src hd hs hfmt hdb hsb hlen hl
    refine ⟨fun b s1 s2 hr hw => ?_, fun hsw hdw hcrew => ?_⟩
    · obtain ⟨v, hv, hsys, -, hkeep⟩ := State.copyData_linear (rnd := rnd) (sat := sat) hd hs hfmt hdb hsb hlen hl hr
        (State.engRead_length hnoL1 hr) hw
      exact copyOp_ends hf hk hp hc hu ((State.copyWork_copy hkind).trans hv)
        (((State.worked_engRead hnoL1 hr).trans (State.worked_engWrite hnoL1 hw)).trans hkeep) hsys fun _ _ => trivial
    · have hr := engRead_scratch (w := o.who) (n := src.len) hsw hcrew
      have hb := State.engRead_length hnoL1 hr
      obtain ⟨s2, hw, hsys2, hbytes⟩ := State.engWrite_scratch_bytes (w := o.who) (set := set) hdw hcrew hb
      obtain ⟨v, hv, hsys, hscr, hkeep⟩ := State.copyData_linear (rnd := rnd) (sat := sat) hd hs hfmt hdb hsb hlen hl hr hb hw
      refine copyOp_ends hf hk hp hc hu ((State.copyWork_copy hkind).trans hv)
        ((State.worked_engWrite hnoL1 hw).trans hkeep) (hsys.trans hsys2) fun t ht k hk => ?_
      rw [ht, hscr]
      refine Option.some.inj ((hbytes k hk).trans ?_)
      simp [Crew.scratchRead, hk, off]
  · intro hc hu d r row idx nosw hkind hcrew sc mc size at' hsw hm hswz
    refine ⟨fun hring hidx => ?_, fun hv b s1 hr => ?_⟩
    · have hb : (swizzle nosw row sc.rb (List.replicate size 0)).length = size := by
        rw [swizzle_length hswz (by simp [size]), List.length_replicate]
      obtain ⟨u, hw, hsys, hbytes⟩ := State.engWrite_scratch_bytes (w := o.who) (set := 0) hsw hcrew hb
      refine copyOp_ends hf hk hp hc hu ((State.copyWork_gather hkind).trans (State.gatherData_noRow hm hring hidx hw))
        (State.worked_engWrite hnoL1 hw) hsys fun t ht k hk => ?_
      have hbyte := hbytes k hk
      rw [swizzle_getElem? hswz (by simp [size])] at hbyte
      rw [ht]
      exact (List.mem_replicate.1 (List.mem_of_getElem? hbyte.symm)).2
    · have hb : (swizzle nosw row sc.rb b).length = size := by
        rw [swizzle_length hswz (by rw [State.engRead_length hnoL1 hr]; simp [size]), State.engRead_length hnoL1 hr]
      have hrw := State.worked_engRead hnoL1 hr
      obtain ⟨u, hw, hsys, hbytes⟩ := State.engWrite_scratch_bytes (s := s1) (w := o.who) (set := 0) hsw (hcrew.trans hrw.crewId.symm) hb
      refine copyOp_ends hf hk hp hc hu ((State.copyWork_gather hkind).trans (State.gatherData_row hm hv hr hw))
        (hrw.trans (State.worked_engWrite hnoL1 hw)) hsys fun t ht k hk => ?_
      rw [ht, hbytes k hk, swizzle_getElem? hswz (by rw [State.engRead_length hnoL1 hr]; simp [size])]
  · intro hc hu d r row idx nosw set hkind mc sc hm
    refine ⟨fun hring hidx => ?_, fun hv b s1 s2 hr hw => ?_⟩
    · exact copyOp_ends hf hk hp hc hu ((State.copyWork_scatter hkind).trans (State.scatterData_noRow hm hring hidx))
        (.refl s) rfl fun _ _ => trivial
    · exact copyOp_ends hf hk hp hc hu ((State.copyWork_scatter hkind).trans (State.scatterData_row hm hv hr hw))
        ((State.worked_engRead hnoL1 hr).trans (State.worked_engWrite hnoL1 hw)) rfl fun _ _ => trivial

/-- R78, R191: every element is converted alone. -/
theorem copyConversion : Claims.CopyConversion := by
  intro dst src rnd sat codes hbs _ _ _ _ _ _ out
  have key : ∀ (l : List Nat) (k : Nat), (convertCodes dst src rnd sat [] k l).1 =
      l.map fun c => (convertElement (fmtTy dst.fmt) (fmtTy src.fmt) rnd sat c 0).bits := by
    intro l
    induction l with
    | nil => intro k; rfl
    | cons c l ih =>
      intro k
      rw [convertCodes, List.map_cons, ← ih (k + 1)]
      simp [elementValue, hbs, convertElement]
  have hout : out = codes.map fun c => (convertElement (fmtTy dst.fmt) (fmtTy src.fmt) rnd sat c 0).bits := key codes 0
  rw [hout]
  refine ⟨List.length_map _, fun k c hc => ⟨_, convertElement_isConversion _ _ _ _ _ _, ?_⟩⟩
  rw [List.getElem?_map, hc]
  rfl

/-- Settles O27: what issue, the engine's accesses and the end of an operation do, and the conversion of each element. -/
theorem copyEngines : Obligations.CopyEngines := ⟨copyEngineWork, copyConversion⟩

end Sys2Proof.Machine
end

section
/-! SUPPORT. Matrix runs (R236-R250): what a run leaves of its core's accumulator, and the sums it forms. -/

namespace Sys2Proof

/-- Distinct keys of a list of updates: each entry takes its own, from what stood there. -/
theorem Sparse.get_foldl_updates {α β : Type} [DecidableEq α] (d : α) (key : β → Nat) (f : β → α → α) {l : List β}
    (hl : (l.map key).Nodup) (m : Sparse α) :
    (∀ e ∈ l, Sparse.get d (l.foldl (fun m e => Sparse.upd d m (key e) (f e)) m) (key e) = f e (Sparse.get d m (key e))) ∧
      ∀ k, k ∉ l.map key → Sparse.get d (l.foldl (fun m e => Sparse.upd d m (key e) (f e)) m) k = Sparse.get d m k := by
  induction l generalizing m with
  | nil => simp
  | cons x l ih =>
    obtain ⟨fresh, hl⟩ := List.nodup_cons.1 hl
    obtain ⟨hin, hout⟩ := ih hl (Sparse.upd d m (key x) (f x))
    refine ⟨fun e he => ?_, fun k hk => ?_⟩
    · rcases List.mem_cons.1 he with rfl | he
      · rw [List.foldl_cons, hout _ fresh, Sparse.get_upd, if_pos rfl]
      · have apart : key e ≠ key x := fun h => fresh (h ▸ List.mem_map_of_mem he)
        rw [List.foldl_cons, hin e he, Sparse.get_upd, if_neg apart]
    · rw [List.map_cons, List.mem_cons, not_or] at hk
      rw [List.foldl_cons, hout k hk.2, Sparse.get_upd, if_neg hk.1]

end Sys2Proof

namespace Sys2Proof.Machine

/-! ### The rows of a run -/

/-- What a run makes of one accumulator word (R237). -/
def Core.element (k : Core) (m : AccMode) (sf : Nat) (acc : Bool) (a : Activation) (w : Column) (x : Word) : Word :=
  let old : Word := if acc then x else 0
  (if m = .i then runInt sf k.active.fmt.code a w old else runFloat sf k.active.fmt.code (!acc) a w old).1

/-- A row of a run writes its accumulator words and the row's mode. -/
theorem Core.runRow_eq (k : Core) (m : AccMode) (sf : Nat) (acc : Bool) (cols : List Column) (row : Nat) (a : Activation) :
    (k.runRow m sf acc cols row a).1 = { k with
      accMode := Sparse.put .none k.accMode row m,
      acc := ((List.range cols.length).zip cols).foldl (fun t e =>
        Sparse.upd 0 t (row * 128 + e.1) (k.element m sf acc a e.2)) k.acc } := by
  unfold Core.runRow
  dsimp only
  generalize (List.range cols.length).zip cols = es
  suffices h : ∀ x : Core × BitVec 8, (es.foldl (fun (x : Core × BitVec 8) e =>
      let at' := row * 128 + e.1
      let old : Word := if acc then x.1.acc.get 0 at' else 0
      let (v, fl) := if m = .i then runInt sf k.active.fmt.code a e.2 old else runFloat sf k.active.fmt.code (!acc) a e.2 old
      ({ x.1 with acc := Sparse.put 0 x.1.acc at' v }, x.2 ||| fl)) x).1 = { x.1 with
        acc := es.foldl (fun t e => Sparse.upd 0 t (row * 128 + e.1) (k.element m sf acc a e.2)) x.1.acc } from h _
  induction es with
  | nil => exact fun _ => rfl
  | cons e es ih => intro x; rw [List.foldl_cons, ih]; rfl

theorem zip_range_keys {α : Type} (l : List α) (f : Nat → Nat) :
    ((List.range l.length).zip l).map (fun e => f e.1) = (List.range l.length).map f := by
  have h := congrArg (List.map f) (List.map_fst_zip (l₁ := List.range l.length) (l₂ := l) (by simp))
  rwa [List.map_map] at h

/-- Of two cores the second has run `n` rows from `first` on: their words by `v` and their mode, and nothing else. -/
structure Core.Ran (k t : Core) (m : AccMode) (first n : Nat) (v : Nat → Nat → Word → Word) : Prop where
  row : ∀ r j, r < n → j < 128 → t.acc.get 0 ((first + r) * 128 + j) = v r j (k.acc.get 0 ((first + r) * 128 + j))
  mode : ∀ r, r < n → t.accMode.get .none (first + r) = m
  other : ∀ c, c < first * 128 ∨ (first + n) * 128 ≤ c → t.acc.get 0 c = k.acc.get 0 c
  active : t.active = k.active

/-- One more row. -/
theorem Core.Ran.step {k t : Core} {m : AccMode} {first n : Nat} {sf : Nat} {acc : Bool} {cols : List Column}
    {a : Nat → Activation} (hc : cols.length = 128)
    (h : k.Ran t m first n fun r j => k.element m sf acc (a r) (cols.getD j ⟨[], [], 0⟩)) :
    k.Ran (t.runRow m sf acc cols (first + n) (a n)).1 m first (n + 1)
      fun r j => k.element m sf acc (a r) (cols.getD j ⟨[], [], 0⟩) := by
  obtain ⟨hrow, hmode, hother, hactive⟩ := h
  have keys : ((List.range cols.length).zip cols).map (fun e => (first + n) * 128 + e.1) =
      (List.range 128).map fun j => (first + n) * 128 + j := by rw [zip_range_keys cols fun j => (first + n) * 128 + j, hc]
  have nodup : (((List.range cols.length).zip cols).map fun e => (first + n) * 128 + e.1).Nodup := by
    rw [keys]; exact List.nodup_range.map fun i j h => Nat.add_left_cancel h
  obtain ⟨hin, hout⟩ := Sparse.get_foldl_updates 0 (fun e : Nat × Column => (first + n) * 128 + e.1)
    (fun e => t.element m sf acc (a n) e.2) nodup t.acc
  rw [keys] at hout
  have outside : ∀ c, c < (first + n) * 128 ∨ (first + n) * 128 + 128 ≤ c →
      c ∉ (List.range 128).map fun j => (first + n) * 128 + j := by
    intro c hc hm
    obtain ⟨j, hj, rfl⟩ := List.mem_map.1 hm
    have := List.mem_range.1 hj
    omega
  rw [Core.runRow_eq]
  refine ⟨fun r j hr hj => ?_, fun r hr => ?_, fun c hc => ?_, hactive⟩
  · by_cases hn : r = n
    · subst hn
      have here : (j, cols.getD j ⟨[], [], 0⟩) ∈ (List.range cols.length).zip cols := by
        refine List.mem_iff_getElem.2 ⟨j, by simp [hc, hj], ?_⟩
        simp [List.getD_eq_getElem?_getD, hc, hj]
      refine (hin _ here).trans ?_
      rw [hother _ (.inr (by dsimp only; omega))]
      unfold Core.element
      rw [hactive]
    · refine (hout _ (outside _ (.inl (by omega)))).trans (hrow r j (by omega) hj)
  · dsimp only
    by_cases hn : r = n
    · rw [hn, Sparse.get_put_same]
    · rw [Sparse.get_put_other _ _ _ _ _ (by omega)]
      exact hmode r (by omega)
  · exact (hout c (outside c (by omega))).trans (hother c (by omega))

/-- The core after the rows of a run, and the flags. -/
def Core.runRows (k : Core) (m : AccMode) (sf : Nat) (acc : Bool) (cols : List Column) (first : Nat) (a : Nat → Activation)
    (n : Nat) : Core × BitVec 8 :=
  (List.range n).foldl (fun (x : Core × BitVec 8) r =>
    let (k', f) := x.1.runRow m sf acc cols (first + r) (a r)
    (k', x.2 ||| f)) (k, 0)

/-- The core after every row of a run (R237, R250). -/
theorem Core.ran_rows (k : Core) (m : AccMode) (sf : Nat) (acc : Bool) {cols : List Column} (hc : cols.length = 128) (first : Nat)
    (a : Nat → Activation) (n : Nat) :
    k.Ran (k.runRows m sf acc cols first a n).1 m first n fun r j => k.element m sf acc (a r) (cols.getD j ⟨[], [], 0⟩) := by
  induction n with
  | zero => exact ⟨fun r j hr => by omega, fun r hr => by omega, fun _ _ => rfl, rfl⟩
  | succ n ih =>
    unfold Core.runRows at ih ⊢
    rw [List.range_succ, List.foldl_append, List.foldl_cons, List.foldl_nil]
    exact ih.step hc

end Sys2Proof.Machine

namespace Sys2Proof

/-! ### The values of a run -/

/-- A finite value: neither NaN nor an infinity. -/
def FVal.Finite (v : FVal) : Prop := v.isNan = false ∧ v.isInf = false

theorem FVal.finite_iff (v : FVal) : v.Finite ↔ ∃ n m e, v = .num n m e := by
  cases v <;> simp [FVal.Finite, FVal.isNan, FVal.isInf]

theorem FVal.times_finite (a b : FVal) : (a.times b).Finite := ⟨FVal.times_isNan a b, FVal.times_isInf a b⟩

theorem FVal.Finite.times_real {a b : FVal} (ha : a.Finite) (hb : b.Finite) : (a.times b).real = a.real * b.real := by
  rw [FVal.times_real, if_neg (by simp [ha.1, ha.2, hb.1, hb.2])]

theorem FVal.Finite.times_neg {a b : FVal} (ha : a.Finite) (hb : b.Finite) : (a.times b).neg = (a.neg != b.neg) := by
  obtain ⟨n, m, e, rfl⟩ := a.finite_iff.1 ha
  obtain ⟨n', m', e', rfl⟩ := b.finite_iff.1 hb
  rfl

theorem FVal.Finite.zeroTimesInf {a b : FVal} (ha : a.Finite) (hb : b.Finite) : zeroTimesInf a b = false := by
  simp [Sys2Proof.zeroTimesInf, ha.2, hb.2]

/-- A value with the minus sign is no positive number. -/
theorem FVal.real_nonpos {v : FVal} (h : v.neg = true) : v.real ≤ 0 := by
  cases v with
  | nan b => exact le_refl _
  | inf n => exact le_refl _
  | num n m e =>
    have hp : (0:ℝ) ≤ m * 2 ^ e := by positivity
    simp only [FVal.neg] at h
    simp only [FVal.real, h, if_true]
    linarith

/-- Values with the minus sign whose sum is zero are zeros. -/
theorem FVal.real_zero_of_sum {vs : List FVal} (hneg : ∀ v ∈ vs, v.neg = true) (hs : (vs.map FVal.real).sum = 0) :
    ∀ v ∈ vs, v.real = 0 := by
  induction vs with
  | nil => simp
  | cons v vs ih =>
    have hv := FVal.real_nonpos (hneg v List.mem_cons_self)
    have hrest : (vs.map FVal.real).sum ≤ 0 := by
      refine (List.sum_le_sum fun w hw => FVal.real_nonpos (hneg w (List.mem_cons_of_mem _ hw))).trans_eq ?_
      simp
    rw [List.map_cons, List.sum_cons] at hs
    intro w hw
    rcases List.mem_cons.1 hw with rfl | hw
    · linarith
    · exact ih (fun w hw => hneg w (List.mem_cons_of_mem _ hw)) (by linarith) w hw

theorem FloatFmt.signed_lt (f : FloatFmt) (neg : Bool) {b : Nat} (h : b < 2 ^ f.signBit) : f.signed neg b < 2 ^ (f.signBit + 1) := by
  unfold FloatFmt.signed
  rw [Nat.pow_succ]
  split <;> omega

/-- A rounded result fits the width of its format. -/
theorem FloatFmt.round_lt (f : FloatFmt) (hm : f.maxBits < 2 ^ f.signBit) (hi : f.infBits < 2 ^ f.signBit) (mode : Nat)
    (sat neg : Bool) (x : Mag) (st : Word) : (f.round mode sat neg x st).bits < 2 ^ (f.signBit + 1) := by
  unfold FloatFmt.round
  split
  · exact f.signed_lt neg (Nat.two_pow_pos _)
  · dsimp only
    split
    · split
      · exact f.signed_lt neg hi
      · exact f.signed_lt neg hm
    · next h => exact f.signed_lt neg (lt_of_le_of_lt (not_lt.1 h) hm)

/-- The word of a rounded F32 result is its pattern. -/
theorem FloatFmt.RoundOf.toNat {mode : Nat} {sat : Bool} {q : ℝ} {st : Word} {r : FRes}
    (h : Ty.f32.floatFmt.RoundOf mode sat q st r) : (BitVec.ofNat 32 r.bits).toNat = r.bits := by
  obtain ⟨x, neg, -, -, rfl⟩ := h
  rw [BitVec.toNat_ofNat]
  exact Nat.mod_eq_of_lt (Ty.f32.floatFmt.round_lt (by decide) (by decide) mode sat neg x st)

/-- A finite value that is no zero is converted with one rounding. -/
theorem FloatFmt.convert_rounds (f : FloatFmt) {v : FVal} (hv : v.Finite) (hne : v.real ≠ 0) (mode : Nat) (sat : Bool) (st : Word) :
    f.RoundOf mode sat v.real st (f.convert mode sat v st) := by
  have h := f.convert_isConverted mode sat v st
  rwa [FloatFmt.IsConverted, if_neg (by simp [hv.1, hv.2]), if_neg fun hz => hne ((v.real_eq_zero hv.1 hv.2).2 hz)] at h

/-- A zero is converted with its sign. -/
theorem FloatFmt.convert_zero (f : FloatFmt) {v : FVal} (hv : v.Finite) (h0 : v.real = 0) (mode : Nat) (sat : Bool) (st : Word) :
    f.convert mode sat v st = f.zero mode v.neg st := by
  have h := f.convert_isConverted mode sat v st
  rwa [FloatFmt.IsConverted, if_neg (by simp [hv.1, hv.2]), if_pos ((v.real_eq_zero hv.1 hv.2).1 h0)] at h

/-- Two finite values whose sum is no zero are added with one rounding. -/
theorem FloatFmt.add_rounds (f : FloatFmt) {a b : FVal} (ha : a.Finite) (hb : b.Finite) (hne : a.real + b.real ≠ 0) (mode : Nat)
    (sat : Bool) (st : Word) : f.RoundOf mode sat (a.real + b.real) st (f.add mode sat a b st) := by
  have h := f.add_isSum mode sat a b st
  rwa [FloatFmt.IsSum, if_neg (by simp [ha.1, hb.1]), if_neg (by simp [ha.2]), if_neg (by simp [ha.2, hb.2]), if_pos hne] at h

end Sys2Proof

namespace Sys2Proof.Machine

theorem finite_nan {ps : List (FVal × FVal)} (h : ∀ p ∈ ps, p.1.Finite ∧ p.2.Finite) {f : FVal × FVal → Bool}
    (hf : ∀ a b, a.Finite → b.Finite → f (a, b) = false) : ps.any f = false := by
  rw [List.any_eq_false]
  intro p hp
  rw [hf p.1 p.2 (h p hp).1 (h p hp).2]
  decide

/-- The sum of a group of finite products without block scales is exact; a zero has the minus sign where every product has
(R82). -/
theorem groupSum_finite {ps : List (FVal × FVal)} (h : ∀ p ∈ ps, p.1.Finite ∧ p.2.Finite) :
    ∃ n m e, (groupSum (some 0) (some 0) ps).1 = .num n m e ∧
      (FVal.num n m e).real = (ps.map fun p => p.1.real * p.2.real).sum ∧
      (m = 0 → n = ps.all fun p => (p.1.times p.2).neg) := by
  have vals : ps.map (fun p => (if (some (0 : Int)).isNone then FVal.nan false else p.1,
      if (some (0 : Int)).isNone then FVal.nan false else p.2)) = ps := by simp
  have zi : ps.any (fun p => zeroTimesInf p.1 p.2) = false := finite_nan h fun a b ha hb => ha.zeroTimesInf hb
  have nan : ps.any (fun p => p.1.isNan || p.2.isNan) = false := finite_nan h fun a b ha hb => by simp [ha.1, hb.1]
  have infs : ps.filter (fun p => (p.1.isInf || p.2.isInf) && !p.1.isNan && !p.2.isNan && !zeroTimesInf p.1 p.2) = [] := by
    rw [List.filter_eq_nil_iff]
    intro p hp
    simp [(h p hp).1.2, (h p hp).2.2]
  have hreal := exactSum_real (ps.map fun p => p.1.times p.2) fun v hv => by
    obtain ⟨p, -, rfl⟩ := List.mem_map.1 hv
    exact p.1.times_finite p.2
  have hsum : ((ps.map fun p => p.1.times p.2).map FVal.real).sum = (ps.map fun p => p.1.real * p.2.real).sum := by
    rw [List.map_map]
    exact congrArg List.sum (List.map_congr_left fun p hp => (h p hp).1.times_real (h p hp).2)
  unfold groupSum
  rw [vals]
  dsimp only
  rw [zi, nan, infs]
  simp only [List.any_nil, Bool.or_self, Bool.and_self, Bool.false_eq_true, if_false, add_zero]
  generalize exactSum (ps.map fun p => p.1.times p.2) = nx at hreal
  obtain ⟨n, x⟩ := nx
  refine ⟨_, _, _, rfl, ?_, fun hm => ?_⟩
  · rw [← hsum, ← hreal]
    rcases lt_trichotomy n 0 with hn | rfl | hn
    · have : (n.natAbs : ℝ) = -(n : ℝ) := by
        rw [Nat.cast_natAbs (α := ℝ), abs_of_neg hn, Int.cast_neg]
      simp [FVal.real, hn, hn.ne, this]
    · simp [FVal.real]
    · have : (n.natAbs : ℝ) = (n : ℝ) := by
        rw [Nat.cast_natAbs (α := ℝ), abs_of_pos hn]
      simp [FVal.real, hn.ne', not_lt.2 hn.le, this]
  · have : n = 0 := Int.natAbs_eq_zero.1 hm
    simp [this, List.all_map, Function.comp_def]

/-- A finite sum under a finite column scale: the product is exact; of its zeros, only the product of zeros with the minus sign
and a scale without has the minus sign (R82, R237). -/
theorem scaledSum_finite {n : Bool} {m : Nat} {e : Int} {cs : FVal} (hcs : cs.Finite) :
    (scaledSum (.num n m e) cs).1.Finite ∧ (scaledSum (.num n m e) cs).1.real = (FVal.num n m e).real * cs.real ∧
      ((FVal.num n m e).real * cs.real = 0 → (scaledSum (.num n m e) cs).1.neg = (m = 0 && n && !cs.neg)) := by
  obtain ⟨n', m', e', rfl⟩ := cs.finite_iff.1 hcs
  have hx : exactMul (.num n m e) (.num n' m' e') = (.num (n != n') (m * m') (e + e'), 0) := by
    rw [exactMul, FVal.Finite.zeroTimesInf ⟨rfl, rfl⟩ ⟨rfl, rfl⟩]
    rfl
  have hreal : (FVal.num (n != n') (m * m') (e + e')).real = (FVal.num n m e).real * (FVal.num n' m' e').real :=
    FVal.Finite.times_real (a := .num n m e) (b := .num n' m' e') ⟨rfl, rfl⟩ ⟨rfl, rfl⟩
  have hz : (FVal.num n m e).real * (FVal.num n' m' e').real = 0 ↔ m * m' = 0 := by
    rw [← hreal, FVal.real_eq_zero _ rfl rfl]; simp [FVal.isZero]
  rw [hz, ← hreal]
  unfold scaledSum
  rw [hx]
  by_cases h0 : m * m' = 0
  · rw [h0]
    exact ⟨⟨rfl, rfl⟩, by simp [FVal.real], fun _ => by simp [FVal.neg, FVal.isZero]⟩
  · obtain ⟨k, hk⟩ := Nat.exists_eq_succ_of_ne_zero h0
    rw [hk]
    exact ⟨⟨rfl, rfl⟩, rfl, fun h => absurd h (by simp)⟩

theorem accumulate_fresh (x : Word) (g cs : FVal) : (accumulate true x g cs).1 =
    BitVec.ofNat 32 (Ty.f32.floatFmt.convert RNE false (scaledSum g cs).1 0).bits := by
  simp only [accumulate, if_true]

theorem accumulate_add (x : Word) (g cs : FVal) : (accumulate false x g cs).1 =
    BitVec.ofNat 32 (Ty.f32.floatFmt.add RNE false (Ty.f32.floatFmt.unpack x.toNat) (scaledSum g cs).1 0).bits := by
  simp only [accumulate, Bool.false_eq_true, if_false]

/-- The accumulator word after a group of finite operands: one rounding to nearest even of the exact sum (R82, R237). -/
theorem accumulate_rounds {fresh : Bool} {x : Word} {g cs : FVal} (hv : (scaledSum g cs).1.Finite)
    (hx : (Ty.f32.floatFmt.unpack x.toNat).Finite) (h0 : fresh = true → (Ty.f32.floatFmt.unpack x.toNat).real = 0)
    (hne : (Ty.f32.floatFmt.unpack x.toNat).real + (scaledSum g cs).1.real ≠ 0) :
    ∃ y, Ty.f32.floatFmt.RoundOf RNE false ((Ty.f32.floatFmt.unpack x.toNat).real + (scaledSum g cs).1.real) 0 y ∧
      (accumulate fresh x g cs).1.toNat = y.bits := by
  cases fresh with
  | true =>
    rw [accumulate_fresh]
    rw [h0 rfl, zero_add] at hne ⊢
    have h := Ty.f32.floatFmt.convert_rounds hv hne RNE false 0
    exact ⟨_, h, h.toNat⟩
  | false =>
    rw [accumulate_add]
    have h := Ty.f32.floatFmt.add_rounds hx hv hne RNE false 0
    exact ⟨_, h, h.toNat⟩

/-- A group whose sum is exactly zero and that overwrites its word leaves a zero with the sum's sign (R82, R237). -/
theorem accumulate_zero {x : Word} {g cs : FVal} (hv : (scaledSum g cs).1.Finite) (hr : (scaledSum g cs).1.real = 0) :
    (accumulate true x g cs).1 = if (scaledSum g cs).1.neg then 0x80000000 else 0 := by
  rw [accumulate_fresh, Ty.f32.floatFmt.convert_zero hv hr]
  cases (scaledSum g cs).1.neg <;> rfl

/-! ### The elements of a run -/

theorem foldl_add_sum {α : Type} (l : List α) (f : α → Int) (n : Int) : l.foldl (fun n p => n + f p) n = n + (l.map f).sum := by
  induction l generalizing n with
  | nil => simp
  | cons x l ih => rw [List.foldl_cons, ih, List.map_cons, List.sum_cons, add_assoc]

theorem intCode_weight {fmt : Nat} (h : fmt = 9 ∨ fmt = 12) (x : Nat) : (intCode fmt x).1 = weightInt fmt x := by
  unfold intCode weightInt
  rcases h with rfl | rfl
  · have hs : Ty.source (fmtTy 9) x = (.i ((Ty.i8).toInt x), 0) := rfl
    rw [hs, Ty.toInt_eq_asInt]
    rfl
  · have hs : fmtTy 12 = .t2 := rfl
    rw [hs, Ty.source_t2, if_pos rfl]

theorem intCode_activation {fmt : Nat} (h : fmt = 9 ∨ fmt = 10) (x : Nat) : (intCode fmt x).1 = activationInt fmt x := by
  unfold intCode activationInt
  rcases h with rfl | rfl
  · have hs : Ty.source (fmtTy 9) x = (.i ((Ty.i8).toInt x), 0) := rfl
    rw [hs, Ty.toInt_eq_asInt]
    rfl
  · have hs : Ty.source (fmtTy 10) x = (.i ((Ty.n8).toInt x), 0) := rfl
    rw [hs, Ty.toInt_eq_asInt]
    exact congrArg Int.ofNat (BitVec.toNat_ofNat ..)

section
variable {k : Nat} {a : Activation} {codes : Nat → Nat} (ha : a.codes = (List.range k).map codes)
include ha

/-- The integer mode: the exact sum modulo 2^32 (R83). -/
theorem runInt_eq {sf wf : Nat} (hs : sf = 9 ∨ sf = 10) (hw : wf = 9 ∨ wf = 12) (p : Plane) (j : Nat) (x : Word) :
    (runInt sf wf a (p.column k j) x).1 = BitVec.ofInt 32 (x.toInt + ((List.range k).map fun i =>
      activationInt sf (codes i) * weightInt wf (p.codes.get 0 (j * 256 + i)).toNat).sum) := by
  unfold runInt Plane.column
  dsimp only
  rw [ha, List.zip_map', foldl_add_sum _ fun p : Nat × Nat => (intCode sf p.1).1 * (intCode wf p.2).1, List.map_map]
  refine congrArg (fun l : List Int => BitVec.ofInt 32 (x.toInt + l.sum)) (List.map_congr_left fun i _ => ?_)
  dsimp only [Function.comp]
  rw [intCode_activation hs, intCode_weight hw]

/-- The float mode with one group: its sum goes to the accumulator (R237). -/
theorem runFloat_eq {sf : Nat} (h0 : 0 < k) (h32 : k ≤ 32) (hs : a.scales = [some 0]) {p : Plane} (hp : p.fmt.bs = false) (j : Nat)
    (fresh : Bool) (x : Word) :
    (runFloat sf p.fmt.code fresh a (p.column k j) x).1 = (accumulate fresh x
      (groupSum (some 0) (some 0) ((List.range k).map fun i => ((fmtTy sf).floatFmt.unpack (codes i),
        (fmtTy p.fmt.code).floatFmt.unpack (p.codes.get 0 (j * 256 + i)).toNat))).1
      (Ty.f32.floatFmt.unpack (p.colScales.get oneF32 j).toNat)).1 := by
  have one : ceilDiv k 32 = 1 := by unfold ceilDiv; omega
  have hws : (p.column k j).scales = [some 0] := by
    unfold Plane.column groupScales
    rw [one, hp]
    rfl
  unfold runFloat
  dsimp only
  rw [hs, hws, ha]
  have len : ((List.range k).map codes).length = k := by simp
  rw [len, one]
  have hcodes : (p.column k j).codes = (List.range k).map fun i => (p.codes.get 0 (j * 256 + i)).toNat := rfl
  rw [hcodes, List.map_map, List.map_map, List.zip_map']
  have take : (((List.range k).map fun i => ((((fmtTy sf).floatFmt.unpack ∘ codes) i),
      ((fmtTy p.fmt.code).floatFmt.unpack ∘ fun i => (p.codes.get 0 (j * 256 + i)).toNat) i)).drop (32 * 0)).take 32 =
      (List.range k).map fun i => ((fmtTy sf).floatFmt.unpack (codes i),
        (fmtTy p.fmt.code).floatFmt.unpack (p.codes.get 0 (j * 256 + i)).toNat) := by
    rw [Nat.mul_zero, List.drop_zero, List.take_of_length_le (by simpa using h32)]
    rfl
  show (accumulate (fresh && decide (0 = 0)) x (groupSum (some 0) (some 0) (((_ : List (FVal × FVal)).drop (32 * 0)).take 32)).1 _).1 = _
  rw [take]
  simp
  rfl

end

end Sys2Proof.Machine
end

section
/-! SUPPORT. The events of a matrix run (R239-R243, R250): its checks at dispatch, its end at the matrix engine. -/

namespace Sys2Proof.Machine

/-! ### The end of an entry of the matrix engine -/

theorem State.KeepsHandles.refl (s : State) : s.KeepsHandles s := ⟨rfl, fun _ => ⟨rfl, rfl⟩, fun _ => rfl⟩

theorem State.KeepsHandles.trans {s t u : State} (h : s.KeepsHandles t) (h' : t.KeepsHandles u) : s.KeepsHandles u :=
  ⟨h'.ops.trans h.ops, fun k => ⟨(h'.crews k).1.trans (h.crews k).1, (h'.crews k).2.trans (h.crews k).2⟩,
    fun k => (h'.gangs k).trans (h.gangs k)⟩

theorem State.KeepsHandles.sys (s : State) (y : Sys) : s.KeepsHandles { s with sys := y } :=
  ⟨rfl, fun _ => ⟨rfl, rfl⟩, fun _ => rfl⟩

theorem State.SameGangIds.keepsHandles {s t : State} (h : s.SameGangIds t) : s.KeepsHandles t :=
  ⟨by rw [h.1], fun k => by rw [h.findCrew]; exact ⟨rfl, rfl⟩, h.2⟩

theorem State.keepsHandles_updCrew (s : State) (id : Nat) {f : Crew → Crew} (hid : ∀ c, (f c).id = c.id)
    (hh : ∀ c, (f c).handles = c.handles) (hc : ∀ c, (f c).core = c.core) : s.KeepsHandles (s.updCrew id f) :=
  (s.worked_updCrew id hid hh hc).keepsHandles

theorem State.updCrew_sys (s : State) (id : Nat) (f : Crew → Crew) : (s.updCrew id f).sys = s.sys := by
  unfold State.updCrew; split <;> (try split) <;> rfl

/-- What an arrival at a barrier does to its crew's gangs. -/
theorem State.arrive_sameGangIds (s : State) (crew b : Nat) :
    (s.updCrew crew fun c => c.arrive b).SameGangIds (s.arrive crew b) := by
  unfold State.arrive
  dsimp only
  split
  · exact State.sameGangIds_foldl (fun s (g : Gang) => s.sameGangIds_updGang g.id (f := fun g => g.pass b) fun _ => rfl) _ _
  · exact .refl _

theorem State.keepsHandles_arrive (s : State) (crew b : Nat) : s.KeepsHandles (s.arrive crew b) :=
  (s.keepsHandles_updCrew crew (f := fun c => c.arrive b) (fun _ => rfl) (fun _ => rfl) fun _ => rfl).trans
    (s.arrive_sameGangIds crew b).keepsHandles

theorem State.arrive_sys (s : State) (crew b : Nat) : (s.arrive crew b).sys = s.sys := by
  rw [(s.arrive_sameGangIds crew b).1]
  exact s.updCrew_sys crew _

/-- An entry that has not arrived at its barrier arrives (R242). -/
def State.engineArrives (s : State) (o : EngineOp) : State :=
  match o.barrier with
  | some b => if o.arrived then s else s.arrive o.crewId b
  | none => s

/-- A weight load leaves its plane FULL or EMPTY (R241). -/
def State.loadEnds (s : State) (o : EngineOp) (good : Bool) : State :=
  if o.kind.isLoadw && o.phase ≠ .queued then
    { s with sys := s.sys.updCore o.core fun k => { k with shadow := k.shadow.loaded o.crewId good } }
  else s

/-- A drain that fails gives its rows back (R188, R254). -/
def State.rowsReturn (s : State) (o : EngineOp) (good : Bool) : State :=
  match o.rows, o.kind.clears with
  | some rows, some base =>
      if good then s
      else { s with sys := s.sys.updCore o.core fun k => k.restoreRows ((s.findCrew o.crewId).accBase + base) rows o.kept }
  | _, _ => s

/-- The flags of an entry and its wait for a token go to its crew's registers (R237, R243). -/
def Crew.countEntry (flags : BitVec 8) (n : Nat) (c : Crew) : Crew :=
  { c with mxFlags := c.mxFlags ||| flags, tokWait := c.tokWait + BitVec.ofNat 64 n }

theorem State.endMatrix_eq (s : State) {o : EngineOp} (h : o.kind.isMatrix = true) (good : Bool) (flags : BitVec 8) :
    s.endMatrix o good flags =
      let t := ((s.engineArrives o).loadEnds o good).rowsReturn o good
      t.updCrew o.crewId (Crew.countEntry flags (t.waited o)) := by
  unfold State.endMatrix
  rw [h]
  rfl

theorem State.keepsHandles_engineArrives (s : State) (o : EngineOp) : s.KeepsHandles (s.engineArrives o) := by
  unfold State.engineArrives
  split
  · split
    · exact .refl s
    · exact s.keepsHandles_arrive _ _
  · exact .refl s

theorem State.keepsHandles_loadEnds (s : State) (o : EngineOp) (good : Bool) : s.KeepsHandles (s.loadEnds o good) := by
  unfold State.loadEnds
  split
  · exact .sys _ _
  · exact .refl s

theorem State.keepsHandles_rowsReturn (s : State) (o : EngineOp) (good : Bool) : s.KeepsHandles (s.rowsReturn o good) := by
  unfold State.rowsReturn
  split
  · split
    · exact .refl s
    · exact .sys _ _
  · exact .refl s

/-- The end of an entry of the matrix engine changes no operation, number or handle (R237, R241-R243). -/
theorem State.keepsHandles_endMatrix (s : State) (o : EngineOp) (good : Bool) (flags : BitVec 8) :
    s.KeepsHandles (s.endMatrix o good flags) := by
  cases h : o.kind.isMatrix with
  | false => rw [s.endMatrix_other h]; exact .refl s
  | true =>
    rw [s.endMatrix_eq h]
    exact (((s.keepsHandles_engineArrives o).trans (State.keepsHandles_loadEnds _ o good)).trans
      (State.keepsHandles_rowsReturn _ o good)).trans (State.keepsHandles_updCrew _ _ (fun _ => rfl) (fun _ => rfl) fun _ => rfl)

theorem State.engineArrives_sys (s : State) (o : EngineOp) : (s.engineArrives o).sys = s.sys := by
  unfold State.engineArrives
  split
  · split
    · rfl
    · exact s.arrive_sys _ _
  · rfl

/-- The end of a run leaves the memory system alone. -/
theorem State.endMatrix_run_sys (s : State) {o : EngineOp} (h : o.kind.isRun = true) (good : Bool) (flags : BitVec 8) :
    (s.endMatrix o good flags).sys = s.sys := by
  have matrix : o.kind.isMatrix = true := by revert h; cases o.kind <;> simp [OpKind.isRun, OpKind.isMatrix]
  have load : o.kind.isLoadw = false := by revert h; cases o.kind <;> simp [OpKind.isRun, OpKind.isLoadw]
  have clears : o.kind.clears = none := by revert h; cases o.kind <;> simp [OpKind.isRun, OpKind.clears]
  have loads (t : State) : t.loadEnds o good = t := by simp [State.loadEnds, load]
  have returns (t : State) : t.rowsReturn o good = t := by
    unfold State.rowsReturn
    rw [clears]
    cases o.rows <;> rfl
  rw [s.endMatrix_eq matrix]
  dsimp only
  rw [State.updCrew_sys, returns, loads, s.engineArrives_sys]

/-- A run that is over is reported; the memory system is as its work left it. -/
theorem State.finishOp_run {s u : State} {o : EngineOp} (hk : o.kind.isRun = true) (h : s.KeepsHandles u) (code : BitVec 16)
    (flags : BitVec 8) (result : Nat) :
    s.Reported (u.finishOp o code flags result) o code flags result ∧ (u.finishOp o code flags result).sys = u.sys :=
  ⟨State.reported_finishOp (h.trans (u.keepsHandles_endMatrix o _ _)), by
    rw [State.finishOp_frame]; exact u.endMatrix_run_sys hk _ _⟩

/-! ### The events of a run -/

section
variable {s : State} {op : Nat} {o : EngineOp} (hf : s.findOp op = some o) (hc : o.cancel = false)
  {q : Quad} {rows row0 k accRow : Nat} {acc had swz : Bool} {hn : Nat} {hexp : Int}
  (hk : o.kind = .mxrun q rows row0 k accRow acc had swz hn hexp)
include hf hc hk

/-- A run dispatches after its checks (R250). -/
theorem mxrunDispatch_checks (hd : s.mayDispatch o = true) : exec (.mxrunDispatch op) s =
    .next (match s.runChecks o (Cap.ofQuad q) k with
      | some c => s.finishOp o (causeCode c) 0 0
      | none => s.updOp o.id fun x => { x with phase := .started, since := s.clock }) := by
  show execMxrunDispatch op s = _
  unfold execMxrunDispatch State.dispatch
  simp only [hf, hd, hk, hc, OpKind.isRun, OpKind.readsMemory, Bool.and_self, if_true, Bool.false_eq_true, if_false] <;> rfl

/-- A run that streams its rows ends with what it did (R250). -/
theorem mxrunComplete_ends (hu : o.unproven = []) (hp : o.phase = .started) (ht : s.tokenHere (o.core / 4) = true)
    (hr : s.mayRead o = true) (hs : s.rowsSettled o = true) (hfen : ∀ e ∈ (s.findCrew o.crewId).unfenced, ∀ x ∈ e.2, x.1 < o.fence) :
    exec (.mxrunComplete op) s =
      .next (let r := s.runWork o (Cap.ofQuad q) rows row0 k accRow acc had swz hn hexp
        r.2.finishOp o r.1.code r.1.flags r.1.result) := by
  have done : s.runDone o = true := by simp [State.runDone, hp, ht, hr, hs]
  have proven : s.prove o = .ok s := by
    unfold State.prove
    rw [State.findOp_id hf, hf, Option.getD_some, hu]
    rfl
  have fenced : ((s.findCrew o.crewId).unfenced.all fun e => (o.olds e).isEmpty) = true := by
    rw [List.all_eq_true]
    intro e he
    unfold EngineOp.olds
    split
    · have none : e.2.filter (fun x => decide (o.fence ≤ x.1)) = [] := by
        rw [List.filter_eq_nil_iff]
        intro x hx
        have := hfen e he x hx
        simpa using this
      rw [none]
      rfl
    · rfl
  have work : s.matrixWork o = .ok (s.runWork o (Cap.ofQuad q) rows row0 k accRow acc had swz hn hexp) := by
    unfold State.matrixWork State.seeing
    rw [hk]
    dsimp only
    rw [if_pos fenced]
  show execMxrunComplete op s = _
  unfold execMxrunComplete
  rw [hf]
  dsimp only
  rw [if_pos (by rw [done, hk]; rfl)]
  unfold State.completeMatrix State.complete
  rw [if_neg (by rw [hp]; decide), if_neg (by simp [hc]), proven]
  dsimp only
  rw [work]
  rfl

end

/-- The checks of a run that finds no weights of its crew (R250). -/
theorem State.runChecks_noWeights {s : State} {o : EngineOp} (st : Cap) (k : Nat)
    (h : (s.sys.core o.core).active.full = false ∨ (s.sys.core o.core).active.owner ≠ o.crewId) :
    s.runChecks o st k = some cMxNoweights := by
  unfold State.runChecks
  rw [if_pos (by simpa using h)]

/-- The checks that a run passes (R250). -/
theorem State.runChecks_none {s : State} {o : EngineOp} {st : Cap} {k : Nat} (hfull : (s.sys.core o.core).active.full = true)
    (hown : (s.sys.core o.core).active.owner = o.crewId) (hpair : pairMode (s.sys.core o.core).active.fmt st.format ≠ none)
    (hdepth : k ≤ depthK (s.sys.core o.core).active.fmt.code) : s.runChecks o st k = none := by
  unfold State.runChecks
  rw [if_neg (by simp [hfull, hown]), if_neg (by simpa using hpair), if_neg (by omega)]

/-- What a run that meets no other mode does: its rows, one after another (R239, R250). -/
theorem State.runWork_rows {s : State} {o : EngineOp} {st : Cap} {m : AccMode} {rows accRow : Nat} {acc : Bool}
    (hm : pairMode (s.sys.core o.core).active.fmt st.format = some m)
    (hmodes : ¬(acc && (List.range rows).any fun r =>
      otherMode m ((s.sys.core o.core).accMode.get .none ((s.findCrew o.crewId).accBase + accRow + r))) = true)
    (row0 k : Nat) (had swz : Bool) (hn : Nat) (hexp : Int) :
    ∃ cf : Core × BitVec 8, cf = (s.sys.core o.core).runRows m st.fmt acc
        ((List.range 128).map ((s.sys.core o.core).active.column k)) ((s.findCrew o.crewId).accBase + accRow)
        ((s.findCrew o.crewId).activation st row0 k had swz hn hexp) rows ∧
      s.runWork o st rows row0 k accRow acc had swz hn hexp = ({ flags := cf.2, result := rows },
        ({ s with sys := s.sys.updCore o.core fun _ => cf.1 } : State).rowsWritten o.core
          ((s.findCrew o.crewId).accBase + accRow) rows) := by
  refine ⟨_, rfl, ?_⟩
  unfold State.runWork Core.runRows
  simp only [hm, Option.getD_some]
  rw [if_neg hmodes]

/-- The core and the rest of the state after the rows of a run that meets no other mode (R239, R250). -/
theorem State.runWork_ran {s : State} {o : EngineOp} {st : Cap} {m : AccMode} {rows accRow : Nat} {acc : Bool}
    (hm : pairMode (s.sys.core o.core).active.fmt st.format = some m)
    (hmodes : acc = true → ∀ r, r < rows →
      (s.sys.core o.core).accMode.get .none ((s.findCrew o.crewId).accBase + accRow + r) = m ∨
      (s.sys.core o.core).accMode.get .none ((s.findCrew o.crewId).accBase + accRow + r) = .none)
    (row0 k : Nat) (had swz : Bool) (hn : Nat) (hexp : Int) :
    let first := (s.findCrew o.crewId).accBase + accRow
    let core := s.sys.core o.core
    ∃ core' flags, s.runWork o st rows row0 k accRow acc had swz hn hexp =
        ({ flags := flags, result := rows },
          ({ s with sys := s.sys.updCore o.core fun _ => core' } : State).rowsWritten o.core first rows) ∧
      core.Ran core' m first rows fun r j =>
        core.element m st.fmt acc ((s.findCrew o.crewId).activation st row0 k had swz hn hexp r) (core.active.column k j) := by
  intro first core
  have noOther : ¬(acc && (List.range rows).any fun r => otherMode m (core.accMode.get .none (first + r))) = true := by
    rw [Bool.and_eq_true, List.any_eq_true]
    rintro ⟨ha, r, hr, hother⟩
    rcases hmodes ha r (List.mem_range.1 hr) with h | h <;> simp [otherMode, core, first, h] at hother
  obtain ⟨cf, hcf, hwork⟩ := State.runWork_rows hm noOther row0 k had swz hn hexp
  obtain ⟨hrow, hmode, hother, hactive⟩ := core.ran_rows m st.fmt acc
    (cols := (List.range 128).map (core.active.column k)) (by simp) first
    ((s.findCrew o.crewId).activation st row0 k had swz hn hexp) rows
  rw [← hcf] at hrow hmode hother hactive
  refine ⟨cf.1, cf.2, hwork, fun r j hr hj => (hrow r j hr hj).trans ?_, hmode, hother, hactive⟩
  rw [List.getD_eq_getElem?_getD, List.getElem?_map, List.getElem?_range hj]
  rfl

/-- What a run that is over leaves (R239, R250): its rows, the plane and the memory. -/
theorem mxrun_done {s : State} {op : Nat} {o : EngineOp} (hf : s.findOp op = some o) (hc : o.cancel = false) (hu : o.unproven = [])
    {q : Quad} {rows row0 k accRow : Nat} {acc swz : Bool} (hk : o.kind = .mxrun q rows row0 k accRow acc false swz 0 0)
    (hp : o.phase = .started) (ht : s.tokenHere (o.core / 4) = true) (hr : s.mayRead o = true) (hs : s.rowsSettled o = true)
    (hfen : ∀ e ∈ (s.findCrew o.crewId).unfenced, ∀ x ∈ e.2, x.1 < o.fence) {m : AccMode}
    (hm : pairMode (s.sys.core o.core).active.fmt (Cap.ofQuad q).format = some m)
    (hmodes : acc = true → ∀ r, r < rows →
      (s.sys.core o.core).accMode.get .none ((s.findCrew o.crewId).accBase + accRow + r) = m ∨
      (s.sys.core o.core).accMode.get .none ((s.findCrew o.crewId).accBase + accRow + r) = .none)
    {p : Nat → Nat → Word → Prop}
    (hrow : ∀ r j, r < rows → j < 128 → p r j ((s.sys.core o.core).element m (Cap.ofQuad q).fmt acc
      ((s.findCrew o.crewId).activation (Cap.ofQuad q) row0 k false swz 0 0 r) ((s.sys.core o.core).active.column k j)
      ((s.sys.core o.core).acc.get 0 (((s.findCrew o.crewId).accBase + accRow + r) * 128 + j)))) :
    let core := s.sys.core o.core
    let first := (s.findCrew o.crewId).accBase + accRow
    ∃ t flags, exec (.mxrunComplete op) s = .next t ∧ (s.rowsWritten o.core first rows).Reported t o 0 flags rows ∧
      (∀ r j, r < rows → j < 128 → p r j ((t.sys.core o.core).acc.get 0 ((first + r) * 128 + j))) ∧
      (∀ r, r < rows → (t.sys.core o.core).accMode.get .none (first + r) = m) ∧
      (∀ c, c < first * 128 ∨ (first + rows) * 128 ≤ c → (t.sys.core o.core).acc.get 0 c = core.acc.get 0 c) ∧
      (t.sys.core o.core).active = core.active ∧ t.sys.mem = s.sys.mem := by
  intro core first
  obtain ⟨core', flags, hwork, hran⟩ := State.runWork_ran hm hmodes row0 k false swz 0 0
  have ends := mxrunComplete_ends hf hc hk hu hp ht hr hs hfen
  rw [hwork] at ends
  obtain ⟨hrep, hsys⟩ := State.finishOp_run (s := s.rowsWritten o.core first rows)
    (u := ({ s with sys := s.sys.updCore o.core fun _ => core' } : State).rowsWritten o.core first rows) (o := o)
    (by rw [hk]; rfl) ⟨rfl, fun _ => ⟨rfl, rfl⟩, fun _ => rfl⟩ 0 flags rows
  have hcore : ((({ s with sys := s.sys.updCore o.core fun _ => core' } : State).rowsWritten o.core first rows).finishOp o 0 flags
      rows).sys.core o.core = core' := by
    rw [hsys]
    exact (Sys.core_updCore s.sys o.core _ o.core).trans (if_pos rfl)
  refine ⟨_, flags, ends, hrep, ?_⟩
  dsimp only
  rw [hcore]
  refine ⟨fun r j hr hj => ?_, hran.mode, hran.other, hran.active, ?_⟩
  · rw [hran.row r j hr hj]
    exact hrow r j hr hj
  · rw [hsys]
    rfl

/-! ### A row's codes and scales -/

/-- A list is its elements in order. -/
theorem eq_map_getD {l : List Nat} {k : Nat} (h : l.length = k) : l = (List.range k).map fun i => l.getD i 0 := by
  subst h
  refine List.ext_getElem (by simp) fun i hi _ => ?_
  simp [List.getD_eq_getElem?_getD, hi]

section
variable (c : Crew) (st : Cap) (row0 k : Nat) (swz : Bool) (r : Nat)

theorem Crew.activation_codes : (c.activation st row0 k false swz 0 0 r).codes =
    (List.range k).map fun i => (c.activation st row0 k false swz 0 0 r).codes.getD i 0 :=
  eq_map_getD (by simp [Crew.activation, unpackCodes])

theorem Crew.activation_scales (hbs : st.bs = false) (h0 : 0 < k) (h32 : k ≤ 32) :
    (c.activation st row0 k false swz 0 0 r).scales = [some 0] := by
  have one : ceilDiv k 32 = 1 := by unfold ceilDiv; omega
  unfold Crew.activation groupScales
  dsimp only
  rw [one, hbs]
  rfl

end

/-! ### The modes of a run (R236) -/

theorem pairMode_int {p st : Fmt} (hp : p.code = 9 ∨ p.code = 12) (hb : p.bs = false) (hs : st.code = 9 ∨ st.code = 10)
    (hsb : st.bs = false) : pairMode p st = some .i := by
  unfold pairMode
  rw [if_pos (by simp [hp, hb, hs, hsb])]

theorem pairMode_float {fmt : Nat} (h : fmt = 2 ∨ fmt = 3 ∨ fmt = 4) : pairMode ⟨fmt, false⟩ ⟨fmt, false⟩ = some .f := by
  rcases h with rfl | rfl | rfl <;> rfl

/-- The pattern of +0 is the number 0. -/
theorem unpack_zero : (Ty.f32.floatFmt.unpack (0 : Word).toNat).real = 0 := by
  have h : Ty.f32.floatFmt.unpack (0 : Word).toNat = .num false 0 (-149) := by decide
  rw [h]
  simp [FVal.real]

/-! ### The float mode, one group -/

theorem Core.element_float (k : Core) (sf : Nat) (acc : Bool) (a : Activation) (w : Column) (x : Word) :
    k.element .f sf acc a w x = (runFloat sf k.active.fmt.code (!acc) a w (if acc then x else 0)).1 := by
  exact congrArg Prod.fst (if_neg (by decide))

section
variable {k : Nat} {x y : Nat → FVal} (hx : ∀ i, i < k → (x i).Finite) (hy : ∀ i, i < k → (y i).Finite)
include hx hy

/-- The group's sum under its column scale: exact, and a zero has the minus sign where every product has and the scale has
not (R82, R237). -/
theorem group_scaled {cs : FVal} (hcs : cs.Finite) :
    let v := (scaledSum (groupSum (some 0) (some 0) ((List.range k).map fun i => (x i, y i))).1 cs).1
    let sum := ((List.range k).map fun i => (x i).real * (y i).real).sum
    v.Finite ∧ v.real = cs.real * sum ∧
      (sum = 0 → v.neg = (decide (∀ i, i < k → (x i).neg ≠ (y i).neg) && !cs.neg)) := by
  have fin : ∀ p ∈ (List.range k).map fun i => (x i, y i), p.1.Finite ∧ p.2.Finite := by
    intro p hp
    obtain ⟨i, hi, rfl⟩ := List.mem_map.1 hp
    exact ⟨hx i (List.mem_range.1 hi), hy i (List.mem_range.1 hi)⟩
  obtain ⟨n, m, e, hg, hreal, hneg⟩ := groupSum_finite fin
  rw [List.map_map] at hreal
  change _ = ((List.range k).map fun i => (x i).real * (y i).real).sum at hreal
  obtain ⟨hv, hvreal, hvneg⟩ := scaledSum_finite (n := n) (m := m) (e := e) hcs
  intro v sum
  have hveq : v = (scaledSum (.num n m e) cs).1 := by rw [← hg]
  rw [hveq, hvreal, hreal]
  refine ⟨hv, mul_comm _ _, fun hz => ?_⟩
  have hm : m = 0 := by
    have := (FVal.real_eq_zero (.num n m e) rfl rfl).1 (hreal.trans hz)
    simpa [FVal.isZero] using this
  rw [hvneg ((congrArg (· * cs.real) (hreal.trans hz)).trans (zero_mul _)), hneg hm, hm]
  congr 1
  rw [decide_eq_true rfl, Bool.true_and, List.all_map, Bool.eq_iff_iff, List.all_eq_true, decide_eq_true_eq]
  refine ⟨fun h i hi => ?_, fun h i hi => ?_⟩
  · have := h i (List.mem_range.2 hi)
    rw [Function.comp, (hx i hi).times_neg (hy i hi)] at this
    simpa using this
  · have hi := List.mem_range.1 hi
    rw [Function.comp, (hx i hi).times_neg (hy i hi)]
    simpa using h i hi

/-- A group of products whose signs all differ and whose sum is zero: every product is zero. -/
theorem group_zeros (hneg : ∀ i, i < k → (x i).neg ≠ (y i).neg) (hz : ((List.range k).map fun i => (x i).real * (y i).real).sum = 0) :
    ∀ i, i < k → (x i).real * (y i).real = 0 := by
  have hreal : ((List.range k).map fun i => (x i).times (y i)).map FVal.real = (List.range k).map fun i => (x i).real * (y i).real := by
    rw [List.map_map]
    exact List.map_congr_left fun i hi => (hx i (List.mem_range.1 hi)).times_real (hy i (List.mem_range.1 hi))
  have zeros := FVal.real_zero_of_sum (vs := (List.range k).map fun i => (x i).times (y i))
    (fun v hv => by
      obtain ⟨i, hi, rfl⟩ := List.mem_map.1 hv
      have hi := List.mem_range.1 hi
      rw [(hx i hi).times_neg (hy i hi)]
      simpa using hneg i hi) (by rw [hreal, hz])
  intro i hi
  have := zeros _ (List.mem_map_of_mem (List.mem_range.2 hi))
  rwa [(hx i hi).times_real (hy i hi)] at this

end

/-- Settles O30: the rows of a run one after another, and each element's sum exact before its one rounding. -/
theorem matrixRuns : Obligations.MatrixRuns := by
  unfold Obligations.MatrixRuns
  intro op s o hf hc hu q rows row0 k accRow acc swz hk st fenced crew core plane first a w old
  refine ⟨fun hd => ?_, fun hp ht hr hs hfen _ _ => ?_⟩
  · intro bad
    have run := mxrunDispatch_checks hf hc hk hd
    refine ⟨fun hbad => ?_, fun hfull hown hpair hdepth => ?_⟩
    · rw [State.runChecks_noWeights _ _ hbad] at run
      obtain ⟨hrep, hsys⟩ := State.finishOp_run (o := o) (by rw [hk]; rfl) (.refl s) (causeCode cMxNoweights) 0 0
      exact ⟨_, run, hrep, by rw [hsys]⟩
    · have depth : k ≤ depthK plane.fmt.code := by
        simpa [depthK] using hdepth
      rw [State.runChecks_none hfull hown hpair depth] at run
      exact ⟨_, run, rfl, rfl⟩
  · intro done modes
    have ends : ∀ m p, pairMode plane.fmt st.format = some m → modes m → (∀ r j, r < rows → j < 128 → p r j (core.element m st.fmt acc
        (crew.activation st row0 k false swz 0 0 r) (plane.column k j) (core.acc.get 0 ((first + r) * 128 + j)))) → done m p :=
      fun m p hm hmodes hrow => mxrun_done hf hc hu hk hp ht hr hs hfen hm hmodes hrow
    clear_value done
    refine ⟨fun hw hwb hst hsb hmodes => ?_, fun fmt hfmt hpl hst hsb h0 h32 hmodes => ?_⟩
    · refine ends _ _ (pairMode_int hw hwb hst hsb) hmodes fun r j hr hj => ?_
      have codes := crew.activation_codes st row0 k swz r
      exact runInt_eq codes hst hw plane j (old r j)
    · intro f f32 scale finite hfin
      have hpair : pairMode plane.fmt st.format = some .f := by
        have : st.format = ⟨fmt, false⟩ := by rw [← hst, ← hsb]; rfl
        rw [hpl, this]
        exact pairMode_float hfmt
      refine ends _ _ hpair hmodes fun r j hr hj => ?_
      have codes := crew.activation_codes st row0 k swz r
      have scales := crew.activation_scales st row0 k swz r hsb h0 h32
      have hbs : plane.fmt.bs = false := by rw [hpl]
      have hcode : plane.fmt.code = fmt := by rw [hpl]
      have elem := runFloat_eq codes (sf := st.fmt) h0 h32 scales hbs j (!acc) (old r j)
      have hsf : (fmtTy st.fmt).floatFmt = f := by rw [hst]
      have hwf : (fmtTy plane.fmt.code).floatFmt = f := by rw [hcode]
      rw [hsf, hwf] at elem
      have hx : ∀ i, i < k → (f.unpack (a r i)).Finite := fun i hi => (hfin r i j hr hi hj).1
      have hy : ∀ i, i < k → (f.unpack (w j i)).Finite := fun i hi => (hfin r i j hr hi hj).2.1
      have hcs : (scale j).Finite := (hfin r 0 j hr h0 hj).2.2.1
      have hold : (f32.unpack (old r j).toNat).Finite := (hfin r 0 j hr h0 hj).2.2.2
      obtain ⟨hv, hreal, hneg⟩ := group_scaled hx hy hcs
      have elem : core.element .f st.fmt acc (crew.activation st row0 k false swz 0 0 r) (plane.column k j)
          (core.acc.get 0 ((first + r) * 128 + j)) = (accumulate (!acc) (old r j) (groupSum (some 0) (some 0)
            ((List.range k).map fun i => (f.unpack (a r i), f.unpack (w j i)))).1 (scale j)).1 :=
        (core.element_float st.fmt acc _ _ _).trans elem
      rw [elem]
      intro g
      have hg : g = _ := hreal.symm
      rw [hg]
      refine ⟨fun hne => accumulate_rounds hv hold (fun hacc => ?_) hne, fun hacc hz hsc hscneg => ?_⟩
      · have : old r j = 0 := if_neg (by simpa using hacc)
        rw [this]
        exact unpack_zero
      · have hsum := (mul_eq_zero.1 (hreal.symm.trans hz)).resolve_left hsc
        have zero := accumulate_zero (x := old r j) hv hz
        rw [hneg hsum, hscneg] at zero
        rw [hacc]
        refine ⟨fun hall => zero.trans (if_pos ?_), fun ⟨i, hi, hone⟩ => zero.trans (if_neg ?_)⟩
        · simpa using fun i hi => (hall i hi).2
        · intro hall
          have hall : ∀ i, i < k → (f.unpack (a r i)).neg ≠ (f.unpack (w j i)).neg := by simpa using hall
          rcases hone with hne | heq
          · exact hne (group_zeros hx hy hall hsum i hi)
          · exact hall i hi heq

end Sys2Proof.Machine
end

section
/-! SUPPORT. Strands that end or yield (R322-R324): a gang's slot, and what leaves it. -/

namespace Sys2Proof.Machine

/-! ### Going on -/

/-- Outside a handler the run stands at the next PC and its gang waits for nothing. -/
theorem State.wentOn_advance {s t : State} (hh : t.gang.handler = none) (hr : t.run = s.run) (hp : t.ipc = s.ipc) :
    s.WentOn t.advance := by
  unfold State.WentOn State.StandsAt State.advance State.goTo
  rw [hh, hr, hp]
  dsimp only
  have : (t.gang.mapStrands s.run fun x => { x with pc := nextPc s.ipc, via := none }).handler = none := hh
  rw [this]
  refine ⟨fun i hi hm => ?_, rfl⟩
  have := t.gang.strand_mapStrands s.run (fun x => { x with pc := nextPc s.ipc, via := none }) hi
  rw [if_pos hm] at this
  exact congrArg Strand.pc this

/-- An update that is not of the gang in focus. -/
theorem State.findGang_advance (s : State) {k : Nat} (h : k ≠ s.gang.id) : s.advance.findGang k = s.findGang k := by
  unfold State.findGang
  rw [State.advance_gang_id, State.advance_gangs, if_neg (Ne.symm h), if_neg (Ne.symm h)]

theorem State.updGang_self (s : State) (f : Gang → Gang) : s.updGang s.gang.id f = { s with gang := f s.gang } := if_pos rfl

theorem State.updGang_gang (s : State) {id : Nat} (h : id ≠ s.gang.id) (f : Gang → Gang) : (s.updGang id f).gang = s.gang := by
  unfold State.updGang
  rw [if_neg (Ne.symm h)]
  split <;> rfl

/-! ### A gang leaves its slot -/

/-- No gang besides has the number of the gang in focus. -/
def State.FocusAlone (s : State) : Prop := ∀ e ∈ s.gangs, e.2.id ≠ s.gang.id

/-- An update of another gang leaves the focus and its number alone. -/
theorem State.updGang_focusAlone {s : State} (hs : s.FocusAlone) {id : Nat} (hid : id ≠ s.gang.id) {f : Gang → Gang} (hf : keepsId f) :
    (s.updGang id f).gang = s.gang ∧ (s.updGang id f).FocusAlone := by
  refine ⟨s.updGang_gang hid f, ?_⟩
  unfold State.updGang
  rw [if_neg (Ne.symm hid)]
  split
  · exact hs
  · next vacant =>
    intro e he
    rcases Sparse.mem_put he with rfl | he
    · rcases Sparse.get_eq_or_mem {} s.gangs id with h | h
      · exact absurd (congrArg Gang.id h) vacant
      · exact (hf _).trans_ne (hs _ h)
    · exact hs e he

/-- Filling a slot after the gang in focus has left it does not touch that gang (R328). -/
theorem State.promote_gang {s : State} (hs : s.FocusAlone) (hl : s.gang.left = true) (core slot n : Nat) :
    (s.promote core slot n).gang = s.gang := by
  induction n generalizing s with
  | zero => rfl
  | succ n ih =>
    unfold State.promote
    dsimp only
    split
    · split
      · rfl
      · next g hg =>
        have hmem : g ∈ (s.slotGangs core slot).filter fun g => !g.left := by
          unfold firstArrival at hg
          split at hg
          · cases hg
          · exact List.mem_of_mem_filter (List.mem_of_find?_eq_some hg)
        obtain ⟨hslot, hleft⟩ := List.mem_filter.1 hmem
        have apart : g.id ≠ s.gang.id := by
          have hall : g ∈ s.allGangs := List.mem_of_mem_filter hslot
          unfold State.allGangs at hall
          split at hall
          · obtain ⟨e, he, rfl⟩ := List.mem_map.1 hall
            exact hs e he
          · obtain ⟨e, he, rfl⟩ := List.mem_map.1 hall
            rcases (Sparse.mem_insert _ _ _ _).1 he with rfl | he
            · rw [hl] at hleft
              exact absurd hleft (by decide)
            · exact hs e he
        obtain ⟨hgang, halone⟩ := s.updGang_focusAlone hs apart (f := fun g => { g with active := true }) fun _ => rfl
        exact (ih halone (by rw [hgang]; exact hl)).trans hgang
    · rfl

theorem State.promote_gangsOnly (s : State) (core slot n : Nat) : s.GangsOnly (s.promote core slot n) := by
  induction n generalizing s with
  | zero => exact .refl s
  | succ n ih =>
    unfold State.promote
    dsimp only
    split
    · split
      · exact .refl s
      · exact (s.updGang_gangsOnly _ _).trans (ih _)
    · exact .refl s

/-- The gang in focus when its strands may all be DONE: it leaves its slot then (R322). -/
theorem State.retireGang_gang {s : State} (hs : s.FocusAlone) : (s.retireGang s.gang.id).gang =
    if s.gang.live = 0 ∧ s.gang.left = false ∧ s.gang.ej = none then { s.gang with left := true, active := false } else s.gang := by
  have found : ∀ t : State, t.gang = s.gang → t.findGang s.gang.id = s.gang := fun t ht => by rw [← ht]; exact if_pos rfl
  unfold State.retireGang State.leaveSlot
  rw [found s rfl, found (s.dropToken _ _) rfl]
  by_cases hlive : s.gang.live = 0
  · rw [if_pos hlive]
    dsimp only
    by_cases hgo : s.gang.left = false ∧ s.gang.ej = none
    · rw [if_pos (by simp [hlive, hgo]), if_pos ⟨hlive, hgo⟩]
      have hupd : ∀ (t : State) f, t.gang = s.gang → t.updGang s.gang.id f = { t with gang := f s.gang } := fun t f ht => by
        rw [← ht]; exact if_pos rfl
      rw [hupd (s.dropToken _ _) _ rfl]
      exact State.promote_gang (s := { s.dropToken _ _ with gang := { s.gang with left := true, active := false } }) hs rfl ..
    · rw [if_neg (by simpa [hlive] using hgo), if_neg (fun h => hgo h.2)]
      rfl
  · rw [if_neg hlive, if_neg fun h => hlive h.1]

/-- Memory and operations stay when a gang leaves its slot. -/
theorem State.retireGang_kept (s : State) (id : Nat) : (s.retireGang id).sys.mem = s.sys.mem ∧ (s.retireGang id).ops = s.ops := by
  unfold State.retireGang State.leaveSlot
  split
  · dsimp only
    split
    · rw [(State.promote_gangsOnly _ _ _ _).sys, (State.promote_gangsOnly _ _ _ _).ops, State.updGang_sys,
        (State.updGang_gangsOnly _ _ _).ops]
      exact ⟨rfl, rfl⟩
    · exact ⟨rfl, rfl⟩
  · exact ⟨rfl, rfl⟩

/-! ### EXIT, YIELD and NOP -/

theorem exec_yield (x : Fun) (s : State) : exec (.yield x) s = s.sequential { op := .yield } fun s =>
    if s.joinIdle then s
    else
      match s.firstReady s.core s.gang.slot with
      | some g => if s.gang.active then s.swap s.core s.gang.slot s.gang.id g.id else s
      | none => s := rfl

/-- The strands of a run as EXIT leaves them: the guarded ones DONE, the others at the next PC, in no group that the first are in
(R322). -/
def State.exited (s : State) (x : Fun) : State :=
  let t := s.goTo (s.run &&& ~~~s.guard x.hdr) (nextPc s.ipc)
  { t with gang := t.gang.finish (s.guard x.hdr) }

theorem exec_exit {x : Fun} {s : State} (hf : s.flows = true) (hh : s.inHandler = false) (he : s.gang.ej = none) :
    exec (.exit x) s = .next ((s.exited x).retireGang (s.exited x).gang.id) := by
  show execExit x s = _
  unfold execExit State.control State.barred
  simp only [hh, he, hf, Bool.and_false, Bool.false_and, Bool.false_eq_true, if_false, Bool.not_true]
  rfl

section
variable {s : State} (hh : s.inHandler = false) (x : Fun)
include hh

theorem State.handler_none : s.gang.handler = none := by
  unfold State.inHandler at hh
  cases h : s.gang.handler with
  | none => rfl
  | some b => rw [h] at hh; cases hh

/-- The gang of the run after EXIT. -/
theorem State.exited_gang : (s.exited x).gang =
    ({ s.gang.mapStrands (s.run &&& ~~~s.guard x.hdr) (fun y => { y with pc := nextPc s.ipc, via := none }) with
      hold := none } : Gang).finish (s.guard x.hdr) := by
  unfold State.exited State.goTo
  rw [State.handler_none hh]

theorem State.exited_strand {i : Nat} (hi : i < 32) : (s.exited x).gang.strand i =
    if (s.guard x.hdr).getLsbD i then { s.gang.strand i with st := .done }
    else if s.run.getLsbD i then { s.gang.strand i with pc := nextPc s.ipc, via := none } else s.gang.strand i := by
  have goes := s.gang.strand_mapStrands (s.run &&& ~~~s.guard x.hdr) (fun y => { y with pc := nextPc s.ipc, via := none }) hi
  have ends := Gang.strand_mapStrands ({ s.gang.mapStrands (s.run &&& ~~~s.guard x.hdr)
    (fun y => { y with pc := nextPc s.ipc, via := none }) with hold := none } : Gang) (s.guard x.hdr)
    (fun y => { y with st := .done }) hi
  rw [State.exited_gang hh]
  refine ends.trans ?_
  have same : Gang.strand { s.gang.mapStrands (s.run &&& ~~~s.guard x.hdr)
    (fun y => { y with pc := nextPc s.ipc, via := none }) with hold := none } i = _ := goes
  rw [same]
  have hmask : (s.run &&& ~~~s.guard x.hdr).getLsbD i = (s.run.getLsbD i && !(s.guard x.hdr).getLsbD i) := by simp [hi]
  rw [hmask]
  by_cases hg : (s.guard x.hdr).getLsbD i = true
  · simp [hg]
  · simp [hg]

end

/-- Strands that end or yield: each instruction is a use of the frames above. -/
theorem strandEnds : Claims.StrandEnds := by
  intro x s hf
  refine ⟨s.sequential_completes .nop id hf, fun hh he hs => ?_, fun h => ?_, fun g hidle hactive hready hne hg hg0 hs0 => ?_⟩
  · have hid : (s.exited x).gang.id = s.gang.id := by rw [State.exited_gang hh]; rfl
    have halone : (s.exited x).FocusAlone := by
      intro e hm
      rw [hid]
      have : (s.exited x).gangs = s.gangs := State.goTo_gangs ..
      exact hs e (this ▸ hm)
    have hgang := State.retireGang_gang halone
    obtain ⟨hmem, hops⟩ := (s.exited x).retireGang_kept (s.exited x).gang.id
    have hej : (s.exited x).gang.ej = none := by rw [State.exited_gang hh]; exact he
    have hleft : (s.exited x).gang.left = s.gang.left := by rw [State.exited_gang hh]; rfl
    have hstrands : ((s.exited x).retireGang (s.exited x).gang.id).gang.strands = (s.exited x).gang.strands := by
      rw [hgang]; split <;> rfl
    have hlive : ((s.exited x).retireGang (s.exited x).gang.id).gang.live = (s.exited x).gang.live := by
      unfold Gang.live Gang.inState Gang.strand
      rw [hstrands]
    refine ⟨_, exec_exit hf hh he, fun i hi => ?_, fun h0 hl => ?_, fun r hr => ?_, ?_, fun a => ?_, hops.trans (State.goTo_ops ..)⟩
    · rw [← State.exited_strand hh x hi]
      exact congrArg (fun t => Sparse.get {} t i) hstrands
    · rw [hgang, if_pos ⟨hlive ▸ h0, hleft.trans hl, hej⟩]
      exact ⟨rfl, rfl⟩
    · have hgroups : ((s.exited x).retireGang (s.exited x).gang.id).gang.groups = (s.exited x).gang.groups := by
        rw [hgang]; split <;> rfl
      rw [hgroups, State.exited_gang hh] at hr
      obtain ⟨q, -, rfl⟩ := List.mem_map.1 hr
      dsimp only
      rw [BitVec.and_assoc, BitVec.and_comm (~~~_)]
      simp
    · rw [State.SameRegisters, hgang, State.exited_gang hh]
      split <;> exact ⟨rfl, rfl, rfl, rfl, rfl, rfl⟩
    · unfold Sys.byte
      rw [hmem]
      exact congrArg (fun y => Sparse.get Config.memDefault (Sys.mem y) a) (State.goTo_sys ..)
  · rw [exec_yield, State.sequential_completes _ _ _ hf]
    rcases h with h | h
    · rw [if_pos h]
    · rw [h]
      split <;> rfl
  · have hout : s.Resident s.gang.id := ⟨hs0, congrArg Gang.id (if_pos rfl)⟩
    have hnew : s.Resident g.id := ⟨hg0, hg⟩
    have swapped := State.findGang_swap hout hnew (Ne.symm hne) s.core s.gang.slot
    have hgang : (s.swap s.core s.gang.slot s.gang.id g.id).gang = s.gang.stepBack (s.tail s.core s.gang.slot) := by
      rw [State.swap_eq, State.updGang_self]
      exact State.updGang_gang _ (by exact hne) _
    have run : exec (.yield x) s = .next (s.swap s.core s.gang.slot s.gang.id g.id).advance := by
      rw [exec_yield, State.sequential_completes _ _ _ hf, if_neg (by rw [hidle]; decide), hready]
      dsimp only
      rw [if_pos hactive]
    have hfound : ((s.swap s.core s.gang.slot s.gang.id g.id).advance).findGang g.id = (s.findGang g.id).stepIn s.clock := by
      rw [State.findGang_advance _ (by rw [hgang]; exact hne), swapped, if_neg hne, if_pos rfl]
    have hhandler : s.gang.handler = none := State.handler_none (by
      unfold State.joinIdle at hidle
      exact (Bool.or_eq_false_iff.1 hidle).1)
    have only := s.swap_gangsOnly s.core s.gang.slot s.gang.id g.id
    refine ⟨_, run, ?_, ?_, ?_, State.wentOn_advance (by rw [hgang]; exact hhandler) (by rw [only]) (by rw [only]), ?_, ?_⟩
    · rw [State.advance_gang_active, hgang]; rfl
    · rw [hfound]; rfl
    · rw [hfound]; exact Nat.le_max_right ..
    · unfold State.SameRegisters
      simp only [State.advance_gang_v, State.advance_gang_s, State.advance_gang_stags, State.advance_gang_p,
        State.advance_gang_g, State.advance_gang_shadows, hgang]
      exact ⟨rfl, rfl, rfl, rfl, rfl, rfl⟩
    · rw [State.advance_sys, only.sys]

end Sys2Proof.Machine
end

section
/-! SUPPORT. Strands that go to a marionette and come back (R316, R321): the gangs at both ends. -/

namespace Sys2Proof.Machine

/-! ### One strand's mask -/

theorem Ejection.mask_getLsbD (e : Ejection) {i : Nat} (hi : i < 32) : e.mask.getLsbD i = decide (i = e.strand) := by
  have hm : e.mask = BitVec.ofNat 32 (2 ^ e.strand) := congrArg (BitVec.ofNat 32) (Nat.one_shiftLeft e.strand)
  rw [hm, BitVec.getLsbD_ofNat, Nat.testBit_two_pow, decide_eq_true hi, Bool.true_and]
  exact decide_eq_decide.2 eq_comm

theorem Gang.strand_mapMask (g : Gang) (e : Ejection) (h : e.strand < 32) (f : Strand → Strand) :
    (g.mapStrands e.mask f).strand e.strand = f (g.strand e.strand) := by
  rw [g.strand_mapStrands _ f h, e.mask_getLsbD h, decide_eq_true rfl, if_pos rfl]

/-! ### Live registers -/

theorem mem_liveRegs (l : Option (Nat × Nat)) (r : Nat) : r ∈ liveRegs l ↔ ∃ a b, l = some (a, b) ∧ a ≤ r ∧ r ≤ b := by
  unfold liveRegs
  split
  · next a b =>
    simp only [List.mem_map, List.mem_range]
    refine ⟨fun ⟨k, hk, hr⟩ => ⟨a, b, rfl, by omega, by omega⟩, fun ⟨a', b', hab, h1, h2⟩ => ⟨r - a, ?_, ?_⟩⟩
    · cases hab; omega
    · cases hab; omega
  · simp

/-- A live register arrives, the others stay (R316). -/
theorem copyLive_get (strand : Nat) (regs : List Nat) (src dst : Sparse Word) (r : Nat) :
    (copyLive strand regs src dst).get 0 (strand * 128 + r) =
      if r ∈ regs then src.get 0 (strand * 128 + r) else dst.get 0 (strand * 128 + r) := by
  unfold copyLive
  induction regs generalizing dst with
  | nil => rfl
  | cons k regs ih =>
    rw [List.foldl_cons, ih]
    by_cases hr : r ∈ regs
    · simp [hr]
    · by_cases hk : r = k
      · simp [hk, Sparse.get_put_same]
      · rw [Sparse.get_put_other _ _ _ _ _ (by omega)]
        simp [hr, hk]

/-- One strand's bits of some predicates come from the other table. -/
theorem mergePreds_get (m : Mask) (keys : List Nat) (src dst : Sparse Mask) (n : Nat) {i : Nat} (hi : i < 32) :
    ((mergePreds m keys src dst).get 0 n).getLsbD i =
      if m.getLsbD i = true ∧ n ∈ keys then (src.get 0 n).getLsbD i else (dst.get 0 n).getLsbD i := by
  suffices h : ∀ t : Sparse Mask, Sparse.get 0 (keys.foldl (fun t k =>
      Sparse.put 0 t k ((dst.get 0 k &&& ~~~m) ||| (src.get 0 k &&& m))) t) n =
        if n ∈ keys then (dst.get 0 n &&& ~~~m) ||| (src.get 0 n &&& m) else t.get 0 n by
    rw [mergePreds, h]
    by_cases hn : n ∈ keys
    · rw [if_pos hn, BitVec.getLsbD_or, BitVec.getLsbD_and, BitVec.getLsbD_and, BitVec.getLsbD_not]
      cases m.getLsbD i <;> simp [hn, hi]
    · rw [if_neg hn, if_neg fun h => hn h.2]
  induction keys with
  | nil => exact fun _ => rfl
  | cons k keys ih =>
    intro t
    rw [List.foldl_cons, ih, Sparse.get_put]
    by_cases hn : n ∈ keys
    · simp [hn]
    · by_cases hk : n = k
      · simp [hk]
      · simp [hn, hk]

/-- No result in flight hides a strand's live register any more (R57, R316). -/
theorem dropShadows_live {m : Mask} {regs : List Nat} {l : List Shadow} {f : Shadow} (hf : f ∈ dropShadows m regs l) {r : Nat}
    {w : Mask} {old : Sparse Word} (ho : f.old = .v r w old) (hr : r ∈ regs) {i : Nat} (hm : m.getLsbD i = true) : w.getLsbD i = false := by
  unfold dropShadows at hf
  obtain ⟨x, -, rfl⟩ := List.mem_map.1 hf
  split at ho
  · next n w' old' hx =>
    split at ho
    · cases ho
      simp [hm]
    · next hn =>
      rw [hx] at ho
      cases ho
      exact absurd (List.contains_iff_mem.2 hr) hn
  · cases ho
  · next hv _ => exact absurd ho (hv _ _ _)

/-! ### The state's gangs -/

/-- After a gang is gone the others are as they were. -/
theorem State.Numbered.findGang_removeGang {s : State} (hs : s.Numbered) {id k : Nat} (hk : k ≠ 0) :
    (s.removeGang id).findGang k = if k = id then {} else s.findGang k := by
  obtain ⟨focus, -, -, others, -⟩ := hs
  have absent : s.gangs.get {} s.gang.id = {} := by
    rcases Sparse.get_eq_or_mem {} s.gangs s.gang.id with h | h
    · exact h
    · exact absurd rfl (others _ h).2.1
  unfold State.removeGang State.findGang
  by_cases hf : s.gang.id = id
  · rw [if_pos hf]
    dsimp only
    rw [if_neg (Ne.symm hk)]
    by_cases hki : k = id
    · rw [if_pos hki, hki, ← hf, absent]
    · rw [if_neg hki, if_neg (hf ▸ Ne.symm hki)]
  · rw [if_neg hf]
    dsimp only
    by_cases hki : k = id
    · rw [if_pos hki, if_neg (hki ▸ hf), hki, Sparse.get_drop_same]
    · rw [if_neg hki]
      split
      · rfl
      · exact Sparse.get_drop_other _ _ _ _ hki

/-- To bring a resident gang into focus changes no gang. -/
theorem State.findGang_focus {s : State} {id k : Nat} (hid : s.Resident id) (hk : k ≠ 0) :
    (s.focus id).findGang k = s.findGang k ∧ (s.focus id).gang = s.findGang id := by
  have crewFocus : ∀ (t : State) c, (t.focusCrew c).gang = t.gang ∧ (t.focusCrew c).gangs = t.gangs := by
    intro t c
    unfold State.focusCrew
    split <;> exact ⟨rfl, rfl⟩
  obtain ⟨h0, own⟩ := hid
  unfold State.findGang at own ⊢
  by_cases hf : s.gang.id = id
  · have : s.focus id = s.focusCrew s.gang.crewId := if_pos hf
    rw [this, (crewFocus s _).1, (crewFocus s _).2, if_pos hf]
    exact ⟨rfl, rfl⟩
  · rw [if_neg hf] at own ⊢
    unfold State.focus
    rw [if_neg hf]
    dsimp only
    rw [if_neg (ne_of_eq_of_ne own h0), (crewFocus _ _).1, (crewFocus _ _).2]
    refine ⟨?_, rfl⟩
    dsimp only
    by_cases hki : k = id
    · rw [hki, if_pos own, if_neg hf]
    · rw [if_neg (by rw [own]; exact Ne.symm hki), Sparse.get_put]
      by_cases hks : k = s.gang.id
      · rw [if_pos hks, if_neg (hks ▸ hk), if_pos hks.symm]
      · rw [if_neg hks, if_neg (Ne.symm hks), Sparse.get_drop_other _ _ _ _ hki]

/-! ### The L1 of a core at a hand-over -/

/-- A core that drops its clean lines loses no byte (R316). -/
theorem State.flows_l1Acquire (st : Nat → Prop) (s : State) (w : Who) : Sys.Flows st s.sys (s.l1Acquire w).sys := by
  refine Sys.Flows.l1 st s.sys w.core _ fun x hx i hi hd => .inl ?_
  obtain ⟨l, hl, rfl⟩ := List.mem_map.1 hx
  exact ⟨w.core, l, List.mem_of_mem_filter hl, i, hi, hd, rfl, rfl⟩

/-! ### A trap of the parent -/

/-- A report leaves gangs alone. -/
theorem State.report_gangs (s : State) (e : Event) : (s.report e).gang = s.gang ∧ (s.report e).gangs = s.gangs := by
  have h := s.worked_release s.who 6
  unfold State.report
  dsimp only
  split
  · exact ⟨(State.worked_event _ e).gang.trans h.gang, (State.worked_event _ e).gangs.trans h.gangs⟩
  · exact ⟨h.gang, h.gangs⟩

theorem State.suspend_gangs (s : State) (value : Dword) :
    (s.suspend value).gang = { s.gang with suspended := .inHandler, priv := true, hold := none } ∧
      (s.suspend value).gangs = s.gangs := by
  unfold State.suspend
  dsimp only
  obtain ⟨hg, hgs⟩ := s.report_gangs (s.gangEvent 1 0 false value)
  rw [hg, hgs]
  exact ⟨rfl, rfl⟩

/-- A trap outside the handler changes of the gangs the one in focus, and not its number. -/
theorem State.trapAt_gangs {s : State} (hh : s.inHandler = false) (cause : BitVec 8) (info : Dword) (pc : Pc) (run : Mask) (ej : Bool) :
    (s.trapAt cause info pc run ej).gang.id = s.gang.id ∧ (s.trapAt cause info pc run ej).gangs = s.gangs := by
  unfold State.trapAt
  split
  · exact ⟨rfl, rfl⟩
  · rw [if_neg (by rw [hh]; decide)]
    dsimp only
    split
    · exact ⟨rfl, rfl⟩
    · rw [(State.suspend_gangs _ _).1, (State.suspend_gangs _ _).2]
      exact ⟨rfl, rfl⟩

/-- What a trap outside the handler leaves in the trap registers (R358). -/
theorem State.trapAt_registers {s : State} (hh : s.inHandler = false) (he : s.gang.ej = none) (cause : BitVec 8) (info : Dword) (pc : Pc)
    (run : Mask) (ej : Bool) :
    let g := (s.trapAt cause info pc run ej).gang
    g.trapCause = BitVec.ofBool ej ++ cause ∧ g.trapInfo = info ∧ g.trapPc = pc &&& 0x01FFFFFFFFFFFFFF ∧ g.trapRun = run := by
  unfold State.trapAt
  rw [he]
  dsimp only
  rw [if_neg (by rw [hh]; decide)]
  split
  · exact ⟨rfl, rfl, rfl, rfl⟩
  · rw [(State.suspend_gangs _ _).1]
    exact ⟨rfl, rfl, rfl, rfl⟩

end Sys2Proof.Machine
end

section
/-! SUPPORT. The two ends of an ejection (R316, R318, R321): the hand-over and the hand-back. -/

namespace Sys2Proof.Machine

/-! ### The hand-over -/

theorem Gang.rejoins_id (g : Gang) : g.rejoins.id = g.id := by
  unfold Gang.rejoins
  split
  · split <;> rfl
  · rfl

theorem Gang.rejoins_ej (g : Gang) : g.rejoins.ej = g.ej := by
  unfold Gang.rejoins
  split
  · split <;> rfl
  · rfl

theorem Gang.rejoins_v (g : Gang) : g.rejoins.v = g.v := by
  unfold Gang.rejoins
  split
  · split <;> rfl
  · rfl

/-- A strand that has arrived at its marionette is on its way back at once where it stands at its rejoin PC (R309). -/
theorem Gang.rejoins_strand {g : Gang} {e : Ejection} (he : g.ej = some e) (h : e.strand < 32)
    (hst : (g.strand e.strand).st = .ej) :
    g.rejoins.strand e.strand =
      { g.strand e.strand with st := if (g.strand e.strand).pc = e.rejoin then .back else .ej } := by
  unfold Gang.rejoins
  rw [he]
  dsimp only
  by_cases hpc : (g.strand e.strand).pc = e.rejoin
  · rw [if_pos (by simp [hst, hpc]), g.strand_mapMask e h, if_pos hpc]
  · rw [if_neg (by simp [hpc]), if_neg hpc, ← hst]

/-- A marionette's gang with its strand and the live registers of the parent (R316). -/
def Gang.takeOver (p : Gang) (e : Ejection) (clock : Nat) (x : Gang) : Gang :=
  ({ x.mapStrands e.mask (fun y => { y with st := .ej }) with
      v := copyLive e.strand (liveRegs e.live) p.v x.v, nextIssue := clock } : Gang).rejoins

theorem Gang.takeOver_id (p : Gang) (e : Ejection) (clock : Nat) : keepsId (Gang.takeOver p e clock) := fun _ => Gang.rejoins_id _

theorem Gang.takeOver_strand (p : Gang) {e : Ejection} (clock : Nat) {x : Gang} (he : x.ej = some e) (h : e.strand < 32) :
    (p.takeOver e clock x).strand e.strand =
      { x.strand e.strand with st := if (x.strand e.strand).pc = e.rejoin then .back else .ej } := by
  have here : Gang.strand { x.mapStrands e.mask (fun y => { y with st := .ej }) with
      v := copyLive e.strand (liveRegs e.live) p.v x.v, nextIssue := clock } e.strand = { x.strand e.strand with st := .ej } :=
    x.strand_mapMask e h _
  refine (Gang.rejoins_strand (g := { x.mapStrands e.mask (fun y => { y with st := .ej }) with
      v := copyLive e.strand (liveRegs e.live) p.v x.v, nextIssue := clock }) he h (by rw [here])).trans ?_
  rw [here]

/-- A cell of a strand's registers is the parent's where it is live, and else the gang's own. -/
theorem Gang.takeOver_v (p : Gang) (e : Ejection) (clock : Nat) (x : Gang) (r : Nat) :
    (p.takeOver e clock x).v.get 0 (e.strand * 128 + r) =
      if r ∈ liveRegs e.live then p.v.get 0 (e.strand * 128 + r) else x.v.get 0 (e.strand * 128 + r) :=
  (congrArg (fun v => Sparse.get 0 v (e.strand * 128 + r)) (Gang.rejoins_v _)).trans (copyLive_get ..)

theorem State.showEjected_eq {s : State} {g : Nat} {e : Ejection} (he : (s.findGang g).ej = some e) :
    s.showEjected g = s.updGang e.parent fun p => p.mapStrands e.mask fun x => { x with st := ((s.findGang g).strand e.strand).st } := by
  unfold State.showEjected
  dsimp only
  rw [he]

/-- The agent of a gang's core in its crew's context. -/
def State.gangWho (s : State) (x : Gang) : Who :=
  { core := (s.findCrew x.crewId).core, crew := (s.findCrew x.crewId).id, asid := (s.findCrew x.crewId).asid, priv := x.priv }

section
variable {s : State} {g : Nat} {e : Ejection} (he : (s.findGang g).ej = some e)
include he

theorem exec_handoverOut : exec (.handoverOutComplete g) s = .next
    (if ((s.findGang g).strand e.strand).st = .out ∧ s.handoverReady e = true then
      ((s.l1Release (s.gangWho (s.findGang g))).updGang g
        ((s.findGang e.parent).takeOver e (s.l1Release (s.gangWho (s.findGang g))).clock)).showEjected g
    else s) := by
  show execHandoverOutComplete g s = _
  unfold execHandoverOutComplete
  dsimp only
  rw [he]
  simp only [Bool.and_eq_true, decide_eq_true_eq]
  rfl

/-- The two gangs after a hand-over. -/
theorem handover_gangs (h0 : s.Resident g) (hp : s.Resident e.parent) (apart : e.parent ≠ g) {s1 : State}
    (hg1 : s1.gang = s.gang) (hg2 : s1.gangs = s.gangs) (clock : Nat) :
    let t := (s1.updGang g ((s.findGang e.parent).takeOver e clock)).showEjected g
    t.sys = s1.sys ∧ t.findGang g = (s.findGang e.parent).takeOver e clock (s.findGang g) ∧
      t.findGang e.parent = (s.findGang e.parent).mapStrands e.mask fun y =>
        { y with st := (((s.findGang e.parent).takeOver e clock (s.findGang g)).strand e.strand).st } := by
  have hfind : ∀ k, s1.findGang k = s.findGang k := fun k => by unfold State.findGang; rw [hg1, hg2]
  have hres : ∀ k, s.Resident k → s1.Resident k := fun k hk => ⟨hk.1, by rw [hfind]; exact hk.2⟩
  have keeps := Gang.takeOver_id (s.findGang e.parent) e clock
  have found := State.findGang_updGang (hres g h0) keeps
  have hgang : (s1.updGang g ((s.findGang e.parent).takeOver e clock)).findGang g =
      (s.findGang e.parent).takeOver e clock (s.findGang g) := by rw [found, if_pos rfl, hfind]
  have hej : ((s1.updGang g ((s.findGang e.parent).takeOver e clock)).findGang g).ej = some e := by
    rw [hgang]
    exact (Gang.rejoins_ej _).trans he
  have shown := State.findGang_updGang ((State.resident_updGang (hres g h0) keeps e.parent).2 (hres _ hp))
    (f := fun p => p.mapStrands e.mask fun y =>
      { y with st := (((s.findGang e.parent).takeOver e clock (s.findGang g)).strand e.strand).st }) fun _ => rfl
  dsimp only
  rw [State.showEjected_eq hej, hgang, State.updGang_sys, State.updGang_sys, shown, shown, if_neg (Ne.symm apart), if_pos rfl, hgang,
    found, if_neg apart, hfind]
  exact ⟨rfl, rfl, rfl⟩

/-! ### The hand-back -/

/-- The parent after a hand-back. -/
def State.welcome (s : State) (x : Gang) (e : Ejection) (p : Gang) : Gang :=
  (p.receive x e).comesBack e (x.strand e.strand) ((s.focus e.parent).joinAt (x.strand e.strand).pc)

/-- The gangs after a hand-back, before a cause of the strand traps its parent. -/
def State.handedBack (s : State) (g : Nat) (x : Gang) (e : Ejection) : State :=
  (s.removeGang g).updGang e.parent (s.welcome x e)

/-- A cause that a strand brings back traps its gang, but not in its handler (R321). -/
def State.raiseBack (s : State) (e : Ejection) (pc : Pc) : State :=
  match e.cause with
  | none => s
  | some (cause, info, trapPc) =>
      let t := s.focus e.parent
      if t.inHandler || t.gang.suspended ≠ .no then s
      else
        let t : State :=
          if cause = cLocate then { t with gang := { t.gang with located := (trapPc, e.mask) :: t.gang.located } } else t
        ({ t with run := e.mask, ipc := pc } : State).trapAt cause info trapPc e.mask true

theorem exec_handback : exec (.handbackComplete g) s = .next
    (if ((s.findGang g).strand e.strand).st = .back ∧ s.handbackReady e = true then
      ((s.l1Acquire (s.gangWho (s.findGang g))).handedBack g (s.findGang g) e).raiseBack e ((s.findGang g).strand e.strand).pc
    else s) := by
  show execHandbackComplete g s = _
  unfold execHandbackComplete
  dsimp only
  rw [he]
  simp only [Bool.and_eq_true, decide_eq_true_eq]
  rfl

end

/-- The gangs after a hand-back: the marionette's is gone, the parent has its strand. -/
theorem State.Numbered.findGang_handedBack {s : State} (hs : s.Numbered) {g : Nat} (h0 : g ≠ 0) {e : Ejection} (hp : s.Resident e.parent)
    (apart : e.parent ≠ g) (x : Gang) :
    (s.handedBack g x e).Resident e.parent ∧ (s.handedBack g x e).findGang g = {} ∧
      (s.handedBack g x e).findGang e.parent = s.welcome x e (s.findGang e.parent) ∧ (s.handedBack g x e).sys = s.sys := by
  have left := hs.findGang_removeGang (id := g) hp.1
  rw [if_neg apart] at left
  have gone := hs.findGang_removeGang (id := g) h0
  rw [if_pos rfl] at gone
  have hres : (s.removeGang g).Resident e.parent := ⟨hp.1, by rw [left]; exact hp.2⟩
  have keeps : keepsId (s.welcome x e) := fun _ => rfl
  have found := State.findGang_updGang hres keeps
  refine ⟨(State.resident_updGang hres keeps _).2 hres, ?_, ?_, ?_⟩
  · exact (found g).trans ((if_neg (Ne.symm apart)).trans gone)
  · exact (found e.parent).trans ((if_pos rfl).trans (by rw [left]))
  · unfold State.handedBack
    rw [State.updGang_sys]
    unfold State.removeGang
    split <;> rfl

/-- What a cause of a strand changes: of the gangs the parent alone, and not its number (R321). -/
theorem State.raiseBack_gone {s : State} {e : Ejection} (hp : s.Resident e.parent) (pc : Pc) {g : Nat} (h0 : g ≠ 0) (apart : e.parent ≠ g)
    (hg : s.findGang g = {}) : ((s.raiseBack e pc).findGang g).id ≠ g := by
  have gone : (s.findGang g).id ≠ g := by rw [hg]; exact Ne.symm h0
  unfold State.raiseBack
  split
  · exact gone
  · next cause info trapPc _ =>
    obtain ⟨hfound, hgang⟩ := State.findGang_focus hp h0
    dsimp only
    split
    · exact gone
    · next hgo =>
      generalize s.focus e.parent = u at hfound hgang hgo ⊢
      have hid : u.gang.id = e.parent := by rw [hgang]; exact hp.2
      have hh : u.inHandler = false := by
        rw [Bool.or_eq_true, not_or, Bool.not_eq_true] at hgo
        exact hgo.1
      generalize hv : (if cause = cLocate then
        { u with gang := { u.gang with located := (trapPc, e.mask) :: u.gang.located } } else u) = v
      have hvs : v.gang.id = u.gang.id ∧ v.gangs = u.gangs ∧ v.inHandler = u.inHandler := by
        rw [← hv]; split <;> exact ⟨rfl, rfl, rfl⟩
      obtain ⟨h1, h2⟩ := State.trapAt_gangs (s := { v with run := e.mask, ipc := pc }) (hvs.2.2.trans hh) cause info trapPc e.mask true
      unfold State.findGang at hfound ⊢
      rw [h1, h2]
      dsimp only
      rw [hvs.1, hvs.2.1, hid, if_neg apart]
      rw [hid, if_neg apart] at hfound
      rw [hfound]
      exact gone

/-- The trap registers of a gang that was not in its handler, after its strand brought back a cause (R321). -/
theorem State.raiseBack_traps {s : State} {e : Ejection} (hp : s.Resident e.parent) (pc : Pc) {cause : BitVec 8} {info : Dword}
    {trapPc : Pc} (hc : e.cause = some (cause, info, trapPc)) (hh : (s.findGang e.parent).handler = none)
    (hsu : (s.findGang e.parent).suspended = .no) (he : (s.findGang e.parent).ej = none) :
    let t := s.raiseBack e pc
    t.gang.id = e.parent ∧ t.gang.trapCause = 1#1 ++ cause ∧ t.gang.trapInfo = info ∧
      t.gang.trapPc = trapPc &&& 0x01FFFFFFFFFFFFFF ∧ t.gang.trapRun = 1 <<< e.strand := by
  obtain ⟨-, hgang⟩ := State.findGang_focus hp hp.1
  unfold State.raiseBack
  rw [hc]
  dsimp only
  have hin : (s.focus e.parent).inHandler = false := by unfold State.inHandler; rw [hgang, hh]; rfl
  rw [if_neg (by rw [hin, hgang, hsu]; decide)]
  rw [← hgang] at he
  have hid : (s.focus e.parent).gang.id = e.parent := by rw [hgang]; exact hp.2
  generalize s.focus e.parent = u at hin he hid ⊢
  generalize hv : (if cause = cLocate then
    { u with gang := { u.gang with located := (trapPc, e.mask) :: u.gang.located } } else u) = v
  have hvs : v.gang.id = u.gang.id ∧ v.gang.ej = u.gang.ej ∧ v.inHandler = u.inHandler := by
    rw [← hv]; split <;> exact ⟨rfl, rfl, rfl⟩
  have hvh : ({ v with run := e.mask, ipc := pc } : State).inHandler = false := hvs.2.2.trans hin
  refine ⟨(State.trapAt_gangs hvh cause info trapPc e.mask true).1.trans (hvs.1.trans hid), ?_⟩
  exact State.trapAt_registers hvh (hvs.2.1.trans he) cause info trapPc e.mask true

/-! ### The parent of a strand that has come back -/

section
variable (s : State) (x p : Gang) {e : Ejection}

theorem State.welcome_v (r : Nat) : (s.welcome x e p).v.get 0 (e.strand * 128 + r) =
    if r ∈ liveRegs e.live then x.v.get 0 (e.strand * 128 + r) else p.v.get 0 (e.strand * 128 + r) := copyLive_get ..

theorem State.welcome_p {n i : Nat} (hn : n < 7) (hi : i < 32) : ((s.welcome x e p).p.get 0 n).getLsbD i =
    if i = e.strand ∧ (n < 4 ∨ p.handler = none) then (x.p.get 0 n).getLsbD i else (p.p.get 0 n).getLsbD i := by
  have merged := mergePreds_get e.mask ((List.range 7).filter fun k => p.handler.isNone || !bankedP.contains k) x.p p.p n hi
  have keys : n ∈ (List.range 7).filter (fun k => p.handler.isNone || !bankedP.contains k) ↔ n < 4 ∨ p.handler = none := by
    rw [List.mem_filter, List.mem_range]
    have banked : bankedP.contains n = decide (4 ≤ n) := by
      have : n = 0 ∨ n = 1 ∨ n = 2 ∨ n = 3 ∨ n = 4 ∨ n = 5 ∨ n = 6 := by omega
      rcases this with rfl | rfl | rfl | rfl | rfl | rfl | rfl <;> rfl
    rw [banked]
    cases p.handler <;> simp <;> omega
  simp only [e.mask_getLsbD hi, decide_eq_true_eq, keys] at merged
  exact merged

theorem State.welcome_banked {b : Bank} (hb : p.handler = some b) : ∃ k, (s.welcome x e p).handler = some k ∧
    ∀ n i, 4 ≤ n → n < 7 → i < 32 → (k.p.get 0 n).getLsbD i =
      if i = e.strand then (x.p.get 0 n).getLsbD i else (b.p.get 0 n).getLsbD i := by
  refine ⟨{ b with p := mergePreds e.mask bankedP x.p b.p }, congrArg (Option.map _) hb, fun n i h4 h7 hi => ?_⟩
  have merged := mergePreds_get e.mask bankedP x.p b.p n hi
  have key : n ∈ bankedP := by
    have : n = 4 ∨ n = 5 ∨ n = 6 := by omega
    rcases this with rfl | rfl | rfl <;> decide
  simp only [e.mask_getLsbD hi, decide_eq_true_eq, key, and_true] at merged
  exact merged

theorem State.welcome_strand (h : e.strand < 32) : (s.welcome x e p).strand e.strand = { x.strand e.strand with
    age := 0,
    st := if e.cause.isNone && (p.groups.any fun r => r.rejoin = e.rejoin && r.members.getLsbD e.strand) &&
      (s.focus e.parent).joinAt (x.strand e.strand).pc then .waitj else .ready } :=
  (p.receive x e).strand_mapMask e h _

end

/-- Strands that go to a marionette and come back (R316, R321). -/
theorem handOvers : Claims.HandOvers := by
  intro g s e hs hg h0 he hlt hp hp0 apart x p here c core back live
  have hgr : s.Resident g := ⟨h0, hg⟩
  have hpr : s.Resident e.parent := ⟨hp0, hp⟩
  have liveIff : ∀ r, r < 128 → (live r ↔ r ∈ liveRegs e.live) := fun r hr => by
    rw [mem_liveRegs]
    exact ⟨fun ⟨a, b, h1, h2, h3, _⟩ => ⟨a, b, h1, h2, h3⟩, fun ⟨a, b, h1, h2, h3⟩ => ⟨a, b, h1, h2, h3, hr⟩⟩
  have out := exec_handoverOut he
  have home := exec_handback he
  refine ⟨fun hst ha hl hla hm => ?_, fun hno => ?_, fun hno => ?_, fun hst hrdy => ?_⟩
  · have ready : s.handoverReady e = true := by simp [State.handoverReady, ha, hl, hla, hm]
    rw [if_pos ⟨hst, ready⟩] at out
    have worked := s.worked_l1Release (s.gangWho x)
    obtain ⟨hsys, hgang, hparent⟩ := handover_gangs he hgr hpr apart worked.gang worked.gangs
      (s.l1Release (s.gangWho x)).clock
    have hstrand := Gang.takeOver_strand p (s.l1Release (s.gangWho x)).clock he hlt
    refine ⟨_, out, State.keptMemory_of_flows (by rw [hsys]; exact s.flows_l1Release _ _), ?_, ?_, ?_, fun r hr => ?_⟩
    · rw [hsys]
      exact s.l1Release_clean (s.gangWho x)
    · rw [hgang]
      exact hstrand
    · rw [hparent, Gang.strand_mapMask _ _ hlt, hstrand]
    · have cells := Gang.takeOver_v p e (s.l1Release (s.gangWho x)).clock x r
      rw [hgang, liveIff r hr]
      exact ⟨fun h => cells.trans (if_pos h), fun h => cells.trans (if_neg h)⟩
  · refine out.trans (congrArg _ (if_neg ?_))
    rintro ⟨hst, hready⟩
    simp only [State.handoverReady, Bool.and_eq_true, List.isEmpty_iff, Bool.not_eq_true', decide_eq_true_eq] at hready
    obtain ⟨⟨⟨ha, hl⟩, hla⟩, hm⟩ := hready
    rcases hno with h | h | h | h | h
    · exact h hst
    · exact h ha
    · rw [hl] at h; cases h
    · omega
    · exact h hm
  · refine home.trans (congrArg _ (if_neg ?_))
    rintro ⟨hst, hready⟩
    rcases hno with h | h
    · exact h hst
    · rw [hready] at h; cases h
  · rw [if_pos ⟨hst, hrdy⟩] at home
    have hs1 : (s.l1Acquire (s.gangWho x)).Numbered := hs
    obtain ⟨hres, hgone, hparent, hsys⟩ := hs1.findGang_handedBack h0 (e := e) hpr apart x
    refine ⟨_, home, State.raiseBack_gone hres _ h0 apart hgone, fun hc => ?_, fun cause info pc hc hh hsu hej => ?_⟩
    · have same : ((s.l1Acquire (s.gangWho x)).handedBack g x e).raiseBack e here.pc =
          (s.l1Acquire (s.gangWho x)).handedBack g x e := by unfold State.raiseBack; rw [hc]
      rw [same]
      refine ⟨State.keptMemory_of_flows (by rw [hsys]; exact s.flows_l1Acquire _ _), ?_⟩
      have hparent : _ = (s.l1Acquire (s.gangWho x)).welcome x e p := hparent
      rw [hparent]
      have hstrand := (s.l1Acquire (s.gangWho x)).welcome_strand x p hlt
      refine ⟨hp, rfl, fun r hr => ?_, fun n i hn hi => State.welcome_p _ x p hn hi, fun b hb => State.welcome_banked _ x p hb,
        Sparse.get_put_same .., rfl, rfl, fun r hr f hf m old hold => ?_, by rw [hstrand], by rw [hstrand], ?_⟩
      · have cells := (s.l1Acquire (s.gangWho x)).welcome_v x p (e := e) r
        rw [liveIff r hr]
        exact ⟨fun h => cells.trans (if_pos h), fun h => cells.trans (if_neg h)⟩
      · obtain ⟨a, b, hlive⟩ := id hr
        refine dropShadows_live hf hold ((liveIff r hlive.2.2.2).1 hr) ?_
        rw [e.mask_getLsbD hlt, decide_eq_true rfl]
      · rw [hstrand]
        have waits : (e.cause.isNone && (p.groups.any fun r => r.rejoin = e.rejoin && r.members.getLsbD e.strand) &&
            ((s.l1Acquire (s.gangWho x)).focus e.parent).joinAt (x.strand e.strand).pc) = true ↔ back.joinAt here.pc = true ∧ ∃ r ∈ p.groups, r.rejoin = e.rejoin ∧
              r.members.getLsbD e.strand = true := by
          simp only [hc, Option.isNone_none, Bool.true_and, Bool.and_eq_true, List.any_eq_true, decide_eq_true_eq]
          exact and_comm
        dsimp only
        generalize (e.cause.isNone && (p.groups.any fun r => r.rejoin = e.rejoin && r.members.getLsbD e.strand) &&
            ((s.l1Acquire (s.gangWho x)).focus e.parent).joinAt (x.strand e.strand).pc) = w at waits ⊢
        refine ⟨Iff.trans ?_ waits, ?_⟩
        · cases w <;> decide
        · cases w <;> decide
    · refine State.raiseBack_traps hres here.pc hc ?_ ?_ ?_
      · rw [hparent]
        exact congrArg (Option.map _) hh
      · rw [hparent]
        exact hsu
      · rw [hparent]
        exact hej

/-- Settles O44: the two ends of a strand's life on its own core, and of its life on a marionette. -/
theorem exitsAndHandOvers : Obligations.ExitsAndHandOvers := ⟨strandEnds, handOvers⟩

end Sys2Proof.Machine
end

section
/-! SUPPORT. Boosts (R334-R336): how far lent classes spread, and after how many rounds nothing changes any more. -/

namespace Sys2Proof.Machine

/-! ### Lent classes spread -/

theorem le_maxList_iff {t : Nat} (ht : 0 < t) (l : List Nat) : t ≤ maxList l ↔ ∃ x ∈ l, t ≤ x := by
  induction l with
  | nil => simp [maxList, Nat.ne_of_gt ht]
  | cons a l ih => rw [maxList_cons, le_max_iff, ih]; simp

/-- The highest value of those that lend. -/
def lentBy {n : Nat} (r : Fin n → Bool) (v : Fin n → Nat) : Nat := maxList (List.ofFn fun j => if r j then v j else 0)

theorem le_lentBy {n t : Nat} (ht : 0 < t) (r : Fin n → Bool) (v : Fin n → Nat) : t ≤ lentBy r v ↔ ∃ j, r j = true ∧ t ≤ v j := by
  rw [lentBy, le_maxList_iff ht]
  simp only [List.mem_ofFn, exists_exists_eq_and]
  refine exists_congr fun j => ?_
  cases r j <;> simp [Nat.ne_of_gt ht]

/-- Classes after some rounds: `c` the own ones, `r j i` where `j` lends to `i` (R336). -/
def spread {n : Nat} (r : Fin n → Fin n → Bool) (c : Fin n → Nat) : Nat → Fin n → Nat
  | 0 => c
  | k + 1 => fun i => min 3 (max (c i) (lentBy (fun j => r j i) (spread r c k)))

section
variable {n : Nat} (r : Fin n → Fin n → Bool) {c : Fin n → Nat} (hc : ∀ i, c i ≤ 3)

theorem le_spread_succ {t : Nat} (h0 : 0 < t) (h3 : t ≤ 3) (k : Nat) (i : Fin n) :
    t ≤ spread r c (k + 1) i ↔ t ≤ c i ∨ ∃ j, r j i = true ∧ t ≤ spread r c k j := by
  rw [spread, le_min_iff, le_max_iff, le_lentBy h0]
  exact and_iff_right h3

theorem spread_le (hc : ∀ i, c i ≤ 3) (k : Nat) (i : Fin n) : spread r c k i ≤ 3 := by
  cases k with
  | zero => exact hc i
  | succ k => exact Nat.min_le_left ..

/-- Those that have a class of at least `t` after `k` rounds. -/
def reached (c : Fin n → Nat) (t k : Nat) : Finset (Fin n) := Finset.univ.filter fun i => t ≤ spread r c k i

theorem mem_reached {t k : Nat} {i : Fin n} : i ∈ reached r c t k ↔ t ≤ spread r c k i := by simp [reached]

/-- A round depends on who has the class and on nothing else. -/
theorem reached_succ_mono {t : Nat} (h0 : 0 < t) (h3 : t ≤ 3) {k m : Nat} (h : reached r c t k ⊆ reached r c t m) :
    reached r c t (k + 1) ⊆ reached r c t (m + 1) := by
  intro i hi
  rw [mem_reached, le_spread_succ r h0 h3] at hi ⊢
  exact hi.imp id fun ⟨j, hj, ht⟩ => ⟨j, hj, (mem_reached r).1 (h ((mem_reached r).2 ht))⟩

theorem reached_subset_succ {t : Nat} (h0 : 0 < t) (h3 : t ≤ 3) (k : Nat) : reached r c t k ⊆ reached r c t (k + 1) := by
  induction k with
  | zero =>
    intro i hi
    rw [mem_reached] at hi
    rw [mem_reached, le_spread_succ r h0 h3]
    exact .inl hi
  | succ k ih => exact reached_succ_mono r h0 h3 ih

theorem reached_mono {t : Nat} (h0 : 0 < t) (h3 : t ≤ 3) : Monotone (reached r c t) :=
  monotone_nat_of_le_succ (reached_subset_succ r h0 h3)

/-- Where nobody has the class nobody gets it. -/
theorem reached_empty {t : Nat} (h0 : 0 < t) (h3 : t ≤ 3) {k : Nat} (h : reached r c t k = ∅) (m : Nat) : reached r c t m = ∅ := by
  have first : reached r c t 0 = ∅ := Finset.subset_empty.1 (h ▸ reached_mono r h0 h3 (Nat.zero_le k))
  induction m with
  | zero => exact first
  | succ m ih =>
    refine Finset.eq_empty_of_forall_notMem fun i hi => ?_
    rw [mem_reached, le_spread_succ r h0 h3] at hi
    rcases hi with hi | ⟨j, -, hj⟩
    · exact Finset.notMem_empty i (first ▸ (mem_reached r (k := 0)).2 hi)
    · exact Finset.notMem_empty j (ih ▸ (mem_reached r).2 hj)

/-- Of two rounds that reach as many, apart from one, the later reaches the same. -/
theorem reached_eq {t : Nat} (h0 : 0 < t) (h3 : t ≤ 3) {k m : Nat} (hkm : k ≤ m)
    (h : (reached r c t k).card - 1 = (reached r c t m).card - 1) : reached r c t k = reached r c t m := by
  by_cases hk : reached r c t k = ∅
  · rw [hk, reached_empty r h0 h3 hk]
  · have sub := reached_mono r (c := c) h0 h3 hkm
    refine Finset.eq_of_subset_of_card_le sub ?_
    have := Finset.card_pos.2 (Finset.nonempty_iff_ne_empty.2 hk)
    have := Finset.card_le_card sub
    omega

/-- One round fewer than there are members is enough. -/
theorem reached_stable {t : Nat} (h0 : 0 < t) (h3 : t ≤ 3) {k : Nat} (hk : n - 1 ≤ k) :
    reached r c t k = reached r c t (n - 1) := by
  refine (reached_eq r h0 h3 hk ?_).symm
  refine (Nat.stabilises_of_monotone (f := fun m => (reached r c t m).card - 1) (fun a b hab => ?_) (fun m => ?_) (fun m hm => ?_)
    hk).symm
  · exact Nat.sub_le_sub_right (Finset.card_le_card (reached_mono r h0 h3 hab)) 1
  · refine Nat.sub_le_sub_right ?_ 1
    simpa using (reached r c t m).card_le_univ
  · have same := reached_eq r h0 h3 (Nat.le_succ m) hm
    have next : reached r c t (m + 1) = reached r c t (m + 2) :=
      Finset.Subset.antisymm (reached_succ_mono r h0 h3 same.subset) (reached_succ_mono r h0 h3 same.superset)
    exact congrArg (fun a => Finset.card a - 1) next

include hc

theorem spread_stable {k : Nat} (hk : n - 1 ≤ k) : spread r c k = spread r c (n - 1) := by
  funext i
  have agree : ∀ t, 0 < t → t ≤ 3 → (t ≤ spread r c k i ↔ t ≤ spread r c (n - 1) i) := fun t h0 h3 => by
    rw [← mem_reached, ← mem_reached, reached_stable r h0 h3 hk]
  have hk3 := spread_le r hc k i
  have hn3 := spread_le r hc (n - 1) i
  refine Nat.le_antisymm ?_ ?_
  · rcases Nat.eq_zero_or_pos (spread r c k i) with h | h
    · omega
    · exact (agree _ h hk3).1 (Nat.le_refl _)
  · rcases Nat.eq_zero_or_pos (spread r c (n - 1) i) with h | h
    · omega
    · exact (agree _ h hn3).2 (Nat.le_refl _)

/-- After as many rounds as there are members every class is its own or the highest one lent (R336). -/
theorem spread_fixed (i : Fin n) : spread r c n i = min 3 (max (c i) (lentBy (fun j => r j i) (spread r c n))) := by
  have step : spread r c (n + 1) i = min 3 (max (c i) (lentBy (fun j => r j i) (spread r c n))) := rfl
  rw [← step, spread_stable r hc (Nat.sub_le n 1), spread_stable r hc (k := n + 1) (by omega)]

end

/-! ### Crews and launches -/

theorem Sparse.map_insert {α : Type} (f : α → α) (m : Sparse α) (k : Nat) (v : α) :
    (Sparse.insert m k v).map (fun e => (e.1, f e.2)) = Sparse.insert (m.map fun e => (e.1, f e.2)) k (f v) := by
  induction m with
  | nil => rfl
  | cons e m ih =>
    obtain ⟨a, w⟩ := e
    rw [Sparse.insert, List.map_cons, Sparse.insert]
    split
    · rfl
    · rw [List.map_cons, ih]

/-- New classes for every crew (R336). -/
theorem State.allCrews_mapClasses (s : State) {f : Crew → Crew} (hf : ∀ c, (f c).id = c.id) (h : Launch → Launch) :
    (s.mapClasses f h).allCrews = s.allCrews.map f := by
  unfold State.allCrews State.mapClasses
  by_cases h0 : s.crew.id = 0
  · simp [h0, Function.comp_def]
  · have hid : (f s.crew).id = s.crew.id := hf _
    simp only [if_neg h0, hid]
    rw [← Sparse.map_insert]
    simp [Function.comp_def]

theorem State.everyCrew_mapClasses (s : State) {f : Crew → Crew} (hf : ∀ c, (f c).id = c.id) (h : Launch → Launch) :
    (s.mapClasses f h).everyCrew = s.everyCrew.map fun e => (f e.1, e.2) := by
  have gangs : ∀ k, (s.mapClasses f h).gangsOf k = s.gangsOf k := fun _ => rfl
  have saved : (s.mapClasses f h).saved = s.saved.map fun p => { p with crew := f p.crew } := rfl
  unfold State.everyCrew
  rw [s.allCrews_mapClasses hf, saved, List.map_append]
  simp only [List.map_map, Function.comp_def, gangs, hf]

/-! ### The rounds of a recomputation -/

/-- A crew with another effective class. -/
def Crew.classed (c : Crew) (n : Nat) : Crew := { c with effCls := n }

/-- Crews with other effective classes. -/
def withClasses (l : List (Crew × List Gang)) (v : Fin l.length → Nat) : List (Crew × List Gang) :=
  List.ofFn fun i : Fin l.length => (l[i].1.classed (v i), l[i].2)

/-- The own classes of crews. -/
def ownClasses (l : List (Crew × List Gang)) (i : Fin l.length) : Nat := l[i].1.cls

/-- A crew lends its class to a launch: a gang of it waits in the launch's queue (R335). -/
def State.lends (s : State) (e : Crew × List Gang) (lid : Nat) : Bool := e.2.any fun g => (s.lendsTo g).contains lid

/-- A crew lends its class to another crew's launch. -/
def State.lendsCrew (s : State) (l : List (Crew × List Gang)) (j i : Fin l.length) : Bool := s.lends l[j] l[i].1.lid

theorem map_ownClasses (l : List (Crew × List Gang)) :
    (l.map fun e => (e.1.classed e.1.cls, e.2)) = withClasses l (ownClasses l) :=
  List.ext_getElem (by simp [withClasses]) fun i hi hi' => by simp [withClasses, ownClasses]

theorem map_withClasses (l : List (Crew × List Gang)) (v : Fin l.length → Nat) (f : Nat → Nat) :
    ((withClasses l v).map fun e => (e.1.classed (min 3 (max e.1.cls (f e.1.lid))), e.2)) =
      withClasses l fun i => min 3 (max (ownClasses l i) (f l[i].1.lid)) := by
  unfold withClasses
  rw [List.map_ofFn]
  rfl

theorem mem_withClasses {l : List (Crew × List Gang)} {v : Fin l.length → Nat} {e : Crew × List Gang} :
    e ∈ withClasses l v ↔ ∃ i : Fin l.length, (l[i].1.classed (v i), l[i].2) = e := by
  unfold withClasses
  rw [List.mem_ofFn]

theorem State.lendsTo_congr {s t : State} (h : t.queues = s.queues) : t.lendsTo = s.lendsTo := by
  funext g
  unfold State.lendsTo State.queue
  rw [h]

/-- The highest class lent to a launch, by crews whose classes are known. -/
theorem State.lent_withClasses {s t : State} (hq : t.queues = s.queues) {l : List (Crew × List Gang)} {v : Fin l.length → Nat}
    (he : t.everyCrew = withClasses l v) (lid : Nat) : t.lent lid = lentBy (fun j => s.lends l[j] lid) v := by
  unfold State.lent lentBy
  rw [he, withClasses, List.map_ofFn, State.lendsTo_congr hq]
  rfl

/-- The classes of the crews after some rounds. -/
def State.roundClasses (s : State) : Nat → Fin s.everyCrew.length → Nat :=
  spread (s.lendsCrew s.everyCrew) (ownClasses s.everyCrew)

/-- The class of a launch after some rounds: what the round before lent. -/
def State.launchClass (s : State) (l : Launch) : Nat → Nat
  | 0 => l.r.cls
  | m + 1 => min 3 (max l.r.cls (lentBy (fun j => s.lends s.everyCrew[j] l.lid) (s.roundClasses m)))

/-- The state of a recomputation after `k` rounds (R336). -/
structure State.Boosted (s t : State) (k : Nat) : Prop where
  frame : t = { s with crew := t.crew, crews := t.crews, saved := t.saved, launches := t.launches }
  every : t.everyCrew = withClasses s.everyCrew (s.roundClasses k)
  launches : t.launches = s.launches.map fun l => { l with effCls := s.launchClass l k }

theorem State.boosted_zero (s : State) :
    s.Boosted (s.mapClasses (fun c => { c with effCls := c.cls }) fun l => { l with effCls := l.r.cls }) 0 :=
  ⟨rfl, (s.everyCrew_mapClasses (f := fun c => c.classed c.cls) (fun _ => rfl) _).trans (map_ownClasses _), rfl⟩

theorem State.Boosted.round {s t : State} {k : Nat} (h : s.Boosted t k) : s.Boosted t.boostRound (k + 1) := by
  obtain ⟨hframe, hevery, hlaunches⟩ := h
  have hq : t.queues = s.queues := by rw [hframe]
  have hlent := State.lent_withClasses hq hevery
  refine ⟨?_, ?_, ?_⟩
  · unfold State.boostRound State.mapClasses
    rw [hframe]
  · unfold State.boostRound
    refine (t.everyCrew_mapClasses (f := fun c => c.classed (min 3 (max c.cls (t.lent c.lid)))) (fun _ => rfl) _).trans ?_
    rw [hevery, map_withClasses]
    simp only [hlent]
    rfl
  · have step : t.boostRound.launches = t.launches.map fun l => { l with effCls := min 3 (max l.r.cls (t.lent l.lid)) } := rfl
    rw [step, hlaunches, List.map_map]
    refine List.map_congr_left fun l _ => ?_
    simp only [Function.comp_apply, hlent]
    rfl

theorem State.Boosted.rounds {s : State} {α : Type} (l : List α) {t : State} {k : Nat} (h : s.Boosted t k) :
    s.Boosted (l.foldl (fun (t : State) _ => t.boostRound) t) (k + l.length) := by
  induction l generalizing t k with
  | nil => exact h
  | cons x l ih =>
    have := ih h.round
    rwa [List.length_cons, show k + (l.length + 1) = k + 1 + l.length by omega]

/-- The class of a launch after the rounds of a recomputation: the last round changes no crew's class. -/
theorem State.launchClass_last (s : State) (hown : ∀ i, ownClasses s.everyCrew i ≤ 3) {l : Launch} (hl : l.r.cls ≤ 3) {n : Nat}
    (hn : n = s.everyCrew.length) : s.launchClass l n =
      min 3 (max l.r.cls (lentBy (fun j => s.lends s.everyCrew[j] l.lid) (s.roundClasses s.everyCrew.length))) := by
  cases n with
  | zero =>
    have none : lentBy (fun j => s.lends s.everyCrew[j] l.lid) (s.roundClasses s.everyCrew.length) = 0 := by
      refine Nat.eq_zero_of_not_pos fun h => ?_
      obtain ⟨j, -, -⟩ := (le_lentBy Nat.one_pos _ _).1 h
      exact absurd j.isLt (by omega)
    rw [none, State.launchClass]
    omega
  | succ m =>
    have same : s.roundClasses m = s.roundClasses s.everyCrew.length :=
      (spread_stable _ hown (by omega)).trans (spread_stable _ hown (Nat.sub_le ..)).symm
    rw [State.launchClass, same]

/-- The classes after a recomputation: own ones, or the highest lent (R336). -/
theorem State.boosted_final {s t : State} (hc : ∀ e ∈ s.everyCrew, e.1.cls ≤ 3) (hl : ∀ l ∈ s.launches, l.r.cls ≤ 3)
    (h : s.Boosted t s.everyCrew.length) :
    (∀ e ∈ t.everyCrew, e.1.cls ≤ 3 ∧ e.1.effCls = min 3 (max e.1.cls (t.lent e.1.lid))) ∧
      ∀ l ∈ t.launches, l.r.cls ≤ 3 ∧ l.effCls = min 3 (max l.r.cls (t.lent l.lid)) := by
  obtain ⟨hframe, hevery, hlaunches⟩ := h
  have hq : t.queues = s.queues := by rw [hframe]
  have hown : ∀ i, ownClasses s.everyCrew i ≤ 3 := fun i => hc _ (List.getElem_mem _)
  have hlent := State.lent_withClasses hq hevery
  refine ⟨fun e he => ?_, fun l h => ?_⟩
  · rw [hevery] at he
    obtain ⟨i, rfl⟩ := mem_withClasses.1 he
    refine ⟨hown i, ?_⟩
    rw [hlent]
    exact spread_fixed _ hown i
  · rw [hlaunches] at h
    obtain ⟨q, hq', rfl⟩ := List.mem_map.1 h
    refine ⟨hl q hq', ?_⟩
    rw [hlent]
    exact s.launchClass_last hown (hl q hq') rfl

theorem Gang.blockedPop_iff (g : Gang) (key since : Nat) :
    g.blockedPop = some (key, since) ↔ ∃ h x, g.hold = some h ∧ h.why = .qpop x key since := by
  unfold Gang.blockedPop
  cases g.hold with
  | none => simp
  | some h =>
    obtain ⟨why, pc, run⟩ := h
    cases why <;> simp

theorem Gang.blockedPush_iff (g : Gang) (key since : Nat) :
    g.blockedPush = some (key, since) ↔ ∃ h x, g.hold = some h ∧ h.why = .qpush x key since := by
  unfold Gang.blockedPush
  cases g.hold with
  | none => simp
  | some h =>
    obtain ⟨why, pc, run⟩ := h
    cases why <;> simp

/-- A launch that a blocked gang's queue names, where the queue is bound. -/
theorem mem_namedLaunch (b : Option (Nat × Nat)) (bound : Nat → Bool) (named : Nat → Nat) (lid : Nat) :
    lid ∈ (match b with
      | some (key, _) => if bound key then [named key] else []
      | none => []) ↔ ∃ key since, b = some (key, since) ∧ bound key = true ∧ named key = lid := by
  cases b with
  | none => simp
  | some p =>
    obtain ⟨key, since⟩ := p
    show lid ∈ (if bound key = true then [named key] else []) ↔ _
    by_cases hb : bound key = true
    · rw [if_pos hb, List.mem_singleton]
      refine ⟨fun h => ⟨key, since, rfl, hb, h.symm⟩, ?_⟩
      rintro ⟨_, _, ⟨rfl, rfl⟩, _, rfl⟩
      rfl
    · rw [if_neg hb]
      refine ⟨fun h => absurd h List.not_mem_nil, ?_⟩
      rintro ⟨_, _, ⟨rfl, rfl⟩, hbound, _⟩
      exact absurd hbound hb

/-- What it is that a gang lends its crew's class to (R335). -/
theorem State.lends_iff (s : State) (e : Crew × List Gang) (lid : Nat) : s.lends e lid = true ↔
    ∃ g ∈ e.2, ∃ h x key since, g.hold = some h ∧ (s.queues.get {} key).bound = true ∧
      ((h.why = .qpop x key since ∧ (s.queues.get {} key).prodlid = lid) ∨
        (h.why = .qpush x key since ∧ (s.queues.get {} key).conslid = lid)) := by
  unfold State.lends
  rw [List.any_eq_true]
  refine exists_congr fun g => and_congr_right fun _ => ?_
  have pops := mem_namedLaunch g.blockedPop (fun key => (s.queue key).bound) (fun key => (s.queue key).prodlid) lid
  have pushes := mem_namedLaunch g.blockedPush (fun key => (s.queue key).bound) (fun key => (s.queue key).conslid) lid
  simp only [Gang.blockedPop_iff] at pops
  simp only [Gang.blockedPush_iff] at pushes
  rw [List.contains_iff_mem, State.lendsTo, List.mem_append]
  refine (or_congr pops pushes).trans ⟨?_, ?_⟩
  · rintro (⟨key, since, ⟨h, x, hh, hw⟩, hb, hl⟩ | ⟨key, since, ⟨h, x, hh, hw⟩, hb, hl⟩)
    · exact ⟨h, x, key, since, hh, hb, .inl ⟨hw, hl⟩⟩
    · exact ⟨h, x, key, since, hh, hb, .inr ⟨hw, hl⟩⟩
  · rintro ⟨h, x, key, since, hh, hb, ⟨hw, hl⟩ | ⟨hw, hl⟩⟩
    · exact .inl ⟨key, since, ⟨h, x, hh, hw⟩, hb, hl⟩
    · exact .inr ⟨key, since, ⟨h, x, hh, hw⟩, hb, hl⟩

/-- A class between the own one and the highest lent (R334, R335). -/
theorem State.raised {s t : State} (hq : t.queues = s.queues) (h3 : ∀ e ∈ t.everyCrew, e.1.effCls ≤ 3) {lid own eff : Nat}
    (ho : own ≤ 3) (he : eff = min 3 (max own (t.lent lid))) :
    own ≤ eff ∧ (∀ e ∈ t.everyCrew, s.lends e lid = true → e.1.effCls ≤ eff) ∧
      (eff = own ∨ ∃ e ∈ t.everyCrew, s.lends e lid = true ∧ eff = e.1.effCls) := by
  have hl : t.lent lid = maxList (t.everyCrew.map fun e => if s.lends e lid then e.1.effCls else 0) := by
    unfold State.lent State.lends
    rw [State.lendsTo_congr hq]
  have above : ∀ e ∈ t.everyCrew, s.lends e lid = true → e.1.effCls ≤ t.lent lid := fun e h hlends => by
    rw [hl]
    exact le_maxList (List.mem_map.2 ⟨e, h, if_pos hlends⟩)
  refine ⟨by omega, fun e h hlends => ?_, ?_⟩
  · have := above e h hlends
    have := h3 e h
    omega
  · by_cases hown : t.lent lid ≤ own
    · exact .inl (by omega)
    · have pos : 0 < t.lent lid := by omega
      have reach := (le_maxList_iff pos (t.everyCrew.map fun e => if s.lends e lid then e.1.effCls else 0)).1 (by rw [← hl])
      obtain ⟨x, hx, hle⟩ := reach
      obtain ⟨e, h, rfl⟩ := List.mem_map.1 hx
      by_cases hlends : s.lends e lid = true
      · rw [if_pos hlends] at hle
        have := above e h hlends
        have := h3 e h
        exact .inr ⟨e, h, hlends, by omega⟩
      · rw [if_neg hlends] at hle
        omega

/-- An operation's class (R334, R335). -/
theorem State.awaited_iff (s : State) (o : EngineOp) : s.awaited o = true ↔
    ∃ g ∈ s.gangsOf o.crewId, ∃ h k, g.hold = some h ∧ h.why = .handle k ∧ o.handle = some k.entry := by
  unfold State.awaited
  rw [List.any_eq_true]
  refine exists_congr fun g => and_congr_right fun _ => ?_
  cases g.hold with
  | none => simp
  | some h =>
    obtain ⟨why, pc, run⟩ := h
    cases why <;> simp

/-- Lent classes stop to spread within as many rounds as there are crews (R334, R335). -/
theorem boosts : Claims.Boosts := by
  intro s hc hl lends
  have hb := s.boosted_zero.rounds s.everyCrew
  rw [Nat.zero_add] at hb
  have final := State.boosted_final hc hl hb
  have run : exec .boostRecompute s = execBoostRecompute s := rfl
  unfold execBoostRecompute at run
  dsimp only at run
  generalize s.everyCrew.foldl (fun (t : State) _ => t.boostRound)
    (s.mapClasses (fun c => { c with effCls := c.cls }) fun l => { l with effCls := l.r.cls }) = t at hb final run
  obtain ⟨hframe, hevery, hlaunches⟩ := hb
  have hq : t.queues = s.queues := by rw [hframe]
  have h3 : ∀ e ∈ t.everyCrew, e.1.effCls ≤ 3 := fun e he => by
    have := (final.1 e he).2
    omega
  have lendsIff : ∀ e lid, lends e lid ↔ s.lends e lid = true := fun e lid => (s.lends_iff e lid).symm
  refine ⟨_, run, ⟨fun e he => ?_, fun l h => ?_⟩, by rw [hframe], by rw [hframe], by rw [hframe], hq, ?_, ?_, ?_⟩
  · have := State.raised hq h3 (final.1 e he).1 (final.1 e he).2
    simp only [lendsIff]
    exact this
  · have := State.raised hq h3 (final.2 l h).1 (final.2 l h).2
    simp only [lendsIff]
    exact this
  · show t.everyCrew.map _ = _
    rw [hevery]
    refine List.ext_getElem (by simp [withClasses]) fun i hi hi' => by simp [withClasses, Crew.classed]
  · rw [List.length_map, hframe]
  · intro j o ho
    have hops : t.ops = s.ops := by rw [hframe]
    refine ⟨t.opClass o, by rw [List.getElem?_map, hops, ho]; rfl, ?_⟩
    intro c waits
    have iff : waits ↔ t.awaited o = true := (t.awaited_iff o).symm
    rw [iff]
    exact ⟨fun h => if_pos h, fun h => if_neg h⟩

end Sys2Proof.Machine
end

section
/-! SUPPORT. What the writes of a crew's record leave alone (R338): the resident contexts, the crews and their places. -/

namespace Sys2Proof.Machine

/-! ### The resident contexts while lines move -/

theorem Sys.ctxs_foldl {α : Type} {f : Sys → α → Sys} (hf : ∀ y x, (f y x).ctxs = y.ctxs) (l : List α) (y : Sys) :
    (l.foldl f y).ctxs = y.ctxs := by
  induction l generalizing y with
  | nil => rfl
  | cons x l ih => exact (ih _).trans (hf y x)

theorem Sys.ctxs_ite {x y z : Sys} {c : Prop} [Decidable c] (hy : y.ctxs = x.ctxs) (hz : z.ctxs = x.ctxs) :
    (if c then y else z).ctxs = x.ctxs := by split <;> assumption

@[simp] theorem Sys.ctxs_setEntry (y : Sys) (asid : Asid) (line : Nat) (e : DirEntry) : (y.setEntry asid line e).ctxs = y.ctxs := rfl

@[simp] theorem Sys.ctxs_logBad (y : Sys) (w : Who) (asid : Asid) (pa : Nat) (lanes : List LogLane) :
    (y.logBad w asid pa lanes).ctxs = y.ctxs := Sys.ctxs_ite rfl rfl

@[simp] theorem Sys.ctxs_toMemory (y : Sys) (w : Who) (key : Nat) (m : BitVec 128) : (y.toMemory w key m).ctxs = y.ctxs :=
  Sys.ctxs_logBad y ..

theorem Sys.ctxs_makeWay (y : Sys) {evict : Nat → Sys → Sys} (he : ∀ k z, (evict k z).ctxs = z.ctxs) (cache line : Nat) :
    (y.makeWay evict cache line).ctxs = y.ctxs := by
  unfold Sys.makeWay
  dsimp only
  split
  · rfl
  · split
    · rfl
    · exact he _ _

theorem Sys.ctxs_fillWith (y : Sys) {evict : Nat → Sys → Sys} (he : ∀ k z, (evict k z).ctxs = z.ctxs) (cache key pa : Nat) (c : Copy) :
    (y.fillWith evict cache key pa c).ctxs = y.ctxs := Sys.ctxs_ite rfl (y.ctxs_makeWay he _ _)

@[simp] theorem Sys.ctxs_evictSlice (y : Sys) (w : Who) (die key : Nat) : (y.evictSlice w die key).ctxs = y.ctxs :=
  Sys.ctxs_ite (y.ctxs_toMemory ..) rfl

@[simp] theorem Sys.ctxs_fillSlice (y : Sys) (w : Who) (die key pa : Nat) (c : Copy) : (y.fillSlice w die key pa c).ctxs = y.ctxs :=
  y.ctxs_fillWith (fun _ z => z.ctxs_evictSlice ..) _ _ _ _

@[simp] theorem Sys.ctxs_evictCluster (y : Sys) (w : Who) (k key : Nat) : (y.evictCluster w k key).ctxs = y.ctxs := by
  unfold Sys.evictCluster
  dsimp only
  split
  · simp only [Sys.ctxs_fillSlice]
  · rfl

@[simp] theorem Sys.ctxs_fillCluster (y : Sys) (w : Who) (k key pa : Nat) (c : Copy) : (y.fillCluster w k key pa c).ctxs = y.ctxs :=
  y.ctxs_fillWith (fun _ z => z.ctxs_evictCluster ..) _ _ _ _

@[simp] theorem Sys.ctxs_gather (y : Sys) (w : Who) (key : Nat) : (y.gather w key).ctxs = y.ctxs := by
  unfold Sys.gather
  dsimp only
  split
  · rfl
  · simp only [Sys.ctxs_fillSlice]

@[simp] theorem Sys.ctxs_dropV (y : Sys) (w : Who) (k : Nat) : (y.dropV w k).ctxs = y.ctxs :=
  Sys.ctxs_foldl (fun z _ => z.ctxs_evictCluster ..) _ y

@[simp] theorem Sys.ctxs_dirHome (y : Sys) (w : Who) (l : Leaf) (va : Nat) (m : BitVec 128) : (y.dirHome w l va m).ctxs = y.ctxs := by
  unfold Sys.dirHome
  dsimp only
  split <;> simp

@[simp] theorem Sys.ctxs_setBytes (y : Sys) (pa : Nat) (data : List Byte) : (y.setBytes pa data).ctxs = y.ctxs := by
  induction data generalizing y pa with
  | nil => rfl
  | cons b t ih => exact ih _ _

@[simp] theorem Sys.ctxs_putBytes (y : Sys) (pa : Nat) (data : List Byte) (tag : Bool) : (y.putBytes pa data tag).ctxs = y.ctxs :=
  Sys.ctxs_ite (y.ctxs_setBytes ..) (y.ctxs_setBytes ..)

@[simp] theorem Sys.ctxs_setPeer (y : Sys) (key : Nat) (data : List Byte) : (y.setPeer key data).ctxs = y.ctxs := by
  induction data generalizing y key with
  | nil => rfl
  | cons b t ih => exact ih _ _

@[simp] theorem Sys.ctxs_writeMasked (y : Sys) (pa : Nat) (d : BitVec 1024) (m : BitVec 128) (tags : BitVec 8) :
    (y.writeMasked pa d m tags).ctxs = y.ctxs :=
  (Sys.ctxs_foldl (f := fun y g => if tags.getLsbD g then y.setTag (pa + 16 * g) true else y) (fun _ _ => Sys.ctxs_ite rfl rfl) _ _).trans
    (Sys.ctxs_foldl (f := fun y i => y.setByte (pa + i) (lineByte d i)) (fun _ _ => rfl) _ y)

theorem Sys.ctxs_recordFill {y z : Sys} {asid : Asid} {vpn frame : Nat} {w : Bool} (h : y.recordFill asid vpn frame w = .ok z) :
    z.ctxs = y.ctxs := by
  unfold Sys.recordFill at h
  dsimp only at h
  split at h
  · exact Except.ok.inj h ▸ rfl
  · split at h
    · split at h
      · cases h
      · exact Except.ok.inj h ▸ rfl
    · split at h
      · cases h
      · exact Except.ok.inj h ▸ rfl

theorem Sys.ctxs_translate {y z : Sys} {asid : Asid} {va : Nat} {acc : Access} {priv : Bool} {l : Leaf}
    (h : y.translate asid va acc priv = .ok (l, z)) : z.ctxs = y.ctxs := by
  unfold Sys.translate at h
  split at h
  · split at h
    · cases h
    · cases h; rfl
  · unfold Sys.walkFill at h
    split at h
    · cases h
    · split at h
      · cases h
      · split at h
        · cases h
        · next u hu => cases h; exact (Sys.ctxs_recordFill hu :)

/-! ### The same for the accesses of a state -/

@[simp] theorem State.ctxs_dirWrite (s : State) (w : Who) (l : Leaf) (policy va : Nat) (m : BitVec 128) :
    (s.dirWrite w l policy va m).sys.ctxs = s.sys.ctxs := by
  unfold State.dirWrite
  dsimp only
  split
  · refine (Sys.ctxs_setEntry ..).trans (Sys.ctxs_ite ?_ ?_)
    · simp
    · exact (Sys.ctxs_fillCluster ..).trans (Sys.ctxs_ite rfl (Sys.ctxs_fillSlice ..))
  · split
    · rfl
    · rw [State.sys_countLocate]; rfl

@[simp] theorem State.ctxs_writeBack (s : State) (w : Who) (l : L1Line) : (s.writeBack w l).sys.ctxs = s.sys.ctxs := by
  unfold State.writeBack
  split
  · rfl
  · split <;> simp

theorem State.ctxs_foldl {α : Type} {f : State → α → State} (hf : ∀ s x, (f s x).sys.ctxs = s.sys.ctxs) (l : List α) (s : State) :
    (l.foldl f s).sys.ctxs = s.sys.ctxs := by
  induction l generalizing s with
  | nil => rfl
  | cons x l ih => exact (ih _).trans (hf s x)

@[simp] theorem State.ctxs_l1Release (s : State) (w : Who) : (s.l1Release w).sys.ctxs = s.sys.ctxs :=
  State.ctxs_foldl (fun t x => t.ctxs_writeBack w x) _ s

@[simp] theorem State.ctxs_release (s : State) (w : Who) (scope : Nat) : (s.release w scope).sys.ctxs = s.sys.ctxs := by
  unfold State.release
  dsimp only
  split <;> split <;> simp

theorem State.ctxs_leaf {s t : State} {w : Who} {acc : Access} {va n : Nat} {l : Leaf} (h : s.leaf w acc va n = .ok (l, t)) :
    t.sys.ctxs = s.sys.ctxs := by
  have via : ∀ {r : Leaf × State}, s.viaHome w acc va = .ok r → r.2.sys.ctxs = s.sys.ctxs := by
    intro r h
    unfold State.viaHome at h
    split at h
    · cases h
    · next l y hy =>
      have same := Sys.ctxs_translate hy
      dsimp only at h
      split at h
      · exact Except.ok.inj h ▸ same
      · split at h
        · exact Except.ok.inj h ▸ same
        · split at h
          · cases h
          · split at h
            · cases h
            · exact Except.ok.inj h ▸ same
  have hp := s.leaf_page w acc va n (l, t) h
  unfold State.page at hp
  split at hp
  · exact via hp
  · split at hp
    · cases hp; rfl
    · split at hp
      · cases hp
      · next hv =>
        cases hp
        split
        · exact via hv
        · exact via hv

theorem ctxs_drainInto (reg : Dword) (size : Nat) (head : Word) (y : Sys) (tail : Word) (l : List Record) :
    (drainInto reg size head y tail l).1.ctxs = y.ctxs := by
  induction l generalizing y tail with
  | nil => rfl
  | cons r rest ih =>
    unfold drainInto
    split
    · exact (ih _ _).trans (Sys.ctxs_setBytes ..)
    · rfl

@[simp] theorem State.ctxs_event (s : State) (e : Event) : (s.event e).sys.ctxs = s.sys.ctxs := by
  unfold State.event State.pushRecord State.drainRing
  dsimp only
  split
  · rfl
  · exact ctxs_drainInto ..

@[simp] theorem State.ctxs_peerWrite (s : State) (asid : Asid) (peer addr : Nat) (data : List Byte) :
    (s.peerWrite asid peer addr data).sys.ctxs = s.sys.ctxs := by
  unfold State.peerWrite
  dsimp only
  split <;> simp [Sys.dropWrite]

/-! ### A crew's record is written at its home (R338) -/

/-- Between two states the memory system worked, and the contexts are the same. -/
structure State.Wrote (s t : State) : Prop extends s.Worked t where
  ctxs : t.sys.ctxs = s.sys.ctxs

theorem State.Wrote.refl (s : State) : s.Wrote s := ⟨.refl s, rfl⟩
theorem State.Wrote.trans {s t u : State} (h : s.Wrote t) (h' : t.Wrote u) : s.Wrote u :=
  ⟨h.toWorked.trans h'.toWorked, h'.ctxs.trans h.ctxs⟩

theorem State.wrote_homeWrite (s : State) (w : Who) (l : Leaf) (va : Nat) (data : List Byte) : s.Wrote (s.homeWrite w l va data) := by
  unfold State.homeWrite
  dsimp only
  split
  · exact ⟨s.worked_peerWrite .., by simp⟩
  · split
    · exact ⟨.sys s _, by simp⟩
    · exact .refl s

theorem State.wrote_foldl {α : Type} {f : State → α → State} (hf : ∀ (s : State) x, s.Wrote (f s x)) (l : List α) (s : State) :
    s.Wrote (l.foldl f s) := by
  induction l generalizing s with
  | nil => exact .refl s
  | cons x l ih => exact (hf s x).trans (ih _)

theorem State.wrote_homeLeaf {s t : State} {w : Who} {acc : Access} {va : Nat} {l : Leaf} (h : s.homeLeaf w acc va = .ok (l, t)) :
    s.Wrote t := by
  unfold State.homeLeaf at h
  split at h
  · cases h
  · split at h
    · cases h
    · next hleaf =>
      cases h
      exact ⟨State.worked_leaf hleaf, State.ctxs_leaf hleaf⟩

theorem State.wrote_openRecord (s : State) (w : Who) (va n : Nat) : s.Wrote (s.openRecord w va n) := by
  refine State.wrote_foldl (fun s p => ?_) _ s
  split
  · exact .refl s
  · next hl =>
    exact (State.wrote_homeLeaf hl).trans
      ((State.wrote_homeWrite ..).trans ⟨.of_eq rfl rfl rfl rfl rfl rfl rfl, rfl⟩)

theorem State.wrote_release (s : State) (w : Who) (scope : Nat) : s.Wrote (s.release w scope) := ⟨s.worked_release .., by simp⟩

end Sys2Proof.Machine
end

section
/-! SUPPORT. Placement of a cohort (R328-R330): room on a core, gangs that enter their slots, the crews of a cohort one by one. -/

namespace Sys2Proof

theorem Sparse.get_foldl_put {α : Type} [DecidableEq α] (d : α) (f : Nat → α) (l : List Nat) (m : Sparse α) (k : Nat) :
    Sparse.get d (l.foldl (fun t i => Sparse.put d t i (f i)) m) k = if k ∈ l then f k else Sparse.get d m k := by
  induction l generalizing m with
  | nil => simp
  | cons i l ih =>
    rw [List.foldl_cons, ih, Sparse.get_put]
    by_cases hl : k ∈ l
    · simp [hl]
    · by_cases hi : k = i <;> simp [hl, hi]

end Sys2Proof

namespace Sys2Proof.Machine

/-! ### Room on a core (R328) -/

/-- A need within the limits of a launch record (R327). -/
structure CrewNeed.Modest (n : CrewNeed) : Prop where
  gangs : n.gangs ≤ 32
  vregs : n.vregs ≤ 128
  scratch : n.scratch ≤ 262144
  nbar : n.nbar ≤ 96
  qshare : n.qshare ≤ 8

theorem scratchPlace_nil {n : Nat} (h : n ≤ 262144) : scratchPlace [] n = some 0 := by
  simp [scratchPlace, Config.scratchBytes, h, minList]

/-- A core without crews takes a crew, its scratch at 0. -/
theorem State.fits_of_empty {s : State} {core : Nat} {n : CrewNeed} (hn : n.Modest) (he : s.crewsOn core = []) :
    s.fits core n = some 0 := by
  obtain ⟨gangs, vregs, scratch, nbar, qshare⟩ := hn
  have regs : 128 * n.gangs * n.vregs ≤ 128 * 32 * 128 := Nat.mul_le_mul (Nat.mul_le_mul_left 128 gangs) vregs
  unfold State.fits
  dsimp only
  rw [he, if_pos, scratchPlace_nil scratch]
  simp [total, Config.gangsPerSlot, Config.slotsPerCore, Config.vrfBytes, Config.barriersPerCore]
  omega

theorem le_total {x : Nat} {l : List Nat} (h : x ∈ l) : x ≤ total l := by
  have sum : total l = l.sum := by rw [total, List.foldl_eq_foldr, List.sum_eq_foldr]
  exact sum ▸ List.le_sum_of_mem h

/-- A crew too many for the registers of a core does not fit (R328). -/
theorem State.fits_of_full {s : State} {core : Nat} {n : CrewNeed} {d : Crew} (hd : d ∈ s.allCrews) (hc : d.core = core)
    (full : 4096 < d.gangs * d.vregs + n.gangs * n.vregs) : s.fits core n = none := by
  have mem : 128 * d.gangs * d.vregs ∈ (s.crewsOn core).map fun c => 128 * c.gangs * c.vregs :=
    List.mem_map.2 ⟨d, List.mem_filter.2 ⟨hd, decide_eq_true hc⟩, rfl⟩
  have sum := le_total mem
  unfold State.fits
  dsimp only
  refine if_neg fun h => ?_
  simp only [Bool.and_eq_true, decide_eq_true_eq, Config.vrfBytes] at h
  obtain ⟨⟨⟨⟨-, regs⟩, -⟩, -⟩, -⟩ := h
  have room := of_decide_eq_true regs
  rw [Nat.mul_assoc] at sum
  rw [Nat.mul_assoc 128 n.gangs] at room
  omega

theorem State.coreFor_eq_none {s : State} {cluster j : Nat} {n : CrewNeed} :
    s.coreFor cluster j n = none ↔ ∀ k, k < 4 → s.fits (cluster * 4 + (j + k) % 4) n = none := by
  simp [State.coreFor]

/-- The core chosen is one of the cluster (R329). -/
theorem State.coreFor_cluster {s : State} {cluster j core base : Nat} {n : CrewNeed} (h : s.coreFor cluster j n = some (core, base)) :
    core / 4 = cluster := by
  obtain ⟨k, -, hk⟩ := List.mem_filterMap.1 (List.mem_of_mem_head? h)
  obtain ⟨_, _, pair⟩ := Option.map_eq_some_iff.1 hk
  obtain ⟨rfl, -⟩ := Prod.mk.inj pair
  omega

/-- The first core tried takes the crew where it fits (R329). -/
theorem State.coreFor_first {s : State} {cluster j base : Nat} {n : CrewNeed} (h : s.fits (cluster * 4 + j % 4) n = some base) :
    s.coreFor cluster j n = some (cluster * 4 + j % 4, base) := by
  simp [State.coreFor, List.range_succ_eq_map, h]

/-! ### Gangs that enter their slots (R330) -/

/-- A gang with its place in an issue slot. -/
def Gang.entered (g : Gang) (slot arrival : Nat) (active left : Bool) : Gang :=
  { g with slot := slot, active := active, left := left, arrival := arrival, nextIssue := 0, lastIssue := 0 }

/-- A gang is another one that entered some slot. -/
def Gang.EnteredAs (g k : Gang) : Prop := ∃ slot arrival active left, k = g.entered slot arrival active left

theorem State.enterSlot_eq (s : State) (core : Nat) (g : Gang) :
    ∃ k, g.EnteredAs k ∧ s.enterSlot core g = { s with gangs := Sparse.put {} s.gangs g.id k } :=
  ⟨_, ⟨_, _, _, _, rfl⟩, rfl⟩

/-- Gangs enter one after the other: of different numbers, each stands under its own. -/
theorem State.enter_all {α : Type} {f : State → α → State} {id : α → Nat} {p : α → Gang → Prop}
    (hf : ∀ s x, ∃ k n, p x k ∧ f s x = { s with gangs := Sparse.put {} s.gangs (id x) k, freeCtr := n }) (l : List α) (s : State) :
    ∃ m n, l.foldl f s = { s with gangs := m, freeCtr := n } ∧ ((l.map id).Nodup → ∀ x ∈ l, p x (m.get {} (id x))) ∧
      ∀ k, k ∉ l.map id → m.get {} k = s.gangs.get {} k := by
  induction l generalizing s with
  | nil => exact ⟨s.gangs, s.freeCtr, rfl, by simp, fun _ _ => rfl⟩
  | cons x l ih =>
    obtain ⟨k, n, hk, step⟩ := hf s x
    obtain ⟨m, n', hm, entered, others⟩ := ih (f s x)
    rw [step] at hm others
    refine ⟨m, n', by rw [List.foldl_cons, step, hm], fun hl y hy => ?_, fun i hi => ?_⟩
    · obtain ⟨fresh, rest⟩ := List.nodup_cons.1 hl
      rcases List.mem_cons.1 hy with rfl | hy
      · rw [others _ fresh, Sparse.get_put_same]
        exact hk
      · exact entered rest y hy
    · rw [List.map_cons, List.mem_cons, not_or] at hi
      rw [others i hi.2, Sparse.get_put_other _ _ _ _ _ hi.1]

/-! ### The crews of a cohort (R329) -/

theorem State.prepareCore_sys (s : State) (c : Crew) : ∃ y, s.prepareCore c = { s with sys := y } := by
  unfold State.prepareCore State.acquire State.l1Acquire
  dsimp only
  split
  · split <;> exact ⟨_, rfl⟩
  · split <;> exact ⟨_, rfl⟩

/-- The gang's number that a crew's `i`-th gang has. -/
def gangNumber (crew i : Nat) : Nat := (crew * 32 + i) * 33

theorem gangNumber_inj {c d i j : Nat} (hi : i < 32) (hj : j < 32) (h : gangNumber c i = gangNumber d j) : c = d ∧ i = j := by
  unfold gangNumber at h
  omega

/-- The first gang of a new crew. -/
def Launch.newGang (l : Launch) (crew i : Nat) : Gang := Machine.newGang crew i l.r.strands l.r.entry l.r.priv

/-- One crew is allocated: it stands under the next number, and its gangs have entered their slots. -/
theorem State.placeCrew_some {s t : State} {l : Launch} {cluster j : Nat} (h : s.placeCrew l cluster j = some t) :
    ∃ core base y m n, core / 4 = cluster ∧
      t = { s with crews := Sparse.put {} s.crews s.nextCrew (newCrew s.nextCrew l j core base), nextCrew := s.nextCrew + 1,
                   gangs := m, freeCtr := n, sys := y } ∧
      (∀ i, i < l.r.gangs → (l.newGang s.nextCrew i).EnteredAs (m.get {} (gangNumber s.nextCrew i))) ∧
      ∀ k, (∀ i, i < l.r.gangs → k ≠ gangNumber s.nextCrew i) → m.get {} k = s.gangs.get {} k := by
  obtain ⟨⟨core, base⟩, hcore, rfl⟩ := Option.map_eq_some_iff.1 h
  have distinct : ((List.range l.r.gangs).map (gangNumber s.nextCrew)).Nodup :=
    List.nodup_range.map fun a b hab => by unfold gangNumber at hab; omega
  obtain ⟨m, n, hm, entered, others⟩ := State.enter_all
    (f := fun (s' : State) i => s'.enterSlot core (l.newGang s.nextCrew i)) (p := fun i => (l.newGang s.nextCrew i).EnteredAs)
    (fun s' i => by
      obtain ⟨k, hk, step⟩ := s'.enterSlot_eq core (l.newGang s.nextCrew i)
      exact ⟨k, s'.freeCtr, hk, step⟩) (List.range l.r.gangs)
    { s with crews := Sparse.put {} s.crews s.nextCrew (newCrew s.nextCrew l j core base), nextCrew := s.nextCrew + 1 }
  obtain ⟨y, hy⟩ := State.prepareCore_sys
    { s with crews := Sparse.put {} s.crews s.nextCrew (newCrew s.nextCrew l j core base), nextCrew := s.nextCrew + 1,
             gangs := m, freeCtr := n } (newCrew s.nextCrew l j core base)
  refine ⟨core, base, y.updCore core fun k => { k with ibuf := [] }, m, n, State.coreFor_cluster hcore, ?_,
    fun i hi => entered distinct i (List.mem_range.2 hi), fun k hk => others k ?_⟩
  · show State.emptyBuffer (State.prepareCore (List.foldl _ _ _) _) _ = _
    unfold Launch.newGang at hm
    rw [hm, hy]
    rfl
  · rintro mem
    obtain ⟨i, hi, rfl⟩ := List.mem_map.1 mem
    exact hk i (List.mem_range.1 hi) rfl

/-- The first `n` crews of a launch's next cohort stand on a cluster. -/
structure State.Placed (s t : State) (l : Launch) (cluster n : Nat) : Prop where
  next : t.nextCrew = s.nextCrew + n
  crew : t.crew = s.crew
  gang : t.gang = s.gang
  launches : t.launches = s.launches
  crews : ∀ j, j < n → ∃ core base, core / 4 = cluster ∧ t.crews.get {} (s.nextCrew + j) = newCrew (s.nextCrew + j) l j core base
  gangs : ∀ j, j < n → ∀ i, i < l.r.gangs →
    (l.newGang (s.nextCrew + j) i).EnteredAs (t.gangs.get {} (gangNumber (s.nextCrew + j) i))

theorem State.placed_of_crews {s t : State} {l : Launch} {cluster n : Nat} (hg : l.r.gangs ≤ 32)
    (h : (List.range n).foldlM (fun (s : State) j => s.placeCrew l cluster j) s = some t) : s.Placed t l cluster n := by
  induction n generalizing t with
  | zero =>
    obtain rfl := Option.some.inj h
    exact ⟨rfl, rfl, rfl, rfl, fun _ hj => absurd hj (Nat.not_lt_zero _), fun _ hj => absurd hj (Nat.not_lt_zero _)⟩
  | succ n ih =>
    rw [List.range_succ, List.foldlM_append] at h
    obtain ⟨u, hu, last⟩ := Option.bind_eq_some_iff.1 h
    obtain ⟨next, crew, gang, launches, crews, gangs⟩ := ih hu
    obtain ⟨v, hv, eq⟩ := Option.bind_eq_some_iff.1 (show (u.placeCrew l cluster n).bind _ = some t from last)
    obtain rfl := Option.some.inj eq
    obtain ⟨core, base, y, m, k, hcore, rfl, entered, others⟩ := State.placeCrew_some hv
    rw [next] at entered others
    refine ⟨by dsimp only; omega, crew, gang, launches, fun j hj => ?_, fun j hj i hi => ?_⟩
    · dsimp only
      by_cases hjn : j = n
      · subst hjn
        exact ⟨core, base, hcore, by rw [next, Sparse.get_put_same]⟩
      · obtain ⟨core', base', hcore', hget⟩ := crews j (by omega)
        exact ⟨core', base', hcore', by rw [Sparse.get_put_other _ _ _ _ _ (by omega), hget]⟩
    · dsimp only
      by_cases hjn : j = n
      · subst hjn
        exact entered i hi
      · rw [others _ fun i' hi' same => hjn ?_]
        · exact gangs j (by omega) i hi
        · have := (gangNumber_inj (by omega) (by omega) same).1
          omega

/-- A cohort that finds its place stands on a cluster of its launch (R329). -/
theorem State.placed_of_cohort {s t : State} {l : Launch} (hg : l.r.gangs ≤ 32) (h : s.placeCohort l = some t) :
    ∃ cluster, l.r.clmask.getLsbD cluster = true ∧ s.Placed t l cluster l.r.crews := by
  unfold State.placeCohort at h
  split at h
  · cases h
  · obtain ⟨cluster, hc, placed⟩ := List.mem_filterMap.1 (List.mem_of_mem_head? h)
    exact ⟨cluster, ((mem_bitList ..).1 hc).2, State.placed_of_crews hg placed⟩

/-- The launch that is served next, and the state with its cohort. -/
theorem State.nextPlacement_some {s t : State} {l : Launch} (h : s.nextPlacement = some (l, t)) : s.placeCohort l = some t := by
  obtain ⟨k, -, hk⟩ := List.mem_filterMap.1 (List.mem_of_mem_head? h)
  obtain ⟨u, hu, eq⟩ := Option.map_eq_some_iff.1 hk
  obtain ⟨rfl, rfl⟩ := Prod.mk.inj eq
  exact hu

/-! ### The first state of crews and gangs (R75, R309, R330) -/

theorem newCrew_barrier (id : Nat) (l : Launch) (j core base : Nat) {b : Nat} (hb : b < l.r.nbar) :
    (newCrew id l j core base).barriers.get {} b = ⟨l.r.gangs, 0, false⟩ := by
  show Sparse.get ({} : Barrier) (List.foldl _ _ _) b = _
  rw [Sparse.get_foldl_put, if_pos (List.mem_range.2 hb)]

theorem newGang_strand (crew i strands : Nat) (entry : Dword) (priv : Bool) {k : Nat} (hk : k < 32) :
    (newGang crew i strands entry priv).strand k = if 32 * i + k < strands then { pc := entry, age := 0, st := .ready } else {} := by
  show Sparse.get ({} : Strand) (List.foldl _ _ _) k = _
  rw [Sparse.get_foldl_put]
  simp [hk, Sparse.get]

theorem newGang_rnd (crew i strands : Nat) (entry : Dword) (priv : Bool) {k : Nat} (hk : k < 32) :
    (newGang crew i strands entry priv).rnd.get 0 k = 0x9E3779B9 ^^^ BitVec.ofNat 32 (32 * i + k) := by
  show Sparse.get (0 : Word) (List.foldl _ _ _) k = _
  rw [Sparse.get_foldl_put, if_pos (List.mem_range.2 hk)]
  rfl

end Sys2Proof.Machine
end

section
/-! SUPPORT. COHORT_PLACEMENT (R75, R309, R327-R330): what a placed cohort is, and that the one waiting cohort of a free cluster is
placed. -/

namespace Sys2Proof.Machine

/-! ### What a placed cohort is -/

/-- The crews and gangs of a cohort as they stand after their placement. -/
theorem State.Placed.crew_eq {s t : State} {l : Launch} {cluster n : Nat} (h : s.Placed t l cluster n) (hs : s.crew.id < s.nextCrew)
    {j : Nat} (hj : j < n) :
    ∃ core base, core / 4 = cluster ∧ t.findCrew (s.nextCrew + j) = newCrew (s.nextCrew + j) l j core base := by
  obtain ⟨core, base, hcore, get⟩ := h.crews j hj
  refine ⟨core, base, hcore, ?_⟩
  rw [State.findCrew, h.crew, if_neg (by omega), get]

theorem State.Placed.gang_eq {s t : State} {l : Launch} {cluster n : Nat} (h : s.Placed t l cluster n)
    (hs : s.gang.id < s.nextCrew * 1056) {j i : Nat} (hj : j < n) (hi : i < l.r.gangs) :
    (l.newGang (s.nextCrew + j) i).EnteredAs (t.findGang (((s.nextCrew + j) * 32 + i) * 33)) := by
  rw [State.findGang, h.gang, if_neg (by omega)]
  exact h.gangs j hj i hi

theorem exec_cohortPlacement (lid : Nat) (s : State) : exec (.cohortPlacement lid) s = .next (match s.nextPlacement with
    | some (l, t) => if l.lid = lid then t.updLaunch lid Launch.placedOne else s
    | none => s) := rfl

theorem State.exec_cohortPlacement_some {s t : State} {l : Launch} (h : s.nextPlacement = some (l, t)) :
    exec (.cohortPlacement l.lid) s = .next (t.updLaunch l.lid Launch.placedOne) := by
  rw [exec_cohortPlacement, h]
  dsimp only
  rw [if_pos rfl]

theorem cohortPlaced (lid : Nat) (s : State) (l : Launch) (t0 : State) (hn : s.nextPlacement = some (l, t0)) (hl : l.lid = lid)
    (hg : l.r.gangs ≤ 32) (hc : s.crew.id < s.nextCrew) (hi : s.gang.id < s.nextCrew * 1056) :
    ∃ t, exec (.cohortPlacement lid) s = .next t ∧
        t.launches = s.launches.map (fun k => if k.lid = lid then k.placedOne else k) ∧
        ∃ cluster, l.r.clmask.getLsbD cluster = true ∧ ∀ j, j < l.r.crews →
          let c := t.findCrew (s.nextCrew + j)
          c.id = s.nextCrew + j ∧ c.core / 4 = cluster ∧ c.lid = lid ∧ c.idx = j ∧ c.cohort = l.placed ∧
          c.number = l.placed * l.r.crews + j ∧ c.asid = l.r.asid ∧ c.scratch = [] ∧ c.ended = .running ∧
          c.priv = l.r.priv ∧ c.ejectMax = 4 ∧ c.rejoinWait = 4096 ∧ c.ageMax = 64 ∧ c.qwaitMax = 65536 ∧
          (∀ b, b < l.r.nbar → c.barriers.get {} b = ⟨l.r.gangs, 0, false⟩) ∧
          ∀ i, i < l.r.gangs →
            let g := t.findGang (((s.nextCrew + j) * 32 + i) * 33)
            g.crewId = c.id ∧ g.idx = i ∧ g.priv = l.r.priv ∧ g.handler = none ∧ g.hold = none ∧ g.fpstat = 0 ∧ g.v = [] ∧
            g.s = [] ∧ g.p = [] ∧ g.urnd = 0x9E3779B9 ^^^ BitVec.ofNat 32 (0x400 + i) ∧
            ∀ k, k < 32 → g.rnd.get 0 k = 0x9E3779B9 ^^^ BitVec.ofNat 32 (32 * i + k) ∧
              g.strand k = if 32 * i + k < l.r.strands then { pc := l.r.entry, age := 0, st := .ready } else {} := by
  subst hl
  obtain ⟨cluster, mask, placed⟩ := State.placed_of_cohort hg (State.nextPlacement_some hn)
  refine ⟨_, State.exec_cohortPlacement_some hn, congrArg _ placed.launches, cluster, mask, fun j hj => ?_⟩
  obtain ⟨core, base, hcore, crew⟩ := placed.crew_eq hc hj
  have gang := fun i (h : i < l.r.gangs) => placed.gang_eq hi hj h
  rw [show (t0.updLaunch l.lid Launch.placedOne).findCrew (s.nextCrew + j) = _ from crew]
  refine ⟨rfl, hcore, rfl, rfl, rfl, rfl, rfl, rfl, rfl, rfl, rfl, rfl, rfl, rfl, fun b hb => newCrew_barrier _ _ _ _ _ hb, fun i h => ?_⟩
  obtain ⟨slot, arrival, active, left, eq⟩ := gang i h
  rw [show (t0.updLaunch l.lid Launch.placedOne).findGang (((s.nextCrew + j) * 32 + i) * 33) = _ from eq]
  exact ⟨rfl, rfl, rfl, rfl, rfl, rfl, rfl, rfl, rfl, rfl, fun k hk => 
    ⟨newGang_rnd (s.nextCrew + j) i l.r.strands l.r.entry l.r.priv hk, newGang_strand (s.nextCrew + j) i l.r.strands l.r.entry l.r.priv hk⟩⟩

/-- The event of a launch that is not the next changes nothing (log 32). -/
theorem State.exec_cohortPlacement_other {lid : Nat} {s : State} (h : ∀ l t0, s.nextPlacement = some (l, t0) → l.lid ≠ lid) :
    exec (.cohortPlacement lid) s = .next s := by
  rw [exec_cohortPlacement]
  split
  · next l t hn => rw [if_neg (h l t hn)]
  · rfl

/-! ### The one waiting cohort of a launch -/

/-- The only launch waits for the place of a cohort. -/
structure State.Waits (s : State) (l : Launch) : Prop where
  only : s.launches = [l]
  more : l.placed < l.r.cohorts
  cls : l.effCls ≤ 3

theorem ordered_singleton (q : Nat) : ordered [q] = [q] := rfl

/-- The launches of one class, the oldest first. -/
def ofClass (l : List Launch) (c : Nat) : List Launch :=
  (ordered ((l.filter fun l => l.effCls = c).map fun l => l.seq)).filterMap fun q => (l.filter fun l => l.effCls = c).find? fun l => l.seq = q

theorem State.waitingLaunches_eq (s : State) :
    s.waitingLaunches = [3, 2, 1, 0].flatMap (ofClass (s.launches.filter fun l => l.placed < l.r.cohorts)) := rfl

theorem ofClass_singleton (l : Launch) (c : Nat) : ofClass [l] c = if l.effCls = c then [l] else [] := by
  by_cases h : l.effCls = c
  · simp [ofClass, h, ordered_singleton]
  · simp [ofClass, h, ordered, distinct]

theorem State.Waits.waiting {s : State} {l : Launch} (h : s.Waits l) : s.waitingLaunches = [l] := by
  obtain ⟨only, more, cls⟩ := h
  have hc : l.effCls = 0 ∨ l.effCls = 1 ∨ l.effCls = 2 ∨ l.effCls = 3 := by omega
  rw [State.waitingLaunches_eq, only, show [l].filter (fun l => l.placed < l.r.cohorts) = [l] by simp [more]]
  simp only [List.flatMap_cons, List.flatMap_nil, ofClass_singleton]
  rcases hc with h | h | h | h <;> simp [h]

/-- A cohort of one crew is placed with it. -/
theorem State.placeOn_one (s : State) {l : Launch} (hr : l.r.crews = 1) (cluster : Nat) : s.placeOn l cluster = s.placeCrew l cluster 0 := by
  rw [State.placeOn, hr, List.range_one, List.foldlM_cons]
  simp only [List.foldlM_nil]
  exact bind_pure _

/-- A launch of one crew whose cluster has a core with room: its cohort is placed. -/
theorem State.placeCohort_isSome {s : State} {l : Launch} {k j : Nat} (hr : l.r.crews = 1) (hctx : (s.sys.ctx l.r.asid).isSome = true)
    (hk : l.r.clmask.getLsbD k = true) (hk48 : k < 48) (hj : j < 4) {base : Nat} (fits : s.fits (4 * k + j) l.r.need = some base) :
    (s.placeCohort l).isSome = true := by
  have room : s.coreFor k 0 l.r.need ≠ none := fun h => by
    have := State.coreFor_eq_none.1 h j hj
    rw [show k * 4 + (0 + j) % 4 = 4 * k + j by omega, fits] at this
    cases this
  obtain ⟨p, hp⟩ := Option.ne_none_iff_exists'.1 room
  obtain ⟨t, ht⟩ : ∃ t, s.placeOn l k = some t := ⟨_, by rw [s.placeOn_one hr, State.placeCrew, hp]; rfl⟩
  unfold State.placeCohort
  rw [if_neg (by simpa [Option.isSome_iff_ne_none] using hctx), Option.isSome_iff_ne_none, Ne, List.head?_eq_none_iff]
  exact List.ne_nil_of_mem (List.mem_filterMap.2 ⟨k, (mem_bitList ..).2 ⟨hk48, hk⟩, ht⟩)

/-- The cohort of the only launch is the next one placed. -/
theorem State.Waits.next {s : State} {l : Launch} (h : s.Waits l) (hp : (s.placeCohort l).isSome = true) :
    ∃ t, s.placeCohort l = some t ∧ s.nextPlacement = some (l, t) := by
  obtain ⟨t, ht⟩ := Option.isSome_iff_exists.1 hp
  refine ⟨t, ht, ?_⟩
  simp [State.nextPlacement, h.waiting, ht]

/-- It is placed where a core of its clusters is free (R329). -/
theorem State.Waits.placed {s : State} {l : Launch} {k : Nat} (h : s.Waits l) (hr : l.r.crews = 1)
    (hctx : (s.sys.ctx l.r.asid).isSome = true) (hk : l.r.clmask.getLsbD k = true) (hk48 : k < 48) (hn : l.r.need.Modest)
    (free : ∀ c ∈ s.allCrews, c.core ≠ 4 * k) : ∃ t, exec (.cohortPlacement l.lid) s = .next t ∧ t.launches = [l.placedOne] := by
  have none : s.crewsOn (4 * k) = [] := List.filter_eq_nil_iff.2 fun c hc => by simpa using free c hc
  obtain ⟨t, ht, next⟩ := h.next (State.placeCohort_isSome hr hctx hk hk48 (j := 0) (by decide) (State.fits_of_empty hn none))
  obtain ⟨_, -, placed⟩ := State.placed_of_cohort hn.gangs ht
  refine ⟨_, State.exec_cohortPlacement_some next, ?_⟩
  show t.launches.map _ = _
  rw [placed.launches, h.only]
  simp

end Sys2Proof.Machine
end

section
/-! SUPPORT. Resumption (R339): a pre-empted crew on its new core, its gangs with their carried registers. -/

namespace Sys2Proof

/-- A table of the values that are not the default. -/
theorem Sparse.get_filterMap {α : Type} [DecidableEq α] (d : α) (f : Nat → α) (l : List Nat) (k : Nat) :
    Sparse.get d (l.filterMap fun i => if f i = d then none else some (i, f i)) k = if k ∈ l then f k else d := by
  induction l with
  | nil => rfl
  | cons i l ih =>
    by_cases hi : f i = d
    · rw [List.filterMap_cons_none (by simp [hi]), ih]
      by_cases hk : k = i
      · subst hk; simp [hi]
      · simp [hk]
    · rw [List.filterMap_cons_some (b := (i, f i)) (by simp [hi]), Sparse.get, ih]
      by_cases hk : i = k
      · subst hk; simp
      · simp [hk, Ne.symm hk]

end Sys2Proof

namespace Sys2Proof.Machine

theorem openVregs_carried {ctr n : Nat} {c : Crew} {v : Sparse Word} (hn : n < 4096) (h : c.carryV.getLsbD (n % 128) = true) :
    (openVregs ctr c v).get 0 n = v.get 0 n := by
  have := Sparse.get_filterMap (0 : Word) (fun k => if c.carryV.getLsbD (k % 128) then v.get 0 k
      else if k % 128 < c.vregs then (Config.freeValue (ctr + k)).setWidth 32 else 0) (List.range 4096) n
  rw [if_pos (List.mem_range.2 hn), if_pos h] at this
  exact this

theorem openSregs_carried {ctr n : Nat} {c : Crew} {m : Sparse Dword} (hn : n < 64) (h : c.carryS.getLsbD n = true) :
    (openSregs ctr c m).get 0 n = m.get 0 n := by
  have := Sparse.get_filterMap (0 : Dword) (fun k => if c.carryS.getLsbD k then m.get 0 k else Config.freeValue (ctr + 4096 + k))
    (List.range 64) n
  rw [if_pos (List.mem_range.2 hn), if_pos h] at this
  exact this

/-- A gang of a crew with its registers outside the carry set open. -/
def Gang.reopened (g : Gang) (c : Crew) (ctr : Nat) : Gang :=
  { g with v := openVregs ctr c g.v, s := openSregs ctr c g.s, p := openPreds ctr }

theorem State.reenter_eq (s : State) (core : Nat) (c : Crew) (g : Gang) :
    ∃ k n, (∃ ctr, (g.reopened c ctr).EnteredAs k) ∧
      s.reenter core c g = { s with gangs := Sparse.put {} s.gangs g.id k, freeCtr := n } :=
  ⟨_, _, ⟨s.freeCtr, _, _, _, _, rfl⟩, rfl⟩

theorem exec_crewResume (crew : Nat) (s : State) : exec (.crewResume crew) s = execCrewResume crew s := rfl

section
variable {crew : Nat} {s : State} {p : SavedCrew} (hp : (s.saved.find? fun p => p.crew.id = crew && p.crew.ended = .running) = some p)
include hp

/-- Nothing happens while no core of its cluster has room (R339). -/
theorem State.exec_crewResume_none (h : s.coreFor (p.crew.core / 4) p.crew.idx p.crew.need = none) :
    exec (.crewResume crew) s = .next s := by
  rw [exec_crewResume, execCrewResume, hp]
  dsimp only
  rw [h]

/-- The crew stands on the core found, and its gangs have entered their slots there (R339). -/
theorem State.exec_crewResume_some {core base : Nat} (h : s.coreFor (p.crew.core / 4) p.crew.idx p.crew.need = some (core, base))
    (focus : s.crew.id ≠ crew) (others : ∀ g ∈ p.gangs, g.id ≠ s.gang.id) :
    ∃ t, exec (.crewResume crew) s = .next t ∧ t.findCrew crew = { p.crew with core := core, scratchBase := base } ∧
      (∀ q ∈ t.saved, q.crew.id ≠ crew) ∧ ((p.gangs.map fun g => g.id).Nodup → ∀ g ∈ p.gangs,
        ∃ ctr, (g.reopened { p.crew with core := core, scratchBase := base } ctr).EnteredAs (t.findGang g.id)) := by
  rw [exec_crewResume, execCrewResume, hp]
  dsimp only
  rw [h]
  dsimp only
  obtain ⟨m, n, gangs, entered, -⟩ := State.enter_all
    (f := fun (s : State) g => s.reenter core { p.crew with core := core, scratchBase := base } g) (id := fun g : Gang => g.id)
    (fun s g => s.reenter_eq core { p.crew with core := core, scratchBase := base } g) p.gangs
    { s with saved := s.saved.filter fun q => q.crew.id ≠ crew,
             crews := Sparse.put {} s.crews crew { p.crew with core := core, scratchBase := base } }
  rw [gangs]
  obtain ⟨y, hy⟩ := State.prepareCore_sys
    { s with saved := s.saved.filter fun q => q.crew.id ≠ crew,
             crews := Sparse.put {} s.crews crew { p.crew with core := core, scratchBase := base },
             gangs := m, freeCtr := n } { p.crew with core := core, scratchBase := base }
  refine ⟨_, rfl, ?_, ?_, fun hl g hg => ?_⟩
  · rw [hy, State.findCrew, if_neg focus, Sparse.get_put_same]
  · rw [hy]
    exact fun q hq => of_decide_eq_true (List.mem_filter.1 hq).2
  · obtain ⟨ctr, k⟩ := entered hl g hg
    refine ⟨ctr, ?_⟩
    rw [hy, State.findGang, if_neg (Ne.symm (others g hg))]
    exact k

end

/-- A pre-empted crew whose cluster is free comes back to its first core there (R339). -/
theorem State.coreFor_free {s : State} {cluster j : Nat} {n : CrewNeed} (hn : n.Modest)
    (free : ∀ c ∈ s.allCrews, c.core / 4 ≠ cluster) : s.coreFor cluster j n = some (cluster * 4 + j % 4, 0) := by
  refine State.coreFor_first (State.fits_of_empty hn (List.filter_eq_nil_iff.2 fun c hc => ?_))
  have := free c hc
  rw [decide_eq_true_eq]
  omega

theorem crewResumed (crew : Nat) (s : State) (p : SavedCrew) (core base : Nat)
    (hp : (s.saved.find? fun p => p.crew.id = crew && p.crew.ended = .running) = some p) :
    (s.coreFor (p.crew.core / 4) p.crew.idx p.crew.need = none → exec (.crewResume crew) s = .next s) ∧
    (s.coreFor (p.crew.core / 4) p.crew.idx p.crew.need = some (core, base) → crew ≠ 0 → s.crew.id ≠ crew →
      (∀ g ∈ p.gangs, g.id ≠ s.gang.id ∧ g.id ≠ 0) → (p.gangs.map fun g => g.id).Nodup →
      ∃ t, exec (.crewResume crew) s = .next t ∧ t.findCrew crew = { p.crew with core := core, scratchBase := base } ∧
        (∀ q ∈ t.saved, q.crew.id ≠ crew) ∧ ∀ g ∈ p.gangs,
          let k := t.findGang g.id
          k.strands = g.strands ∧ k.rnd = g.rnd ∧ k.urnd = g.urnd ∧ k.g = g.g ∧ k.fpstat = g.fpstat ∧ k.smask = g.smask ∧
          k.hold = g.hold ∧ k.stags = g.stags ∧
          (∀ n, n < 4096 → p.crew.carryV.getLsbD (n % 128) = true → k.v.get 0 n = g.v.get 0 n) ∧
          ∀ n, n < 64 → p.crew.carryS.getLsbD n = true → k.s.get 0 n = g.s.get 0 n) := by
  refine ⟨State.exec_crewResume_none hp, fun room _ focus others distinct => ?_⟩
  obtain ⟨t, run, crewIs, saved, gangs⟩ := State.exec_crewResume_some hp room focus fun g hg => (others g hg).1
  refine ⟨t, run, crewIs, saved, fun g hg => ?_⟩
  obtain ⟨ctr, slot, arrival, active, left, eq⟩ := gangs distinct g hg
  rw [eq]
  dsimp only [Gang.entered, Gang.reopened]
  exact ⟨rfl, rfl, rfl, rfl, rfl, rfl, rfl, rfl,
    fun n hn carried => by rw [openVregs_carried (c := { p.crew with core := core, scratchBase := base }) hn carried],
    fun n hn carried => by rw [openSregs_carried (c := { p.crew with core := core, scratchBase := base }) hn carried]⟩

end Sys2Proof.Machine
end

section
/-! SUPPORT. Pre-emption (R337, R338, R340): who may go, what a crew leaves behind, and the room it makes. -/

namespace Sys2Proof

theorem Sparse.insert_perm {α : Type} (m : Sparse α) (k : Nat) (v : α) : List.Perm (Sparse.insert m k v) ((k, v) :: m) := by
  induction m with
  | nil => exact .refl _
  | cons e m ih =>
    obtain ⟨a, w⟩ := e
    unfold Sparse.insert
    split
    · exact .refl _
    · exact (ih.cons _).trans (.swap ..)

/-- A table without the keys that a test refuses. -/
theorem Sparse.get_filter {α : Type} (d : α) (p : Nat → Bool) (m : Sparse α) {k : Nat} (hk : p k = true) :
    Sparse.get d (m.filter fun e => p e.1) k = Sparse.get d m k := by
  induction m with
  | nil => rfl
  | cons e m ih =>
    obtain ⟨a, v⟩ := e
    by_cases ha : a = k
    · subst ha
      simp [hk, Sparse.get]
    · by_cases hp : p a = true
      · simp [hp, Sparse.get, ha, ih]
      · simp [hp, Sparse.get, ha, ih]

end Sys2Proof

namespace Sys2Proof.Machine

theorem filterMap_eq_singleton {α β : Type} {f : α → Option β} {l : List α} {c : α} {y : β} (hl : l.Nodup) (hc : c ∈ l)
    (hy : f c = some y) (others : ∀ d ∈ l, d ≠ c → f d = none) : l.filterMap f = [y] := by
  induction l with
  | nil => cases hc
  | cons x l ih =>
    obtain ⟨fresh, rest⟩ := List.nodup_cons.1 hl
    by_cases hx : x = c
    · subst hx
      rw [List.filterMap_cons_some hy, List.filterMap_eq_nil_iff.2 fun d hd =>
        others d (List.mem_cons_of_mem _ hd) fun same => fresh (same ▸ hd)]
    · rw [List.filterMap_cons_none (others x List.mem_cons_self hx)]
      exact ih rest ((List.mem_cons.1 hc).resolve_left (Ne.symm hx)) fun d hd => others d (List.mem_cons_of_mem _ hd)

/-! ### The lists of gangs and of crews -/

theorem State.allGangs_iff (s : State) (g : Gang) : g ∈ s.allGangs ↔ s.gang.id ≠ 0 ∧ g = s.gang ∨ ∃ e ∈ s.gangs, e.2 = g := by
  unfold State.allGangs
  by_cases h : s.gang.id = 0
  · simp [h]
  · simp [h, Sparse.mem_insert, eq_comm]

theorem State.allCrews_iff (s : State) (c : Crew) : c ∈ s.allCrews ↔ s.crew.id ≠ 0 ∧ c = s.crew ∨ ∃ e ∈ s.crews, e.2 = c := by
  unfold State.allCrews
  by_cases h : s.crew.id = 0
  · simp [h]
  · simp [h, Sparse.mem_insert, eq_comm]

/-- No crew is listed twice. -/
theorem State.Numbered.allCrews_nodup {s : State} (hs : s.Numbered) : s.allCrews.Nodup := by
  obtain ⟨-, hc, -, -, -, crews, rising⟩ := hs
  have keys : ((Sparse.insert s.crews s.crew.id s.crew).map Prod.fst).Nodup := by
    rw [((Sparse.insert_perm s.crews s.crew.id s.crew).map Prod.fst).nodup_iff, List.map_cons, List.nodup_cons]
    refine ⟨fun mem => ?_, rising.imp Nat.ne_of_lt⟩
    obtain ⟨e, he, same⟩ := List.mem_map.1 mem
    exact (crews e he).2.1 same
  have ids : s.allCrews.map (fun c => c.id) = (Sparse.insert s.crews s.crew.id s.crew).map Prod.fst := by
    rw [State.allCrews, if_neg hc, List.map_map]
    refine List.map_congr_left fun e he => ?_
    rcases (Sparse.mem_insert ..).1 he with rfl | he
    · rfl
    · exact (crews e he).1
  exact List.Nodup.of_map (fun c => c.id) (ids ▸ keys)

theorem State.Numbered.crew_id {s : State} (hs : s.Numbered) {c : Crew} (h : c ∈ s.allCrews) : c.id ≠ 0 := by
  obtain ⟨-, hc, -, -, -, crews, -⟩ := hs
  rcases (s.allCrews_iff c).1 h with ⟨-, rfl⟩ | ⟨e, he, rfl⟩
  · exact hc
  · rw [(crews e he).1]
    exact (crews e he).2.2

/-! ### Gangs that leave -/

/-- The gangs of the table stand under their own numbers, that of the gang in focus apart. -/
def State.OwnKeys (s : State) : Prop := ∀ e ∈ s.gangs, e.2.id = e.1 ∧ e.1 ≠ s.gang.id ∧ e.1 ≠ 0

theorem State.Numbered.ownKeys {s : State} (hs : s.Numbered) : s.OwnKeys := by
  obtain ⟨-, -, -, gangs, -⟩ := hs
  exact gangs

theorem State.OwnKeys.removeGang {s : State} (hs : s.OwnKeys) (id : Nat) :
    (s.removeGang id).OwnKeys ∧ ∀ g ∈ (s.removeGang id).allGangs, g ∈ s.allGangs ∧ g.id ≠ id := by
  unfold State.removeGang
  by_cases focus : s.gang.id = id
  · rw [if_pos focus]
    refine ⟨fun e he => ⟨(hs e he).1, (hs e he).2.2, (hs e he).2.2⟩, fun g hg => ?_⟩
    rcases (State.allGangs_iff _ g).1 hg with ⟨absent, -⟩ | ⟨e, he, rfl⟩
    · exact absurd rfl absent
    · exact ⟨(s.allGangs_iff _).2 (.inr ⟨e, he, rfl⟩), by rw [(hs e he).1, ← focus]; exact (hs e he).2.1⟩
  · rw [if_neg focus]
    refine ⟨fun e he => hs e ((Sparse.mem_drop ..).1 he).1, fun g hg => ?_⟩
    rcases (State.allGangs_iff _ g).1 hg with ⟨present, rfl⟩ | ⟨e, he, rfl⟩
    · exact ⟨(s.allGangs_iff _).2 (.inl ⟨present, rfl⟩), focus⟩
    · obtain ⟨mem, key⟩ := (Sparse.mem_drop ..).1 he
      exact ⟨(s.allGangs_iff _).2 (.inr ⟨e, mem, rfl⟩), by rw [(hs e mem).1]; exact key⟩

theorem State.removeGang_gangsOnly (s : State) (id : Nat) : s.GangsOnly (s.removeGang id) := by
  unfold State.removeGang State.GangsOnly
  split <;> rfl

theorem State.removeGangs_gangsOnly (s : State) (l : List Gang) :
    s.GangsOnly (l.foldl (fun (s : State) g => s.removeGang g.id) s) := by
  induction l generalizing s with
  | nil => exact .refl s
  | cons x l ih => exact (s.removeGang_gangsOnly x.id).trans (ih _)

theorem State.OwnKeys.removeGangs {s : State} (hs : s.OwnKeys) (l : List Gang) :
    ∀ g ∈ (l.foldl (fun (s : State) g => s.removeGang g.id) s).allGangs, g ∈ s.allGangs ∧ ∀ x ∈ l, g.id ≠ x.id := by
  induction l generalizing s with
  | nil => exact fun g hg => ⟨hg, by simp⟩
  | cons x l ih =>
    intro g hg
    obtain ⟨mem, others⟩ := ih (hs.removeGang x.id).1 g hg
    obtain ⟨mem, own⟩ := (hs.removeGang x.id).2 g mem
    exact ⟨mem, List.forall_mem_cons.2 ⟨own, others⟩⟩

/-- An update of a gang that keeps its crew brings no gang of another crew. -/
theorem State.crewId_updGang {s : State} {id : Nat} {f : Gang → Gang} (hf : keepsId f) (hc : ∀ g, (f g).crewId = g.crewId) {g : Gang}
    (hg : g ∈ (s.updGang id f).allGangs) : ∃ k ∈ s.allGangs, k.crewId = g.crewId := by
  unfold State.updGang at hg
  split at hg
  · rcases (State.allGangs_iff _ g).1 hg with ⟨present, rfl⟩ | ⟨e, he, rfl⟩
    · exact ⟨s.gang, (s.allGangs_iff _).2 (.inl ⟨by rw [← hf s.gang]; exact present, rfl⟩), (hc _).symm⟩
    · exact ⟨e.2, (s.allGangs_iff _).2 (.inr ⟨e, he, rfl⟩), rfl⟩
  · split at hg
    · exact ⟨g, hg, rfl⟩
    · next resident =>
      rcases (State.allGangs_iff _ g).1 hg with ⟨present, rfl⟩ | ⟨e, he, rfl⟩
      · exact ⟨s.gang, (s.allGangs_iff _).2 (.inl ⟨present, rfl⟩), rfl⟩
      · rcases Sparse.mem_put he with rfl | he
        · rcases Sparse.get_eq_or_mem {} s.gangs id with none | mem
          · exact absurd (congrArg Gang.id none) resident
          · exact ⟨_, (s.allGangs_iff _).2 (.inr ⟨_, mem, rfl⟩), (hc _).symm⟩
        · exact ⟨e.2, (s.allGangs_iff _).2 (.inr ⟨e, he, rfl⟩), rfl⟩

theorem State.crewId_promote {s : State} {core slot n : Nat} {g : Gang} (hg : g ∈ (s.promote core slot n).allGangs) :
    ∃ k ∈ s.allGangs, k.crewId = g.crewId := by
  induction n generalizing s with
  | zero => exact ⟨g, hg, rfl⟩
  | succ n ih =>
    unfold State.promote at hg
    dsimp only at hg
    split at hg
    · split at hg
      · exact ⟨g, hg, rfl⟩
      · next x _ =>
        obtain ⟨k, hk, same⟩ := ih hg
        obtain ⟨j, hj, same'⟩ := State.crewId_updGang (f := fun g => { g with active := true }) (fun _ => rfl) (fun _ => rfl) hk
        exact ⟨j, hj, same'.trans same⟩
    · exact ⟨g, hg, rfl⟩

/-! ### A crew leaves its core (R338) -/

/-- The slots of a core fill their active sets. -/
def State.promotes (s : State) (core : Nat) (slots : List Nat) : State :=
  slots.foldl (fun (s : State) i => s.promote core i Config.activePerSlot) s

theorem State.promotes_gangsOnly (s : State) (core : Nat) (slots : List Nat) : s.GangsOnly (s.promotes core slots) := by
  unfold State.promotes
  induction slots generalizing s with
  | nil => exact .refl s
  | cons i slots ih => exact (s.promote_gangsOnly core i _).trans (ih _)

theorem State.crewId_promotes {s : State} {core : Nat} {slots : List Nat} {g : Gang} (hg : g ∈ (s.promotes core slots).allGangs) :
    ∃ k ∈ s.allGangs, k.crewId = g.crewId := by
  unfold State.promotes at hg
  induction slots generalizing s with
  | nil => exact ⟨g, hg, rfl⟩
  | cons i slots ih =>
    obtain ⟨k, hk, same⟩ := ih hg
    obtain ⟨j, hj, same'⟩ := State.crewId_promote hk
    exact ⟨j, hj, same'.trans same⟩

/-- The gangs of a crew and the crew itself leave. -/
def State.leavesCore (s : State) (c : Crew) : State :=
  ((s.gangsOf c.id).foldl (fun (s : State) g => s.removeGang g.id) s).removeCrew c.id

theorem State.vacate_eq (s : State) (c : Crew) : ∃ slots, s.vacate c = ((s.freeCore c).leavesCore c).promotes c.core slots := ⟨_, rfl⟩

theorem State.removeCrew_gangs (s : State) (id : Nat) : (s.removeCrew id).allGangs = s.allGangs := by
  unfold State.removeCrew
  split <;> rfl

/-- No gang of a crew that left stays. -/
theorem State.vacate_gangs {s : State} (hs : s.OwnKeys) (c : Crew) : ∀ g ∈ (s.vacate c).allGangs, g.crewId ≠ c.id := by
  intro g hg own
  obtain ⟨slots, eq⟩ := s.vacate_eq c
  rw [eq] at hg
  obtain ⟨k, hk, same⟩ := State.crewId_promotes hg
  rw [State.leavesCore, State.removeCrew_gangs] at hk
  have keys : (s.freeCore c).OwnKeys := hs
  obtain ⟨mem, gone⟩ := keys.removeGangs _ k hk
  exact gone k (List.mem_filter.2 ⟨mem, decide_eq_true (same.trans own)⟩) rfl

/-- What leaving changes besides: the crew is gone, and nothing else of what the crews, the saved crews and the contexts are. -/
theorem State.vacate_frame (s : State) (c : Crew) : (s.vacate c).crew = (s.removeCrew c.id).crew ∧
    (s.vacate c).crews = (s.removeCrew c.id).crews ∧ (s.vacate c).sys.ctxs = s.sys.ctxs := by
  obtain ⟨slots, eq⟩ := s.vacate_eq c
  have promoted := ((s.freeCore c).leavesCore c).promotes_gangsOnly c.core slots
  have removed := (s.freeCore c).removeGangs_gangsOnly ((s.freeCore c).gangsOf c.id)
  rw [eq, promoted, State.leavesCore]
  generalize ((s.freeCore c).gangsOf c.id).foldl (fun (s : State) g => s.removeGang g.id) (s.freeCore c) = u at removed
  rw [removed]
  unfold State.removeCrew State.freeCore
  dsimp only
  split <;> exact ⟨rfl, rfl, rfl⟩

end Sys2Proof.Machine
end

section
/-! CLAIM O46. Classes, placement, pre-emption and resumption (R334-R340): the room a victim makes, and the settled statement. -/

namespace Sys2Proof.Machine

/-! ### What a pre-empted crew leaves behind (R338) -/

/-- A gone crew is not found, and every crew there was there before. -/
theorem State.SamePlaces.gone {s t : State} (hs : s.Numbered) (hid : t.crew.id = s.crew.id) (h : s.SamePlaces t) {c : Nat} (h0 : c ≠ 0) :
    ((t.removeCrew c).findCrew c).id ≠ c ∧ ∀ d ∈ (t.removeCrew c).allCrews, ∃ e ∈ s.allCrews, e.id ≠ c ∧ e.core = d.core := by
  obtain ⟨-, present, -, -, -, crews, -⟩ := hs
  have other : ∀ e ∈ t.crews, e.1 ≠ s.crew.id ∧ (e.1 ≠ c → ∃ d ∈ s.allCrews, d.id ≠ c ∧ d.core = e.2.core) := fun e he => by
    obtain ⟨d, hd, key, core⟩ := h.others e he
    obtain ⟨own, apart, -⟩ := crews d hd
    exact ⟨key ▸ apart, fun hc => ⟨d.2, (s.allCrews_iff _).2 (.inr ⟨d, hd, rfl⟩), by rw [own, key]; exact hc, core⟩⟩
  unfold State.removeCrew
  by_cases focus : t.crew.id = c
  · rw [if_pos focus]
    refine ⟨?_, fun d hd => ?_⟩
    · rw [State.findCrew, if_neg (Ne.symm h0)]
      rcases Sparse.get_eq_or_mem {} t.crews c with none | mem
      · show (t.crews.get {} c).id ≠ c
        rw [none]
        exact Ne.symm h0
      · exact absurd (focus.symm.trans hid) (other _ mem).1
    · rcases (State.allCrews_iff _ d).1 hd with ⟨absent, -⟩ | ⟨e, he, rfl⟩
      · exact absurd rfl absent
      · exact (other e he).2 fun same => (other e he).1 (same.trans (focus.symm.trans hid))
  · rw [if_neg focus]
    refine ⟨?_, fun d hd => ?_⟩
    · rw [State.findCrew, if_neg focus, Sparse.get_drop_same]
      exact Ne.symm h0
    · rcases (State.allCrews_iff _ d).1 hd with ⟨-, rfl⟩ | ⟨e, he, rfl⟩
      · exact ⟨s.crew, (s.allCrews_iff _).2 (.inl ⟨present, rfl⟩), hid ▸ focus, h.focus.symm⟩
      · obtain ⟨mem, key⟩ := (Sparse.mem_drop ..).1 he
        exact (other e mem).2 key

/-- Who writes a pre-empted crew's record. -/
def Crew.recordWho (c : Crew) : Who := { core := c.core, crew := c.id, asid := c.asid, priv := c.priv }

/-- The state with the record of a crew written and released. -/
def State.recorded (s : State) (c : Crew) : State :=
  (s.release c.recordWho 5).openRecord { c.recordWho with engine := true, priv := true }
    (c.crewRec.toNat + c.number * c.recordSize) c.recordSize

/-- A crew as its record holds it. -/
def State.savedCrew (s : State) (c : Crew) : SavedCrew := { crew := c, gangs := (s.gangsOf c.id).map fun g => g.saved c }

theorem State.preempt_eq (s : State) (c : Crew) :
    s.preempt c = { (s.recorded c).vacate c with saved := (s.recorded c).saved ++ [s.savedCrew c] } := rfl

theorem State.wrote_recorded (s : State) (c : Crew) : s.Wrote (s.recorded c) :=
  (s.wrote_release c.recordWho 5).trans (State.wrote_openRecord ..)

theorem State.preempt_saved (s : State) (c : Crew) : (s.preempt c).saved = s.saved ++ [s.savedCrew c] := by
  rw [State.preempt_eq, ← (s.wrote_recorded c).saved]

theorem State.preempt_gangs {s : State} (hs : s.Numbered) (c : Crew) : ∀ g ∈ (s.preempt c).allGangs, g.crewId ≠ c.id := by
  have wrote := s.wrote_recorded c
  have keys : (s.recorded c).OwnKeys := by
    unfold State.OwnKeys
    rw [wrote.gang, wrote.gangs]
    exact hs.ownKeys
  exact State.vacate_gangs keys c

theorem State.preempt_ctx (s : State) (c : Crew) (asid : Asid) : (s.preempt c).sys.ctx asid = s.sys.ctx asid := by
  obtain ⟨-, -, same⟩ := (s.recorded c).vacate_frame c
  have ctxs : (s.preempt c).sys.ctxs = s.sys.ctxs := same.trans (s.wrote_recorded c).ctxs
  rw [Sys.ctx, ctxs, Sys.ctx]

theorem State.preempt_crews {s : State} (hs : s.Numbered) {c : Crew} (h0 : c.id ≠ 0) :
    ((s.preempt c).findCrew c.id).id ≠ c.id ∧ ∀ d ∈ (s.preempt c).allCrews, ∃ e ∈ s.allCrews, e.id ≠ c.id ∧ e.core = d.core := by
  obtain ⟨crew, crews, -⟩ := (s.recorded c).vacate_frame c
  have wrote := s.wrote_recorded c
  have gone := wrote.places.gone hs wrote.crewId h0
  have find : (s.preempt c).findCrew c.id = ((s.recorded c).removeCrew c.id).findCrew c.id := by
    unfold State.findCrew
    rw [← crew, ← crews]
    rfl
  have all : (s.preempt c).allCrews = ((s.recorded c).removeCrew c.id).allCrews := by
    unfold State.allCrews
    rw [← crew, ← crews]
    rfl
  rw [find, all]
  exact gone

/-! ### Who may go (R337, R340) -/

/-- A crew that may be pre-empted for a launch, with since when it is blocked. -/
def State.mayGo (s : State) (l : Launch) (c : Crew) : Option (Nat × Crew) :=
  if c.effCls < l.effCls && l.r.clmask.getLsbD (c.core / 4) then (s.preemptible c).map fun t => (t, c) else none

/-- The victims of one class, the one blocked longest first. -/
def victimsOf (all : List (Nat × Crew)) (k : Nat) : List Crew :=
  (ordered ((all.filter fun e => e.2.effCls = k).map Prod.fst)).flatMap fun t =>
    ((all.filter fun e => e.2.effCls = k).filter fun e => e.1 = t).map Prod.snd

theorem State.victims_eq (s : State) (l : Launch) :
    s.victims l = [0, 1, 2, 3].flatMap (victimsOf (s.allCrews.filterMap (s.mayGo l))) := rfl

theorem victimsOf_singleton (t : Nat) (c : Crew) (k : Nat) : victimsOf [(t, c)] k = if c.effCls = k then [c] else [] := by
  by_cases h : c.effCls = k
  · simp [victimsOf, h, ordered_singleton]
  · simp [victimsOf, h, ordered, distinct]

theorem State.mayGo_some {s : State} {l : Launch} {c : Crew} {e : Nat × Crew} (h : s.mayGo l c = some e) :
    e.2 = c ∧ c.effCls < l.effCls ∧ l.r.clmask.getLsbD (c.core / 4) = true ∧ s.preemptible c = some e.1 := by
  unfold State.mayGo at h
  split at h
  · next may =>
    obtain ⟨t, ht, rfl⟩ := Option.map_eq_some_iff.1 h
    rw [Bool.and_eq_true, decide_eq_true_eq] at may
    exact ⟨rfl, may.1, may.2, ht⟩
  · cases h

theorem State.mem_victims {s : State} {l : Launch} {v : Crew} (h : v ∈ s.victims l) :
    v ∈ s.allCrews ∧ ∃ t, s.mayGo l v = some (t, v) := by
  rw [State.victims_eq] at h
  obtain ⟨k, -, hk⟩ := List.mem_flatMap.1 h
  obtain ⟨t, -, ht⟩ := List.mem_flatMap.1 hk
  obtain ⟨e, he, rfl⟩ := List.mem_map.1 ht
  obtain ⟨c, hc, may⟩ := List.mem_filterMap.1 (List.mem_of_mem_filter (List.mem_of_mem_filter he))
  obtain ⟨same, -⟩ := State.mayGo_some may
  rw [same]
  exact ⟨hc, e.1, by rw [may, ← same]⟩

/-- Each live gang of a crew that may be pre-empted waits in a QPOP.B, outside the handler and not ejected. -/
theorem State.preemptible_blocked {s : State} {c : Crew} {t : Nat} (h : s.preemptible c = some t) {g : Gang} (hg : g ∈ s.gangsOf c.id)
    (live : g.live ≠ 0) : g.ej = none ∧ g.handler = none ∧ g.blockedPop ≠ none := by
  unfold State.preemptible at h
  split at h
  · unfold State.blockedSince at h
    dsimp only at h
    split at h
    · cases h
    · next all =>
      rw [Bool.or_eq_true, not_or] at all
      have blocked : (if g.handler.isNone && g.suspended = .no && g.ej.isNone then g.blockedPop else none) ≠ none := fun absent =>
        all.2 (List.any_eq_true.2 ⟨_, List.mem_map.2 ⟨g, List.mem_filter.2 ⟨hg, by rw [decide_eq_true live]; rfl⟩, rfl⟩,
          by rw [absent]; rfl⟩)
      split at blocked
      · next calm =>
        simp only [Bool.and_eq_true, Option.isNone_iff_eq_none] at calm
        exact ⟨calm.2, calm.1.1, blocked⟩
      · exact absurd rfl blocked
  · cases h

/-! ### Room for a cohort (R340) -/

theorem exec_preemption (lid : Nat) (s : State) : exec (.preemption lid) s = execPreemption lid s := rfl

theorem State.exec_preemption_found {lid : Nat} {s : State} {l : Launch} (h : (s.waitingLaunches.find? fun l => l.lid = lid) = some l) :
    exec (.preemption lid) s =
      .next (if (s.placeCohort l).isSome then s else (s.makeRoom l (s.victims l)).getD s) := by
  rw [exec_preemption, execPreemption, h]

theorem State.makeRoom_one (s : State) (l : Launch) (v : Crew) :
    s.makeRoom l [v] = if ((s.preempt v).placeCohort l).isSome then some (s.preempt v) else none := by
  by_cases h : ((s.preempt v).placeCohort l).isSome = true <;> simp [State.makeRoom, h]

/-- The one victim goes where the cohort fits without it. -/
theorem State.exec_preemption_one {lid : Nat} {s t : State} {l : Launch} {v : Crew}
    (h : (s.waitingLaunches.find? fun l => l.lid = lid) = some l) (full : s.placeCohort l = none) (hv : s.victims l = [v])
    (room : s.makeRoom l [v] = some t) : exec (.preemption lid) s = .next t := by
  rw [State.exec_preemption_found h, full, hv, room]
  rfl

theorem Gang.saved_v (g : Gang) {c : Crew} {n : Nat} (h : c.carryV.getLsbD (n % 128) = true) : (g.saved c).v.get 0 n = g.v.get 0 n :=
  Sparse.get_filter 0 (fun n => c.carryV.getLsbD (n % 128)) g.v h

theorem Gang.saved_s (g : Gang) {c : Crew} {n : Nat} (h : c.carryS.getLsbD n = true) : (g.saved c).s.get 0 n = g.s.get 0 n :=
  Sparse.get_filter 0 (fun n => c.carryS.getLsbD n) g.s h

theorem crewPreempted (lid : Nat) (s : State) (l : Launch) (hl : (s.waitingLaunches.find? fun l => l.lid = lid) = some l) :
    ((s.placeCohort l).isSome = true ∨ s.makeRoom l (s.victims l) = none → exec (.preemption lid) s = .next s) ∧
    (∀ v ∈ s.victims l, v.effCls < l.effCls ∧ l.r.clmask.getLsbD (v.core / 4) = true ∧ v ∈ s.allCrews ∧
      ∀ g ∈ s.gangsOf v.id, g.live ≠ 0 → g.ej = none ∧ g.handler = none ∧ g.blockedPop ≠ none) ∧
    ∀ v t, s.placeCohort l = none → s.victims l = [v] → s.makeRoom l [v] = some t → s.Numbered → v.id ≠ 0 →
      exec (.preemption lid) s = .next t ∧ (t.findCrew v.id).id ≠ v.id ∧ (∀ g ∈ t.allGangs, g.crewId ≠ v.id) ∧
      ∃ gs, t.saved = s.saved ++ [⟨v, gs⟩] ∧ gs.map (fun g => g.id) = (s.gangsOf v.id).map (fun g => g.id) ∧
        ∀ g ∈ s.gangsOf v.id, ∃ k ∈ gs, k.id = g.id ∧ k.strands = g.strands ∧ k.rnd = g.rnd ∧ k.urnd = g.urnd ∧ k.g = g.g ∧
          k.fpstat = g.fpstat ∧ k.smask = g.smask ∧ k.spass = g.spass ∧
          (∀ n, v.carryV.getLsbD (n % 128) = true → k.v.get 0 n = g.v.get 0 n) ∧
          ∀ n, v.carryS.getLsbD n = true → k.s.get 0 n = g.s.get 0 n := by
  refine ⟨?_, fun v hv => ?_, fun v t full hv room numbered h0 => ?_⟩
  · rintro (placed | none)
    · rw [State.exec_preemption_found hl, if_pos placed]
    · rw [State.exec_preemption_found hl, none, Option.getD_none, ite_self]
  · obtain ⟨mem, since, may⟩ := State.mem_victims hv
    obtain ⟨-, cls, mask, since⟩ := State.mayGo_some may
    exact ⟨cls, mask, mem, fun g hg live => State.preemptible_blocked since hg live⟩
  · have run := State.exec_preemption_one hl full hv room
    rw [State.makeRoom_one] at room
    split at room
    · obtain rfl := Option.some.inj room
      refine ⟨run, (State.preempt_crews numbered h0).1, State.preempt_gangs numbered v, _, s.preempt_saved v, ?_, fun g hg => ?_⟩
      · rw [List.map_map]
        rfl
      · exact ⟨g.saved v, List.mem_map_of_mem hg, rfl, rfl, rfl, rfl, rfl, rfl, rfl, rfl, fun n => g.saved_v, fun n => g.saved_s⟩
    · cases room

/-! ### The one waiting cohort of one crew (R328, R329, R340) -/

section
variable {s : State} {l : Launch} {k : Nat} {c : Crew} (alone : ∀ j, j < 48 → l.r.clmask.getLsbD j = true → j = k)
include alone

/-- It fits nowhere while every core of its cluster is too full (R328). -/
theorem State.placeCohort_full (one : l.r.crews = 1)
    (full : ∀ j, j < 4 → ∃ d ∈ s.allCrews, d.core = 4 * k + j ∧ 4096 < d.gangs * d.vregs + l.r.gangs * l.r.vregs) :
    s.placeCohort l = none := by
  have room : s.coreFor k 0 l.r.need = none := State.coreFor_eq_none.2 fun j hj => by
    obtain ⟨d, hd, core, regs⟩ := full j hj
    exact State.fits_of_full hd (by omega) regs
  unfold State.placeCohort
  split
  · rfl
  · rw [List.head?_eq_none_iff, List.filterMap_eq_nil_iff]
    intro j hj
    obtain ⟨hj, mask⟩ := (mem_bitList ..).1 hj
    rw [alone j hj mask, s.placeOn_one one, State.placeCrew, room]
    rfl

/-- The blocked crew of lower class on its cluster is the only victim (R340). -/
theorem State.victims_one (hs : s.Numbered) (h3 : l.effCls ≤ 3) (hc : c ∈ s.allCrews) (hk : l.r.clmask.getLsbD k = true)
    (core : c.core / 4 = k) (cls : c.effCls < l.effCls) (may : (s.preemptible c).isSome = true)
    (others : ∀ d ∈ s.allCrews, d.core / 4 = k → d ≠ c → d.core ≠ c.core ∧ l.effCls ≤ d.effCls) : s.victims l = [c] := by
  obtain ⟨t, ht⟩ := Option.isSome_iff_exists.1 may
  have goes : s.mayGo l c = some (t, c) := by
    rw [State.mayGo, if_pos (by rw [core, hk, decide_eq_true cls]; rfl), ht]
    rfl
  have only : s.allCrews.filterMap (s.mayGo l) = [(t, c)] :=
    filterMap_eq_singleton hs.allCrews_nodup hc goes fun d hd other => by
      rw [Option.eq_none_iff_forall_ne_some]
      intro e he
      obtain ⟨-, low, mask, -⟩ := State.mayGo_some he
      have inside : d.core / 4 < 48 := BitVec.lt_of_getLsbD mask
      have := (others d hd (alone _ inside mask) other).2
      omega
  have classes : c.effCls = 0 ∨ c.effCls = 1 ∨ c.effCls = 2 := by omega
  rw [State.victims_eq, only]
  simp only [List.flatMap_cons, List.flatMap_nil, victimsOf_singleton]
  rcases classes with h | h | h <;> simp [h]

end

/-- Once that crew is gone its core takes the cohort (R340). -/
theorem State.makeRoom_blocked {s : State} {l : Launch} {k : Nat} {c : Crew} (hs : s.Numbered) (one : l.r.crews = 1)
    (hctx : (s.sys.ctx l.r.asid).isSome = true) (hn : l.r.need.Modest) (hc : c ∈ s.allCrews) (hk : l.r.clmask.getLsbD k = true) (hk48 : k < 48)
    (core : c.core / 4 = k) (others : ∀ d ∈ s.allCrews, d.core / 4 = k → d ≠ c → d.core ≠ c.core ∧ l.effCls ≤ d.effCls) :
    s.makeRoom l [c] = some (s.preempt c) := by
  have empty : (s.preempt c).crewsOn (4 * k + c.core % 4) = [] := List.filter_eq_nil_iff.2 fun d hd => by
    obtain ⟨e, he, id, same⟩ := (State.preempt_crews hs (hs.crew_id hc)).2 d hd
    rw [decide_eq_true_eq]
    intro here
    exact (others e he (by omega) fun eq => id (congrArg Crew.id eq)).1 (by omega)
  rw [State.makeRoom_one, if_pos]
  exact State.placeCohort_isSome one (by rw [s.preempt_ctx]; exact hctx) hk hk48 (Nat.mod_lt _ (by decide)) (State.fits_of_empty hn empty)

/-! ### The settled statement -/

theorem placement : Claims.Placement :=
  ⟨fun lid s => ⟨cohortPlaced lid s, State.exec_cohortPlacement_other⟩, crewPreempted, crewResumed⟩

theorem placesTaken : Claims.PlacesTaken := by
  refine ⟨fun s l k only more h3 one hctx hk hk48 gangs vregs scratch nbar qshare => ?_,
    fun crew s p hp _ focus gangs free needGangs vregs scratch nbar qshare => ?_⟩
  · have waits : s.Waits l := ⟨only, more, h3⟩
    have modest : l.r.need.Modest := ⟨gangs, vregs, scratch, nbar, qshare⟩
    refine ⟨waits.placed one hctx hk hk48 modest, fun c hc alone core cls may others full numbered => ?_⟩
    have found : (s.waitingLaunches.find? fun k => k.lid = l.lid) = some l := by simp [waits.waiting]
    refine ⟨s.preempt c, ?_, (State.preempt_crews numbered (numbered.crew_id hc)).1, s.savedCrew c, ?_, rfl⟩
    · exact State.exec_preemption_one found (State.placeCohort_full alone one full)
        (State.victims_one alone numbered h3 hc hk core cls may others)
        (State.makeRoom_blocked numbered one hctx modest hc hk hk48 core others)
    · rw [s.preempt_saved]
      exact List.mem_append_right _ List.mem_cons_self
  · obtain ⟨t, run, crewIs, saved, -⟩ := State.exec_crewResume_some hp
      (State.coreFor_free ⟨needGangs, vregs, scratch, nbar, qshare⟩ free) focus fun g hg => (gangs g hg).1
    exact ⟨t, run, saved, crewIs⟩

/-- Settles O46: lent classes spread by rounds to a fixed point, a cohort is placed crew by crew, and a crew that leaves takes its
gangs along and comes back with them. -/
theorem placementAndBoosts : Obligations.PlacementAndBoosts := ⟨boosts, placement, placesTaken⟩

end Sys2Proof.Machine
end

section
/-! SUPPORT. Variable-latency results (R58, R133): the registers that `State.deliver` writes, and what it leaves alone. -/

namespace Sys2Proof.Machine

/-! ### General registers of the gang in focus -/

/-- Of two states only the vector and scalar registers of the gang in focus, with their tags, marks and shadows, differ. -/
def State.Lands (s t : State) : Prop :=
  t = { s with gang := { s.gang with
    v := t.gang.v, s := t.gang.s, stags := t.gang.stags, handleIds := t.gang.handleIds, shadows := t.gang.shadows,
    marks := t.gang.marks } }

theorem State.Lands.refl (s : State) : s.Lands s := rfl

theorem State.Lands.trans {s t u : State} (h : s.Lands t) (h' : t.Lands u) : s.Lands u := by
  unfold State.Lands at *; rw [h', h]

theorem State.Lands.sys {s t : State} (h : s.Lands t) : t.sys = s.sys := by rw [h]
theorem State.Lands.crew {s t : State} (h : s.Lands t) : t.crew = s.crew := by rw [h]
theorem State.Lands.smask {s t : State} (h : s.Lands t) : t.gang.smask = s.gang.smask := by rw [h]
theorem State.Lands.ej {s t : State} (h : s.Lands t) : t.gang.ej = s.gang.ej := by rw [h]
theorem State.Lands.p {s t : State} (h : s.Lands t) : t.gang.p = s.gang.p := by rw [h]
theorem State.Lands.g {s t : State} (h : s.Lands t) : t.gang.g = s.gang.g := by rw [h]

theorem State.lands_foldl {α : Type} {f : State → α → State} (hf : ∀ (s : State) x, s.Lands (f s x)) (l : List α) (s : State) :
    s.Lands (l.foldl f s) := by
  induction l generalizing s with
  | nil => exact .refl s
  | cons x l ih => exact (hf s x).trans (ih _)

theorem State.lands_shadow (s : State) (lat : Nat) (old : OldValue) : s.Lands (s.shadow lat old) := by
  unfold State.Lands State.shadow
  split <;> rfl

theorem State.lands_writeV (s : State) (lat n : Nat) (vals : List (Nat × Word)) : s.Lands (s.writeV lat n vals) :=
  (s.lands_shadow lat _).trans rfl

theorem State.lands_writeS (s : State) (lat n : Nat) (x : Dword) : s.Lands (s.writeS lat n x) :=
  have bits : s.Lands (s.writeSBits lat n x) := (s.lands_shadow lat _).trans rfl
  bits.trans ((State.lands_shadow _ lat _).trans rfl)

theorem State.lands_mark (s : State) (r : RegName) : s.Lands (s.mark r) := by
  unfold State.Lands State.mark
  split <;> rfl

theorem State.lands_deliver (s : State) (d : Sel) (size : Nat) (sx : Bool) (vals : List (Nat × Nat)) :
    s.Lands (s.deliver d size sx vals) := by
  cases d with
  | v n => exact State.lands_foldl (fun s k => (s.lands_writeV ..).trans (State.lands_mark ..)) _ s
  | s n =>
    cases vals with
    | nil => exact .refl s
    | cons e t => exact State.lands_foldl (fun s k => (s.lands_writeS ..).trans (State.lands_mark ..)) _ s
  | _ => exact .refl s

/-- An access that has read or written, whose results have been delivered, and which goes on. -/
theorem State.Touches.accessOnly_lands {s u v : State} (h : s.Touches u) (hv : u.Lands v) : s.AccessOnly v.advance :=
  h.accessOnly (by rw [hv])

/-! ### A group of vector registers -/

/-- Registers from `n` up, `m` of them, written in the lanes and marked (R58). -/
def State.landV (s : State) (n : Nat) (lanes : List Nat) (r : Nat → Nat → Word) (m : Nat) : State :=
  (List.range m).foldl (fun s k => (s.writeV 0 (n + k) (lanes.map fun i => (i, r k i))).mark (.v (n + k))) s

theorem State.landV_succ (s : State) (n : Nat) (lanes : List Nat) (r : Nat → Nat → Word) (m : Nat) :
    s.landV n lanes r (m + 1) =
      ((s.landV n lanes r m).writeV 0 (n + m) (lanes.map fun i => (i, r m i))).mark (.v (n + m)) := by
  simp [State.landV, List.range_succ]

theorem State.landV_get (s : State) {n : Nat} {lanes : List Nat} (r : Nat → Nat → Word) (hl : lanes.Nodup) {m : Nat}
    (hm : n + m ≤ 128) {j k : Nat} (hj : j ∈ lanes) (hk : k < m) :
    (s.landV n lanes r m).gang.v.get 0 (j * 128 + (n + k)) = r k j := by
  induction m with
  | zero => omega
  | succ m ih =>
    rw [State.landV_succ, State.mark_gang_v]
    by_cases last : k = m
    · subst last
      exact State.writeV_lane _ _ _ _ _ hl j hj
    · rw [State.writeV_other _ _ _ _ _ _ fun i _ => by omega]
      exact ih (by omega) (by omega)

theorem State.landV_other (s : State) {n : Nat} {lanes : List Nat} (r : Nat → Nat → Word) {m c : Nat}
    (hc : c ∉ groupCells n m lanes) : (s.landV n lanes r m).gang.v.get 0 c = s.gang.v.get 0 c := by
  simp only [groupCells, List.mem_flatMap, List.mem_map, List.mem_range, not_exists, not_and] at hc
  induction m with
  | zero => rfl
  | succ m ih =>
    rw [State.landV_succ, State.mark_gang_v,
      State.writeV_other _ _ _ _ _ _ fun i hi e => hc i hi m (Nat.lt_succ_self m) e.symm]
    exact ih fun i hi k hk => hc i hi k (Nat.lt_succ_of_lt hk)

theorem State.landV_scalars (s : State) (n : Nat) (lanes : List Nat) (r : Nat → Nat → Word) (m : Nat) :
    (s.landV n lanes r m).gang.s = s.gang.s ∧ (s.landV n lanes r m).gang.stags = s.gang.stags := by
  induction m with
  | zero => exact ⟨rfl, rfl⟩
  | succ m ih => simpa [State.landV_succ] using ih

/-! ### A group of scalar registers -/

/-- Registers from `n` up, `m` of them, written and marked: their pairs lose their tags (R58, R92). -/
def State.landS (s : State) (n : Nat) (r : Nat → Dword) (m : Nat) : State :=
  (List.range m).foldl (fun s k => (s.writeS 0 (n + k) (r k)).mark (.s (n + k))) s

theorem State.landS_succ (s : State) (n : Nat) (r : Nat → Dword) (m : Nat) :
    s.landS n r (m + 1) = ((s.landS n r m).writeS 0 (n + m) (r m)).mark (.s (n + m)) := by
  simp [State.landS, List.range_succ]

theorem State.landS_get (s : State) (n : Nat) (r : Nat → Dword) (m c : Nat) :
    (s.landS n r m).gang.s.get 0 c = if n ≤ c ∧ c < n + m then r (c - n) else s.gang.s.get 0 c := by
  induction m with
  | zero => rw [if_neg (by omega)]; rfl
  | succ m ih =>
    rw [State.landS_succ, State.mark_gang_s, State.writeS_s, Sparse.get_put, ih]
    by_cases last : c = n + m
    · rw [if_pos last, if_pos (by omega), last, Nat.add_sub_cancel_left]
    · rw [if_neg last]
      by_cases inside : n ≤ c ∧ c < n + m
      · rw [if_pos inside, if_pos (by omega)]
      · rw [if_neg inside, if_neg (by omega)]

theorem State.landS_tag (s : State) (n : Nat) (r : Nat → Dword) (m c : Nat) :
    (s.landS n r m).gang.stags.getLsbD c = (decide (∀ k < m, c ≠ (n + k) / 2) && s.gang.stags.getLsbD c) := by
  induction m with
  | zero => simp [State.landS]
  | succ m ih =>
    rw [State.landS_succ, State.mark_gang_stags, State.writeS_tag, ih, ← Bool.and_assoc, ← Bool.decide_and]
    congr 2
    simp only [ne_eq, eq_iff_iff, Nat.forall_lt_succ_right]
    exact and_comm

theorem State.landS_gang_v (s : State) (n : Nat) (r : Nat → Dword) (m : Nat) : (s.landS n r m).gang.v = s.gang.v := by
  induction m with
  | zero => rfl
  | succ m ih => simpa [State.landS_succ] using ih

/-! ### Delivery -/

theorem State.deliver_v (s : State) (n : BitVec 7) (size : Nat) (sx : Bool) (lanes : List Nat) (num : Nat → Nat) :
    s.deliver (.v n) size sx (lanes.map fun i => (i, num i)) = s.landV n.toNat lanes
      (fun k i => BitVec.ofNat 32 (if size < 4 then extend (8 * size) 32 sx (num i) else num i / 2 ^ (32 * k)))
      (loadCount (.v n) size) := by
  simp only [State.deliver, State.landV, List.map_map, Function.comp_def]
  rfl

theorem State.deliver_s (s : State) (n : BitVec 6) (size : Nat) (sx : Bool) (e : Nat × Nat) (rest : List (Nat × Nat)) :
    s.deliver (.s n) size sx (e :: rest) = s.landS n.toNat
      (fun k => BitVec.ofNat 64 (if size < 8 then extend (8 * size) 64 sx e.2 else e.2 / 2 ^ (64 * k)))
      (loadCount (.s n) size) := rfl

/-- The destination of a load holds the numbers that are delivered (R133). -/
theorem State.deliver_received (s : State) {d : Sel} {size : Nat} (sx : Bool) {lanes : List Nat} (num : Nat → Nat)
    (hl : lanes.Nodup) (hs : d.isScalar = true → lanes = [0]) (hv : ∀ n, d = .v n → n.toNat + loadCount d size ≤ 128) :
    (s.deliver d size sx (lanes.map fun i => (i, num i))).LoadReceived d size sx lanes num := by
  cases d with
  | v n =>
    intro j hj k hk
    rw [State.deliver_v]
    exact s.landV_get _ hl (hv n rfl) hj hk
  | s n =>
    obtain rfl := hs rfl
    intro k hk
    rw [List.map_cons, State.deliver_s, State.landS_get, State.landS_tag, if_pos (by omega), Nat.add_sub_cancel_left]
    exact ⟨rfl, by simp only [Bool.and_eq_false_iff, decide_eq_false_iff_not]; exact .inl fun h => h k hk rfl⟩
  | _ => trivial

/-- Every other register holds what it held (R44). -/
theorem State.deliver_kept (s : State) (d : Sel) (size : Nat) (sx : Bool) (lanes : List Nat) (num : Nat → Nat) :
    s.LoadKept (s.deliver d size sx (lanes.map fun i => (i, num i))) d size lanes := by
  have lands := s.lands_deliver d size sx (lanes.map fun i => (i, num i))
  cases d with
  | v n =>
    refine ⟨fun c hc => ?_, fun c _ => ?_, fun c _ => ?_, lands.p, lands.g⟩ <;> rw [State.deliver_v]
    · exact s.landV_other _ (hc n rfl)
    · rw [(s.landV_scalars ..).1]
    · rw [(s.landV_scalars ..).2]
  | s n =>
    cases lanes with
    | nil => exact ⟨fun _ _ => rfl, fun _ _ => rfl, fun _ _ => rfl, rfl, rfl⟩
    | cons i rest =>
      refine ⟨fun c _ => ?_, fun c hc => ?_, fun c hc => ?_, lands.p, lands.g⟩ <;> rw [List.map_cons, State.deliver_s]
      · rw [State.landS_gang_v]
      · rw [State.landS_get, if_neg fun h => hc n rfl (c - n.toNat) (by omega) (by omega)]
      · rw [State.landS_tag, decide_eq_true (hc n rfl), Bool.true_and]
  | _ => exact ⟨fun _ _ => rfl, fun _ _ => rfl, fun _ _ => rfl, rfl, rfl⟩

/-- Only a vector destination writes vector registers. -/
theorem State.deliver_gang_v (s : State) {d : Sel} (hd : ∀ n, d ≠ .v n) (size : Nat) (sx : Bool) (vals : List (Nat × Nat)) :
    (s.deliver d size sx vals).gang.v = s.gang.v := by
  cases d with
  | v n => exact absurd rfl (hd n)
  | s n =>
    cases vals with
    | nil => rfl
    | cons e rest => exact s.landS_gang_v ..
  | _ => rfl

/-- A status word of a uniform instruction is delivered to D (R92, R143). -/
theorem State.deliver_word (s : State) {d : Sel} (hd : ∀ n, d ≠ .v n) (num : Nat) :
    s.WordReceived (s.deliver d 8 false [(0, num)]) d (BitVec.ofNat 64 num) := by
  have received := s.deliver_received (d := d) (size := 8) false (lanes := [0]) (fun _ => num) (by simp) (fun _ => rfl)
    fun n h => absurd h (hd n)
  obtain ⟨-, ks, kt, kp, kg⟩ := s.deliver_kept d 8 false [0] fun _ => num
  refine ⟨fun n h => ?_, fun k hk => ks k fun n h j hj => ?_, fun k hk => kt k fun n h j hj => ?_, s.deliver_gang_v hd .., kp, kg⟩
  · subst h
    simpa using received 0 (by simp [loadCount])
  all_goals
    subst h
    have : j = 0 := by simpa [loadCount] using hj
    subst this
    exact hk n rfl

end Sys2Proof.Machine
end

section
/-! SUPPORT. What a release and an acquire do (R110, R118): which parts of the memory system they leave alone, and how they leave
the L1 of the core. -/

namespace Sys2Proof.Machine

/-! ### Lines move between caches and memory -/

/-- Of two memory systems only memory with its tags, the caches, the directory and the side logs differ. -/
def Sys.LinesMoved (y z : Sys) : Prop :=
  z = { y with mem := z.mem, tags := z.tags, dir := z.dir, cores := z.cores, parkSeq := z.parkSeq }

theorem Sys.LinesMoved.refl (y : Sys) : y.LinesMoved y := rfl

theorem Sys.LinesMoved.trans {x y z : Sys} (h : x.LinesMoved y) (h' : y.LinesMoved z) : x.LinesMoved z := by
  unfold Sys.LinesMoved at *; rw [h', h]

theorem Sys.LinesMoved.dropped {y z : Sys} (h : y.LinesMoved z) : z.dropped = y.dropped := by rw [h]

theorem Sys.LinesMoved.ite {y z u : Sys} {c : Prop} [Decidable c] (hz : y.LinesMoved z) (hu : y.LinesMoved u) :
    y.LinesMoved (if c then z else u) := by split <;> assumption

theorem Sys.linesMoved_foldl {α : Type} {f : Sys → α → Sys} (hf : ∀ (y : Sys) x, y.LinesMoved (f y x)) (l : List α) (y : Sys) :
    y.LinesMoved (l.foldl f y) := by
  induction l generalizing y with
  | nil => exact .refl y
  | cons x l ih => exact (hf y x).trans (ih _)

/-- Only the directory differs. -/
theorem Sys.LinesMoved.dir {y z : Sys} (h : y.LinesMoved z) (d : Sparse DirEntry) : y.LinesMoved { z with dir := d } := h.trans rfl

theorem Sys.linesMoved_toMemory (y : Sys) (w : Who) (key : Nat) (m : BitVec 128) : y.LinesMoved (y.toMemory w key m) :=
  (Sys.LinesMoved.ite (z := Sys.updCore y w.core _) rfl (.refl y)).dir _

theorem Sys.linesMoved_fillWith (y : Sys) {evict : Nat → Sys → Sys} (he : ∀ k (z : Sys), z.LinesMoved (evict k z))
    (cache key pa : Nat) (c : Copy) : y.LinesMoved (y.fillWith evict cache key pa c) := by
  have way : y.LinesMoved (y.makeWay evict cache (keyLine key)) := by
    unfold Sys.makeWay
    dsimp only
    split
    · exact .refl y
    · split
      · exact .refl y
      · exact he _ _
  exact (Sys.LinesMoved.ite (.refl y) way).trans rfl

theorem Sys.linesMoved_evictSlice (y : Sys) (w : Who) (die key : Nat) : y.LinesMoved (y.evictSlice w die key) :=
  (Sys.LinesMoved.ite (y.linesMoved_toMemory ..) (.refl y)).dir _

theorem Sys.linesMoved_fillSlice (y : Sys) (w : Who) (die key pa : Nat) (c : Copy) : y.LinesMoved (y.fillSlice w die key pa c) :=
  y.linesMoved_fillWith (fun _ z => z.linesMoved_evictSlice ..) _ _ _ _

theorem Sys.linesMoved_evictCluster (y : Sys) (w : Who) (k key : Nat) : y.LinesMoved (y.evictCluster w k key) :=
  .ite ((y.linesMoved_fillSlice ..).dir _) rfl

theorem Sys.linesMoved_fillCluster (y : Sys) (w : Who) (k key pa : Nat) (c : Copy) : y.LinesMoved (y.fillCluster w k key pa c) :=
  y.linesMoved_fillWith (fun _ z => z.linesMoved_evictCluster ..) _ _ _ _

theorem Sys.linesMoved_gather (y : Sys) (w : Who) (key : Nat) : y.LinesMoved (y.gather w key) :=
  .ite (.refl y) ((y.linesMoved_fillSlice ..).dir _)

theorem Sys.linesMoved_dropV (y : Sys) (w : Who) (k : Nat) : y.LinesMoved (y.dropV w k) :=
  Sys.linesMoved_foldl (fun z _ => z.linesMoved_evictCluster ..) _ y

theorem Sys.linesMoved_writeMasked (y : Sys) (pa : Nat) (d : BitVec 1024) (m : BitVec 128) (tags : BitVec 8) :
    y.LinesMoved (y.writeMasked pa d m tags) :=
  (Sys.linesMoved_foldl (f := fun y i => y.setByte (pa + i) (lineByte d i)) (fun _ _ => rfl) _ y).trans
    (Sys.linesMoved_foldl (f := fun y g => if tags.getLsbD g then y.setTag (pa + 16 * g) true else y)
      (fun z _ => .ite (z := z.setTag _ true) rfl (.refl z)) _ _)

theorem State.linesMoved_dirWrite (s : State) (w : Who) (l : Leaf) (policy va : Nat) (m : BitVec 128) :
    s.sys.LinesMoved (s.dirWrite w l policy va m).sys := by
  unfold State.dirWrite
  dsimp only
  split
  · refine (Sys.LinesMoved.ite ?_ ?_).dir _
    · exact ((s.sys.linesMoved_gather ..).trans (Sys.linesMoved_fillSlice _ ..)).dir _
    · have own : ∀ e, s.sys.LinesMoved (s.sys.setEntry w.asid (va / 128) e) := fun _ => rfl
      exact (Sys.LinesMoved.ite (own _) ((own _).trans (Sys.linesMoved_fillSlice _ ..))).trans (Sys.linesMoved_fillCluster _ ..)
  · split
    · rfl
    · rw [State.sys_countLocate]; rfl

theorem State.linesMoved_writeBack (s : State) (w : Who) (l : L1Line) : s.sys.LinesMoved (s.writeBack w l).sys := by
  unfold State.writeBack
  split
  · exact .refl _
  · split
    · exact .ite (z := Sys.updCore s.sys w.core _) rfl (.refl _)
    · exact (s.linesMoved_dirWrite ..).trans (Sys.linesMoved_writeMasked _ ..)

theorem State.linesMoved_l1Release (s : State) (w : Who) : s.sys.LinesMoved (s.l1Release w).sys := by
  have backs : ∀ (l : List L1Line) (t : State), t.sys.LinesMoved (l.foldl (fun t x => t.writeBack w x) t).sys := by
    intro l
    induction l with
    | nil => exact fun t => .refl _
    | cons x l ih => exact fun t => (t.linesMoved_writeBack w x).trans (ih _)
  exact (backs _ s).trans rfl

theorem State.linesMoved_release (s : State) (w : Who) (scope : Nat) : s.sys.LinesMoved (s.release w scope).sys := by
  unfold State.release
  dsimp only
  split <;> split
  · exact (s.linesMoved_l1Release _).trans (Sys.linesMoved_dropV _ ..)
  · exact s.sys.linesMoved_dropV ..
  · exact s.linesMoved_l1Release _
  · exact .refl _

theorem State.acquire_dropped (s : State) (w : Who) (scope : Nat) : (s.acquire w scope).sys.dropped = s.sys.dropped := by
  unfold State.acquire
  dsimp only
  split <;> split <;> rfl

/-! ### The L1 of the core -/

theorem State.cacheScope_wide (s : State) (w : Who) {scope : Nat} (h : 3 ≤ scope) : s.cacheScope w scope = true := by
  simp [State.cacheScope, h]

theorem State.release_wide (s : State) {w : Who} {scope : Nat} (h : 3 ≤ scope) (hw : w.engine = false) :
    s.release w scope = if 4 ≤ scope then
        { s.l1Release { w with eject := false } with sys := (s.l1Release { w with eject := false }).sys.dropV w w.cluster }
      else s.l1Release { w with eject := false } := by
  unfold State.release
  rw [s.cacheScope_wide w h, hw]
  rfl

/-- A release at cluster scope or wider leaves no dirty byte in the L1 of its core (R110). -/
theorem State.release_clean (s : State) {w : Who} {scope : Nat} (h : 3 ≤ scope) (hw : w.engine = false) :
    ∀ l ∈ ((s.release w scope).sys.core w.core).l1, l.dirty = 0 := by
  have clean := s.l1Release_clean { w with eject := false }
  rw [s.release_wide h hw]
  split
  · dsimp only
    rw [(Sys.same_dropV _ w w.cluster).2]
    exact clean
  · exact clean

/-- What an acquire leaves in an L1: lines as they were, or the dirty bytes of one alone (R110). -/
theorem State.acquire_l1 (s : State) (w : Who) (scope c : Nat) {l : L1Line} (hl : l ∈ ((s.acquire w scope).sys.core c).l1) :
    ∃ x ∈ (s.sys.core c).l1, l = x ∨ l = { x with valid := x.dirty } := by
  have fetched : ∀ u : State, u.sys.cores = s.sys.cores → l ∈ ((u.l1Acquire w).sys.core c).l1 →
      ∃ x ∈ (s.sys.core c).l1, l = x ∨ l = { x with valid := x.dirty } := by
    intro u hu mem
    have core : ∀ k, u.sys.core k = s.sys.core k := fun k => by unfold Sys.core; rw [hu]
    unfold State.l1Acquire at mem
    dsimp only at mem
    rw [Sys.core_updCore, core, core] at mem
    split at mem
    · next same =>
      obtain ⟨x, hx, rfl⟩ := List.mem_map.1 mem
      exact ⟨x, same ▸ (List.mem_filter.1 hx).1, .inr rfl⟩
    · exact ⟨l, mem, .inl rfl⟩
  unfold State.acquire at hl
  dsimp only at hl
  split at hl <;> split at hl
  · exact fetched _ rfl hl
  · exact ⟨l, hl, .inl rfl⟩
  · exact fetched _ rfl hl
  · exact ⟨l, hl, .inl rfl⟩

theorem State.acquire_clean (s : State) (w : Who) (scope c : Nat) (h : ∀ l ∈ (s.sys.core c).l1, l.dirty = 0) :
    ∀ l ∈ ((s.acquire w scope).sys.core c).l1, l.dirty = 0 := by
  intro l hl
  obtain ⟨x, hx, rfl | rfl⟩ := s.acquire_l1 w scope c hl
  · exact h l hx
  · exact h x hx

/-- An acquire at cluster scope or wider leaves no valid byte but the dirty ones (R110, R299). -/
theorem State.acquire_valid (s : State) {w : Who} {scope : Nat} (h : 3 ≤ scope) (hw : w.engine = false) :
    ∀ l ∈ ((s.acquire w scope).sys.core w.core).l1, l.valid = l.dirty := by
  have valid : ∀ u : State, ∀ l ∈ ((u.l1Acquire w).sys.core w.core).l1, l.valid = l.dirty := by
    intro u l hl
    unfold State.l1Acquire at hl
    dsimp only at hl
    rw [Sys.core_updCore, if_pos rfl] at hl
    obtain ⟨x, -, rfl⟩ := List.mem_map.1 hl
    rfl
  unfold State.acquire
  dsimp only
  split <;> simp only [State.cacheScope_wide _ w h, hw, Bool.not_false, Bool.and_self, if_true] <;> exact valid _

end Sys2Proof.Machine
end

section
/-! CLAIM O17. Fences (R110, R289-R291): the status word of a fence, its cache actions, and the settled statement. -/

namespace Sys2Proof.Machine

/-! ### The status word -/

theorem Sys.mem_downPorts (y : Sys) (asid : Asid) (k : Nat) :
    k ∈ y.downPorts asid ↔ k < 18 ∧ y.dropped.get 0 (droppedKey asid k) ≠ 0 := by
  simp [Sys.downPorts]

theorem droppedKey_injective (asid : Asid) : Function.Injective (droppedKey asid) := fun j k h => by
  unfold droppedKey at h
  omega

/-- Keys of a list, all written alike. -/
theorem Sparse.get_foldl_put_const {α : Type} [DecidableEq α] (d v : α) {key : Nat → Nat} (inj : Function.Injective key) {l : List Nat}
    (hl : l.Nodup) (m : Sparse α) {k : Nat} (hk : k ∈ l) :
    Sparse.get d (l.foldl (fun m p => Sparse.put d m (key p) v) m) (key k) = v := by
  have put := Sparse.get_foldl_put_mem d key (l.map fun p => (p, v)) m
    (by rw [List.map_map]; exact hl.map inj) (k, v) (List.mem_map.2 ⟨k, hk, rfl⟩)
  rwa [List.foldl_map] at put

/-- A reported port counts anew (R291). -/
theorem Sys.reportPorts_dropped (y : Sys) (asid : Asid) {k : Nat} (hk : k < 18) :
    (y.reportPorts asid).dropped.get 0 (droppedKey asid k) = 0 := by
  unfold Sys.reportPorts
  dsimp only
  exact Sparse.get_foldl_put_const 0 0 (droppedKey_injective asid) List.nodup_range y.dropped (List.mem_range.2 hk)

/-- The ports that the status word of a fence reports: at system scope alone (R291). -/
def State.fencePorts (s : State) (x : Fun) : List Nat :=
  if fenceScope x = 6 && 2 ≤ fenceOrder x then s.sys.downPorts s.crew.asid else []

/-- The status word as a number: the ports, and in bit 18 that the fence waited for one that retrains. -/
def State.fenceWord (s : State) (x : Fun) (waited : Bool) : Nat :=
  (maskOf (s.fencePorts x)).toNat + if fenceScope x = 6 && 2 ≤ fenceOrder x && waited then 2 ^ 18 else 0

theorem State.mem_fencePorts (s : State) (x : Fun) (k : Nat) :
    k ∈ s.fencePorts x ↔ (fenceScope x = 6 ∧ 2 ≤ fenceOrder x) ∧ k < 18 ∧ s.sys.dropped.get 0 (droppedKey s.crew.asid k) ≠ 0 := by
  unfold State.fencePorts
  split
  · next h => rw [Sys.mem_downPorts]; simpa using fun _ _ => by simpa using h
  · next h => simpa using fun a b => absurd (by simpa using ⟨a, b⟩) h

theorem maskOf_testBit {l : List Nat} (hl : ∀ i ∈ l, i < 32) (k : Nat) : (maskOf l).toNat.testBit k = decide (k ∈ l) := by
  by_cases hk : k < 32
  · exact maskOf_getLsbD l k hk
  · rw [Nat.testBit_lt_two_pow (lt_of_lt_of_le (maskOf l).isLt (Nat.pow_le_pow_right (by decide) (Nat.le_of_not_lt hk)))]
    exact (decide_eq_false fun h => hk (hl k h)).symm

theorem State.fenceWord_testBit (s : State) (x : Fun) (waited : Bool) (k : Nat) :
    (s.fenceWord x waited).testBit k = if k < 18 then decide (k ∈ s.fencePorts x)
      else decide (k = 18) && (fenceScope x = 6 && 2 ≤ fenceOrder x && waited) := by
  have port : ∀ i ∈ s.fencePorts x, i < 18 := fun i h => ((s.mem_fencePorts x i).1 h).2.1
  have bit := maskOf_testBit fun i h => (port i h).trans (by decide : (18 : Nat) < 32)
  have low : (maskOf (s.fencePorts x)).toNat < 2 ^ 18 := Nat.lt_pow_two_of_testBit _ fun i hi => by
    rw [bit]
    exact decide_eq_false fun h => absurd (port i h) (by omega)
  have split : s.fenceWord x waited = 2 ^ 18 * (fenceScope x = 6 && 2 ≤ fenceOrder x && waited : Bool).toNat +
      (maskOf (s.fencePorts x)).toNat := by
    unfold State.fenceWord
    cases (fenceScope x = 6 && 2 ≤ fenceOrder x && waited : Bool) <;> simp [Nat.add_comm]
  rw [split, Nat.testBit_two_pow_mul_add _ low, bit]
  split
  · rfl
  · next h =>
    obtain ⟨j, rfl⟩ := Nat.exists_eq_add_of_le (Nat.le_of_not_lt h)
    have one : Nat.testBit 1 j = decide (j = 0) := by simpa [eq_comm] using Nat.testBit_two_pow (n := 0) (m := j)
    cases (fenceScope x = 6 && 2 ≤ fenceOrder x && waited : Bool) <;> simp [one]

/-- The status word in D: the ports 0 to 17, whether the fence waited, and nothing else (R291). -/
theorem State.fenceWord_bits (s : State) (x : Fun) (waited : Bool) :
    (∀ k, k < 18 → ((BitVec.ofNat 64 (s.fenceWord x waited)).getLsbD k = true ↔
      (fenceScope x = 6 ∧ 2 ≤ fenceOrder x) ∧ s.sys.dropped.get 0 (droppedKey s.crew.asid k) ≠ 0)) ∧
    ((BitVec.ofNat 64 (s.fenceWord x waited)).getLsbD 18 = true ↔ (fenceScope x = 6 ∧ 2 ≤ fenceOrder x) ∧ waited = true) ∧
    (BitVec.ofNat 64 (s.fenceWord x waited)).extractLsb' 19 45 = 0 := by
  have bit := s.fenceWord_testBit x waited
  refine ⟨fun k hk => ?_, ?_, BitVec.eq_of_getLsbD_eq fun i hi => ?_⟩
  · have hk64 : k < 64 := by omega
    rw [BitVec.getLsbD_ofNat, bit, if_pos hk]
    simp [hk, hk64, s.mem_fencePorts]
  · rw [BitVec.getLsbD_ofNat, bit, if_neg (by decide)]
    simp
  · rw [BitVec.getLsbD_extractLsb', BitVec.getLsbD_ofNat, bit, if_neg (by omega), decide_eq_false (by omega : 19 + i ≠ 18)]
    simp

/-! ### The effect of a fence -/

/-- The parts of a fence's effect: the ports are reported, and its cache actions (R290, R291). -/
def State.fenceReport (s : State) (x : Fun) : State :=
  if fenceScope x = 6 && 2 ≤ fenceOrder x then { s with sys := s.sys.reportPorts s.crew.asid } else s
def State.fenceRelease (s : State) (x : Fun) : State := if 2 ≤ fenceOrder x then s.release s.who (fenceScope x) else s
def State.fenceAcquire (s : State) (x : Fun) : State := if fenceOrder x % 2 = 1 then s.acquire s.who (fenceScope x) else s
def State.fenceCaches (s : State) (x : Fun) : State := ((s.fenceReport x).fenceRelease x).fenceAcquire x

/-- A fence that reports no port, or has a word to report it in, does not trap. -/
theorem State.fenceDone_eq (s : State) (x : Fun) (waited : Bool) (h : x.d.isScalar = true ∨ s.fencePorts x = []) :
    s.fenceDone x waited = ((s.fenceCaches x).deliver x.d 8 false [(0, s.fenceWord x waited)], true) := by
  unfold State.fenceDone
  dsimp only
  rw [if_neg]
  · rfl
  · rcases h with h | h
    · simp [h]
    · unfold State.fencePorts at h
      rw [h]
      simp [maskOf]

theorem State.touches_fenceReport (s : State) (x : Fun) : s.Touches (s.fenceReport x) := .ite (.sys s _) (.refl s)

theorem State.touches_fenceRelease (s : State) (x : Fun) : s.Touches (s.fenceRelease x) :=
  .ite (s.touches_release s.who _ rfl) (.refl s)

theorem State.touches_fenceAcquire (s : State) (x : Fun) : s.Touches (s.fenceAcquire x) :=
  .ite (s.touches_acquire s.who _) (.refl s)

theorem State.touches_fenceCaches (s : State) (x : Fun) : s.Touches (s.fenceCaches x) :=
  ((s.touches_fenceReport x).trans (State.touches_fenceRelease _ x)).trans (State.touches_fenceAcquire _ x)

theorem Sys.same_reportPorts (y : Sys) (asid : Asid) : Sys.Same y (y.reportPorts asid) := by
  unfold Sys.reportPorts
  exact .cores rfl rfl

theorem State.flows_fenceCaches (st : Nat → Prop) (s : State) (x : Fun) : Sys.Flows st s.sys (s.fenceCaches x).sys := by
  have report : Sys.Flows st s.sys (s.fenceReport x).sys := by
    unfold State.fenceReport
    split
    · exact (s.sys.same_reportPorts _).flows st
    · exact .refl st _
  have release : ∀ u : State, Sys.Flows st u.sys (u.fenceRelease x).sys := fun u => by
    unfold State.fenceRelease
    split
    · exact u.flows_release st ..
    · exact .refl st _
  have acquire : ∀ u : State, Sys.Flows st u.sys (u.fenceAcquire x).sys := fun u => by
    unfold State.fenceAcquire
    split
    · exact u.flows_acquire st ..
    · exact .refl st _
  exact (report.trans (release _)).trans (acquire _)

/-- The cache actions leave the counts of discarded writes as they were reported. -/
theorem State.fenceCaches_dropped (s : State) {x : Fun} (h6 : fenceScope x = 6) (h2 : 2 ≤ fenceOrder x) :
    (s.fenceCaches x).sys.dropped = (s.sys.reportPorts s.crew.asid).dropped := by
  have report : (s.fenceReport x).sys = s.sys.reportPorts s.crew.asid := by simp [State.fenceReport, h6, h2]
  have release : ∀ u : State, (u.fenceRelease x).sys.dropped = u.sys.dropped := fun u => by
    unfold State.fenceRelease
    rw [if_pos h2, (u.linesMoved_release ..).dropped]
  have acquire : ∀ u : State, (u.fenceAcquire x).sys.dropped = u.sys.dropped := fun u => by
    unfold State.fenceAcquire
    split
    · exact u.acquire_dropped ..
    · rfl
  unfold State.fenceCaches
  rw [acquire, release, report]

theorem State.Touches.core {s t : State} (h : s.Touches t) : t.core = s.core := by unfold State.core; rw [h.1]

/-- A release at cluster scope or wider leaves no dirty byte in the L1, an acquire after it neither (R110). -/
theorem State.fenceCaches_clean (s : State) {x : Fun} (h3 : 3 ≤ fenceScope x) (h2 : 2 ≤ fenceOrder x) :
    ∀ l ∈ ((s.fenceCaches x).sys.core s.core).l1, l.dirty = 0 := by
  have released : ∀ u : State, ∀ l ∈ ((u.fenceRelease x).sys.core u.core).l1, l.dirty = 0 := fun u => by
    unfold State.fenceRelease
    rw [if_pos h2]
    exact u.release_clean h3 rfl
  unfold State.fenceCaches State.fenceAcquire
  rw [← (s.touches_fenceReport x).core]
  split
  · exact State.acquire_clean _ _ _ _ (released _)
  · exact released _

/-- An acquire at cluster scope or wider leaves only dirty bytes in the L1 (R110). -/
theorem State.fenceCaches_valid (s : State) {x : Fun} (h3 : 3 ≤ fenceScope x) (h1 : fenceOrder x % 2 = 1) :
    ∀ l ∈ ((s.fenceCaches x).sys.core s.core).l1, l.valid = l.dirty := by
  have acquired : ∀ u : State, ∀ l ∈ ((u.fenceAcquire x).sys.core u.core).l1, l.valid = l.dirty := fun u => by
    unfold State.fenceAcquire
    rw [if_pos h1]
    exact u.acquire_valid h3 rfl
  unfold State.fenceCaches
  rw [← ((s.touches_fenceReport x).trans (State.touches_fenceRelease _ x)).core]
  exact acquired _

/-! ### A fence completes -/

/-- What a fence that completes has done. -/
def State.Fenced (u t : State) (x : Fun) (waited : Bool) : Prop :=
  let system := fenceScope x = 6 ∧ 2 ≤ fenceOrder x
  u.AccessOnly t ∧ u.KeptMemory t (fun _ => False) ∧
  (∃ word : Dword, u.WordReceived t x.d word ∧
    (∀ k, k < 18 → (word.getLsbD k = true ↔ system ∧ u.sys.dropped.get 0 (droppedKey u.crew.asid k) ≠ 0)) ∧
    (word.getLsbD 18 = true ↔ system ∧ waited = true) ∧ word.extractLsb' 19 45 = 0) ∧
  (system → ∀ k, k < 18 → t.sys.dropped.get 0 (droppedKey u.crew.asid k) = 0) ∧
  (3 ≤ fenceScope x → 2 ≤ fenceOrder x → ∀ l ∈ (t.sys.core u.core).l1, l.dirty = 0) ∧
  (u.gang.ej = none → 3 ≤ fenceScope x → fenceOrder x % 2 = 1 → ∀ l ∈ (t.sys.core u.core).l1, l.valid = l.dirty)

/-- The conditions of a fence are met, and it has no port to trap for (R290, R291, R293). -/
def State.MayFence (u : State) (x : Fun) : Prop :=
  u.actsFor x.d.isScalar x.hdr ≠ 0 ∧ u.logBlocked (u.actsFor x.d.isScalar x.hdr) = false ∧ (∀ n, x.d ≠ .v n) ∧
  (fenceScope x = 6 → 2 ≤ fenceOrder x → u.sys.retraining = false ∧
    (x.d.isScalar = true ∨ ∀ k, k < 18 → u.sys.dropped.get 0 (droppedKey u.crew.asid k) = 0))

/-- The state after a fence: its cache actions, its status word, the next PC. -/
def State.fenced (s : State) (x : Fun) (waited : Bool) : State :=
  ((s.fenceCaches x).deliver x.d 8 false [(0, s.fenceWord x waited)]).advance

theorem State.MayFence.fenceTry {s : State} {x : Fun} (h : s.MayFence x) (waited : Bool) :
    s.fenceTry x waited = ((s.fenceCaches x).deliver x.d 8 false [(0, s.fenceWord x waited)], true) := by
  obtain ⟨acts, log, -, port⟩ := h
  have still : (fenceScope x = 6 && 2 ≤ fenceOrder x && s.sys.retraining) = false := by
    by_cases h6 : fenceScope x = 6
    · by_cases h2 : 2 ≤ fenceOrder x
      · simp [(port h6 h2).1]
      · simp [h2]
    · simp [h6]
  have reports : x.d.isScalar = true ∨ s.fencePorts x = [] := by
    refine or_iff_not_imp_left.2 fun scalar => List.eq_nil_iff_forall_not_mem.2 fun k hk => ?_
    obtain ⟨⟨h6, h2⟩, hk, counted⟩ := (s.mem_fencePorts x k).1 hk
    exact counted ((port h6 h2).2.resolve_left scalar k hk)
  unfold State.fenceTry
  dsimp only
  rw [if_neg acts, if_neg (by simp [still, log]), s.fenceDone_eq x waited reports]

theorem State.WordReceived.of_touches {s u t : State} {d : Sel} {x : Dword} (h : s.Touches u) (w : u.WordReceived t d x) :
    s.WordReceived t d x := by
  rw [h.1] at w
  exact w

theorem State.WordReceived.advance {s t : State} {d : Sel} {x : Dword} (w : s.WordReceived t d x) :
    s.WordReceived t.advance d x := by
  simpa [State.WordReceived] using w

theorem State.MayFence.fenced {s : State} {x : Fun} (h : s.MayFence x) (waited : Bool) : s.Fenced (s.fenced x waited) x waited := by
  obtain ⟨-, -, notVector, -⟩ := h
  have lands := (s.fenceCaches x).lands_deliver x.d 8 false [(0, s.fenceWord x waited)]
  have sys : (s.fenced x waited).sys = (s.fenceCaches x).sys := by
    rw [State.fenced, State.advance_sys, lands.sys]
  refine ⟨(s.touches_fenceCaches x).accessOnly_lands lands, State.keptMemory_of_flows (sys ▸ s.flows_fenceCaches _ x),
    ⟨_, ?_, s.fenceWord_bits x waited⟩, ?_, ?_, ?_⟩
  · exact (State.WordReceived.of_touches (s.touches_fenceCaches x) (State.deliver_word _ notVector _)).advance
  · rintro ⟨h6, h2⟩ k hk
    rw [sys, s.fenceCaches_dropped h6 h2]
    exact s.sys.reportPorts_dropped _ hk
  · intro h3 h2
    rw [sys]
    exact s.fenceCaches_clean h3 h2
  · intro _ h3 h1
    rw [sys]
    exact s.fenceCaches_valid h3 h1

theorem State.fenced_ej (s : State) (x : Fun) (waited : Bool) : (s.fenced x waited).gang.ej = s.gang.ej := by
  rw [State.fenced, State.advance_gang_ej, (State.lands_deliver ..).ej, (s.touches_fenceCaches x).ej]

/-- Settles O17: a fence whose conditions are met reports its ports, acts on the caches and delivers its word, when it issues or
when its hold ends. -/
theorem fences : Obligations.Fences := by
  refine ⟨fun x s flows may => ?_, fun g x h waited s hold why may => ?_⟩
  · have may : s.MayFence x := may
    have issued : s.attempt { op := .fence } (fun s => s.fenceTry x false) = .next (s.fenced x false) := by
      rw [State.attempt_completes _ _ _ flows, may.fenceTry]
      rfl
    exact ⟨⟨_, issued, may.fenced false⟩, ⟨_, issued, may.fenced false⟩⟩
  · have may : ((s.focus g).atHold h).MayFence x := may
    refine ⟨_, may.fenced waited, ?_⟩
    have ended : exec (.fenceComplete g) s = .next (State.finishHeld (((s.focus g).atHold h).fenceTry x waited)) := by
      change execFenceComplete g s = _
      simp only [execFenceComplete, hold, why]
    rw [ended, may.fenceTry, State.finishHeld, if_pos rfl, ← State.fenced_ej _ x waited]
    rfl

end Sys2Proof.Machine
end

section
/-! SUPPORT. Scratch through a plain base (R162-R168): the targets of the lanes, and the lanes that are switched off. -/

namespace Sys2Proof.Machine

/-! ### Targets -/

/-- The scratch targets of the lanes of an access with a plain base (R168). -/
def State.scratchTargets (s : State) (x : MemOp) (lanes : List Nat) : List (Nat × Target) :=
  lanes.map fun i => (i, .scratch (s.scratchOffset x i))

/-- An access with a plain base that checks no alignment stops in no lane (R162, R168). -/
theorem State.targets_scratch (s : State) (w : Who) {x : MemOp} (hc : x.capb = false) (need : BitVec 4) (lanes : List Nat) :
    s.targets w (memAddr x x.size.bytes need .scratch 0) lanes = .ok (s.scratchTargets x lanes, s) := by
  have one : ∀ i, s.target w (memAddr x x.size.bytes need .scratch 0) i = .ok (.scratch (s.scratchOffset x i), s) := fun i => by
    simp [State.target, memAddr, hc, State.scratchOffset]
  have all : s.targetsOf w (memAddr x x.size.bytes need .scratch 0) lanes = .ok (s.scratchTargets x lanes, s) := by
    induction lanes with
    | nil => rfl
    | cons i rest ih => simp [State.targetsOf, one, ih, State.scratchTargets]
  unfold State.targets
  rw [all]

theorem State.scratchTargets_pages (s : State) (x : MemOp) (lanes : List Nat) : targetPages (s.scratchTargets x lanes) = [] := by
  simp [targetPages, State.scratchTargets, List.flatMap_map, Target.lineParts]

theorem State.movedPage_scratch (s u : State) (x : MemOp) (lanes : List Nat) : u.movedPage (s.scratchTargets x lanes) = none := by
  rw [State.movedPage, State.scratchTargets_pages]; rfl

theorem State.loggedPage_scratch (s u : State) (x : MemOp) (lanes : List Nat) : u.loggedPage (s.scratchTargets x lanes) = none := by
  rw [State.loggedPage, State.movedPage_scratch, State.scratchTargets_pages]; rfl

theorem State.locate_scratch (s u : State) (w : Who) (x : MemOp) (lanes : List Nat) :
    u.locate w (s.scratchTargets x lanes) = none := by
  have empty : (((s.scratchTargets x lanes).filter fun t => !u.relocates t.1).flatMap fun t => t.2.lineParts) = [] := by
    refine List.flatMap_eq_nil_iff.2 fun t ht => ?_
    obtain ⟨i, -, rfl⟩ := List.mem_map.1 (List.mem_filter.1 ht).1
    rfl
  unfold State.locate
  rw [empty]
  split <;> rfl

/-- The lanes of a load in scratch. -/
def State.scratchLanes (s : State) (x : MemOp) (lanes : List Nat) : List (Nat × Ready) :=
  lanes.map fun i => (i, .scratch (s.scratchOffset x i))

theorem State.readyLanes_scratch (s u : State) (w : Who) (acc : Access) (x : MemOp) (lanes : List Nat) :
    u.readyLanes w acc (s.scratchTargets x lanes) = .ok (s.scratchLanes x lanes, u) := by
  induction lanes with
  | nil => rfl
  | cons i rest ih =>
    simp only [State.scratchTargets, State.scratchLanes] at ih
    simp [State.scratchTargets, State.scratchLanes, State.readyLanes, ih]

/-- The items of a store to scratch. -/
def State.scratchItems (s : State) (x : MemOp) (data : Nat → List Byte) (lanes : List Nat) : List StoreItem :=
  lanes.map fun i => .scratch i (s.scratchOffset x i) (data i)

theorem State.storeItems_scratch (s u : State) (w : Who) (acc : Access) (fills : Bool) (x : MemOp) (data : Nat → List Byte)
    (lanes : List Nat) : u.storeItems w acc fills data (s.scratchTargets x lanes) = (s.scratchItems x data lanes, u) := by
  induction lanes with
  | nil => rfl
  | cons i rest ih =>
    simp only [State.scratchTargets, State.scratchItems] at ih
    simp [State.scratchTargets, State.scratchItems, State.storeItems, ih]

theorem State.scratchItems_plain (s : State) (x : MemOp) (data : Nat → List Byte) (lanes : List Nat) :
    ∀ y ∈ s.scratchItems x data lanes, y.plain = true := by
  intro y hy
  obtain ⟨i, -, rfl⟩ := List.mem_map.1 hy
  rfl

theorem peerStop_plain {acc : Access} {l : List StoreItem} (h : ∀ y ∈ l, y.plain = true) : peerStop acc l = none := by
  unfold peerStop
  rw [List.filterMap_eq_nil_iff.2 fun y hy => by have := h y hy; cases y <;> simp_all [StoreItem.plain]]
  rfl

/-! ### Switched-off lanes (R162-R165) -/

/-- The three fates of a lane: outside the allocation, in a pending window, or taking part. -/
theorem State.laneOff_cases (s : State) (off : Int) (n : Nat) :
    s.laneOff off n = some .oor ∧ s.outOfScratch off n ∨
    s.laneOff off n = some .win ∧ ¬s.outOfScratch off n ∧ s.inWindow off n ∨
    s.laneOff off n = none ∧ ¬s.outOfScratch off n ∧ ¬s.inWindow off n := by
  by_cases out : s.outOfScratch off n
  · exact .inl ⟨by unfold State.laneOff; rw [if_pos (by simpa [State.outOfScratch] using out)], out⟩
  · have inside : ¬(off < 0 || off + n > s.crew.scratchSize) = true := by simpa [State.outOfScratch] using out
    have window : (s.windows s.crew.id).any (fun p => p.1 < off.toNat + n && off.toNat ≤ p.2) = true ↔ s.inWindow off n := by
      have positive : 0 ≤ off := by unfold State.outOfScratch at out; omega
      obtain ⟨k, rfl⟩ := Int.eq_ofNat_of_zero_le positive
      simp only [List.any_eq_true, Bool.and_eq_true, decide_eq_true_eq, State.inWindow, Int.toNat_natCast]
      exact exists_congr fun p => and_congr_right fun _ => and_congr (by omega) (by omega)
    unfold State.laneOff
    rw [if_neg inside]
    by_cases win : s.inWindow off n
    · exact .inr (.inl ⟨if_pos (window.2 win), out, win⟩)
    · exact .inr (.inr ⟨if_neg fun h => win (window.1 h), out, win⟩)

theorem State.laneOff_eq_none (s : State) (off : Int) (n : Nat) :
    s.laneOff off n = none ↔ ¬s.outOfScratch off n ∧ ¬s.inWindow off n := by
  rcases s.laneOff_cases off n with ⟨h, out⟩ | ⟨h, -, win⟩ | ⟨h, inside⟩
  · simp [h, out]
  · simp [h, win]
  · simp [h, inside]

/-- Accesses change no window and no allocation. -/
theorem State.Touches.laneOff {s u : State} (h : s.Touches u) (off : Int) (n : Nat) : u.laneOff off n = s.laneOff off n := by
  rw [h.1]; rfl

/-- The bits of SMASK that a lane switched off for a reason sets (R164). -/
def OffReason.bits (r : OffReason) (i : Nat) : Dword := BitVec.ofNat 64 (2 ^ (i % 32) + if r = .oor then 2 ^ 32 else 2 ^ 33)

/-- The bits that a lane with its offset adds. -/
def State.offBits (s : State) (n i : Nat) (off : Int) : Dword :=
  match s.laneOff off n with
  | some r => r.bits i
  | none => 0

/-- The bits that lanes at offsets add. -/
def State.offMask (s : State) (n : Nat) (off : Nat → Int) (lanes : List Nat) : Dword :=
  lanes.foldr (fun i m => s.offBits n i (off i) ||| m) 0

theorem State.Touches.offMask {s u : State} (h : s.Touches u) (n : Nat) (off : Nat → Int) (lanes : List Nat) :
    u.offMask n off lanes = s.offMask n off lanes := by
  unfold State.offMask State.offBits
  simp only [h.laneOff]

theorem State.noteOff_self {s : State} (hej : s.gang.ej = none) (i : Nat) (r : OffReason) :
    s.noteOff i r = { s with gang := { s.gang with smask := s.gang.smask ||| r.bits i } } := by
  simp [State.noteOff, State.updGang, State.logGang, hej, OffReason.bits]

/-- Two powers of two, the second one the greater. -/
theorem testBit_two_powers {a b : Nat} (h : a < b) (k : Nat) : (2 ^ a + 2 ^ b).testBit k = decide (k = a ∨ k = b) := by
  have low : 2 ^ a < 2 ^ b := Nat.pow_lt_pow_right (by decide) h
  have bit := Nat.testBit_two_pow_mul_add 1 low k
  rw [Nat.mul_one, Nat.add_comm] at bit
  rw [bit]
  split
  · next hk =>
    rw [Nat.testBit_two_pow]
    exact decide_eq_decide.2 ⟨fun e => .inl e.symm, fun e => by omega⟩
  · have one := Nat.testBit_two_pow (n := 0) (m := k - b)
    rw [Nat.pow_zero] at one
    rw [one]
    exact decide_eq_decide.2 ⟨fun e => by omega, fun e => by omega⟩

theorem OffReason.bits_getLsbD (r : OffReason) (i : Nat) {k : Nat} (hk : k < 64) :
    (r.bits i).getLsbD k = true ↔ k = i % 32 ∨ k = if r = .oor then 32 else 33 := by
  have small : i % 32 < 32 := Nat.mod_lt _ (by decide)
  have kind : i % 32 < if r = .oor then 32 else 33 := by split <;> omega
  have sum : 2 ^ (i % 32) + (if r = .oor then 2 ^ 32 else 2 ^ 33) = 2 ^ (i % 32) + 2 ^ (if r = .oor then 32 else 33) := by
    split <;> rfl
  rw [OffReason.bits, sum, BitVec.getLsbD_ofNat, testBit_two_powers kind]
  simp [hk]

/-- Which bits a lane sets (R164). -/
theorem State.offBits_getLsbD (s : State) (n i : Nat) (off : Int) {k : Nat} (hk : k < 64) :
    (s.offBits n i off).getLsbD k = true ↔ (s.outOfScratch off n ∨ s.inWindow off n) ∧
      (k = i % 32 ∨ (k = 32 ∧ s.outOfScratch off n) ∨ (k = 33 ∧ ¬s.outOfScratch off n)) := by
  unfold State.offBits
  rcases s.laneOff_cases off n with ⟨h, out⟩ | ⟨h, out, win⟩ | ⟨h, out, win⟩ <;> rw [h]
  · simp [OffReason.bits_getLsbD _ _ hk, out]
  · simp [OffReason.bits_getLsbD _ _ hk, out, win]
  · simp [out, win]

/-- SMASK gains what the lanes of a run add (R164). -/
theorem State.smaskGained_of_offMask {s t : State} {x : MemOp} {lanes : List Nat} (hl : ∀ i ∈ lanes, i < 32)
    (h : t.gang.smask = s.gang.smask ||| s.offMask x.size.bytes (s.scratchOffset x) lanes) : s.SmaskGained t x lanes := by
  intro k hk
  rw [h, BitVec.getLsbD_or, Bool.or_eq_true]
  refine or_congr_right ?_
  clear h
  induction lanes with
  | nil => simp [State.offMask]
  | cons i rest ih =>
    have ih := ih fun j hj => hl j (List.mem_cons_of_mem _ hj)
    have step : s.offMask x.size.bytes (s.scratchOffset x) (i :: rest) =
      s.offBits x.size.bytes i (s.scratchOffset x i) ||| s.offMask x.size.bytes (s.scratchOffset x) rest := rfl
    rw [step, BitVec.getLsbD_or, Bool.or_eq_true, ih, s.offBits_getLsbD _ _ _ hk,
      Nat.mod_eq_of_lt (hl i (List.mem_cons_self ..))]
    simp only [List.mem_cons, exists_eq_or_imp]

end Sys2Proof.Machine
end

section
/-! SUPPORT. LDS and STS of a plain base (R137, R162-R164, R168): the numbers the lanes read and the bytes they write. -/

namespace Sys2Proof.Machine

/-! ### Loads from scratch -/

/-- The number a lane of a load reads: 0 where it is switched off (R162). -/
def State.scratchNum (s : State) (n : Nat) (off : Int) : Nat :=
  match s.laneOff off n with
  | some _ => 0
  | none => fromBytes (s.crew.scratchRead off.toNat n)

theorem State.scratchNum_off (s : State) {n : Nat} {off : Int} (h : s.outOfScratch off n ∨ s.inWindow off n) :
    s.scratchNum n off = 0 := by
  rcases s.laneOff_cases off n with ⟨why, -⟩ | ⟨why, -⟩ | ⟨-, inside, clear⟩
  · rw [State.scratchNum, why]
  · rw [State.scratchNum, why]
  · exact absurd h (not_or.2 ⟨inside, clear⟩)

theorem State.scratchNum_on (s : State) {n : Nat} {off : Int} (inside : ¬s.outOfScratch off n) (clear : ¬s.inWindow off n) :
    s.scratchNum n off = fromBytes (s.crew.scratchRead off.toNat n) := by
  rw [State.scratchNum, (s.laneOff_eq_none off n).2 ⟨inside, clear⟩]

theorem fromBytes_replicate_zero (n : Nat) : fromBytes (List.replicate n 0) = 0 := by
  induction n with
  | zero => rfl
  | succ n ih => rw [List.replicate_succ, fromBytes, ih]; rfl

/-- Of two states only SMASK of the gang in focus differs. -/
def State.Noted (s t : State) (m : Dword) : Prop := t = { s with gang := { s.gang with smask := s.gang.smask ||| m } }

/-- The lanes of a load from scratch read their numbers and note those that are switched off (R162, R164). -/
theorem State.loadLanes_scratch (s u : State) (w : Who) (policy n : Nat) (x : MemOp) (lanes : List Nat) (hej : u.gang.ej = none) :
    ((u.loadLanes w policy n (s.scratchLanes x lanes)).1.map fun e => (e.strand, fromBytes e.data)) =
      lanes.map (fun i => (i, u.scratchNum n (s.scratchOffset x i))) ∧
    u.Noted (u.loadLanes w policy n (s.scratchLanes x lanes)).2 (u.offMask n (s.scratchOffset x) lanes) := by
  induction lanes generalizing u with
  | nil => exact ⟨rfl, by simp [State.Noted, State.offMask, State.scratchLanes, State.loadLanes]⟩
  | cons i rest ih =>
    have cons : s.scratchLanes x (i :: rest) = (i, .scratch (s.scratchOffset x i)) :: s.scratchLanes x rest := rfl
    have mask : u.offMask n (s.scratchOffset x) (i :: rest) =
      u.offBits n i (s.scratchOffset x i) ||| u.offMask n (s.scratchOffset x) rest := rfl
    rw [cons, mask]
    cases hoff : u.laneOff (s.scratchOffset x i) n with
    | some why =>
      have note := u.touches_noteOff i why
      obtain ⟨nums, noted⟩ := ih (u.noteOff i why) (note.ej.trans hej)
      rw [note.offMask] at noted
      have same : ∀ off, (u.noteOff i why).scratchNum n off = u.scratchNum n off := fun off => by
        rw [State.scratchNum, note.laneOff, State.noteOff_self hej]; rfl
      simp only [State.loadLanes, hoff, List.map_cons, nums, same, fromBytes_replicate_zero]
      refine ⟨by simp [State.scratchNum, hoff], ?_⟩
      unfold State.Noted at noted ⊢
      rw [noted, State.noteOff_self hej]
      simp [State.offBits, hoff, BitVec.or_assoc]
    | none =>
      obtain ⟨nums, noted⟩ := ih u hej
      simp only [State.loadLanes, hoff, List.map_cons, nums]
      refine ⟨by simp [State.scratchNum, hoff], ?_⟩
      simpa [State.offBits, hoff] using noted

theorem State.countPasses_self {s : State} (hej : s.gang.ej = none) (n : Nat) (lanes : List (Nat × Nat × Nat)) :
    ∃ k, s.countPasses n lanes = { s with gang := { s.gang with spass := k } } := by
  unfold State.countPasses
  dsimp only
  split
  · exact ⟨s.gang.spass, rfl⟩
  · exact ⟨s.gang.spass + BitVec.ofNat 64 (passes n lanes), by simp [State.updGang, State.logGang, hej]⟩

/-- LDS with a plain base delivers the lanes' numbers to D; memory and the crew stay (R162-R164, R168). -/
theorem State.loadOp_scratch {s : State} {x : MemOp} (hej : s.gang.ej = none) (hc : x.capb = false) (ho : x.order = 0)
    (hl : s.lanes x.d.isScalar x.hdr ≠ []) :
    let n := x.size.bytes
    let lanes := s.lanes x.d.isScalar x.hdr
    ∃ u, s.loadOp x .scratch =
        (u.deliver x.d n x.x73 (lanes.map fun i => (i, s.scratchNum n (s.scratchOffset x i))), true) ∧
      s.Touches u ∧ u.sys = s.sys ∧ u.crew = s.crew ∧
      u.gang.smask = s.gang.smask ||| s.offMask n (s.scratchOffset x) lanes := by
  intro n lanes
  obtain ⟨nums, noted⟩ := s.loadLanes_scratch s s.who x.policy.toNat n x lanes hej
  have touched := s.touches_loadLanes s.who x.policy.toNat n (s.scratchLanes x lanes) rfl
  generalize hr : s.loadLanes s.who x.policy.toNat n (s.scratchLanes x lanes) = r at nums noted touched
  obtain ⟨k, counted⟩ := State.countPasses_self (touched.ej.trans hej) n (passLanes n r.1)
  generalize hu : r.2.countPasses n (passLanes n r.1) = u at counted
  refine ⟨{ u with gang := { u.gang with located := u.located } }, ?_, ?_⟩
  · have align : orderAlign 0 x.size.bytes = 0 := rfl
    unfold State.loadOp State.loadAll
    simp only [ho, align, s.targets_scratch s.who hc, s.loggedPage_scratch, s.readyLanes_scratch, s.locate_scratch]
    rw [if_neg (by simpa using hl), ← nums]
    subst hu hr
    rfl
  · unfold State.Noted at noted
    rw [counted, noted]
    exact ⟨⟨rfl, fun _ => rfl⟩, rfl, rfl, rfl⟩

/-! ### Stores to scratch -/

/-- A byte of scratch after bytes are written. -/
theorem Crew.scratchWrite_scratch (c : Crew) (off : Nat) (data : List Byte) (tag : Bool) (o : Nat) :
    (c.scratchWrite off data tag).scratch.get 0 o =
      if off ≤ o ∧ o < off + data.length then data.getD (o - off) 0 else c.scratch.get 0 o := by
  by_cases h : off ≤ o ∧ o < off + data.length
  · obtain ⟨k, rfl⟩ := Nat.exists_eq_add_of_le h.1
    have hk : k < data.length := by omega
    rw [if_pos h, c.scratchWrite_get off data tag hk, Nat.add_sub_cancel_left, List.getD_eq_getElem _ _ hk]
  · rw [if_neg h]
    refine Sparse.get_foldl_put_not_mem 0 (fun i => off + i) _ c.scratch o fun mem => ?_
    obtain ⟨e, he, rfl⟩ := List.mem_map.1 mem
    have := List.mem_range.1 (List.of_mem_zip he).1
    exact h ⟨Nat.le_add_right .., by omega⟩

/-- A lane of `n` bytes at an offset takes part and writes a byte. -/
def State.writesByte (s : State) (n : Nat) (off : Int) (o : Nat) : Prop := s.laneOff off n = none ∧ off ≤ o ∧ (o : Int) < off + n

theorem State.writesByte_iff_covers (s : State) (x : MemOp) (j o : Nat) :
    s.writesByte x.size.bytes (s.scratchOffset x j) o ↔ s.covers x j o := by
  unfold State.writesByte State.covers
  rw [s.laneOff_eq_none, and_assoc]

theorem State.Touches.writesByte {s u : State} (h : s.Touches u) (n : Nat) (off : Int) (o : Nat) :
    u.writesByte n off o ↔ s.writesByte n off o := by unfold State.writesByte; rw [h.laneOff]

/-- One lane of a store to scratch. -/
def State.storeScratch (s : State) (i : Nat) (off : Int) (b : List Byte) : State :=
  match s.laneOff off b.length with
  | some why => s.noteOff i why
  | none => { s with crew := s.crew.scratchWrite off.toNat b false }

theorem State.performStores_scratch (s : State) (w : Who) (policy : Nat) (set : BitVec 16) (r : Readers) (i : Nat) (off : Int)
    (b : List Byte) (rest : List StoreItem) : s.performStores w policy set r none (.scratch i off b :: rest) =
      (s.storeScratch i off b).performStores w policy set r none rest := rfl

theorem State.touches_storeScratch (s : State) (i : Nat) (off : Int) (b : List Byte) : s.Touches (s.storeScratch i off b) := by
  unfold State.storeScratch
  split
  · exact s.touches_noteOff _ _
  · exact ⟨rfl, fun _ => rfl⟩

theorem State.storeScratch_noted {s : State} (hej : s.gang.ej = none) (i : Nat) (off : Int) (b : List Byte) :
    (s.storeScratch i off b).sys = s.sys ∧ (s.storeScratch i off b).gang.smask = s.gang.smask ||| s.offBits b.length i off := by
  unfold State.storeScratch State.offBits
  cases s.laneOff off b.length with
  | some why =>
    dsimp only
    rw [State.noteOff_self hej]
    exact ⟨rfl, rfl⟩
  | none => exact ⟨rfl, by simp⟩

theorem State.storeScratch_writes {s : State} {i : Nat} {off : Int} {b : List Byte} {o : Nat} (h : s.writesByte b.length off o) :
    (s.storeScratch i off b).crew.scratch.get 0 o = b.getD (o - off.toNat) 0 := by
  obtain ⟨on, low, high⟩ := h
  obtain ⟨inside, -⟩ := (s.laneOff_eq_none ..).1 on
  have positive : 0 ≤ off := by unfold State.outOfScratch at inside; omega
  simp only [State.storeScratch, on, Crew.scratchWrite_scratch]
  rw [if_pos (by omega)]

theorem State.storeScratch_keeps {s : State} (hej : s.gang.ej = none) {i : Nat} {off : Int} {b : List Byte} {o : Nat}
    (h : ¬s.writesByte b.length off o) : (s.storeScratch i off b).crew.scratch.get 0 o = s.crew.scratch.get 0 o := by
  cases on : s.laneOff off b.length with
  | some why => simp only [State.storeScratch, on, State.noteOff_self hej]
  | none =>
    obtain ⟨inside, -⟩ := (s.laneOff_eq_none ..).1 on
    have positive : 0 ≤ off := by unfold State.outOfScratch at inside; omega
    simp only [State.storeScratch, on, Crew.scratchWrite_scratch]
    exact if_neg fun hit => h ⟨on, by omega, by omega⟩

section

variable {s : State} {w : Who} {policy : Nat} {set : BitVec 16} {r : Readers} {x : MemOp} {data : Nat → List Byte} {n : Nat}

/-- A store to scratch notes the lanes that are switched off; memory stays (R162, R164). -/
theorem State.storeLanes_noted (hn : ∀ i, (data i).length = n) (lanes : List Nat) {u : State} (hej : u.gang.ej = none) :
    (u.performStores w policy set r none (s.scratchItems x data lanes)).sys = u.sys ∧
    (u.performStores w policy set r none (s.scratchItems x data lanes)).gang.smask =
      u.gang.smask ||| u.offMask n (s.scratchOffset x) lanes := by
  induction lanes generalizing u with
  | nil => exact ⟨rfl, by simp [State.offMask, State.scratchItems, State.performStores]⟩
  | cons i rest ih =>
    have touched := u.touches_storeScratch i (s.scratchOffset x i) (data i)
    obtain ⟨sys, smask⟩ := State.storeScratch_noted hej i (s.scratchOffset x i) (data i)
    obtain ⟨sys', smask'⟩ := ih (touched.ej.trans hej)
    have cons : s.scratchItems x data (i :: rest) = .scratch i (s.scratchOffset x i) (data i) :: s.scratchItems x data rest := rfl
    rw [cons, State.performStores_scratch]
    refine ⟨sys'.trans sys, ?_⟩
    rw [smask', smask, touched.offMask, hn, BitVec.or_assoc]
    rfl

/-- A byte that no lane writes stays. -/
theorem State.storeLanes_keeps (hn : ∀ i, (data i).length = n) {lanes : List Nat} {u : State} (hej : u.gang.ej = none) {o : Nat}
    (h : ∀ j ∈ lanes, ¬u.writesByte n (s.scratchOffset x j) o) :
    (u.performStores w policy set r none (s.scratchItems x data lanes)).crew.scratch.get 0 o = u.crew.scratch.get 0 o := by
  induction lanes generalizing u with
  | nil => rfl
  | cons i rest ih =>
    have touched := u.touches_storeScratch i (s.scratchOffset x i) (data i)
    refine (ih (touched.ej.trans hej) fun j hj => ?_).trans (State.storeScratch_keeps hej ?_)
    · rw [touched.writesByte]
      exact h j (List.mem_cons_of_mem _ hj)
    · rw [hn]
      exact h i (List.mem_cons_self ..)

/-- The highest lane that writes a byte writes it last (R137). -/
theorem State.storeLanes_last (hn : ∀ i, (data i).length = n) {lanes : List Nat} (rising : lanes.Pairwise (· < ·)) {u : State}
    (hej : u.gang.ej = none) {o j : Nat} (hj : j ∈ lanes) (hits : u.writesByte n (s.scratchOffset x j) o)
    (last : ∀ i ∈ lanes, j < i → ¬u.writesByte n (s.scratchOffset x i) o) :
    (u.performStores w policy set r none (s.scratchItems x data lanes)).crew.scratch.get 0 o =
      (data j).getD (o - (s.scratchOffset x j).toNat) 0 := by
  induction lanes generalizing u with
  | nil => cases hj
  | cons i rest ih =>
    obtain ⟨above, rising⟩ := List.pairwise_cons.1 rising
    have touched := u.touches_storeScratch i (s.scratchOffset x i) (data i)
    have later : ∀ k ∈ rest, j < k → ¬(u.storeScratch i (s.scratchOffset x i) (data i)).writesByte n (s.scratchOffset x k) o :=
      fun k hk hjk => by
        rw [touched.writesByte]
        exact last k (List.mem_cons_of_mem _ hk) hjk
    rcases List.mem_cons.1 hj with rfl | hj
    · exact (State.storeLanes_keeps hn (touched.ej.trans hej) fun k hk => later k hk (above k hk)).trans
        (State.storeScratch_writes (by rwa [hn]))
    · exact ih rising (touched.ej.trans hej) hj ((touched.writesByte ..).2 hits) later

end

/-- A store all of whose parts are performed at once logs nothing. -/
theorem State.logStore_plain (s : State) (k : LogShape) {l : List StoreItem} (h : ∀ y ∈ l, y.plain = true) :
    s.logStore k l = (s, true) := by
  unfold State.logStore
  rw [loggedPages_plain l h]
  rfl

theorem State.storeData_length (s : State) (c : Sel) (n i : Nat) : (s.storeData c n i).length = n := by
  unfold State.storeData
  split <;> exact toBytes_length ..

theorem State.lanes_rising (s : State) (uni : Bool) (h : Hdr) : (s.lanes uni h).Pairwise (· < ·) := by
  unfold State.lanes
  split
  · simp
  · exact List.Pairwise.filter _ List.pairwise_lt_range

theorem State.lanes_lt (s : State) (uni : Bool) (h : Hdr) : ∀ i ∈ s.lanes uni h, i < 32 := by
  unfold State.lanes
  split
  · simp
  · exact fun i hi => ((mem_mask_list _ i).1 hi).1

/-- STS with a plain base performs its lanes in ascending order; memory stays (R137, R162-R164, R168). -/
theorem State.storeOp_scratch {s : State} {x : MemOp} (hej : s.gang.ej = none) (hc : x.capb = false) (ho : x.order = 0) :
    let lanes := s.lanes (!isVector x.b && !isVector x.c) x.hdr
    let items := s.scratchItems x (s.storeData x.c x.size.bytes) lanes
    ∃ u, s.storeOp x .scratch = (u, true) ∧ s.Touches u ∧
      (∃ r, u.crew = (s.performStores s.who x.policy.toNat x.rset r none items).crew) ∧ u.sys = s.sys ∧
      u.gang.smask = s.gang.smask ||| s.offMask x.size.bytes (s.scratchOffset x) lanes := by
  intro lanes items
  have plain := s.scratchItems_plain x (s.storeData x.c x.size.bytes) lanes
  by_cases empty : lanes = []
  · refine ⟨s, ?_, .refl s, ⟨.none, ?_⟩, rfl, ?_⟩
    · unfold State.storeOp State.storeAll
      exact if_pos (by simpa using empty)
    · simp [items, empty, State.scratchItems, State.performStores]
    · simp [empty, State.offMask]
  · obtain ⟨sys, smask⟩ := State.storeLanes_noted (s := s) (w := s.who) (policy := x.policy.toNat) (set := x.rset)
      (r := s.sys.readers s.who x.rset) (x := x) (fun i => s.storeData_length x.c x.size.bytes i) lanes hej
    have touched := s.touches_performStores s.who x.policy.toNat x.rset (s.sys.readers s.who x.rset) none items rfl plain
    obtain ⟨k, counted⟩ := State.countPasses_self (touched.ej.trans hej) x.size.bytes
      ((s.performStores s.who x.policy.toNat x.rset (s.sys.readers s.who x.rset) none items).storePasses items)
    refine ⟨_, ?_, touched.trans (State.touches_countPasses _ x.size.bytes _), ⟨_, by rw [counted]⟩, by rw [counted]; exact sys,
      by rw [counted]; exact smask⟩
    have align : orderAlign 0 x.size.bytes = 0 := rfl
    have stop : peerStop .store (s.scratchItems x (fun i => s.storeData x.c x.size.bytes i) lanes) = none := peerStop_plain plain
    unfold State.storeOp State.storeAll
    simp only [ho, align, s.targets_scratch s.who hc, s.movedPage_scratch, s.storeItems_scratch]
    rw [if_neg (by simpa using empty), stop]
    exact State.logStore_plain _ _ plain

/-! ### LDS and STS -/

theorem State.LoadReceived.advance {t : State} {d : Sel} {size : Nat} {sx : Bool} {lanes : List Nat} {num : Nat → Nat}
    (h : t.LoadReceived d size sx lanes num) : t.advance.LoadReceived d size sx lanes num := by
  cases d with
  | v n => simpa [State.LoadReceived] using h
  | s n => simpa [State.LoadReceived] using h
  | _ => trivial

theorem State.LoadKept.advance {s t : State} {d : Sel} {size : Nat} {lanes : List Nat} (h : s.LoadKept t d size lanes) :
    s.LoadKept t.advance d size lanes := by
  simpa [State.LoadKept] using h

theorem State.LoadKept.of_touches {s u t : State} {d : Sel} {size : Nat} {lanes : List Nat} (h : s.Touches u)
    (k : u.LoadKept t d size lanes) : s.LoadKept t d size lanes := by
  rw [h.1] at k
  exact k

/-- A load of a vector instruction without active lanes changes nothing. -/
theorem State.loadOp_idle {s : State} {x : MemOp} (h : s.lanes x.d.isScalar x.hdr = []) (space : AddrSpace) :
    s.loadOp x space = (s, true) := by
  unfold State.loadOp State.loadAll
  exact if_pos (by simp [h])

theorem State.loadReceived_idle {s : State} {d : Sel} {h : Hdr} (idle : s.lanes d.isScalar h = []) (t : State) (size : Nat)
    (sx : Bool) (num : Nat → Nat) : t.LoadReceived d size sx (s.lanes d.isScalar h) num := by
  cases d with
  | v n => intro j hj; rw [idle] at hj; cases hj
  | s n => cases idle
  | _ => trivial

theorem State.LoadKept.refl (s : State) (d : Sel) (size : Nat) (lanes : List Nat) : s.LoadKept s d size lanes :=
  ⟨fun _ _ => rfl, fun _ _ => rfl, fun _ _ => rfl, rfl, rfl⟩

/-- LDS: the lanes that take part read their bytes, the others read 0 (R162-R164, R168). -/
theorem scratchLoads {x : MemOp} {s : State} (flows : s.flows = true) (hej : s.gang.ej = none) (hc : x.capb = false)
    (ho : x.order = 0) (hd : ∀ d, x.d = .v d → d.toNat + loadCount x.d x.size.bytes ≤ 128) :
    ∃ t, exec (.lds x) s = .next t ∧
      t.LoadReceived x.d x.size.bytes x.x73 (s.lanes x.d.isScalar x.hdr) (fun j => s.scratchNum x.size.bytes (s.scratchOffset x j)) ∧
      s.LoadKept t x.d x.size.bytes (s.lanes x.d.isScalar x.hdr) ∧ s.AccessOnly t ∧ t.sys = s.sys ∧ t.crew = s.crew ∧
      s.SmaskGained t x (s.lanes x.d.isScalar x.hdr) := by
  have completes : ∀ u, s.loadOp x .scratch = (u, true) → exec (.lds x) s = .next u.advance := fun u run => by
    change s.attempt { op := .lds } (fun s => s.loadOp x .scratch) = _
    rw [State.attempt_completes _ _ _ flows, run, if_pos rfl]
  have small := s.lanes_lt x.d.isScalar x.hdr
  by_cases idle : s.lanes x.d.isScalar x.hdr = []
  · exact ⟨_, completes s (State.loadOp_idle idle _), State.loadReceived_idle idle .., (State.LoadKept.refl ..).advance,
      (State.Touches.refl s).accessOnly rfl, s.advance_sys, s.advance_crew,
      State.smaskGained_of_offMask small (by simp [idle, State.offMask])⟩
  · obtain ⟨u, run, touched, sys, crew, smask⟩ := State.loadOp_scratch hej hc ho idle
    have lands := u.lands_deliver x.d x.size.bytes x.x73 ((s.lanes x.d.isScalar x.hdr).map fun i =>
      (i, s.scratchNum x.size.bytes (s.scratchOffset x i)))
    have received := u.deliver_received x.x73 (fun i => s.scratchNum x.size.bytes (s.scratchOffset x i))
      (s.lanes_nodup x.d.isScalar x.hdr) (s.lanes_uniform _ _) hd
    exact ⟨_, completes _ run, received.advance, (State.LoadKept.of_touches touched (u.deliver_kept ..)).advance,
      touched.accessOnly_lands lands, by rw [State.advance_sys, lands.sys, sys], by rw [State.advance_crew, lands.crew, crew],
      State.smaskGained_of_offMask small (by rw [State.advance_gang_smask, lands.smask, smask])⟩

/-- STS: the lanes that take part write their bytes, the highest one last (R137, R162-R164, R168). -/
theorem scratchStores {x : MemOp} {s : State} (flows : s.flows = true) (hej : s.gang.ej = none) (hc : x.capb = false)
    (ho : x.order = 0) (stored : List Nat) (hstored : s.lanes (!isVector x.b && !isVector x.c) x.hdr = stored) :
    ∃ t, exec (.sts x) s = .next t ∧ s.SameRegisters t ∧ s.AccessOnly t ∧ t.sys = s.sys ∧ s.SmaskGained t x stored ∧
      (∀ o, (∀ j ∈ stored, ¬s.covers x j o) → t.crew.scratch.get 0 o = s.crew.scratch.get 0 o) ∧
      ∀ o, ∀ j ∈ stored, s.covers x j o → (∀ i ∈ stored, j < i → ¬s.covers x i o) →
        t.crew.scratch.get 0 o = (s.storeData x.c x.size.bytes j).getD (o - (s.scratchOffset x j).toNat) 0 := by
  subst hstored
  obtain ⟨u, run, touched, ⟨r, crew⟩, sys, smask⟩ := State.storeOp_scratch hej hc ho
  have length := fun i => s.storeData_length x.c x.size.bytes i
  refine ⟨u.advance, ?_, touched.sameRegisters, touched.accessOnly rfl, ?_, ?_, fun o untouched => ?_, fun o j hj hits last => ?_⟩
  · change s.attempt { op := .sts } (fun s => s.storeOp x .scratch) = _
    rw [State.attempt_completes _ _ _ flows, run, if_pos rfl]
  · rw [State.advance_sys, sys]
  · exact State.smaskGained_of_offMask (s.lanes_lt _ _) (by rw [State.advance_gang_smask, smask])
  · rw [State.advance_crew, crew]
    exact State.storeLanes_keeps length hej fun j hj => by
      rw [s.writesByte_iff_covers]; exact untouched j hj
  · rw [State.advance_crew, crew]
    exact State.storeLanes_last length (s.lanes_rising ..) hej hj ((s.writesByte_iff_covers ..).2 hits) fun i hi hij => by
      rw [s.writesByte_iff_covers]; exact last i hi hij

theorem scratchAccess : Claims.ScratchAccess := by
  intro x s flows hej hc ho n lanes stored hd
  obtain ⟨t, run, received, kept, only, sys, crew, smask⟩ := scratchLoads flows hej hc ho hd
  refine ⟨⟨t, _, run, received, kept, only, sys, crew, smask, fun j _ => ⟨fun off => ?_, fun inside clear => ?_⟩⟩,
    scratchStores flows hej hc ho stored rfl⟩
  · exact s.scratchNum_off off
  · exact s.scratchNum_on inside clear

end Sys2Proof.Machine
end

section
/-! SUPPORT. What an agent reads of a line (R107, R110), and where a store leaves its bytes (R112, R119, R123, R137). -/

namespace Sys2Proof.Machine

/-! ### Bytes of memory -/

theorem Sys.bytes_getElem? (y : Sys) (pa : Nat) {n i : Nat} (hi : i < n) : (y.bytes pa n)[i]? = some (y.byte (pa + i)) := by
  have inside : i < (y.bytes pa n).length := by rwa [Sys.bytes_length]
  rw [List.getElem?_eq_getElem inside, ← y.bytes_getD pa n i hi, List.getD_eq_getElem _ _ inside]

/-- Memory holds the bytes of a list. -/
def Sys.Holds (y : Sys) (pa : Nat) (data : List Byte) : Prop := ∀ i < data.length, y.byte (pa + i) = data.getD i 0

theorem Sys.Holds.bytes {y : Sys} {pa : Nat} {data : List Byte} (h : y.Holds pa data) : y.bytes pa data.length = data := by
  refine List.ext_getElem (y.bytes_length ..) fun i h1 h2 => ?_
  rw [← List.getD_eq_getElem (d := 0) _ h1, ← List.getD_eq_getElem (d := 0) _ h2, Sys.bytes_getD _ _ _ _ h2, h i h2]

theorem Sys.putBytes_holds (y : Sys) (pa : Nat) (data : List Byte) (tag : Bool) : (y.putBytes pa data tag).Holds pa data := by
  intro i hi
  have set : (y.putBytes pa data tag).byte (pa + i) = (y.setBytes pa data).byte (pa + i) := by
    unfold Sys.putBytes
    dsimp only
    split <;> rfl
  rw [set, Sys.byte_setBytes, if_pos (by omega), Nat.add_sub_cancel_left]

/-- Bytes that no L1 held dirty stay in memory. -/
theorem Sys.Holds.flows {y z : Sys} {pa : Nat} {data : List Byte} (h : y.Holds pa data) (f : Sys.Flows (fun _ => False) y z)
    (clean : ∀ a b, y.Dirty a b → a < pa ∨ pa + data.length ≤ a) : z.Holds pa data := by
  intro i hi
  rcases f.1 (pa + i) (fun h => h) with e | dirty
  · rw [e, h i hi]
  · have := clean _ _ dirty
    omega

/-- A byte of a line's data as memory holds it. -/
theorem Sys.lineByte_lineData (y : Sys) (pa : Nat) {i : Nat} (hi : i < 128) : lineByte (y.lineData pa) i = y.byte (pa + i) := by
  refine BitVec.eq_of_getLsbD_eq fun r hr => ?_
  have inside : 8 * i + r < 1024 := by omega
  rw [lineByte, BitVec.getLsbD_extractLsb', Sys.lineData, BitVec.getLsbD_ofNat, Sys.num, fromBytes_testBit _ _ _ hr,
    Sys.bytes_getD _ _ _ _ hi]
  simp [hr, inside]

theorem Sys.lineData_congr {y z : Sys} (h : z.mem = y.mem) (pa : Nat) : z.lineData pa = y.lineData pa := by
  have same : ∀ n a, z.bytes a n = y.bytes a n := by
    intro n
    induction n with
    | zero => exact fun _ => rfl
    | succ n ih =>
      intro a
      rw [Sys.bytes, Sys.bytes, ih]
      unfold Sys.byte
      rw [h]
  rw [Sys.lineData, Sys.lineData, Sys.num, Sys.num, same]

/-! ### Lines of an L1 -/

theorem Sys.l1Find_key {y : Sys} {c : Nat} {asid : Asid} {line : Nat} {x : L1Line} (h : y.l1Find c asid line = some x) :
    x.asid = asid ∧ x.line = line := by
  simpa using List.find?_some h

theorem Sys.l1Find_eq_none {y : Sys} {c : Nat} {asid : Asid} {line : Nat} :
    y.l1Find c asid line = none ↔ ∀ x ∈ (y.core c).l1, x.asid = asid → x.line ≠ line := by
  simp [Sys.l1Find]

/-- A line that is put into an L1 is found there. -/
theorem Sys.l1Find_l1Put (y : Sys) (c : Nat) {x : L1Line} {asid : Asid} {line : Nat} (hasid : x.asid = asid) (hline : x.line = line) :
    (y.l1Put c x).l1Find c asid line = some x := by
  subst hasid hline
  unfold Sys.l1Find Sys.l1Put
  rw [Sys.core_updCore, if_pos rfl]
  simp

/-- No other core finds it. -/
theorem Sys.l1Find_l1Put_other (y : Sys) {c n : Nat} (h : c ≠ n) (x : L1Line) (asid : Asid) (line : Nat) :
    (y.l1Put n x).l1Find c asid line = y.l1Find c asid line := by
  unfold Sys.l1Find Sys.l1Put Sys.l1Drop
  rw [Sys.core_updCore, if_neg h, Sys.core_updCore, if_neg h]

theorem Sys.l1Find_l1Drop (y : Sys) (c : Nat) (asid : Asid) (line : Nat) : (y.l1Drop c asid line).l1Find c asid line = none := by
  rw [Sys.l1Find_eq_none]
  intro x hx
  unfold Sys.l1Drop at hx
  rw [Sys.core_updCore, if_pos rfl] at hx
  simpa [imp_iff_not_or] using (List.mem_filter.1 hx).2

/-- A line that an L1 has expelled is not found there. -/
theorem State.l1Find_l1Expel (s : State) (w : Who) (c : Nat) (asid : Asid) (line : Nat) :
    (s.l1Expel w c asid line).sys.l1Find c asid line = none := by
  unfold State.l1Expel
  cases h : s.sys.l1Find c asid line with
  | none => exact h
  | some x => exact Sys.l1Find_l1Drop ..

/-! ### What a read finds -/

section

variable {s : State} {w : Who} {l : Leaf} {va : Nat} (hm : isMemory (l.addr va) = true)
include hm

/-- An agent without an L1 reads memory. -/
theorem State.readPart_noL1 (hw : w.noL1 = true) (policy n : Nat) :
    (s.readPart w l policy va n).1 = s.sys.bytes (l.addr va) n := by
  unfold State.readPart
  simp [aperture_memory _ hm, hw]

/-- A read that misses the L1 finds memory. -/
theorem State.readPart_miss (miss : s.sys.l1Find w.core w.asid (va / 128) = none) (policy n : Nat) :
    (s.readPart w l policy va n).1 = s.sys.bytes (l.addr va) n := by
  unfold State.readPart
  simp only [aperture_memory _ hm, miss]
  split
  · rfl
  · split
    · rfl
    · split <;> rfl

/-- A read whose bytes the L1 has finds them there. -/
theorem State.readPart_full (hw : w.noL1 = false) {x : L1Line} (hit : s.sys.l1Find w.core w.asid (va / 128) = some x)
    {n : Nat} (full : byteMask (va % 128) n &&& ~~~x.valid = 0) (policy : Nat) :
    (s.readPart w l policy va n).1 = (List.range n).map fun i => lineByte x.data (va % 128 + i) := by
  unfold State.readPart
  simp [aperture_memory _ hm, hw, hit, full]

/-- A read that hits the L1: its bytes where it has them all, or else its dirty ones over those of memory (R110). -/
theorem State.readPart_hit (hw : w.noL1 = false) {x : L1Line} (hit : s.sys.l1Find w.core w.asid (va / 128) = some x)
    (policy : Nat) {n i : Nat} (hi : i < n) (inside : va % 128 + n ≤ 128) :
    (s.readPart w l policy va n).1[i]? = some (
      if byteMask (va % 128) n &&& ~~~x.valid = 0 ∨ x.dirty.getLsbD (va % 128 + i) = true then
        lineByte x.data (va % 128 + i)
      else s.sys.byte (l.addr va + i)) := by
  by_cases full : byteMask (va % 128) n &&& ~~~x.valid = 0
  · rw [State.readPart_full hm hw hit full]
    simp [full, hi]
  · have here : va % 128 + i < 128 := by omega
    have start := l.addr_line va
    have merged : ∀ d : BitVec 1024, lineByte ((bitList 128 x.dirty.toNat).foldl
        (fun (d : BitVec 1024) j => lineWrite d j [lineByte x.data j]) d) (va % 128 + i) =
          if x.dirty.getLsbD (va % 128 + i) = true then lineByte x.data (va % 128 + i) else lineByte d (va % 128 + i) := fun d => by
      rw [lineByte_overlay _ _ _ _ here fun j hj => ((mem_bitList _ _ _).1 hj).1]
      simp [mem_bitList, here, BitVec.getLsbD]
    have memory := (s.same_dirRead w l policy va (byteMask (va % 128) n)).1
    have under : lineByte ((s.dirRead w l policy va (byteMask (va % 128) n)).sys.lineData (l.addr va - va % 128)) (va % 128 + i) =
        s.sys.byte (l.addr va + i) := by
      rw [Sys.lineData_congr memory, Sys.lineByte_lineData _ _ here]
      congr 1
      omega
    unfold State.readPart
    simp only [aperture_memory _ hm, hw, hit, Bool.false_eq_true, if_false, full, false_or]
    split <;> simp [hi, merged, under]

/-- The L1 gives an agent what memory holds: it has no copy of the line, or a whole one. -/
def Sys.Transparent (y : Sys) (w : Who) (l : Leaf) (va : Nat) : Prop :=
  y.l1Find w.core w.asid (va / 128) = none ∨
    ∃ x, y.l1Find w.core w.asid (va / 128) = some x ∧ x.valid = BitVec.allOnes 128 ∧
      x.data = y.lineData (l.addr (va / 128 * 128))

/-- Then it reads the bytes of memory. -/
theorem State.readPart_holds (h : w.noL1 = true ∨ s.sys.Transparent w l va) {data : List Byte}
    (held : s.sys.Holds (l.addr va) data) (inside : va % 128 + data.length ≤ 128) (policy : Nat) :
    (s.readPart w l policy va data.length).1 = data := by
  rcases Bool.eq_false_or_eq_true w.noL1 with hw | hw
  · rw [State.readPart_noL1 hm hw, held.bytes]
  · rcases h.resolve_left (by simp [hw]) with miss | ⟨x, hit, valid, whole⟩
    · rw [State.readPart_miss hm miss, held.bytes]
    · rw [State.readPart_full hm hw hit (by simp [valid])]
      refine List.ext_getElem (by simp) fun i h1 h2 => ?_
      have here : va % 128 + i < 128 := by omega
      rw [List.getElem_map, List.getElem_range, whole, Sys.lineByte_lineData _ _ here, ← Nat.add_assoc, l.addr_lineStart,
        held i h2, List.getD_eq_getElem _ _ h2]

end

/-! ### Where a store leaves its bytes -/

theorem Sys.FewerLines.l1Find_none {c : Nat} {y z : Sys} (h : Sys.FewerLines c y z) {asid : Asid} {line : Nat}
    (absent : y.l1Find c asid line = none) : z.l1Find c asid line = none := by
  rw [Sys.l1Find_eq_none] at absent ⊢
  intro x hx hasid hline
  obtain ⟨x', hx', asid', line', -⟩ := h x hx
  exact absent x' hx' (asid'.trans hasid) (line'.trans hline)

/-- A whole copy put into the agent's L1. -/
theorem Sys.l1Put_transparent (y : Sys) {w : Who} {l : Leaf} {va : Nat} {x : L1Line} (hasid : x.asid = w.asid)
    (hline : x.line = va / 128) (valid : x.valid = BitVec.allOnes 128) (whole : x.data = y.lineData (l.addr (va / 128 * 128))) :
    (y.l1Put w.core x).Transparent w l va := by
  have same : (y.l1Put w.core x).mem = y.mem := rfl
  exact .inr ⟨x, y.l1Find_l1Put w.core hasid hline, valid, by rw [whole, Sys.lineData_congr same]⟩

/-- A clean copy is a whole one (R114). -/
theorem State.cleanCopy_transparent (s : State) (w : Who) (l : Leaf) (policy va : Nat) (u : ParkUnit)
    (miss : s.sys.l1Find w.core w.asid (va / 128) = none) : (s.cleanCopy w l policy (va / 128) u).sys.Transparent w l va := by
  unfold State.cleanCopy
  cases u with
  | l1 n =>
    dsimp only
    have fewer := (s.fewer_l1Expel w.core w n w.asid (va / 128)).trans
      (State.fewer_l1Trim w.core _ w n (va / 128) (Config.l1Ways - 1))
    generalize ((s.l1Expel w n w.asid (va / 128)).l1Trim w n (va / 128) (Config.l1Ways - 1)) = v at fewer
    by_cases own : w.core = n
    · subst own
      refine Sys.l1Put_transparent v.sys ?_ ?_ ?_ ?_ <;> rfl
    · exact .inl ((v.sys.l1Find_l1Put_other own ..).trans (fewer.l1Find_none miss))
  | cluster k => exact .inl (((Sys.same_fillCluster ..).fewer w.core).l1Find_none miss)
  | _ =>
    exact .inl (((foldl_same (fun y : Sys => y) _ (fun y n => y.same_fillSlice ..) _ s.sys).fewer w.core).l1Find_none miss)

/-- Placing a store's line gives its own L1 a whole copy or none (R112, R123). -/
theorem State.parkStore_transparent (s : State) (w : Who) (l : Leaf) (policy va : Nat) (set : BitVec 16) (r : Readers)
    (miss : s.sys.l1Find w.core w.asid (va / 128) = none) : (s.parkStore w l policy va set r).sys.Transparent w l va := by
  unfold State.parkStore
  dsimp only
  split
  · next copy =>
    have home : ∀ e, Sys.Same s.sys ((((s.sys.gather w (dirKey w.asid (va / 128))).settle w (dirKey w.asid (va / 128))).setEntry
        w.asid (va / 128) e).toMemory w (dirKey w.asid (va / 128)) (BitVec.allOnes 128)) := fun e =>
      (((s.sys.same_gather ..).trans (Sys.same_settle _ ..)).trans (Sys.same_setEntry _ ..)).trans (Sys.same_toMemory _ ..)
    have miss := fun e => ((home e).fewer w.core).l1Find_none miss
    cases copy with
    | none => exact .inl (miss _)
    | some u => exact State.cleanCopy_transparent _ w l policy va u (miss _)
  · split
    · split
      · exact .inl (((s.sys.same_setEntry ..).fewer w.core).l1Find_none miss)
      · exact .inl ((s.parkLine_flows (fun _ => False) w.core ..).2.l1Find_none miss)
    · have miss := fun e => ((s.sys.same_setEntry w.asid (va / 128) e).fewer w.core).l1Find_none miss
      exact .inl ((State.parkLine_flows (fun _ => False) w.core { s with sys := _ } ..).2.l1Find_none (miss _))

/-- A store that passes the L1 leaves its bytes in memory. -/
theorem State.writeThrough_holds (s : State) (w : Who) (l : Leaf) (policy va : Nat) (data : List Byte) (tag : Bool) :
    (s.writeThrough w l policy va data tag).sys.Holds (l.addr va) data := Sys.putBytes_holds _ _ data tag

theorem State.writeThrough_transparent (s : State) (w : Who) (l : Leaf) (policy va : Nat) (data : List Byte) (tag : Bool)
    (miss : s.sys.l1Find w.core w.asid (va / 128) = none) :
    (s.writeThrough w l policy va data tag).sys.Transparent w l va :=
  .inl ((s.fewer_writeThrough w.core w l policy va data tag).l1Find_none miss)

theorem Sys.dirty_of_cores {y z : Sys} (h : z.cores = y.cores) {a : Nat} {b : Byte} (d : z.Dirty a b) : y.Dirty a b := by
  unfold Sys.Dirty Sys.core at *
  rwa [h] at d

/-- A store with a reader set leaves its bytes in memory where no L1 has dirty ones to write over them (R112, R118). -/
theorem State.setWrite_parkStore_holds (s : State) (w : Who) (l : Leaf) (policy va : Nat) (set : BitVec 16) (r : Readers)
    (data : List Byte) (tag : Bool)
    (clean : ∀ a b, s.sys.Dirty a b → a < l.addr va ∨ l.addr va + data.length ≤ a) :
    ((s.setWrite w l va data tag).parkStore w l policy va set r).sys.Holds (l.addr va) data := by
  have written : (s.setWrite w l va data tag).sys.Holds (l.addr va) data := Sys.putBytes_holds _ _ data tag
  refine written.flows (State.parkStore_flows (fun _ => False) w.core _ w l policy va set r).1 fun a b dirty => clean a b ?_
  exact (Sys.same_l1 (s.sys.same_dirHome w l va (byteMask (va % 128) data.length))).1
    (Sys.dirty_of_cores (Sys.cores_putBytes ..) dirty)

/-- An agent whose L1 has bytes written over a line's data reads them (R110). -/
theorem State.readPart_written {s : State} {w : Who} {l : Leaf} {va : Nat} (hm : isMemory (l.addr va) = true)
    (hw : w.noL1 = false) {data : List Byte} (inside : va % 128 + data.length ≤ 128) {x : L1Line}
    (hit : s.sys.l1Find w.core w.asid (va / 128) = some x) {d : BitVec 1024} (hdata : x.data = lineWrite d (va % 128) data)
    {v : BitVec 128} (hvalid : x.valid = v ||| byteMask (va % 128) data.length) (policy : Nat) :
    (s.readPart w l policy va data.length).1 = data := by
  rw [State.readPart_full hm hw hit]
  · refine List.ext_getElem (by simp) fun i h1 h2 => ?_
    rw [List.getElem_map, List.getElem_range, hdata, lineByte_lineWrite _ _ _ _ (by omega), if_pos (by omega),
      Nat.add_sub_cancel_left, List.getD_eq_getElem _ _ h2]
  · rw [hvalid]
    refine BitVec.eq_of_getLsbD_eq fun k hk => ?_
    simp only [BitVec.getLsbD_and, BitVec.getLsbD_not, BitVec.getLsbD_or]
    cases (byteMask (va % 128) data.length).getLsbD k <;> simp

/-- A store to memory: what its agent reads there afterwards. -/
theorem State.readPart_writePart (s : State) {w : Who} {l : Leaf} {va : Nat} (hm : isMemory (l.addr va) = true)
    (policy policy' : Nat) (set : BitVec 16) (r : Readers) (data : List Byte) (tag : Bool)
    (inside : va % 128 + data.length ≤ 128)
    (apart : (∃ p, s.sys.parked w.asid (va / 128) = some p ∧ p.place = .l1 w.core) →
      s.sys.l1Find w.core w.asid (va / 128) = none)
    (clean : r ≠ .none → ∀ a b, s.sys.Dirty a b → a < l.addr va ∨ l.addr va + data.length ≤ a) :
    ((s.writePart w l policy set r va data tag).readPart w l policy' va data.length).1 = data := by
  have expelled := s.l1Find_l1Expel w w.core w.asid (va / 128)
  unfold State.writePart
  dsimp only
  rw [s.host.peerOf_memory _ hm]
  simp only [hm, Bool.not_true, Bool.false_eq_true, if_false]
  split
  · next given =>
    have flows : Sys.Flows (fun _ => False) s.sys (if w.noL1 = true then s else s.l1Expel w w.core w.asid (va / 128)).sys := by
      split
      · exact .refl _ _
      · exact s.flows_l1Expel _ ..
    refine State.readPart_holds hm ?_ (State.setWrite_parkStore_holds _ w l policy va set r data tag fun a b dirty =>
      clean given a b ((flows.2 a b dirty).resolve_right fun h => h)) inside policy'
    refine or_iff_not_imp_left.2 fun hw => State.parkStore_transparent _ w l policy va set r ?_
    rw [if_neg hw]
    exact (State.fewer_setWrite w.core _ w l va data tag).l1Find_none expelled
  · split
    · next direct =>
      refine State.readPart_holds hm (or_iff_not_imp_left.2 fun hw => State.writeThrough_transparent _ w l policy va data tag (apart ?_))
        (State.writeThrough_holds _ w l policy va data tag) inside policy'
      simpa [hw, Option.any_eq_true] using direct
    · next own =>
      have hw : w.noL1 = false := by
        by_contra hw
        exact own (by simp [hw])
      split
      · exact State.readPart_holds hm (.inr (State.writeThrough_transparent _ w l policy va data tag expelled))
          (State.writeThrough_holds _ w l policy va data tag) inside policy'
      · generalize (if (s.sys.l1Find w.core w.asid (va / 128)).isNone = true then s.l1Room w (va / 128) else s) = u
        have line : ∀ x0 : L1Line, x0.asid = w.asid → x0.line = va / 128 →
            ((u.sys.l1Find w.core w.asid (va / 128)).getD x0).asid = w.asid ∧
            ((u.sys.l1Find w.core w.asid (va / 128)).getD x0).line = va / 128 := fun x0 hasid hline => by
          cases hit : u.sys.l1Find w.core w.asid (va / 128) with
          | none => exact ⟨hasid, hline⟩
          | some x => exact Sys.l1Find_key hit
        refine State.readPart_written hm hw inside (Sys.l1Find_l1Put _ _ ?_ ?_) rfl rfl policy'
        · exact (line _ rfl rfl).1
        · exact (line _ rfl rfl).2

end Sys2Proof.Machine
end

section
/-! CLAIM O11. Scratch and an agent's own stores (R107, R110, R162-R164, R168): the settled statement. -/

namespace Sys2Proof.Machine

theorem ownStores : Claims.OwnStores := by
  intro s w l va hm
  refine ⟨fun policy n i hi inside => ?_, fun policy policy' set r data tag inside apart clean => ?_⟩
  · cases hw : w.noL1 with
    | true =>
      rw [State.readPart_noL1 hm hw, Sys.bytes_getElem? _ _ hi]
      rfl
    | false =>
      cases hit : s.sys.l1Find w.core w.asid (va / 128) with
      | none =>
        rw [State.readPart_miss hm hit, Sys.bytes_getElem? _ _ hi]
        simp
      | some x =>
        rw [State.readPart_hit hm hw hit policy hi inside]
        simp
  · refine s.readPart_writePart hm policy policy' set r data tag inside apart fun given a b dirty => ?_
    obtain ⟨c, x, hx, i, hi, bit, rfl, -⟩ := dirty
    exact clean given c x hx i hi bit

/-- Settles O11: a lane of LDS or STS takes part or is switched off and noted in SMASK, and what an agent reads of a line is its own
L1's bytes before those of memory, its own stores among them. -/
theorem scratchAndOwnStores : Obligations.ScratchAndOwnStores := ⟨scratchAccess, ownStores⟩

end Sys2Proof.Machine
end
